-- ==== Sys2Proof/Word.lean ====
section
/-! DEFINITION. The word types of the CL9 (R3, R4, R17, R20) and the two containers the state is made of: 32 lanes, and
sparse tables by number. Plain types and abbreviations only; every operation a test could show wrong stands under Machine/. -/

namespace Sys2Proof

/-- One byte of memory (R4). -/
abbrev Byte := BitVec 8

/-- A 32-bit lane word or scalar register (R20). -/
abbrev Word := BitVec 32

/-- A 64-bit value: an even register pair, an instruction word, a handle, a capstan register (R20, R61, R214). -/
abbrev DWord := BitVec 64

/-- A 56-bit device virtual address, the width of PC and MR (R9). -/
abbrev VAddr := BitVec 56

/-- A set of lanes of a strand: bit l stands for lane l (R111 ACTIVE). -/
abbrev LaneMask := BitVec 32

/-- A lane number. -/
abbrev Lane := Fin 32

/-- One value per lane. -/
abbrev Lanes (α : Type) := Vector α 32

/-- The lanes of a function. -/
def Lanes.tab {α : Type} (f : Lane → α) : Lanes α := Vector.ofFn f

/-- A sparse table: pairs of a number and a value, the numbers strictly rising. -/
abbrev AMap (α : Type) := List (Nat × α)

/-- A 72-bit silt cell (R52). -/
abbrev Cell72 := BitVec 72

end Sys2Proof
end

