-- ==== Sys2Proof/Syntax.lean ====
section
/-! DEFINITION. The instructions of the CL9: the strand word (R17), the capstan word (R61), and ONE inductive with a
constructor for each row of the opcode table: 176 strand instructions, 48 capstan instructions and 79 device steps. -/

namespace Sys2Proof

/-- Element types T (R20). -/
inductive ETy where
  | s32 | w32 | f32 | bf16x2 | f16x2 | n8x4 | s64 | w64
  deriving DecidableEq, Repr

/-- The fields of a strand instruction word but its opcode (R17): switch marker S, guard predicate GP and invert GI, type T,
the operand bytes D, A, B, C and IMM16. The bytes stay as encoded, since an entry reads each as a specifier (R18) or as a
number (R74). -/
structure SWord where
  sw  : Bool
  gp  : BitVec 3
  gi  : Bool
  ty  : ETy
  d   : BitVec 8
  a   : BitVec 8
  b   : BitVec 8
  c   : BitVec 8
  imm : BitVec 16
  deriving DecidableEq, Repr

/-- The fields of a capstan instruction word but its opcode (R61). The reserved bits [15:12] and [47:36] are no fields: the
decoder refuses a word that sets one (R64). -/
structure CWord where
  sw   : Bool
  cond : BitVec 3
  d    : BitVec 5
  a    : BitVec 5
  b    : BitVec 5
  c    : BitVec 5
  imm  : BitVec 16
  deriving DecidableEq, Repr

/-- One move of WRITE_PROPAGATION (R205, R206): the ix-th committed write of a core reaches its die point; the ix-th write at a die
point reaches the device point; the ix-th write at the device point reaches the system point; a core's view moves to its die point's value;
a die point moves to the device point's value. -/
inductive Hop where
  | toDie (core ix : Nat)
  | toDevice (die ix : Nat)
  | toSystem (ix : Nat)
  | viewRefresh (core key : Nat)
  | dieRefresh (die key : Nat)
  deriving DecidableEq, Repr

/-- Traffic that arrives on a Tirral port from a peer (R387, R389, R199): bytes put into this device's memory, a read of it
(its answer leaves the device), a contribution to a reduction, and the word that one of this device's operations cannot be
served. Addresses are this device's physical keys. -/
inductive Flit where
  | put (key : Nat) (bytes : List Byte)
  | get (key len : Nat)
  | contribution (group seq op : Nat) (elems : List DWord)
  | unreachable (core ix : Nat)
  deriving DecidableEq, Repr

/-- One constructor for each row of spec/opcode_table.json. A step of the device that concerns one agent finds it in the state's
focus (Machine/State.lean). -/
inductive Instr where
  /-- NOP, strand opcode 0x00 (R78). -/
  | nop (w : SWord)
  /-- MOV, strand opcode 0x01 (R78). -/
  | mov (w : SWord)
  /-- MOVI, strand opcode 0x02 (R78). -/
  | movi (w : SWord)
  /-- MOVH, strand opcode 0x03 (R78). -/
  | movh (w : SWord)
  /-- SEL, strand opcode 0x04 (R78). -/
  | sel (w : SWord)
  /-- LEA, strand opcode 0x05 (R78). -/
  | lea (w : SWord)
  /-- SRD, strand opcode 0x06 (R110). -/
  | srd (w : SWord)
  /-- SWR, strand opcode 0x07 (R110). -/
  | swr (w : SWord)
  /-- IADD, strand opcode 0x08 (R80). -/
  | iadd (w : SWord)
  /-- ISUB, strand opcode 0x09 (R80). -/
  | isub (w : SWord)
  /-- IADDC, strand opcode 0x0A (R80). -/
  | iaddc (w : SWord)
  /-- IMUL, strand opcode 0x0B (R80). -/
  | imul (w : SWord)
  /-- IMULH, strand opcode 0x0C (R80). -/
  | imulh (w : SWord)
  /-- IMAD, strand opcode 0x0D (R80). -/
  | imad (w : SWord)
  /-- IMADW, strand opcode 0x0E (R80). -/
  | imadw (w : SWord)
  /-- IDIV, strand opcode 0x0F (R81). -/
  | idiv (w : SWord)
  /-- IREM, strand opcode 0x10 (R81). -/
  | irem (w : SWord)
  /-- IMIN, strand opcode 0x11 (R80). -/
  | imin (w : SWord)
  /-- IMAX, strand opcode 0x12 (R80). -/
  | imax (w : SWord)
  /-- IABS, strand opcode 0x13 (R80). -/
  | iabs (w : SWord)
  /-- INEG, strand opcode 0x14 (R80). -/
  | ineg (w : SWord)
  /-- ISAT, strand opcode 0x15 (R82). -/
  | isat (w : SWord)
  /-- AND, strand opcode 0x16 (R83). -/
  | and (w : SWord)
  /-- OR, strand opcode 0x17 (R83). -/
  | or (w : SWord)
  /-- XOR, strand opcode 0x18 (R83). -/
  | xor (w : SWord)
  /-- ANDN, strand opcode 0x19 (R83). -/
  | andn (w : SWord)
  /-- NOT, strand opcode 0x1A (R83). -/
  | not (w : SWord)
  /-- SHL, strand opcode 0x1B (R83). -/
  | shl (w : SWord)
  /-- SHR, strand opcode 0x1C (R83). -/
  | shr (w : SWord)
  /-- SAR, strand opcode 0x1D (R83). -/
  | sar (w : SWord)
  /-- ROTL, strand opcode 0x1E (R83). -/
  | rotl (w : SWord)
  /-- BFX, strand opcode 0x1F (R83). -/
  | bfx (w : SWord)
  /-- BFI, strand opcode 0x20 (R83). -/
  | bfi (w : SWord)
  /-- POPC, strand opcode 0x21 (R83). -/
  | popc (w : SWord)
  /-- CLZ, strand opcode 0x22 (R83). -/
  | clz (w : SWord)
  /-- CTZ, strand opcode 0x23 (R83). -/
  | ctz (w : SWord)
  /-- BREV, strand opcode 0x24 (R83). -/
  | brev (w : SWord)
  /-- BPRM, strand opcode 0x25 (R83). -/
  | bprm (w : SWord)
  /-- ICMP, strand opcode 0x26 (R79). -/
  | icmp (w : SWord)
  /-- ISET, strand opcode 0x27 (R79). -/
  | iset (w : SWord)
  /-- PLOG, strand opcode 0x28 (R84). -/
  | plog (w : SWord)
  /-- PMOV, strand opcode 0x29 (R85). -/
  | pmov (w : SWord)
  /-- IDOT4, strand opcode 0x2A (R80). -/
  | idot4 (w : SWord)
  /-- IDOT2, strand opcode 0x2B (R80). -/
  | idot2 (w : SWord)
  /-- IADD3, strand opcode 0x2C (R80). -/
  | iadd3 (w : SWord)
  /-- BLUT, strand opcode 0x2D (R84). -/
  | blut (w : SWord)
  /-- RHASH, strand opcode 0x2E (R86). -/
  | rhash (w : SWord)
  /-- FSHF, strand opcode 0x2F (R83). -/
  | fshf (w : SWord)
  /-- FADD, strand opcode 0x30 (R88). -/
  | fadd (w : SWord)
  /-- FSUB, strand opcode 0x31 (R88). -/
  | fsub (w : SWord)
  /-- FMUL, strand opcode 0x32 (R88). -/
  | fmul (w : SWord)
  /-- FFMA, strand opcode 0x33 (R88). -/
  | ffma (w : SWord)
  /-- FMIN, strand opcode 0x34 (R89). -/
  | fmin (w : SWord)
  /-- FMAX, strand opcode 0x35 (R89). -/
  | fmax (w : SWord)
  /-- FMINP, strand opcode 0x36 (R89). -/
  | fminp (w : SWord)
  /-- FMAXP, strand opcode 0x37 (R89). -/
  | fmaxp (w : SWord)
  /-- FABS, strand opcode 0x38 (R89). -/
  | fabs (w : SWord)
  /-- FNEG, strand opcode 0x39 (R89). -/
  | fneg (w : SWord)
  /-- FCMP, strand opcode 0x3A (R90). -/
  | fcmp (w : SWord)
  /-- FSET, strand opcode 0x3B (R90). -/
  | fset (w : SWord)
  /-- FCLS, strand opcode 0x3C (R90). -/
  | fcls (w : SWord)
  /-- FRND, strand opcode 0x3D (R91). -/
  | frnd (w : SWord)
  /-- FSCL, strand opcode 0x3E (R88). -/
  | fscl (w : SWord)
  /-- FEXPN, strand opcode 0x3F (R92). -/
  | fexpn (w : SWord)
  /-- FDOT2, strand opcode 0x40 (R88). -/
  | fdot2 (w : SWord)
  /-- FDOT4, strand opcode 0x41 (R88). -/
  | fdot4 (w : SWord)
  /-- FCPS, strand opcode 0x42 (R89). -/
  | fcps (w : SWord)
  /-- FMED3, strand opcode 0x43 (R89). -/
  | fmed3 (w : SWord)
  /-- EXP2, strand opcode 0x44 (R93). -/
  | exp2 (w : SWord)
  /-- LOG2, strand opcode 0x45 (R94). -/
  | log2 (w : SWord)
  /-- RCP, strand opcode 0x46 (R94). -/
  | rcp (w : SWord)
  /-- RSQ, strand opcode 0x47 (R94). -/
  | rsq (w : SWord)
  /-- SQRT, strand opcode 0x48 (R94). -/
  | sqrt (w : SWord)
  /-- SINP, strand opcode 0x49 (R94). -/
  | sinp (w : SWord)
  /-- COSP, strand opcode 0x4A (R94). -/
  | cosp (w : SWord)
  /-- TANH, strand opcode 0x4B (R94). -/
  | tanh (w : SWord)
  /-- FDIV, strand opcode 0x4C (R94). -/
  | fdiv (w : SWord)
  /-- FADD3, strand opcode 0x4D (R88). -/
  | fadd3 (w : SWord)
  /-- CVTF, strand opcode 0x50 (R96). -/
  | cvtf (w : SWord)
  /-- CVNE, strand opcode 0x51 (R97). -/
  | cvne (w : SWord)
  /-- CVND, strand opcode 0x52 (R97). -/
  | cvnd (w : SWord)
  /-- I2F, strand opcode 0x53 (R98). -/
  | i2f (w : SWord)
  /-- F2I, strand opcode 0x54 (R98). -/
  | f2i (w : SWord)
  /-- PACK, strand opcode 0x55 (R99). -/
  | pack (w : SWord)
  /-- UNPK, strand opcode 0x56 (R99). -/
  | unpk (w : SWord)
  /-- FXQ, strand opcode 0x57 (R100). -/
  | fxq (w : SWord)
  /-- FXD, strand opcode 0x58 (R100). -/
  | fxd (w : SWord)
  /-- BSCL, strand opcode 0x59 (R101). -/
  | bscl (w : SWord)
  /-- SHFL, strand opcode 0x60 (R173). -/
  | shfl (w : SWord)
  /-- BXCH, strand opcode 0x61 (R175). -/
  | bxch (w : SWord)
  /-- RXCH, strand opcode 0x62 (R176). -/
  | rxch (w : SWord)
  /-- VOTE, strand opcode 0x63 (R177). -/
  | vote (w : SWord)
  /-- MATCH, strand opcode 0x64 (R178). -/
  | matchLanes (w : SWord)
  /-- LMOV, strand opcode 0x65 (R174). -/
  | lmov (w : SWord)
  /-- LPUT, strand opcode 0x66 (R174). -/
  | lput (w : SWord)
  /-- REDL, strand opcode 0x67 (R179). -/
  | redl (w : SWord)
  /-- SCANL, strand opcode 0x68 (R180). -/
  | scanl (w : SWord)
  /-- LFND, strand opcode 0x69 (R181). -/
  | lfnd (w : SWord)
  /-- LROT, strand opcode 0x6A (R174). -/
  | lrot (w : SWord)
  /-- BRA, strand opcode 0x70 (R28). -/
  | bra (w : SWord)
  /-- BRX, strand opcode 0x71 (R104). -/
  | brx (w : SWord)
  /-- CALL, strand opcode 0x72 (R105). -/
  | call (w : SWord)
  /-- CALLX, strand opcode 0x73 (R105). -/
  | callx (w : SWord)
  /-- RET, strand opcode 0x74 (R104). -/
  | ret (w : SWord)
  /-- JOIN, strand opcode 0x75 (R152). -/
  | join (w : SWord)
  /-- MEET, strand opcode 0x76 (R153). -/
  | meet (w : SWord)
  /-- EXIT, strand opcode 0x77 (R106). -/
  | exit (w : SWord)
  /-- TRAP, strand opcode 0x78 (R107). -/
  | trap (w : SWord)
  /-- YIELD, strand opcode 0x79 (R108). -/
  | yield (w : SWord)
  /-- PTOK, strand opcode 0x7A (R169). -/
  | ptok (w : SWord)
  /-- BRK, strand opcode 0x7B (R107). -/
  | brk (w : SWord)
  /-- BDEC, strand opcode 0x7C (R109). -/
  | bdec (w : SWord)
  /-- LD, strand opcode 0x80 (R118). -/
  | ld (w : SWord)
  /-- ST, strand opcode 0x81 (R118). -/
  | st (w : SWord)
  /-- LDS, strand opcode 0x82 (R119). -/
  | lds (w : SWord)
  /-- STS, strand opcode 0x83 (R119). -/
  | sts (w : SWord)
  /-- LDC, strand opcode 0x84 (R121). -/
  | ldc (w : SWord)
  /-- LDAQ, strand opcode 0x85 (R122). -/
  | ldaq (w : SWord)
  /-- STRL, strand opcode 0x86 (R122). -/
  | strl (w : SWord)
  /-- STNT, strand opcode 0x87 (R118). -/
  | stnt (w : SWord)
  /-- ATOM, strand opcode 0x88 (R123). -/
  | atom (w : SWord)
  /-- CAS, strand opcode 0x89 (R124). -/
  | cas (w : SWord)
  /-- FXADD, strand opcode 0x8A (R126). -/
  | fxadd (w : SWord)
  /-- ATOMS, strand opcode 0x8B (R125). -/
  | atoms (w : SWord)
  /-- FENCE, strand opcode 0x8C (R127). -/
  | fence (w : SWord)
  /-- PREF, strand opcode 0x8D (R128). -/
  | pref (w : SWord)
  /-- LDL, strand opcode 0x8E (R252). -/
  | ldl (w : SWord)
  /-- STLB, strand opcode 0x8F (R252). -/
  | stlb (w : SWord)
  /-- LDW, strand opcode 0x90 (R227). -/
  | ldw (w : SWord)
  /-- OUPG, strand opcode 0x91 (R228). -/
  | oupg (w : SWord)
  /-- OREL, strand opcode 0x92 (R229). -/
  | orel (w : SWord)
  /-- OWK, strand opcode 0x93 (R229). -/
  | owk (w : SWord)
  /-- OWD, strand opcode 0x94 (R229). -/
  | owd (w : SWord)
  /-- ONEW, strand opcode 0x95 (R230). -/
  | onew (w : SWord)
  /-- OPRI, strand opcode 0x96 (R231). -/
  | opri (w : SWord)
  /-- OAPP, strand opcode 0x97 (R232). -/
  | oapp (w : SWord)
  /-- BTINV, strand opcode 0x98 (R235). -/
  | btinv (w : SWord)
  /-- BTLD, strand opcode 0x99 (R234). -/
  | btld (w : SWord)
  /-- CPY, strand opcode 0xA0 (R249). -/
  | cpy (w : SWord)
  /-- CPYG, strand opcode 0xA1 (R249). -/
  | cpyg (w : SWord)
  /-- CPYS, strand opcode 0xA2 (R249). -/
  | cpys (w : SWord)
  /-- CHAN, strand opcode 0xA3 (R250). -/
  | chan (w : SWord)
  /-- TAIL, strand opcode 0xA4 (R250). -/
  | tail (w : SWord)
  /-- MCALL, strand opcode 0xA5 (R279). -/
  | mcall (w : SWord)
  /-- SIGD, strand opcode 0xA6 (R251). -/
  | sigd (w : SWord)
  /-- SIGR, strand opcode 0xA7 (R251). -/
  | sigr (w : SWord)
  /-- MPOST, strand opcode 0xA8 (R314). -/
  | mpost (w : SWord)
  /-- MTAKE, strand opcode 0xA9 (R315). -/
  | mtake (w : SWord)
  /-- XRED, strand opcode 0xAA (R389). -/
  | xred (w : SWord)
  /-- XPUT, strand opcode 0xAB (R387). -/
  | xput (w : SWord)
  /-- XGET, strand opcode 0xAC (R387). -/
  | xget (w : SWord)
  /-- BAR, strand opcode 0xB0 (R188). -/
  | bar (w : SWord)
  /-- BARA, strand opcode 0xB1 (R189). -/
  | bara (w : SWord)
  /-- BARW, strand opcode 0xB2 (R189). -/
  | barw (w : SWord)
  /-- BARX, strand opcode 0xB3 (R190). -/
  | barx (w : SWord)
  /-- WANY, strand opcode 0xB4 (R307). -/
  | wany (w : SWord)
  /-- EVB, strand opcode 0xB5 (R310). -/
  | evb (w : SWord)
  /-- EVM, strand opcode 0xB6 (R311). -/
  | evm (w : SWord)
  /-- EVP, strand opcode 0xB7 (R311). -/
  | evp (w : SWord)
  /-- EVC, strand opcode 0xB8 (R311). -/
  | evc (w : SWord)
  /-- SFLG, strand opcode 0xB9 (R192). -/
  | sflg (w : SWord)
  /-- MCNT, strand opcode 0xBA (R316). -/
  | mcnt (w : SWord)
  /-- TSPN, strand opcode 0xC0 (R328). -/
  | tspn (w : SWord)
  /-- TSTL, strand opcode 0xC1 (R329). -/
  | tstl (w : SWord)
  /-- TDEC, strand opcode 0xC2 (R330). -/
  | tdec (w : SWord)
  /-- TEND, strand opcode 0xC3 (R331). -/
  | tend (w : SWord)
  /-- XACQ, strand opcode 0xC4 (R193). -/
  | xacq (w : SWord)
  /-- XREL, strand opcode 0xC5 (R194). -/
  | xrel (w : SWord)
  /-- ENRD, strand opcode 0xC6 (R332). -/
  | enrd (w : SWord)
  /-- GCND, strand opcode 0xC7 (R333). -/
  | gcnd (w : SWord)
  /-- SLEEP, strand opcode 0xC8 (R317). -/
  | sleep (w : SWord)
  /-- TRDL, strand opcode 0xD0 (R366). -/
  | trdl (w : SWord)
  /-- TWRL, strand opcode 0xD1 (R366). -/
  | twrl (w : SWord)
  /-- TRET, strand opcode 0xD2 (R368). -/
  | tret (w : SWord)
  /-- TINF, strand opcode 0xD3 (R364). -/
  | tinf (w : SWord)
  /-- TMSK, strand opcode 0xD4 (R367). -/
  | tmsk (w : SWord)
  /-- CNOP, capstan opcode 0x00 (R283). -/
  | cnop (w : CWord)
  /-- CMOV, capstan opcode 0x01 (R283). -/
  | cmov (w : CWord)
  /-- CMOVI, capstan opcode 0x02 (R283). -/
  | cmovi (w : CWord)
  /-- CADD, capstan opcode 0x03 (R283). -/
  | cadd (w : CWord)
  /-- CSUB, capstan opcode 0x04 (R283). -/
  | csub (w : CWord)
  /-- CMUL, capstan opcode 0x05 (R283). -/
  | cmul (w : CWord)
  /-- CAND, capstan opcode 0x06 (R283). -/
  | cand (w : CWord)
  /-- COR, capstan opcode 0x07 (R283). -/
  | cor (w : CWord)
  /-- CSHL, capstan opcode 0x08 (R283). -/
  | cshl (w : CWord)
  /-- CSHR, capstan opcode 0x09 (R283). -/
  | cshr (w : CWord)
  /-- CCMP, capstan opcode 0x0A (R63). -/
  | ccmp (w : CWord)
  /-- CBR, capstan opcode 0x0B (R63). -/
  | cbr (w : CWord)
  /-- CBRA, capstan opcode 0x0C (R283). -/
  | cbra (w : CWord)
  /-- CLOOP, capstan opcode 0x0D (R283). -/
  | cloop (w : CWord)
  /-- CLD, capstan opcode 0x0E (R284). -/
  | cld (w : CWord)
  /-- CST, capstan opcode 0x0F (R284). -/
  | cst (w : CWord)
  /-- CRET, capstan opcode 0x10 (R299). -/
  | cret (w : CWord)
  /-- CARG, capstan opcode 0x11 (R299). -/
  | carg (w : CWord)
  /-- CWAIT, capstan opcode 0x12 (R284). -/
  | cwait (w : CWord)
  /-- CFENCE, capstan opcode 0x13 (R284). -/
  | cfence (w : CWord)
  /-- MLOAD, capstan opcode 0x14 (R286). -/
  | mload (w : CWord)
  /-- MLOADH, capstan opcode 0x15 (R286). -/
  | mloadh (w : CWord)
  /-- MMA, capstan opcode 0x16 (R287). -/
  | mma (w : CWord)
  /-- MMAR, capstan opcode 0x17 (R287). -/
  | mmar (w : CWord)
  /-- MGRP, capstan opcode 0x18 (R288). -/
  | mgrp (w : CWord)
  /-- MZERO, capstan opcode 0x19 (R290). -/
  | mzero (w : CWord)
  /-- MANC, capstan opcode 0x1A (R290). -/
  | manc (w : CWord)
  /-- MDRN, capstan opcode 0x1B (R290). -/
  | mdrn (w : CWord)
  /-- MDACC, capstan opcode 0x1C (R290). -/
  | mdacc (w : CWord)
  /-- MKNOT, capstan opcode 0x1D (R291). -/
  | mknot (w : CWord)
  /-- MLAB, capstan opcode 0x1E (R291). -/
  | mlab (w : CWord)
  /-- MSUMQ, capstan opcode 0x1F (R291). -/
  | msumq (w : CWord)
  /-- MROW, capstan opcode 0x20 (R290). -/
  | mrow (w : CWord)
  /-- MTRN, capstan opcode 0x21 (R286). -/
  | mtrn (w : CWord)
  /-- MSADD, capstan opcode 0x22 (R290). -/
  | msadd (w : CWord)
  /-- MSTO, capstan opcode 0x23 (R290). -/
  | msto (w : CWord)
  /-- MSLD, capstan opcode 0x24 (R290). -/
  | msld (w : CWord)
  /-- VPROJ, capstan opcode 0x25 (R294). -/
  | vproj (w : CWord)
  /-- VPRJB, capstan opcode 0x26 (R297). -/
  | vprjb (w : CWord)
  /-- VMRG, capstan opcode 0x27 (R296). -/
  | vmrg (w : CWord)
  /-- VRES, capstan opcode 0x28 (R295). -/
  | vres (w : CWord)
  /-- VCLR, capstan opcode 0x29 (R298). -/
  | vclr (w : CWord)
  /-- VHEAP, capstan opcode 0x2A (R298). -/
  | vheap (w : CWord)
  /-- VNORM, capstan opcode 0x2B (R298). -/
  | vnorm (w : CWord)
  /-- VSTAT, capstan opcode 0x2C (R298). -/
  | vstat (w : CWord)
  /-- CPRI, capstan opcode 0x2D (R299). -/
  | cpri (w : CWord)
  /-- CSEQ, capstan opcode 0x2E (R299). -/
  | cseq (w : CWord)
  /-- CTRAP, capstan opcode 0x2F (R299). -/
  | ctrap (w : CWord)
  /-- WRITE_PROPAGATION (R206): A committed write reaches a die, device or system point, or a view moves. -/
  | writePropagation (h : Hop)
  /-- INTERRUPT_THRESHOLD (R344): A vector's advance count reaches its threshold and its interrupt is raised. -/
  | interruptThreshold (vec : Nat)
  /-- FLIT_RETRANSMIT (R384): A flit whose check code fails is retransmitted. -/
  | flitRetransmit (port : Nat)
  /-- TIRRAL_PORT_FAILURE (R393): A Tirral port fails or loses lanes; traffic is rerouted or ends UNREACH. -/
  | tirralPortFailure (port : Nat) (lost : Bool)
  /-- ECC_CORRECTED (R406): A corrected error increments ERRCE and may spare a row. -/
  | eccCorrected (key : Nat) (spare : Bool)
  /-- UNCORRECTABLE_ERROR (R406): An uncorrectable error increments ERRUE and poisons the data. -/
  | uncorrectableError (key : Nat)
  /-- NEAR_STORE_SCRUB (R406): Every near-store line is read and corrected at least every 4 hours. -/
  | nearStoreScrub (line : Nat)
  /-- ENERGY_PERIOD (R405): Each 1 ms period adds ERATE to queue credits. -/
  | energyPeriod (milliwatts : Nat)
  /-- SRTAIL (R212): The host's doorbell write of the submission tail. -/
  | srtail (v : DWord)
  /-- CRHEAD (R396): The host frees completion records, letting a held record be written. -/
  | crhead (v : DWord)
  /-- SRBASE (R396): Write of the submission ring base, accepted only when idle. -/
  | srbase (v : DWord)
  /-- SRSIZE (R396): Write creating the submission ring. -/
  | srsize (v : DWord)
  /-- CRBASE (R396): Write of the completion ring base, accepted only when idle. -/
  | crbase (v : DWord)
  /-- CRSIZE (R396): Write creating the completion ring. -/
  | crsize (v : DWord)
  /-- POWERCAP (R405): Write of the power cap, clamped to 600-1500 W. -/
  | powercap (v : DWord)
  /-- TABLE_BASE_WRITE (R395): Write of a table base, accepted only while no task exists. -/
  | tableBaseWrite (table : Nat) (v : DWord)
  /-- REGISTER_WRITE (R395): Write to a management register with no behaviour of its own. -/
  | registerWrite (off : Nat) (v : DWord)
  /-- UNASSIGNED_OPCODE (R68): A strand word whose opcode is unassigned issues and traps UNDEF precisely. -/
  | unassignedOpcode (raw : DWord)
  /-- UNASSIGNED_CAPSTAN_OPCODE (R64): A capstan word with an opcode from 0x30 to 0xFF fails the capstan check with cause UNDEF and ends the
  call. -/
  | unassignedCapstanOpcode (raw : DWord)
  /-- TIRRAL_FLIT (R387): Traffic arriving on a Tirral port from a peer device (a remote XPUT, XGET, XRED contribution or result, or a
  tier-3 load or store) is served against this device's memory. -/
  | tirralFlit (f : Flit)
  /-- CLAUSE_HEADER (R16): A selected PC group fetches and checks a clause header and waits for its wait mask. At the focus: core, slot,
  strand. -/
  | clauseHeader
  /-- LONG_LATENCY_RESULT (R22): A load, transcendental or cross-lane result is written to its register. At the focus: core, slot, strand,
  ix. -/
  | longLatencyResult
  /-- STORE_COMMIT (R204): A store leaves the strand's queue and commits at the core point. At the focus: core, slot, strand; 32 for
  the capstan's queue. -/
  | storeCommit
  /-- DEFERRED_QUIESCE (R360): After 65,536 words since the first fault of a split, the deferred trap is taken. At the focus: core, slot,
  strand. -/
  | deferredQuiesce
  /-- SLEEP_EXPIRY (R317): A sleeping group's cycle count expires and it continues. At the focus: core, slot, strand, and the group's lowest
  lane in ix. -/
  | sleepExpiry
  /-- SIGR_WAKE (R251): A waiting SIGR sees the signal at or below its bound. At the focus: core, slot, strand. -/
  | sigrWake
  /-- TSPN_ROOM (R328): A blocked TSPN finds room and pushes its remaining lanes. At the focus: core, slot, strand. -/
  | tspnRoom
  /-- SNAG_SEARCH (R346): After 2^20 blocked cycles the detector searches for a cycle and traps SNAG. At the focus: core, slot, strand. -/
  | snagSearch
  /-- COPY_ACCEPT (R243): The engine takes a copy record, reads its descriptors and checks it. At the focus: core, ix. -/
  | copyAccept
  /-- COPY_PAGE_IN (R242): A paged source row in a tier-1 page is paged in before it is read. At the focus: core, ix, row. -/
  | copyPageIn
  /-- COPY_COMPLETE (R244): A record completes: writes commit, status, SEQ, token and barrier or signal actions. At the focus: core, ix. -/
  | copyComplete
  /-- CALL_ACCEPT (R254): An MCALL enters the call chain when an entry is free. At the focus: core. -/
  | callAccept
  /-- CALL_START (R254): The free capstan starts the next queued call by arbitration. At the focus: core. -/
  | callStart
  /-- CAPSTAN_CLAUSE_HEADER (R64): The capstan fetches and checks a class-01 header. At the focus: core. -/
  | capstanClauseHeader
  /-- CLD_RESULT (R284): A capstan load's result is written. At the focus: core, ix. -/
  | cldResult
  /-- CWAIT_WAKE (R284): A waiting CWAIT sees the signal at or below its bound. At the focus: core. -/
  | cwaitWake
  /-- CALL_COMPLETE (R281): A call completes: writes commit, CSEQ, token and barrier arrival. At the focus: core. -/
  | callComplete
  /-- MRESET (R256): A call exceeds its budget and the core's matrix complex is reset. At the focus: core. -/
  | mreset
  /-- CLAY_PARITY_FAILURE (R260): A clay parity failure reloads the slot or ends the call with CLAYERR. At the focus: core, K-segment in ix,
  N-segment in row. -/
  | clayParityFailure
  /-- RECLAIM (R221): Tilth destroys weak-only objects until free frames reach HIGH. At the focus: job in ix, tier in row. -/
  | reclaim
  /-- OBJECT_MEMORY_RETURN (R222): Once LDWs and pins are done, the entry is set free and memory returned. At the focus: job in ix, object
  index in row. -/
  | objectMemoryReturn
  /-- BTINV_COMPLETE (R235): Pins are released and caches clean, and BTINV's token is written. At the focus: ix. -/
  | btinvComplete
  /-- DISPATCH_DECISION (R321): The dispatcher pops an eligible record for a core by level and DRR. At the focus: core. -/
  | dispatchDecision
  /-- PASS_COUNT_PROMOTION (R323): A record's pass count reaches 4096 and it moves up a level. At the focus: queue in ix, level in row,
  place in slot. -/
  | passCountPromotion
  /-- TASK_END (R326): After engines drain, the cord's resources are freed and successors decremented. At the focus: core, slot. -/
  | taskEnd
  /-- RUN (R341): A RUN submission entry starts a graph instance. -/
  | run
  /-- POST (R343): A POST entry delivers a message to a running strand. -/
  | post
  /-- WATCH (R343): A WATCH entry sets up a signal watch for a strand. -/
  | watch
  /-- BADENTRY (R341): A submission entry of unknown kind completes with BADENTRY. -/
  | badentry
  /-- WATCH_FIRE (R343): A watched signal reaches its bound and a SIGNAL message is posted. At the focus: ix. -/
  | watchFire
  /-- KERNEL_NODE (R336): A KERNEL node starts and places a launch position in the queue. At the focus: instance in ix, node in row. -/
  | kernelNode
  /-- COPY_NODE (R336): A COPY node walks its chain on the graph unit's engine. At the focus: instance in ix, node in row. -/
  | copyNode
  /-- SIGNAL_NODE (R336): A SIGNAL node subtracts a value from a signal. At the focus: instance in ix, node in row. -/
  | signalNode
  /-- WAIT_NODE (R336): A WAIT node starts waiting on a signal. At the focus: instance in ix, node in row. -/
  | waitNode
  /-- WAIT_NODE_SATISFIED (R336): A WAIT node's signal reaches its bound and the node completes. At the focus: instance in ix, node in row.
  -/
  | waitNodeSatisfied
  /-- COND_NODE (R337): A COND node reads its word and re-arms its set or exits. At the focus: instance in ix, node in row. -/
  | condNode
  /-- NOTIFY_NODE (R354): A NOTIFY node counts an advance and optionally flushes its vector. At the focus: instance in ix, node in row. -/
  | notifyNode
  /-- END_NODE (R338): The END node decrements the completion signal. At the focus: instance in ix, node in row. -/
  | endNode
  /-- GRAPH_FAILURE (R338): After started nodes complete, a failed instance writes its failure signal and record. At the focus: instance in
  ix. -/
  | graphFailure
  /-- FABRIC_ACCEPT (R388): A fabric operation is accepted and checked. At the focus: core, ix. -/
  | fabricAccept
  /-- FABRIC_COMPLETE (R388): A fabric operation completes and its token is written. At the focus: core, ix. -/
  | fabricComplete
  /-- XRED_COMBINE (R389): n contributions of a SEQ have arrived and the result is combined and delivered. At the focus: group in ix, SEQ in
  row. -/
  | xredCombine
  /-- CORD_SAVE (R373): After accepted work drains, the cord is saved and its record requeued. At the focus: core, slot. -/
  | cordSave
  /-- CLAY_MACRO_SPARE (R406): A failed clay macro is replaced by a spare between calls. At the focus: core, macro in ix. -/
  | clayMacroSpare
  /-- DEVICE_RESET (R408): Reset: firmware verification, near-store zeroing and link training. -/
  | deviceReset
  /-- INVAL (R398): Command removing translation-cache entries of a range. -/
  | inval
  /-- RELOAD (R398): Command making the device reread a table entry. -/
  | reload
  /-- JOBSTART (R402): Command making a job's key live. -/
  | jobstart
  /-- JOBEND (R402): Command destroying a job's key and zeroing its near-store region. -/
  | jobend
  /-- VACATE (R370): Command vacating k cores for a level. -/
  | vacate
  /-- WITHDRAW (R398): Command ending the vacate request. -/
  | withdraw
  /-- COREOFF (R398): Command vacating a core and removing it from CORES. -/
  | coreoff
  /-- COREON (R398): Command returning a core. -/
  | coreon
  /-- PORTREM (R407): Command hot-removing a pool port. -/
  | portrem
  /-- PORTADD (R407): Command training a pool port and rewriting its POOLMAP. -/
  | portadd
  /-- ATTEST (R404): Command writing a signed attestation report. -/
  | attest
  /-- FWSTAGE (R403): Command verifying and staging a firmware image. -/
  | fwstage
  /-- FWSWAP (R403): Command making the staged slot active at next reset. -/
  | fwswap
  /-- COMMAND_COMPLETE (R397): A command finishes, clears BUSY, writes status and raises vector 65. -/
  | commandComplete
  deriving DecidableEq, Repr

end Sys2Proof
end

