-- ==== Sys2Proof/Machine/Forms.lean ====
section
/-! DEFINITION. How each strand word is formed (R17 to R22, R27, R72, R74): for every entry of the reference chapters the
accepted types, the use of each operand field, the IMM16 bits it defines and the conditions under which the entry itself names
ILLOP. The fields of capstan words (R61, R64) follow. -/

namespace Sys2Proof

/-- A 64-bit type reads an even pair (R20). -/
def ETy.wide (t : ETy) : Bool := t == .s64 || t == .w64

/-- The S types (R20). -/
def ETy.signed (t : ETy) : Bool := t == .s32 || t == .s64

/-- The number of registers of an operand that follows the type (R75). -/
def ETy.regs (t : ETy) : Nat := if t.wide then 2 else 1

/-! ### Sub-fields of IMM16 -/

/-- IMM16 bits [hi:lo], numbered from the word's bit 48. -/
def SWord.bits (w : SWord) (lo n : Nat) : Nat := w.imm.toNat / 2 ^ lo % 2 ^ n

/-- B holds the immediate (R21). -/
def SWord.isImm (w : SWord) : Bool := w.b == 0xFF

/-- The access size in bytes of a shape byte (R114), 0 where SIZE is not assigned. -/
def SWord.size (w : SWord) : Nat := match w.bits 0 3 with
  | 0 => 1 | 1 => 2 | 2 => 4 | 3 => 8 | 4 => 16 | _ => 0

/-- Registers of a data operand of size z (R114). -/
def SWord.dataRegs (w : SWord) : Nat := if w.size = 16 then 4 else if w.size = 8 then 2 else 1

namespace Machine

/-- The latency class of an entry (R22). -/
inductive Cls where
  | fixed | load | xu | sh | async
  deriving DecidableEq, Repr

/-- The use of one operand field. A number has a maximum; a register operand says how many registers it names, which kinds of
specifier it accepts, whether 0xFF may stand there, and whether the word reads or writes it. -/
inductive Fld where
  | off
  | num (max : Nat)
  | reg (n : Nat) (v s z imm rd wr : Bool)
  deriving DecidableEq, Repr

/-- The mode that a word needs: any, the handler (R365, R112), or the system job (R112). -/
inductive Priv where
  | any | handler | system
  deriving DecidableEq, Repr

/-- The mode that a special-register index needs (R112). -/
def indexPriv (i : Nat) : Priv := if 0x20 ≤ i && i ≤ 0x2F then .handler else if i == 0x50 then .system else .any

/-- A word's form: accepted types, fields, the IMM16 bits defined in register form, whether the word is free of the faults that
its own entry lists, whether a vector source may meet a scalar destination (R19), the latency class, for handler mode (R358)
whether the word traps ILLOP there and whether it names frozen vector registers, and the mode it needs (R69). -/
structure Form where
  types : List ETy := [.s32]
  d     : Fld := .off
  a     : Fld := .off
  b     : Fld := .off
  c     : Fld := .off
  mask  : BitVec 16 := 0
  ok    : Bool := true
  mixed : Bool := false
  cls   : Cls := .fixed
  outside : Bool := false
  frozen  : Bool := false
  priv    : Priv := .any
  deriving DecidableEq, Repr

/-! ### Field builders -/

/-- A source of n registers: vector, scalar or z. -/
def src (n : Nat) : Fld := .reg n true true true false true false
/-- A source that may be an immediate (B only). -/
def srcI (n : Nat) : Fld := .reg n true true true true true false
/-- A scalar or z source. -/
def srcS (n : Nat) : Fld := .reg n false true true false true false
/-- A scalar, z or immediate source. -/
def srcSI (n : Nat) : Fld := .reg n false true true true true false
/-- A vector source. -/
def srcV (n : Nat) : Fld := .reg n true false false false true false
/-- A destination: vector, scalar or z. -/
def dst (n : Nat) : Fld := .reg n true true true false false true
/-- A destination that is read too. -/
def dstRW (n : Nat) : Fld := .reg n true true true false true true
/-- A scalar or z destination. -/
def dstS (n : Nat) : Fld := .reg n false true true false false true
/-- A scalar source, and a scalar destination, of an entry that does not take z (R365). -/
def srcR (n : Nat) : Fld := .reg n false true false false true false
def dstR (n : Nat) : Fld := .reg n false true false false false true
/-- A vector destination. -/
def dstV (n : Nat) : Fld := .reg n true false false false false true
/-- A vector or z destination: an entry that has no scalar form. -/
def dstVZ (n : Nat) : Fld := .reg n true false true false false true
/-- A vector register read and written. -/
def bothV (n : Nat) : Fld := .reg n true false false false true true
/-- A predicate index. -/
def pfld : Fld := .num 7

/-! ### Type lists -/

def tyInt : List ETy := [.s32, .w32, .s64, .w64]
def tyI32 : List ETy := [.s32, .w32]
def tyW : List ETy := [.w32, .w64]
def tyFl : List ETy := [.f32, .bf16x2, .f16x2]
def tyAll : List ETy := [.s32, .w32, .f32, .bf16x2, .f16x2, .n8x4, .s64, .w64]
def tyLane : List ETy := [.s32, .w32, .f32, .s64, .w64]

/-! ### Shared forms -/

/-- Integer d, a, b or immediate. -/
def fInt2 (t : List ETy) (w : SWord) : Form := { types := t, d := dst w.ty.regs, a := src w.ty.regs, b := srcI w.ty.regs }
def fInt1 (t : List ETy) (w : SWord) : Form := { types := t, d := dst w.ty.regs, a := src w.ty.regs }
def fInt3 (t : List ETy) (w : SWord) : Form := { fInt2 t w with c := src w.ty.regs }
/-- Shifts: b is 32-bit (R77). -/
def fShift (w : SWord) : Form := { fInt2 tyInt w with b := srcI 1 }
/-- POPC, CLZ, CTZ: d is 32-bit. -/
def fCount (w : SWord) : Form := { types := tyW, d := dst 1, a := src w.ty.regs }
/-- Three 32-bit registers. -/
def fW3 (_ : SWord) : Form := { types := [.w32], d := dst 1, a := src 1, b := src 1, c := src 1 }
/-- d, a, b or immediate, c, all 32-bit. -/
def fDot (_ : SWord) : Form := { types := tyI32, d := dst 1, a := src 1, b := srcI 1, c := src 1 }
/-- Two-source float with its IMM16 mask (R72). -/
def fFl2 (m : BitVec 16) (_ : SWord) : Form := { types := tyFl, d := dst 1, a := src 1, b := srcI 1, mask := m }
def fFl1 (m : BitVec 16) (_ : SWord) : Form := { types := tyFl, d := dst 1, a := src 1, mask := m }
def fFl3 (m : BitVec 16) (w : SWord) : Form := { fFl2 m w with c := src 1 }
/-- The transcendentals of one source. -/
def fXu (m : BitVec 16) (_ : SWord) : Form := { types := [.f32], d := dst 1, a := src 1, mask := m, cls := .xu }
/-- No operand: T = 000, IMM16 as the mask says. -/
def fBare (m : BitVec 16) (_ : SWord) : Form := { mask := m }
/-- An asynchronous issue of a token and a scalar offset. -/
def fAsync (_ : SWord) : Form := { d := dstS 1, a := srcS 1, cls := .async }
/-- A barrier instruction with A scalar. -/
def fBarA (_ : SWord) : Form := { a := srcS 1, mask := 0x000F }

/-- The shape byte is legal (R114): SIZE among `sizes`, SX only on a 1- or 2-byte load, SCOPE 0, or any of 0 to 5 where the
instruction takes one. -/
def shapeOk (w : SWord) (sizes : List Nat) (sx sc : Bool) : Bool :=
  sizes.contains w.size && (w.bits 3 1 == 0 || (sx && w.size ≤ 2)) &&
    (if sc then w.bits 5 3 ≤ 5 else w.bits 5 3 == 0)

def allSizes : List Nat := [1, 2, 4, 8, 16]

/-- A load: base of `nb` registers. -/
def fLoad (nb : Nat) (sizes : List Nat) (sx sc : Bool) (w : SWord) : Form :=
  { types := tyAll, d := dst w.dataRegs, a := src nb, b := src 1, mask := 0xFFFF, ok := shapeOk w sizes sx sc, cls := .load }

/-- A store: D holds the data and is read. -/
def fStore (nb : Nat) (sizes : List Nat) (sc : Bool) (w : SWord) : Form :=
  { types := tyAll, d := src w.dataRegs, a := src nb, b := src 1, mask := 0xFFFF, ok := shapeOk w sizes false sc }

/-- The access size of an atomic matches its type (R123). -/
def atomSize (w : SWord) : Bool := w.size == (if w.ty.wide then 8 else 4)

/-- Registers of CAS's group (R124). -/
def casRegs (w : SWord) : Nat := 2 * w.ty.regs

/-- A vector data operand, or D = z, in a word whose other operands are all scalar, makes no vector source. -/
def Fld.isVec (f : Fld) (x : BitVec 8) : Bool := match f with
  | .reg .. => x.toNat < 0xC0
  | _ => false

/-- The named register of a special-register index that exists (R111). -/
def srdIndex (i : Nat) : Bool := i ≤ 0x13 || (0x20 ≤ i && i ≤ 0x2F) || (0x40 ≤ i && i ≤ 0x50)

/-- The registers that SWR may write (R111). -/
def swrIndex (i : Nat) : Bool := i == 0x08 || i == 0x09 || i == 0x0B || (0x40 ≤ i && i ≤ 0x50)

/-- A scalar specifier. -/
def isScalar (x : BitVec 8) : Bool := 0xC0 ≤ x.toNat && x.toNat ≤ 0xEF
/-- A vector specifier. -/
def isVector (x : BitVec 8) : Bool := x.toNat < 0xC0
/-- The z specifier. -/
def isZ (x : BitVec 8) : Bool := x == 0xF0

/-! ### Forms that an entry's own cases decide -/

/-- SRD (R110, R112): W32, or W64 for CYCLO, MR and TBASE; MR only as W64 into a vector pair, or into z, which discards it (DEDUCED, log
entry 28); w only for CORES. -/
def fSrd (w : SWord) : Form :=
  let i := w.bits 0 8
  { types := tyW, d := dst w.ty.regs, mask := 0x3FF, priv := indexPriv i,
    ok := srdIndex i && (w.ty == .w32 || i == 0x06 || i == 0x0D || i == 0x50) &&
      (i != 0x0D || (w.ty == .w64 && !isScalar w.d)) && (w.bits 8 2 == 0 || i == 0x0F) }

/-- SWR (R110, R112). -/
def fSwr (w : SWord) : Form :=
  { types := [.w32], a := srcS 1, mask := 0xFF, priv := indexPriv (w.bits 0 8), ok := swrIndex (w.bits 0 8) }

/-- PMOV (R85): the form is chosen by word bits [49:48]. -/
def fPmov (w : SWord) : Form :=
  match w.bits 0 2 with
  | 0 => { d := dstVZ 1, mask := 0x0003 }
  | 1 => { a := src 1, mask := 0xFF03 }
  | 2 => { d := dstS 1, mask := 0x0703 }
  | _ => { a := srcS 1, mask := 0x0703 }

/-- PACK (R99): C and HI belong to the bytes form only. -/
def fPack (w : SWord) : Form :=
  let bytes := !w.isImm && w.bits 5 1 == 1
  { types := tyI32, d := dst 1, a := src 1, b := srcI 1, c := if bytes then src 1 else .off,
    mask := if bytes then 0x0060 else 0 }

/-- UNPK (R99): a half index is 0 or 1. -/
def fUnpk (w : SWord) : Form :=
  { types := tyI32, d := dst 1, a := src 1, mask := 0x00E0, ok := w.bits 5 1 == 1 || w.bits 6 2 < 2 }

/-- CVTF (R95, R96): the pairings of the table, HALF only for an F32 destination, B only for an F32 source. -/
def fCvtf (w : SWord) : Form :=
  let srcFmt := w.bits 5 2
  { types := tyFl, d := dst 1, a := src 1, b := if w.ty != .f32 && srcFmt == 0 then src 1 else .off, mask := 0x00E7,
    ok := srcFmt != 3 && (w.bits 7 1 == 0 || w.ty == .f32) &&
      (match w.ty with | .f32 => srcFmt != 0 | .bf16x2 => srcFmt != 1 | _ => srcFmt != 2) }

/-- BSCL (R95, R101): apply uses B and byte k, derive uses N. -/
def fBscl (w : SWord) : Form :=
  if w.bits 5 1 == 0 then { types := [.f32], d := dst 1, a := src 1, b := src 1, mask := 0x00E0 }
  else { types := [.f32], d := dst 1, a := src 1, mask := 0x0F20 }

/-- VOTE (R172, R177). -/
def fVote (w : SWord) : Form :=
  match w.c.toNat with
  | 0 | 1 => { d := dst 1, a := pfld, c := .num 1, cls := .sh }
  | 2 => { d := pfld, a := pfld, c := .num 2, mask := 0x003F, ok := w.bits 0 6 ≤ 32, cls := .sh }
  | _ => { d := pfld, a := pfld, c := .num 3, cls := .sh }

/-- RXCH (R176): two distinct vector registers or pairs. -/
def fRxch (w : SWord) : Form :=
  { types := tyLane, d := bothV w.ty.regs, a := bothV w.ty.regs, c := pfld, ok := w.d != w.a, cls := .sh }

/-- REDL and SCANL (R172, R179): the bitwise ops take no F32. -/
def fReduce (w : SWord) : Form :=
  { types := tyLane, d := dst w.ty.regs, a := src w.ty.regs, ok := w.c.toNat % 16 ≤ 5 && (w.ty != .f32 || w.c.toNat % 16 ≤ 2), cls := .sh }

/-- ATOM and ATOMS's shared part (R113, R123). -/
def fAtom (w : SWord) : Form :=
  { types := tyInt, d := dst w.ty.regs, a := src 2, b := src 1, c := src w.ty.regs, mask := 0x3FFF, ok := shapeOk w [4, 8] false true && atomSize w && w.bits 8 4 ≤ 8, cls := .load }

/-- ATOMS (R125): op 9 takes CAS's group, SCOPE is 0 or 1. -/
def fAtoms (w : SWord) : Form :=
  { fAtom w with a := src 1, c := src (if w.bits 8 4 = 9 then casRegs w else w.ty.regs),
                 ok := shapeOk w [4, 8] false true && atomSize w && w.bits 8 4 ≤ 9 && w.bits 5 3 ≤ 1 }

/-- CAS (R113, R124). -/
def fCas (w : SWord) : Form :=
  { types := tyInt, d := dst w.ty.regs, a := src 2, b := src 1, c := src (casRegs w), mask := 0x37FF, ok := shapeOk w [4, 8] false true && atomSize w, cls := .load }

/-- FXADD (R126): F32 with a single register, or S64 with a pair; SIZE 8. -/
def fFxadd (w : SWord) : Form :=
  { types := [.f32, .s64], d := dst 2, a := src 2, b := src 1, c := src w.ty.regs, mask := 0xFFFF, ok := shapeOk w [8] false true, cls := .load }

/-- FENCE (R127). -/
def fFence (w : SWord) : Form :=
  { mask := 0x001F, ok := w.bits 0 3 ≤ 5 && w.bits 3 2 ≤ 2 }

/-- PREF (R128): only SHAPE[0]. -/
def fPref (_w : SWord) : Form :=
  { a := src 2, b := src 1, mask := 0xFF01 }

/-- LDL (R248, R252): a 32-bit base under SP. -/
def fLdl (w : SWord) : Form :=
  { d := dst 2, a := src (if w.bits 0 1 = 1 then 1 else 2), b := src 1, c := pfld, mask := 0xFF01, cls := .load }

/-- STLB (R248, R252). -/
def fStlb (w : SWord) : Form :=
  { d := src 2, a := src (if w.bits 0 1 = 1 then 1 else 2), b := src 1, mask := 0xFF01 }

/-- LDW (R226, R227). -/
def fLdw (w : SWord) : Form :=
  { fLoad 2 [4, 8] false false w with c := pfld }

/-- ONEW (R230): cls in [5:0], tier in [6], pri in [11:8]. -/
def fOnew (w : SWord) : Form :=
  { d := dst 2, c := pfld, mask := 0x0F7F, ok := w.bits 0 6 ≤ 25 }

/-- OPRI (R231): an immediate only in mode 0; a mask pair in modes 1 and 2. -/
def fOpri (w : SWord) : Form :=
  { a := src 2, b := if w.c == 0 then srcI 1 else src 2, c := .num 2 }

/-- SIGD (R248, R251). -/
def fSigd (_w : SWord) : Form :=
  { d := dstS 1, a := srcS 2, b := srcSI 1, cls := .async }

/-- SIGR (R248, R251): B only in the waiting form. -/
def fSigr (w : SWord) : Form :=
  { d := dstS 2, a := srcS 2, b := if w.bits 0 1 = 1 then srcS 2 else .off, mask := 0x0001 }

/-- MTAKE (R315): a slot 0 to 7, or 15. -/
def fMtake (w : SWord) : Form :=
  { d := dstS 2, c := pfld, mask := 0x000F, ok := w.bits 0 4 ≤ 7 || w.bits 0 4 == 15 }

/-- EVB (R303, R310): hitch 0 to 15, kind 0 to 2, and an object in the range of its kind. -/
def fEvb (w : SWord) : Form :=
  { d := .num 15, a := .num 2, b := .num (if w.a == 0 then 15 else if w.a == 1 then 47 else 15), mask := 0xFFFF, ok := w.a != 2 || w.b.toNat ≤ 7 || w.b == 15 }

/-- TSPN (R327): D only in the try form. -/
def fTspn (w : SWord) : Form :=
  { d := if w.bits 0 1 = 1 then pfld else .off, a := src 1, mask := 0x0001 }

/-- TRDL (R365): A only in the register form. -/
def fTrdl (w : SWord) : Form :=
  match w.c.toNat with
  | 0 => { types := tyW, d := dstR w.ty.regs, a := srcV w.ty.regs, b := srcSI 1, c := .num 0, mixed := true }
  | 1 | 2 => { types := [.w64], d := dstR 2, b := srcSI 1, c := .num 2 }
  | _ => { types := [.w32], d := dstR 1, b := srcSI 1, c := .num 4 }

/-- TWRL (R365). -/
def fTwrl (w : SWord) : Form :=
  match w.c.toNat with
  | 0 => { types := tyW, d := dstV w.ty.regs, a := srcS w.ty.regs, b := srcSI 1, c := .num 0 }
  | 1 => { types := [.w32], d := pfld, a := srcS 1, b := srcSI 1, c := .num 1 }
  | _ => { types := [.w64], a := srcR 2, b := srcSI 1, c := .num 2 }

/-- The condition number of an integer comparison (R79). -/
def intCond : Fld := .num 5

/-- The word and the form of a strand instruction (R65). -/
def strandForm : Instr → Option (SWord × Form)
  | .nop w => some (w, fBare 0 w)
  | .mov w => some (w, fInt1 tyAll w)
  | .movi w => some (w, { types := tyInt, d := dst w.ty.regs, b := .reg w.ty.regs false false false true true false })
  | .movh w => some (w, { d := dstRW 1, b := .reg 1 false false false true true false })
  | .sel w => some (w, { fInt2 tyAll w with c := pfld })
  | .lea w => some (w, { types := [.s64, .w64], d := dst 2, a := src 2, b := srcI 1, c := .num 7 })
  | .srd w => some (w, fSrd w)
  | .swr w => some (w, fSwr w)
  | .iadd w => some (w, fInt2 tyInt w)
  | .isub w => some (w, fInt2 tyInt w)
  | .iaddc w => some (w, { fInt2 tyInt w with c := pfld })
  | .imul w => some (w, fInt2 tyInt w)
  | .imulh w => some (w, fInt2 tyInt w)
  | .imad w => some (w, fInt3 tyInt w)
  | .imadw w => some (w, { types := tyI32, d := dst 2, a := src 1, b := srcI 1, c := src 2 })
  | .idiv w => some (w, { fInt2 tyInt w with cls := .xu })
  | .irem w => some (w, { fInt2 tyInt w with cls := .xu })
  | .imin w => some (w, fInt2 tyInt w)
  | .imax w => some (w, fInt2 tyInt w)
  | .iabs w => some (w, fInt1 [.s32, .s64] w)
  | .ineg w => some (w, fInt1 tyInt w)
  | .isat w => some (w, fInt2 tyI32 w)
  | .and w => some (w, fInt2 tyInt w)
  | .or w => some (w, fInt2 tyInt w)
  | .xor w => some (w, fInt2 tyInt w)
  | .andn w => some (w, fInt2 tyInt w)
  | .not w => some (w, fInt1 tyInt w)
  | .shl w => some (w, fShift w)
  | .shr w => some (w, fShift w)
  | .sar w => some (w, fShift w)
  | .rotl w => some (w, fShift w)
  | .bfx w => some (w, fInt2 tyI32 w)
  | .bfi w => some (w, fInt3 tyI32 w)
  | .popc w => some (w, fCount w)
  | .clz w => some (w, fCount w)
  | .ctz w => some (w, fCount w)
  | .brev w => some (w, fInt1 tyW w)
  | .bprm w => some (w, fW3 w)
  | .icmp w => some (w, { types := tyInt, d := pfld, a := src w.ty.regs, b := srcI w.ty.regs, c := intCond })
  | .iset w => some (w, { types := tyInt, d := dst 1, a := src w.ty.regs, b := srcI w.ty.regs, c := intCond })
  | .plog w => some (w, { d := pfld, a := pfld, b := pfld, c := pfld, mask := 0x00FF })
  | .pmov w => some (w, fPmov w)
  | .idot4 w => some (w, fDot w)
  | .idot2 w => some (w, fDot w)
  | .iadd3 w => some (w, fInt3 tyInt w)
  | .blut w => some (w, { types := tyInt, d := dst w.ty.regs, a := src w.ty.regs, b := src w.ty.regs, c := src w.ty.regs, mask := 0x00FF })
  | .rhash w => some (w, { types := [.w32], d := dst 1, a := src 2, b := srcI 1 })
  | .fshf w => some (w, fW3 w)
  | .fadd w => some (w, fFl2 0x1F w)
  | .fsub w => some (w, fFl2 0x1F w)
  | .fmul w => some (w, fFl2 0x1F w)
  | .ffma w => some (w, fFl3 0x1F w)
  | .fmin w => some (w, fFl2 0x18 w)
  | .fmax w => some (w, fFl2 0x18 w)
  | .fminp w => some (w, fFl2 0x18 w)
  | .fmaxp w => some (w, fFl2 0x18 w)
  | .fabs w => some (w, fFl1 0 w)
  | .fneg w => some (w, fFl1 0 w)
  | .fcmp w => some (w, { types := [.f32], d := pfld, a := src 1, b := srcI 1, c := .num 7, mask := 0x18 })
  | .fset w => some (w, { fFl2 0x18 w with c := .num 7 })
  | .fcls w => some (w, { types := [.f32], d := pfld, a := src 1, mask := 0x7FE0 })
  | .frnd w => some (w, fFl1 0x0B w)
  | .fscl w => some (w, { types := [.f32], d := dst 1, a := src 1, b := srcI 1, mask := 0x0F })
  | .fexpn w => some (w, { types := [.f32], d := dst 1, a := src 1 })
  | .fdot2 w => some (w, { types := [.bf16x2, .f16x2], d := dst 1, a := src 1, b := srcI 1, c := src 1, mask := 0x1F })
  | .fdot4 w => some (w, { types := [.n8x4], d := dst 1, a := src 1, b := srcI 1, c := src 1, mask := 0x1FF })
  | .fcps w => some (w, fFl2 0 w)
  | .fmed3 w => some (w, fFl3 0x18 w)
  | .exp2 w => some (w, fXu 0x08 w)
  | .log2 w => some (w, fXu 0x08 w)
  | .rcp w => some (w, fXu 0x08 w)
  | .rsq w => some (w, fXu 0x08 w)
  | .sqrt w => some (w, fXu 0x07 w)
  | .sinp w => some (w, fXu 0x08 w)
  | .cosp w => some (w, fXu 0x08 w)
  | .tanh w => some (w, fXu 0x08 w)
  | .fdiv w => some (w, { types := [.f32], d := dst 1, a := src 1, b := srcI 1, mask := 0x1F, cls := .xu })
  | .fadd3 w => some (w, { types := [.f32], d := dst 1, a := src 1, b := srcI 1, c := src 1, mask := 0x1F })
  | .cvtf w => some (w, fCvtf w)
  | .cvne w => some (w, { types := [.n8x4], d := dstRW 1, a := src 1, mask := 0x07E3 })
  | .cvnd w => some (w, { types := [.n8x4], d := dst 1, a := src 1, mask := 0x07E0 })
  | .i2f w => some (w, { types := [.f32], d := dst 1, a := src (if 2 ≤ w.bits 5 2 then 2 else 1), mask := 0x63 })
  | .f2i w => some (w, { types := tyInt, d := dst w.ty.regs, a := src 1, mask := 0x03 })
  | .pack w => some (w, fPack w)
  | .unpk w => some (w, fUnpk w)
  | .fxq w => some (w, { types := [.s64], d := dst 2, a := src 1, mask := 0xFF00 })
  | .fxd w => some (w, { types := [.s64], d := dst 1, a := src 2, mask := 0xFF03 })
  | .bscl w => some (w, fBscl w)
  | .shfl w => some (w, { types := tyAll, d := (if w.c.toNat < 2 then dstVZ w.ty.regs else .reg w.ty.regs true false true false true true), a := src w.ty.regs, b := srcI 1, c := .num 3, cls := .sh })
  | .bxch w => some (w, { types := tyLane, d := dstVZ w.ty.regs, a := src w.ty.regs, b := srcI 1, c := pfld, cls := .sh })
  | .rxch w => some (w, fRxch w)
  | .vote w => some (w, fVote w)
  | .matchLanes w => some (w, { types := tyInt, d := dstVZ 1, a := src w.ty.regs, cls := .sh })
  | .lmov w => some (w, { types := tyAll, d := dst w.ty.regs, a := src w.ty.regs, b := srcSI 1, mixed := true, cls := .sh })
  | .lput w => some (w, { types := tyAll, d := dstV w.ty.regs, a := srcS w.ty.regs, b := srcSI 1, cls := .sh })
  | .redl w => some (w, { fReduce w with c := .num 5, mixed := true })
  | .scanl w => some (w, { fReduce w with d := dstVZ w.ty.regs, c := .num 31 })
  | .lfnd w => some (w, { types := tyInt, d := dst 1, a := src w.ty.regs, b := srcI w.ty.regs, c := .num 2, mixed := true, cls := .sh })
  | .lrot w => some (w, { types := tyAll, d := dstVZ w.ty.regs, a := src w.ty.regs, b := srcSI 1, cls := .sh })
  | .bra w => some (w, fBare 0xFFFF w)
  | .brx w => some (w, { a := src 2 })
  | .call w => some (w, { d := dst 2, mask := 0xFFFF })
  | .callx w => some (w, { d := dst 2, a := src 2 })
  | .ret w => some (w, { a := src 2 })
  | .join w => some (w, { d := dstV 2, mask := 0xFFFF, outside := true })
  | .meet w => some (w, { a := srcV 2, outside := true })
  | .exit w => some (w, { fBare 0 w with outside := true })
  | .trap w => some (w, fBare 0xFFFF w)
  | .yield w => some (w, { fBare 0 w with outside := true })
  | .ptok w => some (w, fBare 0 w)
  | .brk w => some (w, fBare 0xFFFF w)
  | .bdec w => some (w, { types := tyI32, d := dstRW 1, mask := 0xFFFF })
  | .ld w => some (w, fLoad 2 allSizes true false w)
  | .st w => some (w, fStore 2 allSizes false w)
  | .lds w => some (w, fLoad 1 allSizes true false w)
  | .sts w => some (w, fStore 1 allSizes false w)
  | .ldc w => some (w, fLoad 2 [4, 8, 16] false false w)
  | .ldaq w => some (w, fLoad 2 [4, 8] false true w)
  | .strl w => some (w, fStore 2 [4, 8] true w)
  | .stnt w => some (w, fStore 2 allSizes false w)
  | .atom w => some (w, fAtom w)
  | .cas w => some (w, fCas w)
  | .fxadd w => some (w, fFxadd w)
  | .atoms w => some (w, fAtoms w)
  | .fence w => some (w, fFence w)
  | .pref w => some (w, fPref w)
  | .ldl w => some (w, fLdl w)
  | .stlb w => some (w, fStlb w)
  | .ldw w => some (w, fLdw w)
  | .oupg w => some (w, { d := dst 2, a := src 2, c := pfld })
  | .orel w => some (w, { a := src 2 })
  | .owk w => some (w, { d := dst 2, a := src 2 })
  | .owd w => some (w, { a := src 2 })
  | .onew w => some (w, fOnew w)
  | .opri w => some (w, fOpri w)
  | .oapp w => some (w, { d := dstS 1, a := srcS 2, b := srcS 1 })
  | .btinv w => some (w, { d := dstS 1, a := srcS 2, b := srcS 1, c := srcS 1 })
  | .btld w => some (w, { d := dst 2, a := srcS 2, b := src 1, c := srcS 1, mask := 0x0007 })
  | .cpy w => some (w, fAsync w)
  | .cpyg w => some (w, { fAsync w with b := srcV 1, mixed := true })
  | .cpys w => some (w, { fAsync w with b := srcV 1, mixed := true })
  | .chan w => some (w, { a := srcS 2, mask := 0x0007, cls := .async })
  | .tail w => some (w, { d := dstS 1, a := srcS 2, mask := 0x0007, cls := .async })
  | .mcall w => some (w, { fAsync w with mask := if w.bits 4 1 = 1 then 0x001F else 0 })
  | .sigd w => some (w, fSigd w)
  | .sigr w => some (w, fSigr w)
  | .mpost w => some (w, { d := pfld, a := srcS 2, b := srcSI 1 })
  | .mtake w => some (w, fMtake w)
  | .xred w => some (w, fAsync w)
  | .xput w => some (w, fAsync w)
  | .xget w => some (w, fAsync w)
  | .bar w => some (w, { fBare 0x000F w with outside := true })
  | .bara w => some (w, { d := dst 1, mask := 0x000F, outside := true })
  | .barw w => some (w, { fBarA w with outside := true })
  | .barx w => some (w, { fBarA w with outside := true })
  | .wany w => some (w, { d := dstS 1, mask := 0xFFFF, outside := true })
  | .evb w => some (w, fEvb w)
  | .evm w => some (w, { c := .num 1, mask := 0xFFFF })
  | .evp w => some (w, { d := dst 1, mask := 0xFFFF })
  | .evc w => some (w, fBare 0xFFFF w)
  | .sflg w => some (w, { mask := 0x037F, ok := w.bits 8 2 != 3 })
  | .mcnt w => some (w, { d := dst 1 })
  | .tspn w => some (w, fTspn w)
  | .tstl w => some (w, { d := pfld, a := src 1, b := srcI 1 })
  | .tdec w => some (w, { d := pfld, a := src 2 })
  | .tend w => some (w, { fBare 0 w with outside := true })
  | .xacq w => some (w, { d := if w.bits 0 1 = 1 then pfld else .off, mask := 0x0001, outside := true })
  | .xrel w => some (w, { fBare 0 w with outside := true })
  | .enrd w => some (w, { types := [.w64], d := dst 2 })
  | .gcnd w => some (w, { types := [.w32], a := srcS 2, b := srcSI 1 })
  | .sleep w => some (w, { types := [.w32], b := srcSI 1, outside := true })
  | .trdl w => some (w, { fTrdl w with frozen := true, priv := .handler })
  | .twrl w => some (w, { fTwrl w with frozen := true, priv := .handler })
  | .tret w => some (w, { fBare 0x0003 w with priv := .handler })
  | .tinf w => some (w, { d := dstR 2, mask := 0x000F, priv := .handler })
  | .tmsk w => some (w, { types := [.w32], d := dstS 1, b := srcSI 1, priv := .handler })
  | .cnop _ => none
  | .cmov _ => none
  | .cmovi _ => none
  | .cadd _ => none
  | .csub _ => none
  | .cmul _ => none
  | .cand _ => none
  | .cor _ => none
  | .cshl _ => none
  | .cshr _ => none
  | .ccmp _ => none
  | .cbr _ => none
  | .cbra _ => none
  | .cloop _ => none
  | .cld _ => none
  | .cst _ => none
  | .cret _ => none
  | .carg _ => none
  | .cwait _ => none
  | .cfence _ => none
  | .mload _ => none
  | .mloadh _ => none
  | .mma _ => none
  | .mmar _ => none
  | .mgrp _ => none
  | .mzero _ => none
  | .manc _ => none
  | .mdrn _ => none
  | .mdacc _ => none
  | .mknot _ => none
  | .mlab _ => none
  | .msumq _ => none
  | .mrow _ => none
  | .mtrn _ => none
  | .msadd _ => none
  | .msto _ => none
  | .msld _ => none
  | .vproj _ => none
  | .vprjb _ => none
  | .vmrg _ => none
  | .vres _ => none
  | .vclr _ => none
  | .vheap _ => none
  | .vnorm _ => none
  | .vstat _ => none
  | .cpri _ => none
  | .cseq _ => none
  | .ctrap _ => none
  | .clauseHeader => none
  | .longLatencyResult => none
  | .storeCommit => none
  | .writePropagation _ => none
  | .interruptThreshold _ => none
  | .deferredQuiesce => none
  | .sleepExpiry => none
  | .sigrWake => none
  | .tspnRoom => none
  | .snagSearch => none
  | .copyAccept => none
  | .copyPageIn => none
  | .copyComplete => none
  | .callAccept => none
  | .callStart => none
  | .capstanClauseHeader => none
  | .cldResult => none
  | .cwaitWake => none
  | .callComplete => none
  | .mreset => none
  | .clayParityFailure => none
  | .reclaim => none
  | .objectMemoryReturn => none
  | .btinvComplete => none
  | .dispatchDecision => none
  | .passCountPromotion => none
  | .taskEnd => none
  | .run => none
  | .post => none
  | .watch => none
  | .badentry => none
  | .watchFire => none
  | .kernelNode => none
  | .copyNode => none
  | .signalNode => none
  | .waitNode => none
  | .waitNodeSatisfied => none
  | .condNode => none
  | .notifyNode => none
  | .endNode => none
  | .graphFailure => none
  | .fabricAccept => none
  | .fabricComplete => none
  | .xredCombine => none
  | .flitRetransmit _ => none
  | .tirralPortFailure _ _ => none
  | .cordSave => none
  | .eccCorrected _ _ => none
  | .uncorrectableError _ => none
  | .nearStoreScrub _ => none
  | .clayMacroSpare => none
  | .energyPeriod _ => none
  | .deviceReset => none
  | .inval => none
  | .reload => none
  | .jobstart => none
  | .jobend => none
  | .vacate => none
  | .withdraw => none
  | .coreoff => none
  | .coreon => none
  | .portrem => none
  | .portadd => none
  | .attest => none
  | .fwstage => none
  | .fwswap => none
  | .commandComplete => none
  | .srtail _ => none
  | .crhead _ => none
  | .srbase _ => none
  | .srsize _ => none
  | .crbase _ => none
  | .crsize _ => none
  | .powercap _ => none
  | .tableBaseWrite _ _ => none
  | .registerWrite _ _ => none
  | .unassignedOpcode _ => none
  | .unassignedCapstanOpcode _ => none
  | .tirralFlit _ => none

/-- The form of a capstan word (R61, R62, R64): the register fields it uses, the IMM16 bits it defines, whether it takes a
condition, and whether it is free of the faults its entry lists. -/
structure CForm where
  d    : Bool := false
  a    : Bool := false
  b    : Bool := false
  c    : Bool := false
  mask : BitVec 16 := 0
  cond : Bool := false
  ok   : Bool := true
  deriving DecidableEq, Repr

/-- The word and the form of a capstan instruction (R67, R283 to R299). -/
def capstanForm : Instr → Option (CWord × CForm)
  | .nop _ => none
  | .mov _ => none
  | .movi _ => none
  | .movh _ => none
  | .sel _ => none
  | .lea _ => none
  | .srd _ => none
  | .swr _ => none
  | .iadd _ => none
  | .isub _ => none
  | .iaddc _ => none
  | .imul _ => none
  | .imulh _ => none
  | .imad _ => none
  | .imadw _ => none
  | .idiv _ => none
  | .irem _ => none
  | .imin _ => none
  | .imax _ => none
  | .iabs _ => none
  | .ineg _ => none
  | .isat _ => none
  | .and _ => none
  | .or _ => none
  | .xor _ => none
  | .andn _ => none
  | .not _ => none
  | .shl _ => none
  | .shr _ => none
  | .sar _ => none
  | .rotl _ => none
  | .bfx _ => none
  | .bfi _ => none
  | .popc _ => none
  | .clz _ => none
  | .ctz _ => none
  | .brev _ => none
  | .bprm _ => none
  | .icmp _ => none
  | .iset _ => none
  | .plog _ => none
  | .pmov _ => none
  | .idot4 _ => none
  | .idot2 _ => none
  | .iadd3 _ => none
  | .blut _ => none
  | .rhash _ => none
  | .fshf _ => none
  | .fadd _ => none
  | .fsub _ => none
  | .fmul _ => none
  | .ffma _ => none
  | .fmin _ => none
  | .fmax _ => none
  | .fminp _ => none
  | .fmaxp _ => none
  | .fabs _ => none
  | .fneg _ => none
  | .fcmp _ => none
  | .fset _ => none
  | .fcls _ => none
  | .frnd _ => none
  | .fscl _ => none
  | .fexpn _ => none
  | .fdot2 _ => none
  | .fdot4 _ => none
  | .fcps _ => none
  | .fmed3 _ => none
  | .exp2 _ => none
  | .log2 _ => none
  | .rcp _ => none
  | .rsq _ => none
  | .sqrt _ => none
  | .sinp _ => none
  | .cosp _ => none
  | .tanh _ => none
  | .fdiv _ => none
  | .fadd3 _ => none
  | .cvtf _ => none
  | .cvne _ => none
  | .cvnd _ => none
  | .i2f _ => none
  | .f2i _ => none
  | .pack _ => none
  | .unpk _ => none
  | .fxq _ => none
  | .fxd _ => none
  | .bscl _ => none
  | .shfl _ => none
  | .bxch _ => none
  | .rxch _ => none
  | .vote _ => none
  | .matchLanes _ => none
  | .lmov _ => none
  | .lput _ => none
  | .redl _ => none
  | .scanl _ => none
  | .lfnd _ => none
  | .lrot _ => none
  | .bra _ => none
  | .brx _ => none
  | .call _ => none
  | .callx _ => none
  | .ret _ => none
  | .join _ => none
  | .meet _ => none
  | .exit _ => none
  | .trap _ => none
  | .yield _ => none
  | .ptok _ => none
  | .brk _ => none
  | .bdec _ => none
  | .ld _ => none
  | .st _ => none
  | .lds _ => none
  | .sts _ => none
  | .ldc _ => none
  | .ldaq _ => none
  | .strl _ => none
  | .stnt _ => none
  | .atom _ => none
  | .cas _ => none
  | .fxadd _ => none
  | .atoms _ => none
  | .fence _ => none
  | .pref _ => none
  | .ldl _ => none
  | .stlb _ => none
  | .ldw _ => none
  | .oupg _ => none
  | .orel _ => none
  | .owk _ => none
  | .owd _ => none
  | .onew _ => none
  | .opri _ => none
  | .oapp _ => none
  | .btinv _ => none
  | .btld _ => none
  | .cpy _ => none
  | .cpyg _ => none
  | .cpys _ => none
  | .chan _ => none
  | .tail _ => none
  | .mcall _ => none
  | .sigd _ => none
  | .sigr _ => none
  | .mpost _ => none
  | .mtake _ => none
  | .xred _ => none
  | .xput _ => none
  | .xget _ => none
  | .bar _ => none
  | .bara _ => none
  | .barw _ => none
  | .barx _ => none
  | .wany _ => none
  | .evb _ => none
  | .evm _ => none
  | .evp _ => none
  | .evc _ => none
  | .sflg _ => none
  | .mcnt _ => none
  | .tspn _ => none
  | .tstl _ => none
  | .tdec _ => none
  | .tend _ => none
  | .xacq _ => none
  | .xrel _ => none
  | .enrd _ => none
  | .gcnd _ => none
  | .sleep _ => none
  | .trdl _ => none
  | .twrl _ => none
  | .tret _ => none
  | .tinf _ => none
  | .tmsk _ => none
  | .cnop w => some (w, {})
  | .cmov w => some (w, { d := true, a := true })
  | .cmovi w => some (w, { d := true, a := true, b := true, mask := 0xFFFF, ok := w.a.toNat ≤ 1 && w.b.toNat ≤ 3 })
  | .cadd w => some (w, { d := true, a := true, b := true, mask := 0xFFFF })
  | .csub w => some (w, { d := true, a := true, b := true, mask := 0xFFFF })
  | .cmul w => some (w, { d := true, a := true, b := true, mask := 0xFFFF })
  | .cand w => some (w, { d := true, a := true, b := true, mask := 0xFFFF })
  | .cor w => some (w, { d := true, a := true, b := true, mask := 0xFFFF })
  | .cshl w => some (w, { d := true, a := true, b := true, mask := 0xFFFF })
  | .cshr w => some (w, { d := true, a := true, b := true, mask := 0xFFFF })
  | .ccmp w => some (w, { a := true, b := true, mask := 0xFFFF })
  | .cbr w => some (w, { mask := 0xFFFF, cond := true })
  | .cbra w => some (w, { mask := 0xFFFF })
  | .cloop w => some (w, { d := true, mask := 0xFFFF })
  | .cld w => some (w, { d := true, a := true, mask := 0xBFFF })
  | .cst w => some (w, { a := true, b := true, mask := 0xBFFF })
  | .cret w => some (w, {})
  | .carg w => some (w, { d := true, mask := 0x7 })
  | .cwait w => some (w, { a := true, b := true })
  | .cfence w => some (w, { mask := 0x1F, ok := w.imm.toNat % 8 ≤ 5 && w.imm.toNat / 8 ≤ 2 })
  | .mload w => some (w, { a := true, b := true, mask := 0xFFFF })
  | .mloadh w => some (w, { a := true, b := true, mask := 0xFFFF })
  | .mma w => some (w, { a := true, b := true })
  | .mmar w => some (w, { a := true, b := true, mask := 0xF })
  | .mgrp w => some (w, { a := true, b := true, c := true, mask := 0xFFFF })
  | .mzero w => some (w, { a := true, b := true })
  | .manc w => some (w, { a := true, b := true, c := true, mask := 0xFFFF })
  | .mdrn w => some (w, { a := true, b := true, c := true })
  | .mdacc w => some (w, { a := true, b := true, c := true })
  | .mknot w => some (w, { a := true, mask := 0x3 })
  | .mlab w => some (w, { a := true, b := true, c := true, mask := 0x1 })
  | .msumq w => some (w, { mask := 0x1 })
  | .mrow w => some (w, { d := true, a := true, mask := 0x7, ok := w.imm.toNat ≤ 4 })
  | .mtrn w => some (w, { a := true, b := true, mask := 0xFFFF })
  | .msadd w => some (w, { a := true, b := true })
  | .msto w => some (w, { a := true, b := true })
  | .msld w => some (w, { a := true, b := true })
  | .vproj w => some (w, { a := true, b := true })
  | .vprjb w => some (w, { a := true, b := true, c := true })
  | .vmrg w => some (w, { a := true, b := true })
  | .vres w => some (w, { a := true, b := true, c := true })
  | .vclr w => some (w, { a := true })
  | .vheap w => some (w, { a := true, b := true, mask := 0x1 })
  | .vnorm w => some (w, { a := true, b := true })
  | .vstat w => some (w, { d := true })
  | .cpri w => some (w, { d := true })
  | .cseq w => some (w, { a := true })
  | .ctrap w => some (w, { mask := 0xFFFF })
  | .clauseHeader => none
  | .longLatencyResult => none
  | .storeCommit => none
  | .writePropagation _ => none
  | .interruptThreshold _ => none
  | .deferredQuiesce => none
  | .sleepExpiry => none
  | .sigrWake => none
  | .tspnRoom => none
  | .snagSearch => none
  | .copyAccept => none
  | .copyPageIn => none
  | .copyComplete => none
  | .callAccept => none
  | .callStart => none
  | .capstanClauseHeader => none
  | .cldResult => none
  | .cwaitWake => none
  | .callComplete => none
  | .mreset => none
  | .clayParityFailure => none
  | .reclaim => none
  | .objectMemoryReturn => none
  | .btinvComplete => none
  | .dispatchDecision => none
  | .passCountPromotion => none
  | .taskEnd => none
  | .run => none
  | .post => none
  | .watch => none
  | .badentry => none
  | .watchFire => none
  | .kernelNode => none
  | .copyNode => none
  | .signalNode => none
  | .waitNode => none
  | .waitNodeSatisfied => none
  | .condNode => none
  | .notifyNode => none
  | .endNode => none
  | .graphFailure => none
  | .fabricAccept => none
  | .fabricComplete => none
  | .xredCombine => none
  | .flitRetransmit _ => none
  | .tirralPortFailure _ _ => none
  | .cordSave => none
  | .eccCorrected _ _ => none
  | .uncorrectableError _ => none
  | .nearStoreScrub _ => none
  | .clayMacroSpare => none
  | .energyPeriod _ => none
  | .deviceReset => none
  | .inval => none
  | .reload => none
  | .jobstart => none
  | .jobend => none
  | .vacate => none
  | .withdraw => none
  | .coreoff => none
  | .coreon => none
  | .portrem => none
  | .portadd => none
  | .attest => none
  | .fwstage => none
  | .fwswap => none
  | .commandComplete => none
  | .srtail _ => none
  | .crhead _ => none
  | .srbase _ => none
  | .srsize _ => none
  | .crbase _ => none
  | .crsize _ => none
  | .powercap _ => none
  | .tableBaseWrite _ _ => none
  | .registerWrite _ _ => none
  | .unassignedOpcode _ => none
  | .unassignedCapstanOpcode _ => none
  | .tirralFlit _ => none

/-! ### The check (R27, R64) -/

/-- One operand field is well formed: an unused field holds 0, a number is in range, a specifier is not reserved, of an accepted
kind, 0xFF only where an immediate may stand, and a pair or group is aligned (R27 step 2). -/
def Fld.wf (f : Fld) (x : BitVec 8) : Bool := match f with
  | .off => x == 0
  | .num max => x.toNat ≤ max
  | .reg n v s z imm _ _ =>
    if x == 0xFF then imm
    else if isZ x then z
    else if isVector x then v && x.toNat % n == 0
    else isScalar x && s && (x.toNat - 0xC0) % n == 0

/-- A field that reads a vector register. -/
def Fld.vecSrc (f : Fld) (x : BitVec 8) : Bool := match f with
  | .reg _ _ _ _ _ rd _ => rd && isVector x
  | _ => false

/-- A field that writes a vector register. -/
def Fld.vecDst (f : Fld) (x : BitVec 8) : Bool := match f with
  | .reg _ _ _ _ _ _ wr => wr && isVector x
  | _ => false

/-- A field that writes a scalar register. -/
def Fld.scalDst (f : Fld) (x : BitVec 8) : Bool := match f with
  | .reg _ _ _ _ _ _ wr => wr && isScalar x
  | _ => false

/-- The word meets R19: no scalar destination has a vector source. -/
def Form.r19 (f : Form) (w : SWord) : Bool :=
  f.mixed || !(f.d.scalDst w.d && (f.a.vecSrc w.a || f.b.vecSrc w.b || f.c.vecSrc w.c))

/-- The word passes step 2 of R27, the part that depends on the word alone. -/
def Form.wf (f : Form) (w : SWord) : Bool :=
  !(w.gp == 7 && w.gi) && f.types.contains w.ty && f.d.wf w.d && f.a.wf w.a && f.b.wf w.b && f.c.wf w.c &&
    ((w.isImm && f.b.wf 0xFF) || w.imm &&& ~~~f.mask == 0) && f.ok && f.r19 w

/-- The registers that a field names, as specifiers. -/
def Fld.regs (f : Fld) (x : BitVec 8) : List Nat := match f with
  | .reg n .. => if isVector x || isScalar x then (List.range n).map (x.toNat + ·) else []
  | _ => []

/-- The registers that a field reads. -/
def Fld.reads (f : Fld) (x : BitVec 8) : List Nat := match f with
  | .reg _ _ _ _ _ rd _ => if rd then f.regs x else []
  | _ => []

/-- Every register that the word names. -/
def Form.names (f : Form) (w : SWord) : List Nat := f.d.regs w.d ++ f.a.regs w.a ++ f.b.regs w.b ++ f.c.regs w.c

/-- Every register that the word reads. -/
def Form.reads (f : Form) (w : SWord) : List Nat := f.d.reads w.d ++ f.a.reads w.a ++ f.b.reads w.b ++ f.c.reads w.c

/-- A named register exists for a strand with this base size and extended block (R27 step 3). A number past v191 runs into the
scalar specifiers, and one past s47 into the reserved ones; R27's pair rule has aligned every group, so neither occurs. -/
def regInRange (base : Nat) (ext : Bool) (r : Nat) : Bool :=
  if 0xC0 ≤ r then r < 0xF0 else if 64 ≤ r then ext else r < base

/-- The word is allowed in handler mode (R358). -/
def Form.inHandler (f : Form) (w : SWord) : Bool :=
  !f.outside && f.cls != .async &&
    (f.frozen || !(f.d.isVec w.d || f.a.isVec w.a || f.b.isVec w.b || f.c.isVec w.c))

/-- The word passes step 3 of R27. -/
def Form.inRange (f : Form) (w : SWord) (base : Nat) (ext : Bool) : Bool := (f.names w).all (regInRange base ext)

/-- The capstan word passes step 3 of R64: an unused field holds 0, no undefined IMM16 bit is set, cond is 0 outside CBR. -/
def CForm.wf (f : CForm) (w : CWord) : Bool :=
  (f.d || w.d == 0) && (f.a || w.a == 0) && (f.b || w.b == 0) && (f.c || w.c == 0) && w.imm &&& ~~~f.mask == 0 &&
    (f.cond || w.cond == 0) && f.ok

end Machine
end Sys2Proof
end

