-- ==== Sys2Proof/Config.lean ====
section
/-! DEFINITION. What the spec leaves open, as constants with no value: nothing in Lean can evaluate them, so a statement about
the model holds whatever they are. Each has its entry in notes/assumptions. -/

namespace Sys2Proof.Config

/-- Old (false) or new (true) for the n-th open choice of an unsettled read or write, per lane (R24). Log entry 1. -/
opaque unsettled : Nat → Nat → Bool

/-- The bits a bounded transcendental returns where the spec gives only a bound (R94), one function for each instruction, since
results are deterministic. Log entry 2. -/
opaque log2Bits : Word → Word
opaque rcpBits  : Word → Word
opaque rsqBits  : Word → Word
opaque sinpBits : Word → Word
opaque cospBits : Word → Word
opaque tanhBits : Word → Word

/-- The 32-bit check value of the bytes of a clay slot (R258). Log entry 3. -/
opaque clayCheck : List Byte → Word

/-- The STAGE bytes that VPROJ leaves (R292): n-th use, offset. Log entry 4. -/
opaque stageByte : Nat → Nat → Byte

/-- A byte of a pool line read under a key that is not the one it was written under (R402): n-th key change, address.
Log entry 5. -/
opaque erasedByte : Nat → Nat → Byte

/-- A byte of a pool line that another key has written (R402): n-th turn, key. Log entry 5. -/
opaque garbledByte : Nat → Nat → Byte

/-- Which of the old and new page-table entries an access uses while a change is not yet invalidated (R200): n-th turn, access of the
word. Log entry 58. -/
opaque tlbEntry : Nat → Nat → Nat

/-- Which of the values that a location has held a lane of LDC reads (R121): n-th turn, access of the word. Log entry 17. -/
opaque constValue : Nat → Nat → Nat

/-- Which of the values that a byte has had while a capstan word was in progress the word reads (R257): n-th turn, address. Log entry 38. -/
opaque glimpsed : Nat → Nat → Nat

/-- The energy in nJ that the controller measures for the n-th interval (R324, R332). Log entry 6. -/
opaque measuredEnergy : Nat → Nat

/-- The vimax result of elements of which none beats every other: equal values and indices in different bits (R389), by the value with
-0 and every NaN in one form, and the index. Log entry 57. -/
opaque vimaxTie : DWord → DWord

/-- The parts of a firmware image that its signature covers, its signature, and its rollback counter (R403), whose places the spec does
not give. Log entry 7. -/
opaque fwSigned    : List Byte → List Byte
opaque fwSignature : List Byte → List Byte
opaque fwRollback  : List Byte → Word

/-- The fused vendor key, an Ed25519 public key (R403), and the device identity key, a secret one (R404). Log entry 7. -/
opaque vendorKey : List Byte
opaque deviceKey : List Byte

/-- The image in flash slot 0 or 1 when the device leaves the factory (R403). Log entry 7. -/
opaque fwFactory : Nat → List Byte

/-- BSCL's emax for a valid format that has no finite nonzero value (R101). Log entry 8. -/
opaque emaxNoFinite : Word → Int

/-- The device's serial number (R395 DEVIDR) and its device id on Tirral (R111 DEVID). Log entry 9. -/
opaque serial : BitVec 48
opaque devId  : BitVec 16

/-- The base and the size in GiB of the memory that training finds at a pool port (R395, R408): n-th training, port. Log entry 10. -/
opaque poolBase : Nat → Nat → BitVec 16
opaque poolSize : Nat → Nat → BitVec 16

/-- Which of the lanes that are left is served next, for the n-th word (R117, R220). Log entry 11. -/
opaque laneOrder : Nat → Nat → Nat

end Sys2Proof.Config
end

