-- ==== Sys2Proof/Machine/Map.lean ====
section
/-! DEFINITION. The containers: sparse tables, memories in one canonical form, sets of lanes, and little-endian numbers (R4). -/

namespace Sys2Proof.Machine

/-! ### Sparse tables -/

/-- The entry of a number, if any. -/
def aGet? {α : Type} : AMap α → Nat → Option α
  | [], _ => none
  | (k', v) :: t, k => if k = k' then some v else aGet? t k

/-- The entry of a number, or a default. -/
def aGet {α : Type} (d : α) (m : AMap α) (k : Nat) : α := (aGet? m k).getD d

/-- Replaces the entry of a number, keeping the order. -/
def aSet {α : Type} : AMap α → Nat → α → AMap α
  | [], k, v => [(k, v)]
  | (k', v') :: t, k, v =>
    if k < k' then (k, v) :: (k', v') :: t else if k = k' then (k, v) :: t else (k', v') :: aSet t k v

/-- Removes the entry of a number. -/
def aDel {α : Type} (m : AMap α) (k : Nat) : AMap α := m.filter (fun e => e.1 != k)

/-- Changes the entry of a number. -/
def aMod {α : Type} (d : α) (m : AMap α) (k : Nat) (f : α → α) : AMap α := aSet m k (f (aGet d m k))

/-- Replaces the i-th element of a list. -/
def lSet {α : Type} : List α → Nat → α → List α
  | [], _, _ => []
  | _ :: t, 0, v => v :: t
  | h :: t, i + 1, v => h :: lSet t i v

/-- Removes the i-th element of a list. -/
def lDel {α : Type} : List α → Nat → List α
  | [], _ => []
  | _ :: t, 0 => t
  | h :: t, i + 1 => h :: lDel t i

/-- The places of the elements that satisfy p, lowest first. -/
def lFind {α : Type} (p : α → Bool) (l : List α) : Option Nat := l.findIdx? p

/-! ### Memories

A memory is a list of address and byte pairs, addresses strictly rising, with no byte 0 listed: an unlisted address reads 0. -/

/-- What an unlisted address reads as. -/
def unlisted : Byte := 0

/-- The canonical form: addresses strictly rising, above `lo`, and no entry equal to what an unlisted address reads as. -/
def memWfFrom : Option Nat → List Host.Cell → Bool
  | _, [] => true
  | lo, (a, b) :: t => (match lo with | none => true | some l => l < a) && b != unlisted && memWfFrom (some a) t

/-- A memory is in its canonical form. -/
def Memory.wf (m : List Host.Cell) : Bool := memWfFrom none m

/-- Reads one byte. -/
def memRd : List Host.Cell → Nat → Byte
  | [], _ => unlisted
  | (a', b) :: t, a => if a = a' then b else memRd t a

/-- Writes one byte, keeping the canonical form. -/
def memWr : List Host.Cell → Nat → Byte → List Host.Cell
  | [], a, b => if b = unlisted then [] else [(a, b)]
  | (a', b') :: t, a, b =>
    if a < a' then (if b = unlisted then (a', b') :: t else (a, b) :: (a', b') :: t)
    else if a = a' then (if b = unlisted then t else (a, b) :: t)
    else (a', b') :: memWr t a b

/-- Reads n bytes from an address up. -/
def memRdN (m : List Host.Cell) (a n : Nat) : List Byte := (List.range n).map (fun i => memRd m (a + i))

/-- Writes bytes from an address up. -/
def memWrN (m : List Host.Cell) (a : Nat) : List Byte → List Host.Cell
  | [] => m
  | b :: bs => memWrN (memWr m a b) (a + 1) bs

/-! ### Little-endian numbers (R4) -/

/-- The number that bytes hold. -/
def leNat : List Byte → Nat
  | [] => 0
  | b :: bs => b.toNat + 256 * leNat bs

/-- The n bytes of a number. -/
def leBytes : Nat → Nat → List Byte
  | 0, _ => []
  | n + 1, v => BitVec.ofNat 8 v :: leBytes n (v / 256)

/-- A field of n bytes at offset o of a byte list. -/
def leAt (bs : List Byte) (o n : Nat) : Nat := leNat ((bs.drop o).take n)

/-- Bits [lo + n - 1 : lo] of a number. -/
def natBits (v lo n : Nat) : Nat := v / 2 ^ lo % 2 ^ n

/-- A number of w bits read as two's complement. -/
def signedOf (w v : Nat) : Int := if v % 2 ^ w < 2 ^ (w - 1) then (v % 2 ^ w : Nat) else ((v % 2 ^ w : Nat) : Int) - 2 ^ w

/-- The low w bits of an integer. -/
def natOf (w : Nat) (x : Int) : Nat := (x % (2 ^ w : Nat)).toNat

/-- Clamps an integer. -/
def clampInt (lo hi x : Int) : Int := if x < lo then lo else if hi < x then hi else x

/-! ### Sets of lanes -/

/-- Lane 0 to 31, ascending. -/
def allLanes : List Lane := (List.range 32).map (Fin.ofNat 32)

/-- Bits 0 to n-1 of a predicate on numbers. -/
def maskUpTo (f : Nat → Bool) : Nat → LaneMask
  | 0 => 0
  | n + 1 => maskUpTo f n ||| (if f n then BitVec.twoPow 32 n else 0)

/-- The set of the lanes that satisfy f. -/
def maskOf (f : Lane → Bool) : LaneMask := maskUpTo (fun n => if h : n < 32 then f ⟨n, h⟩ else false) 32

/-- A lane stands in a set. -/
def inMask (m : LaneMask) (l : Lane) : Bool := m.getLsbD l.val

/-- The lanes of a set, ascending. -/
def lanesOf (m : LaneMask) : List Lane := allLanes.filter (inMask m)

/-- The lowest lane of a set. -/
def lowestLane (m : LaneMask) : Option Lane := (lanesOf m).head?

/-- The number of lanes of a set. -/
def laneCount (m : LaneMask) : Nat := (lanesOf m).length

/-- The set of one lane. -/
def laneBit (l : Lane) : LaneMask := BitVec.twoPow 32 l.val

/-- The number of 1 bits below n. -/
def popBelow (v : Nat) : Nat → Nat
  | 0 => 0
  | n + 1 => popBelow v n + (v / 2 ^ n % 2)

end Sys2Proof.Machine
end

