-- ==== Sys2Proof/Machine/Num.lean ====
section
/-! DEFINITION. Numbers (R31 to R55, R87 to R101): exact values of FP32, BF16, FP16 and the narrow formats, one rounding, sums and
products, division and square root, comparisons, EXP2, and the bounded transcendentals. A finite nonzero value is m * 2^e with
m and e integers. -/

namespace Sys2Proof.Machine

/-! ### Sticky flags (R56) -/

/-- A set of sticky flags. -/
abbrev Flags := BitVec 32

def fSAT : Flags := 0x01
def fINV : Flags := 0x02
def fDZ : Flags := 0x04
def fOFL : Flags := 0x08
def fNAN : Flags := 0x10
def fUNF : Flags := 0x20
def fSPEC : Flags := 0x40

/-- A flag where a condition holds. -/
def flagIf (c : Bool) (f : Flags) : Flags := if c then f else 0

/-! ### Values -/

/-- The rounding modes (R32). -/
inductive RM where
  | rne | rz | rdn | rup
  deriving DecidableEq, Repr

/-- The mode of a two-bit field (R21). -/
def RM.ofBits (n : Nat) : RM := match n % 4 with
  | 0 => .rne | 1 => .rz | 2 => .rdn | _ => .rup

/-- A float format: exponent bits and stored mantissa bits (R31). -/
structure Fmt where
  eb : Nat
  mb : Nat
  deriving DecidableEq, Repr

def f32 : Fmt := ⟨8, 23⟩
def bf16 : Fmt := ⟨8, 7⟩
def f16 : Fmt := ⟨5, 10⟩

/-- The value of a float code: NaN (signalling or not), infinity, zero, or a finite nonzero m * 2^e. -/
inductive FV where
  | nan (sig : Bool)
  | inf (neg : Bool)
  | zero (neg : Bool)
  | fin (m e : Int)
  deriving DecidableEq, Repr

def Fmt.bias (f : Fmt) : Nat := 2 ^ (f.eb - 1) - 1
def Fmt.top (f : Fmt) : Nat := 2 ^ f.eb - 1
/-- The sign bit. -/
def Fmt.sbit (f : Fmt) : Nat := 2 ^ (f.eb + f.mb)
/-- The canonical quiet NaN (R33). -/
def Fmt.nan (f : Fmt) : Nat := f.top * 2 ^ f.mb + 2 ^ (f.mb - 1)
/-- The largest finite magnitude. -/
def Fmt.maxFin (f : Fmt) : Nat := f.top * 2 ^ f.mb - 1
/-- Infinity's magnitude. -/
def Fmt.infBits (f : Fmt) : Nat := f.top * 2 ^ f.mb

/-- The sign of a value, as a Bool. -/
def FV.neg : FV → Bool
  | .nan _ => false
  | .inf n => n
  | .zero n => n
  | .fin m _ => m < 0

def FV.isNan : FV → Bool
  | .nan _ => true
  | _ => false

def FV.isSig : FV → Bool
  | .nan s => s
  | _ => false

/-- Flips the sign. -/
def FV.flip : FV → FV
  | .nan s => .nan s
  | .inf n => .inf !n
  | .zero n => .zero !n
  | .fin m e => .fin (-m) e

/-- An integer as a value. -/
def FV.ofInt (n : Int) : FV := if n = 0 then .zero false else .fin n 0

/-- Multiplies by a power of two. -/
def FV.scale (v : FV) (k : Int) : FV := match v with
  | .fin m e => .fin m (e + k)
  | v => v

/-- The number of bits of n, 0 for 0. -/
def bitLen (n : Nat) : Nat := if n = 0 then 0 else Nat.log2 n + 1

/-- floor(log2 |v|) of a finite nonzero value. -/
def FV.exp2of : FV → Int
  | .fin m e => (bitLen m.natAbs : Int) - 1 + e
  | _ => 0

/-- The value of a code of a float format (R31): subnormals are supported. -/
def Fmt.unpack (f : Fmt) (b : Nat) : FV :=
  let neg := b / f.sbit % 2 == 1
  let ef := b / 2 ^ f.mb % 2 ^ f.eb
  let m := b % 2 ^ f.mb
  let sg : Int := if neg then -1 else 1
  if ef = f.top then (if m = 0 then .inf neg else .nan (m < 2 ^ (f.mb - 1)))
  else if ef = 0 then (if m = 0 then .zero neg else .fin (sg * m) (1 - f.bias - f.mb))
  else .fin (sg * ((2 ^ f.mb + m : Nat) : Int)) (ef - f.bias - f.mb)

/-- n / 2^s rounded to an integer in a mode, for a magnitude n of sign neg (R32). -/
def roundShift (mode : RM) (neg : Bool) (n : Nat) (s : Int) : Nat :=
  if s ≤ 0 then n * 2 ^ (-s).toNat
  else if (bitLen n : Int) + 1 < s then
    (if n != 0 && ((mode = .rup && !neg) || (mode = .rdn && neg)) then 1 else 0)
  else
    let p := 2 ^ s.toNat
    let q := n / p
    let r := n % p
    let up := match mode with
      | .rne => p < 2 * r || (2 * r == p && q % 2 == 1)
      | .rz => false
      | .rdn => r != 0 && neg
      | .rup => r != 0 && !neg
    if up then q + 1 else q

/-- An integer m / 2^s rounded in a mode. -/
def roundInt (mode : RM) (m : Int) (s : Int) : Int :=
  let q := (roundShift mode (m < 0) m.natAbs s : Int)
  if m < 0 then -q else q

/-- Rounds a value to a format once (R32, R33), with saturation if asked, and its flags: SAT under saturate, UNF for a nonzero
value that becomes ±0, INV for a signalling NaN. -/
def Fmt.pack (f : Fmt) (mode : RM) (sat : Bool) (v : FV) : Nat × Flags :=
  let past (neg toInf : Bool) : Nat × Flags :=
    let s := if neg then f.sbit else 0
    if toInf then (if sat then (s + f.maxFin, fSAT) else (s + f.infBits, 0)) else (s + f.maxFin, 0)
  match v with
  | .nan s => (f.nan, flagIf s fINV)
  | .zero n => (if n then f.sbit else 0, 0)
  | .inf n => past n true
  | .fin m e =>
    let neg := m < 0
    let n := m.natAbs
    let q := max (bitLen n - 1 + e) (1 - (f.bias : Int)) - f.mb
    let k := roundShift mode neg n (q - e)
    let b := (q + f.mb + f.bias - 1) * 2 ^ f.mb + k
    if k = 0 then (if neg then f.sbit else 0, fUNF)
    else if b < f.infBits then ((if neg then f.sbit else 0) + b.toNat, 0)
    else past neg (mode = .rne || (mode = .rup && !neg) || (mode = .rdn && neg))

/-! ### Sums and products (R88) -/

/-- A product, with INV for 0 times infinity or a signalling NaN. -/
def FV.mul (x y : FV) : FV × Flags :=
  let sg := flagIf (x.isSig || y.isSig) fINV
  match x, y with
  | .nan _, _ => (.nan false, sg)
  | _, .nan _ => (.nan false, sg)
  | .inf _, .zero _ => (.nan false, fINV)
  | .zero _, .inf _ => (.nan false, fINV)
  | .inf a, y => (.inf (a != y.neg), 0)
  | x, .inf b => (.inf (x.neg != b), 0)
  | .zero a, y => (.zero (a != y.neg), 0)
  | x, .zero b => (.zero (x.neg != b), 0)
  | .fin m e, .fin m' e' => (.fin (m * m') (e + e'), 0)

/-- The least exponent of the finite terms, at most e. -/
def minExp (e : Int) : List FV → Int
  | [] => e
  | .fin _ e' :: t => minExp (min e e') t
  | _ :: t => minExp e t

/-- The exact sum of the finite terms, in units of 2^e. -/
def sumAt (e : Int) : List FV → Int
  | [] => 0
  | .fin m e' :: t => m * 2 ^ (e' - e).toNat + sumAt e t
  | _ :: t => sumAt e t

/-- The exact sum of the addends in a mode, whose zero takes the sign of R88. With a quiet NaN among the addends, infinities of both signs
set no INV (DEDUCED, log entry 59). -/
def FV.sum (mode : RM) (l : List FV) : FV × Flags :=
  let sg := flagIf (l.any FV.isSig) fINV
  if l.any FV.isNan then (.nan false, sg)
  else if l.any (fun v => v = .inf false) then
    (if l.any (fun v => v = .inf true) then (.nan false, fINV) else (.inf false, 0))
  else if l.any (fun v => v = .inf true) then (.inf true, 0)
  else
    let fins := l.filter (fun v => match v with | .fin .. => true | _ => false)
    match fins with
    | [] =>
      if l.all (fun v => v.neg) then (.zero true, 0)
      else if l.all (fun v => !v.neg) then (.zero false, 0)
      else (.zero (mode = .rdn), 0)
    | v :: _ =>
      let e := minExp (match v with | .fin _ e => e | _ => 0) fins
      let m := sumAt e fins
      if m = 0 then (.zero (mode = .rdn), 0) else (.fin m e, 0)

/-! ### Division and square root -/

/-- A quotient of finite nonzero values to at least `bits` bits, its last bit set where the quotient is not exact: one rounding of
it is one rounding of the exact quotient. -/
def divSticky (bits : Nat) (m e m' e' : Int) : FV :=
  let k := bits + bitLen m'.natAbs - bitLen m.natAbs
  let n := m.natAbs * 2 ^ k
  let q := 2 * (n / m'.natAbs) + (if n % m'.natAbs = 0 then 0 else 1)
  let q' : Int := if (m < 0) != (m' < 0) then -(q : Int) else q
  .fin q' (e - e' - k - 1)

/-- x / y exactly, for one rounding to `bits` bits (R88). -/
def FV.div (bits : Nat) (x y : FV) : FV × Flags :=
  let sg := flagIf (x.isSig || y.isSig) fINV
  match x, y with
  | .nan _, _ => (.nan false, sg)
  | _, .nan _ => (.nan false, sg)
  | .inf _, .inf _ => (.nan false, fINV)
  | .zero _, .zero _ => (.nan false, fINV)
  | .inf a, y => (.inf (a != y.neg), 0)
  | .fin m _, .zero b => (.inf ((m < 0) != b), fDZ)
  | x, .inf b => (.zero (x.neg != b), 0)
  | .zero a, y => (.zero (a != y.neg), 0)
  | .fin m e, .fin m' e' => (divSticky (bits + 4) m e m' e', 0)

/-- Square root of n: the largest r with r * r ≤ n, built bit by bit below 2^k. -/
def isqrtFrom (n : Nat) : Nat → Nat → Nat
  | 0, r => r
  | k + 1, r => isqrtFrom n k (if (r + 2 ^ k) * (r + 2 ^ k) ≤ n then r + 2 ^ k else r)

/-- The integer square root. -/
def isqrt (n : Nat) : Nat := isqrtFrom n (bitLen n / 2 + 1) 0

/-- The square root of n * 2^e, n > 0, to about `bits` bits with a sticky last bit. -/
def sqrtSticky (bits : Nat) (n : Nat) (e : Int) : FV :=
  let k0 := 2 * bits + 2 - bitLen n
  let k := if (e - k0) % 2 = 0 then k0 else k0 + 1
  let x := n * 2 ^ k
  let r := isqrt x
  .fin ((2 * r + (if r * r = x then 0 else 1) : Nat) : Int) ((e - k) / 2 - 1)

/-! ### Order (R33, R79, R89, R175) -/

/-- The place of a code in the total order of IEEE 754-2019 (R175). -/
def Fmt.totalKey (f : Fmt) (b : Nat) : Int :=
  let mag := b % f.sbit
  if b / f.sbit % 2 = 1 then -(mag : Int) - 1 else mag

/-- The place of a code among the numbers, zeros equal. -/
def Fmt.numKey (f : Fmt) (b : Nat) : Int :=
  let mag := b % f.sbit
  if b / f.sbit % 2 = 1 then -(mag : Int) else mag

/-- A code is NaN. -/
def Fmt.isNan (f : Fmt) (b : Nat) : Bool := f.infBits < b % f.sbit

/-- A code is a signalling NaN. -/
def Fmt.isSig (f : Fmt) (b : Nat) : Bool := f.isNan b && b % f.sbit < f.nan

/-- minimumNumber (larger = false) or maximumNumber of two codes (R89): one NaN gives the other operand, two the canonical NaN. -/
def Fmt.minMax (f : Fmt) (larger : Bool) (a b : Nat) : Nat × Flags :=
  let fl := flagIf (f.isSig a || f.isSig b) fINV
  if f.isNan a then (if f.isNan b then (f.nan, fl) else (b, fl))
  else if f.isNan b then (a, fl)
  else (if (f.totalKey a ≤ f.totalKey b) != larger then a else b, fl)

/-- FMINP and FMAXP (R89): the canonical NaN if either operand is NaN. -/
def Fmt.minMaxP (f : Fmt) (larger : Bool) (a b : Nat) : Nat × Flags :=
  if f.isNan a || f.isNan b then (f.nan, flagIf (f.isSig a || f.isSig b) fINV) else f.minMax larger a b

/-- The condition of a float comparison (R79), with INV for a signalling NaN. -/
def Fmt.cond (f : Fmt) (cc : Nat) (a b : Nat) : Bool × Flags :=
  let un := f.isNan a || f.isNan b
  let x := f.numKey a
  let y := f.numKey b
  let r := match cc with
    | 0 => !un && x == y
    | 1 => un || x != y
    | 2 => !un && x < y
    | 3 => !un && x ≤ y
    | 4 => !un && y < x
    | 5 => !un && y ≤ x
    | 6 => !un
    | _ => un
  (r, flagIf (f.isSig a || f.isSig b) fINV)

/-- The class of an FP32 code, 0 to 9 (R90). -/
def fClass (b : Nat) : Nat :=
  match f32.unpack b with
  | .nan s => if s then 8 else 9
  | .inf n => if n then 0 else 7
  | .zero n => if n then 3 else 4
  | .fin m _ =>
    let sub := b / 2 ^ 23 % 2 ^ 8 == 0
    if m < 0 then (if sub then 2 else 1) else (if sub then 5 else 6)

/-! ### FP32 operations -/

/-- One FP32 operation rounded RNE: x * y + z. -/
def f32Fma (x y z : FV) : FV := f32.unpack (f32.pack .rne false (FV.sum .rne [(x.mul y).1, z]).1).1

/-- x * y rounded RNE. -/
def f32Mul (x y : FV) : FV := f32.unpack (f32.pack .rne false (x.mul y).1).1

/-! ### EXP2 (R93) -/

/-- kt[j] = 2^(j/64) rounded to FP32 (R93). -/
def kt : List Nat :=
  [0x3F800000, 0x3F8164D2, 0x3F82CD87, 0x3F843A29, 0x3F85AAC3, 0x3F871F62, 0x3F88980F, 0x3F8A14D5] ++
  [0x3F8B95C2, 0x3F8D1ADF, 0x3F8EA43A, 0x3F9031DC, 0x3F91C3D3, 0x3F935A2B, 0x3F94F4F0, 0x3F96942D] ++
  [0x3F9837F0, 0x3F99E046, 0x3F9B8D3A, 0x3F9D3EDA, 0x3F9EF532, 0x3FA0B051, 0x3FA27043, 0x3FA43516] ++
  [0x3FA5FED7, 0x3FA7CD94, 0x3FA9A15B, 0x3FAB7A3A, 0x3FAD583F, 0x3FAF3B79, 0x3FB123F6, 0x3FB311C4] ++
  [0x3FB504F3, 0x3FB6FD92, 0x3FB8FBAF, 0x3FBAFF5B, 0x3FBD08A4, 0x3FBF179A, 0x3FC12C4D, 0x3FC346CD] ++
  [0x3FC5672A, 0x3FC78D75, 0x3FC9B9BE, 0x3FCBEC15, 0x3FCE248C, 0x3FD06334, 0x3FD2A81E, 0x3FD4F35B] ++
  [0x3FD744FD, 0x3FD99D16, 0x3FDBFBB8, 0x3FDE60F5, 0x3FE0CCDF, 0x3FE33F89, 0x3FE5B907, 0x3FE8396A] ++
  [0x3FEAC0C7, 0x3FED4F30, 0x3FEFE4BA, 0x3FF28177, 0x3FF5257D, 0x3FF7D0DF, 0x3FFA83B3, 0x3FFD3E0C]

/-- EXP2 of an FP32 code, bit for bit (R93). -/
def exp2Bits (b : Nat) : Nat × Flags :=
  match f32.unpack b with
  | .nan s => (f32.nan, flagIf s fINV)
  | .inf n => (if n then 0 else f32.infBits, 0)
  | .zero _ => (0x3F800000, 0)
  | .fin m e =>
    let ge128 := m > 0 && 7 ≤ (FV.fin m e).exp2of
    let ltm160 := m < 0 && (8 ≤ (FV.fin m e).exp2of ||
      (7 = (FV.fin m e).exp2of && 160 * 2 ^ (-e).toNat < m.natAbs * 2 ^ e.toNat))
    if ge128 then (f32.infBits, 0)
    else if ltm160 then (0, fUNF)
    else
      -- x in units of 2^-149, the finest FP32 grid
      let x : Int := m * 2 ^ (e + 149).toNat
      let n := x / 2 ^ 149
      let fr := x % 2 ^ 149
      let j : Nat := (fr * 64 / 2 ^ 149).toNat
      let r := fr - (j : Int) * 2 ^ 143
      let rv : FV := if r = 0 then .zero false else .fin r (-149)
      let q := f32Fma (f32.unpack 0x3D635847) rv (f32.unpack 0x3E75FDF0)
      let q := f32Fma q rv (f32.unpack 0x3F317218)
      let q := f32Mul q rv
      let k := f32.unpack (kt.getD j 0x3F800000)
      let y := f32Fma k q k
      f32.pack .rne false (y.scale n)

/-! ### The bounded transcendentals (R94)

Each returns the listed special values exactly. Elsewhere its bits are those of an opaque constant where they meet the bound,
and a value within the bound where they do not. The exact results of LOG2, SINP, COSP and TANH are bracketed in fixed point, so finely that
every FP32 candidate is a whole number of units; a candidate is taken only where it meets the bound for every value of the bracket (log
entry 2). -/

/-- Fractional bits of the fixed-point brackets of sine and cosine. -/
def fxBits : Nat := 256

/-- The value of FP32 bits times 2^k as an integer, rounded down; none for NaN and infinity. -/
def f32Fixed (k : Nat) (b : Nat) : Option Int :=
  match f32.unpack b with
  | .fin m e => some (if 0 ≤ e + k then m * 2 ^ (e + k).toNat else m / 2 ^ (-(e + k)).toNat)
  | .zero _ => some 0
  | _ => none

/-- Flags of a bounded result: UNF where a nonzero exact result came back as ±0. -/
def unfIf (exactNonzero : Bool) (r : Word) : Word × Flags := (r, flagIf (exactNonzero && r.toNat % 2 ^ 31 = 0) fUNF)

/-- The unit in the last place of FP32 at a value of exponent E, as an exponent of two. -/
def ulpExp (E : Int) : Int := max (E - 23) (-149)

/-- |c - x / y| ≤ 2^u, for integers x, y ≠ 0 times powers of two: c = cm * 2^ce, x / y = 1 / (m * 2^e). -/
def rcpWithin (cm ce m e u : Int) : Bool :=
  -- |cm*m*2^(ce+e) - 1| <= |m| * 2^(u+e)
  let k := (max 0 (max (-(ce + e)) (-(u + e)))).toNat
  (cm * m * 2 ^ (ce + e + k).toNat - 2 ^ k).natAbs ≤ m.natAbs * 2 ^ (u + e + k).toNat

/-- A candidate as m * 2^e, with infinity read as 2^128. -/
def candidate (c : Word) : Option (Int × Int) :=
  match f32.unpack c.toNat with
  | .fin m e => some (m, e)
  | .inf n => some (if n then -1 else 1, 128)
  | .zero _ => some (0, 0)
  | .nan _ => none

/-- RCP (R94): within 1 ulp of 1/A. -/
def rcpResult (a : Word) : Word × Flags :=
  match f32.unpack a.toNat with
  | .nan s => (0x7FC00000, flagIf s fINV)
  | .zero n => (if n then 0xFF800000 else 0x7F800000, fDZ)
  | .inf n => (if n then 0x80000000 else 0, 0)
  | .fin m e =>
    let x := divSticky 30 1 0 m e
    let r := (f32.pack .rne false x).1
    let pow2 := m.natAbs = 2 ^ (bitLen m.natAbs - 1)
    let c := Config.rcpBits a
    let ok := match candidate c with
      | none => false
      | some (cm, ce) => rcpWithin cm ce m e (ulpExp x.exp2of)
    (if pow2 || !ok then BitVec.ofNat 32 r else c, 0)

/-- (c ± k ulp) brackets 1/√A: c = cm * 2^ce > 0, A = m * 2^e, ulp = 2^u. -/
def rsqWithin (cm ce m e u : Int) (k : Int) : Bool :=
  -- in units of 2^v: lo = c - k ulp, hi = c + k ulp; lo <= 0 or lo^2 * A <= 1, and hi^2 * A >= 1
  let v := min ce u
  let c := cm * 2 ^ (ce - v).toNat
  let d := k * 2 ^ (u - v).toNat
  let s := (max 0 (-(2 * v + e))).toNat
  let t := (2 * v + e + s).toNat
  (c - d ≤ 0 || (c - d) * (c - d) * m * 2 ^ t ≤ 2 ^ s) && 2 ^ s ≤ (c + d) * (c + d) * m * 2 ^ t && 0 < c + d

/-- RSQ (R94): within 2 ulp of 1/√A. -/
def rsqResult (a : Word) : Word × Flags :=
  match f32.unpack a.toNat with
  | .nan s => (0x7FC00000, flagIf s fINV)
  | .zero n => (if n then 0xFF800000 else 0x7F800000, fDZ)
  | .inf n => if n then (0x7FC00000, fINV) else (0, 0)
  | .fin m e =>
    if m < 0 then (0x7FC00000, fINV)
    else
      let root := sqrtSticky 34 m.natAbs e
      let x := match root with | .fin rm re => divSticky 34 1 0 rm re | v => v
      let r := (f32.pack .rne false x).1
      let pow4 := m.natAbs = 2 ^ (bitLen m.natAbs - 1) && (e + bitLen m.natAbs - 1) % 2 = 0
      let c := Config.rsqBits a
      let ok := match candidate c with
        | none => false
        | some (cm, ce) => rsqWithin cm ce m e (ulpExp x.exp2of) 2
      (if pow4 || !ok then BitVec.ofNat 32 r else c, 0)

/-- SQRT (R94): correctly rounded in the rounding modifier. -/
def sqrtResult (mode : RM) (sat : Bool) (a : Word) : Word × Flags :=
  match f32.unpack a.toNat with
  | .nan s => (0x7FC00000, flagIf s fINV)
  | .zero n => (if n then 0x80000000 else 0, 0)
  | .inf n => if n then (0x7FC00000, fINV) else
      let p := f32.pack mode sat (.inf false)
      (BitVec.ofNat 32 p.1, p.2)
  | .fin m e =>
    if m < 0 then (0x7FC00000, fINV)
    else
      let p := f32.pack mode sat (sqrtSticky 30 m.natAbs e)
      (BitVec.ofNat 32 p.1, p.2)

/-- Bits of log2 of x in [1, 2), in fixed point of P bits: n more bits, by repeated squaring rounded down (up = false) or up. -/
def log2Bits (up : Bool) (P : Nat) : Nat → Nat → Nat → Nat
  | 0, _, acc => acc
  | n + 1, x, acc =>
    let sq := x * x
    let y := if up then (sq + 2 ^ P - 1) / 2 ^ P else sq / 2 ^ P
    if 2 * 2 ^ P ≤ y then log2Bits up P n (if up then (y + 1) / 2 else y / 2) (2 * acc + 1)
    else log2Bits up P n y (2 * acc)

/-- A bracket of log2 of m * 2^e for 0 < m < 2^400, in units of 2^-160. -/
def log2Bracket (m : Nat) (e : Int) : Int × Int :=
  let L := bitLen m - 1
  let x := m * 2 ^ (400 - L)
  let i := (L + e) * 2 ^ 160
  (i + log2Bits false 400 160 x 0, i + log2Bits true 400 160 x 0 + 1)

/-- |c - x| ≤ bound for every x in [lo, hi]. -/
def surelyWithin (c lo hi bound : Int) : Bool := hi - bound ≤ c && c ≤ lo + bound

/-- The candidate in units of 2^-k, k ≥ 149, is within the bound of every value of the bracket. -/
def candOk (k : Nat) (c : Word) (lo hi bound : Int) : Bool := match f32Fixed k c.toNat with
  | none => false
  | some x => surelyWithin x lo hi bound

/-- The nearest FP32 value of x * 2^-k, x possibly 0. -/
def f32OfFixed (k : Nat) (x : Int) : Word :=
  BitVec.ofNat 32 (f32.pack .rne false (if x = 0 then .zero false else .fin x (-(k : Int)))).1

/-- LOG2 (R94): absolute 2^-22 for A in [0.5, 2], relative 2^-22 elsewhere. -/
def log2Result (a : Word) : Word × Flags :=
  match f32.unpack a.toNat with
  | .nan s => (0x7FC00000, flagIf s fINV)
  | .zero _ => (0xFF800000, fDZ)
  | .inf n => if n then (0x7FC00000, fINV) else (0x7F800000, 0)
  | .fin m e =>
    if m < 0 then (0x7FC00000, fINV)
    else
      let n := m.natAbs
      let k := (bitLen n : Int) - 1 + e
      if n = 2 ^ (bitLen n - 1) then (BitVec.ofNat 32 (f32.pack .rne false (.ofInt k)).1, 0)
      else
        let br := log2Bracket n e
        -- A lies in [0.5, 2] where k is -1 or 0; A = 2 is a power of two
        let bound : Int := if k = -1 || k = 0 then 2 ^ 138 else (min br.1.natAbs br.2.natAbs : Nat) / 2 ^ 22
        let c := Config.log2Bits a
        unfIf true (if candOk 160 c br.1 br.2 bound then c else f32OfFixed 160 br.1)

/-- A fixed-point product of P fractional bits, rounded down. -/
def fxMul (P : Nat) (a b : Int) : Int := a * b / 2 ^ P

/-- pi in units of 2^-256, rounded down. -/
def piFixed : Int := 0x3243f6a8885a308d313198a2e03707344a4093822299f31d0082efa98ec4e6c89

/-- The alternating series of sine (from term x, n = 1) or cosine (from term 1, n = 0) in fixed point: t is the last term, n its
degree, k the number of terms left. -/
def trigSeries (x2 : Int) : Nat → Int → Nat → Int → Int
  | 0, _, _, acc => acc
  | k + 1, t, n, acc => trigSeries x2 k (-(fxMul fxBits t x2) / (((n + 1) * (n + 2) : Nat) : Int)) (n + 2) (acc + t)

/-- sin(pi * y) for y in [0, 1/2], in units of 2^-256; the error is below `trigSlack` units. -/
def sinPiFixed (y : Int) : Int :=
  let x := fxMul fxBits piFixed y
  trigSeries (fxMul fxBits x x) 40 x 1 0

/-- cos(pi * y) for y in [0, 1/2]. -/
def cosPiFixed (y : Int) : Int :=
  let x := fxMul fxBits piFixed y
  trigSeries (fxMul fxBits x x) 40 (2 ^ 256) 0 0

/-- sin(pi * A) in units of 2^-256 for |A| < 2^23, A = m * 2^e: A is reduced exactly modulo 2. -/
def sinPi (m e : Int) : Int :=
  -- |A| in units of 2^-150, sign apart
  let y : Nat := m.natAbs * 2 ^ (e + 150).toNat % 2 ^ 151
  let half : Nat := 2 ^ 149
  let neg := 2 ^ 150 ≤ y
  let y1 : Nat := if neg then y - 2 ^ 150 else y
  let y2 : Nat := if half < y1 then 2 ^ 150 - y1 else y1
  let v := sinPiFixed ((y2 : Int) * 2 ^ 106)
  if neg != (m < 0) then -v else v

/-- The fraction of A is 0, or 1/2 (in units of 2^-150). -/
def fracOf (m e : Int) : Nat := (m.natAbs * 2 ^ (e + 150).toNat) % 2 ^ 150

/-- The integer part of |A| is odd. -/
def oddOf (m e : Int) : Bool := (m.natAbs * 2 ^ (e + 150).toNat) / 2 ^ 150 % 2 == 1

/-- The absolute bound 2^-22 in units of 2^-256. -/
def trigBound : Int := 2 ^ 234

/-- How far a fixed-point sine or cosine may lie from the exact one, in units of 2^-256. -/
def trigSlack : Int := 2 ^ 16

/-- A bounded trigonometric result: fixed-point value x in units of 2^-256, the exact value not 0. -/
def trigPick (c : Word) (x : Int) : Word × Flags :=
  unfIf true (if candOk 256 c (x - trigSlack) (x + trigSlack) trigBound then c else f32OfFixed 256 x)

/-- SINP (R94): within 2^-22 of sin(pi * A). -/
def sinpResult (a : Word) : Word × Flags :=
  match f32.unpack a.toNat with
  | .nan s => (0x7FC00000, flagIf s fINV)
  | .inf _ => (0x7FC00000, fINV)
  | .zero n => (if n then 0x80000000 else 0, 0)
  | .fin m e =>
    let neg := m < 0
    if fracOf m e = 0 then (if neg then 0x80000000 else 0, 0)
    else if fracOf m e = 2 ^ 149 then (if oddOf m e != neg then 0xBF800000 else 0x3F800000, 0)
    else trigPick (Config.sinpBits a) (sinPi m e)

/-- COSP (R94): within 2^-22 of cos(pi * A). -/
def cospResult (a : Word) : Word × Flags :=
  match f32.unpack a.toNat with
  | .nan s => (0x7FC00000, flagIf s fINV)
  | .inf _ => (0x7FC00000, fINV)
  | .zero _ => (0x3F800000, 0)
  | .fin m e =>
    if fracOf m e = 0 then (if oddOf m e then 0xBF800000 else 0x3F800000, 0)
    else if fracOf m e = 2 ^ 149 then (0, 0)
    else
      let y : Nat := fracOf m e
      let far := 2 ^ 149 < y
      let v := cosPiFixed (((if far then 2 ^ 150 - y else y : Nat) : Int) * 2 ^ 106)
      trigPick (Config.cospBits a) (if far != oddOf m e then -v else v)

/-- The series of e^x, x in fixed point: t is the last term, n its degree. -/
def expSeries (P : Nat) (x : Int) : Nat → Int → Nat → Int → Int
  | 0, _, _, acc => acc
  | k + 1, t, n, acc => expSeries P x k (fxMul P t x / ((n + 1 : Nat) : Int)) (n + 1) (acc + t)

/-- Repeated squaring in fixed point. -/
def sqTimes (P : Nat) : Nat → Int → Int
  | 0, x => x
  | k + 1, x => sqTimes P k (fxMul P x x)

/-- tanh x for x in [2^-12, 9.01), x in units of 2^-192, in the same units; the error is below `tanhSlack` units. -/
def tanhFixed (x : Int) : Int :=
  let t := 2 * x / 2 ^ 5
  let y := sqTimes 192 5 (expSeries 192 t 60 (2 ^ 192) 0 0)
  (y - 2 ^ 192) * 2 ^ 192 / (y + 2 ^ 192)

/-- How far a fixed-point tanh may lie from the exact one, in units of 2^-192. -/
def tanhSlack : Int := 2 ^ 40

/-- TANH (R94): relative 2^-21. 9.01 in the table is the decimal number. -/
def tanhResult (a : Word) : Word × Flags :=
  match f32.unpack a.toNat with
  | .nan s => (0x7FC00000, flagIf s fINV)
  | .inf n => (if n then 0xBF800000 else 0x3F800000, 0)
  | .zero _ => (a, 0)
  | .fin m e =>
    let E := (FV.fin m e).exp2of
    if E < -12 then (a, 0)
    else if 4 ≤ E || 901 * 2 ^ (-e).toNat ≤ 100 * m.natAbs * 2 ^ e.toNat then (if m < 0 then 0xBF800000 else 0x3F800000, 0)
    else
      let v := tanhFixed ((m.natAbs * 2 ^ (e + 192).toNat : Nat) : Int)
      let x := if m < 0 then -v else v
      let c := Config.tanhBits a
      (if candOk 192 c (x - tanhSlack) (x + tanhSlack) ((v - tanhSlack) / 2 ^ 21) then c else f32OfFixed 192 x, 0)

/-! ### Narrow formats (R34 to R44) -/

/-- The fields of a narrow-format register (R34). -/
structure NF where
  s    : Bool
  e    : Nat
  m    : Nat
  bias : Int
  spec : Nat
  nz   : Bool
  sub  : Bool
  ovf  : Bool
  deriving DecidableEq, Repr

/-- The fields of a register value (R34). -/
def NF.of (r : Word) : NF :=
  { s := r.getLsbD 0, e := natBits r.toNat 1 3, m := natBits r.toNat 4 3, bias := signedOf 8 (natBits r.toNat 8 8),
    spec := natBits r.toNat 16 2, nz := r.getLsbD 18, sub := r.getLsbD 19, ovf := r.getLsbD 20 }

/-- The width of a code. -/
def NF.width (f : NF) : Nat := (if f.s then 1 else 0) + f.e + f.m

/-- The all-ones rule of R38 applies: NZ = 1, or S = 0. -/
def NF.allOnes (f : NF) : Bool := f.nz || !f.s

/-- The value of a code (R36 to R38). -/
def NF.decode (f : NF) (code : Nat) : FV :=
  let c := code % 2 ^ f.width
  if f.e = 0 then
    let v := if f.s then signedOf f.width c else c
    (FV.ofInt v).scale (-f.bias)
  else
    let neg := f.s && c / 2 ^ (f.width - 1) == 1
    let ef := c / 2 ^ f.m % 2 ^ f.e
    let m := c % 2 ^ f.m
    let top := 2 ^ f.e - 1
    let sg : Int := if neg then -1 else 1
    if f.spec = 0 && f.allOnes && ef = top then (if m = 0 then .inf neg else .nan false)
    else if f.spec = 1 && f.allOnes && ef = top && m = 2 ^ f.m - 1 then .nan false
    else if f.spec = 1 && !f.allOnes && neg && ef = 0 && m = 0 then .nan false
    else if ef ≥ 1 then .fin (sg * ((2 ^ f.m + m : Nat) : Int)) (ef - f.bias - f.m)
    else if m = 0 then .zero neg
    else if f.sub then .fin (sg * m) (1 - f.bias - f.m)
    else .fin (sg * ((2 ^ f.m + m : Nat) : Int)) (-f.bias - f.m)

/-- A finite nonzero value is an FP32 value: odd part of at most 24 bits on the FP32 grid, below 2^128. -/
def FV.isF32 (v : FV) : Bool := match v with
  | .fin .. =>
    let p := f32.pack .rne false v
    match f32.unpack p.1 with
    | .fin m' e' => match v with
      | .fin m e => let k := min e e'; m * 2 ^ (e - k).toNat == m' * 2 ^ (e' - k).toNat
      | _ => false
    | _ => false
  | _ => true

/-- All codes of a format. -/
def NF.codes (f : NF) : List Nat := List.range (2 ^ f.width)

/-- A register value is valid (R35). -/
def nfValid (r : Word) : Bool :=
  let f := NF.of r
  2 ≤ f.width && f.width ≤ 8 && !r.getLsbD 7 && r.toNat < 2 ^ 21 && f.spec != 3 &&
    (f.e != 0 || (f.spec == 2 && !f.nz && !f.sub && !f.ovf)) &&
    (f.e == 0 || f.spec != 0 || 2 ≤ f.e) && (!f.nz || f.s) &&
    (f.e == 0 || !f.s || f.nz || f.spec == 1) && f.codes.all (fun c => (f.decode c).isF32)

/-- The sign-only code. -/
def NF.signOnly (f : NF) : Nat := 2 ^ (f.width - 1)

/-- The canonical NaN code (R38), none where the format has no NaN. -/
def NF.nanCode (f : NF) : Option Nat :=
  if f.e = 0 || f.spec = 2 then none
  else if f.spec = 0 then (if f.m = 0 then none else some ((2 ^ f.e - 1) * 2 ^ f.m + 2 ^ (f.m - 1)))
  else if f.allOnes then some (2 ^ (f.e + f.m) - 1)
  else some f.signOnly

/-- The infinity code of a sign, none where the format has no infinity. -/
def NF.infCode (f : NF) (neg : Bool) : Option Nat :=
  if f.e != 0 && f.spec == 0 then some ((if neg then f.signOnly else 0) + (2 ^ f.e - 1) * 2 ^ f.m) else none

/-- The largest magnitude field, e and m together, that is finite. -/
def NF.maxMag (f : NF) : Nat :=
  if f.spec = 0 then (2 ^ f.e - 1) * 2 ^ f.m - 1
  else if f.spec = 1 && f.allOnes then 2 ^ (f.e + f.m) - 2
  else 2 ^ (f.e + f.m) - 1

/-- The value of the magnitude code c, e and m fields together, on the format's grid with no limit on its range (R37). -/
def NF.extVal (f : NF) (c : Nat) : Int × Int :=
  let ef := c / 2 ^ f.m
  let m := c % 2 ^ f.m
  if 1 ≤ ef then (((2 ^ f.m + m : Nat) : Int), ef - f.bias - f.m)
  else if m = 0 then (0, 0)
  else if f.sub then (m, 1 - f.bias - f.m)
  else (((2 ^ f.m + m : Nat) : Int), -f.bias - f.m)

/-- The largest magnitude code whose value is at most n * 2^e, n > 0. -/
def NF.floorCode (f : NF) (n : Nat) (e : Int) : Nat :=
  let E := (bitLen n : Int) - 1 + e
  let emin : Int := if f.sub then 1 - f.bias else -f.bias
  if !f.sub && E < emin then 0
  else
    let q := max E emin - f.m
    let k := roundShift .rz false n (q - e)
    ((q + f.m - emin) * 2 ^ f.m + k - (if f.sub then 0 else 2 ^ f.m)).toNat

/-- Compares a * 2^x with b * 2^y, for a and b not negative. -/
def cmpScaled (a x b y : Int) : Ordering :=
  let k := min x y
  compare (a * 2 ^ (x - k).toNat) (b * 2 ^ (y - k).toNat)

/-- The magnitude code that a mode selects for n * 2^e, n > 0, on the unlimited grid: in RNE a tie goes to the code whose lowest
bit is 0 (R39 step 5). -/
def NF.roundCode (f : NF) (mode : RM) (neg : Bool) (n : Nat) (e : Int) : Nat :=
  let lo := f.floorCode n e
  let a := f.extVal lo
  let b := f.extVal (lo + 1)
  if cmpScaled n e a.1 a.2 = .eq then lo
  else match mode with
    | .rz => lo
    | .rdn => if neg then lo + 1 else lo
    | .rup => if neg then lo else lo + 1
    | .rne =>
      let k := min a.2 b.2
      match cmpScaled (2 * n) e (a.1 * 2 ^ (a.2 - k).toNat + b.1 * 2 ^ (b.2 - k).toNat) k with
      | .lt => lo
      | .gt => lo + 1
      | .eq => if lo % 2 = 0 then lo else lo + 1

/-- n * 2^e, rounded in the mode as if the exponent were unbounded, exceeds max finite (R39 step 4). In a format without mantissa bits the
tie between max finite and twice that goes up, so it exceeds, also where max finite has an even code (DEDUCED, log entry 59). -/
def NF.exceeds (f : NF) (mode : RM) (neg : Bool) (n : Nat) (e : Int) : Bool :=
  let q := (bitLen n : Int) - 1 + e - f.m
  let mx := f.extVal f.maxMag
  cmpScaled (roundShift mode neg n (q - e)) q mx.1 mx.2 = .gt

/-- The range of the codes of an integer format. -/
def NF.intLo (f : NF) : Int := if f.s then -(2 ^ (f.width - 1) : Nat) else 0
def NF.intHi (f : NF) : Int := if f.s then (2 ^ (f.width - 1) : Nat) - 1 else (2 ^ f.width : Nat) - 1

/-- A signed magnitude code. -/
def NF.signed (f : NF) (neg : Bool) (c : Nat) : Nat := (if neg then f.signOnly else 0) + c

/-- Encodes an exact value in a mode, with its flags (R39). A NaN becomes the canonical NaN code, or +0 with INV where the format
has none (R43). An infinity under OVF = 0 saturates with SAT by step 3, also where the format has an inf code, whose round trip R44 then does
not keep (DEDUCED, log entry 59). -/
def NF.encode (f : NF) (mode : RM) (v : FV) : Nat × Flags :=
  match v with
  | .nan s => match f.nanCode with
    | some c => (c, flagIf s fINV)
    | none => (0, fINV)
  | .zero neg => (if neg && f.nz then f.signOnly else 0, 0)
  | .inf neg =>
    if neg && !f.s then (0, fSAT)
    else if f.e = 0 then (natOf f.width (if neg then f.intLo else f.intHi), fSAT)
    else match (if f.ovf then f.infCode neg else none) with
      | some c => (c, 0)
      | none => (f.signed neg f.maxMag, fSAT)
  | .fin m e =>
    let neg := m < 0
    let n := m.natAbs
    if f.e = 0 then
      let r := roundInt mode m (-f.bias - e)
      if neg && !f.s then (0, if r = 0 then fUNF else fSAT)
      else if r < f.intLo || f.intHi < r then (natOf f.width (clampInt f.intLo f.intHi r), fSAT)
      else (natOf f.width r, flagIf (r = 0) fUNF)
    else
      let c := f.roundCode mode neg n e
      if neg && !f.s then (0, if c = 0 then fUNF else fSAT)
      else if f.exceeds mode neg n e then
        let toInf := mode = .rne || (mode = .rup && !neg) || (mode = .rdn && neg)
        match (if f.ovf && toInf then f.infCode neg else none) with
        | some i => (i, 0)
        | none => (f.signed neg f.maxMag, fSAT)
      else if c = 0 then (if neg && f.nz then f.signOnly else 0, fUNF)
      else (f.signed neg c, 0)

/-- The FP32 pattern of a code (R43): a NaN code is tagged. -/
def NF.toF32 (f : NF) (code : Nat) : Nat :=
  let c := code % 2 ^ f.width
  match f.decode c with
  | .nan _ => (if f.s && c / 2 ^ (f.width - 1) == 1 then 2 ^ 31 else 0) + 0x7FC00000 + c
  | v => (f32.pack .rne false v).1

/-- The narrow code of an FP32 pattern (R39, R43): an exactly tagged NaN returns to its code. -/
def NF.ofF32 (f : NF) (mode : RM) (b : Nat) : Nat × Flags :=
  let tag := b % 256
  if f32.isNan b && tag < 2 ^ f.width && (f.decode tag).isNan && f.toF32 tag = b then (tag, 0)
  else f.encode mode (f32.unpack b)

/-- floor(log2(max finite value)), none where the format has no finite nonzero value (R101). -/
def NF.emax (f : NF) : Option Int :=
  if f.e = 0 then some ((bitLen f.intHi.natAbs : Int) - 1 - f.bias)
  else match f.extVal f.maxMag with
    | (0, _) => none
    | (m, e) => some ((FV.fin m e).exp2of)

/-! ### Block scales and canonical blocks (R47 to R51) -/

/-- An element value under the scale byte t (R47). -/
def scaled (t : Nat) (v : FV) : FV := if t = 0xFF then .nan false else v.scale ((t : Int) - 127)

/-- The largest floor(log2 |x|) among the nonzero elements. -/
def maxExp2 : List FV → Option Int
  | [] => none
  | v :: t => match v, maxExp2 t with
    | .fin m e, none => some ((FV.fin m e).exp2of)
    | .fin m e, some x => some (max x ((FV.fin m e).exp2of))
    | _, r => r

/-- A block as a canonical block of precision p (R48): the exponent byte, the mantissas, and SAT where the exponent clamp makes a
mantissa clamp. -/
def toCanonical (p : Nat) (xs : List FV) : Nat × List Int × Flags :=
  if xs.any (fun v => match v with | .nan _ => true | .inf _ => true | _ => false) then (0xFF, xs.map (fun _ => 0), 0)
  else match maxExp2 xs with
    | none => (0, xs.map (fun _ => 0), 0)
    | some em =>
      let e := em - (p - 2 : Nat)
      let es := clampInt (-126) 127 e
      let hi : Int := (2 ^ (p - 1) : Nat) - 1
      let lo : Int := -(2 ^ (p - 1) : Nat)
      let q (v : FV) : Int := match v with
        | .fin m x => roundInt .rne m (es - x)
        | _ => 0
      let clip := es < e && xs.any (fun v => q v < lo || hi < q v)
      ((es + 127).toNat, xs.map (fun v => clampInt lo hi (q v)), flagIf clip fSAT)

/-! ### Fixed-point cells (R52 to R54) -/

/-- A finite contribution m * 2^e on the grid 2^Q, clamped to `bits` bits (R53 steps 1 and 2). -/
def contribution (bits : Nat) (Q : Int) (m e : Int) : Int × Flags :=
  let n := roundInt .rne m (Q - e)
  let lo : Int := -(2 ^ (bits - 1) : Nat)
  let hi : Int := (2 ^ (bits - 1) : Nat) - 1
  (clampInt lo hi n, flagIf (n < lo || hi < n) fOFL)

/-- A drain of the cell value v with anchor Q to a format (R54); UNF where a nonzero value rounds to 0 (R56). -/
def drainTo (f : Fmt) (v Q : Int) : Nat × Flags :=
  let lo : Int := -(2 ^ 63 : Nat)
  let hi : Int := (2 ^ 63 : Nat) - 1
  let c := clampInt lo hi v
  let p := f.pack .rne false ((FV.ofInt c).scale Q)
  (p.1, p.2 ||| flagIf (c != v) fOFL ||| flagIf (p.1 % f.sbit = f.infBits) fOFL)

/-! ### RHASH (R86) -/

/-- One round of RHASH. -/
def rhashRound (s : Word × Word × Word) (k : Word) : Word × Word × Word :=
  let (a, b, c) := s
  let a := a + (b ^^^ c.rotateLeft 7) + k
  let b := b ^^^ a.rotateLeft 13
  let c := c + b.rotateLeft 17
  (a ^^^ c.rotateLeft 5, b, c)

/-- The hash of a 64-bit key and a counter (R86). -/
def rhashOf (key : DWord) (ctr : Word) : Word :=
  let (a, b, c) := [0x5C4E1B27, 0xA3D96F01, 0x17B5C8E3, 0xE2F03A9D].foldl rhashRound
    (ctr, key.extractLsb' 0 32, key.extractLsb' 32 32)
  let h := a ^^^ b ^^^ c
  let h := h ^^^ (h >>> 16)
  let h := h * 0x8B3A5C97
  h ^^^ (h >>> 15)

end Sys2Proof.Machine
end

