-- ==== Sys2Proof/Machine/State.lean ====
section
/-! DEFINITION. The state of the device as plain data, and its reset value. INVENTORY.md, under State, lists each field with
the rule that names it and its reset value. -/

namespace Sys2Proof.Machine

/-! ### Traps (R355, R359, R364) -/

/-- Trap names (R355). -/
inductive TrapCode where
  | undef | illcl | illop | regrange | priv | swtrap | brk
  | memfault | align | weakuse | poison | btbnd
  | copybnd | desc | reln | heapcap | heapspill | biasord | mreset | clayerr | ctrap
  | sticky | snag
  deriving DecidableEq, Repr

/-- Trap classes (R359, R364 item 0 [9:8]). -/
inductive TrapClass where
  | precise | deferred | engine | cord
  deriving DecidableEq, Repr

/-- A trap with its items (R364), and its place in the order in which traps arise (R369). -/
structure TrapInfo where
  code    : TrapCode
  cls     : TrapClass
  pc      : DWord := 0
  addr    : DWord := 0
  aux     : DWord := 0
  park    : LaneMask := 0
  set     : LaneMask := 0
  held    : DWord := 0
  members : List Word := []
  reentry : Bool := false
  seq     : Nat := 0
  deriving DecidableEq, Repr

/-! ### Threads and strands (R9, R147 to R151, R303, R304, R356) -/

/-- Why a thread is parked (R147). -/
inductive Park where
  | wany (mask : BitVec 16) (dest : BitVec 8) (order : Nat)
  | sleep (left : Nat)
  | fault (code : TrapCode) (addr aux : DWord) (seq : Nat)
  deriving DecidableEq, Repr

/-- The four states of a thread (R147). A held thread keeps the register of the MEET that holds it, from which it takes MR at its
release (R153). -/
inductive ThreadState where
  | ready | held (reg : Nat) | parked (why : Park) | exited
  deriving DecidableEq, Repr

/-- One thread: PC and place (none at the header, some w at word w, R356), meeting register, state and stamp (R149). hi holds bits
[63:56] of an address that TWRL.pc set, which R104 refuses when the thread resumes (R366). -/
structure Thread where
  pc    : VAddr := 0
  hi    : BitVec 8 := 0
  place : Option Nat := none
  mr    : VAddr := 0
  st    : ThreadState := .exited
  stamp : Nat := 0
  deriving DecidableEq, Repr

/-- A clause that issues: header address, N-1, next word, the threads still in it (`act`), and the threads selected. -/
structure Clause where
  hdr   : VAddr
  nm1   : Nat
  word  : Nat
  act   : LaneMask
  group : LaneMask
  deriving DecidableEq, Repr

/-- A register that a long-latency result will write: a lane of a vector register, a scalar, or a lane of a predicate. -/
inductive Dest where
  | v (reg : Nat) (lane : Lane)
  | s (reg : Nat)
  | p (ix : Nat) (lane : Lane)
  deriving DecidableEq, Repr

/-- Latency classes with outstanding register results (R22). -/
inductive LatClass where
  | ld | xu | sh
  deriving DecidableEq, Repr

/-- One outstanding register write; raced when another word has written the register since (R24). -/
structure PendWrite where
  dest  : Dest
  val   : Word
  raced : Bool := false
  deriving DecidableEq, Repr

/-- The outstanding result of one word (R22). poison lists the lanes whose data carried an uncorrectable error, with the data
address and the address of the word (R361); objs the objects that an LDW read, which keep their memory until it returns (R222). -/
structure Pending where
  cls    : LatClass
  writes : List PendWrite
  poison : List (Lane × DWord) := []
  pc     : VAddr := 0
  word   : Nat := 0
  objs   : List Nat := []
  deriving DecidableEq, Repr

/-- A store in a strand's queue (R118, R120): scratchpad offset or physical key, bytes, the page's NC bit, whether more lanes of
the same word follow (R117), and the scope at which it is a release (R207; 0 for none). -/
structure QStore where
  scratch : Bool
  key     : Nat
  bytes   : List Byte
  nc      : Bool := false
  more    : Bool := false
  rel     : Nat := 0
  fenced  : Bool := false
  deriving DecidableEq, Repr

/-- What stalls a whole strand at a word (R71, R410): a barrier's phase, a token, a signal, the extended block, queue space (with
the next lane to push), an earlier token of its token register, a record, chain or fabric slot; or nothing any more, where the flip
has released it and the word has still to complete. -/
inductive Stall where
  | bar (k : Nat) (ph : Bool)
  | barw (k : Nat)
  | token (reg : Nat)
  | sigr
  | xacq
  | tspn (lane : Nat)
  | issue
  | slot
  | released
  deriving DecidableEq, Repr

/-- Hitch kinds and objects (R303). -/
inductive HitchKind where
  | barrier | token | mailbox
  deriving DecidableEq, Repr

/-- A bound hitch entry (R303). An unbound entry is absent. -/
structure Hitch where
  kind    : HitchKind
  obj     : Nat
  ph      : Bool := false
  handler : VAddr
  deriving DecidableEq, Repr

/-- A full mailbox slot with its arrival stamp (R304). -/
structure Mail where
  msg   : DWord
  stamp : Nat
  deriving DecidableEq, Repr

/-- Handler mode (R357, R358): the trap, the handler's position, its predicates, its clause and stall, and the strand's
interrupted clause and stall. -/
structure Handler where
  trap   : TrapInfo
  pc     : VAddr
  preds  : BitVec 8 := 0x80
  clause : Option Clause := none
  stall  : Option Stall := none
  saved  : Option (Clause × Option Stall) := none
  deriving DecidableEq, Repr

/-- A strand. tokens lists the scalar registers whose token is unwritten (R25); joins the scope at which the first read of a written
token is an acquire, where that lies above the core (R210, R235). waitHdr is the wait mask of a header whose conditions do not
hold yet (R15). blocked counts the core cycles that the strand has been blocked, searched the searches made meanwhile, and reported the
cycles reported meanwhile (R346). -/
structure Strand where
  base    : Nat := 32
  ext     : Bool := false
  role    : Nat := 0
  v       : AMap (Lanes Word) := []
  s       : AMap Word := []
  p       : AMap LaneMask := []
  threads : Lanes Thread := Vector.replicate 32 {}
  sel     : Nat := 0
  clause  : Option Clause := none
  stall   : Option Stall := none
  waitHdr : Option (BitVec 8) := none
  pend    : List Pending := []
  stores  : List QStore := []
  tokens  : List Nat := []
  joins   : AMap Nat := []
  hitches : AMap Hitch := []
  pev     : BitVec 16 := 0
  evmask  : BitVec 16 := 0
  mail    : AMap Mail := []
  mailSeq : Nat := 0
  heldMsg : Option DWord := none
  parkSeq : Nat := 0
  traps   : List TrapInfo := []
  handler : Option Handler := none
  stickyHeld : Bool := false
  split   : Option Nat := none
  blocked : Nat := 0
  searched : Nat := 0
  reported : List (List Nat) := []
  live    : Bool := false
  deriving DecidableEq, Repr

/-! ### Cords (R56, R156, R185, R234, R262, R372) -/

/-- A barrier (R185). -/
structure Barrier where
  exp   : Nat := 0
  cnt   : Nat := 0
  ph    : Bool := false
  amask : Word := 0
  pend  : Nat := 0
  deriving DecidableEq, Repr

/-- One silt row (R262): cells, admission bits, poison states and anchor. -/
structure SiltRow where
  cells : AMap Cell72 := []
  adm   : BitVec 1024 := 0
  pois  : BitVec 1024 := 0
  q     : Int := 0
  deriving DecidableEq, Repr

/-- A walk of a channel (R245, R250), started by the TAIL of one strand (its key) under the CHAN of another, its owner (R243): the record it
stands at, the records passed, the tail, the records taken with their statuses in chain order, whether it has ended, and whether it ended
with DESC. A graph node's walk has no token. -/
structure Walk where
  pos    : DWord
  passed : Nat := 0
  token  : Option Nat := none
  strand : Nat := 0
  owner  : Nat := 0
  tail   : DWord
  taken  : List (Nat × Option Nat) := []
  ended  : Bool := false
  desc   : Bool := false
  deriving DecidableEq, Repr

/-- A channel (R245). walks: those whose token is unwritten, the one that still walks last. nextHd: the head that a CHAN waits to
set, with its strand's key. owner: the key of the strand that executed the CHAN (R243). -/
structure Channel where
  cursor : Option DWord := none
  tail   : Option DWord := none
  walks  : List Walk := []
  nextHd : Option (DWord × Nat) := none
  owner  : Nat := 0
  deriving DecidableEq, Repr

/-- A task record (R318). -/
structure TaskRec where
  khdr   : DWord := 0
  arg    : DWord := 0
  wid    : DWord := 0
  succ   : DWord := 0
  join   : Word := 0
  ctl    : Word := 0
  save   : DWord := 0
  energy : Word := 0
  rsv    : Word := 0
  link   : DWord := 0
  deriving DecidableEq, Repr

/-- A kernel header (R29, R12, R158, R160, R246). -/
structure KHdr where
  entry    : DWord := 0
  nstr     : Nat := 1
  base     : Nat := 32
  flags    : BitVec 8 := 0
  byte11   : BitVec 8 := 0
  scratch  : Nat := 0
  silt     : Nat := 0
  preload  : BitVec 16 := 0
  widths   : List Nat := []
  affinity : Nat := 0
  copyres  : Nat := 0
  energy   : Nat := 0
  nf       : DWord := 0
  roles    : DWord := 0
  handler  : DWord := 0
  tail     : DWord := 0
  deriving DecidableEq, Repr

/-- The failure record of a cord (R369): first trap code, class and items 1 to 3, and the other codes. seq is the first trap's number in
the order in which traps arise. -/
structure Failure where
  code   : TrapCode
  cls    : TrapClass
  item1  : DWord := 0
  item2  : DWord := 0
  item3  : DWord := 0
  seq    : Nat := 0
  others : List TrapCode := []
  deriving DecidableEq, Repr

/-- VSTAT's fields (R298). -/
structure VStat where
  tiles  : BitVec 16 := 0
  resume : BitVec 16 := 0xFFFF
  status : BitVec 8 := 0
  deriving DecidableEq, Repr

/-- A cord: the shared state of its strands. energy is the energy measured so far, energy0 that at the start or the restore; area the
handle of the save area while the cord is being stopped; bad the scratchpad's 8-byte words that carry an uncorrectable error (R406). -/
structure Cord where
  uid      : Nat := 0
  job      : Nat := 0
  queue    : Nat := 0
  level    : Nat := 0
  task     : TaskRec := {}
  recAddr  : DWord := 0
  hdr      : KHdr := {}
  origin   : Option (Nat × Nat) := none
  nstr     : Nat := 1
  start    : Nat := 0
  sflags   : Word := 0
  sarm     : Word := 0
  sticky   : Word := 0
  nf       : AMap Word := []
  scratch  : List Host.Cell := []
  silt     : AMap SiltRow := []
  bars     : AMap Barrier := []
  cntNone  : Word := 0
  cntAll   : Word := 0
  cntMixed : Word := 0
  seqCtr   : Nat := 0
  cseqCtr  : Nat := 0
  chans    : AMap Channel := []
  token    : Bool := false
  partner  : Option Nat := none
  vstat    : VStat := {}
  energy   : Nat := 0
  energy0  : Nat := 0
  estimate : Nat := 0
  tend     : Bool := false
  failure  : Option Failure := none
  stopping : Bool := false
  area     : DWord := 0
  bad      : List Nat := []
  deriving DecidableEq, Repr

/-! ### Engines (R236 to R263, R278 to R299, R385 to R391) -/

/-- Where a copy record comes from (R236, R245, R249, R336). -/
inductive CopySrc where
  | cpy (off : Nat)
  | gather (off : Nat) (ix : List Word)
  | scatter (off : Nat) (ix : List Word)
  | chain (ch : Nat) (addr : DWord)
  | node (inst node : Nat) (addr : DWord)
  deriving DecidableEq, Repr

/-- A pinned page mapping (R225): the handle looked up, its table, and whether it named a live object then. -/
structure Pin where
  handle : DWord
  table  : Nat
  live   : Bool
  deriving DecidableEq, Repr

/-- A tensor descriptor as read (R237). -/
structure TDesc where
  base    : DWord := 0
  d0      : Nat := 1
  d1      : Nat := 1
  d2      : Nat := 1
  d3      : Nat := 1
  s1      : Nat := 0
  s2      : Nat := 0
  s3      : Nat := 0
  fmt     : Nat := 0x10
  pack    : Nat := 0
  flags   : BitVec 8 := 0
  labdim  : Nat := 0
  scale   : Nat := 0
  label   : DWord := 0
  aux     : DWord := 0
  deriving DecidableEq, Repr

/-- One copy operation from issue to completion. image is the captured record; sdesc, ddesc, snf and dnf are the descriptors and
narrow formats read at acceptance (R35, R243), ix the index list and layout the LAYOUT word; moved lists the rows moved so far, paged
the pages handled (R242), pins the page mappings in use (R225; a page of the destination's table from 2^32 up), voided the rows whose label
became void (R238, R242). counted says that its barrier counts the record already, which a save has withdrawn (R375), badRec that the record
was captured with an uncorrectable error (R243, R247). strand is the issuer's key. -/
structure CopyOp where
  id     : Nat
  cord   : Nat
  strand : Nat
  token  : Option Nat := none
  src    : CopySrc
  image  : List Byte := []
  sdesc  : Option TDesc := none
  ddesc  : Option TDesc := none
  snf    : Word := 0
  dnf    : Word := 0
  moved  : List Nat := []
  paged  : List Nat := []
  pins   : AMap Pin := []
  ix     : List Nat := []
  layout : DWord := 0
  voided : List Nat := []
  counted : Bool := false
  badRec : Bool := false
  status : Option Nat := none
  deriving DecidableEq, Repr

/-- A capstan call from issue to completion (R253, R279). -/
structure Call where
  id      : Nat
  cord    : Nat
  strand  : Nat
  token   : Option Nat := none
  arr     : Option Nat := none
  block   : List DWord := []
  deriving DecidableEq, Repr

/-- Why a call ended (R280): status, cause, the address and the CTRAP code that TINF reports. -/
structure CallEnd where
  status : Nat
  cause  : Nat := 0
  addr   : DWord := 0
  code   : BitVec 16 := 0
  deriving DecidableEq, Repr

/-- The outstanding result of a CLD (R282, R284): register, value, and whether another word has written the register since (R24). -/
structure CldResult where
  reg   : Nat
  val   : DWord
  raced : Bool := false
  deriving DecidableEq, Repr

/-- A row's state in the vocab unit (R293): maximum, normaliser, included ids, THR, NANX, DONE, heap and named logits. -/
structure VRow where
  m     : Nat := 0xFF800000
  s     : Nat := 0
  valid : Nat := 0
  thr   : Bool := false
  nanx  : Bool := false
  done  : Bool := false
  heap  : List (Nat × Nat) := []
  named : List Nat := []
  deriving DecidableEq, Repr

/-- VPROJ or VRES between two tiles (R294, R371): the block, the weight descriptor with its format and the bias list as they were read, the
first working row, the first tile, the tile that is next, and the rows' states. -/
structure TileRun where
  vcb   : List Byte
  desc  : List Byte
  nf    : Word
  bias  : AMap Nat
  base  : Nat
  first : Nat
  tile  : Nat
  rows  : List VRow
  deriving DecidableEq, Repr

/-- MGRP between two groups (R288, R371): the operands, the entry that is next and the running A row. -/
structure GroupRun where
  tab   : Nat
  shape : DWord
  aoff  : Nat
  q     : Nat := 0
  a     : Nat := 0
  deriving DecidableEq, Repr

/-- How far the word in progress of a running call has come. -/
inductive Progress where
  | tiles (x : TileRun)
  | groups (x : GroupRun)
  deriving DecidableEq, Repr

/-- What a capstan word in progress may have read (R257): the bytes of its cord's scratchpad, those of memory in its core's view, and those
at the device point. -/
structure Glimpse where
  pad  : List Host.Cell
  view : List Host.Cell
  dev  : List Host.Cell
  deriving DecidableEq, Repr

/-- The running call: registers, flags, position, outstanding CLDs, the capstan's store queue, the sequence address, the core cycles
spent, whether it waits in CWAIT, how far its word has come, what that word may have read earlier, and how it ended (R253, R256, R257, R280,
R282, R294, R299, R371). -/
structure RunCall where
  call    : Call
  c       : AMap DWord := []
  fz      : Bool := false
  fn      : Bool := false
  fc      : Bool := false
  pc      : VAddr := 0
  clause  : Option Clause := none
  pend    : List CldResult := []
  stores  : List QStore := []
  seqAddr : Option DWord := none
  spent   : Nat := 0
  waiting : Bool := false
  progress : Option Progress := none
  seen    : List Glimpse := []
  ended   : Option CallEnd := none
  deriving DecidableEq, Repr

/-- The tag of a clay slot (R258): cord, source offset, generation (65536 for the vocab unit), check value. -/
structure ClayTag where
  cord  : Nat
  src   : Nat
  gen   : Nat
  check : Word
  deriving DecidableEq, Repr

/-- A clay slot: 64 rows of 64 mantissa bytes, 64 exponent bytes, its tag, and whether its parity fails (R258, R260). how tells
a reload which layout the source has: shape word and instruction kind. -/
structure ClaySlot where
  tag   : Option ClayTag := none
  mant  : List Byte := []
  exps  : List Byte := []
  bad   : Bool := false
  how   : DWord × Nat := (0, 0)
  deriving DecidableEq, Repr

/-- A knot register (R264): owner, EN and the sixteen atoms. -/
structure Knot where
  owner : Option Nat := none
  en    : BitVec 4 := 0
  atoms : List Word := []
  deriving DecidableEq, Repr

/-- A label bank (R266). Absent labels are void and absent summaries all-void. -/
structure Bank where
  owner  : Option Nat := none
  layout : DWord := 0
  labels : AMap DWord := []
  sums   : AMap (List Byte) := []
  deriving DecidableEq, Repr

/-- Fabric operations (R386). -/
inductive FabKind where
  | xred | xput | xget
  deriving DecidableEq, Repr

/-- One fabric operation from issue to completion. bad says that the captured block carried an uncorrectable error; moved lists the
8-byte words moved so far, and sent the keys and lengths written in a peer's memory; rereq marks one that a restore reissues as a
re-request (R391). -/
structure FabOp where
  id       : Nat
  cord     : Nat
  strand   : Nat
  token    : Option Nat := none
  kind     : FabKind
  off      : Nat
  block    : List Byte := []
  bad      : Bool := false
  accepted : Bool := false
  rereq    : Bool := false
  moved    : List Nat := []
  sent     : List (Nat × Nat) := []
  status   : Option Nat := none
  deriving DecidableEq, Repr

/-- Older bytes at a key that a cord's constant cache still holds (R121): the strands of the cord that have written there since, and the
least scope of a fence of the cord that covers a writer (6 where none has written). -/
structure Held where
  cord  : Nat
  key   : Nat
  bytes : List Byte
  own   : BitVec 32 := 0
  need  : Nat := 6
  deriving DecidableEq, Repr

/-- A committed write on its way up (R204, R206). -/
structure Committed where
  key   : Nat
  bytes : List Byte
  deriving DecidableEq, Repr

/-- A translation-cache entry (R199, R200). -/
structure Tlb where
  job  : Nat
  vpn  : Nat
  big  : Bool
  tier : Nat
  pa   : Nat
  rd   : Bool
  wr   : Bool
  ex   : Bool
  nc   : Bool
  ext  : Nat := 0
  deriving DecidableEq, Repr

/-- An entry of a core's block-table cache (R225). -/
structure BtEnt where
  job    : Nat
  table  : DWord
  ix     : Nat
  handle : DWord
  deriving DecidableEq, Repr

/-- A saved clay slot: its place, its tag, and how its source is read (R372, R374). -/
structure SavedSlot where
  key : Nat
  tag : ClayTag
  how : DWord × Nat
  deriving DecidableEq, Repr

/-- A call whose saved progress goes on at its start, with the clay to reload first (R374). -/
structure Resumed where
  run  : RunCall
  clay : List SavedSlot
  deriving DecidableEq, Repr

/-- One core. view lists the bytes whose view has not moved to the die point's value, each with the core cycles that remain until it
must (R205); resumed the saved progress of calls that re-entered the chain, with the clay to reload first (R374); up the
committed writes that have not reached the die point. -/
structure Core where
  cycles   : Nat := 0
  tlb      : List Tlb := []
  view     : AMap (Byte × Nat) := []
  up       : List Committed := []
  bt       : List BtEnt := []
  xacq     : List Nat := []
  issuedCp : List CopyOp := []
  copies   : List CopyOp := []
  issuedCl : List Call := []
  chain    : List Call := []
  resumed  : List Resumed := []
  run      : Option RunCall := none
  prefer   : Nat := 0
  fabric   : List FabOp := []
  clay     : AMap ClaySlot := []
  knots    : AMap Knot := []
  rowBank  : Bank := {}
  colBank  : Bank := {}
  macros   : Nat := 136
  deriving DecidableEq, Repr

/-! ### Tilth, tasks, graphs and the host path (R215 to R235, R318 to R354) -/

/-- A job-table entry as the device holds it (R399). -/
structure JobEnt where
  valid  : Bool := false
  root   : Nat := 0
  tier   : Nat := 0
  tbase  : Nat := 0
  tlen   : Nat := 0
  budget : Nat := 0
  low0   : Nat := 0
  high0  : Nat := 0
  low1   : Nat := 0
  high1  : Nat := 0
  nsbase : Nat := 0
  nslen  : Nat := 0
  pllen  : Nat := 0
  plbase : Nat := 0
  deriving DecidableEq, Repr

/-- A queue-table entry as the device holds it (R400). -/
structure QueueEnt where
  job      : Nat := 0
  valid    : Bool := false
  capacity : Nat := 0
  quantum  : Nat := 0
  erate    : Nat := 0
  ecap     : Nat := 0
  deriving DecidableEq, Repr

/-- A group-table entry (R389, R401). -/
structure GroupEnt where
  n        : Nat := 0
  parent   : Nat := 0
  root     : Bool := false
  children : Nat := 0
  deriving DecidableEq, Repr

/-- A host-ring table entry (R344, R401). -/
structure RingEnt where
  tail : Nat := 0
  n    : Nat := 0
  deriving DecidableEq, Repr

/-- A launch position of a KERNEL node (R319): counts, the number of tasks created so far, and its own number. -/
structure Launch where
  inst   : Nat
  node   : Nat
  khdr   : DWord
  arg    : DWord
  counts : List Nat
  made   : Nat := 0
  lid    : Nat := 0
  deriving DecidableEq, Repr

/-- What stands in a FIFO (R319). -/
inductive QItem where
  | task (r : TaskRec) (pushed : Bool)
  | launch (l : Launch)
  deriving DecidableEq, Repr

/-- A queued record with its job and pass count (R323). -/
structure QRec where
  item   : QItem
  passes : Nat := 0
  deriving DecidableEq, Repr

/-- A node that is waiting (R336). -/
structure NodeWait where
  node  : Nat
  addr  : DWord
  bound : DWord
  deriving DecidableEq, Repr

/-- A running graph instance (R334 to R340). ready lists nodes whose REM reached 0 and that have not started; started lists
nodes that have started and not completed; live counts a KERNEL node's unfinished tasks; bufs the buffers of the memory plan that
are allocated, by entry; failed STATUS, TRAP and DETAIL. -/
structure GInst where
  addr    : DWord
  job     : Nat
  queue   : Nat
  level   : Nat
  csig    : DWord
  tag     : DWord
  seq     : Nat
  ready   : List Nat := []
  started : List Nat := []
  live    : AMap Nat := []
  waits   : List NodeWait := []
  bufs    : List (Nat × DWord) := []
  failed  : Option (Nat × Nat × Nat) := none
  deriving DecidableEq, Repr

/-- A watch (R343). -/
structure Watch where
  job    : Nat
  target : DWord
  strand : Nat
  signal : DWord
  bound  : DWord
  tag    : DWord
  seq    : Nat
  deriving DecidableEq, Repr

/-- The management registers (R395, R396) and the command unit (R397, R398). vacated holds the levels of vacated cores, off the cores that
COREOFF takes or has taken away, runArgs the arguments of the running command. -/
structure Mgmt where
  state    : Nat := 0
  jobtab   : DWord := 0
  qtab     : DWord := 0
  gtab     : DWord := 0
  rtab     : DWord := 0
  hrtab    : DWord := 0
  srbase   : DWord := 0
  srsize   : DWord := 0
  srtail   : Nat := 0
  srhead   : Nat := 0
  crbase   : DWord := 0
  crsize   : DWord := 0
  crtail   : Nat := 0
  crhead   : Nat := 0
  args     : AMap DWord := []
  busy     : Bool := false
  running  : Option (Nat × Nat × Word) := none
  status   : Nat := 0
  wrej     : Bool := false
  result   : Word := 0
  powercap : Nat := 1500
  powernow : Nat := 0
  errce    : DWord := 0
  errue    : DWord := 0
  slot     : Nat := 0
  otherOk  : Bool := false
  rollback : Word := 0
  images   : AMap (List Byte) := []
  nextSlot : Option Nat := none
  ports    : AMap (Nat × Nat) := []
  vacated  : AMap Nat := []
  off      : List Nat := []
  runArgs  : AMap DWord := []
  keys     : List Nat := []
  keyEras  : Nat := 0
  deriving DecidableEq, Repr

/-- A saved cord (R372, R373), by the strong handle of its save area: its key when it was saved, and its partner's task record
address. run is its running call, calls its queued ones, issued, copies and fabric what was withdrawn. -/
structure Saved where
  handle  : DWord
  key     : Nat
  partner : Option DWord
  cord    : Cord
  strands : List Strand
  run     : Option RunCall
  calls   : List Call
  issued  : List Call
  copies  : List CopyOp
  fabric  : List FabOp
  clay    : List SavedSlot
  knots   : AMap Knot
  rowBank : Option Bank
  colBank : Option Bank
  deriving DecidableEq, Repr

/-- A reduction in progress or completed (R389, R390), in the order of completion: its contributions, whether they disagree, and its
result with whether some element was clamped. -/
structure Reduction where
  group  : Nat
  seq    : Nat
  op     : Nat
  len    : Nat
  parts  : List (List DWord)
  bad    : Bool := false
  result : Option (List DWord × Bool) := none
  deriving DecidableEq, Repr

/-- A BTINV that waits for the pins on the mappings that it removed, by operation and page (R235). -/
structure BtInv where
  cord   : Nat
  strand : Nat
  token  : Option Nat
  ops    : List (Nat × Nat)
  deriving DecidableEq, Repr

/-- Where system software has loaded the .patch and .mplan sections of the PGB whose .graph an instance copies, with their entry
counts (R334, R339, R340). The spec gives the graph unit no register for it: no step of the device writes it (log entry 31). -/
structure Plan where
  job    : Nat
  inst   : DWord
  patch  : DWord := 0
  npatch : Nat := 0
  mplan  : DWord := 0
  nplan  : Nat := 0
  deriving DecidableEq, Repr

/-- The agent that acts, and what it acts on: a core, a cord slot, a strand index, a place in a list, and a second number. -/
structure Focus where
  core   : Nat := 0
  slot   : Nat := 0
  strand : Nat := 0
  ix     : Nat := 0
  row    : Nat := 0
  deriving DecidableEq, Repr

/-- Which agent moves next. The spec gives no order between agents, so the order is data that any state may hold: an event of the table, a
strand's next header or word, the capstan's next header or word, time passing on a core, one row of an accepted copy, one word of an
accepted XPUT or XGET, a translation dropped from a cache, a view or a die point that stays at the write it holds, bytes that a constant
cache keeps, a byte that the host writes into its own memory or into the near store, a section that system software loads, or the rest of
the bring-up. -/
inductive Turn where
  | event (f : Focus) (i : Instr)
  | strand (core slot strand : Nat)
  | capstan (core : Nat)
  | tick (core n : Nat)
  | copyRow (core ix row : Nat)
  | fabricWord (core ix word : Nat)
  | dropTlb (core ix : Nat)
  | keepView (core key : Nat)
  | keepDie (die key : Nat)
  | keepConst (cord key : Nat)
  | glimpse (core : Nat)
  | hostByte (addr : Nat) (b : Byte)
  | hostNear (addr : Nat) (b : Byte)
  | hostPlan (p : Plan)
  | bringUp
  deriving DecidableEq, Repr

/-- The whole device. mem is memory at the device point, by physical key; sysLag the bytes whose system point still holds an older value,
and sysUp the writes of pool and host memory on their way there; dieUp the writes that stand at a die point and have not reached the device
point, by die; dieLag the bytes whose die point still holds an older value, with the cycles that remain until it must move (R205); dieBad
the 8-byte words of a die cache that carry an uncorrectable error (R406). consts lists what the constant caches hold (R121), lines the
ranges of pool memory that have been written under some key (R402), lowDue the jobs and tiers whose free count has fallen below LOW and that
Tilth has not reclaimed yet (R221). -/
structure State where
  mem       : List Host.Cell := []
  sysLag    : AMap Byte := []
  sysUp     : List Committed := []
  dieUp     : AMap (List Committed) := []
  dieLag    : AMap (AMap (Byte × Nat)) := []
  dieBad    : AMap (List Nat) := []
  poisoned  : List Nat := []
  consts    : List Held := []
  lines     : List (Nat × Nat) := []
  cores     : AMap Core := []
  cords     : AMap Cord := []
  strands   : AMap Strand := []
  present   : BitVec 128 := 0
  uids      : Nat := 0
  ops       : Nat := 0
  recs      : AMap (Nat × Nat) := []
  allocSeq  : Nat := 0
  dying     : List (Nat × Nat) := []
  lowDue    : List (Nat × Nat) := []
  btinvs    : List BtInv := []
  jobs      : AMap JobEnt := []
  queues    : AMap QueueEnt := []
  groups    : AMap GroupEnt := []
  routes    : AMap Byte := []
  rings     : AMap RingEnt := []
  fifos     : AMap (List QRec) := []
  deficit   : AMap Int := []
  rr        : AMap Nat := []
  credit    : AMap Int := []
  homes     : AMap Nat := []
  saved     : List Saved := []
  insts     : AMap GInst := []
  instSeq   : Nat := 0
  plans     : List Plan := []
  watches   : List Watch := []
  records   : List (List Byte) := []
  vecCount  : AMap Nat := []
  dueIrq    : List Nat := []
  irqs      : AMap Nat := []
  reds      : List Reduction := []
  portsLost : List Nat := []
  portsNarrow : List Nat := []
  mgmt      : Mgmt := {}
  focus     : Focus := {}
  agenda    : List Turn := []
  free      : Nat := 0
  deriving DecidableEq, Repr

/-- Why a step stops with a fault. The spec names traps, which the model takes as effects, and no machine stop; the only fault is
the model's own. -/
inductive Fault where
  /-- Raised by no meaning: the device has no fault that stops it (every trap is taken, R355). Safe. -/
  | unreached
  deriving DecidableEq, Repr

/-- Why a step is refused. -/
inductive Refusal where
  /-- Raised by exec's arm for an instruction that has no meaning yet. Safe. -/
  | notModelled (mnemonic : String)
  deriving DecidableEq, Repr

/-- The device right after reset (R395, R396, R408): STATE 0, no table, no ring, no task, all counters 0, memory with nothing
listed. -/
def State.reset : State := {}

end Sys2Proof.Machine
end

