-- ==== Sys2Proof/Machine/Ops.lean ====
section
/-! DEFINITION. The named operations on a strand: who acts, registers with their outstanding results, flags, threads and clauses,
taking a trap and returning from one, and the frame in which every strand word runs. -/

namespace Sys2Proof.Machine

/-! ### Who acts -/

/-- The key of a strand. -/
def strandKey (core slot strand : Nat) : Nat := (core * 16 + slot) * 32 + strand
/-- The key of a cord. -/
def cordKey (core slot : Nat) : Nat := core * 16 + slot

/-- The strand in focus. -/
def focusStrand (s : State) : Nat := strandKey s.focus.core s.focus.slot s.focus.strand
/-- The cord in focus. -/
def focusCord (s : State) : Nat := cordKey s.focus.core s.focus.slot

def getStrand (s : State) (k : Nat) : Strand := aGet {} s.strands k
def setStrand (s : State) (k : Nat) (t : Strand) : State := { s with strands := aSet s.strands k t }
def getCord (s : State) (k : Nat) : Cord := aGet {} s.cords k
def setCord (s : State) (k : Nat) (c : Cord) : State := { s with cords := aSet s.cords k c }
def getCore (s : State) (k : Nat) : Core := aGet {} s.cores k
def setCore (s : State) (k : Nat) (c : Core) : State := { s with cores := aSet s.cores k c }

/-- The strand in focus. -/
def me (s : State) : Strand := getStrand s (focusStrand s)
def setMe (s : State) (t : Strand) : State := setStrand s (focusStrand s) t
/-- The cord in focus. -/
def myCord (s : State) : Cord := getCord s (focusCord s)
def setMyCord (s : State) (c : Cord) : State := setCord s (focusCord s) c
/-- The core in focus. -/
def myCore (s : State) : Core := getCore s s.focus.core
def setMyCore (s : State) (c : Core) : State := setCore s s.focus.core c

/-- The keys of a cord's strands. -/
def strandKeys (s : State) (cord : Nat) : List Nat := (List.range (getCord s cord).nstr).map (cord * 32 + ·)

/-- Moves the focus to a strand by its key. -/
def focusOn (s : State) (k : Nat) : State :=
  { s with focus := { s.focus with core := k / 512, slot := k / 32 % 16, strand := k % 32 } }

/-- Does something with the focus on a strand, and moves the focus back. -/
def onStrand (s : State) (k : Nat) (f : State → State) : State :=
  let t := f (focusOn s k)
  { t with focus := s.focus }

/-! ### The clause that issues, its threads, predicates (R16, R26, R358) -/

/-- No clause. -/
def noClause : Clause := ⟨0, 0, 0, 0, 0⟩

/-- The strand is in handler mode (R357). -/
def inHandler (s : State) : Bool := (me s).handler.isSome

/-- The clause in progress, of the handler in handler mode. -/
def curClause? (s : State) : Option Clause :=
  match (me s).handler with
  | some h => h.clause
  | none => (me s).clause

/-- The clause in progress, or no clause. -/
def curClause (s : State) : Clause := (curClause? s).getD noClause

/-- Replaces the clause in progress. -/
def setClause (s : State) (c : Option Clause) : State :=
  let t := me s
  match t.handler with
  | some h => setMe s { t with handler := some { h with clause := c } }
  | none => setMe s { t with clause := c }

/-- The threads that execute the word: `act` (R148). In handler mode it is lane 0 (R358). -/
def act (s : State) : LaneMask := (curClause s).act

/-- The address of the word in progress. -/
def wordAddr (s : State) : VAddr :=
  let c := curClause s
  c.hdr + 8 + BitVec.ofNat 56 (8 * c.word)

/-- The address after the clause in progress: the header that follows it (R105, R108). -/
def nextHeader (s : State) : VAddr :=
  let c := curClause s
  c.hdr + 8 + BitVec.ofNat 56 (8 * (c.nm1 + 1))

/-- The place of a register lane among the open choices. -/
def destCode : Dest → Nat
  | .v r l => r * 32 + l.val
  | .s r => 6144 + r
  | .p i l => 6192 + i * 32 + l.val

/-- A read with outstanding writes to the same place: each may or may not have been made (R24). n numbers the operand. -/
def settleRead (s : State) (n : Nat) (d : Dest) (old : Word) : List PendWrite → Nat → Word
  | [], _ => old
  | w :: t, j =>
    let now := if w.dest = d && Config.unsettled s.free (n + 8 * (destCode d + 8192 * j)) then w.val else old
    settleRead s n d now t (j + 1)

/-- The outstanding register writes of the strand in focus. -/
def pendWrites (s : State) : List PendWrite := (me s).pend.flatMap (·.writes)

/-- Zero in every lane. -/
def zeroLanes : Lanes Word := Vector.replicate 32 0

/-- Lane l of a vector register as it stands. -/
def vLane (t : Strand) (r : Nat) (l : Lane) : Word := (aGet zeroLanes t.v r).get l

/-- A lane of a vector register as operand n of a word. -/
def readV (s : State) (n r : Nat) (l : Lane) : Word := settleRead s n (.v r l) (vLane (me s) r l) (pendWrites s) 0

/-- A scalar register as operand n of a word. An unsettled read makes one choice for the word, whatever lane it serves (DESIGN CHOICE, log
entry 1). -/
def readS (s : State) (n r : Nat) : Word := settleRead s n (.s r) (aGet 0 (me s).s r) (pendWrites s) 0

/-- Predicate i of each lane as it stands: p7 reads 1; in handler mode the handler's own (R358). -/
def predBits (s : State) (i : Nat) : LaneMask :=
  if i = 7 then BitVec.allOnes 32
  else match (me s).handler with
    | some h => if h.preds.getLsbD i then 1 else 0
    | none => aGet 0 (me s).p i

/-- Predicate i of lane l. All unsettled reads of one predicate lane by one word share a choice (DESIGN CHOICE, log entry 1). -/
def readP (s : State) (i : Nat) (l : Lane) : Bool :=
  settleRead s 5 (.p i l) (if inMask (predBits s i) l then 1 else 0) (pendWrites s) 0 != 0

/-- The lanes that the guard enables among `act` (R26). -/
def enabled (s : State) (w : SWord) : LaneMask := maskOf (fun l => inMask (act s) l && (readP s w.gp.toNat l != w.gi))

/-! ### Register writes (R9, R18, R24) -/

/-- Marks the outstanding writes that a newer write of the same place races with. -/
def race (p : List Pending) (hit : Dest → Bool) : List Pending :=
  p.map (fun e => { e with writes := e.writes.map (fun w => if hit w.dest then { w with raced := true } else w) })

/-- Writes lanes of a vector register. -/
def putV (t : Strand) (r : Nat) (en : LaneMask) (f : Lane → Word) : Strand :=
  let old := aGet zeroLanes t.v r
  { t with
    v := aSet t.v r (Lanes.tab (fun l => if inMask en l then f l else old.get l)),
    pend := race t.pend (fun d => match d with | .v r' l => r' == r && inMask en l | _ => false) }

/-- Writes a scalar register. -/
def putS (t : Strand) (r : Nat) (v : Word) : Strand :=
  { t with s := aSet t.s r v, pend := race t.pend (fun d => match d with | .s r' => r' == r | _ => false) }

/-- Writes lanes of a predicate, the handler's own in handler mode; a write to p7 is discarded (R9). -/
def putP (t : Strand) (i : Nat) (en : LaneMask) (f : Lane → Bool) : Strand :=
  if i = 7 then t
  else
    let p := race t.pend (fun d => match d with | .p i' l => i' == i && inMask en l | _ => false)
    match t.handler with
    | some h =>
      if inMask en 0 then
        { t with
          handler := some { h with preds := (if f 0 then h.preds ||| BitVec.twoPow 8 i else h.preds &&& ~~~BitVec.twoPow 8 i) }
          pend := p }
      else t
    | none =>
      let old := aGet 0 t.p i
      { t with p := aSet t.p i (maskOf (fun l => if inMask en l then f l else inMask old l)), pend := p }

/-- The low and high word of a 64-bit value. -/
def loW (x : DWord) : Word := x.extractLsb' 0 32
def hiW (x : DWord) : Word := x.extractLsb' 32 32

/-- A 64-bit value of two words. -/
def pairOf (lo hi : Word) : DWord := hi ++ lo

/-- Writes a destination of one or two registers at once. A scalar is written once, where some lane is enabled; z discards. -/
def putReg (t : Strand) (d : BitVec 8) (n : Nat) (en : LaneMask) (val : Lane → DWord) : Strand :=
  if isVector d then
    let t := putV t d.toNat en (fun l => loW (val l))
    if n = 2 then putV t (d.toNat + 1) en (fun l => hiW (val l)) else t
  else if isScalar d then
    match lowestLane en with
    | none => t
    | some l =>
      let r := d.toNat - 0xC0
      let t := putS t r (loW (val l))
      if n = 2 then putS t (r + 1) (hiW (val l)) else t
  else t

/-- The outstanding writes of a destination of one or two registers. -/
def regWrites (d : BitVec 8) (n : Nat) (en : LaneMask) (val : Lane → DWord) : List PendWrite :=
  if isVector d then
    (lanesOf en).flatMap (fun l =>
      ⟨.v d.toNat l, loW (val l), false⟩ :: (if n = 2 then [⟨.v (d.toNat + 1) l, hiW (val l), false⟩] else []))
  else if isScalar d then
    match lowestLane en with
    | none => []
    | some l =>
      let r := d.toNat - 0xC0
      ⟨.s r, loW (val l), false⟩ :: (if n = 2 then [⟨.s (r + 1), hiW (val l), false⟩] else [])
  else []

/-- The outstanding writes of a predicate. -/
def predWrites (i : Nat) (en : LaneMask) (f : Lane → Bool) : List PendWrite :=
  if i = 7 then [] else (lanesOf en).map (fun l => ⟨.p i l, if f l then 1 else 0, false⟩)

/-- The class of outstanding results of a latency class. -/
def Cls.lat : Cls → Option LatClass
  | .load => some .ld
  | .xu => some .xu
  | .sh => some .sh
  | _ => none

/-- Makes the results of a word outstanding (R22), racing with older outstanding writes of the same places (R24). -/
def pushPend (t : Strand) (c : LatClass) (ws : List PendWrite) (poison : List (Lane × DWord)) (pc : VAddr) (word : Nat) : Strand :=
  if ws.isEmpty && poison.isEmpty then t
  else { t with pend := race t.pend (fun d => ws.any (fun w => w.dest == d)) ++ [{ cls := c, writes := ws, poison := poison, pc := pc, word := word }] }

/-- Makes one outstanding write. -/
def makeWrite (t : Strand) (w : PendWrite) : Strand :=
  match w.dest with
  | .v r l => putV t r (laneBit l) (fun _ => w.val)
  | .s r => putS t r w.val
  | .p i l => putP t i (laneBit l) (fun _ => w.val != 0)

/-! ### Flags (R56 to R58) -/

/-- ORs flags into the cord's SFLAGS. A flag that goes from 0 to 1 while armed latches STICKY (R58). -/
def Cord.orFlags (c : Cord) (f : Flags) : Cord :=
  { c with sflags := c.sflags ||| f, sticky := c.sticky ||| (f &&& ~~~c.sflags &&& c.sarm) }

/-- ORs flags into the SFLAGS of the cord in focus (R57). -/
def orFlags (s : State) (f : Flags) : State := if f = 0 then s else setMyCord s ((myCord s).orFlags f)

/-- ORs flags into the SFLAGS of a cord. -/
def orFlagsOf (s : State) (cord : Nat) (f : Flags) : State := if f = 0 then s else setCord s cord ((getCord s cord).orFlags f)

/-! ### Threads (R147 to R149, R153, R154) -/

/-- A position as a byte address (R356). -/
def posAddr (hi : BitVec 8) (pc : VAddr) (place : Option Nat) : DWord := match place with
  | none => hi ++ pc
  | some w => (hi ++ pc : DWord) + 8 + BitVec.ofNat 64 (8 * w)

/-- A thread's position as a byte address. -/
def Thread.addr (t : Thread) : DWord := posAddr t.hi t.pc t.place

/-- A strand is blocked no longer (R346). -/
def Strand.unblock (t : Strand) : Strand := { t with blocked := 0, searched := 0, reported := [] }

/-- Changes one thread. -/
def Strand.modThread (t : Strand) (l : Lane) (f : Thread → Thread) : Strand :=
  { t with threads := Lanes.tab (fun m => if m = l then f (t.threads.get l) else t.threads.get m) }

/-- Changes the threads of a set. -/
def Strand.modThreads (t : Strand) (m : LaneMask) (f : Lane → Thread → Thread) : Strand :=
  { t with threads := Lanes.tab (fun l => if inMask m l then f l (t.threads.get l) else t.threads.get l) }

/-- The threads in a state that satisfies p. -/
def Strand.threadsIn (t : Strand) (p : Thread → Bool) : LaneMask := maskOf (fun l => p (t.threads.get l))

def Thread.isReady (t : Thread) : Bool := match t.st with | .ready => true | _ => false
def Thread.isHeld (t : Thread) : Bool := match t.st with | .held _ => true | _ => false
def Thread.isExited (t : Thread) : Bool := match t.st with | .exited => true | _ => false
def Thread.isFaulted (t : Thread) : Bool := match t.st with | .parked (.fault ..) => true | _ => false

/-- Every thread has exited. -/
def Strand.ended (t : Strand) : Bool := allLanes.all (fun l => (t.threads.get l).isExited)

/-- The release condition of the meeting address m holds and some thread is held there: those threads (R153). -/
def meetReady (t : Strand) (m : VAddr) : LaneMask :=
  let held := t.threadsIn (fun x => x.isHeld && x.pc == m)
  let all := allLanes.all (fun l =>
    let x := t.threads.get l
    x.mr != m || x.isExited || (x.isHeld && x.pc == m))
  if all then held else 0

/-- Releases held threads: MR from the pair that their MEET names, read in their lane by rd (R153). -/
def meetRelease (rd : Nat → Lane → Word) (t : Strand) (m : LaneMask) : Strand :=
  t.modThreads m (fun l x => match x.st with
    | .held r => { x with st := .ready, mr := (pairOf (rd r l) (rd (r + 1) l)).extractLsb' 0 56 }
    | _ => x)

/-- Tests the release condition at every address where a thread is held, from a list of lanes. -/
def meetSweepFrom (rd : Nat → Lane → Word) : List Lane → Strand → Strand
  | [], t => t
  | l :: ls, t =>
    let x := t.threads.get l
    meetSweepFrom rd ls (if x.isHeld then meetRelease rd t (meetReady t x.pc) else t)

/-- The device tests the release condition whenever a thread exits or executes a JOIN (R153). -/
def meetSweep (rd : Nat → Lane → Word) (t : Strand) : Strand := meetSweepFrom rd allLanes t

/-- An outstanding write outlives the exit of some threads: a write of theirs is discarded (R106). -/
def PendWrite.keeps (m : LaneMask) (w : PendWrite) : Bool := match w.dest with
  | .v _ l => !inMask m l
  | .p _ l => !inMask m l
  | .s _ => true

/-- What stays of an outstanding result. -/
def Pending.without (m : LaneMask) (e : Pending) : Pending :=
  { e with writes := e.writes.filter (PendWrite.keeps m), poison := e.poison.filter (fun x => !inMask m x.1) }

/-- STICKY belongs to the lowest-numbered strand that has not ended (R58): a strand that has ended passes it on. -/
def passSticky (s : State) (k : Nat) : State :=
  let t := getStrand s k
  let ts := t.traps.filter (·.code == .sticky)
  if !t.ended || ts.isEmpty then s
  else match (strandKeys s (k / 32)).find? (fun j => !(getStrand s j).ended) with
    | none => s
    | some j =>
      let u := getStrand s j
      setStrand (setStrand s k { t with traps := t.traps.filter (·.code != .sticky) }) j { u with traps := u.traps ++ ts }

/-- The record of a trap that no handler takes. -/
def TrapInfo.failure (t : TrapInfo) (others : List TrapCode) : Failure :=
  { code := t.code, cls := t.cls, item1 := t.pc, item2 := t.addr, item3 := t.aux, seq := t.seq, others := others }

/-- A trap and others go to the cord's failure record (R71, R369): its first trap is the earliest. -/
def Cord.fail (c : Cord) (t : TrapInfo) (others : List TrapCode) : Cord :=
  { c with failure := some (match c.failure with
      | none => t.failure others
      | some r => if t.seq < r.seq then t.failure (r.code :: r.others ++ others) else { r with others := r.others ++ (t.code :: others) }) }

/-- The same of a trap raised in handler mode: the trap being handled goes first, whatever is recorded already (R369). -/
def Cord.failFirst (c : Cord) (t : TrapInfo) (others : List TrapCode) : Cord :=
  { c with failure := some (match c.failure with
      | none => t.failure others
      | some r => t.failure (r.code :: r.others ++ others)) }

/-- A strand that has ended enters no handler: the traps that it still has recorded go to the cord's failure record (R71), but under
TEND they are discarded (R331). -/
def failEnded (s : State) (k : Nat) : State :=
  let t := getStrand s k
  if !t.ended || t.traps.isEmpty then s
  else
    let c := getCord s (k / 32)
    setCord (setStrand s k { t with traps := [] }) (k / 32) (if c.tend then c else t.traps.foldl (fun c u => c.fail u []) c)

/-- Ends threads of the strand in focus (R106): their outstanding register results are discarded. When the last one ends, the
strand ends: every outstanding result is discarded (R30), it releases its extended block (R162), and a recorded trap goes to the failure
record (R71). -/
def exitThreads (s : State) (m : LaneMask) : State :=
  let t := (me s).modThreads m (fun _ x => { x with st := .exited })
  let t := meetSweep (readV s 1) { t with pend := (t.pend.map (Pending.without m)).filter (fun e => !(e.writes.isEmpty && e.poison.isEmpty)) }
  failEnded (passSticky (setMe s (if t.ended then { t with ext := false, pend := [] } else t)) (focusStrand s)) (focusStrand s)

/-- Takes lanes out of the clause in progress. -/
def leaveClause (s : State) (m : LaneMask) : State :=
  match curClause? s with
  | none => s
  | some c => setClause s (some { c with act := c.act &&& ~~~m })

/-- Threads leave the clause in progress and are ready no longer: they keep the stamp that they have (R149). -/
def parkClause (s : State) (m : LaneMask) : State :=
  match curClause? s with
  | none => s
  | some c => setClause s (some { c with act := c.act &&& ~~~m, group := c.group &&& ~~~m })

/-- Threads transfer: each sets its PC, stands at the header and leaves the clause (R103). In handler mode the handler does. -/
def transfer (s : State) (m : LaneMask) (target : Lane → VAddr) : State :=
  let t := me s
  match t.handler with
  | some h => if inMask m 0 then leaveClause (setMe s { t with handler := some { h with pc := target 0 } }) m else s
  | none => leaveClause (setMe s (t.modThreads m (fun l x => { x with pc := target l, place := none }))) m

/-! ### The order of traps -/

/-- The next number in the order in which traps arise. -/
def nextSeq (s : State) : Nat × State := (s.ops, { s with ops := s.ops + 1 })

/-- A lane faults with a deferred trap: it is parked where it faulted (R360). The first fault of a split starts the word count. -/
def splitLane (s : State) (l : Lane) (code : TrapCode) (addr aux : DWord) (pc : VAddr) (place : Option Nat) : State :=
  let (n, s) := nextSeq s
  let t := (me s).modThread l (fun x => { x with st := .parked (.fault code addr aux n), pc := pc, place := place })
  parkClause (setMe s { t with split := some (t.split.getD 0) }) (laneBit l)

/-- Splits lanes one after another, each with its code, its data address and its AUX item. -/
def splitLanes (s : State) (pc : VAddr) (place : Option Nat) : List (Lane × TrapCode × DWord × DWord) → State
  | [] => s
  | (l, c, a, x) :: t => splitLanes (splitLane s l c a x pc place) pc place t

/-! ### Codes, and the end of a cord by a trap (R355, R364, R369) -/

/-- The codes of R355. -/
def TrapCode.num : TrapCode → Nat
  | .undef => 0x01 | .illcl => 0x02 | .illop => 0x03 | .regrange => 0x04 | .priv => 0x05 | .swtrap => 0x06 | .brk => 0x07
  | .memfault => 0x10 | .align => 0x11 | .weakuse => 0x12 | .poison => 0x13 | .btbnd => 0x14
  | .copybnd => 0x20 | .desc => 0x21 | .reln => 0x22 | .heapcap => 0x23 | .heapspill => 0x24 | .biasord => 0x25 | .mreset => 0x26
  | .clayerr => 0x27 | .ctrap => 0x28 | .sticky => 0x30 | .snag => 0x31

/-- The class numbers of R364. -/
def TrapClass.num : TrapClass → Nat
  | .precise => 0 | .deferred => 1 | .engine => 2 | .cord => 3

/-- The lanes whose fault records are part of the trap that is being handled: the PARK of a deferred one. -/
def handledLanes (t : Strand) : LaneMask := match t.handler with
  | some h => if h.trap.cls = .deferred then h.trap.park else 0
  | none => 0

/-- When the faults of parked lanes arose. -/
def faultSeqs (t : Strand) (m : LaneMask) : List Nat :=
  (lanesOf m).filterMap (fun l => match (t.threads.get l).st with | .parked (.fault _ _ _ n) => some n | _ => none)

/-- The one deferred trap that parked lanes make (R360): code, PC, data address and AUX are those of the lowest lane. It arose with the
first of their faults. -/
def deferredTrap (t : Strand) (m : LaneMask) : Option TrapInfo := (lowestLane m).bind (fun l => match (t.threads.get l).st with
  | .parked (.fault c a x n) =>
    some { code := c, cls := .deferred, seq := (faultSeqs t m).foldl min n, addr := a, aux := x, pc := (t.threads.get l).addr, park := m }
  | _ => none)

/-- Every trap of a cord that has arisen and has not been discarded: recorded, being handled, or standing in parked lanes. -/
def trapsOf (s : State) (cord : Nat) : List TrapInfo :=
  (strandKeys s cord).flatMap (fun k =>
    let t := getStrand s k
    t.traps ++ (match t.handler with | some h => [h.trap] | none => []) ++
      (deferredTrap t (t.threadsIn Thread.isFaulted &&& ~~~handledLanes t)).toList)

/-- The earliest of the traps. -/
def earliest (t : TrapInfo) : List TrapInfo → TrapInfo
  | [] => t
  | u :: us => earliest (if u.seq < t.seq then u else t) us

/-- Ends a strand: every thread exits, nothing waits any more. Its queued stores still complete (R106, R326). -/
def Strand.stop (t : Strand) : Strand :=
  { t.unblock with
    threads := Lanes.tab (fun l => { t.threads.get l with st := .exited }), clause := none, stall := none, waitHdr := none,
    pend := [], traps := [], handler := none, split := none, stickyHeld := false, ext := false }

/-- Ends the cord as ESCALATE does (R369): every thread exits and the failure record holds the first trap: the one being handled
where the handler itself trapped, and otherwise the earliest trap of the cord. -/
def escalate (s : State) (cord : Nat) (handled : Option TrapInfo) (t : TrapInfo) : State :=
  let all := trapsOf s cord
  let f := handled.getD (earliest t all)
  let others := ((t :: all.filter (fun u => u.seq != t.seq)).filter (fun u => u.seq != f.seq)).map (·.code)
  let c := if handled.isSome then (getCord s cord).failFirst f others else (getCord s cord).fail f others
  let s := setCord s cord { c with sticky := 0 }
  (strandKeys s cord).foldl (fun s k => setStrand s k (getStrand s k).stop) s

/-- Lanes fault at a position, each with its code, data address and AUX item: they split off (R360); in handler mode the cord ends
(R358). -/
def faultLanes (s : State) (pc : VAddr) (place : Option Nat) (fs : List (Lane × TrapCode × DWord × DWord)) : State :=
  match fs, (me s).handler with
  | [], _ => s
  | (_, code, addr, aux) :: _, some h =>
    let (n, s) := nextSeq s
    if (myCord s).tend then setMe s (me s).stop
    else escalate s (focusCord s) (some h.trap)
      { code := code, cls := .deferred, pc := posAddr 0 pc place, addr := addr, aux := aux, seq := n }
  | _, none => splitLanes s pc place fs

/-! ### Results are written (R22, R23) -/

/-- Whether an outstanding write is made: always, or by an open choice where a newer write raced with it (R24). -/
def landWrite (s : State) (j : Nat) (w : PendWrite) : Bool := !w.raced || Config.unsettled s.free (6 + 8 * (destCode w.dest + 8192 * j))

/-- Makes the writes of a list that land. -/
def landWrites (s : State) (t : Strand) (ws : List PendWrite) : Strand :=
  (ws.zipIdx.filter (fun x => landWrite s x.2 x.1)).foldl (fun t x => makeWrite t x.1) t

/-- Writes the results of some outstanding words: first those without a race. Lanes whose data carried an uncorrectable error
split then (R361). -/
def settle (s : State) (es keep : List Pending) : State :=
  let ws := es.flatMap (·.writes)
  let t := landWrites s { me s with pend := keep } (ws.filter (!·.raced) ++ ws.filter (·.raced))
  let s := setMe s t
  es.foldl (fun s e => faultLanes s e.pc (some e.word) (e.poison.map (fun x => (x.1, .poison, x.2, 0)))) s

/-- Every outstanding result is written. -/
def settleAll (s : State) : State := if (me s).pend.isEmpty then s else settle s (me s).pend []

/-- Every outstanding result of a class is written; each class's races have choices of their own. -/
def settleClass (s : State) (c : LatClass) : State :=
  let p := (me s).pend
  if p.any (·.cls == c) then { settle s (p.filter (·.cls == c)) (p.filter (·.cls != c)) with free := s.free + 1 } else s

/-! ### The end of a clause (R148, R149) -/

/-- Ends the clause: threads of the group that are still ready take the stamp of this selection (R149). -/
def endClause (s : State) : State :=
  match curClause? s with
  | none => s
  | some c =>
    let m := me s
    match m.handler with
    | some h => setMe s { m with handler := some { h with clause := none } }
    | none =>
      setMe s { m.modThreads c.group (fun _ x => if x.isReady then { x with stamp := m.sel } else x) with clause := none }

/-- A fault that was found between words starts a split whose words are counted from the next one (R360). -/
def countSplit (s : State) : State := if (me s).split = some 0 then setMe s { me s with split := some 1 } else s

/-- A fault that was found between words is counted so; and a clause that it left without a thread ends (R148). -/
def betweenWords (s : State) : State :=
  let s := countSplit s
  match curClause? s with
  | none => s
  | some c => if c.act = 0 then endClause (setMe s { (me s).unblock with stall := none, waitHdr := none }) else s

/-! ### Taking a trap (R355 to R369) -/

/-- Takes a trap in the strand in focus, the one shared entry (R357, R358): outstanding results are written, the threads are
frozen where they stand, and the handler starts at the kernel header's address with its own predicates 0. With no handler, or
in handler mode, the cord ends as ESCALATE. After TEND no trap is taken, and the strand's threads exit (R331). Of the handler's address
the low 56 bits are the handler's PC (log entry 51). -/
def takeTrap (s : State) (t : TrapInfo) : State :=
  let s := if (me s).pend.isEmpty then s else betweenWords (settleAll s)
  if (myCord s).tend then setMe s (me s).stop
  else match (me s).handler with
  | some h => escalate s (focusCord s) (some h.trap) t
  | none =>
    if (myCord s).hdr.handler = 0 then escalate s (focusCord s) none t
    else
      let m := (me s).unblock
      setMe s { m with
        handler := some { trap := { t with set := t.park }, pc := (myCord s).hdr.handler.extractLsb' 0 56,
                          saved := m.clause.map (fun c => (c, m.stall)) },
        clause := none, stall := none, waitHdr := none }

/-- A precise trap at the word in progress (R70, R359): the threads of the group stand at the word, and all of them are PARK; they
keep their stamps (R149). In handler mode the cord ends. -/
def preciseTrap (s : State) (code : TrapCode) (aux : DWord) : State :=
  let s := settleAll s
  let c := curClause s
  let (n, s) := nextSeq s
  let t : TrapInfo := { code := code, cls := .precise, pc := (wordAddr s).setWidth 64, aux := aux, park := c.act, seq := n }
  if inHandler s then takeTrap s t
  else
    let m := (me s).modThreads c.act (fun _ x => { x with pc := c.hdr, place := some c.word })
    let m := m.modThreads (c.group &&& ~~~c.act) (fun _ x => if x.isReady then { x with stamp := m.sel } else x)
    takeTrap (setMe s { m with clause := none, stall := none }) t

/-- Takes the deferred trap of a strand that has quiesced (R360): PARK is the parked lanes. -/
def takeDeferred (s : State) : State := match deferredTrap (me s) ((me s).threadsIn Thread.isFaulted) with
  | none => s
  | some t => takeTrap (setMe s { me s with split := none }) t

/-- Records an engine trap of a strand (R71, R363). A strand whose threads have all exited takes none: the task fails with the
trap in its failure record. -/
def recordTrap (s : State) (k : Nat) (t : TrapInfo) : State :=
  let (n, s) := nextSeq s
  let t := { t with seq := n }
  let m := getStrand s k
  let c := getCord s (k / 32)
  if c.tend then s
  else if m.ended || !m.live then
    setCord s (k / 32) (c.fail t [])
  else setStrand s k { m with traps := m.traps ++ [t] }

/-! ### The frame of a strand word (R16, R23, R27, R69) -/

/-- What the body of a word answers: its effect is made; a precise trap with its AUX item; or the strand waits at the word. -/
inductive Res where
  | done (s : State)
  | trap (code : TrapCode) (aux : DWord)
  | wait (st : Stall) (s : State)

/-- The strand may execute a word that needs a mode. -/
def mayRun (p : Priv) (s : State) : Bool := match p with
  | .any => true
  | .handler => inHandler s
  | .system => (myCord s).job == 0

/-- The checks of R27 after UNDEF, with the handler-mode rule of R358 and the fourth check of R69. -/
def wordTrap (f : Form) (w : SWord) (s : State) : Option TrapCode :=
  if !f.wf w then some .illop
  else if inHandler s && !f.inHandler w then some .illop
  else if !f.inRange w (me s).base (me s).ext then some .regrange
  else if !mayRun f.priv s then some .priv
  else none

/-- Goes on after a word: the next word, or the next header where the clause falls through, or the end of the clause where no
thread is left in it (R16, R103). -/
def advance (s : State) : State :=
  match curClause? s with
  | none => s
  | some c =>
    if c.act = 0 then endClause s
    else if c.nm1 ≤ c.word then
      let next := nextHeader s
      endClause (transfer s c.act (fun _ => next))
    else setClause s (some { c with word := c.word + 1 })

/-- Finishes a word whose effect has been made: with S = 1 every outstanding result is written before the next word (R23). -/
def finishWord (sw : Bool) (s : State) : State :=
  let s := if sw then settleAll s else s
  let m := me s
  let m := match m.handler with
    | some h => { m with handler := some { h with stall := none } }
    | none => { m with stall := none }
  let s := setMe s { m.unblock with split := m.split.map (· + 1) }
  advance { s with free := s.free + 1 }

/-- The stall of the strand in focus, of the handler in handler mode. -/
def myStall (s : State) : Option Stall :=
  match (me s).handler with
  | some h => h.stall
  | none => (me s).stall

/-- The strand waits at its word (R71). -/
def stallAt (st : Stall) (s : State) : State :=
  let m := me s
  match m.handler with
  | some h => setMe s { m with handler := some { h with stall := some st } }
  | none => setMe s { m with stall := some st }

/-- The first register that the word reads and whose token is still unwritten (R25). -/
def tokenRead (f : Form) (w : SWord) (s : State) : Option Nat :=
  ((f.reads w).filterMap (fun r => if 0xC0 ≤ r then some (r - 0xC0) else none)).find? ((me s).tokens.contains ·)

/-- The scope at which a read of some registers joins the operations whose tokens they hold (R210). -/
def joinScope (t : Strand) (regs : List Nat) : Nat :=
  regs.foldl (fun a r => if 0xC0 ≤ r then max a (aGet 0 t.joins (r - 0xC0)) else a) 0

/-- The core's view moves to at least a scope's point (R207): .di, and from .dv up the die's points too. -/
def refresh (s : State) (core : Nat) (sc : Nat) : State :=
  if sc ≤ 2 then s
  else
    let c := getCore s core
    let s := if c.view.isEmpty then s else setCore s core { c with view := [] }
    if sc = 3 then s else { s with dieLag := aDel s.dieLag (core / 32) }

/-- Reading written tokens joins their operations: once for each token. -/
def joinTokens (s : State) (regs : List Nat) : State :=
  if (me s).joins.isEmpty then s
  else
    let sc := joinScope (me s) regs
    refresh (setMe s { me s with joins := (me s).joins.filter (fun e => !regs.contains (e.1 + 0xC0)) }) s.focus.core sc

/-- Runs a strand word: the checks, then the wait for a token it reads, then its body (R25, R27). A word whose guard enables no lane reads
no token register, so it does not stall on one that it names (DESIGN CHOICE, log entry 1). -/
def runForm (f : Form) (w : SWord) (body : State → Res) (s : State) : State :=
  match wordTrap f w s with
  | some c => preciseTrap s c 0
  | none =>
    match (if enabled s w = 0 then none else tokenRead f w s) with
    | some r => stallAt (.token r) s
    | none => match body (if enabled s w = 0 then s else joinTokens s (f.reads w)) with
      | .done s' => finishWord w.sw s'
      | .trap c aux => preciseTrap s c aux
      | .wait st s' => stallAt st s'

/-- Runs a strand instruction by its form. -/
def runWord (i : Instr) (body : SWord → State → Res) (s : State) : State :=
  match strandForm i with
  | none => s
  | some (w, f) => runForm f w (body w) s

end Sys2Proof.Machine
end

