-- ==== Sys2Proof/Machine/Mem.lean ====
section
/-! DEFINITION. Memory (R197 to R213): physical places, translation, what a core sees, commit, propagation, release and acquire, and
handles (R214 to R219). A byte of memory has a physical key: 2^72 * tier + peer * 2^48 + physical address, with the record window
of R318 as tier 5. -/

namespace Sys2Proof.Machine

/-! ### Places -/

/-- The key of a physical byte: ext is the peer's device id for tier 3 and the key index for tier 1 (R199, R402). -/
def physKey (tier ext pa : Nat) : Nat := 2 ^ 72 * tier + 2 ^ 48 * ext + pa

/-- The key of a byte of a job's own memory in tier 0 to 2: pool memory under the job's key. -/
def jobKey (job tier pa : Nat) : Nat := physKey tier (if tier = 1 then job else 0) pa

/-- The physical address of a key. -/
def paOf (key : Nat) : Nat := key % 2 ^ 48

/-- The ext of a key: the peer's device id, or the key index. -/
def extOf (key : Nat) : Nat := key / 2 ^ 48 % 2 ^ 24

/-- The tier of a key. -/
def tierOf (key : Nat) : Nat := key / 2 ^ 72

/-- The record window's tier (R318). -/
def windowTier : Nat := 5

/-- The die of a core. -/
def dieOf (core : Nat) : Nat := core / 32

/-- A physical address is backed by memory (R198): the near store; the pool ranges of POOLMAP, below 2^42; host memory; of a peer its
near store, or its pool where ADDR[47] is set (R199). -/
def backed (s : State) (tier pa : Nat) : Bool :=
  match tier with
  | 0 => pa < 2 ^ 33
  | 1 => pa < 2 ^ 42 && s.mgmt.ports.any (fun e => e.2.1 * 2 ^ 30 ≤ pa && pa < (e.2.1 + e.2.2) * 2 ^ 30)
  | 2 => pa < 2 ^ 48
  | 3 => if pa / 2 ^ 47 = 0 then pa < 2 ^ 33 else pa % 2 ^ 47 < 2 ^ 42
  | _ => pa < 2 ^ 47

/-- The working Tirral ports that may carry traffic to a device (R393, R401). -/
def routeMask (s : State) (dev : Nat) : Byte := s.portsLost.foldl (fun m p => m &&& ~~~(BitVec.twoPow 8 p)) (aGet 0 s.routes dev)

/-- Memory of a tier may be accessed under its ext: a live key for tier 1 (R402), a route for tier 3. -/
def extLive (s : State) (tier ext : Nat) : Bool := match tier with
  | 1 => s.mgmt.keys.contains ext
  | 3 => routeMask s ext != 0
  | _ => true

/-! ### Translation (R198 to R200) -/

/-- What an access needs of its page. -/
inductive Need where
  | rd | wr | ex
  deriving DecidableEq, Repr

/-- A device virtual address is in range (R115): bit 63 is clear and so are bits [62:56]. -/
def vaOk (a : DWord) : Bool := a.toNat < 2 ^ 56

/-- The index of a level, and the bits below it. -/
def levelIndex (va level : Nat) : Nat := match level with
  | 1 => va / 2 ^ 47 % 512
  | 2 => va / 2 ^ 38 % 512
  | 3 => va / 2 ^ 29 % 512
  | 4 => va / 2 ^ 21 % 256
  | _ => va / 2 ^ 16 % 32

/-- The rules of R199 for an entry at a level: none where the entry breaks one or has no mapping. -/
def entryOk (level e : Nat) : Bool :=
  let leaf := e / 2 % 2 == 1
  let tier := natBits e 5 2
  let adr := natBits e 12 36 * 2 ^ 12
  let ext := natBits e 48 16
  e % 2 == 1 && natBits e 8 4 == 0 && (leaf == (level == 5) || (level == 4 && leaf)) &&
    (if leaf then
      (if level == 4 then adr % 2 ^ 21 == 0 else adr % 2 ^ 16 == 0) &&
      (match tier with | 1 => ext < 2 ^ 10 | 3 => true | _ => ext == 0)
    else tier != 3 && ext == 0)

/-- The walk of a page table from a node, level by level (R199). Level-1 entry 511 is never read. A node that no memory backs, or that lies
under a dead key, has no entry to read (R198, R402). -/
def walkFrom (s : State) (job va : Nat) : Nat → Nat → Nat → Option Tlb
  | 0, _, _ => none
  | n + 1, tier, node =>
    let level := 5 - n
    let a := node + 8 * levelIndex va level
    if (level == 1 && levelIndex va 1 == 511) || !backed s tier a || !extLive s tier job then none
    else
      let e := leNat (memRdN s.mem (jobKey job tier a) 8)
      if !entryOk level e then none
      else
        let adr := natBits e 12 36 * 2 ^ 12
        let t := natBits e 5 2
        if e / 2 % 2 == 1 then
          some { job := job, vpn := if level == 4 then va / 2 ^ 21 else va / 2 ^ 16, big := level == 4, tier := t, pa := adr,
                 rd := e / 4 % 2 == 1, wr := e / 8 % 2 == 1, ex := e / 16 % 2 == 1, nc := e / 128 % 2 == 1,
                 ext := natBits e 48 16 }
        else walkFrom s job va n t adr

/-- A cached translation covers an address. -/
def Tlb.covers (t : Tlb) (job va : Nat) : Bool := t.job == job && t.vpn == (if t.big then va / 2 ^ 21 else va / 2 ^ 16)

/-- The translation of an address on the graph unit and the dispatcher, which keep no cache (R200). -/
def walk (s : State) (job va : Nat) : Option Tlb :=
  let j := aGet {} s.jobs job
  if j.valid then walkFrom s job va 5 j.tier j.root else none

/-- One of some things, by an open choice where there are several. -/
def pickOne {α : Type} (d : α) (i : Nat) : List α → α
  | [] => d
  | [x] => x
  | l => (l[i % l.length]?).getD d

/-- What an access on a core may take for its translation (R200): the entry that a walk reads now, and older ones that are still cached. A
job without a table has only the latter. -/
def tlbChoices (s : State) (core job va : Nat) : List (Option Tlb) :=
  let now := walk s job va
  let old := ((getCore s core).tlb.filter (·.covers job va)).map some
  if (aGet {} s.jobs job).valid then now :: old.filter (· != now) else old.take 1

/-- The translation of an address for a job on a core, for the n-th access of a word: each access chooses for itself (R200). -/
def findTlb (s : State) (core job va n : Nat) : Option Tlb := pickOne none (Config.tlbEntry s.free n) (tlbChoices s core job va)

/-- Keeps a translation in the core's cache of 2048 entries (R200). -/
def cacheTlb (s : State) (core : Nat) (t : Tlb) : State :=
  let c := getCore s core
  if c.tlb.contains t then s else setCore s core { c with tlb := (t :: c.tlb).take 2048 }

/-- Where an access lands: key, whether the page bypasses the caches, and the cache entry used. -/
structure Place where
  key : Nat
  nc  : Bool := false
  tlb : Option Tlb := none
  deriving DecidableEq, Repr

/-- The physical place of a translated address, by the tier's EXT (R199). -/
def Tlb.place (s : State) (t : Tlb) (va : Nat) : Option Place :=
  let pa := t.pa + va % (if t.big then 2 ^ 21 else 2 ^ 16)
  if backed s t.tier pa && extLive s t.tier t.ext then some { key := physKey t.tier t.ext pa, nc := t.nc, tlb := some t }
  else none

/-- A page permits an access (R199). -/
def Tlb.allows (t : Tlb) : Need → Bool
  | .rd => t.rd
  | .wr => t.wr
  | .ex => t.ex

/-- The record window (R318): a read of a copy of the job's own task. -/
def windowBase : Nat := 0x00FF800000000000

/-- The place of a window address. -/
def windowPlace (s : State) (job va : Nat) (need : Need) : Option Place :=
  match aGet? s.recs ((va - windowBase) / 64) with
  | some (j, _) => if j = job && need = .rd then some { key := physKey windowTier 0 (va - windowBase), nc := true } else none
  | none => none

/-- Translates an address for a job, with a cache of translations if `core` is given (R198 to R200, R318); n numbers the access. -/
def translate (s : State) (core : Option Nat) (job : Nat) (a : DWord) (need : Need) (n : Nat := 0) : Option Place :=
  if !vaOk a then none
  else if windowBase ≤ a.toNat then windowPlace s job a.toNat need
  else
    match (match core with | some c => findTlb s c job a.toNat n | none => walk s job a.toNat) with
    | some t => if t.allows need then t.place s a.toNat else none
    | none => none

/-! ### What a core sees (R205) -/

/-- The bytes that an access sees from one write (R201): 16 in the near store, 8 elsewhere. -/
def unitOf (key : Nat) : Nat := if tierOf key = 0 then 16 else 8

/-- The first byte of the unit that holds a byte. -/
def unitBase (key : Nat) : Nat := key / unitOf key * unitOf key

/-- Two byte ranges overlap. -/
def overlaps (k n k' n' : Nat) : Bool := k < k' + n' && k' < k + n

/-- A committed write overlaps some bytes. -/
def Committed.touches (w : Committed) (key n : Nat) : Bool := overlaps w.key w.bytes.length key n

/-- Cuts bytes into the pieces that single-copy atomicity keeps whole (R201), from an address up. -/
def pieces (u : Nat) : Nat → List Byte → List Committed
  | _, [] => []
  | k, b :: bs => match pieces u (k + 1) bs with
    | [] => [⟨k, [b]⟩]
    | w :: ws => if (k + 1) % u = 0 then ⟨k, [b]⟩ :: w :: ws else ⟨k, b :: w.bytes⟩ :: ws

/-- The newest byte at a key among committed writes, oldest first. -/
def upRd (l : List Committed) (key : Nat) : Option Byte :=
  (l.reverse.find? (fun c => c.key ≤ key && key < c.key + c.bytes.length)).bind (fun c => c.bytes[key - c.key]?)

/-- The newest byte among queued stores, oldest first (R120). -/
def queueRd (q : List QStore) (scratch : Bool) (key : Nat) : Option Byte :=
  (q.reverse.find? (fun c => c.scratch == scratch && c.key ≤ key && key < c.key + c.bytes.length)).bind (fun c => c.bytes[key - c.key]?)

/-- The byte at a die point. -/
def dieRd (s : State) (die key : Nat) : Byte :=
  match upRd (aGet [] s.dieUp die) key with
  | some b => b
  | none => match aGet? (aGet [] s.dieLag die) key with
    | some (b, _) => b
    | none => memRd s.mem key

/-- A byte at the device point, or a write of the core or its die that is still on its way there and so comes later (R203). -/
def laterRd (s : State) (core key : Nat) : Byte :=
  match upRd (getCore s core).up key with
  | some b => b
  | none => match upRd (aGet [] s.dieUp (dieOf core)) key with
    | some b => b
    | none => memRd s.mem key

/-- The core's view of a byte (R205): its own committed write still on its way, else the view it keeps, else the die point. A
page with NC = 1 is always seen at the device point; a write that the core made there through a cached page stands before it. -/
def coreRd (s : State) (core key : Nat) (nc : Bool) : Byte :=
  if nc then laterRd s core key
  else
    let c := getCore s core
    match upRd c.up key with
    | some b => b
    | none => match aGet? c.view key with
      | some (b, _) => b
      | none => dieRd s (dieOf core) key

/-- Scopes (R202): 0 .st, 1 .cd, 2 .co, 3 .di, 4 .dv, 5 .sy. -/
abbrev Scope := Nat

/-- A read of a byte at a scope's point takes it from the device point: no write on its way supplies it, nor, unless the page bypasses
them, a cache below that point. -/
def fromDevice (s : State) (core : Nat) (sc : Scope) (key : Nat) (nc : Bool) : Bool :=
  (upRd (getCore s core).up key).isNone && (upRd (aGet [] s.dieUp (dieOf core)) key).isNone &&
    (nc || 4 ≤ sc || ((3 ≤ sc || (aGet? (getCore s core).view key).isNone) && (aGet? (aGet [] s.dieLag (dieOf core)) key).isNone))

/-- n bytes of a core's view. -/
def coreRdN (s : State) (core key n : Nat) (nc : Bool) : List Byte := (List.range n).map (fun i => coreRd s core (key + i) nc)

/-- n bytes at the device point. -/
def devRdN (s : State) (key n : Nat) : List Byte := memRdN s.mem key n

/-- Data carries an uncorrectable error (R406): some 8-byte word of it is poisoned. -/
def poisonHit (s : State) (key n : Nat) : Bool := s.poisoned.any (fun p => p < key + n && key < p + 8)

/-- A die cache holds some bytes: a write on its way, or an older value. -/
def dieHolds (s : State) (die key n : Nat) : Bool :=
  (aGet [] s.dieUp die).any (·.touches key n) || (aGet [] s.dieLag die).any (fun e => overlaps e.1 1 key n)

/-- The words with an uncorrectable error that a die cache holds (R406). An error is gone with the last byte of its word. -/
def dieBadWords (s : State) (die : Nat) : List Nat := (aGet [] s.dieBad die).filter (fun p => dieHolds s die p 8)

/-- A read of a byte at a scope's point takes it from a word of the die cache that carries an uncorrectable error. -/
def fromBadDie (s : State) (core : Nat) (sc : Scope) (key : Nat) (nc : Bool) : Bool :=
  (dieBadWords s (dieOf core)).any (fun p => overlaps p 8 key 1) && (upRd (getCore s core).up key).isNone &&
    ((upRd (aGet [] s.dieUp (dieOf core)) key).isSome ||
      (!(nc || 4 ≤ sc) && (3 ≤ sc || (aGet? (getCore s core).view key).isNone)))

/-- Of n bytes that a core reads at a scope's point, some come from a word with an uncorrectable error: of memory, or of the die cache.
Bytes that a write on its way or a sound cache supplies carry none (R116). -/
def poisonAt (s : State) (core : Nat) (sc : Scope) (key n : Nat) (nc : Bool) : Bool :=
  (List.range n).any (fun i => (poisonHit s (key + i) 1 && fromDevice s core sc (key + i) nc) || fromBadDie s core sc (key + i) nc)

/-- The same of a read in the core's view. -/
abbrev poisonSeen (s : State) (core key n : Nat) (nc : Bool) : Bool := poisonAt s core 2 key n nc

/-! ### Writes go up (R204 to R206) -/

/-- Who writes, as constant caches tell (R121): a strand, an engine operation of a cord, a unit of the package, or the host. -/
inductive Writer where
  | strand (k : Nat) | engine (cord : Nat) | unit | host
  deriving DecidableEq, Repr

/-- The least scope at which a cord covers another (R202). -/
def cordReach (cord other : Nat) : Nat :=
  if other = cord then 1 else if other / 16 = cord / 16 then 2 else if dieOf (other / 16) = dieOf (cord / 16) then 3 else 4

/-- The least scope of a fence of a cord that covers a writer, beside the writer's own .st (R202). -/
def Writer.reach (w : Writer) (cord : Nat) : Nat := match w with
  | .strand k => cordReach cord (k / 32)
  | .engine c => cordReach cord c
  | .unit => 4
  | .host => 5

/-- An older value takes note of a write that has superseded it. -/
def Held.note (h : Held) (w : Writer) : Held :=
  { h with need := min h.need (w.reach h.cord),
           own := match w with
             | .strand k => if k / 32 = h.cord then h.own ||| BitVec.twoPow 32 (k % 32) else h.own
             | _ => h.own }

/-- Constant caches do not snoop a write: the older values that they hold stay, and take note of its writer (R121). -/
def noteWrite (w : Writer) (key n : Nat) (s : State) : State :=
  if s.consts.isEmpty then s
  else { s with consts := s.consts.map (fun h => if overlaps h.key h.bytes.length key n then h.note w else h) }

/-- Under key index k, pool bytes that were written under another key read as what the decryption makes of them (R402). -/
def garble (s : State) (k pa n : Nat) : State :=
  { s with mem := (List.range n).foldl (fun m i => memWr m (physKey 1 k (pa + i)) (Config.garbledByte s.free (physKey 1 k (pa + i)))) s.mem }

/-- Pool bytes have been written under a key, in lines of 128 bytes: every other live key reads those lines garbled (R402). -/
def poolWritten (s : State) (key n : Nat) : State :=
  if tierOf key = 1 then
    let a := paOf key / 128 * 128
    let m := (paOf key + n + 127) / 128 * 128 - a
    let s := if s.lines.contains (a, m) then s else { s with lines := s.lines ++ [(a, m)] }
    (s.mgmt.keys.filter (· != extOf key)).foldl (fun s k => garble s k a m) s
  else s

/-- Bytes reach the device point. The system point of pool, host and peer memory keeps its older bytes until they move on (R202). A word
that is written whole is no longer poisoned. -/
def devWr (s : State) (key : Nat) (bs : List Byte) : State :=
  let far := 1 ≤ tierOf key && tierOf key ≤ 3
  let lag := if far then
      (List.range bs.length).foldl (fun l i => match aGet? l (key + i) with
        | some _ => l
        | none => aSet l (key + i) (memRd s.mem (key + i))) s.sysLag
    else s.sysLag
  poolWritten { s with mem := memWrN s.mem key bs, sysLag := lag, sysUp := if far then s.sysUp ++ pieces 8 key bs else s.sysUp,
                       poisoned := s.poisoned.filter (fun p => !(key ≤ p && p + 8 ≤ key + bs.length)) } key bs.length
    |> noteWrite .unit key bs.length

/-- The byte at the system point, which the host reads. -/
def sysRd (s : State) (key : Nat) : Byte := (aGet? s.sysLag key).getD (memRd s.mem key)

/-- An advance is counted on a vector (R344): where the count reaches its ring's threshold it is 0 again and an interrupt is due. -/
def countAdvance (s : State) (vec : Nat) : State :=
  let n := aGet 0 s.vecCount vec + 1
  let r : RingEnt := aGet {} s.rings vec
  if r.n != 0 && r.n ≤ n then { s with vecCount := aSet s.vecCount vec 0, dueIrq := s.dueIrq ++ [vec] }
  else { s with vecCount := aSet s.vecCount vec n }

/-- A write has reached the system point: it advances each enabled ring whose tail word it touches (R344). -/
def noteTails (s : State) (key n : Nat) : State :=
  if tierOf key != 2 then s
  else s.rings.foldl (fun s e =>
    let w := e.2.tail / 8 * 8
    if e.2.n != 0 && paOf key < w + 8 && w < paOf key + n then countAdvance s e.1 else s) s

/-- A write leaves for the system point; `rest` is what stays behind it. -/
def reachSys (s : State) (w : Committed) (rest : List Committed) : State :=
  let lag := w.bytes.zipIdx.foldl (fun l b => match upRd rest (w.key + b.2) with
    | some _ => aSet l (w.key + b.2) b.1
    | none => aDel l (w.key + b.2)) s.sysLag
  noteTails { s with sysLag := lag, sysUp := rest } w.key w.bytes.length

/-- The first n writes on their way reach the system point, in order. -/
def flushSysN : Nat → State → State
  | 0, s => s
  | n + 1, s => match s.sysUp with
    | [] => s
    | w :: ws => flushSysN n (reachSys s w ws)

/-- Every write on its way reaches the system point. -/
def flushSys (s : State) : State := flushSysN s.sysUp.length s

/-- The number of writes up to the last that overlaps some bytes. -/
def lastOverlap (key n : Nat) : List Committed → Nat
  | [] => 0
  | w :: ws =>
    let k := lastOverlap key n ws
    if k != 0 then k + 1 else if w.key < key + n && key < w.key + w.bytes.length then 1 else 0

/-- The writes that overlap some bytes reach the system point, with those before them. -/
def settleSys (s : State) (key n : Nat) : State := flushSysN (lastOverlap key n s.sysUp) s

/-- An error counter changes: vector 66 is raised (R394). -/
def countErrors (s : State) (ce ue : DWord) : State :=
  { s with mgmt := { s.mgmt with errce := s.mgmt.errce + ce, errue := s.mgmt.errue + ue }, irqs := aMod 0 s.irqs 66 (· + 1) }

/-- Moves the view of some bytes, with the units that hold them (R201), to the value of the point above. -/
def dropView (v : AMap (Byte × Nat)) (key n : Nat) : AMap (Byte × Nat) := v.filter (fun e => !overlaps (unitBase e.1) (unitOf e.1) key n)

/-- Some bytes have been read at the device point: the views below it move there, so that no later access goes back (R203). -/
def seeDevice (s : State) (core key n : Nat) : State :=
  let c := getCore s core
  let s := if c.view.isEmpty then s else setCore s core { c with view := dropView c.view key n }
  if s.dieLag.isEmpty then s else { s with dieLag := aSet s.dieLag (dieOf core) (dropView (aGet [] s.dieLag (dieOf core)) key n) }

/-- A write may move on: no older write of the list overlaps it (R206). -/
def mayMove (l : List Committed) (i : Nat) : Bool :=
  match l[i]? with
  | none => false
  | some c => (l.take i).all (fun d => !overlaps c.key c.bytes.length d.key d.bytes.length)

/-- The die point of a byte is its device point: the near store, and the local Tirral port (R202). -/
def dieIsDevice (key : Nat) : Bool := tierOf key = 0 || tierOf key = 3

/-- The words with an error that a die cache holds; where no error has ever been found in it, nothing is noted. -/
def soundDie (s : State) (die : Nat) (sound : Nat → Bool) : AMap (List Nat) :=
  if (aGet? s.dieBad die).isNone then s.dieBad else aSet s.dieBad die ((dieBadWords s die).filter (fun p => !sound p))

/-- A write reaches its die point (R202). A word of the die cache that it covers whole carries no error any more. -/
def reachDie (s : State) (die : Nat) (w : Committed) : State :=
  if dieIsDevice w.key then devWr s w.key w.bytes
  else { s with dieUp := aSet s.dieUp die (aGet [] s.dieUp die ++ [w]),
                dieBad := soundDie s die (fun p => w.key ≤ p && p + 8 ≤ w.key + w.bytes.length),
                dieLag := aSet s.dieLag die (dropView (aGet [] s.dieLag die) w.key w.bytes.length) }

/-- Splits writes into those that must go on before some bytes can, in order, and the rest: the writes that overlap the bytes, and the
older ones that overlap a write that goes on (R206). -/
def carry (key n : Nat) : List Committed → List Committed × List Committed
  | [] => ([], [])
  | w :: ws =>
    let r := carry key n ws
    if w.touches key n || r.1.any (fun x => w.touches x.key x.bytes.length) then (w :: r.1, r.2) else (r.1, w :: r.2)

/-- The writes of a core to some bytes reach the die point, in order, and its view of them moves there. -/
def settleUp (s : State) (core key n : Nat) : State :=
  let c := getCore s core
  let r := carry key n c.up
  r.1.foldl (fun s w => reachDie s (dieOf core) w) (setCore s core { c with up := r.2, view := dropView c.view key n })

/-- Words of memory carry an uncorrectable error. -/
def markBad (s : State) (ps : List Nat) : State :=
  if ps.isEmpty then s else { s with poisoned := s.poisoned ++ ps.filter (fun p => !s.poisoned.contains p) }

/-- Writes that have left a die point reach the device point, in order. Their words take an error of the die cache with them: bad lists those
that carry one. -/
def leaveDie (s : State) (bad : List Nat) (ws : List Committed) : State :=
  markBad (ws.foldl (fun s w => devWr s w.key w.bytes) s) (bad.filter (fun p => ws.any (·.touches p 8)))

/-- The writes of a die to some bytes reach the device point, in order, and the die point of them moves there. -/
def settleDie (s : State) (die key n : Nat) : State :=
  let r := carry key n (aGet [] s.dieUp die)
  leaveDie { s with dieUp := aSet s.dieUp die r.2, dieLag := aSet s.dieLag die (dropView (aGet [] s.dieLag die) key n) }
    (dieBadWords s die) r.1

/-- A write commits at the core point of a core (R204): every agent of the core sees it. A page that bypasses the caches takes it
at the device point, behind the writes to the same bytes that the core and its die have on their way (R206). -/
def commit (s : State) (core key : Nat) (bs : List Byte) (nc : Bool) : State :=
  if nc then devWr (settleDie (settleUp s core key bs.length) (dieOf core) key bs.length) key bs
  else
    let c := getCore s core
    setCore s core { c with view := dropView c.view key bs.length, up := c.up ++ pieces (unitOf key) key bs }

/-- The i-th committed write of a core reaches its die point. -/
def moveToDie (s : State) (core i : Nat) : State :=
  let c := getCore s core
  match c.up[i]? with
  | none => s
  | some w => if mayMove c.up i then reachDie (setCore s core { c with up := lDel c.up i }) (dieOf core) w else s

/-- The i-th write of a die point reaches the device point. -/
def moveToDevice (s : State) (die i : Nat) : State :=
  let l := aGet [] s.dieUp die
  match l[i]? with
  | none => s
  | some w => if mayMove l i then leaveDie { s with dieUp := aSet s.dieUp die (lDel l i) } (dieBadWords s die) [w] else s

/-- The i-th write at the device point reaches the system point. -/
def moveToSystem (s : State) (i : Nat) : State :=
  match s.sysUp[i]? with
  | none => s
  | some w => if mayMove s.sysUp i then reachSys s w (lDel s.sysUp i) else s

/-- Every committed write of a core reaches its die point, in order. -/
def flushDie (s : State) (core : Nat) : State :=
  let c := getCore s core
  c.up.foldl (fun s w => reachDie s (dieOf core) w) (setCore s core { c with up := [] })

/-- Every write of a die point reaches the device point, in order. -/
def flushDevice (s : State) (die : Nat) : State :=
  leaveDie { s with dieUp := aDel s.dieUp die } (dieBadWords s die) (aGet [] s.dieUp die)

/-- Every committed write of a core reaches the point of a scope (R207). -/
def flush (s : State) (core : Nat) (sc : Scope) : State :=
  if sc ≤ 2 then s
  else if sc = 3 then flushDie s core
  else
    let s := flushDevice (flushDie s core) (dieOf core)
    if sc = 4 then s else flushSys s

/-- Writes bytes of a scratchpad. A word that is written whole carries no error any more. -/
def Cord.padWr (c : Cord) (off : Nat) (bs : List Byte) : Cord :=
  { c with scratch := memWrN c.scratch off bs, bad := c.bad.filter (fun p => !(off ≤ p && p + 8 ≤ off + bs.length)) }

/-- Bytes of a cord's scratchpad carry an uncorrectable error (R406). -/
def padPoison (s : State) (cord off n : Nat) : Bool := (getCord s cord).bad.any (fun p => p < off + n && off < p + 8)

/-- A queued store writes some bytes of memory. -/
def QStore.touches (q : QStore) (key n : Nat) : Bool := !q.scratch && overlaps q.key q.bytes.length key n

/-- A fence of strand k at a scope that covers a writer drops what that writer has superseded (R121). The strand's own stores that are still
queued are covered too: what they supersede is dropped again when they commit. -/
def dropConsts (s : State) (k : Nat) (sc : Scope) : State :=
  let t := getStrand s k
  let s := if t.stores.isEmpty then s else setStrand s k { t with stores := t.stores.map (fun q => { q with fenced := true }) }
  if s.consts.isEmpty then s
  else { s with consts := s.consts.filter (fun h => !(h.cord == k / 32 && (h.need ≤ sc || h.own.getLsbD (k % 32)))) }

/-- A constant cache loses what it holds of some bytes. -/
def dropHeld (s : State) (cord key n : Nat) : State :=
  if s.consts.isEmpty then s
  else { s with consts := s.consts.filter (fun h => !(h.cord == cord && overlaps h.key h.bytes.length key n)) }

/-- One queued store of a cord commits (R204); a release first makes every committed write of the core reach its scope's point
(R207). -/
def commitStore (s : State) (core cord : Nat) (who : Writer) (q : QStore) : State :=
  if q.scratch then
    setCord s cord ((getCord s cord).padWr q.key q.bytes)
  else
    let s := noteWrite who q.key q.bytes.length (commit (flush s core q.rel) core q.key q.bytes q.nc)
    if q.fenced then dropHeld s cord q.key q.bytes.length else s

/-- The stores of the first word in a queue, and the rest. -/
def firstStore : List QStore → List QStore × List QStore
  | [] => ([], [])
  | q :: t => if q.more then (q :: (firstStore t).1, (firstStore t).2) else ([q], t)

/-- The stores of the oldest word of a strand commit in one step. -/
def commitFirst (s : State) (k : Nat) : State :=
  let t := getStrand s k
  (firstStore t.stores).1.foldl (fun s q => commitStore s (k / 512) (k / 32) (.strand k) q)
    (setStrand s k { t with stores := (firstStore t.stores).2 })

/-- Every store of a strand leaves its queue and commits, in order. -/
def drain (s : State) (k : Nat) : State :=
  let t := getStrand s k
  if t.stores.isEmpty then s
  else t.stores.foldl (fun s q => commitStore s (k / 512) (k / 32) (.strand k) q) (setStrand s k { t with stores := [] })

/-- A release of the strand in focus at a scope (R207). -/
def release (s : State) (sc : Scope) : State :=
  if sc = 0 then s else flush (drain s (focusStrand s)) s.focus.core sc

/-- An acquire of the strand in focus at a scope (R207). -/
def acquire (s : State) (sc : Scope) : State := refresh s s.focus.core sc

/-! ### Handles (R214 to R219) -/

/-- The fields of a handle. -/
def hIndex (h : DWord) : Nat := natBits h.toNat 0 40
def hGen (h : DWord) : Nat := natBits h.toNat 40 16
def hClass (h : DWord) : Nat := natBits h.toNat 56 6
def hWeak (h : DWord) : Bool := h.getLsbD 62
def isHandle (h : DWord) : Bool := h.getLsbD 63

/-- A handle of its fields. -/
def mkHandle (weak : Bool) (cls gen index : Nat) : DWord :=
  BitVec.ofNat 64 (2 ^ 63 + (if weak then 2 ^ 62 else 0) + cls * 2 ^ 56 + gen * 2 ^ 40 + index)

/-- An object table entry (R215). -/
structure Obj where
  addr  : Nat
  tier  : Nat
  cls   : Nat
  pri   : Nat
  st    : Nat
  sc    : Nat
  wc    : Nat
  gen   : Nat
  age   : Nat
  spec  : Nat
  deriving DecidableEq, Repr

/-- The entry of 32 bytes. -/
def Obj.ofBytes (bs : List Byte) : Obj :=
  let a := leAt bs 0 8
  let b := leAt bs 8 8
  { addr := natBits a 0 48, tier := natBits a 48 2, cls := natBits a 50 6, pri := natBits a 56 4, st := natBits a 60 2,
    sc := natBits b 0 24, wc := natBits b 24 24, gen := natBits b 48 16, age := leAt bs 16 8, spec := leAt bs 24 8 }

/-- The 32 bytes of an entry. -/
def Obj.toBytes (o : Obj) : List Byte :=
  leBytes 8 (o.addr + o.tier * 2 ^ 48 + o.cls * 2 ^ 50 + o.pri * 2 ^ 56 + o.st * 2 ^ 60) ++
    leBytes 8 (o.sc + o.wc * 2 ^ 24 + o.gen * 2 ^ 48) ++ leBytes 8 o.age ++ leBytes 8 o.spec

/-- The key of a job's object table entry: the table lies in the near store (R215). -/
def objKey (s : State) (job i : Nat) : Nat := physKey 0 0 ((aGet {} s.jobs job).tbase + 32 * i)

/-- Reads an object table entry at the device point. -/
def getObj (s : State) (job i : Nat) : Obj := .ofBytes (devRdN s (objKey s job i) 32)

/-- Writes an object table entry at the device point. -/
def setObj (s : State) (job i : Nat) (o : Obj) : State := devWr s (objKey s job i) o.toBytes

/-- The size of an object. -/
def Obj.size (o : Obj) : Nat := 2 ^ (o.cls + 6)

/-- The checks of R218 up to the W column: the handle is well formed and its class is the entry's. -/
def handleForm (s : State) (job : Nat) (h : DWord) : Bool :=
  isHandle h && hClass h ≤ 25 && hIndex h < (aGet {} s.jobs job).tlen && (getObj s job (hIndex h)).cls == hClass h

/-- The object is alive under this generation (R218). -/
def handleAlive (s : State) (job : Nat) (h : DWord) : Bool :=
  let o := getObj s job (hIndex h)
  o.gen == hGen h && o.st == 1

/-- The place of n bytes at a displacement in the object of an entry (R219). -/
def objectPlace (s : State) (job i : Nat) (disp : Int) (n : Nat) : Except TrapCode Place :=
  let o := getObj s job i
  if disp < 0 || (o.size : Int) < disp + n then .error .memfault
  else if !backed s o.tier (o.addr + disp.toNat) || !extLive s o.tier job then .error .memfault
  else .ok { key := jobKey job o.tier (o.addr + disp.toNat) }

/-- The place of n bytes at a displacement through a strong handle, or the trap of R218. -/
def handlePlace (s : State) (job : Nat) (h : DWord) (disp : Int) (n : Nat) : Except TrapCode Place :=
  if !handleForm s job h then .error .memfault
  else if hWeak h then .error .weakuse
  else if !handleAlive s job h then .error .memfault
  else objectPlace s job (hIndex h) disp n

/-- Reads n bytes for a job at an address or a handle with displacement 0, at the device point, without a cache of translations:
the accesses of the dispatcher, the graph unit and Tilth. -/
def unitPlace (s : State) (job : Nat) (a : DWord) (n : Nat) (need : Need) : Option Place :=
  if isHandle a then (match handlePlace s job a 0 n with | .ok p => some p | .error _ => none)
  else translate s none job a need

/-! ### The scratchpad (R115, R119) -/

/-- n bytes of a cord's scratchpad. -/
def scratchRd (c : Cord) (off n : Nat) : List Byte := memRdN c.scratch off n

/-- n bytes at an offset lie below SPSIZE. -/
def scratchIn (c : Cord) (off n : Nat) : Bool := off + n ≤ c.hdr.scratch

/-- Writes bytes of a cord's scratchpad. -/
def scratchWr (s : State) (cord off : Nat) (bs : List Byte) : State :=
  setCord s cord ((getCord s cord).padWr off bs)

end Sys2Proof.Machine
end

