-- ==== Sys2Proof/Machine/Operands.lean ====
section
/-! DEFINITION. Operand values of every form (R18, R19, R21, R75, R76) and the ways a word writes its results. -/

namespace Sys2Proof.Machine

/-- The immediate as operand B (R21). -/
def immValue (ty : ETy) (imm : BitVec 16) : DWord :=
  match ty with
  | .s32 => (imm.signExtend 32).setWidth 64
  | .w32 => imm.setWidth 64
  | .f32 => (imm ++ (0 : BitVec 16) : Word).setWidth 64
  | .bf16x2 => (imm ++ imm : Word).setWidth 64
  | .f16x2 => (imm ++ imm : Word).setWidth 64
  | .n8x4 =>
    let lo := imm.extractLsb' 0 8
    let hi := imm.extractLsb' 8 8
    (hi ++ lo ++ hi ++ lo : Word).setWidth 64
  | .s64 => imm.signExtend 64
  | .w64 => imm.setWidth 64

/-- The value of an operand of one or two registers in a lane, as operand n of the word (R18, R19). -/
def operand (s : State) (w : SWord) (n : Nat) (x : BitVec 8) (regs : Nat) (l : Lane) : DWord :=
  if isVector x then
    if regs = 2 then pairOf (readV s n x.toNat l) (readV s n (x.toNat + 1) l) else (readV s n x.toNat l).setWidth 64
  else if isScalar x then
    let r := x.toNat - 0xC0
    if regs = 2 then pairOf (readS s n r) (readS s n (r + 1)) else (readS s n r).setWidth 64
  else if x = 0xFF then immValue w.ty w.imm
  else 0

/-- The registers of a group of four, or fewer, in a lane, lowest first. -/
def groupVal (s : State) (n : Nat) (x : BitVec 8) (regs : Nat) (l : Lane) : List Word :=
  (List.range regs).map (fun i =>
    if isVector x then readV s n (x.toNat + i) l
    else if isScalar x then readS s n (x.toNat - 0xC0 + i) else 0)

/-- D, A, B and C as the type reads them (R75). -/
def opD (s : State) (w : SWord) (l : Lane) : DWord := operand s w 0 w.d w.ty.regs l
def opA (s : State) (w : SWord) (l : Lane) : DWord := operand s w 1 w.a w.ty.regs l
def opB (s : State) (w : SWord) (l : Lane) : DWord := operand s w 2 w.b w.ty.regs l
def opC (s : State) (w : SWord) (l : Lane) : DWord := operand s w 3 w.c w.ty.regs l

/-- D, A, B and C as 32-bit operands. -/
def opD1 (s : State) (w : SWord) (l : Lane) : Word := loW (operand s w 0 w.d 1 l)
def opA1 (s : State) (w : SWord) (l : Lane) : Word := loW (operand s w 1 w.a 1 l)
def opB1 (s : State) (w : SWord) (l : Lane) : Word := loW (operand s w 2 w.b 1 l)
def opC1 (s : State) (w : SWord) (l : Lane) : Word := loW (operand s w 3 w.c 1 l)

/-- D, A, B and C as 64-bit operands. -/
def opA2 (s : State) (w : SWord) (l : Lane) : DWord := operand s w 1 w.a 2 l
def opB2 (s : State) (w : SWord) (l : Lane) : DWord := operand s w 2 w.b 2 l
def opC2 (s : State) (w : SWord) (l : Lane) : DWord := operand s w 3 w.c 2 l

/-- The lane that stands for a once-executed word: the lowest active lane that the guard enables (R26, R76). -/
def onceLane (s : State) (w : SWord) : Option Lane := lowestLane (enabled s w)

/-- The lanes in which a word computes: one, where its destination is scalar (R19). -/
def computeLanes (s : State) (w : SWord) : LaneMask :=
  if isScalar w.d then (match onceLane s w with | some l => laneBit l | none => 0) else enabled s w

/-- The OR of the flags of some lanes. -/
def flagsOf (m : LaneMask) (f : Lane → Flags) : Flags := (lanesOf m).foldl (fun a l => a ||| f l) 0

/-- Writes one result of one or two registers in D, at once or outstanding (R22), with its flags. -/
def result (w : SWord) (cls : Cls) (n : Nat) (f : Lane → DWord × Flags) (s : State) : State :=
  let en := computeLanes s w
  let fl := flagsOf en (fun l => (f l).2)
  let t := match cls.lat with
    | none => putReg (me s) w.d n en (fun l => (f l).1)
    | some c => pushPend (me s) c (regWrites w.d n en (fun l => (f l).1)) [] (curClause s).hdr (curClause s).word
  orFlags (setMe s t) fl

/-- The body of a word that computes a 32- or 64-bit result in each lane. -/
def lanes (cls : Cls) (n : SWord → Nat) (f : SWord → State → Lane → DWord × Flags) (w : SWord) (s : State) : Res :=
  .done (result w cls (n w) (f w s) s)

/-- The body of a word that computes a predicate in each enabled lane, at once (R76). -/
def predResult (f : SWord → State → Lane → Bool × Flags) (w : SWord) (s : State) : Res :=
  let en := enabled s w
  .done (orFlags (setMe s (putP (me s) w.d.toNat en (fun l => (f w s l).1))) (flagsOf en (fun l => (f w s l).2)))

/-- Writes a predicate in every enabled lane, at once (R76). -/
def putPred (s : State) (w : SWord) (i : Nat) (v : Bool) : State := setMe s (putP (me s) i (enabled s w) (fun _ => v))

/-- Writes a 32-bit or 64-bit value to D: once for a scalar, in every enabled lane of a vector (R19). -/
def putD (s : State) (w : SWord) (n : Nat) (v : DWord) : State := setMe s (putReg (me s) w.d n (enabled s w) (fun _ => v))

/-- Runs a body once for the strand, where some active lane is enabled (R26). -/
def once (f : SWord → Lane → State → Res) (w : SWord) (s : State) : Res :=
  match onceLane s w with
  | none => .done s
  | some l => f w l s

/-- The number of registers by type. -/
def byType (w : SWord) : Nat := w.ty.regs
/-- A destination of one register. -/
def oneReg (_ : SWord) : Nat := 1
/-- A destination of a pair. -/
def twoRegs (_ : SWord) : Nat := 2

/-- An integer function of the type's width on one, two or three operands, widened to 64 bits. -/
def atWidth1 (w : SWord) (f : (n : Nat) → BitVec n → BitVec n) (a : DWord) : DWord :=
  if w.ty.wide then f 64 a else (f 32 (loW a)).setWidth 64
def atWidth2 (w : SWord) (f : (n : Nat) → BitVec n → BitVec n → BitVec n) (a b : DWord) : DWord :=
  if w.ty.wide then f 64 a b else (f 32 (loW a) (loW b)).setWidth 64
def atWidth3 (w : SWord) (f : (n : Nat) → BitVec n → BitVec n → BitVec n → BitVec n) (a b c : DWord) : DWord :=
  if w.ty.wide then f 64 a b c else (f 32 (loW a) (loW b) (loW c)).setWidth 64

/-- The bodies of the integer words that set no flag. -/
def int1 (f : SWord → (n : Nat) → BitVec n → BitVec n) (w : SWord) (s : State) : Res :=
  lanes .fixed byType (fun w s l => (atWidth1 w (f w) (opA s w l), 0)) w s
def int2 (f : SWord → (n : Nat) → BitVec n → BitVec n → BitVec n) (w : SWord) (s : State) : Res :=
  lanes .fixed byType (fun w s l => (atWidth2 w (f w) (opA s w l) (opB s w l), 0)) w s
def int3 (f : SWord → (n : Nat) → BitVec n → BitVec n → BitVec n → BitVec n) (w : SWord) (s : State) : Res :=
  lanes .fixed byType (fun w s l => (atWidth3 w (f w) (opA s w l) (opB s w l) (opC s w l), 0)) w s
def word3 (f : SWord → Word → Word → Word → Word) (w : SWord) (s : State) : Res :=
  lanes .fixed oneReg (fun w s l => ((f w (opA1 s w l) (opB1 s w l) (opC1 s w l)).setWidth 64, 0)) w s

end Sys2Proof.Machine
end

