-- ==== Sys2Proof/Machine/Flags.lean ====
section
/-! DEFINITION. Every flag and condition computation of the reference chapters: integer and float conditions (R79), carry (R80),
clamps that set SAT (R82, R99), the flags of a rounded float result (R88), and the arming of the sticky flags (R57, R58, R192). -/

namespace Sys2Proof.Machine

/-- The condition of an integer comparison at a width, signed for S types (R79). -/
def intCondHolds (cc : Nat) (signed : Bool) (n : Nat) (a b : BitVec n) : Bool :=
  let lt (x y : BitVec n) : Bool := if signed then x.slt y else x.ult y
  match cc with
  | 0 => a == b
  | 1 => a != b
  | 2 => lt a b
  | 3 => !lt b a
  | 4 => lt b a
  | _ => !lt a b

/-- The condition of an ICMP or ISET word in a lane. -/
def wordCond (w : SWord) (s : State) (l : Lane) : Bool :=
  if w.ty.wide then intCondHolds w.c.toNat w.ty.signed 64 (opA s w l) (opB s w l)
  else intCondHolds w.c.toNat w.ty.signed 32 (loW (opA s w l)) (loW (opB s w l))

/-- The unsigned sum with a carry in, and the carry out (R80). -/
def addCarry (n : Nat) (a b : BitVec n) (c : Bool) : BitVec n × Bool :=
  let t := a.toNat + b.toNat + c.toNat
  (BitVec.ofNat n t, 2 ^ n ≤ t)

/-- A clamp with SAT where it changes the value (R82, R99). -/
def clampSat (lo hi x : Int) : Int × Flags := (clampInt lo hi x, flagIf (clampInt lo hi x != x) fSAT)

/-- The integer range of n bits. -/
def intRange (signed : Bool) (n : Nat) : Int × Int :=
  if signed then (-(2 ^ (n - 1) : Nat), (2 ^ (n - 1) : Nat) - 1) else (0, (2 ^ n : Nat) - 1)

/-- The modifiers of a float word in register form (R21, R72): rounding, saturate, negate A, negate B. The immediate form has
none. -/
def roundOf (w : SWord) : RM := if w.isImm then .rne else .ofBits (w.bits 0 2)
def satOf (w : SWord) : Bool := !w.isImm && w.bits 2 1 == 1
def negA (w : SWord) : Bool := !w.isImm && w.bits 3 1 == 1
def negB (w : SWord) : Bool := !w.isImm && w.bits 4 1 == 1

/-- Flips the sign bit of an operand, of both halves for a pair type (R72). -/
def flipSign (ty : ETy) (x : Word) : Word := match ty with
  | .bf16x2 | .f16x2 => x ^^^ 0x80008000
  | .n8x4 => x
  | _ => x ^^^ 0x80000000

/-- A and B of a float word, after their negations. -/
def flA (s : State) (w : SWord) (l : Lane) : Word := if negA w then flipSign w.ty (opA1 s w l) else opA1 s w l
def flB (s : State) (w : SWord) (l : Lane) : Word := if negB w then flipSign w.ty (opB1 s w l) else opB1 s w l

/-- The format of a float type's elements. -/
def fmtOf (ty : ETy) : Fmt := match ty with
  | .bf16x2 => bf16
  | .f16x2 => f16
  | _ => f32

/-- Applies an element function to each half of a pair type, or to the whole word, and ORs the flags (R32). -/
def eachElem (ty : ETy) (f : Fmt → Nat → Nat → Nat → Nat × Flags) (a b c : Word) : DWord × Flags :=
  match ty with
  | .bf16x2 | .f16x2 =>
    let g := f (fmtOf ty)
    let lo := g (a.toNat % 2 ^ 16) (b.toNat % 2 ^ 16) (c.toNat % 2 ^ 16)
    let hi := g (a.toNat / 2 ^ 16) (b.toNat / 2 ^ 16) (c.toNat / 2 ^ 16)
    (BitVec.ofNat 64 (lo.1 + 2 ^ 16 * hi.1), lo.2 ||| hi.2)
  | _ =>
    let r := f f32 a.toNat b.toNat c.toNat
    (BitVec.ofNat 64 r.1, r.2)

/-- Rounds an exact result once, with the flags of its computation (R88). -/
def roundResult (f : Fmt) (mode : RM) (sat : Bool) (x : FV × Flags) : Nat × Flags :=
  let p := f.pack mode sat x.1
  (p.1, p.2 ||| x.2)

/-- SFLAGS may hold bits [6:0] (R56, R57). -/
def sflagMask : Word := 0x7F

/-- Replaces SFLAGS: a flag that goes from 0 to 1 while armed latches STICKY (R58). -/
def Cord.setFlags (c : Cord) (v : Word) : Cord := { c with sflags := v, sticky := c.sticky ||| (v &&& ~~~c.sflags &&& c.sarm) }

/-- Replaces SARM: arming a flag that is already set latches STICKY (R58). -/
def Cord.setArm (c : Cord) (v : Word) : Cord := { c with sarm := v, sticky := c.sticky ||| (v &&& ~~~c.sarm &&& c.sflags) }

end Sys2Proof.Machine
end

