-- ==== Sys2Proof/Machine/Alu.lean ====
section
/-! DEFINITION. Moves, integer arithmetic, logic, shifts, bit fields, comparisons and predicate logic: strand opcodes 0x00 to 0x05
and 0x08 to 0x2F (R77 to R86). -/

namespace Sys2Proof.Machine

/-- What a meaning answers: every strand word makes a next state. -/
abbrev Out := Host.Outcome State Fault Refusal

/-! ### Bit functions (R83, R84) -/

/-- The shift count: B's low byte. -/
def shCount (n : Nat) (b : BitVec n) : Nat := b.toNat % 256

def shlBits (n : Nat) (a b : BitVec n) : BitVec n := if shCount n b < n then a <<< shCount n b else 0
def shrBits (n : Nat) (a b : BitVec n) : BitVec n := if shCount n b < n then a >>> shCount n b else 0
/-- SAR reads A as signed for every type, and sign-fills past the width. -/
def sarBits (n : Nat) (a b : BitVec n) : BitVec n := a.sshiftRight (shCount n b)
def rotlBits (n : Nat) (a b : BitVec n) : BitVec n := a.rotateLeft (shCount n b % n)

/-- The position and length of a bit field. -/
def fieldPos (b : Word) : Nat := b.toNat % 256
def fieldLen (b : Word) : Nat := min (b.toNat / 256 % 256) 32

def bfxBits (signed : Bool) (a b : Word) : Word :=
  let len := fieldLen b
  let f := if fieldPos b < 32 then a.toNat / 2 ^ fieldPos b % 2 ^ len else 0
  if signed && 1 ≤ len then BitVec.ofInt 32 (signedOf len f) else BitVec.ofNat 32 f

def bfiBits (a b c : Word) : Word :=
  let m : Word := BitVec.ofNat 32 ((2 ^ fieldLen b - 1) * 2 ^ fieldPos b)
  (c &&& ~~~m) ||| ((a <<< fieldPos b) &&& m)

/-- The number of 1 bits. -/
def popBits (n : Nat) (a : BitVec n) : Nat := popBelow a.toNat n
/-- The number of leading 0 bits: n for 0. -/
def clzBits (n : Nat) (a : BitVec n) : Nat := n - bitLen a.toNat
/-- The number of trailing 0 bits from bit i up. -/
def ctzFrom (v : Nat) : Nat → Nat → Nat
  | 0, i => i
  | k + 1, i => if v / 2 ^ i % 2 = 1 then i else ctzFrom v k (i + 1)
/-- The number of trailing 0 bits: n for 0. -/
def ctzBits (n : Nat) (a : BitVec n) : Nat := ctzFrom a.toNat n 0
/-- Bits in the opposite order. -/
def revFrom (v : Nat) : Nat → Nat → Nat
  | 0, acc => acc
  | k + 1, acc => revFrom (v / 2) k (2 * acc + v % 2)
def brevBits (n : Nat) (a : BitVec n) : BitVec n := BitVec.ofNat n (revFrom a.toNat n 0)

/-- Byte i of a number. -/
def byteAt (v i : Nat) : Nat := v / 2 ^ (8 * i) % 256

/-- One byte of BPRM. -/
def bprmByte (ab c i : Nat) : Nat :=
  let sel := c / 2 ^ (4 * i) % 16
  let src := byteAt ab (sel % 8)
  if 8 ≤ sel then (if 128 ≤ src then 255 else 0) else src

def bprmBits (a b c : Word) : Word :=
  let ab := a.toNat + 2 ^ 32 * b.toNat
  BitVec.ofNat 32 (bprmByte ab c.toNat 0 + 2 ^ 8 * bprmByte ab c.toNat 1 + 2 ^ 16 * bprmByte ab c.toNat 2 +
    2 ^ 24 * bprmByte ab c.toNat 3)

def fshfBits (a b c : Word) : Word := BitVec.ofNat 32 ((a.toNat + 2 ^ 32 * b.toNat) / 2 ^ (c.toNat % 64))

/-- A three-input table applied bit by bit (R84): bit a + 2b + 4c of tt. -/
def lutBits (tt : BitVec 8) (n : Nat) (a b c : BitVec n) : BitVec n :=
  let pick (i : Nat) (x y z : BitVec n) : BitVec n := if tt.getLsbD i then x &&& y &&& z else 0
  pick 0 (~~~a) (~~~b) (~~~c) ||| pick 1 a (~~~b) (~~~c) ||| pick 2 (~~~a) b (~~~c) ||| pick 3 a b (~~~c) |||
    pick 4 (~~~a) (~~~b) c ||| pick 5 a (~~~b) c ||| pick 6 (~~~a) b c ||| pick 7 a b c

/-- The sum of the products of the elements of width k: bytes for IDOT4, halves for IDOT2. -/
def dotInt (signed : Bool) (k : Nat) : Nat → Nat → Nat → Int
  | 0, _, _ => 0
  | i + 1, a, b =>
    let e (v : Nat) : Int := let x := v / 2 ^ (k * i) % 2 ^ k; if signed then signedOf k x else x
    e a * e b + dotInt signed k i a b

/-- A value as the type's signed or unsigned integer. -/
def intOf (signed : Bool) (n : Nat) (a : BitVec n) : Int := if signed then a.toInt else a.toNat

def minBits (signed larger : Bool) (n : Nat) (a b : BitVec n) : BitVec n :=
  if (intOf signed n a ≤ intOf signed n b) != larger then a else b

def mulhBits (signed : Bool) (n : Nat) (a b : BitVec n) : BitVec n :=
  BitVec.ofInt n (intOf signed n a * intOf signed n b / 2 ^ n)

/-- Division with truncation toward zero (R81). -/
def divBits (signed : Bool) (n : Nat) (a b : BitVec n) : BitVec n × Flags :=
  if b = 0 then (BitVec.allOnes n, fDZ) else (BitVec.ofInt n ((intOf signed n a).tdiv (intOf signed n b)), 0)

/-- The remainder, with the sign of the dividend (R81). -/
def remBits (signed : Bool) (n : Nat) (a b : BitVec n) : BitVec n × Flags :=
  if b = 0 then (a, fDZ) else (BitVec.ofInt n ((intOf signed n a).tmod (intOf signed n b)), 0)

/-- A function with flags at the type's width. -/
def atWidthF (w : SWord) (f : (n : Nat) → BitVec n → BitVec n → BitVec n × Flags) (a b : DWord) : DWord × Flags :=
  if w.ty.wide then f 64 a b
  else let r := f 32 (loW a) (loW b); (r.1.setWidth 64, r.2)

/-! ### Moves (R78) -/

def execNop (w : SWord) (s : State) : Out := .next (runWord (.nop w) (fun _ s => .done s) s)
def execMov (w : SWord) (s : State) : Out := .next (runWord (.mov w) (lanes .fixed byType (fun w s l => (opA s w l, 0))) s)
def execMovi (w : SWord) (s : State) : Out := .next (runWord (.movi w) (lanes .fixed byType (fun w _ _ => (immValue w.ty w.imm, 0))) s)
def execMovh (w : SWord) (s : State) : Out :=
  .next (runWord (.movh w) (lanes .fixed oneReg (fun w s l => ((w.imm ++ (opD1 s w l).extractLsb' 0 16 : Word).setWidth 64, 0))) s)
def execSel (w : SWord) (s : State) : Out :=
  .next (runWord (.sel w) (lanes .fixed byType (fun w s l => (if readP s w.c.toNat l then opA s w l else opB s w l, 0))) s)
def execLea (w : SWord) (s : State) : Out :=
  .next (runWord (.lea w) (lanes .fixed twoRegs (fun w s l =>
    let b := opB1 s w l
    (opA2 s w l + ((if w.ty.signed then b.signExtend 64 else b.setWidth 64) <<< w.c.toNat), 0))) s)

/-! ### Integer arithmetic (R80 to R82) -/

def execIadd (w : SWord) (s : State) : Out := .next (runWord (.iadd w) (int2 (fun _ _ a b => a + b)) s)
def execIsub (w : SWord) (s : State) : Out := .next (runWord (.isub w) (int2 (fun _ _ a b => a - b)) s)

/-- IADDC's sum and carry in a lane. -/
def iaddcLane (w : SWord) (s : State) (l : Lane) : DWord × Bool :=
  let c := readP s w.c.toNat l
  if w.ty.wide then addCarry 64 (opA s w l) (opB s w l) c
  else let r := addCarry 32 (loW (opA s w l)) (loW (opB s w l)) c; (r.1.setWidth 64, r.2)

/-- IADDC (R80): the carry out goes to p[C] in each enabled lane; with a scalar destination it is computed once (R76). With D = z each
lane computes its own carry from its own p[C] (DEDUCED, log entry 59). -/
def iaddcBody (w : SWord) (s : State) : Res :=
  let at' (l : Lane) : DWord × Bool :=
    if isScalar w.d then iaddcLane w s ((onceLane s w).getD l) else iaddcLane w s l
  let t := putReg (me s) w.d w.ty.regs (enabled s w) (fun l => (at' l).1)
  .done (setMe s (putP t w.c.toNat (enabled s w) (fun l => (at' l).2)))

def execIaddc (w : SWord) (s : State) : Out := .next (runWord (.iaddc w) iaddcBody s)
def execImul (w : SWord) (s : State) : Out := .next (runWord (.imul w) (int2 (fun _ _ a b => a * b)) s)
def execImulh (w : SWord) (s : State) : Out := .next (runWord (.imulh w) (int2 (fun w n a b => mulhBits w.ty.signed n a b)) s)
def execImad (w : SWord) (s : State) : Out := .next (runWord (.imad w) (int3 (fun _ _ a b c => a * b + c)) s)
def execImadw (w : SWord) (s : State) : Out :=
  .next (runWord (.imadw w) (lanes .fixed twoRegs (fun w s l =>
    let ext (x : Word) : DWord := if w.ty.signed then x.signExtend 64 else x.setWidth 64
    (ext (opA1 s w l) * ext (opB1 s w l) + opC2 s w l, 0))) s)
def execIdiv (w : SWord) (s : State) : Out :=
  .next (runWord (.idiv w) (lanes .xu byType (fun w s l => atWidthF w (divBits w.ty.signed) (opA s w l) (opB s w l))) s)
def execIrem (w : SWord) (s : State) : Out :=
  .next (runWord (.irem w) (lanes .xu byType (fun w s l => atWidthF w (remBits w.ty.signed) (opA s w l) (opB s w l))) s)
def execImin (w : SWord) (s : State) : Out := .next (runWord (.imin w) (int2 (fun w n a b => minBits w.ty.signed false n a b)) s)
def execImax (w : SWord) (s : State) : Out := .next (runWord (.imax w) (int2 (fun w n a b => minBits w.ty.signed true n a b)) s)
def execIabs (w : SWord) (s : State) : Out := .next (runWord (.iabs w) (int1 (fun _ _ a => if a.msb then -a else a)) s)
def execIneg (w : SWord) (s : State) : Out := .next (runWord (.ineg w) (int1 (fun _ _ a => -a)) s)

/-- ISAT's clamp: A is read as signed for both types (R82). -/
def isatBits (signed : Bool) (a b : Word) : Word × Flags :=
  let n := min (max b.toNat 1) 32
  let r := intRange signed n
  let c := clampSat r.1 r.2 a.toInt
  (BitVec.ofInt 32 c.1, c.2)

def execIsat (w : SWord) (s : State) : Out :=
  .next (runWord (.isat w) (lanes .fixed oneReg (fun w s l =>
    let r := isatBits w.ty.signed (opA1 s w l) (opB1 s w l); (r.1.setWidth 64, r.2))) s)

/-! ### Logic, shifts and bit fields (R83) -/

def execAnd (w : SWord) (s : State) : Out := .next (runWord (.and w) (int2 (fun _ _ a b => a &&& b)) s)
def execOr (w : SWord) (s : State) : Out := .next (runWord (.or w) (int2 (fun _ _ a b => a ||| b)) s)
def execXor (w : SWord) (s : State) : Out := .next (runWord (.xor w) (int2 (fun _ _ a b => a ^^^ b)) s)
def execAndn (w : SWord) (s : State) : Out := .next (runWord (.andn w) (int2 (fun _ _ a b => a &&& ~~~b)) s)
def execNot (w : SWord) (s : State) : Out := .next (runWord (.not w) (int1 (fun _ _ a => ~~~a)) s)

/-- A shift: B is one 32-bit register, or the immediate's low word. -/
def shift (f : (n : Nat) → BitVec n → BitVec n → BitVec n) (w : SWord) (s : State) : Res :=
  lanes .fixed byType (fun w s l => (atWidth2 w f (opA s w l) ((opB1 s w l).setWidth 64), 0)) w s

def execShl (w : SWord) (s : State) : Out := .next (runWord (.shl w) (shift shlBits) s)
def execShr (w : SWord) (s : State) : Out := .next (runWord (.shr w) (shift shrBits) s)
def execSar (w : SWord) (s : State) : Out := .next (runWord (.sar w) (shift sarBits) s)
def execRotl (w : SWord) (s : State) : Out := .next (runWord (.rotl w) (shift rotlBits) s)
def execBfx (w : SWord) (s : State) : Out :=
  .next (runWord (.bfx w) (lanes .fixed oneReg (fun w s l => ((bfxBits w.ty.signed (opA1 s w l) (opB1 s w l)).setWidth 64, 0))) s)
def execBfi (w : SWord) (s : State) : Out := .next (runWord (.bfi w) (word3 (fun _ a b c => bfiBits a b c)) s)

/-- A count of bits into a 32-bit destination. -/
def bitCount (f : (n : Nat) → BitVec n → Nat) (w : SWord) (s : State) : Res :=
  lanes .fixed oneReg (fun w s l =>
    (BitVec.ofNat 64 (if w.ty.wide then f 64 (opA s w l) else f 32 (loW (opA s w l))), 0)) w s

def execPopc (w : SWord) (s : State) : Out := .next (runWord (.popc w) (bitCount popBits) s)
def execClz (w : SWord) (s : State) : Out := .next (runWord (.clz w) (bitCount clzBits) s)
def execCtz (w : SWord) (s : State) : Out := .next (runWord (.ctz w) (bitCount ctzBits) s)
def execBrev (w : SWord) (s : State) : Out := .next (runWord (.brev w) (int1 (fun _ n a => brevBits n a)) s)
def execBprm (w : SWord) (s : State) : Out := .next (runWord (.bprm w) (word3 (fun _ a b c => bprmBits a b c)) s)

/-! ### Comparisons and predicates (R76, R79, R84, R85) -/

def execIcmp (w : SWord) (s : State) : Out := .next (runWord (.icmp w) (predResult (fun w s l => (wordCond w s l, 0))) s)
def execIset (w : SWord) (s : State) : Out :=
  .next (runWord (.iset w) (lanes .fixed oneReg (fun w s l => (if wordCond w s l then 0xFFFFFFFF else 0, 0))) s)

/-- The table byte of PLOG and BLUT. -/
def lutOf (w : SWord) : BitVec 8 := BitVec.ofNat 8 (w.bits 0 8)

def execPlog (w : SWord) (s : State) : Out :=
  .next (runWord (.plog w) (predResult (fun w s l =>
    ((lutOf w).getLsbD ((readP s w.a.toNat l).toNat + 2 * (readP s w.b.toNat l).toNat + 4 * (readP s w.c.toNat l).toNat), 0))) s)

/-- Writes the predicates of a mask, lowest first, from the bits of a register (R85). -/
def putPreds (en : LaneMask) (mask : Nat) (v : Lane → Word) : Nat → Strand → Strand
  | 0, t => t
  | i + 1, t =>
    let t := putPreds en mask v i t
    if mask / 2 ^ i % 2 = 1 then putP t i en (fun l => (v l).getLsbD i) else t

/-- PMOV (R85). DEDUCED (log entry 50): R76 has PMOV from a predicate with a scalar destination read it in the lowest enabled lane, and mode
10 of R85 gives D[l] the predicate of each enabled lane l; the model follows R85, the rule of the instruction. -/
def pmovBody (w : SWord) (s : State) : Res :=
  let en := enabled s w
  match w.bits 0 2 with
  | 0 => .done (setMe s (putReg (me s) w.d 1 en (fun l =>
      BitVec.ofNat 64 ((List.range 8).foldl (fun a i => a + (readP s i l).toNat * 2 ^ i) 0))))
  | 1 => .done (setMe s (putPreds en (w.bits 8 8) (opA1 s w) 8 (me s)))
  | 2 => .done (setMe s (putReg (me s) w.d 1 en (fun _ =>
      (maskOf (fun l => inMask en l && readP s (w.bits 8 3) l)).setWidth 64)))
  | _ => .done (setMe s (putP (me s) (w.bits 8 3) en (fun l => (opA1 s w l).getLsbD l.val)))

def execPmov (w : SWord) (s : State) : Out := .next (runWord (.pmov w) pmovBody s)

/-! ### Dot products, tables and the hash (R80, R84, R86) -/

def execIdot4 (w : SWord) (s : State) : Out :=
  .next (runWord (.idot4 w) (word3 (fun w a b c => c + BitVec.ofInt 32 (dotInt w.ty.signed 8 4 a.toNat b.toNat))) s)
def execIdot2 (w : SWord) (s : State) : Out :=
  .next (runWord (.idot2 w) (word3 (fun w a b c => c + BitVec.ofInt 32 (dotInt w.ty.signed 16 2 a.toNat b.toNat))) s)
def execIadd3 (w : SWord) (s : State) : Out := .next (runWord (.iadd3 w) (int3 (fun _ _ a b c => a + b + c)) s)
def execBlut (w : SWord) (s : State) : Out := .next (runWord (.blut w) (int3 (fun w n a b c => lutBits (lutOf w) n a b c)) s)
def execRhash (w : SWord) (s : State) : Out :=
  .next (runWord (.rhash w) (lanes .fixed oneReg (fun w s l => ((rhashOf (opA2 s w l) (opB1 s w l)).setWidth 64, 0))) s)
def execFshf (w : SWord) (s : State) : Out := .next (runWord (.fshf w) (word3 (fun _ a b c => fshfBits a b c)) s)

end Sys2Proof.Machine
end

