-- ==== Sys2Proof/WellFormed.lean ====
section
/-! DEFINITION. When an instruction is well formed: a strand word passes step 2 of R27, a capstan word passes step 3 of R64, a
word of an unassigned opcode has one (R68). Steps of the device carry no encoding. The tables stand in Machine/Forms.lean. -/

namespace Sys2Proof

/-- The assigned strand opcodes (R65). -/
def strandAssigned (op : Nat) : Bool :=
  op ≤ 0x4D || (0x50 ≤ op && op ≤ 0x59) || (0x60 ≤ op && op ≤ 0x6A) || (0x70 ≤ op && op ≤ 0x7C) || (0x80 ≤ op && op ≤ 0x99) ||
    (0xA0 ≤ op && op ≤ 0xAC) || (0xB0 ≤ op && op ≤ 0xBA) || (0xC0 ≤ op && op ≤ 0xC8) || (0xD0 ≤ op && op ≤ 0xD4)

/-- The assigned capstan opcodes (R67). -/
def capstanAssigned (op : Nat) : Bool := op ≤ 0x2F

/-- An instruction is well formed. -/
def Instr.wf (i : Instr) : Bool :=
  match Machine.strandForm i with
  | some (w, f) => f.wf w
  | none => match Machine.capstanForm i with
    | some (w, f) => f.wf w
    | none => match i with
      | .unassignedOpcode raw => !strandAssigned (raw.toNat % 256)
      | .unassignedCapstanOpcode raw => !capstanAssigned (raw.toNat % 256)
      | _ => true

end Sys2Proof
end

