-- ==== Sys2Proof/Decode.lean ====
section
/-! DEFINITION. The decoder of both streams (R17, R61), total on any bytes, and the encoder. A word that fails a check that
depends on the word alone is rejected by name. A word whose opcode is unassigned decodes to the table's own row for it (R64,
R68). -/

namespace Sys2Proof

/-- Why a word has no instruction. -/
inductive Reject where
  /-- Fewer than eight bytes. -/
  | truncated
  /-- A strand word fails step 2 of R27. -/
  | illop
  /-- A capstan word fails step 3 of R64. -/
  | capstanIllop
  deriving DecidableEq, Repr

/-- The answer of the decoder. -/
inductive Decoded where
  | instr (i : Instr)
  | reject (r : Reject)
  deriving DecidableEq, Repr

/-- The instruction, where there is one. -/
def Decoded.toOption : Decoded → Option Instr
  | .instr i => some i
  | .reject _ => none

/-! ### Fields -/

/-- The type of T (R20). -/
def ETy.ofCode (t : BitVec 3) : ETy := match t.toNat with
  | 0 => .s32 | 1 => .w32 | 2 => .f32 | 3 => .bf16x2 | 4 => .f16x2 | 5 => .n8x4 | 6 => .s64 | _ => .w64

/-- T of a type (R20). -/
def ETy.code : ETy → BitVec 3
  | .s32 => 0 | .w32 => 1 | .f32 => 2 | .bf16x2 => 3 | .f16x2 => 4 | .n8x4 => 5 | .s64 => 6 | .w64 => 7

/-- The fields of a strand word (R17). -/
def SWord.ofRaw (r : DWord) : SWord :=
  { sw := r.getLsbD 8, gp := r.extractLsb' 9 3, gi := r.getLsbD 12, ty := .ofCode (r.extractLsb' 13 3),
    d := r.extractLsb' 16 8, a := r.extractLsb' 24 8, b := r.extractLsb' 32 8, c := r.extractLsb' 40 8,
    imm := r.extractLsb' 48 16 }

/-- A strand word from its opcode and fields (R17). -/
def SWord.toRaw (op : BitVec 8) (w : SWord) : DWord :=
  w.imm ++ w.c ++ w.b ++ w.a ++ w.d ++ w.ty.code ++ BitVec.ofBool w.gi ++ w.gp ++ BitVec.ofBool w.sw ++ op

/-- The fields of a capstan word (R61). -/
def CWord.ofRaw (r : DWord) : CWord :=
  { sw := r.getLsbD 8, cond := r.extractLsb' 9 3, d := r.extractLsb' 16 5, a := r.extractLsb' 21 5, b := r.extractLsb' 26 5,
    c := r.extractLsb' 31 5, imm := r.extractLsb' 48 16 }

/-- A capstan word from its opcode and fields (R61): the reserved bits are 0. -/
def CWord.toRaw (op : BitVec 8) (w : CWord) : DWord :=
  w.imm ++ (0 : BitVec 12) ++ w.c ++ w.b ++ w.a ++ w.d ++ (0 : BitVec 4) ++ w.cond ++ BitVec.ofBool w.sw ++ op

/-- The opcode of a word. -/
def opOf (r : DWord) : Nat := (r.extractLsb' 0 8).toNat

/-- The reserved bits of a capstan word are 0 (R61). -/
def capstanReserved (r : DWord) : Bool := r.extractLsb' 12 4 == 0 && r.extractLsb' 36 12 == 0

/-! ### The opcode maps (R65, R67) -/

def strandMap0 : List (Nat × (SWord → Instr)) := [
  (0x00, .nop),
  (0x01, .mov),
  (0x02, .movi),
  (0x03, .movh),
  (0x04, .sel),
  (0x05, .lea),
  (0x06, .srd),
  (0x07, .swr),
  (0x08, .iadd),
  (0x09, .isub),
  (0x0A, .iaddc),
  (0x0B, .imul),
  (0x0C, .imulh),
  (0x0D, .imad),
  (0x0E, .imadw),
  (0x0F, .idiv)]
def strandMap1 : List (Nat × (SWord → Instr)) := [
  (0x10, .irem),
  (0x11, .imin),
  (0x12, .imax),
  (0x13, .iabs),
  (0x14, .ineg),
  (0x15, .isat),
  (0x16, .and),
  (0x17, .or),
  (0x18, .xor),
  (0x19, .andn),
  (0x1A, .not),
  (0x1B, .shl),
  (0x1C, .shr),
  (0x1D, .sar),
  (0x1E, .rotl),
  (0x1F, .bfx)]
def strandMap2 : List (Nat × (SWord → Instr)) := [
  (0x20, .bfi),
  (0x21, .popc),
  (0x22, .clz),
  (0x23, .ctz),
  (0x24, .brev),
  (0x25, .bprm),
  (0x26, .icmp),
  (0x27, .iset),
  (0x28, .plog),
  (0x29, .pmov),
  (0x2A, .idot4),
  (0x2B, .idot2),
  (0x2C, .iadd3),
  (0x2D, .blut),
  (0x2E, .rhash),
  (0x2F, .fshf)]
def strandMap3 : List (Nat × (SWord → Instr)) := [
  (0x30, .fadd),
  (0x31, .fsub),
  (0x32, .fmul),
  (0x33, .ffma),
  (0x34, .fmin),
  (0x35, .fmax),
  (0x36, .fminp),
  (0x37, .fmaxp),
  (0x38, .fabs),
  (0x39, .fneg),
  (0x3A, .fcmp),
  (0x3B, .fset),
  (0x3C, .fcls),
  (0x3D, .frnd),
  (0x3E, .fscl),
  (0x3F, .fexpn)]
def strandMap4 : List (Nat × (SWord → Instr)) := [
  (0x40, .fdot2),
  (0x41, .fdot4),
  (0x42, .fcps),
  (0x43, .fmed3),
  (0x44, .exp2),
  (0x45, .log2),
  (0x46, .rcp),
  (0x47, .rsq),
  (0x48, .sqrt),
  (0x49, .sinp),
  (0x4A, .cosp),
  (0x4B, .tanh),
  (0x4C, .fdiv),
  (0x4D, .fadd3),
  (0x50, .cvtf),
  (0x51, .cvne)]
def strandMap5 : List (Nat × (SWord → Instr)) := [
  (0x52, .cvnd),
  (0x53, .i2f),
  (0x54, .f2i),
  (0x55, .pack),
  (0x56, .unpk),
  (0x57, .fxq),
  (0x58, .fxd),
  (0x59, .bscl),
  (0x60, .shfl),
  (0x61, .bxch),
  (0x62, .rxch),
  (0x63, .vote),
  (0x64, .matchLanes),
  (0x65, .lmov),
  (0x66, .lput),
  (0x67, .redl)]
def strandMap6 : List (Nat × (SWord → Instr)) := [
  (0x68, .scanl),
  (0x69, .lfnd),
  (0x6A, .lrot),
  (0x70, .bra),
  (0x71, .brx),
  (0x72, .call),
  (0x73, .callx),
  (0x74, .ret),
  (0x75, .join),
  (0x76, .meet),
  (0x77, .exit),
  (0x78, .trap),
  (0x79, .yield),
  (0x7A, .ptok),
  (0x7B, .brk),
  (0x7C, .bdec)]
def strandMap7 : List (Nat × (SWord → Instr)) := [
  (0x80, .ld),
  (0x81, .st),
  (0x82, .lds),
  (0x83, .sts),
  (0x84, .ldc),
  (0x85, .ldaq),
  (0x86, .strl),
  (0x87, .stnt),
  (0x88, .atom),
  (0x89, .cas),
  (0x8A, .fxadd),
  (0x8B, .atoms),
  (0x8C, .fence),
  (0x8D, .pref),
  (0x8E, .ldl),
  (0x8F, .stlb)]
def strandMap8 : List (Nat × (SWord → Instr)) := [
  (0x90, .ldw),
  (0x91, .oupg),
  (0x92, .orel),
  (0x93, .owk),
  (0x94, .owd),
  (0x95, .onew),
  (0x96, .opri),
  (0x97, .oapp),
  (0x98, .btinv),
  (0x99, .btld),
  (0xA0, .cpy),
  (0xA1, .cpyg),
  (0xA2, .cpys),
  (0xA3, .chan),
  (0xA4, .tail),
  (0xA5, .mcall)]
def strandMap9 : List (Nat × (SWord → Instr)) := [
  (0xA6, .sigd),
  (0xA7, .sigr),
  (0xA8, .mpost),
  (0xA9, .mtake),
  (0xAA, .xred),
  (0xAB, .xput),
  (0xAC, .xget),
  (0xB0, .bar),
  (0xB1, .bara),
  (0xB2, .barw),
  (0xB3, .barx),
  (0xB4, .wany),
  (0xB5, .evb),
  (0xB6, .evm),
  (0xB7, .evp),
  (0xB8, .evc)]
def strandMap10 : List (Nat × (SWord → Instr)) := [
  (0xB9, .sflg),
  (0xBA, .mcnt),
  (0xC0, .tspn),
  (0xC1, .tstl),
  (0xC2, .tdec),
  (0xC3, .tend),
  (0xC4, .xacq),
  (0xC5, .xrel),
  (0xC6, .enrd),
  (0xC7, .gcnd),
  (0xC8, .sleep),
  (0xD0, .trdl),
  (0xD1, .twrl),
  (0xD2, .tret),
  (0xD3, .tinf),
  (0xD4, .tmsk)]

/-- The strand opcode map (R65). -/
def strandMap : List (Nat × (SWord → Instr)) :=
  strandMap0 ++ strandMap1 ++ strandMap2 ++ strandMap3 ++ strandMap4 ++ strandMap5 ++ strandMap6 ++ strandMap7 ++ strandMap8 ++ strandMap9 ++ strandMap10

def capstanMap0 : List (Nat × (CWord → Instr)) := [
  (0x00, .cnop),
  (0x01, .cmov),
  (0x02, .cmovi),
  (0x03, .cadd),
  (0x04, .csub),
  (0x05, .cmul),
  (0x06, .cand),
  (0x07, .cor),
  (0x08, .cshl),
  (0x09, .cshr),
  (0x0A, .ccmp),
  (0x0B, .cbr),
  (0x0C, .cbra),
  (0x0D, .cloop),
  (0x0E, .cld),
  (0x0F, .cst)]
def capstanMap1 : List (Nat × (CWord → Instr)) := [
  (0x10, .cret),
  (0x11, .carg),
  (0x12, .cwait),
  (0x13, .cfence),
  (0x14, .mload),
  (0x15, .mloadh),
  (0x16, .mma),
  (0x17, .mmar),
  (0x18, .mgrp),
  (0x19, .mzero),
  (0x1A, .manc),
  (0x1B, .mdrn),
  (0x1C, .mdacc),
  (0x1D, .mknot),
  (0x1E, .mlab),
  (0x1F, .msumq)]
def capstanMap2 : List (Nat × (CWord → Instr)) := [
  (0x20, .mrow),
  (0x21, .mtrn),
  (0x22, .msadd),
  (0x23, .msto),
  (0x24, .msld),
  (0x25, .vproj),
  (0x26, .vprjb),
  (0x27, .vmrg),
  (0x28, .vres),
  (0x29, .vclr),
  (0x2A, .vheap),
  (0x2B, .vnorm),
  (0x2C, .vstat),
  (0x2D, .cpri),
  (0x2E, .cseq),
  (0x2F, .ctrap)]

/-- The capstan opcode map (R67). -/
def capstanMap : List (Nat × (CWord → Instr)) :=
  capstanMap0 ++ capstanMap1 ++ capstanMap2

/-- The strand instruction with this opcode and these fields. -/
def strandOf (op : Nat) (w : SWord) : Option Instr := (strandMap.lookup op).map (· w)

/-- The capstan instruction with this opcode and these fields. -/
def capstanOf (op : Nat) (w : CWord) : Option Instr := (capstanMap.lookup op).map (· w)

/-- The opcode and the stream of an instruction: none for a step of the device. -/
def Instr.raw : Instr → Option DWord
  | .nop w => some (w.toRaw 0x00)
  | .mov w => some (w.toRaw 0x01)
  | .movi w => some (w.toRaw 0x02)
  | .movh w => some (w.toRaw 0x03)
  | .sel w => some (w.toRaw 0x04)
  | .lea w => some (w.toRaw 0x05)
  | .srd w => some (w.toRaw 0x06)
  | .swr w => some (w.toRaw 0x07)
  | .iadd w => some (w.toRaw 0x08)
  | .isub w => some (w.toRaw 0x09)
  | .iaddc w => some (w.toRaw 0x0A)
  | .imul w => some (w.toRaw 0x0B)
  | .imulh w => some (w.toRaw 0x0C)
  | .imad w => some (w.toRaw 0x0D)
  | .imadw w => some (w.toRaw 0x0E)
  | .idiv w => some (w.toRaw 0x0F)
  | .irem w => some (w.toRaw 0x10)
  | .imin w => some (w.toRaw 0x11)
  | .imax w => some (w.toRaw 0x12)
  | .iabs w => some (w.toRaw 0x13)
  | .ineg w => some (w.toRaw 0x14)
  | .isat w => some (w.toRaw 0x15)
  | .and w => some (w.toRaw 0x16)
  | .or w => some (w.toRaw 0x17)
  | .xor w => some (w.toRaw 0x18)
  | .andn w => some (w.toRaw 0x19)
  | .not w => some (w.toRaw 0x1A)
  | .shl w => some (w.toRaw 0x1B)
  | .shr w => some (w.toRaw 0x1C)
  | .sar w => some (w.toRaw 0x1D)
  | .rotl w => some (w.toRaw 0x1E)
  | .bfx w => some (w.toRaw 0x1F)
  | .bfi w => some (w.toRaw 0x20)
  | .popc w => some (w.toRaw 0x21)
  | .clz w => some (w.toRaw 0x22)
  | .ctz w => some (w.toRaw 0x23)
  | .brev w => some (w.toRaw 0x24)
  | .bprm w => some (w.toRaw 0x25)
  | .icmp w => some (w.toRaw 0x26)
  | .iset w => some (w.toRaw 0x27)
  | .plog w => some (w.toRaw 0x28)
  | .pmov w => some (w.toRaw 0x29)
  | .idot4 w => some (w.toRaw 0x2A)
  | .idot2 w => some (w.toRaw 0x2B)
  | .iadd3 w => some (w.toRaw 0x2C)
  | .blut w => some (w.toRaw 0x2D)
  | .rhash w => some (w.toRaw 0x2E)
  | .fshf w => some (w.toRaw 0x2F)
  | .fadd w => some (w.toRaw 0x30)
  | .fsub w => some (w.toRaw 0x31)
  | .fmul w => some (w.toRaw 0x32)
  | .ffma w => some (w.toRaw 0x33)
  | .fmin w => some (w.toRaw 0x34)
  | .fmax w => some (w.toRaw 0x35)
  | .fminp w => some (w.toRaw 0x36)
  | .fmaxp w => some (w.toRaw 0x37)
  | .fabs w => some (w.toRaw 0x38)
  | .fneg w => some (w.toRaw 0x39)
  | .fcmp w => some (w.toRaw 0x3A)
  | .fset w => some (w.toRaw 0x3B)
  | .fcls w => some (w.toRaw 0x3C)
  | .frnd w => some (w.toRaw 0x3D)
  | .fscl w => some (w.toRaw 0x3E)
  | .fexpn w => some (w.toRaw 0x3F)
  | .fdot2 w => some (w.toRaw 0x40)
  | .fdot4 w => some (w.toRaw 0x41)
  | .fcps w => some (w.toRaw 0x42)
  | .fmed3 w => some (w.toRaw 0x43)
  | .exp2 w => some (w.toRaw 0x44)
  | .log2 w => some (w.toRaw 0x45)
  | .rcp w => some (w.toRaw 0x46)
  | .rsq w => some (w.toRaw 0x47)
  | .sqrt w => some (w.toRaw 0x48)
  | .sinp w => some (w.toRaw 0x49)
  | .cosp w => some (w.toRaw 0x4A)
  | .tanh w => some (w.toRaw 0x4B)
  | .fdiv w => some (w.toRaw 0x4C)
  | .fadd3 w => some (w.toRaw 0x4D)
  | .cvtf w => some (w.toRaw 0x50)
  | .cvne w => some (w.toRaw 0x51)
  | .cvnd w => some (w.toRaw 0x52)
  | .i2f w => some (w.toRaw 0x53)
  | .f2i w => some (w.toRaw 0x54)
  | .pack w => some (w.toRaw 0x55)
  | .unpk w => some (w.toRaw 0x56)
  | .fxq w => some (w.toRaw 0x57)
  | .fxd w => some (w.toRaw 0x58)
  | .bscl w => some (w.toRaw 0x59)
  | .shfl w => some (w.toRaw 0x60)
  | .bxch w => some (w.toRaw 0x61)
  | .rxch w => some (w.toRaw 0x62)
  | .vote w => some (w.toRaw 0x63)
  | .matchLanes w => some (w.toRaw 0x64)
  | .lmov w => some (w.toRaw 0x65)
  | .lput w => some (w.toRaw 0x66)
  | .redl w => some (w.toRaw 0x67)
  | .scanl w => some (w.toRaw 0x68)
  | .lfnd w => some (w.toRaw 0x69)
  | .lrot w => some (w.toRaw 0x6A)
  | .bra w => some (w.toRaw 0x70)
  | .brx w => some (w.toRaw 0x71)
  | .call w => some (w.toRaw 0x72)
  | .callx w => some (w.toRaw 0x73)
  | .ret w => some (w.toRaw 0x74)
  | .join w => some (w.toRaw 0x75)
  | .meet w => some (w.toRaw 0x76)
  | .exit w => some (w.toRaw 0x77)
  | .trap w => some (w.toRaw 0x78)
  | .yield w => some (w.toRaw 0x79)
  | .ptok w => some (w.toRaw 0x7A)
  | .brk w => some (w.toRaw 0x7B)
  | .bdec w => some (w.toRaw 0x7C)
  | .ld w => some (w.toRaw 0x80)
  | .st w => some (w.toRaw 0x81)
  | .lds w => some (w.toRaw 0x82)
  | .sts w => some (w.toRaw 0x83)
  | .ldc w => some (w.toRaw 0x84)
  | .ldaq w => some (w.toRaw 0x85)
  | .strl w => some (w.toRaw 0x86)
  | .stnt w => some (w.toRaw 0x87)
  | .atom w => some (w.toRaw 0x88)
  | .cas w => some (w.toRaw 0x89)
  | .fxadd w => some (w.toRaw 0x8A)
  | .atoms w => some (w.toRaw 0x8B)
  | .fence w => some (w.toRaw 0x8C)
  | .pref w => some (w.toRaw 0x8D)
  | .ldl w => some (w.toRaw 0x8E)
  | .stlb w => some (w.toRaw 0x8F)
  | .ldw w => some (w.toRaw 0x90)
  | .oupg w => some (w.toRaw 0x91)
  | .orel w => some (w.toRaw 0x92)
  | .owk w => some (w.toRaw 0x93)
  | .owd w => some (w.toRaw 0x94)
  | .onew w => some (w.toRaw 0x95)
  | .opri w => some (w.toRaw 0x96)
  | .oapp w => some (w.toRaw 0x97)
  | .btinv w => some (w.toRaw 0x98)
  | .btld w => some (w.toRaw 0x99)
  | .cpy w => some (w.toRaw 0xA0)
  | .cpyg w => some (w.toRaw 0xA1)
  | .cpys w => some (w.toRaw 0xA2)
  | .chan w => some (w.toRaw 0xA3)
  | .tail w => some (w.toRaw 0xA4)
  | .mcall w => some (w.toRaw 0xA5)
  | .sigd w => some (w.toRaw 0xA6)
  | .sigr w => some (w.toRaw 0xA7)
  | .mpost w => some (w.toRaw 0xA8)
  | .mtake w => some (w.toRaw 0xA9)
  | .xred w => some (w.toRaw 0xAA)
  | .xput w => some (w.toRaw 0xAB)
  | .xget w => some (w.toRaw 0xAC)
  | .bar w => some (w.toRaw 0xB0)
  | .bara w => some (w.toRaw 0xB1)
  | .barw w => some (w.toRaw 0xB2)
  | .barx w => some (w.toRaw 0xB3)
  | .wany w => some (w.toRaw 0xB4)
  | .evb w => some (w.toRaw 0xB5)
  | .evm w => some (w.toRaw 0xB6)
  | .evp w => some (w.toRaw 0xB7)
  | .evc w => some (w.toRaw 0xB8)
  | .sflg w => some (w.toRaw 0xB9)
  | .mcnt w => some (w.toRaw 0xBA)
  | .tspn w => some (w.toRaw 0xC0)
  | .tstl w => some (w.toRaw 0xC1)
  | .tdec w => some (w.toRaw 0xC2)
  | .tend w => some (w.toRaw 0xC3)
  | .xacq w => some (w.toRaw 0xC4)
  | .xrel w => some (w.toRaw 0xC5)
  | .enrd w => some (w.toRaw 0xC6)
  | .gcnd w => some (w.toRaw 0xC7)
  | .sleep w => some (w.toRaw 0xC8)
  | .trdl w => some (w.toRaw 0xD0)
  | .twrl w => some (w.toRaw 0xD1)
  | .tret w => some (w.toRaw 0xD2)
  | .tinf w => some (w.toRaw 0xD3)
  | .tmsk w => some (w.toRaw 0xD4)
  | .cnop w => some (w.toRaw 0x00)
  | .cmov w => some (w.toRaw 0x01)
  | .cmovi w => some (w.toRaw 0x02)
  | .cadd w => some (w.toRaw 0x03)
  | .csub w => some (w.toRaw 0x04)
  | .cmul w => some (w.toRaw 0x05)
  | .cand w => some (w.toRaw 0x06)
  | .cor w => some (w.toRaw 0x07)
  | .cshl w => some (w.toRaw 0x08)
  | .cshr w => some (w.toRaw 0x09)
  | .ccmp w => some (w.toRaw 0x0A)
  | .cbr w => some (w.toRaw 0x0B)
  | .cbra w => some (w.toRaw 0x0C)
  | .cloop w => some (w.toRaw 0x0D)
  | .cld w => some (w.toRaw 0x0E)
  | .cst w => some (w.toRaw 0x0F)
  | .cret w => some (w.toRaw 0x10)
  | .carg w => some (w.toRaw 0x11)
  | .cwait w => some (w.toRaw 0x12)
  | .cfence w => some (w.toRaw 0x13)
  | .mload w => some (w.toRaw 0x14)
  | .mloadh w => some (w.toRaw 0x15)
  | .mma w => some (w.toRaw 0x16)
  | .mmar w => some (w.toRaw 0x17)
  | .mgrp w => some (w.toRaw 0x18)
  | .mzero w => some (w.toRaw 0x19)
  | .manc w => some (w.toRaw 0x1A)
  | .mdrn w => some (w.toRaw 0x1B)
  | .mdacc w => some (w.toRaw 0x1C)
  | .mknot w => some (w.toRaw 0x1D)
  | .mlab w => some (w.toRaw 0x1E)
  | .msumq w => some (w.toRaw 0x1F)
  | .mrow w => some (w.toRaw 0x20)
  | .mtrn w => some (w.toRaw 0x21)
  | .msadd w => some (w.toRaw 0x22)
  | .msto w => some (w.toRaw 0x23)
  | .msld w => some (w.toRaw 0x24)
  | .vproj w => some (w.toRaw 0x25)
  | .vprjb w => some (w.toRaw 0x26)
  | .vmrg w => some (w.toRaw 0x27)
  | .vres w => some (w.toRaw 0x28)
  | .vclr w => some (w.toRaw 0x29)
  | .vheap w => some (w.toRaw 0x2A)
  | .vnorm w => some (w.toRaw 0x2B)
  | .vstat w => some (w.toRaw 0x2C)
  | .cpri w => some (w.toRaw 0x2D)
  | .cseq w => some (w.toRaw 0x2E)
  | .ctrap w => some (w.toRaw 0x2F)
  | .clauseHeader => none
  | .longLatencyResult => none
  | .storeCommit => none
  | .writePropagation _ => none
  | .interruptThreshold _ => none
  | .deferredQuiesce => none
  | .sleepExpiry => none
  | .sigrWake => none
  | .tspnRoom => none
  | .snagSearch => none
  | .copyAccept => none
  | .copyPageIn => none
  | .copyComplete => none
  | .callAccept => none
  | .callStart => none
  | .capstanClauseHeader => none
  | .cldResult => none
  | .cwaitWake => none
  | .callComplete => none
  | .mreset => none
  | .clayParityFailure => none
  | .reclaim => none
  | .objectMemoryReturn => none
  | .btinvComplete => none
  | .dispatchDecision => none
  | .passCountPromotion => none
  | .taskEnd => none
  | .run => none
  | .post => none
  | .watch => none
  | .badentry => none
  | .watchFire => none
  | .kernelNode => none
  | .copyNode => none
  | .signalNode => none
  | .waitNode => none
  | .waitNodeSatisfied => none
  | .condNode => none
  | .notifyNode => none
  | .endNode => none
  | .graphFailure => none
  | .fabricAccept => none
  | .fabricComplete => none
  | .xredCombine => none
  | .flitRetransmit _ => none
  | .tirralPortFailure _ _ => none
  | .cordSave => none
  | .eccCorrected _ _ => none
  | .uncorrectableError _ => none
  | .nearStoreScrub _ => none
  | .clayMacroSpare => none
  | .energyPeriod _ => none
  | .deviceReset => none
  | .inval => none
  | .reload => none
  | .jobstart => none
  | .jobend => none
  | .vacate => none
  | .withdraw => none
  | .coreoff => none
  | .coreon => none
  | .portrem => none
  | .portadd => none
  | .attest => none
  | .fwstage => none
  | .fwswap => none
  | .commandComplete => none
  | .srtail _ => none
  | .crhead _ => none
  | .srbase _ => none
  | .srsize _ => none
  | .crbase _ => none
  | .crsize _ => none
  | .powercap _ => none
  | .tableBaseWrite _ _ => none
  | .registerWrite _ _ => none
  | .unassignedOpcode r => some r
  | .unassignedCapstanOpcode r => some r
  | .tirralFlit _ => none

/-! ### Decoding -/

/-- Decodes a word of a strand's stream. -/
def decodeStrand (r : DWord) : Decoded :=
  match strandOf (opOf r) (.ofRaw r) with
  | none => .instr (.unassignedOpcode r)
  | some i => if i.wf then .instr i else .reject .illop

/-- Decodes a word of a capstan's stream. -/
def decodeCapstan (r : DWord) : Decoded :=
  match capstanOf (opOf r) (.ofRaw r) with
  | none => .instr (.unassignedCapstanOpcode r)
  | some i => if capstanReserved r && i.wf then .instr i else .reject .capstanIllop

/-- The 64-bit little-endian word of the first eight bytes (R4). -/
def wordOfBytes : List Byte → Option (DWord × List Byte)
  | b0 :: b1 :: b2 :: b3 :: b4 :: b5 :: b6 :: b7 :: rest => some (b7 ++ b6 ++ b5 ++ b4 ++ b3 ++ b2 ++ b1 ++ b0, rest)
  | _ => none

/-- The bytes of a word, lowest address first (R4). -/
def bytesOfWord (r : DWord) : List Byte :=
  [r.extractLsb' 0 8, r.extractLsb' 8 8, r.extractLsb' 16 8, r.extractLsb' 24 8, r.extractLsb' 32 8, r.extractLsb' 40 8,
   r.extractLsb' 48 8, r.extractLsb' 56 8]

/-- Decodes the first instruction of a byte list of either stream. -/
def decodeBytes (capstan : Bool) (bs : List Byte) : Decoded :=
  match wordOfBytes bs with
  | none => .reject .truncated
  | some (r, _) => if capstan then decodeCapstan r else decodeStrand r

/-- The bytes of an instruction that has an encoding. -/
def encode (i : Instr) : Option (List Byte) := i.raw.map bytesOfWord

/-- The stream of a word: capstan instructions belong to class 01 (R59). -/
def Instr.isCapstan (i : Instr) : Bool :=
  match i with
  | .unassignedCapstanOpcode _ => true
  | _ => (Machine.capstanForm i).isSome

/-! ### Headers (R13, R14, R60) -/

/-- N-1 of a header. -/
def hdrNm1 (h : DWord) : Nat := (h.extractLsb' 0 4).toNat
/-- The wait mask of a header. -/
def hdrWait (h : DWord) : BitVec 8 := h.extractLsb' 6 8

/-- A strand header passes R14. -/
def strandHeaderOk (h : DWord) : Bool :=
  h.extractLsb' 56 8 == 0xC5 && h.extractLsb' 4 2 == 0 && h.extractLsb' 14 42 == 0 && (hdrWait h).extractLsb' 5 3 == 0

/-- A capstan header passes R14 with class 01, and R60. -/
def capstanHeaderOk (h : DWord) : Bool :=
  h.extractLsb' 56 8 == 0xC5 && h.extractLsb' 4 2 == 1 && h.extractLsb' 14 42 == 0 && (hdrWait h).extractLsb' 2 6 == 0

/-- The instruction that the decoder reads from a table word of nbits bits. Up to 64 bits are one strand word. More bits are a
clause header in bits [63:0] and its first word in bits [127:64], so that the header's class names the stream (R59). -/
def decodeTableWord (nbits w : Nat) : Option Instr :=
  if nbits ≤ 64 then (decodeStrand (BitVec.ofNat 64 w)).toOption
  else
    let h := BitVec.ofNat 64 w
    let r := BitVec.ofNat 64 (w / 2 ^ 64)
    if h.extractLsb' 4 2 == 1 then (decodeCapstan r).toOption else (decodeStrand r).toOption

end Sys2Proof
end

