-- ==== Sys2Proof/Machine/Float.lean ====
section
/-! DEFINITION. Floating-point arithmetic, selections, comparisons and transcendentals: strand opcodes 0x30 to 0x4D (R87 to
R94). -/

namespace Sys2Proof.Machine

/-! ### Element functions -/

/-- x + y, x - y and x + y + z rounded once (R88). -/
def addElem (w : SWord) (sub three : Bool) (f : Fmt) (a b c : Nat) : Nat × Flags :=
  let y := f.unpack b
  let l := [f.unpack a, if sub then y.flip else y] ++ (if three then [f.unpack c] else [])
  roundResult f (roundOf w) (satOf w) (FV.sum (roundOf w) l)

/-- x * y rounded once. -/
def mulElem (w : SWord) (f : Fmt) (a b _ : Nat) : Nat × Flags :=
  roundResult f (roundOf w) (satOf w) ((f.unpack a).mul (f.unpack b))

/-- A sum of products and an addend, rounded once to a format: the products' flags join the sum's (R88). -/
def dotElem (f : Fmt) (mode : RM) (sat : Bool) (ps : List (FV × FV)) (c : FV) : Nat × Flags :=
  let m := ps.map (fun p => p.1.mul p.2)
  let r := FV.sum mode (c :: m.map (·.1))
  roundResult f mode sat (r.1, r.2 ||| m.foldl (fun a x => a ||| x.2) 0)

/-- x * y + z rounded once. -/
def fmaElem (w : SWord) (f : Fmt) (a b c : Nat) : Nat × Flags :=
  dotElem f (roundOf w) (satOf w) [(f.unpack a, f.unpack b)] (f.unpack c)

/-- x / y rounded once. -/
def divElem (w : SWord) (f : Fmt) (a b _ : Nat) : Nat × Flags :=
  roundResult f (roundOf w) (satOf w) ((f.unpack a).div (f.mb + 1) (f.unpack b))

/-- FMED3 (R89): each step as FMIN and FMAX give it. -/
def med3Elem (f : Fmt) (a b c : Nat) : Nat × Flags :=
  let lo := f.minMax false a b
  let hi := f.minMax true a b
  let m := f.minMax false hi.1 c
  let r := f.minMax true lo.1 m.1
  (r.1, lo.2 ||| hi.2 ||| m.2 ||| r.2)

/-- FCPS (R89): A with its sign bit replaced by B's. -/
def cpsElem (f : Fmt) (a b _ : Nat) : Nat × Flags := (a % f.sbit + b / f.sbit % 2 * f.sbit, 0)

/-- FABS and FNEG (R89): payloads kept, no flag. -/
def absElem (f : Fmt) (a _ _ : Nat) : Nat × Flags := (a % f.sbit, 0)
def negElem (f : Fmt) (a _ _ : Nat) : Nat × Flags := (if a / f.sbit % 2 = 1 then a - f.sbit else a + f.sbit, 0)

/-- FRND (R91): an integral value in a direction, with the sign of A. -/
def rndElem (mode : RM) (f : Fmt) (a _ _ : Nat) : Nat × Flags :=
  match f.unpack a with
  | .nan s => (f.nan, flagIf s fINV)
  | .fin m e =>
    let n := roundInt mode m (-e)
    if n = 0 then (a / f.sbit % 2 * f.sbit, 0) else ((f.pack .rne false (.fin n 0)).1, 0)
  | _ => (a, 0)

/-- FSET's mask (R90). -/
def setElem (cc : Nat) (f : Fmt) (a b _ : Nat) : Nat × Flags :=
  let r := f.cond cc a b
  (if r.1 then 2 * f.sbit - 1 else 0, r.2)

/-- The body of a float word of three sources at most. -/
def flWord (cls : Cls) (g : SWord → Fmt → Nat → Nat → Nat → Nat × Flags) (w : SWord) (s : State) : Res :=
  lanes cls oneReg (fun w s l => eachElem w.ty (g w) (flA s w l) (flB s w l) (opC1 s w l)) w s

def execFadd (w : SWord) (s : State) : Out := .next (runWord (.fadd w) (flWord .fixed (fun w => addElem w false false)) s)
def execFsub (w : SWord) (s : State) : Out := .next (runWord (.fsub w) (flWord .fixed (fun w => addElem w true false)) s)
def execFmul (w : SWord) (s : State) : Out := .next (runWord (.fmul w) (flWord .fixed mulElem) s)
def execFfma (w : SWord) (s : State) : Out := .next (runWord (.ffma w) (flWord .fixed fmaElem) s)
def execFmin (w : SWord) (s : State) : Out := .next (runWord (.fmin w) (flWord .fixed (fun _ f a b _ => f.minMax false a b)) s)
def execFmax (w : SWord) (s : State) : Out := .next (runWord (.fmax w) (flWord .fixed (fun _ f a b _ => f.minMax true a b)) s)
def execFminp (w : SWord) (s : State) : Out := .next (runWord (.fminp w) (flWord .fixed (fun _ f a b _ => f.minMaxP false a b)) s)
def execFmaxp (w : SWord) (s : State) : Out := .next (runWord (.fmaxp w) (flWord .fixed (fun _ f a b _ => f.minMaxP true a b)) s)
def execFabs (w : SWord) (s : State) : Out := .next (runWord (.fabs w) (flWord .fixed (fun _ => absElem)) s)
def execFneg (w : SWord) (s : State) : Out := .next (runWord (.fneg w) (flWord .fixed (fun _ => negElem)) s)
def execFcmp (w : SWord) (s : State) : Out :=
  .next (runWord (.fcmp w) (predResult (fun w s l => f32.cond w.c.toNat (flA s w l).toNat (flB s w l).toNat)) s)
def execFset (w : SWord) (s : State) : Out := .next (runWord (.fset w) (flWord .fixed (fun w => setElem w.c.toNat)) s)
def execFcls (w : SWord) (s : State) : Out :=
  .next (runWord (.fcls w) (predResult (fun w s l => (w.bits (5 + fClass (opA1 s w l).toNat) 1 == 1, 0))) s)
def execFrnd (w : SWord) (s : State) : Out := .next (runWord (.frnd w) (flWord .fixed (fun w => rndElem (.ofBits (w.bits 0 2)))) s)

/-- FSCL's B: an immediate is sign-extended (R87). -/
def fsclB (s : State) (w : SWord) (l : Lane) : Int := if w.isImm then w.imm.toInt else (opB1 s w l).toInt

def execFscl (w : SWord) (s : State) : Out :=
  .next (runWord (.fscl w) (lanes .fixed oneReg (fun w s l =>
    let x := f32.unpack (flA s w l).toNat
    let r := roundResult f32 (roundOf w) (satOf w) (x.scale (fsclB s w l), 0)
    (BitVec.ofNat 64 r.1, r.2))) s)

/-- FEXPN (R92). -/
def expnBits (a : Word) : Word × Flags :=
  match f32.unpack a.toNat with
  | .zero _ => (0x80000000, fDZ)
  | .inf _ => (0x7FFFFFFF, 0)
  | .nan _ => (0x80000000, fINV)
  | .fin m e => (BitVec.ofInt 32 ((FV.fin m e).exp2of), 0)

def execFexpn (w : SWord) (s : State) : Out :=
  .next (runWord (.fexpn w) (lanes .fixed oneReg (fun w s l => let r := expnBits (opA1 s w l); (r.1.setWidth 64, r.2))) s)

/-- The two halves of a pair word as values. -/
def halves (f : Fmt) (a : Word) : List FV := [f.unpack (a.toNat % 2 ^ 16), f.unpack (a.toNat / 2 ^ 16)]

def execFdot2 (w : SWord) (s : State) : Out :=
  .next (runWord (.fdot2 w) (lanes .fixed oneReg (fun w s l =>
    let f := fmtOf w.ty
    let r := dotElem f32 (roundOf w) (satOf w) ((halves f (flA s w l)).zip (halves f (flB s w l))) (f32.unpack (opC1 s w l).toNat)
    (BitVec.ofNat 64 r.1, r.2))) s)

/-- A narrow-format register of the cord. -/
def nfReg (s : State) (i : Nat) : Word := aGet 0 (myCord s).nf i

/-- FDOT4's format: nf0 with an immediate (R88). -/
def fdot4Nf (w : SWord) : Nat := if w.isImm then 0 else w.bits 5 4

/-- The four codes of a word, decoded, with the sign flipped where a negation asks. -/
def codes4 (f : NF) (neg : Bool) (a : Word) : List FV :=
  (List.range 4).map (fun i => let v := f.decode (byteAt a.toNat i); if neg then v.flip else v)

/-- FDOT4 (R88). An invalid format traps whatever the guard (DEDUCED, log entry 50). -/
def fdot4Body (w : SWord) (s : State) : Res :=
  let nf := nfReg s (fdot4Nf w)
  if !nfValid nf then .trap .illop 0
  else lanes .fixed oneReg (fun w s l =>
    let f := NF.of nf
    let r := dotElem f32 (roundOf w) (satOf w) ((codes4 f (negA w) (opA1 s w l)).zip (codes4 f (negB w) (opB1 s w l)))
      (f32.unpack (opC1 s w l).toNat)
    (BitVec.ofNat 64 r.1, r.2)) w s

def execFdot4 (w : SWord) (s : State) : Out := .next (runWord (.fdot4 w) fdot4Body s)
def execFcps (w : SWord) (s : State) : Out := .next (runWord (.fcps w) (flWord .fixed (fun _ => cpsElem)) s)
def execFmed3 (w : SWord) (s : State) : Out := .next (runWord (.fmed3 w) (flWord .fixed (fun _ => med3Elem)) s)

/-! ### Transcendentals (R93, R94) -/

/-- The body of a transcendental of one source. -/
def xuWord (g : Word → Word × Flags) (w : SWord) (s : State) : Res :=
  lanes .xu oneReg (fun w s l => let r := g (flA s w l); (r.1.setWidth 64, r.2)) w s

def execExp2 (w : SWord) (s : State) : Out :=
  .next (runWord (.exp2 w) (xuWord (fun a => let r := exp2Bits a.toNat; (BitVec.ofNat 32 r.1, r.2))) s)
def execLog2 (w : SWord) (s : State) : Out := .next (runWord (.log2 w) (xuWord log2Result) s)
def execRcp (w : SWord) (s : State) : Out := .next (runWord (.rcp w) (xuWord rcpResult) s)
def execRsq (w : SWord) (s : State) : Out := .next (runWord (.rsq w) (xuWord rsqResult) s)
/-- SQRT takes no negation: bits [49:48] and [50] only (R72). -/
def execSqrt (w : SWord) (s : State) : Out :=
  .next (runWord (.sqrt w) (lanes .xu oneReg (fun w s l =>
    let r := sqrtResult (roundOf w) (satOf w) (opA1 s w l); (r.1.setWidth 64, r.2))) s)
def execSinp (w : SWord) (s : State) : Out := .next (runWord (.sinp w) (xuWord sinpResult) s)
def execCosp (w : SWord) (s : State) : Out := .next (runWord (.cosp w) (xuWord cospResult) s)
def execTanh (w : SWord) (s : State) : Out := .next (runWord (.tanh w) (xuWord tanhResult) s)
def execFdiv (w : SWord) (s : State) : Out := .next (runWord (.fdiv w) (flWord .xu divElem) s)
def execFadd3 (w : SWord) (s : State) : Out := .next (runWord (.fadd3 w) (flWord .fixed (fun w => addElem w false true)) s)

end Sys2Proof.Machine
end

