-- ==== Sys2Proof/Machine/Convert.lean ====
section
/-! DEFINITION. The conversions: strand opcodes 0x50 to 0x59 (R95 to R101). -/

namespace Sys2Proof.Machine

/-- CVTF (R96). -/
def cvtfLane (w : SWord) (a b : Word) : DWord × Flags :=
  let mode := roundOf w
  let sat := satOf w
  let srcF : Fmt := match w.bits 5 2 with | 0 => f32 | 1 => bf16 | _ => f16
  match w.ty with
  | .f32 =>
    let h := a.toNat / 2 ^ (16 * w.bits 7 1) % 2 ^ 16
    let r := f32.pack .rne false (srcF.unpack h)
    (BitVec.ofNat 64 r.1, r.2)
  | ty =>
    let d := fmtOf ty
    let lo := if w.bits 5 2 = 0 then f32.unpack a.toNat else srcF.unpack (a.toNat % 2 ^ 16)
    let hi := if w.bits 5 2 = 0 then f32.unpack b.toNat else srcF.unpack (a.toNat / 2 ^ 16)
    let x := d.pack mode sat lo
    let y := d.pack mode sat hi
    (BitVec.ofNat 64 (x.1 + 2 ^ 16 * y.1), x.2 ||| y.2)

def execCvtf (w : SWord) (s : State) : Out :=
  .next (runWord (.cvtf w) (lanes .fixed oneReg (fun w s l => cvtfLane w (opA1 s w l) (opB1 s w l))) s)

/-- The narrow format that CVNE and CVND name. -/
def cvNf (w : SWord) (s : State) : Word := nfReg s (w.bits 7 4)

/-- Replaces byte k of a word. -/
def setByte (d : Word) (k : Nat) (b : Nat) : Word := BitVec.ofNat 32 (d.toNat - byteAt d.toNat k * 2 ^ (8 * k) + b * 2 ^ (8 * k))

/-- CVNE (R97): the code goes into byte k of D, zeros above its width (R46). DEDUCED (log entry 50): an invalid narrow format traps whatever
lanes the guard enables, here and in CVND, FDOT4 and BSCL's derived form. -/
def cvneBody (w : SWord) (s : State) : Res :=
  let nf := cvNf w s
  if !nfValid nf then .trap .illop 0
  else lanes .fixed oneReg (fun w s l =>
    let r := (NF.of nf).ofF32 (roundOf w) (opA1 s w l).toNat
    ((setByte (opD1 s w l) (w.bits 5 2) r.1).setWidth 64, r.2)) w s

def execCvne (w : SWord) (s : State) : Out := .next (runWord (.cvne w) cvneBody s)

/-- CVND (R97). An invalid format traps whatever the guard (DEDUCED, log entry 50). -/
def cvndBody (w : SWord) (s : State) : Res :=
  let nf := cvNf w s
  if !nfValid nf then .trap .illop 0
  else lanes .fixed oneReg (fun w s l =>
    (BitVec.ofNat 64 ((NF.of nf).toF32 (byteAt (opA1 s w l).toNat (w.bits 5 2))), 0)) w s

def execCvnd (w : SWord) (s : State) : Out := .next (runWord (.cvnd w) cvndBody s)

/-- I2F (R98). -/
def i2fLane (w : SWord) (s : State) (l : Lane) : DWord × Flags :=
  let x : Int := match w.bits 5 2 with
    | 0 => (opA1 s w l).toInt
    | 1 => (opA1 s w l).toNat
    | 2 => (opA2 s w l).toInt
    | _ => (opA2 s w l).toNat
  let r := f32.pack (roundOf w) false (.ofInt x)
  (BitVec.ofNat 64 r.1, r.2)

def execI2f (w : SWord) (s : State) : Out := .next (runWord (.i2f w) (lanes .fixed oneReg i2fLane) s)

/-- F2I (R98). -/
def f2iVal (mode : RM) (signed : Bool) (n : Nat) (a : Nat) : Int × Flags :=
  let r := intRange signed n
  match f32.unpack a with
  | .nan _ => (0, fINV)
  | .inf neg => (if neg then r.1 else r.2, fSAT)
  | .zero _ => (0, 0)
  | .fin m e =>
    -- a magnitude of 2^80 or more is outside every range
    if 80 < (FV.fin m e).exp2of then (if m < 0 then r.1 else r.2, fSAT) else clampSat r.1 r.2 (roundInt mode m (-e))

def execF2i (w : SWord) (s : State) : Out :=
  .next (runWord (.f2i w) (lanes .fixed byType (fun w s l =>
    let n := if w.ty.wide then 64 else 32
    let r := f2iVal (roundOf w) w.ty.signed n (opA1 s w l).toNat
    (BitVec.ofNat 64 (natOf n r.1), r.2))) s)

/-- PACK (R99): A and B are read as signed for both types. -/
def packLane (w : SWord) (a b c : Word) : DWord × Flags :=
  let bytes := !w.isImm && w.bits 5 1 == 1
  let n := if bytes then 8 else 16
  let r := intRange w.ty.signed n
  let x := clampSat r.1 r.2 a.toInt
  let y := clampSat r.1 r.2 b.toInt
  let v := natOf n x.1 + 2 ^ n * natOf n y.1
  if bytes then
    let hi := w.bits 6 1 == 1
    (BitVec.ofNat 64 (if hi then c.toNat % 2 ^ 16 + 2 ^ 16 * v else c.toNat / 2 ^ 16 * 2 ^ 16 + v), x.2 ||| y.2)
  else (BitVec.ofNat 64 v, x.2 ||| y.2)

def execPack (w : SWord) (s : State) : Out :=
  .next (runWord (.pack w) (lanes .fixed oneReg (fun w s l => packLane w (opA1 s w l) (opB1 s w l) (opC1 s w l))) s)

/-- UNPK (R99). -/
def unpkBits (w : SWord) (a : Word) : Word :=
  let n := if w.bits 5 1 = 1 then 8 else 16
  let v := a.toNat / 2 ^ (n * w.bits 6 2) % 2 ^ n
  if w.ty.signed then BitVec.ofInt 32 (signedOf n v) else BitVec.ofNat 32 v

def execUnpk (w : SWord) (s : State) : Out :=
  .next (runWord (.unpk w) (lanes .fixed oneReg (fun w s l => ((unpkBits w (opA1 s w l)).setWidth 64, 0))) s)

/-- The anchor Q of FXQ, FXD and FXADD: IMM16[15:8], signed (R100). -/
def anchorOf (w : SWord) : Int := signedOf 8 (w.bits 8 8)

/-- FXQ (R100). -/
def fxqBits (Q : Int) (a : Word) : DWord × Flags :=
  match f32.unpack a.toNat with
  | .nan _ => (0, fINV)
  | .inf _ => (0, fINV)
  | .zero _ => (0, 0)
  | .fin m e =>
    let n := roundInt .rne m (Q - e)
    let r := intRange true 64
    (BitVec.ofInt 64 (clampInt r.1 r.2 n), flagIf (clampInt r.1 r.2 n != n) fOFL)

def execFxq (w : SWord) (s : State) : Out :=
  .next (runWord (.fxq w) (lanes .fixed twoRegs (fun w s l => fxqBits (anchorOf w) (opA1 s w l))) s)

/-- FXD (R100): OFL where the rounding overflows to infinity. -/
def fxdBits (mode : RM) (Q : Int) (a : DWord) : DWord × Flags :=
  let r := f32.pack mode false ((FV.ofInt a.toInt).scale Q)
  (BitVec.ofNat 64 r.1, r.2 ||| flagIf (r.1 % f32.sbit = f32.infBits) fOFL)

def execFxd (w : SWord) (s : State) : Out :=
  .next (runWord (.fxd w) (lanes .fixed oneReg (fun w s l => fxdBits (roundOf w) (anchorOf w) (opA2 s w l))) s)

/-- BSCL apply (R101); a signalling NaN sets INV (R33). -/
def bsclApply (t : Nat) (a : Word) : Word × Flags :=
  let sg := flagIf (f32.isSig a.toNat) fINV
  if t = 0xFF then (0x7FC00000, sg)
  else let r := f32.pack .rne false ((f32.unpack a.toNat).scale ((t : Int) - 127)); (BitVec.ofNat 32 r.1, r.2 ||| sg)

/-- BSCL derive (R101): emax of a valid format without a finite nonzero value is not stated. -/
def bsclDerive (nf : Word) (a : Word) : Word :=
  match f32.unpack a.toNat with
  | .zero _ => 127
  | .fin m e =>
    let emax := ((NF.of nf).emax).getD (Config.emaxNoFinite nf)
    BitVec.ofInt 32 (clampInt 0 254 ((FV.fin m e).exp2of - emax + 127))
  | _ => 0xFF

/-- BSCL (R101). An invalid format traps whatever the guard (DEDUCED, log entry 50). -/
def bsclBody (w : SWord) (s : State) : Res :=
  if w.bits 5 1 = 0 then
    lanes .fixed oneReg (fun w s l =>
      let r := bsclApply (byteAt (opB1 s w l).toNat (w.bits 6 2)) (opA1 s w l); (r.1.setWidth 64, r.2)) w s
  else
    let nf := nfReg s (w.bits 8 4)
    if !nfValid nf then .trap .illop 0
    else lanes .fixed oneReg (fun w s l => ((bsclDerive nf (opA1 s w l)).setWidth 64, flagIf (f32.isSig (opA1 s w l).toNat) fINV)) w s

def execBscl (w : SWord) (s : State) : Out := .next (runWord (.bscl w) bsclBody s)

end Sys2Proof.Machine
end

