-- ==== Sys2Proof/Machine/CrossLane.lean ====
section
/-! DEFINITION. Cross-lane instructions: strand opcodes 0x60 to 0x6A (R171 to R181). Their results are outstanding until written
(R22). -/

namespace Sys2Proof.Machine

/-- The participants of a collective (R171): the lanes of `act` that the guard enables. -/
abbrev participants (s : State) (w : SWord) : LaneMask := enabled s w

/-- A number of a list. -/
def laneOfNat (n : Nat) : Lane := Fin.ofNat 32 n

/-- A orders before or equal to B: signed for S types, unsigned for W types, totalOrder for F32 (R175). -/
def laneLe (ty : ETy) (a b : DWord) : Bool := match ty with
  | .s32 => (loW a).sle (loW b)
  | .s64 => a.sle b
  | .f32 => f32.totalKey (loW a).toNat ≤ f32.totalKey (loW b).toNat
  | .w64 => a.ule b
  | _ => (loW a).ule (loW b)

/-- The smaller and the larger of two values. -/
def laneSmaller (ty : ETy) (a b : DWord) : DWord := if laneLe ty a b then a else b
def laneLarger (ty : ETy) (a b : DWord) : DWord := if laneLe ty a b then b else a

/-- The body of a cross-lane word whose result goes to a register. -/
def crossLane (f : SWord → State → Lane → DWord) (n : SWord → Nat) (w : SWord) (s : State) : Res :=
  .done (result w .sh (n w) (fun l => (f w s l, 0)) s)

/-! ### Moves (R173 to R176) -/

/-- The source lane of SHFL (R173), if it lies in 0 to 31. -/
def shflSource (mode l b : Nat) : Option Lane := match mode with
  | 0 => some (laneOfNat (b % 32))
  | 1 => some (laneOfNat (l ^^^ (b % 32)))
  | 2 => if l + b < 32 then some (laneOfNat (l + b)) else none
  | _ => if b ≤ l then some (laneOfNat (l - b)) else none

def execShfl (w : SWord) (s : State) : Out :=
  .next (runWord (.shfl w) (crossLane (fun w s l =>
    match shflSource w.c.toNat l.val (opB1 s w l).toNat with
    | some q => opA s w q
    | none => opD s w l) byType) s)

/-- BXCH in a lane (R175). -/
def bxchLane (w : SWord) (s : State) (l : Lane) : DWord :=
  let q := laneOfNat (l.val ^^^ ((opB1 s w l).toNat % 32))
  if q = l || !inMask (participants s w) q then opA s w l
  else
    let lo := if l.val < q.val then l else q
    let small := (l == lo) != readP s w.c.toNat lo
    if small then laneSmaller w.ty (opA s w l) (opA s w q) else laneLarger w.ty (opA s w l) (opA s w q)

def execBxch (w : SWord) (s : State) : Out := .next (runWord (.bxch w) (crossLane bxchLane byType) s)

/-- RXCH (R176): both registers are results. -/
def rxchBody (w : SWord) (s : State) : Res :=
  let en := enabled s w
  let x (l : Lane) := opD s w l
  let y (l : Lane) := opA s w l
  let hi (l : Lane) := laneLarger w.ty (x l) (y l)
  let lo (l : Lane) := laneSmaller w.ty (x l) (y l)
  let d (l : Lane) := if readP s w.c.toNat l then hi l else lo l
  let a (l : Lane) := if readP s w.c.toNat l then lo l else hi l
  let c := curClause s
  .done (setMe s (pushPend (me s) .sh (regWrites w.d w.ty.regs en d ++ regWrites w.a w.ty.regs en a) [] c.hdr c.word))

def execRxch (w : SWord) (s : State) : Out := .next (runWord (.rxch w) rxchBody s)

/-- The uniform amount of LMOV, LPUT and LROT (R174). -/
def laneAmount (w : SWord) (s : State) : Nat := (opB1 s w 0).toNat % 32

def execLmov (w : SWord) (s : State) : Out :=
  .next (runWord (.lmov w) (crossLane (fun w s _ => opA s w (laneOfNat (laneAmount w s))) byType) s)

/-- LPUT (R174): lane k alone, when it is enabled. -/
def lputBody (w : SWord) (s : State) : Res :=
  let k := laneOfNat (laneAmount w s)
  let en := enabled s w &&& laneBit k
  let c := curClause s
  .done (setMe s (pushPend (me s) .sh (regWrites w.d w.ty.regs en (opA s w)) [] c.hdr c.word))

def execLput (w : SWord) (s : State) : Out := .next (runWord (.lput w) lputBody s)

def execLrot (w : SWord) (s : State) : Out :=
  .next (runWord (.lrot w) (crossLane (fun w s l => opA s w (laneOfNat (l.val + laneAmount w s))) byType) s)

/-! ### Collectives (R177 to R181) -/

/-- The participants in which a predicate is 1. -/
def votes (w : SWord) (s : State) : LaneMask := maskOf (fun l => inMask (participants s w) l && readP s w.a.toNat l)

/-- VOTE (R177). -/
def voteBody (w : SWord) (s : State) : Res :=
  let n := laneCount (participants s w)
  let v := votes w s
  let c := laneCount v
  let cl := curClause s
  let pred (b : Bool) : Res :=
    .done (setMe s (pushPend (me s) .sh (predWrites w.d.toNat (enabled s w) (fun _ => b)) [] cl.hdr cl.word))
  match w.c.toNat with
  | 0 => .done (result w .sh 1 (fun _ => (v.setWidth 64, 0)) s)
  | 1 => .done (result w .sh 1 (fun _ => (BitVec.ofNat 64 c, 0)) s)
  | 2 => pred (if w.bits 0 6 = 0 then c == n else w.bits 0 6 ≤ c)
  | _ => pred (c == 0 || c == n)

def execVote (w : SWord) (s : State) : Out := .next (runWord (.vote w) voteBody s)

def execMatchLanes (w : SWord) (s : State) : Out :=
  .next (runWord (.matchLanes w) (crossLane (fun w s l =>
    (maskOf (fun m => inMask (participants s w) m && opA s w m == opA s w l)).setWidth 64) oneReg) s)

/-- The identity of an op (R179). -/
def redIdentity (ty : ETy) (op : Nat) : DWord :=
  match op, ty with
  | 0, .f32 => 0x80000000
  | 1, .f32 => 0x7F800000
  | 2, .f32 => 0xFF800000
  | 1, .s32 => 0x7FFFFFFF
  | 1, .s64 => 0x7FFFFFFFFFFFFFFF
  | 1, _ => BitVec.allOnes 64
  | 2, .s32 => 0x80000000
  | 2, .s64 => 0x8000000000000000
  | 3, _ => BitVec.allOnes 64
  | _, _ => 0

/-- One node of a reduction (R179), with its flags. -/
def redCombine (ty : ETy) (op : Nat) (a b : DWord) : DWord × Flags :=
  match ty with
  | .f32 =>
    let x := (loW a).toNat
    let y := (loW b).toNat
    let r := match op with
      | 0 => roundResult f32 .rne false (FV.sum .rne [f32.unpack x, f32.unpack y])
      | 1 => f32.minMax false x y
      | _ => f32.minMax true x y
    (BitVec.ofNat 64 r.1, r.2)
  | _ => (match op with
      | 0 => a + b
      | 1 => laneSmaller ty a b
      | 2 => laneLarger ty a b
      | 3 => a &&& b
      | 4 => a ||| b
      | _ => a ^^^ b, 0)

/-- One level of the tree: neighbours combine. -/
def redLevel (f : DWord → DWord → DWord × Flags) : List DWord → List DWord × Flags
  | a :: b :: t =>
    let r := f a b
    let u := redLevel f t
    (r.1 :: u.1, r.2 ||| u.2)
  | l => (l, 0)

/-- The tree of 32 values in five levels (R179). -/
def redTree (f : DWord → DWord → DWord × Flags) : Nat → List DWord → DWord × Flags
  | 0, l => (l.headD 0, 0)
  | n + 1, l =>
    let r := redLevel f l
    let u := redTree f n r.1
    (u.1, r.2 ||| u.2)

/-- REDL's value and flags. -/
def redlValue (w : SWord) (s : State) : DWord × Flags :=
  let p := participants s w
  redTree (redCombine w.ty w.c.toNat) 5 (allLanes.map (fun l => if inMask p l then opA s w l else redIdentity w.ty w.c.toNat))

/-- REDL (R179): the nodes' flags are set where some lane is enabled. -/
def redlBody (w : SWord) (s : State) : Res :=
  let r := redlValue w s
  .done (result w .sh w.ty.regs (fun _ => r) s)

def execRedl (w : SWord) (s : State) : Out := .next (runWord (.redl w) redlBody s)

/-- The prefix of SCANL over the participants, ascending (R180): each one's result, and the flags. -/
def scanFrom (w : SWord) (s : State) (op : Nat) (excl : Bool) : List Lane → Option DWord → List (Lane × DWord) × Flags
  | [], _ => ([], 0)
  | l :: t, acc =>
    let x := opA s w l
    let r := match acc with
      | none => (x, (0 : Flags))
      | some a => redCombine w.ty op a x
    let u := scanFrom w s op excl t (some r.1)
    ((l, if excl then acc.getD (redIdentity w.ty op) else r.1) :: u.1, r.2 ||| u.2)

/-- SCANL (R180). -/
def scanlBody (w : SWord) (s : State) : Res :=
  let p := participants s w
  let r := scanFrom w s (w.c.toNat % 16) (w.c.toNat / 16 % 2 == 1) (lanesOf p) none
  let val (l : Lane) : DWord := ((r.1.find? (fun x => x.1 == l)).map (·.2)).getD 0
  .done (result w .sh w.ty.regs (fun l => (val l, r.2)) s)

def execScanl (w : SWord) (s : State) : Out := .next (runWord (.scanl w) scanlBody s)

/-- LFND's value (R181). -/
def lfndValue (w : SWord) (s : State) : DWord :=
  let hit := (lanesOf (participants s w)).filter (fun l => opA s w l == opB s w l)
  match w.c.toNat with
  | 0 => BitVec.ofNat 64 ((hit.head?.map (·.val)).getD 32)
  | 1 => BitVec.ofNat 64 ((hit.getLast?.map (·.val)).getD 32)
  | _ => BitVec.ofNat 64 hit.length

def execLfnd (w : SWord) (s : State) : Out := .next (runWord (.lfnd w) (crossLane (fun w s _ => lfndValue w s) oneReg) s)

end Sys2Proof.Machine
end

