-- ==== Sys2Proof/Machine/Control.lean ====
section
/-! DEFINITION. Control transfer, reconvergence and the token: strand opcodes 0x70 to 0x7C (R28, R102 to R109, R152 to R154, R169,
R182 to R184). -/

namespace Sys2Proof.Machine

/-- A relative branch target (R28). -/
def branchTarget (s : State) (w : SWord) : VAddr := wordAddr s + BitVec.ofInt 56 (8 * w.imm.toInt)

/-- A register target is a multiple of 8 with bits [63:56] clear (R104). -/
def targetOk (a : DWord) : Bool := a.toNat % 8 == 0 && vaOk a

/-- The address of a register target. -/
def targetOf (a : DWord) : VAddr := a.extractLsb' 0 56

/-- BRX, CALLX and RET (R104, R105): the lanes with a refused target fault MEMFAULT at the word; the others write the link if
there is one, and transfer. -/
def jumpTo (link : Bool) (w : SWord) (s : State) : Res :=
  let en := enabled s w
  let tgt (l : Lane) : DWord := opA2 s w l
  let bad := maskOf (fun l => inMask en l && !targetOk (tgt l))
  let good := en &&& ~~~bad
  let c := curClause s
  let next := nextHeader s
  let t := if link then setMe s (putReg (me s) w.d 2 good (fun _ => next.setWidth 64)) else s
  .done (faultLanes (transfer t good (fun l => targetOf (tgt l))) c.hdr (some c.word)
    ((lanesOf bad).map (fun l => (l, .memfault, tgt l, 0))))

/-- BRA (R28, R103). -/
def braBody (w : SWord) (s : State) : Res := .done (transfer s (enabled s w) (fun _ => branchTarget s w))

/-- CALL (R105). -/
def callBody (w : SWord) (s : State) : Res :=
  let en := enabled s w
  let next := nextHeader s
  .done (transfer (setMe s (putReg (me s) w.d 2 en (fun _ => next.setWidth 64))) en (fun _ => branchTarget s w))

def execBra (w : SWord) (s : State) : Out := .next (runWord (.bra w) braBody s)
def execBrx (w : SWord) (s : State) : Out := .next (runWord (.brx w) (jumpTo false) s)
def execCall (w : SWord) (s : State) : Out := .next (runWord (.call w) callBody s)
def execCallx (w : SWord) (s : State) : Out := .next (runWord (.callx w) (jumpTo true) s)
def execRet (w : SWord) (s : State) : Out := .next (runWord (.ret w) (jumpTo false) s)

/-- JOIN (R152): the enclosing meeting address is saved, the new one set, and the release condition tested (R153). -/
def joinBody (w : SWord) (s : State) : Res :=
  let en := enabled s w
  let m := me s
  let t := putReg m w.d 2 en (fun l => (m.threads.get l).mr.setWidth 64)
  let target := branchTarget s w
  .done (setMe s (meetSweep (readV s 1) (t.modThreads en (fun _ x => { x with mr := target }))))

def execJoin (w : SWord) (s : State) : Out := .next (runWord (.join w) joinBody s)

/-- MEET (R153, R183): it stands at word 0. Enabled threads whose MR is this header are held; when the release condition holds, all
threads held here join the group. DEDUCED (log entry 50): a MEET elsewhere that also names a register of a block that is not held (R27)
traps REGRANGE, which every word checks, before ILLOP for its place. -/
def meetBody (w : SWord) (s : State) : Res :=
  let c := curClause s
  if c.word != 0 then .trap .illop 0
  else
    let held := maskOf (fun l => inMask (enabled s w) l && ((me s).threads.get l).mr == c.hdr)
    let s := parkClause (setMe s ((me s).modThreads held (fun _ x => { x with st := .held w.a.toNat, pc := c.hdr, place := none }))) held
    let free := meetReady (me s) c.hdr
    let s := setMe s (meetRelease (readV s 1) (me s) free)
    .done (setClause s ((curClause? s).map (fun c => { c with act := c.act ||| free, group := c.group ||| free })))

def execMeet (w : SWord) (s : State) : Out := .next (runWord (.meet w) meetBody s)

/-- EXIT (R106). -/
def exitBody (w : SWord) (s : State) : Res :=
  let en := enabled s w
  .done (exitThreads (leaveClause s en) en)

def execExit (w : SWord) (s : State) : Out := .next (runWord (.exit w) exitBody s)

/-- TRAP and BRK (R107): taken when some active thread is enabled, with IMM16 in AUX. -/
def trapBody (code : TrapCode) (w : SWord) (s : State) : Res :=
  if enabled s w = 0 then .done s else .trap code (w.imm.setWidth 64)

def execTrap (w : SWord) (s : State) : Out := .next (runWord (.trap w) (trapBody .swtrap) s)
def execBrk (w : SWord) (s : State) : Out := .next (runWord (.brk w) (trapBody .brk) s)

/-- YIELD (R108): every active thread goes on at the next header, whatever the guard. -/
def yieldBody (_ : SWord) (s : State) : Res :=
  let next := nextHeader s
  .done (transfer s (act s) (fun _ => next))

def execYield (w : SWord) (s : State) : Out := .next (runWord (.yield w) yieldBody s)

/-- Passes the token of the cord in focus to its partner (R169). -/
def passToken (s : State) : State :=
  let c := myCord s
  match c.token, c.partner with
  | true, some p =>
    let s := setMyCord s { c with token := false }
    setCord s p { getCord s p with token := true }
  | _, _ => s

def execPtok (w : SWord) (s : State) : Out := .next (runWord (.ptok w) (once (fun _ _ s => .done (passToken s))) s)

/-- BDEC (R109). -/
def bdecBody (w : SWord) (s : State) : Res :=
  let en := enabled s w
  let src (l : Lane) : Lane := if isVector w.d then l else (onceLane s w).getD l
  let v (l : Lane) : Word := opD1 s w (src l) - 1
  let go := maskOf (fun l => inMask en l && v l != 0)
  .done (transfer (setMe s (putReg (me s) w.d 1 en (fun l => (v l).setWidth 64))) go (fun _ => branchTarget s w))

def execBdec (w : SWord) (s : State) : Out := .next (runWord (.bdec w) bdecBody s)

end Sys2Proof.Machine
end

