-- ==== Sys2Proof/Machine/Hitch.lean ====
section
/-! DEFINITION. The hitches of a strand: what is bound and pending, and the dispatch of parked groups (R303 to R308, R317). -/

namespace Sys2Proof.Machine

/-- The hitch's mailbox condition holds: its slot, or any slot, is full. -/
def mailFull (t : Strand) (obj : Nat) : Bool := if obj = 15 then !t.mail.isEmpty else (aGet? t.mail obj).isSome

/-- Bit i of a mask of 16. -/
def bit16 (i : Nat) : BitVec 16 := BitVec.twoPow 16 i

/-- Sets or clears bit i of PEV. -/
def Strand.setPev (t : Strand) (i : Nat) (b : Bool) : Strand :=
  { t with pev := if b then t.pev ||| bit16 i else t.pev &&& ~~~bit16 i }

/-- The mailbox bits equal their condition at every moment (R305). -/
def Strand.syncMail (t : Strand) : Strand :=
  t.hitches.foldl (fun t e => match e.2.kind with
    | .mailbox => t.setPev e.1 (mailFull t e.2.obj)
    | _ => t) t

/-- The hitches that are bound. -/
def Strand.validMask (t : Strand) : BitVec 16 := t.hitches.foldl (fun m e => m ||| bit16 e.1) 0

/-- The hitches that are valid, unmasked and pending. -/
def Strand.due (t : Strand) : BitVec 16 := t.validMask &&& ~~~t.evmask &&& t.pev

/-- The set bits of a mask, ascending. -/
def bits16 (m : BitVec 16) : List Nat := (List.range 16).filter (fun i => m.getLsbD i)

/-- Clears a bit of PEV as dispatch does (R305): a mailbox bit stays while its condition holds. -/
def Strand.clearPev (t : Strand) (i : Nat) : Strand := (t.setPev i false).syncMail

/-- Writes a scalar register named by its specifier; z discards. -/
def putScalar (t : Strand) (d : BitVec 8) (v : Word) : Strand := if isScalar d then putS t (d.toNat - 0xC0) v else t

/-- The threads of the group that parked in WANY under a number. -/
def wanyGroup (t : Strand) (order : Nat) : LaneMask :=
  t.threadsIn (fun x => match x.st with | .parked (.wany _ _ o) => o == order | _ => false)

/-- The earliest group of a list of lanes whose mask holds hitch i, with its destination. -/
def earliestWany (t : Strand) (i : Nat) (skip : List Nat) : List Lane → Option (Nat × BitVec 8)
  | [] => none
  | l :: ls =>
    let r := earliestWany t i skip ls
    match (t.threads.get l).st with
    | .parked (.wany m d o) =>
      if m.getLsbD i && !skip.contains o then
        (match r with | some (o', d') => if o ≤ o' then some (o, d) else some (o', d') | none => some (o, d))
      else r
    | _ => r

/-- Dispatches hitch i to the threads of a set (R307): D is written once. -/
def dispatchTo (t : Strand) (i : Nat) (m : LaneMask) (d : BitVec 8) : Strand :=
  match aGet? t.hitches i with
  | none => t
  | some h =>
    let t := putScalar (t.clearPev i) d (BitVec.ofNat 32 i)
    t.unblock.modThreads m (fun _ x => { x with pc := h.handler, place := none, st := .ready })

/-- One candidate hitch at a change (R308): the earliest group takes it; a hitch that stays pending may dispatch further groups.
A group takes at most one hitch. -/
def wakeHitch (i : Nat) : Nat → Strand → List Nat → Strand × List Nat
  | 0, t, skip => (t, skip)
  | n + 1, t, skip =>
    if !t.due.getLsbD i then (t, skip)
    else match earliestWany t i skip allLanes with
      | none => (t, skip)
      | some (o, d) => wakeHitch i n (dispatchTo t i (wanyGroup t o) d) (o :: skip)

/-- The candidates of a list, ascending. -/
def wakeFrom : List Nat → Strand → List Nat → Strand
  | [], t, _ => t
  | i :: is, t, skip =>
    let r := wakeHitch i 32 t skip
    wakeFrom is r.1 r.2

/-- At each change the strand dispatches parked groups (R308), and a pending hitch ends every SLEEP (R317). A strand in handler
mode is frozen: its groups are dispatched when it returns. -/
def Strand.wake (t : Strand) : Strand :=
  if t.handler.isSome || t.due = 0 then t
  else
    let t := t.modThreads (BitVec.allOnes 32) (fun _ x => match x.st with | .parked (.sleep _) => { x with st := .ready } | _ => x)
    wakeFrom (bits16 t.due) t []

/-- Changes a strand and then dispatches. -/
def modWake (s : State) (k : Nat) (f : Strand → Strand) : State := setStrand s k (f (getStrand s k)).wake

end Sys2Proof.Machine
end

