-- ==== Sys2Proof/Machine/Special.lean ====
section
/-! DEFINITION. Special registers and the arming of flags: SRD, SWR (R110 to R112) and SFLG (R192), with the trap items of R364. -/

namespace Sys2Proof.Machine

/-- Another trap is recorded behind the one being handled (R363, R364): a recorded trap, or a lane that has split off. -/
def trapPending (t : Strand) (park : LaneMask) : Bool :=
  !t.traps.isEmpty || t.threadsIn Thread.isFaulted &&& ~~~park != 0

/-- Item sel of the trap being handled (R364). -/
def trapItem (t : Strand) (x : TrapInfo) (sel : Nat) : DWord :=
  match sel with
  | 0 => BitVec.ofNat 64 (x.code.num + 2 ^ 8 * x.cls.num + 2 ^ 10 * (trapPending t x.park).toNat + 2 ^ 11 * x.reentry.toNat)
  | 1 => x.pc
  | 2 => x.addr
  | 3 => x.aux
  | 4 => x.park.setWidth 64
  | 5 => x.set.setWidth 64
  | 6 => x.held
  | 7 => 0
  | _ => pairOf ((x.members[2 * (sel - 8)]?).getD 0) ((x.members[2 * (sel - 8) + 1]?).getD 0)

/-- The item of the strand in focus: 0 where no trap is handled. -/
def myTrapItem (s : State) (sel : Nat) : DWord :=
  match (me s).handler with
  | some h => trapItem (me s) h.trap sel
  | none => 0

/-- PTOKEN (R111): both bits read 0 in a cord whose kernel has flag bit 1 clear. -/
def ptokenBits (c : Cord) : Nat := if c.hdr.flags.getLsbD 1 then c.token.toNat + 2 * c.partner.isSome.toNat else 0

/-- The value of a special register in a lane (R111). -/
def specialValue (s : State) (i word : Nat) (l : Lane) : DWord :=
  let t := me s
  let c := myCord s
  match i with
  | 0x00 => (act s).setWidth 64
  | 0x01 => BitVec.ofNat 64 s.focus.strand
  | 0x02 => BitVec.ofNat 64 s.focus.slot
  | 0x03 => BitVec.ofNat 64 s.focus.core
  | 0x04 => BitVec.ofNat 64 (dieOf s.focus.core)
  | 0x05 => Config.devId.setWidth 64
  | 0x06 => BitVec.ofNat 64 (myCore s).cycles
  | 0x07 => BitVec.ofNat 64 ((myCore s).cycles / 2 ^ 32 % 2 ^ 32)
  | 0x08 => c.sflags.setWidth 64
  | 0x09 => c.sarm.setWidth 64
  | 0x0A => t.pev.setWidth 64
  | 0x0B => t.evmask.setWidth 64
  | 0x0C => BitVec.ofNat 64 t.ext.toNat
  | 0x0D => (t.threads.get l).mr.setWidth 64
  | 0x0E => BitVec.ofNat 64 c.job
  | 0x0F => (s.present.extractLsb' (32 * word) 32).setWidth 64
  | 0x10 => 1
  | 0x11 => BitVec.ofNat 64 c.hdr.scratch
  | 0x12 => BitVec.ofNat 64 c.hdr.silt
  | 0x13 => BitVec.ofNat 64 (ptokenBits c)
  | 0x50 => BitVec.ofNat 64 (aGet {} s.jobs c.job).tbase
  | _ =>
    if 0x20 ≤ i && i ≤ 0x2F then (loW (myTrapItem s (i - 0x20))).setWidth 64
    else if 0x40 ≤ i && i ≤ 0x4F then (aGet 0 c.nf (i - 0x40)).setWidth 64
    else 0

/-- SRD (R110). -/
def execSrd (w : SWord) (s : State) : Out :=
  .next (runWord (.srd w) (lanes .fixed byType (fun w s l => (specialValue s (w.bits 0 8) (w.bits 8 2) l, 0))) s)

/-- The value that SWR may not write, by its reserved bits (R35, R57, R111). -/
def swrBad (i : Nat) (v : Word) : Bool :=
  match i with
  | 0x08 | 0x09 => v &&& ~~~sflagMask != 0
  | 0x0B => v &&& 0xFFFF0000 != 0
  | _ => if 0x40 ≤ i && i ≤ 0x4F then v &&& 0xFFE00080 != 0 else false

/-- SWR's write. A write of TBASE replaces its low word in the job's table entry. -/
def writeSpecial (i : Nat) (v : Word) (s : State) : State :=
  let c := myCord s
  match i with
  | 0x08 => setMyCord s (c.setFlags v)
  | 0x09 => setMyCord s (c.setArm v)
  | 0x0B => setMe s (Strand.wake { me s with evmask := v.setWidth 16 })
  | 0x50 =>
    let j := aGet {} s.jobs c.job
    { s with jobs := aSet s.jobs c.job { j with tbase := j.tbase / 2 ^ 32 * 2 ^ 32 + v.toNat } }
  | _ => setMyCord s { c with nf := aSet c.nf (i - 0x40) v }

/-- SWR (R110): once for the strand. -/
def swrBody (w : SWord) (s : State) : Res :=
  once (fun w l s =>
    let v := opA1 s w l
    if swrBad (w.bits 0 8) v then .trap .illop 0 else .done (writeSpecial (w.bits 0 8) v s)) w s

def execSwr (w : SWord) (s : State) : Out := .next (runWord (.swr w) swrBody s)

/-- SFLG (R192). -/
def sflgBody (w : SWord) (s : State) : Res :=
  once (fun w _ s =>
    let m : Word := BitVec.ofNat 32 (w.bits 0 7)
    let c := myCord s
    .done (match w.bits 8 2 with
      | 0 => setMyCord s (c.setArm (c.sarm ||| m))
      | 1 => setMyCord s { c with sarm := c.sarm &&& ~~~m }
      | _ => setMyCord s { c with sflags := c.sflags &&& ~~~m })) w s

def execSflg (w : SWord) (s : State) : Out := .next (runWord (.sflg w) sflgBody s)

end Sys2Proof.Machine
end

