-- ==== Sys2Proof/Machine/Memory.lean ====
section
/-! DEFINITION. Loads, stores, atomics and fences: strand opcodes 0x80 to 0x8F (R113 to R128, R252). A load reads at issue and its
result is outstanding until written; a store enters the queue of its strand. -/

namespace Sys2Proof.Machine

/-! ### Lanes, addresses and faults (R115 to R117) -/

/-- The sign-extended offset of IMM16[15:8]. -/
def offsetOf (w : SWord) : Int := signedOf 8 (w.bits 8 8)

/-- The word makes one access for the whole strand (R117): no register operand among those listed is a vector. -/
def onceFor (xs : List (BitVec 8)) : Bool := xs.all (fun x => !isVector x)

/-- The lanes that make an access. -/
def accessLanes (one : Bool) (w : SWord) (s : State) : List Lane := if one then (onceLane s w).toList else lanesOf (enabled s w)

/-- The address that a lane forms and its place in device memory, or the first fault in the order of R116. A base register that holds 0
is the null handle (R218); a base of z means address 0 (R113). -/
def memTarget (s : State) (w : SWord) (z : Nat) (off : Int) (need : Need) (l : Lane) : DWord × Except TrapCode Place :=
  let base := opA2 s w l
  let disp : Int := (opB1 s w l).toInt * z + off * z
  let a := base + BitVec.ofInt 64 disp
  (a,
    if isHandle base then
      if disp % z != 0 then .error .align else handlePlace s (myCord s).job base disp z
    else if a.toNat % z != 0 then .error .align
    else if base = 0 && w.a != 0xF0 then .error .memfault
    else match translate s (some s.focus.core) (myCord s).job a need (l.val + 1) with
      | some p => .ok p
      | none => .error .memfault)

/-- The scratchpad offset that a lane forms (R115), or its first fault. -/
def scratchTarget (s : State) (w : SWord) (z : Nat) (off : Int) (l : Lane) : DWord × Except TrapCode Place :=
  let a := opA1 s w l + BitVec.ofInt 32 ((opB1 s w l).toInt * z + off * z)
  (a.setWidth 64,
    if a.toNat % z != 0 then .error .align
    else if scratchIn (myCord s) a.toNat z then .ok { key := a.toNat }
    else .error .memfault)

/-- A lane with its address and place. -/
structure Acc where
  lane : Lane
  addr : DWord
  place : Place
  deriving Repr

/-- The lanes whose access has a place. -/
def goodOf (ts : List (Lane × DWord × Except TrapCode Place)) : List Acc :=
  ts.filterMap (fun t => match t.2.2 with | .ok p => some ⟨t.1, t.2.1, p⟩ | .error _ => none)

/-- The lanes whose access faults. A once-executed access faults in every enabled lane (R116). -/
def faultsOf (one : Bool) (en : LaneMask) (ts : List (Lane × DWord × Except TrapCode Place)) : List (Lane × TrapCode × DWord × DWord) :=
  ts.flatMap (fun t => match t.2.2 with
    | .ok _ => []
    | .error c => (if one then lanesOf en else [t.1]).map (fun l => (l, c, t.2.1, 0)))

/-- The translation that an access used is kept. An access that has reached the device point moves the views below it there, so that no
later one goes back (R203): no access is larger than 16 bytes. -/
def cachePlace (s : State) (p : Place) : State :=
  let s := match p.tlb with | some t => cacheTlb s s.focus.core t | none => s
  if p.nc then seeDevice s s.focus.core (p.key / 16 * 16) 16 else s

/-- Keeps the translations that some accesses used. -/
def cachePlaces (s : State) (ps : List Acc) : State := ps.foldl (fun s a => cachePlace s a.place) s

/-- Faults of lanes at the word in progress. -/
def faultHere (s : State) (c : Clause) (fs : List (Lane × TrapCode × DWord × DWord)) : State := faultLanes s c.hdr (some c.word) fs

/-! ### Values -/

/-- The outstanding writes of a destination of n registers. -/
def groupWrites (d : BitVec 8) (n : Nat) (en : LaneMask) (val : Lane → Nat) : List PendWrite :=
  (List.range n).flatMap (fun i => regWrites (d + BitVec.ofNat 8 i) 1 en (fun l => BitVec.ofNat 64 (natBits (val l) (32 * i) 32)))

/-- The low z bytes of D as data of a store. -/
def storeBytes (s : State) (w : SWord) (z : Nat) (l : Lane) : List Byte :=
  leBytes z ((groupVal s 0 w.d w.dataRegs l).zipIdx.foldl (fun a x => a + x.1.toNat * 2 ^ (32 * x.2)) 0)

/-- A loaded value with its extension (R114). -/
def loadValue (w : SWord) (z v : Nat) : Nat := if w.bits 3 1 = 1 then natOf 32 (signedOf (8 * z) v) else v

/-- A value of a list by lane; the one value for a once-executed word. -/
def byLane {α : Type} (one : Bool) (d : α) (vs : List (Lane × α)) (l : Lane) : α :=
  if one then (vs.head?.map (·.2)).getD d else ((vs.find? (fun v => v.1 == l)).map (·.2)).getD d

/-- A set of lanes; every enabled lane for a once-executed word that has any. -/
def maskFor (one : Bool) (en : LaneMask) (ls : List Lane) : LaneMask :=
  if one then (if ls.isEmpty then 0 else en) else maskOf (fun l => ls.contains l)

/-! ### Loads (R118 to R122) -/

/-- n bytes of memory as a strand reads them: its queued stores first, then `rd` (R120). -/
def forwardRd (s : State) (scratch : Bool) (rd : Nat → Byte) (key n : Nat) : List Byte :=
  (List.range n).map (fun i => match queueRd (me s).stores scratch (key + i) with | some b => b | none => rd (key + i))

/-- Bytes that an access at a scope's point reads carry an uncorrectable error: in the cord's scratchpad, or in memory. A byte that a store
still in the strand's queue supplies carries none (R116, R120). -/
def badData (scratch : Bool) (sc : Scope) (s : State) (p : Place) (n : Nat) : Bool :=
  (List.range n).any (fun i => (queueRd (me s).stores scratch (p.key + i)).isNone &&
    if scratch then padPoison s (focusCord s) (p.key + i) 1 else poisonAt s s.focus.core sc (p.key + i) 1 p.nc)

/-- The data of a load of z bytes in the core's view, or of the scratchpad, carries an uncorrectable error. -/
def badLoad (scratch : Bool) (z : Nat) (s : State) (a : Acc) : Bool := badData scratch 2 s a.place z

/-- The shared body of a load: values from `rd`, results outstanding (R22), lanes whose data is `flawed` by an uncorrectable error split when
the result is written (R361). -/
def loadWith (flawed : State → Acc → Bool) (z : Nat) (one : Bool) (ts : List (Lane × DWord × Except TrapCode Place)) (rd : State → Acc → List Byte)
    (extra : LaneMask → (Lane → Nat) → List PendWrite) (w : SWord) (s : State) : Res :=
  let en := enabled s w
  let c := curClause s
  let good := goodOf ts
  let bad := good.filter (flawed s)
  let fine := good.filter (fun a => !flawed s a)
  let vs := fine.map (fun a => (a.lane, loadValue w z (leNat (rd s a))))
  let m := maskFor one en (fine.map (·.lane))
  let val := byLane one 0 vs
  let poison := bad.flatMap (fun a => (if one then lanesOf en else [a.lane]).map (fun l => (l, a.addr)))
  let t := pushPend (me s) .ld (groupWrites w.d w.dataRegs m val ++ extra m val) poison c.hdr c.word
  .done (faultHere (cachePlaces (setMe s t) good) c (faultsOf one en ts))

/-- No further result. -/
def noExtra (_ : LaneMask) (_ : Lane → Nat) : List PendWrite := []

/-- The lanes, addresses and places of a load or store in device memory. -/
def memTargets (one : Bool) (w : SWord) (z : Nat) (off : Int) (need : Need) (s : State) : List (Lane × DWord × Except TrapCode Place) :=
  (accessLanes one w s).map (fun l => (l, memTarget s w z off need l))

/-- The lanes, offsets and places of a scratchpad access. -/
def scratchTargets (one : Bool) (w : SWord) (z : Nat) (off : Int) (s : State) : List (Lane × DWord × Except TrapCode Place) :=
  (accessLanes one w s).map (fun l => (l, scratchTarget s w z off l))

/-- What LD reads: the core's view under the strand's queue (R205). -/
def ldRead (z : Nat) (s : State) (a : Acc) : List Byte :=
  forwardRd s false (fun k => coreRd s s.focus.core k a.place.nc) a.place.key z

/-- What a scratchpad load reads. -/
def ldsRead (z : Nat) (s : State) (a : Acc) : List Byte := forwardRd s true (memRd (myCord s).scratch) a.place.key z

/-- LD (R118). -/
def ldBody (w : SWord) (s : State) : Res :=
  let one := onceFor [w.d, w.a, w.b]
  loadWith (badLoad false w.size) w.size one (memTargets one w w.size (offsetOf w) .rd s) (ldRead w.size) noExtra w s

/-- A load of the scratchpad (R119). -/
def ldsWith (z : Nat) (extra : LaneMask → (Lane → Nat) → List PendWrite) (w : SWord) (s : State) : Res :=
  let one := onceFor [w.d, w.a, w.b]
  loadWith (badLoad true z) z one (scratchTargets one w z (offsetOf w) s) (ldsRead z) extra w s

/-- The older value of some bytes of one unit that a lane of LDC takes, where it takes one that the constant cache still holds (R121). A
store that the strand has queued before a fence leaves none. -/
def constUnit (s : State) (l : Lane) (w : Committed) : Option (List Byte) :=
  let base := unitBase w.key
  let held := if (me s).stores.any (fun q => q.fenced && q.touches base (unitOf base)) then []
    else s.consts.filter (fun h => h.cord == focusCord s && h.key == base)
  pickOne none (Config.constValue s.free (l.val + 32 * (base / 8)))
    (none :: held.map (fun h => some ((h.bytes.drop (w.key - base)).take w.bytes.length)))

/-- What LDC reads in a lane (R121), in units that each come from one write (R201). -/
def ldcRead (z : Nat) (s : State) (a : Acc) : List Byte :=
  (pieces (unitOf a.place.key) a.place.key (ldRead z s a)).flatMap (fun w => (constUnit s a.lane w).getD w.bytes)

/-- The data that a lane of LDC reads carries an uncorrectable error: an older value that the constant cache holds carries none. -/
def badConst (z : Nat) (s : State) (a : Acc) : Bool :=
  (pieces (unitOf a.place.key) a.place.key (ldRead z s a)).any (fun w =>
    (constUnit s a.lane w).isNone && badData false 2 s { a.place with key := w.key } w.bytes.length)

def ldcBody (w : SWord) (s : State) : Res :=
  let one := onceFor [w.d, w.a, w.b]
  loadWith (badConst w.size) w.size one (memTargets one w w.size (offsetOf w) .rd s) (ldcRead w.size) noExtra w s

/-- A byte at a scope's point, or the core view where that is later in the coherence order (R207). -/
def scopeRd (s : State) (core : Nat) (sc : Scope) (key : Nat) (nc : Bool) : Byte :=
  if !nc && sc ≤ 2 then coreRd s core key false
  else if !nc && sc = 3 then (upRd (getCore s core).up key).getD (dieRd s (dieOf core) key)
  else laterRd s core key

/-- What LDAQ reads (R122, R207). -/
def ldaqRead (z : Nat) (sc : Scope) (s : State) (a : Acc) : List Byte :=
  forwardRd s false (fun k => scopeRd s s.focus.core sc k a.place.nc) a.place.key z

/-- The scope of a shape byte. -/
def scopeOf (w : SWord) : Scope := w.bits 5 3

/-- The data that LDAQ reads at its scope carries an uncorrectable error. -/
def badAcquire (z : Nat) (sc : Scope) (s : State) (a : Acc) : Bool := badData false sc s a.place z

/-- LDAQ (R122): an acquire where some lane is enabled. -/
def ldaqBody (w : SWord) (s : State) : Res :=
  let one := onceFor [w.d, w.a, w.b]
  match loadWith (badAcquire w.size (scopeOf w)) w.size one (memTargets one w w.size (offsetOf w) .rd s) (ldaqRead w.size (scopeOf w)) noExtra w s with
  | .done t => .done (if enabled s w = 0 then t else refresh t s.focus.core (scopeOf w))
  | r => r

def execLd (w : SWord) (s : State) : Out := .next (runWord (.ld w) ldBody s)
def execLds (w : SWord) (s : State) : Out := .next (runWord (.lds w) (fun w s => ldsWith w.size noExtra w s) s)
def execLdc (w : SWord) (s : State) : Out := .next (runWord (.ldc w) ldcBody s)
def execLdaq (w : SWord) (s : State) : Out := .next (runWord (.ldaq w) ldaqBody s)

/-! ### Stores (R118 to R120, R122) -/

/-- Puts the lanes' stores of one word into the queue, ascending, so that the highest lane's bytes stand (R117). -/
def enqueue (s : State) (scratch : Bool) (rel : Scope) (data : Lane → List Byte) (good : List Acc) : State :=
  let qs := good.zipIdx.map (fun x =>
    ({ scratch := scratch, key := x.1.place.key, bytes := data x.1.lane, nc := x.1.place.nc,
       more := x.2 + 1 < good.length, rel := rel } : QStore))
  setMe s { me s with stores := (me s).stores ++ qs }

/-- The shared body of a store. -/
def storeWith (scratch : Bool) (rel : Scope) (one : Bool) (ts : List (Lane × DWord × Except TrapCode Place))
    (data : Lane → List Byte) (w : SWord) (s : State) : Res :=
  let good := goodOf ts
  let c := curClause s
  .done (faultHere (cachePlaces (enqueue s scratch rel data good) good) c (faultsOf one (enabled s w) ts))

/-- ST, STNT and STRL (R118, R122). -/
def stBody (rel : SWord → Scope) (w : SWord) (s : State) : Res :=
  let one := onceFor [w.d, w.a, w.b]
  storeWith false (rel w) one (memTargets one w w.size (offsetOf w) .wr s) (storeBytes s w w.size) w s

/-- STS (R119). -/
def stsBody (w : SWord) (s : State) : Res :=
  let one := onceFor [w.d, w.a, w.b]
  storeWith true 0 one (scratchTargets one w w.size (offsetOf w) s) (storeBytes s w w.size) w s

def execSt (w : SWord) (s : State) : Out := .next (runWord (.st w) (stBody (fun _ => 0)) s)
def execSts (w : SWord) (s : State) : Out := .next (runWord (.sts w) stsBody s)
def execStrl (w : SWord) (s : State) : Out := .next (runWord (.strl w) (stBody scopeOf) s)
def execStnt (w : SWord) (s : State) : Out := .next (runWord (.stnt w) (stBody (fun _ => 0)) s)

/-! ### Labels (R252) -/

/-- The size that LDL and STLB move. -/
def labelSize : Nat := 8

/-- LDL's predicate: the loaded word is all ones. -/
def voidPred (w : SWord) (m : LaneMask) (val : Lane → Nat) : List PendWrite :=
  predWrites w.c.toNat m (fun l => val l == 2 ^ 64 - 1)

/-- LDL (R252): as LD of eight bytes, or LDS under SP. -/
def ldlBody (w : SWord) (s : State) : Res :=
  let one := onceFor [w.d, w.a, w.b]
  let v : SWord := { w with imm := BitVec.ofNat 16 (256 * w.bits 8 8 + 3) }
  if w.bits 0 1 = 1 then ldsWith labelSize (voidPred w) v s
  else loadWith (badLoad false labelSize) labelSize one (memTargets one v labelSize (offsetOf w) .rd s) (ldRead labelSize) (voidPred w) v s

/-- STLB (R252). -/
def stlbBody (w : SWord) (s : State) : Res :=
  let one := onceFor [w.d, w.a, w.b]
  let v : SWord := { w with imm := BitVec.ofNat 16 (256 * w.bits 8 8 + 3) }
  if w.bits 0 1 = 1 then storeWith true 0 one (scratchTargets one v labelSize (offsetOf w) s) (storeBytes s v labelSize) v s
  else storeWith false 0 one (memTargets one v labelSize (offsetOf w) .wr s) (storeBytes s v labelSize) v s

def execLdl (w : SWord) (s : State) : Out := .next (runWord (.ldl w) ldlBody s)
def execStlb (w : SWord) (s : State) : Out := .next (runWord (.stlb w) stlbBody s)

/-! ### Atomics (R117, R123 to R126, R208) -/

/-- The order in which the lanes of one word are served, which the device does not fix (R117, R220): n numbers the word. -/
def serveOrder {α : Type} (n : Nat) : Nat → List α → List α
  | 0, l => l
  | k + 1, l =>
    if l.length ≤ 1 then l
    else
      let i := Config.laneOrder n k % l.length
      match l[i]? with
      | some x => x :: serveOrder n k (lDel l i)
      | none => l

/-- One indivisible update at a scope's point (R208): the old bytes, and the state with the new ones; the core view then holds the
result. A page that bypasses the caches has the device point for every point below it. -/
def atomicAt (s : State) (core : Nat) (sc : Scope) (p : Place) (n : Nat) (f : List Byte → Option (List Byte)) : List Byte × State :=
  if !p.nc && sc ≤ 2 then
    let old := coreRdN s core p.key n false
    (old, match f old with | some b => commit s core p.key b false | none => s)
  else
    let s := settleUp s core p.key n
    if !p.nc && sc = 3 then
      let old := (List.range n).map (fun i => dieRd s (dieOf core) (p.key + i))
      (old, match f old with | some b => reachDie s (dieOf core) ⟨p.key, b⟩ | none => s)
    else
      let s := settleDie s (dieOf core) p.key n
      let old := devRdN s p.key n
      let s := match f old with | some b => devWr s p.key b | none => s
      (old, if sc = 5 then settleSys s p.key n else s)

/-- One indivisible update of the cord's scratchpad. -/
def atomicScratch (s : State) (off n : Nat) (f : List Byte → Option (List Byte)) : List Byte × State :=
  let old := scratchRd (myCord s) off n
  (old, match f old with | some b => scratchWr s (focusCord s) off b | none => s)

/-- The new value of an op (R123), at a width of w bits. -/
def atomNew (op w : Nat) (signed : Bool) (old c : Nat) : Nat :=
  let i (x : Nat) : Int := if signed then signedOf w x else x
  match op with
  | 0 => (old + c) % 2 ^ w
  | 1 => if i old ≤ i c then old else c
  | 2 => if i old ≤ i c then c else old
  | 3 => old &&& c
  | 4 => old ||| c
  | 5 => old ^^^ c
  | 6 => c
  | 7 => if c ≤ old then 0 else old + 1
  | _ => if old = 0 || c < old then c else old - 1

/-- Serves the lanes of an atomic one after another: old value by lane, and the state. -/
def serveAtomics (upd : State → Acc → List Byte × State) : List Acc → State → List (Lane × Nat) × State
  | [], s => ([], s)
  | a :: t, s =>
    let r := upd s a
    let u := serveAtomics upd t r.2
    ((a.lane, leNat r.1) :: u.1, u.2)

/-- An operand of n registers as a number in a lane. -/
def groupNat (s : State) (k : Nat) (x : BitVec 8) (n : Nat) (l : Lane) : Nat :=
  (groupVal s k x n l).zipIdx.foldl (fun a x => a + x.1.toNat * 2 ^ (32 * x.2)) 0

/-- Uncorrectable data of an atomic at a scope's point is found at issue, behind its other faults (R116, R361). -/
def withPoison (scratch : Bool) (sc : Scope) (s : State) (z : Nat) (t : Lane × DWord × Except TrapCode Place) : Lane × DWord × Except TrapCode Place :=
  match t.2.2 with
  | .ok p => if badData scratch sc s p z then (t.1, t.2.1, .error .poison) else t
  | .error _ => t

/-- The release and acquire parts of `.ord` (R123). -/
def ordRel (w : SWord) : Bool := w.bits 13 1 == 1
def ordAcq (w : SWord) : Bool := w.bits 12 1 == 1

/-- The address of an update in device memory and its place, or its first fault: the page must let it write and, where `reads`, read.
FXADD needs only the former (R199). -/
def updateTarget (reads : Bool) (s : State) (w : SWord) (z : Nat) (l : Lane) : DWord × Except TrapCode Place :=
  let x := memTarget s w z 0 .wr l
  match reads, (memTarget s w z 0 .rd l).2, x.2 with
  | true, .error e, .ok _ => (x.1, .error e)
  | _, _, _ => x

/-- The shared body of an atomic: every earlier store leaves the queue (R120), the lanes are served in an open order, and the
results are outstanding. `reads` says whether the page must allow reads; upd makes one lane's update from the operands as issued. -/
def atomicWith (scratch reads : Bool) (z : Nat) (sc : Scope) (rel acq : Bool) (upd : List Byte → Lane → Option (List Byte))
    (extra : LaneMask → (Lane → Nat) → List PendWrite) (w : SWord) (s : State) : Res :=
  let one := onceFor [w.d, w.a, w.b, w.c]
  let en := enabled s w
  let c := curClause s
  if en = 0 then .done s
  else
    let raw := if scratch then scratchTargets one w z 0 s
      else (accessLanes one w s).map (fun l => (l, updateTarget reads s w z l))
    let ts := raw.map (withPoison scratch sc (drain s (focusStrand s)) z)
    let good := goodOf ts
    let s0 := cachePlaces (drain s (focusStrand s)) good
    let s1 := if rel then release s0 sc else s0
    let run (s : State) (a : Acc) : List Byte × State :=
      if scratch then atomicScratch s a.place.key z (fun o => upd o a.lane)
      else
        let r := atomicAt s s.focus.core sc a.place z (fun o => upd o a.lane)
        (r.1, if (upd r.1 a.lane).isSome then noteWrite (.strand (focusStrand s)) a.place.key z r.2 else r.2)
    let r := serveAtomics run (serveOrder s.free 32 good) s1
    let s2 := if acq then acquire r.2 sc else r.2
    let val := byLane one 0 r.1
    let m := maskFor one en (good.map (·.lane))
    let t := pushPend (me s2) .ld (groupWrites w.d (if z = 8 then 2 else 1) m val ++ extra m val) [] c.hdr c.word
    .done (faultHere (setMe s2 t) c (faultsOf one en ts))

/-- The update of ATOM and ATOMS' shared ops. -/
def atomUpd (s : State) (w : SWord) (op : Nat) (old : List Byte) (l : Lane) : Option (List Byte) :=
  let z := w.size
  some (leBytes z (atomNew op (8 * z) w.ty.signed (leNat old) (groupNat s 3 w.c w.ty.regs l)))

/-- The update of a compare-and-swap: the first half of C's group compares, the second is the new value (R124). -/
def casUpd (s : State) (w : SWord) (old : List Byte) (l : Lane) : Option (List Byte) :=
  let z := w.size
  let g := groupNat s 3 w.c (casRegs w) l
  if leNat old = g % 2 ^ (8 * z) then some (leBytes z (g / 2 ^ (8 * z))) else none

/-- CAS's predicate. -/
def casPred (s : State) (w : SWord) (m : LaneMask) (val : Lane → Nat) : List PendWrite :=
  predWrites (w.bits 8 3) m (fun l => val l == groupNat s 3 w.c (casRegs w) l % 2 ^ (8 * w.size))

def atomBody (w : SWord) (s : State) : Res :=
  atomicWith false true w.size (scopeOf w) (ordRel w) (ordAcq w) (atomUpd s w (w.bits 8 4)) noExtra w s

def casBody (w : SWord) (s : State) : Res :=
  atomicWith false true w.size (scopeOf w) (ordRel w) (ordAcq w) (casUpd s w) (casPred s w) w s

/-- ATOMS (R125): op 9 compares and swaps. -/
def atomsBody (w : SWord) (s : State) : Res :=
  atomicWith true true w.size (scopeOf w) (ordRel w) (ordAcq w)
    (if w.bits 8 4 = 9 then casUpd s w else atomUpd s w (w.bits 8 4)) noExtra w s

/-- FXADD's contribution in a lane, with its flags (R126). -/
def fxaddTerm (w : SWord) (c : Nat) : Int × Flags :=
  match w.ty with
  | .f32 => match f32.unpack c with
    | .nan _ => (0, fINV)
    | .inf _ => (0, fINV)
    | .zero _ => (0, 0)
    | .fin m e => contribution 62 (offsetOf w) m e
  | _ =>
    let n := signedOf 64 c
    let k := clampInt (-(2 ^ 61 : Nat)) ((2 ^ 61 : Nat) - 1) n
    (k, flagIf (k != n) fOFL)

/-- The access of a lane has a place. -/
def hasPlace (t : Lane × DWord × Except TrapCode Place) : Bool := match t.2.2 with
  | .ok _ => true
  | .error _ => false

/-- FXADD (R126): relaxed; the flags are those of the lanes that do not fault. -/
def fxaddBody (w : SWord) (s : State) : Res :=
  let term (l : Lane) := fxaddTerm w (groupNat s 3 w.c w.ty.regs l)
  let upd (old : List Byte) (l : Lane) : Option (List Byte) := some (leBytes 8 (natOf 64 (leNat old + (term l).1)))
  let one := onceFor [w.d, w.a, w.b, w.c]
  let fine := maskOf (fun l => (accessLanes one w s).contains l && hasPlace (withPoison false (scopeOf w) (drain s (focusStrand s)) 8 (l, updateTarget false s w 8 l)))
  match atomicWith false false 8 (scopeOf w) false false upd noExtra w s with
  | .done t => .done (orFlags t (flagsOf fine (fun l => (term l).2)))
  | r => r

def execAtom (w : SWord) (s : State) : Out := .next (runWord (.atom w) atomBody s)
def execCas (w : SWord) (s : State) : Out := .next (runWord (.cas w) casBody s)
def execFxadd (w : SWord) (s : State) : Out := .next (runWord (.fxadd w) fxaddBody s)
def execAtoms (w : SWord) (s : State) : Out := .next (runWord (.atoms w) atomsBody s)

/-! ### Fences and hints (R127, R128) -/

/-- FENCE (R127): kinds 0 and 2 wait until the strand's stores have left its queue and every committed write of the core is
performed at the scope; kinds 0 and 1 refresh the core's view. The constant cache drops the older values whose later writers the scope covers
(R121). -/
def fenceBody (w : SWord) (s : State) : Res :=
  if enabled s w = 0 then .done s
  else
    let sc := w.bits 0 3
    let k := w.bits 3 2
    let s := if k = 1 then s else release s sc
    let s := if k = 2 then s else acquire s sc
    .done (dropConsts s (focusStrand s) sc)

def execFence (w : SWord) (s : State) : Out := .next (runWord (.fence w) fenceBody s)
/-- PREF (R128) changes nothing that a program sees. -/
def execPref (w : SWord) (s : State) : Out := .next (runWord (.pref w) (fun _ s => .done s) s)

end Sys2Proof.Machine
end

