-- ==== Sys2Proof/Machine/Events.lean ====
section
/-! DEFINITION. Barriers (R185 to R191), the extended block (R193, R194), hitches, mailboxes and SLEEP (R303 to R317): strand
opcodes 0xA8, 0xA9, 0xB0 to 0xB8, 0xBA, 0xC4, 0xC5, 0xC8, and the events that wake a strand. -/

namespace Sys2Proof.Machine

/-! ### Barriers (R185, R186) -/

/-- A barrier of a cord: EXP is the strand count until it is changed. -/
def getBar (c : Cord) (k : Nat) : Barrier := aGet { exp := c.nstr } c.bars k

/-- Latches the barrier hitches of a strand on a flip, and ends its wait for it (R305, R186). -/
def flipStrand (k : Nat) (ph : Bool) (t : Strand) : Strand :=
  let rel (st : Option Stall) : Option Stall := match st with
    | some (.bar j _) => if j = k then some .released else st
    | some (.barw j) => if j = k then some .released else st
    | _ => st
  let t : Strand := { t with
    stall := rel t.stall,
    handler := t.handler.map (fun h => { h with saved := h.saved.map (fun x => (x.1, rel x.2)) }),
    hitches := t.hitches.map (fun e => (e.1, if e.2.kind == .barrier && e.2.obj == k then { e.2 with ph := ph } else e.2)) }
  (t.hitches.foldl (fun t e => if e.2.kind == .barrier && e.2.obj == k then t.setPev e.1 true else t) t).wake

/-- A strand waits at a barrier. -/
def waitsAt (t : Strand) (k : Nat) : Bool :=
  let hit (st : Option Stall) : Bool := match st with
    | some (.bar j _) => j == k
    | some (.barw j) => j == k
    | _ => false
  hit t.stall || (match t.handler with | some h => (match h.saved with | some x => hit x.2 | none => false) | none => false)

/-- The lowest-numbered strand of a cord that has not ended. -/
def lowestStrand (s : State) (cord : Nat) : Option Nat := (strandKeys s cord).find? (fun k => !(getStrand s k).ended)

/-- STICKY is raised at a completion if it is latched (R58): the lowest strand takes it, and the strands that pass the barrier are
held. -/
def raiseSticky (s : State) (cord k : Nat) (passing : List Nat) : State :=
  let c := getCord s cord
  if c.sticky = 0 then s
  else match lowestStrand s cord with
    | none => s
    | some low =>
      let held : Nat := passing.foldl (fun a p => a + 2 ^ (p % 32)) 0
      let s := setCord s cord { c with sticky := 0 }
      let s := passing.foldl (fun s p => setStrand s p { getStrand s p with stickyHeld := true }) s
      recordTrap s low { code := .sticky, cls := .cord, aux := c.sticky.setWidth 64, held := BitVec.ofNat 64 (held + 2 ^ 32 * k) }

/-- A phase completes (R186): PH flips, CNT and AMASK become 0, waiting strands are released, hitches latch, STICKY is raised.
`passer` is a strand whose own BAR arrival completed the phase. -/
def completePhase (s : State) (cord k : Nat) (passer : Option Nat) : State :=
  let c := getCord s cord
  let b := getBar c k
  let passing := (strandKeys s cord).filter (fun p => waitsAt (getStrand s p) k || passer == some p)
  let s := setCord s cord { c with bars := aSet c.bars k { b with cnt := 0, amask := 0, ph := !b.ph } }
  let s := (strandKeys s cord).foldl (fun s p => setStrand s p (flipStrand k (!b.ph) (getStrand s p))) s
  raiseSticky s cord k passing

/-- An arrival has been counted: the phase completes when CNT reaches EXP. -/
def checkPhase (s : State) (cord k : Nat) (passer : Option Nat) : State :=
  let b := getBar (getCord s cord) k
  if 0 < b.cnt && b.exp ≤ b.cnt then completePhase s cord k passer else s

/-- Strand i arrives (R186): counted once in a phase. -/
def arriveStrand (s : State) (cord k i : Nat) (passes : Bool) : State :=
  let c := getCord s cord
  let b := getBar c k
  if b.amask.getLsbD i then s
  else
    let s := setCord s cord { c with bars := aSet c.bars k { b with cnt := b.cnt + 1, amask := b.amask ||| BitVec.twoPow 32 i } }
    checkPhase s cord k (if passes then some (cord * 32 + i) else none)

/-- An engine operation that names the barrier is accepted (R186). -/
def engineNames (s : State) (cord k : Nat) : State :=
  let c := getCord s cord
  let b := getBar c k
  setCord s cord { c with bars := aSet c.bars k { b with pend := b.pend + 1 } }

/-- An engine operation arrives (R186). -/
def arriveEngine (s : State) (cord k : Nat) : State :=
  let c := getCord s cord
  let b := getBar c k
  checkPhase (setCord s cord { c with bars := aSet c.bars k { b with pend := b.pend - 1, cnt := b.cnt + 1 } }) cord k none

/-! ### Barrier instructions (R187 to R191) -/

/-- The barrier that a word names. -/
def barOf (w : SWord) : Nat := w.bits 0 4

/-- BAR (R188): arrives with a release at .cd, then waits for the flip. -/
def barBody (w : SWord) (s : State) : Res :=
  match myStall s with
  | some .released => .done s
  | some (.bar k ph) => .wait (.bar k ph) s
  | _ =>
    once (fun w _ s =>
      let k := barOf w
      let ph := (getBar (myCord s) k).ph
      let s := arriveStrand (release s 1) (focusCord s) k s.focus.strand true
      if (getBar (myCord s) k).ph != ph then (if (me s).stickyHeld then .wait .released s else .done s)
      else .wait (.bar k ph) s) w s

/-- BARA (R189): D receives the phase before the arrival. -/
def baraBody (w : SWord) (s : State) : Res :=
  once (fun w _ s =>
    let k := barOf w
    let ph := (getBar (myCord s) k).ph
    let s := putD s w 1 (BitVec.ofNat 64 ph.toNat)
    .done (arriveStrand (release s 1) (focusCord s) k s.focus.strand false)) w s

/-- BARW (R189): waits while PH equals A[0]. -/
def barwBody (w : SWord) (s : State) : Res :=
  match myStall s with
  | some .released => .done s
  | _ =>
    once (fun w l s =>
      let k := barOf w
      if (getBar (myCord s) k).ph == (opA1 s w l).getLsbD 0 then .wait (.barw k) s else .done s) w s

/-- BARX (R190). -/
def barxBody (w : SWord) (s : State) : Res :=
  once (fun w l s =>
    let k := barOf w
    let c := myCord s
    let v := (opA1 s w l).toNat % 2 ^ 16
    let b := getBar c k
    let s := setMyCord s { c with bars := aSet c.bars k { b with exp := if v = 0 then c.nstr else v } }
    .done (checkPhase s (focusCord s) k none)) w s

def execBar (w : SWord) (s : State) : Out := .next (runWord (.bar w) barBody s)
def execBara (w : SWord) (s : State) : Out := .next (runWord (.bara w) baraBody s)
def execBarw (w : SWord) (s : State) : Out := .next (runWord (.barw w) barwBody s)
def execBarx (w : SWord) (s : State) : Out := .next (runWord (.barx w) barxBody s)

/-! ### The extended block (R162, R193, R194) -/

/-- The vector registers of a quadrant (R162). -/
def quadrantRegs : Nat := 1536

/-- The strands of a core that stand on a quadrant. -/
def quadrantStrands (s : State) (core q : Nat) : List Nat :=
  (s.strands.filter (fun e => e.1 / 512 == core && e.1 % 4 == q && e.2.live)).map (·.1)

/-- The free count of a quadrant: 1536 less the base blocks and the extended blocks of its resident strands. -/
def freeRegs (s : State) (core q : Nat) : Nat :=
  quadrantRegs - ((quadrantStrands s core q).map (fun k => (getStrand s k).base + if (getStrand s k).ext then 128 else 0)).sum

/-- A strand waits in XACQ, where it runs or with its handler in the way. -/
def waitsXacq (t : Strand) : Bool :=
  t.stall == some .xacq || (match t.handler with | some h => (match h.saved with | some x => x.2 == some .xacq | none => false) | none => false)

/-- The requests that wait on a quadrant, oldest first. -/
def xacqQueue (s : State) (core q : Nat) : List Nat :=
  (getCore s core).xacq.filter (fun k => k % 4 == q && waitsXacq (getStrand s k))

/-- Gives the block to the strand in focus: its 128 registers read 0. -/
def takeBlock (s : State) : State :=
  let t := me s
  let c := myCore s
  let k := focusStrand s
  setMyCore (setMe s { t with ext := true, v := t.v.filter (fun e => e.1 < 64) }) { c with xacq := c.xacq.filter (· != k) }

/-- XACQ (R193): the word traps ILLOP where the kernel may hold no block. A waiting request is served in its turn. -/
def xacqBody (w : SWord) (s : State) : Res :=
  if !(myCord s).hdr.flags.getLsbD 0 then .trap .illop 0
  else
    once (fun w _ s =>
      let isTry := w.bits 0 1 == 1
      let answer (s : State) (b : Bool) : State := if isTry then putPred s w w.d.toNat b else s
      let k := focusStrand s
      let q := xacqQueue s s.focus.core (k % 4)
      let room := 128 ≤ freeRegs s s.focus.core (k % 4)
      if (me s).ext then .done (answer s true)
      else if room && (q.head? == none || q.head? == some k) then .done (answer (takeBlock s) true)
      else if isTry then .done (answer s false)
      else
        let c := myCore s
        .wait .xacq (if c.xacq.contains k && waitsXacq (me s) then s
          else setMyCore s { c with xacq := c.xacq.filter (· != k) ++ [k] })) w s

/-- XREL (R194): waits as an S = 1 word does, then releases the block. -/
def xrelBody (w : SWord) (s : State) : Res :=
  once (fun _ _ s =>
    let s := settleAll s
    .done (setMe s { me s with ext := false })) w s

def execXacq (w : SWord) (s : State) : Out := .next (runWord (.xacq w) xacqBody s)
def execXrel (w : SWord) (s : State) : Out := .next (runWord (.xrel w) xrelBody s)

/-! ### Hitch instructions (R307, R310, R311) -/

/-- WANY (R307). -/
def wanyBody (w : SWord) (s : State) : Res :=
  once (fun w _ s =>
    let t := me s
    let mask := w.imm
    let due := mask &&& t.due
    let en := enabled s w
    if mask &&& t.validMask = 0 then .done (setMe s (putScalar t w.d 16))
    else match (bits16 due).head? with
      | some i => .done (leaveClause (setMe s (dispatchTo t i en w.d)) en)
      | none =>
        let c := curClause s
        let t := t.modThreads en (fun _ x => { x with st := .parked (.wany mask w.d t.parkSeq), pc := c.hdr, place := some c.word })
        .done (parkClause (setMe s { t with parkSeq := t.parkSeq + 1 }) en)) w s

/-- The kind of a number. -/
def hitchKind (n : Nat) : HitchKind := match n with | 0 => .barrier | 1 => .token | _ => .mailbox

/-- EVB (R310): binding replaces the entry in one step. -/
def evbBody (w : SWord) (s : State) : Res :=
  once (fun w _ s =>
    let t := me s
    let i := w.d.toNat
    let obj := w.b.toNat
    let h : Hitch := { kind := hitchKind w.a.toNat, obj := obj, ph := w.a == 0 && (getBar (myCord s) obj).ph, handler := branchTarget s w }
    let on := match h.kind with
      | .barrier => false
      | .token => !t.tokens.contains obj
      | .mailbox => mailFull t obj
    .done (setMe s (Strand.setPev { t with hitches := aSet t.hitches i h } i on).wake)) w s

/-- EVM (R311). -/
def evmBody (w : SWord) (s : State) : Res :=
  once (fun w _ s =>
    let t := me s
    .done (setMe s (if w.c = 0 then { t with evmask := t.evmask ||| w.imm }
      else Strand.wake { t with evmask := t.evmask &&& ~~~w.imm }))) w s

/-- EVP (R311). -/
def evpBody (w : SWord) (s : State) : Res :=
  once (fun w _ s =>
    let p := (me s).pev
    let s := putD s w 1 (p.setWidth 64)
    .done (setMe s ((bits16 w.imm).foldl Strand.clearPev (me s)))) w s

/-- EVC (R311). -/
def evcBody (w : SWord) (s : State) : Res :=
  once (fun w _ s =>
    .done (setMe s ((bits16 w.imm).foldl (fun t i => Strand.setPev { t with hitches := aDel t.hitches i } i false) (me s)))) w s

def execWany (w : SWord) (s : State) : Out := .next (runWord (.wany w) wanyBody s)
def execEvb (w : SWord) (s : State) : Out := .next (runWord (.evb w) evbBody s)
def execEvm (w : SWord) (s : State) : Out := .next (runWord (.evm w) evmBody s)
def execEvp (w : SWord) (s : State) : Out := .next (runWord (.evp w) evpBody s)
def execEvc (w : SWord) (s : State) : Out := .next (runWord (.evc w) evcBody s)

/-! ### Mailboxes (R304, R312 to R316) -/

/-- The mailbox slots. -/
def mailSlots : List Nat := List.range 8

/-- The lowest empty slot. -/
def emptySlot (t : Strand) : Option Nat := mailSlots.find? (fun i => (aGet? t.mail i).isNone)

/-- A message fills a slot with the next stamp (R313). -/
def fillSlot (t : Strand) (i : Nat) (m : DWord) : Strand :=
  { t with mail := aSet t.mail i ⟨m, t.mailSeq⟩, mailSeq := t.mailSeq + 1 }

/-- A message of the device (R313): it is held where no slot is empty, or where the cord is being saved. -/
def postDevice (s : State) (k : Nat) (m : DWord) : State :=
  modWake s k (fun t =>
    if (getCord s (k / 32)).stopping then { t with heldMsg := some m }
    else match emptySlot t with
      | some i => (fillSlot t i m).syncMail
      | none => { t with heldMsg := some m })

/-- HELD is posted where a slot is empty: before any later post (R313). -/
def Strand.postHeld (t : Strand) : Strand := match t.heldMsg, emptySlot t with
  | some m, some j => { fillSlot t j m with heldMsg := none }
  | _, _ => t

/-- Empties a slot; HELD is posted at once (R313). -/
def emptyMail (t : Strand) (i : Nat) : Strand :=
  Strand.postHeld { t with mail := aDel t.mail i }

/-- MPOST (R314): a release at .co. A message that is held is posted first, which is a change of its own (R308). -/
def mpostBody (w : SWord) (s : State) : Res :=
  once (fun w l s =>
    let s := release s 2
    let n := (opB1 s w l).toNat
    let k := focusCord s * 32 + n
    if (myCord s).nstr ≤ n || (getStrand s k).ended then .done (putPred s w w.d.toNat true)
    else
      let s := if (getStrand s k).heldMsg.isSome then modWake s k (fun t => t.postHeld.syncMail) else s
      match emptySlot (getStrand s k) with
        | none => .done (putPred s w w.d.toNat true)
        | some i => .done (putPred (modWake s k (fun t => (fillSlot t i (opA2 s w l)).syncMail)) w w.d.toNat false)) w s

/-- The slot with the oldest stamp among the full ones. -/
def oldestMail : AMap Mail → Option (Nat × Mail)
  | [] => none
  | (i, m) :: t => match oldestMail t with
    | some (j, n) => if m.stamp < n.stamp then some (i, m) else some (j, n)
    | none => some (i, m)

/-- MTAKE (R315). -/
def mtakeBody (w : SWord) (s : State) : Res :=
  once (fun w _ s =>
    let t := me s
    let pick := if w.bits 0 4 = 15 then oldestMail t.mail else (aGet? t.mail (w.bits 0 4)).map (fun m => (w.bits 0 4, m))
    match pick with
    | none => .done (putPred (putD s w 2 0) w w.c.toNat true)
    | some (i, m) => .done (putPred (putD (setMe s (emptyMail t i).syncMail.wake) w 2 m.msg) w w.c.toNat false)) w s

/-- MCNT (R316). -/
def mcntBody (w : SWord) (s : State) : Res :=
  once (fun w _ s =>
    let t := me s
    let full := mailSlots.foldl (fun a i => if (aGet? t.mail i).isSome then a + 2 ^ i else a) 0
    .done (putD s w 1 (BitVec.ofNat 64 (full + 2 ^ 8 * t.mail.length + 2 ^ 12 * t.heldMsg.isSome.toNat)))) w s

def execMpost (w : SWord) (s : State) : Out := .next (runWord (.mpost w) mpostBody s)
def execMtake (w : SWord) (s : State) : Out := .next (runWord (.mtake w) mtakeBody s)
def execMcnt (w : SWord) (s : State) : Out := .next (runWord (.mcnt w) mcntBody s)

/-! ### Tokens (R25, R247) -/

/-- The engine writes a token of a strand (R25): its hitches latch (R305). scope is that at which its read joins (R210). A strand
that has ended keeps no token. -/
def writeToken (s : State) (k : Nat) (tok : Option Nat) (v : Word) (scope : Nat) : State :=
  match tok with
  | none => s
  | some r =>
    modWake s k (fun t =>
      if !t.tokens.contains r then t
      else
        let t := putS { t with tokens := t.tokens.filter (· != r), joins := (if scope ≤ 2 then aDel t.joins r else aSet t.joins r scope) } r v
        t.hitches.foldl (fun t e => if e.2.kind == .token && e.2.obj == r then t.setPev e.1 true else t) t)

/-- The token register of a destination. -/
def tokenOf (d : BitVec 8) : Option Nat := if isScalar d then some (d.toNat - 0xC0) else none

/-- The token register still waits for an earlier token (R247). -/
def tokenBusy (s : State) (w : SWord) : Bool := match tokenOf w.d with
  | some r => (me s).tokens.contains r
  | none => false

/-- The token register becomes outstanding. -/
def startToken (s : State) (w : SWord) : State := match tokenOf w.d with
  | some r => setMe s { me s with tokens := (me s).tokens ++ [r] }
  | none => s

/-! ### SLEEP (R317) -/

/-- The position of the word after the one in progress. -/
def nextPosition (s : State) : VAddr × Option Nat :=
  let c := curClause s
  if c.nm1 ≤ c.word then (nextHeader s, none) else (c.hdr, some (c.word + 1))

/-- SLEEP. -/
def sleepBody (w : SWord) (s : State) : Res :=
  once (fun w l s =>
    let n := (opB1 s w l).toNat
    let t := me s
    if n = 0 || t.due != 0 then .done s
    else
      let en := enabled s w
      let p := nextPosition s
      .done (parkClause (setMe s (t.modThreads en (fun _ x => { x with st := .parked (.sleep n), pc := p.1, place := p.2 }))) en)) w s

def execSleep (w : SWord) (s : State) : Out := .next (runWord (.sleep w) sleepBody s)

/-- The group that sleeps with a lane: the threads at its position with as much time left. -/
def sleepGroup (t : Strand) (l : Lane) : LaneMask :=
  let x := t.threads.get l
  t.threadsIn (fun y => y.st == x.st && y.pc == x.pc && y.place == x.place)

/-- SLEEP_EXPIRY (R317): a group whose cycle count has run out continues. -/
def execSleepExpiry (s : State) : Out :=
  let t := me s
  let l := laneOfNat s.focus.ix
  match (t.threads.get l).st with
  | .parked (.sleep 0) => .next (setMe s (t.modThreads (sleepGroup t l) (fun _ x => { x with st := .ready })))
  | _ => .next s

/-- LONG_LATENCY_RESULT (R22): the ix-th outstanding result of the strand is written. -/
def execLongLatencyResult (s : State) : Out :=
  let p := (me s).pend
  match p[s.focus.ix]? with
  | some e => .next { betweenWords (settle s [e] (lDel p s.focus.ix)) with free := s.free + 1 }
  | none => .next s

/-- The oldest store of the capstan's queue commits (R284). -/
def commitCapstan (s : State) (core : Nat) : State :=
  match (getCore s core).run with
  | none => s
  | some r => match r.stores with
    | [] => s
    | q :: qs => commitStore (setCore s core { getCore s core with run := some { r with stores := qs } }) core r.call.cord (.engine r.call.cord) q

/-- STORE_COMMIT (R204): the oldest stores of the strand's queue commit; for number 32, the oldest of the capstan's. -/
def execStoreCommit (s : State) : Out :=
  .next (if 32 ≤ s.focus.strand then commitCapstan s s.focus.core else commitFirst s (focusStrand s))

end Sys2Proof.Machine
end

