-- ==== Sys2Proof/Machine/Tilth.lean ====
section
/-! DEFINITION. Tilth, the object engine (R214 to R225, R382): handle checks, counts, frames, allocation, reclaim, destruction, tier
change and the block-table cache, with its events RECLAIM, OBJECT_MEMORY_RETURN and BTINV_COMPLETE. -/

namespace Sys2Proof.Machine

/-! ### Handle checks (R218) -/

/-- What the checks of R218 find. -/
inductive Checked where
  | null
  | gone
  | fault (c : TrapCode)
  | alive (i : Nat) (o : Obj)
  deriving Repr

/-- How an instruction treats bit W. -/
inductive WeakRule where
  | either | strong | weak
  deriving DecidableEq, Repr

/-- The checks in their order. -/
def checkHandle (s : State) (job : Nat) (h : DWord) (r : WeakRule) : Checked :=
  if h = 0 then .null
  else if !handleForm s job h then .fault .memfault
  else if r == .strong && hWeak h then .fault .weakuse
  else if r == .weak && !hWeak h then .fault .memfault
  else if handleAlive s job h then .alive (hIndex h) (getObj s job (hIndex h))
  else .gone

/-! ### Objects, frames and places (R217, R221) -/

/-- The object table's indices. -/
def objIndices (s : State) (job : Nat) : List Nat := List.range (aGet {} s.jobs job).tlen

/-- The 64 KiB frame. -/
def frameSize : Nat := 65536

/-- The base and the size of a job's region in a tier (R399). -/
def regionOf (s : State) (job tier : Nat) : Nat × Nat :=
  let j := aGet {} s.jobs job
  if tier = 0 then (j.nsbase, j.nslen * 2 ^ 21) else (j.plbase, j.pllen * 2 ^ 21)

/-- What a job's objects occupy in a tier: alive and dying ones. -/
def occupied (s : State) (job tier : Nat) : List (Nat × Nat) :=
  (objIndices s job).filterMap (fun i =>
    let o := getObj s job i
    if o.st != 0 && o.tier == tier then some (o.addr, o.size) else none)

/-- Nothing occupies n bytes at a physical address. -/
def unoccupied (occ : List (Nat × Nat)) (a n : Nat) : Bool := occ.all (fun o => !overlaps o.1 o.2 a n)

/-- The number of free frames of a job in a tier (R221). -/
def freeFrames (s : State) (job tier : Nat) : Nat :=
  let r := regionOf s job tier
  let occ := occupied s job tier
  ((List.range (r.2 / frameSize)).filter (fun f => unoccupied occ (r.1 + f * frameSize) frameSize)).length

/-- The marks of a job and tier. -/
def lowMark (s : State) (job tier : Nat) : Nat := let j := aGet {} s.jobs job; if tier = 0 then j.low0 else j.low1
def highMark (s : State) (job tier : Nat) : Nat := let j := aGet {} s.jobs job; if tier = 0 then j.high0 else j.high1

/-- The first of n numbers from i up that satisfies p. -/
def firstFrom (p : Nat → Bool) : Nat → Nat → Option Nat
  | 0, _ => none
  | n + 1, i => if p i then some i else firstFrom p n (i + 1)

/-- The lowest place for an object of a class (R221): whole contiguous frames from class 10 up, and otherwise a place in one frame at
a multiple of its size. The address is aligned to min(size, 2 MiB) (R215). -/
def findPlace (s : State) (job tier cls : Nat) : Option Nat :=
  let r := regionOf s job tier
  let occ := occupied s job tier
  let size := 2 ^ (cls + 6)
  let step := if cls < 10 then size else frameSize
  (firstFrom (fun i => (r.1 + i * step) % min size (2 ^ 21) == 0 && i * step + size ≤ r.2 &&
    unoccupied occ (r.1 + i * step) size) (r.2 / step) 0).map (fun i => r.1 + i * step)

/-- The lowest free index whose generation is below 0xFFFF (R217). -/
def freeIndex (s : State) (job : Nat) : Option Nat :=
  firstFrom (fun i => let o := getObj s job i; o.st == 0 && o.gen < 0xFFFF) (aGet {} s.jobs job).tlen 0

/-- The number of free indices whose generation is below 0xFFFF. -/
def freeIndices (s : State) (job : Nat) : Nat :=
  ((objIndices s job).filter (fun i => let o := getObj s job i; o.st == 0 && o.gen < 0xFFFF)).length

/-! ### The end of an object (R217, R220 to R222) -/

/-- Destruction or free, one indivisible write at the device point: GEN advances and STATE becomes dying. -/
def endObject (s : State) (job i : Nat) (o : Obj) : State :=
  { setObj s job i { o with gen := o.gen + 1, st := 2 } with dying := s.dying ++ [(job, i)] }

/-- An LDW that read the object has not returned. -/
def ldwPending (s : State) (job i : Nat) : Bool :=
  s.strands.any (fun e => (getCord s (e.1 / 32)).job == job && e.2.pend.any (fun p => p.objs.contains i))

/-- A copy has pinned a page-tile on the object (R225). -/
def pinnedBy (c : CopyOp) (i : Nat) : Bool := c.pins.any (fun p => p.2.live && hIndex p.2.handle == i)

/-- Some operation of the job has pinned the object. -/
def pinned (s : State) (job i : Nat) : Bool :=
  s.cores.any (fun e => e.2.copies.any (fun c => (getCord s c.cord).job == job && pinnedBy c i))

/-- A dying object's memory may be returned (R222). -/
def mayReturn (s : State) (job i : Nat) : Bool := s.dying.contains (job, i) && !ldwPending s job i && !pinned s job i

/-- The next free index above one (R215): TLEN where there is none (log entry 19). -/
def nextFree (s : State) (job i : Nat) : Nat :=
  let n := (aGet {} s.jobs job).tlen
  (firstFrom (fun k => let o := getObj s job k; o.st == 0 && o.gen < 0xFFFF) (n - (i + 1)) (i + 1)).getD n

/-- The AGE of a free entry is the next free index (R215). -/
def linkFree (s : State) (job i : Nat) : State :=
  let o := getObj s job i
  if o.st = 0 then setObj s job i { o with age := nextFree s job i } else s

/-- The free entries below an index, down to the nearest that may be allocated. -/
def freeBelow (s : State) (job : Nat) : Nat → List Nat
  | 0 => []
  | k + 1 =>
    let o := getObj s job k
    if o.st != 0 then freeBelow s job k else if o.gen < 0xFFFF then [k] else k :: freeBelow s job k

/-- An index has become free or is free no longer: its entry and the free ones below it take the next free index (R215). -/
def relink (s : State) (job i : Nat) : State := (i :: freeBelow s job i).foldl (fun s k => linkFree s job k) s

/-- The memory of a dying object is returned (R222, R382): STATE free and both counts 0, CLASS and GEN as they stand. -/
def returnObject (s : State) (job i : Nat) : State :=
  if mayReturn s job i then
    let o := getObj s job i
    relink { setObj s job i { o with st := 0, sc := 0, wc := 0 } with dying := s.dying.filter (· != (job, i)) } job i
  else s

/-- Returns the memory of every dying object of a job for which nothing is pending. -/
def returnAll (s : State) (job : Nat) : State := s.dying.foldl (fun s d => if d.1 = job then returnObject s d.1 d.2 else s) s

/-- The candidate of R221: alive, no strong count, some weak count, least (PRI, AGE). -/
def candidateOf (s : State) (job tier : Nat) : Option (Nat × Obj) :=
  (objIndices s job).foldl (fun best i =>
    let o := getObj s job i
    if o.st == 1 && o.tier == tier && o.sc == 0 && 1 ≤ o.wc then
      match best with
      | none => some (i, o)
      | some (j, p) => if o.pri < p.pri || (o.pri == p.pri && o.age < p.age) then some (i, o) else some (j, p)
    else best) none

/-- The loop of R221: n bounds the number of objects there are. -/
def reclaimFrom (job tier : Nat) : Nat → State → State
  | 0, s => s
  | n + 1, s =>
    if freeFrames s job tier < highMark s job tier then
      match candidateOf s job tier with
      | none => s
      | some (i, o) => reclaimFrom job tier n (returnObject (endObject s job i o) job i)
    else s

/-- Reclaim in a tier (R221). -/
def reclaim (s : State) (job tier : Nat) : State := reclaimFrom job tier (aGet {} s.jobs job).tlen (returnAll s job)

/-- Tilth reclaims when the free count falls below LOW (R221): the event is due. `free` is the count before. -/
def noteLow (free : Nat) (s : State) (job tier : Nat) : State :=
  if freeFrames s job tier < free && freeFrames s job tier < lowMark s job tier then
    { s with agenda := s.agenda ++ [.event { ix := job, row := tier } .reclaim],
             lowDue := if s.lowDue.contains (job, tier) then s.lowDue else s.lowDue ++ [(job, tier)] }
  else s

/-- A count changes (R220), strong or weak; none where it would pass its range. -/
def changeCount (s : State) (job i : Nat) (strong up : Bool) : Option State :=
  let o := getObj s job i
  let v := if strong then o.sc else o.wc
  if up then
    if v = 2 ^ 24 - 1 then none
    else some (setObj s job i (if strong then { o with sc := v + 1 } else { o with wc := v + 1 }))
  else if v = 0 then none
  else
    let o' : Obj := if strong then { o with sc := v - 1 } else { o with wc := v - 1 }
    some (if o'.sc = 0 && o'.wc = 0 then endObject s job i o' else setObj s job i o')

/-! ### Allocation (R216, R230) -/

/-- Zeroes bytes at the device point. -/
def zeroRange (s : State) (key n : Nat) : State :=
  let out (k : Nat) : Bool := !(key ≤ k && k < key + n)
  let s := noteWrite .unit key n (settleSys s key n)
  poolWritten { s with mem := s.mem.filter (fun e => out e.1), sysLag := s.sysLag.filter (fun e => out e.1),
                       poisoned := s.poisoned.filter (fun p => !(key ≤ p && p + 8 ≤ key + n)) } key n

/-- Makes an object at an index and a place. -/
def makeObject (s : State) (job i tier cls pri addr : Nat) : DWord × State :=
  let o := getObj s job i
  let free := freeFrames s job tier
  let s := zeroRange s (jobKey job tier addr) (2 ^ (cls + 6))
  let s := setObj s job i { addr := addr, tier := tier, cls := cls, pri := pri, st := 1, sc := 1, wc := 0, gen := o.gen,
                            age := s.allocSeq % 2 ^ 64, spec := 0 }
  (mkHandle false cls o.gen i, noteLow free (relink { s with allocSeq := s.allocSeq + 1 } job i) job tier)

/-- Allocates an object where the tier can hold it as it stands (R230). -/
def allocateNow (s : State) (job tier cls pri : Nat) : Option (DWord × State) :=
  match findPlace s job tier cls, freeIndex s job with
  | some a, some i => some (makeObject s job i tier cls pri a)
  | _, _ => none

/-- Allocates an object (R230): none where the table or the tier, after reclaim, cannot hold it. -/
def allocate (s : State) (job tier cls pri : Nat) : Option (DWord × State) :=
  let s := returnAll s job
  match freeIndex s job with
  | none => none
  | some _ => allocateNow (if (findPlace s job tier cls).isNone then reclaim s job tier else s) job tier cls pri

/-- The state after an attempt to allocate: a failed one has reclaimed (R230). -/
def afterFailed (s : State) (job tier : Nat) : State :=
  let s := returnAll s job
  match freeIndex s job with
  | none => s
  | some _ => reclaim s job tier

/-! ### Tier change (R223) -/

/-- A queued store to a range that has moved. -/
def QStore.moved (old new n : Nat) (q : QStore) : QStore :=
  if !q.scratch && old ≤ q.key && q.key < old + n then { q with key := new + (q.key - old) } else q

/-- What is on its way to a range that has moved goes to the new place (R223): the stores still queued. Nothing keeps an older view of the
new place. -/
def moveQueued (s : State) (old new n : Nat) : State :=
  let core (c : Core) : Core :=
    { c with view := dropView c.view new n, run := c.run.map (fun r => { r with stores := r.stores.map (·.moved old new n) }) }
  { s with strands := s.strands.map (fun e => (e.1, { e.2 with stores := e.2.stores.map (·.moved old new n) })),
           cores := s.cores.map (fun e => (e.1, core e.2)), dieLag := s.dieLag.map (fun e => (e.1, dropView e.2 new n)) }

/-- Moves an alive object to another tier: its bytes are copied, then ADDR and TIER change in one event. none where the tier
cannot hold it, after reclaim. Every committed write that is on its way reaches the old place first; a queued store goes to the new one. -/
def changeTier (s : State) (job i tier : Nat) : Option State :=
  let o := getObj s job i
  if o.st != 1 then none
  else if o.tier = tier then some s
  else
    let s := if (findPlace s job tier o.cls).isNone then reclaim s job tier else s
    match findPlace s job tier o.cls with
    | none => none
    | some a =>
      let s := (List.range 4).foldl flushDevice (s.cores.foldl (fun s e => flushDie s e.1) s)
      let key := jobKey job o.tier o.addr
      let moved := (s.mem.filter (fun e => key ≤ e.1 && e.1 < key + o.size)).map (fun e => (jobKey job tier a + (e.1 - key), e.2))
      let bad := (s.poisoned.filter (fun p => key ≤ p && p < key + o.size)).map (fun p => jobKey job tier a + (p - key))
      let free := freeFrames s job tier
      let s := zeroRange s (jobKey job tier a) o.size
      let s := moveQueued (moved.foldl (fun s e => devWr s e.1 [e.2]) s) key (jobKey job tier a) o.size
      some (noteLow free (setObj { s with poisoned := s.poisoned ++ bad } job i { o with addr := a, tier := tier }) job tier)

/-! ### The block-table cache (R225, R234, R235) -/

/-- The cached handle of a table entry on a core. -/
def btCached (s : State) (core job : Nat) (table : DWord) (i : Nat) : Option DWord :=
  ((getCore s core).bt.find? (fun e => e.job == job && e.table == table && e.ix == i)).map (·.handle)

/-- Keeps a table entry in a core's cache. -/
def btKeep (s : State) (core job : Nat) (table : DWord) (i : Nat) (h : DWord) : State :=
  let c := getCore s core
  setCore s core { c with bt := ⟨job, table, i, h⟩ :: c.bt.filter (fun e => !(e.job == job && e.table == table && e.ix == i)) }

/-- The place of n bytes at a displacement of an address or a handle, for a job, with the core's cache of translations. -/
def placeAt (s : State) (core : Option Nat) (job : Nat) (a : DWord) (disp n : Nat) (need : Need) : Except TrapCode Place :=
  if isHandle a then (if disp % n != 0 then .error .align else handlePlace s job a disp n)
  else
    let b := a + BitVec.ofNat 64 disp
    if b.toNat % n != 0 then .error .align
    else match translate s core job b need with
      | some p => .ok p
      | none => .error .memfault

/-- Looks up entry i of a block table (R225): the cached handle, or the entry at the device point; where the two differ, or the entry's
bytes carry an uncorrectable error, the lookup has either, by an open choice. `n` numbers the choice. An entry that is read with an
uncorrectable error gives POISON (R116; DEDUCED, log entry 35). Where a strand looks up (`sees`), what it has read at the device point moves
the core's views of it there (R203). -/
def btLookup (s : State) (core job : Nat) (table : DWord) (i n : Nat) (sees : Bool) : Except TrapCode (DWord × State) :=
  match placeAt s (some core) job table (8 * i) 8 .rd with
  | .error c => .error c
  | .ok p =>
    let s := match p.tlb with | some t => cacheTlb s core t | none => s
    let now := BitVec.ofNat 64 (leNat (devRdN s p.key 8))
    let bad := poisonHit s p.key 8
    let held := (btCached s core job table i).filter (fun old => (bad || old != now) && Config.unsettled s.free (4 + 8 * n))
    match held with
    | some old => .ok (old, btKeep s core job table i old)
    | none =>
      if bad then .error .poison
      else .ok (now, btKeep (if sees then seeDevice s core (p.key / 16 * 16) 16 else s) core job table i now)

/-- A cache entry lies in a range of a table: every entry of the table for a count of 0. -/
def BtEnt.inRange (e : BtEnt) (job : Nat) (table : DWord) (first count : Nat) : Bool :=
  e.job == job && e.table == table && (count == 0 || (first ≤ e.ix && e.ix < first + count))

/-- Removes a range from every core's cache. -/
def btDrop (s : State) (job : Nat) (table : DWord) (first count : Nat) : State :=
  { s with cores := s.cores.map (fun e => (e.1, { e.2 with bt := e.2.bt.filter (fun x => !x.inRange job table first count) })) }

/-- The pins on mappings of a range among some copies: operation and page. -/
def pinsIn (table : DWord) (first count : Nat) (cs : List CopyOp) : List (Nat × Nat) :=
  cs.flatMap (fun c => (c.pins.filter (fun p =>
    p.2.table == table.toNat && (count == 0 || (first ≤ p.1 % 2 ^ 32 && p.1 % 2 ^ 32 < first + count)))).map (fun p => (c.id, p.1)))

/-- The pins of a job's operations on mappings of a range. The graph unit's engine moves a record in one step, so it holds no pin
between steps. -/
def pinOps (s : State) (job : Nat) (table : DWord) (first count : Nat) : List (Nat × Nat) :=
  s.cores.flatMap (fun e => pinsIn table first count (e.2.copies.filter (fun c => (getCord s c.cord).job == job)))

/-- An operation still holds a pin. -/
def stillPins (s : State) (x : Nat × Nat) : Bool :=
  s.cores.any (fun e => e.2.copies.any (fun c => c.id == x.1 && (aGet? c.pins x.2).isSome))

/-! ### Events -/

/-- RECLAIM (R221): of the job and tier in focus, where the free count has fallen below LOW since the last one. -/
def execReclaim (s : State) : Out :=
  let d := (s.focus.ix, s.focus.row)
  .next (if s.lowDue.contains d then reclaim { s with lowDue := s.lowDue.filter (· != d) } d.1 d.2 else s)

/-- OBJECT_MEMORY_RETURN (R222): of the job and index in focus. -/
def execObjectMemoryReturn (s : State) : Out := .next (returnObject s s.focus.ix s.focus.row)

/-- BTINV_COMPLETE (R235): the ix-th BTINV's pins are released, and its token is written; its read is an acquire at .dv. -/
def execBtinvComplete (s : State) : Out :=
  match s.btinvs[s.focus.ix]? with
  | none => .next s
  | some b =>
    if b.ops.any (stillPins s) then .next s
    else .next (writeToken { s with btinvs := lDel s.btinvs s.focus.ix } (b.cord * 32 + b.strand) b.token 0 4)

end Sys2Proof.Machine
end

