-- ==== Sys2Proof/Machine/Objects.lean ====
section
/-! DEFINITION. The object instructions: strand opcodes 0x90 to 0x99 (R226 to R235). -/

namespace Sys2Proof.Machine

/-- What one lane of an object instruction makes: the state, and the value and predicate it writes, or its fault with the data
address and the AUX item. -/
inductive LaneRes where
  | done (v : DWord) (p : Bool) (s : State)
  | fault (c : TrapCode) (addr aux : DWord) (s : State)

/-- Serves lanes one after another: values with predicates, faults, and the state. -/
def serveLanes (f : State → Lane → LaneRes) : List Lane → State → List (Lane × DWord × Bool) × List (Lane × TrapCode × DWord × DWord) × State
  | [], s => ([], [], s)
  | l :: t, s =>
    match f s l with
    | .done v p s' =>
      let u := serveLanes f t s'
      ((l, v, p) :: u.1, u.2.1, u.2.2)
    | .fault c a x s' =>
      let u := serveLanes f t s'
      (u.1, (l, c, a, x) :: u.2.1, u.2.2)

/-- The body of a fixed-class object instruction: lanes served by f in the order given, then the destination and the predicate
written, then the faults. -/
def objectWord (one : Bool) (order : List Lane → List Lane) (regs : Nat) (pred : Option Nat) (f : State → Lane → LaneRes)
    (w : SWord) (s : State) : Res :=
  let en := enabled s w
  let c := curClause s
  let r := serveLanes f (order (accessLanes one w s)) s
  let m := maskFor one en (r.1.map (·.1))
  let val := byLane one (0, false) r.1
  let t := me r.2.2
  let t := if regs = 0 then t else putReg t w.d regs m (fun l => (val l).1)
  let t := match pred with
    | some p => putP t p m (fun l => (val l).2)
    | none => t
  .done (faultHere (setMe r.2.2 t) c (r.2.1.flatMap (fun x => if one then (lanesOf en).map (fun l => (l, x.2)) else [x])))

/-- Lanes in an order that the device does not fix (R220). -/
def openOrder (s : State) (ls : List Lane) : List Lane := serveOrder s.free 32 ls

/-- The job of the cord in focus. -/
def myJob (s : State) : Nat := (myCord s).job

/-! ### LDW (R227) -/

/-- The displacement that a lane of LDW forms, and the data address: the handle with it. -/
def ldwDisp (w : SWord) (s : State) (l : Lane) : Int := (opB1 s w l).toInt * w.size + offsetOf w * w.size
def ldwAddr (w : SWord) (s : State) (l : Lane) : DWord := opA2 s w l + BitVec.ofInt 64 (ldwDisp w s l)

/-- A lane of LDW: gone, or the bytes read at the device point as one access with the generation. -/
def ldwLane (w : SWord) (s : State) (l : Lane) : Except (TrapCode × DWord) (Option (Nat × Nat)) :=
  let h := opA2 s w l
  let z := w.size
  let disp := ldwDisp w s l
  let a := ldwAddr w s l
  match checkHandle s (myJob s) h .either with
  | .null => .ok none
  | .gone => .ok none
  | .fault c => .error (c, a)
  | .alive i o =>
    if disp < 0 || (o.size : Int) ≤ disp then .error (.memfault, a)
    else match handlePlace s (myJob s) (h &&& ~~~(BitVec.twoPow 64 62)) disp z with
      | .ok p => .ok (some (p.key, i))
      | .error c => .error (c, a)

/-- What a lane of LDW has found. -/
abbrev LdwFound := Lane × Except (TrapCode × DWord) (Option (Nat × Nat))

/-- The value and the predicate of a lane that has found its object gone, or alive with sound data. -/
def ldwRead (s : State) (z : Nat) (x : LdwFound) : Option (Lane × Nat × Bool) := match x.2 with
  | .ok none => some (x.1, 0, true)
  | .ok (some (k, _)) => if poisonHit s k z then none else some (x.1, leNat (devRdN s k z), false)
  | .error _ => none

/-- A lane whose data carries an uncorrectable error, with its data address (R364). -/
def ldwBad (s : State) (w : SWord) (z : Nat) (x : LdwFound) : Option (Lane × DWord) := match x.2 with
  | .ok (some (k, _)) => if poisonHit s k z then some (x.1, ldwAddr w s x.1) else none
  | _ => none

/-- The object that a lane reads. -/
def ldwObj (x : LdwFound) : Option Nat := match x.2 with
  | .ok (some (_, i)) => some i
  | _ => none

/-- The faults that a lane's access makes. -/
def ldwFaults (one : Bool) (en : LaneMask) (x : LdwFound) : List (Lane × TrapCode × DWord × DWord) := match x.2 with
  | .error (e, a) => (if one then lanesOf en else [x.1]).map (fun l => (l, e, a, 0))
  | .ok _ => []

/-- A lane has read the device point: no later access of the core goes back (R203). -/
def ldwSee (s : State) (x : LdwFound) : State := match x.2 with
  | .ok (some (k, _)) => seeDevice s s.focus.core (k / 16 * 16) 16
  | _ => s

/-- LDW: its results are outstanding, and the objects read keep their memory until they are written. -/
def ldwBody (w : SWord) (s : State) : Res :=
  let one := onceFor [w.d, w.a, w.b]
  let en := enabled s w
  let c := curClause s
  let z := w.size
  let rs := (accessLanes one w s).map (fun l => (l, ldwLane w s l))
  let read := rs.filterMap (ldwRead s z)
  let seen := rs.foldl ldwSee s
  let bad := rs.filterMap (ldwBad s w z)
  let objs := rs.filterMap ldwObj
  let faults := rs.flatMap (ldwFaults one en)
  let m := maskFor one en (read.map (·.1))
  let val := byLane one (0, false) read
  let ws := groupWrites w.d w.dataRegs m (fun l => (val l).1) ++ predWrites w.c.toNat m (fun l => (val l).2)
  let poison := bad.flatMap (fun x => (if one then lanesOf en else [x.1]).map (fun l => (l, x.2)))
  let t := pushPend (me s) .ld ws poison c.hdr c.word
  let t := if ws.isEmpty && poison.isEmpty then t
    else match t.pend.getLast? with
      | some e => { t with pend := t.pend.dropLast ++ [{ e with objs := objs }] }
      | none => t
  .done (faultHere (setMe seen t) c faults)

def execLdw (w : SWord) (s : State) : Out := .next (runWord (.ldw w) ldwBody s)

/-! ### Counts (R228, R229) -/

/-- A lane of OUPG. -/
def oupgLane (w : SWord) (s0 : State) (s : State) (l : Lane) : LaneRes :=
  let h := opA2 s0 w l
  match checkHandle s (myJob s) h .either with
  | .null => .done 0 true s
  | .gone => .done 0 true s
  | .fault c => .fault c h 0 s
  | .alive i _ =>
    match changeCount s (myJob s) i true true with
    | none => .fault .memfault h 0 s
    | some t =>
      let o := getObj t (myJob s) i
      let t := setObj { t with allocSeq := t.allocSeq + 1 } (myJob s) i { o with age := s.allocSeq % 2 ^ 64 }
      .done (h &&& ~~~(BitVec.twoPow 64 62)) false t

/-- OUPG (R228): a success is an acquire at .dv. -/
def oupgBody (w : SWord) (s : State) : Res :=
  match objectWord (onceFor [w.d, w.a]) (openOrder s) 2 (some w.c.toNat) (oupgLane w s) w s with
  | .done t => .done (if t.allocSeq = s.allocSeq then t else acquire t 4)
  | r => r

/-- A lane of OREL, OWK and OWD: null and, where `quiet`, gone handles have no effect. -/
def countLane (r : WeakRule) (strong up quiet : Bool) (w : SWord) (s0 : State) (s : State) (l : Lane) : LaneRes :=
  let h := opA2 s0 w l
  match checkHandle s (myJob s) h r with
  | .null => .done 0 false s
  | .gone => if quiet then .done 0 false s else .fault .memfault h 0 s
  | .fault c => .fault c h 0 s
  | .alive i _ =>
    match changeCount s (myJob s) i strong up with
    | none => .fault .memfault h 0 s
    | some t => .done (h ||| BitVec.twoPow 64 62) false t

/-- OREL (R229): a release at .dv before the counts change. -/
def orelBody (w : SWord) (s : State) : Res :=
  let s1 := if enabled s w = 0 then s else release s 4
  objectWord (onceFor [w.a]) (openOrder s) 0 none (countLane .strong true false false w s) w s1

def owkBody (w : SWord) (s : State) : Res :=
  objectWord (onceFor [w.d, w.a]) (openOrder s) 2 none (countLane .strong false true false w s) w s

def owdBody (w : SWord) (s : State) : Res :=
  objectWord (onceFor [w.a]) (openOrder s) 0 none (countLane .weak false false true w s) w s

def execOupg (w : SWord) (s : State) : Out := .next (runWord (.oupg w) oupgBody s)
def execOrel (w : SWord) (s : State) : Out := .next (runWord (.orel w) orelBody s)
def execOwk (w : SWord) (s : State) : Out := .next (runWord (.owk w) owkBody s)
def execOwd (w : SWord) (s : State) : Out := .next (runWord (.owd w) owdBody s)

/-! ### ONEW and OPRI (R230, R231) -/

/-- A lane of ONEW. -/
def onewLane (w : SWord) (s : State) (_ : Lane) : LaneRes :=
  let tier := w.bits 6 1
  match allocate s (myJob s) tier (w.bits 0 6) (w.bits 8 4) with
  | some (h, t) => .done h false t
  | none => .done 0 true (afterFailed s (myJob s) tier)

/-- ONEW (R230): lanes in ascending order; an acquire at .dv. -/
def onewBody (w : SWord) (s : State) : Res :=
  match objectWord (onceFor [w.d]) id 2 (some w.c.toNat) (onewLane w) w s with
  | .done t => .done (if enabled s w = 0 then t else acquire t 4)
  | r => r

/-- A lane of OPRI. -/
def opriLane (w : SWord) (s0 : State) (s : State) (l : Lane) : LaneRes :=
  let h := opA2 s0 w l
  match checkHandle s (myJob s) h .either with
  | .null => .done 0 false s
  | .gone => .done 0 false s
  | .fault c => .fault c h 0 s
  | .alive i o =>
    let o' : Obj := match w.c.toNat with
      | 0 => { o with pri := min (opB1 s0 w l).toNat 15 }
      | 1 => { o with spec := o.spec ||| (opB2 s0 w l).toNat }
      | _ => { o with spec := ((BitVec.ofNat 64 o.spec) &&& ~~~(opB2 s0 w l)).toNat }
    .done 0 false (setObj s (myJob s) i o')

def opriBody (w : SWord) (s : State) : Res :=
  objectWord (onceFor [w.a, w.b]) (openOrder s) 0 none (opriLane w s) w s

def execOnew (w : SWord) (s : State) : Out := .next (runWord (.onew w) onewBody s)
def execOpri (w : SWord) (s : State) : Out := .next (runWord (.opri w) opriBody s)

/-! ### OAPP (R232, R233) -/

/-- An entry of OAPP's list. -/
structure AppEnt where
  table : DWord
  slot  : Nat
  np    : Nat
  len   : Nat
  tier  : Nat
  rsv   : Nat
  pri   : Nat
  deriving Repr

/-- The 16 bytes of an entry. -/
def AppEnt.ofBytes (bs : List Byte) : AppEnt :=
  { table := BitVec.ofNat 64 (leAt bs 0 8), slot := leAt bs 8 3, np := leAt bs 11 1, len := leAt bs 12 3,
    tier := leAt bs 15 1 % 2, rsv := leAt bs 15 1 / 2 % 8, pri := leAt bs 15 1 / 16 }

/-- The places of an entry's table slots, read and written; none where one cannot be. -/
def appPlaces (s : State) (e : AppEnt) : Option (List Place) :=
  (List.range e.np).mapM (fun i =>
    match placeAt s (some s.focus.core) (myJob s) e.table (8 * (e.slot + i)) 8 .rd, placeAt s (some s.focus.core) (myJob s) e.table (8 * (e.slot + i)) 8 .wr with
    | .ok p, .ok _ => some p
    | _, _ => none)

/-- The entry is malformed by its own fields. TABLE may be an address or a strong handle, either a multiple of 8 as a number: where R232 says
"address", R115 and R218 let a handle stand for one (DEDUCED, log entry 52). -/
def AppEnt.bad (e : AppEnt) : Bool :=
  e.np < 1 || 16 < e.np || e.len < e.slot + e.np || e.rsv != 0 || e.table.toNat % 8 != 0

/-- The PRESSURE message (R233). FREE saturates where a pool region has 2^24 free frames or more: R233 says so of SERVED alone (DESIGN
CHOICE, log entry 52). -/
def pressureMsg (tier served np free : Nat) : DWord :=
  BitVec.ofNat 64 (0x02 + 2 ^ 8 * tier + 2 ^ 16 * min served 65535 + 2 ^ 32 * np + 2 ^ 40 * min free (2 ^ 24 - 1))

/-- Allocates n class-10 objects where the tier can hold them as it stands. -/
def allocPages (s : State) (tier pri : Nat) : Nat → Option (List DWord × State)
  | 0 => some ([], s)
  | n + 1 => match allocateNow s (myJob s) tier 10 pri with
    | none => none
    | some (h, t) => (allocPages t tier pri n).map (fun r => (h :: r.1, r.2))

/-- Writes handles to slots, performed at the device point, by Tilth. -/
def putHandles (s : State) : List Place → List DWord → State
  | p :: ps, h :: hs => putHandles (noteWrite .unit p.key 8 (atomicAt s s.focus.core 4 p 8 (fun _ => some (leBytes 8 h.toNat))).2) ps hs
  | _, _ => s

/-- How serving the list ended: D is written with the count; a fault at an address, with D written or not. -/
inductive AppEnd where
  | served (n : Nat) (s : State)
  | fault (c : TrapCode) (addr : DWord) (n : Nat) (writeD : Bool) (s : State)

/-- Serves the entries in list order: k are left, n have been served. -/
def appFrom (base : DWord) : Nat → Nat → State → AppEnd
  | 0, n, s => .served n s
  | k + 1, n, s =>
    let a := base + BitVec.ofNat 64 (16 * n)
    match placeAt s (some s.focus.core) (myJob s) base (16 * n) 16 .rd with
    | .error c => .fault c a n false s
    | .ok p =>
      if poisonSeen s s.focus.core p.key 16 p.nc then .fault .poison a n false s
      else
        let s := match p.tlb with | some t => cacheTlb s s.focus.core t | none => s
        let e := AppEnt.ofBytes (coreRdN s s.focus.core p.key 16 p.nc)
        match e.bad, appPlaces s e with
        | true, _ => .fault .memfault a n true s
        | _, none => .fault .memfault a n true s
        | false, some ps =>
          if ps.any (fun q => poisonAt s s.focus.core 4 q.key 8 q.nc) then .fault .poison a n false s
          else if ps.any (fun q => leNat ((List.range 8).map (fun i => scopeRd s s.focus.core 4 (q.key + i) q.nc)) != 0) then
            .fault .memfault a n true s
          else
            let s := returnAll s (myJob s)
            let pressure (s : State) : AppEnd :=
              .served n (postDevice s (focusStrand s) (pressureMsg e.tier n e.np (freeFrames s (myJob s) e.tier)))
            if freeIndices s (myJob s) < e.np then pressure s
            else
              let t := if (allocPages s e.tier e.pri e.np).isSome then s else reclaim s (myJob s) e.tier
              match allocPages t e.tier e.pri e.np with
              | some (hs, u) => appFrom base k (n + 1) (putHandles u ps hs)
              | none => pressure t

/-- OAPP (R232): once for the strand. A MEMFAULT's AUX is the number of entries served (R364). -/
def oappBody (w : SWord) (s : State) : Res :=
  once (fun w l s =>
    let c := curClause s
    let en := enabled s w
    match appFrom (opA2 s w l) (opB1 s w l).toNat 0 (drain s (focusStrand s)) with
    | .served n t => .done (putD t w 1 (BitVec.ofNat 64 n))
    | .fault e a n wr t =>
      let t := if wr then putD t w 1 (BitVec.ofNat 64 n) else t
      .done (faultHere t c ((lanesOf en).map (fun l => (l, e, a, if e = .memfault then BitVec.ofNat 64 n else 0))))) w s

def execOapp (w : SWord) (s : State) : Out := .next (runWord (.oapp w) oappBody s)

/-! ### Block tables (R234, R235) -/

/-- BTINV (R235): a release at .dv; every core's cache drops the range, and the token waits for the pins taken on it. -/
def btinvBody (w : SWord) (s : State) : Res :=
  once (fun w l s =>
    if tokenBusy s w then .wait .issue s
    else
      let s := startToken (release s 4) w
      let table := opA2 s w l
      let first := (opB1 s w l).toNat
      let count := (opC1 s w l).toNat
      let ops := pinOps s (myJob s) table first count
      let b : BtInv := { cord := focusCord s, strand := s.focus.strand, token := tokenOf w.d, ops := ops }
      .done { btDrop s (myJob s) table first count with btinvs := s.btinvs ++ [b] }) w s

/-- A lane of BTLD. -/
def btldLane (w : SWord) (s0 : State) (s : State) (l : Lane) : LaneRes :=
  let pos := (opB1 s0 w l).toNat
  let i := pos / 64
  let table := opA2 s0 w l
  let a := table + BitVec.ofNat 64 (8 * i)
  if (opC1 s0 w l).toNat ≤ i then .fault .btbnd a (BitVec.ofNat 64 pos) s
  else match btLookup s s.focus.core (myJob s) table i l.val true with
    | .error c => .fault c a 0 s
    | .ok (h, t) =>
      if h = 0 then .done 0 false t
      else match checkHandle t (myJob s) h .strong with
        | .alive _ o => .done h (o.tier == 0) t
        | _ => .fault .memfault a 0 t

/-- BTLD (R234). -/
def btldBody (w : SWord) (s : State) : Res :=
  objectWord (onceFor [w.d, w.b]) id 2 (some (w.bits 0 3)) (btldLane w s) w s

def execBtinv (w : SWord) (s : State) : Out := .next (runWord (.btinv w) btinvBody s)
def execBtld (w : SWord) (s : State) : Out := .next (runWord (.btld w) btldBody s)

end Sys2Proof.Machine
end

