-- ==== Sys2Proof/Machine/CopyRow.lean ====
section
/-! DEFINITION. The data path of the copy engine (R45, R47 to R50, R236 to R242): records, tensor descriptors, elements, where a row
lies, the reading of a row's elements and the writing of a row. -/

namespace Sys2Proof.Machine

/-! ### Records and descriptors (R236, R237) -/

/-- A copy record (R236). rsv: a reserved bit is set. -/
structure CRec where
  own    : Bool
  next   : DWord
  src    : DWord
  dst    : DWord
  orgRow : Nat
  orgCol : Nat
  rows   : Nat
  cols   : Nat
  mode   : Nat
  comp   : Nat
  prec   : Nat
  ord    : Bool
  sfmt   : Nat
  sig    : DWord
  idx    : DWord
  rsv    : Bool
  deriving Repr

/-- A field of bytes as a 64-bit value. -/
def dwAt (bs : List Byte) (o : Nat) : DWord := BitVec.ofNat 64 (leAt bs o 8)

/-- An operand names the scratchpad. -/
def isScratch (a : DWord) : Bool := a.getLsbD 63

/-- The 64 bytes of a record. -/
def CRec.ofBytes (b : List Byte) : CRec :=
  let d0 := dwAt b 0
  let src := dwAt b 8
  let dst := dwAt b 16
  let bad (a : DWord) : Bool := isScratch a && natBits a.toNat 32 31 != 0
  { own := d0.getLsbD 0, next := d0 &&& ~~~(63 : DWord), src := src, dst := dst, orgRow := leAt b 24 4, orgCol := leAt b 28 4,
    rows := leAt b 32 2, cols := leAt b 34 2, mode := leAt b 36 1, comp := leAt b 37 1, prec := leAt b 38 1 % 4,
    ord := leAt b 38 1 / 128 == 1, sfmt := leAt b 39 1, sig := dwAt b 40, idx := dwAt b 48,
    rsv := leAt b 36 1 / 64 != 0 || leAt b 37 1 / 64 != 0 || leAt b 38 1 / 4 % 32 != 0 || bad src || bad dst }

/-- MODE's fields (R239). -/
def CRec.conv (r : CRec) : Nat := r.mode % 4
def CRec.lab (r : CRec) : Bool := natBits r.mode 2 1 == 1
def CRec.spx (r : CRec) : Bool := natBits r.mode 3 1 == 1
def CRec.gath (r : CRec) : Bool := natBits r.mode 4 1 == 1
def CRec.pgin (r : CRec) : Bool := natBits r.mode 5 1 == 1
/-- COMP's fields (R244). -/
def CRec.action (r : CRec) : Nat := r.comp % 4
def CRec.bar (r : CRec) : Nat := natBits r.comp 2 4
/-- Two planes (R240). -/
def CRec.two (r : CRec) : Bool := r.conv == 2 && r.prec == 3
/-- The precision of a canonical conversion: 8 for one plane of CB8. -/
def CRec.bitsOf (r : CRec) : Nat := 4 * r.prec + 4

/-- The 64 bytes of a descriptor. -/
def TDesc.ofBytes (b : List Byte) : TDesc :=
  { base := dwAt b 0, d0 := leAt b 8 2, d1 := leAt b 10 2, d2 := leAt b 12 2, d3 := leAt b 14 2, s1 := leAt b 16 8, s2 := leAt b 24 8,
    s3 := leAt b 32 8, fmt := leAt b 40 1, pack := leAt b 41 1, flags := BitVec.ofNat 8 (leAt b 42 1), labdim := leAt b 43 1,
    scale := leAt b 44 4, label := dwAt b 48, aux := dwAt b 56 }

def TDesc.blocks (d : TDesc) : Bool := d.flags.getLsbD 0
def TDesc.sparse (d : TDesc) : Bool := d.flags.getLsbD 1
def TDesc.labels (d : TDesc) : Bool := d.flags.getLsbD 2
def TDesc.paged (d : TDesc) : Bool := d.flags.getLsbD 3

/-- The rows of a tensor (R238). -/
def TDesc.nrows (d : TDesc) : Nat := if d.paged then 64 * d.d3 else d.d1 * d.d2 * d.d3

/-! ### Elements (R31, R45) -/

/-- An element format: FMT, PACK, and the narrow-format register. -/
structure Elem where
  fmt  : Nat
  pack : Nat
  nf   : Word
  deriving Repr

/-- The bits of an element's slot. -/
def Elem.bits (e : Elem) : Nat :=
  if e.fmt = 0x10 || e.fmt = 0x13 then 32
  else if 0x10 ≤ e.fmt then 16
  else if e.pack = 2 then 6
  else if e.pack = 1 || (NF.of e.nf).width ≤ 4 then 4
  else 8

/-- The bits of an element's code: those above it in its slot are ignored when read and written as 0 (R45). -/
def Elem.codeBits (e : Elem) : Nat := if 0x10 ≤ e.fmt then e.bits else (NF.of e.nf).width

/-- The format and packing are legal (R45, R237). -/
def Elem.ok (e : Elem) : Bool :=
  if 0x10 ≤ e.fmt then e.fmt ≤ 0x14 && e.pack == 0
  else nfValid e.nf && (match e.pack with | 0 => true | 1 => (NF.of e.nf).width ≤ 4 | 2 => (NF.of e.nf).width == 6 | _ => false)

/-- The bytes of a row of n elements, padded to a whole byte or group. -/
def Elem.rowBytes (e : Elem) (n : Nat) : Nat := if e.bits = 6 then 3 * ((n + 3) / 4) else (n * e.bits + 7) / 8

/-- The value of a slot: narrow codes by R37, standard formats by value (R240). -/
def Elem.value (e : Elem) (slot : Nat) : FV :=
  match e.fmt with
  | 0x10 => f32.unpack slot
  | 0x11 => bf16.unpack slot
  | 0x12 => f16.unpack slot
  | 0x13 => .ofInt (signedOf 32 slot)
  | 0x14 => .ofInt (signedOf 16 slot)
  | _ => (NF.of e.nf).decode slot

/-- An element as it was read: its value, and its FP32 pattern where that is what it is. -/
structure ElemVal where
  val : FV
  pat : Option Nat := none
  deriving Repr

/-- An integer of w bits: rounded RNE and clamped with SAT; NaN gives 0 with INV (R98, R240). -/
def toInteger (w : Nat) (v : FV) : Nat × Flags :=
  let r := intRange true w
  match v with
  | .nan _ => (0, fINV)
  | .inf neg => (natOf w (if neg then r.1 else r.2), fSAT)
  | .zero _ => (0, 0)
  | .fin m e =>
    if 600 < (FV.fin m e).exp2of then (natOf w (if m < 0 then r.1 else r.2), fSAT)
    else let x := clampSat r.1 r.2 (roundInt .rne m (-e)); (natOf w x.1, x.2)

/-- Encodes an element (R240): RNE; an FP32 pattern into a narrow format as CVNE does. -/
def Elem.encode (e : Elem) (x : ElemVal) : Nat × Flags :=
  match e.fmt with
  | 0x10 => f32.pack .rne false x.val
  | 0x11 => bf16.pack .rne false x.val
  | 0x12 => f16.pack .rne false x.val
  | 0x13 => toInteger 32 x.val
  | 0x14 => toInteger 16 x.val
  | _ => match x.pat with
    | some b => (NF.of e.nf).ofF32 .rne b
    | none => (NF.of e.nf).encode .rne x.val

/-- floor(log2) of the largest finite value of an element format, for a derived scale (R101). -/
def Elem.emax (e : Elem) : Int := match e.fmt with
  | 0x10 => 127
  | 0x11 => 127
  | 0x12 => 15
  | 0x13 => 30
  | 0x14 => 14
  | _ => ((NF.of e.nf).emax).getD (Config.emaxNoFinite e.nf)

/-- The scale byte derived from a block's largest magnitude (R101, R240). -/
def Elem.derive (e : Elem) (xs : List FV) : Nat :=
  if xs.any (fun v => match v with | .nan _ => true | .inf _ => true | _ => false) then 0xFF
  else match maxExp2 xs with
    | none => 127
    | some x => (clampInt 0 254 (x - e.emax + 127)).toNat

/-- The element format of a descriptor with its narrow-format register. -/
def TDesc.elem (d : TDesc) (nf : Word) : Elem := ⟨d.fmt, d.pack, nf⟩

/-- A descriptor that R237, R238 or R45 refuses. A size of 0 is refused in a paged descriptor too, which R238 lets ignore D1 and D2 (DEDUCED,
log entry 60). -/
def TDesc.bad (d : TDesc) (nf : Word) : Bool :=
  d.d0 == 0 || d.d1 == 0 || d.d2 == 0 || d.d3 == 0 || 16 ≤ d.flags.toNat || 1 < d.labdim || !(d.elem nf).ok ||
    (d.paged && 65536 < 64 * d.s1) || (d.paged && d.sparse)

/-! ### Accesses of an engine -/

/-- Who makes an access: an engine of a core, which has the core's view, or the graph unit at the device point; its job; and what a capstan
word in progress may have read earlier. -/
structure Agent where
  core : Option Nat
  job  : Nat
  who  : Writer
  seen : List Glimpse := []
  deriving Repr

/-- A byte that a capstan word in progress reads: as it is, or as it was at a moment since the word before it, by an open choice (R257). -/
def glimpsedByte (s : State) (key : Nat) (now : Byte) (old : List (List Host.Cell)) : Byte :=
  pickOne now (Config.glimpsed s.free key) (now :: old.map (fun m => memRd m key))

/-- n bytes of a place. -/
def Agent.rd (g : Agent) (s : State) (p : Place) (n : Nat) : List Byte := match g.core with
  | some c =>
    let now := coreRdN s c p.key n p.nc
    if g.seen.isEmpty then now
    else now.zipIdx.map (fun b => glimpsedByte s (p.key + b.2) b.1 (g.seen.map (fun x => if p.nc then x.dev else x.view)))
  | none => devRdN s p.key n

/-- Writes bytes at a place: they commit at the core point, or are performed at the device point. -/
def Agent.wr (g : Agent) (s : State) (p : Place) (bs : List Byte) : State := match g.core with
  | some c => noteWrite g.who p.key bs.length (commit s c p.key bs p.nc)
  | none => devWr s p.key bs

/-- Keeps the translation that an access used. -/
def Agent.keep (g : Agent) (s : State) (p : Place) : State := match g.core, p.tlb with
  | some c, some t => cacheTlb s c t
  | _, _ => s

/-- Where n bytes at an address lie: one place for each 64 KiB page; none where the access faults. -/
def piecesFrom (s : State) (g : Agent) (need : Need) : Nat → DWord → Nat → Option (List (Place × Nat))
  | 0, _, _ => some []
  | k + 1, a, n =>
    if n = 0 then some []
    else
      let m := min n (65536 - a.toNat % 65536)
      match translate s g.core g.job a need, piecesFrom s g need k (a + BitVec.ofNat 64 m) (n - m) with
      | some p, some r => some ((p, m) :: r)
      | _, _ => none

/-- Where n bytes at a displacement of an address or a strong handle lie. -/
def piecesAt (s : State) (g : Agent) (a : DWord) (disp n : Nat) (need : Need) : Option (List (Place × Nat)) :=
  if isHandle a then
    (match handlePlace s g.job a disp n with | .ok p => some [(p, n)] | .error _ => none)
  else piecesFrom s g need (n / 65536 + 2) (a + BitVec.ofNat 64 disp) n

/-- The bytes of some pieces. -/
def Agent.rdAll (g : Agent) (s : State) (ps : List (Place × Nat)) : List Byte := ps.flatMap (fun p => g.rd s p.1 p.2)

/-- Some of n bytes that the agent reads carry an uncorrectable error. -/
def Agent.poison (g : Agent) (s : State) (p : Place) (n : Nat) : Bool := match g.core with
  | some c => poisonSeen s c p.key n p.nc
  | none => poisonHit s p.key n

/-- Some of the bytes that the agent reads carry an uncorrectable error. -/
def Agent.anyPoison (g : Agent) (s : State) (ps : List (Place × Nat)) : Bool := ps.any (fun p => g.poison s p.1 p.2)

/-- Writes bytes over some pieces. -/
def Agent.wrAll (g : Agent) (s : State) : List (Place × Nat) → List Byte → State
  | [], _ => s
  | p :: ps, bs => g.wrAll (g.keep (g.wr s p.1 (bs.take p.2)) p.1) ps (bs.drop p.2)

/-- Keeps the translations of some pieces. -/
def Agent.keepAll (g : Agent) (s : State) (ps : List (Place × Nat)) : State := ps.foldl (fun s p => g.keep s p.1) s

/-- What reading n bytes gives: the bytes, a fault, or an uncorrectable error. -/
inductive Got where
  | bytes (b : List Byte)
  | fault
  | poison

/-- Reads n bytes at a displacement of an address or a handle. -/
def Agent.read (g : Agent) (s : State) (a : DWord) (disp n : Nat) : Got :=
  match piecesAt s g a disp n .rd with
  | none => .fault
  | some ps => if g.anyPoison s ps then .poison else .bytes (g.rdAll s ps)

/-- A record as an engine captures it from memory: its 64 bytes, whether some of them carry an uncorrectable error, and whether those of its
first dword do. -/
structure Captured where
  image : List Byte
  bad   : Bool
  lost  : Bool
  deriving DecidableEq, Repr

/-- Captures the record at an address; none where the read faults. -/
def Agent.capture (g : Agent) (s : State) (a : DWord) : Option Captured :=
  (piecesAt s g a 0 64 .rd).map (fun ps =>
    { image := g.rdAll s ps, bad := g.anyPoison s ps, lost := match g.read s a 0 8 with | .poison => true | _ => false })

/-! ### Where a row lies (R238) -/

/-- Where bytes of a row are. -/
inductive RowAt where
  | pieces (ps : List (Place × Nat))
  | absent
  | fault

/-- The displacement of row r from BASE. -/
def TDesc.rowDisp (d : TDesc) (r : Nat) : Nat := r % d.d1 * d.s1 + r / d.d1 % d.d2 * d.s2 + r / (d.d1 * d.d2) * d.s3

/-- Where n bytes at a displacement in a pinned page lie (R225): the pin keeps the object's memory, so no end of the object shows before
the pin is released. An entry of 0 names no page. -/
def pinnedAt (s : State) (g : Agent) (pin : Option Pin) (disp n : Nat) : RowAt :=
  match pin with
  | none => .fault
  | some p =>
    if p.handle = 0 then .absent
    else if !p.live then .fault
    else match objectPlace s g.job (hIndex p.handle) disp n with
      | .ok q => .pieces [(q, n)]
      | .error _ => .fault

/-- Where n bytes at an offset of row r lie. pin is the pinned mapping of the row's page. -/
def rowAt (s : State) (g : Agent) (d : TDesc) (pin : Option Pin) (r off n : Nat) (need : Need) : RowAt :=
  if d.paged then pinnedAt s g pin (r % 64 * d.s1 + off) n
  else match piecesAt s g d.base (d.rowDisp r + off) n need with
    | some ps => .pieces ps
    | none => .fault

/-- The offset of the scale byte of row r, block b, from BASE or from its page (R240). -/
def TDesc.scaleOff (d : TDesc) (r b : Nat) : Nat := d.scale + (d.d0 + 63) / 64 * (if d.paged then r % 64 else r) + b

/-- Where the scale byte of row r, block b lies. -/
def scaleAt (s : State) (g : Agent) (d : TDesc) (pin : Option Pin) (r b : Nat) (need : Need) : RowAt :=
  if d.paged then pinnedAt s g pin (d.scaleOff r b) 1
  else match piecesAt s g d.base (d.scaleOff r b) 1 need with
    | some ps => .pieces ps
    | none => .fault

/-! ### Reading a row -/

/-- What reading a row's elements gives: slots or values, with flags; a fault; or an uncorrectable error. -/
inductive RowGot (α : Type) where
  | got (xs : List α) (fl : Flags)
  | fault
  | poison

/-- n bits-wide slots of bytes, from a bit offset. -/
def slotsOf (bits : Nat) (off : Nat) (bs : List Byte) (n : Nat) : List Nat :=
  let v := leNat bs
  (List.range n).map (fun i => natBits v (off + bits * i) bits)

/-- The slots of n stored elements of row r from column c, all of them inside the row. -/
def storedSlots (s : State) (g : Agent) (d : TDesc) (e : Elem) (pin : Option Pin) (r c n : Nat) : RowGot Nat :=
  if n = 0 then .got [] 0
  else
    let o := e.bits * c
    let first := o / 8
    match rowAt s g d pin r first ((o + e.bits * n + 7) / 8 - first) .rd with
    | .absent => .got (List.replicate n 0) 0
    | .fault => .fault
    | .pieces ps => if g.anyPoison s ps then .poison else .got (slotsOf e.bits (o % 8) (g.rdAll s ps) n) 0

/-- Four logical slots of a sparse group from its nibble and its two stored slots: INV where i0 ≥ i1. -/
def expandGroup (nib a b : Nat) : List Nat × Flags :=
  let i0 := nib % 4
  let i1 := nib / 4 % 4
  if i1 ≤ i0 then ([0, 0, 0, 0], fINV)
  else ((List.range 4).map (fun i => if i = i0 then a else if i = i1 then b else 0), 0)

/-- Expands groups g0 up of a sparse row. -/
def expandGroups (meta' : Nat) (off : Nat) (st : List Nat) : Nat → List Nat × Flags
  | 0 => ([], 0)
  | k + 1 =>
    let r := expandGroups meta' off st k
    let x := expandGroup (natBits meta' (off + 4 * k) 4) (st.getD (2 * k) 0) (st.getD (2 * k + 1) 0)
    (r.1 ++ x.1, r.2 ||| x.2)

/-- The slots of the elements of row r from column c that lie inside the tensor, at most n of them; under SPX expanded (R240). -/
def rowSlots (s : State) (g : Agent) (d : TDesc) (e : Elem) (spx : Bool) (pin : Option Pin) (r c n : Nat) : RowGot Nat :=
  let k := min n (d.d0 - c)
  if k = 0 || d.nrows ≤ r then .got [] 0
  else if !spx then storedSlots s g d e pin r c k
  else
    let groups := (k + 3) / 4
    let m := min (2 * groups) ((d.d0 + 1) / 2 - c / 2)
    let per := (d.d0 + 7) / 8
    let first := c / 4 / 2
    let last := (c / 4 + groups - 1) / 2
    match storedSlots s g d e pin r (c / 2) m, g.read s d.aux (per * r + first) (last + 1 - first) with
    | .fault, _ => .fault
    | _, .fault => .fault
    | .poison, _ => .poison
    | _, .poison => .poison
    | .got st _, .bytes b =>
      let x := expandGroups (leNat b) (4 * (c / 4 % 2)) st groups
      .got (x.1.take k) x.2

/-- The scale bytes of blocks b0 up of row r; a page that is absent has none. -/
def scaleBytes (s : State) (g : Agent) (d : TDesc) (pin : Option Pin) (r b0 : Nat) : Nat → RowGot Nat
  | 0 => .got [] 0
  | k + 1 =>
    match scaleBytes s g d pin r b0 k, scaleAt s g d pin r (b0 + k) .rd with
    | .got xs fl, .pieces ps => if g.anyPoison s ps then .poison else .got (xs ++ [leNat (g.rdAll s ps)]) fl
    | .got xs fl, .absent => .got (xs ++ [127]) fl
    | .got _ _, .fault => .fault
    | r, _ => r

/-- The values of slots. -/
def slotVals (e : Elem) (xs : List Nat) : List ElemVal :=
  xs.map (fun x => ⟨e.value x, if e.fmt = 0x10 then some x else none⟩)

/-- The values of n elements of row r from column c: a box element outside the tensor reads as zero (R238), block scales applied
exactly (R47). -/
def rowValues (s : State) (g : Agent) (d : TDesc) (e : Elem) (spx : Bool) (pin : Option Pin) (r c n : Nat) : RowGot ElemVal :=
  match rowSlots s g d e spx pin r c n with
  | .fault => .fault
  | .poison => .poison
  | .got xs fl =>
    let pad (l : List ElemVal) : List ElemVal := l ++ List.replicate (n - l.length) ⟨.zero false, none⟩
    if !d.blocks || xs.isEmpty then .got (pad (slotVals e xs)) fl
    else match scaleBytes s g d pin r (c / 64) ((xs.length + 63) / 64) with
      | .fault => .fault
      | .poison => .poison
      | .got ts _ => .got (pad ((slotVals e xs).zipIdx.map (fun x => ⟨scaled (ts.getD (x.2 / 64) 127) x.1.val, none⟩))) fl

/-! ### Rows of bytes -/

/-- Packs slots into a number. -/
def packSlots (bits : Nat) : List Nat → Nat
  | [] => 0
  | x :: xs => x % 2 ^ bits + 2 ^ bits * packSlots bits xs

/-- The pitch of scratchpad rows (R240). -/
def pitchOf (rowbytes : Nat) : Nat := 128 * ((rowbytes + 127) / 128) + 8

/-- The blocks of a row of values, padded with zero elements, at precision p: exponent bytes, mantissas and flags. -/
def canonRow (p : Nat) : Nat → List FV → List Nat × List Int × Flags
  | 0, _ => ([], [], 0)
  | k + 1, xs =>
    let b := xs.take 64
    let c := toCanonical p (b ++ List.replicate (64 - b.length) (.zero false))
    let r := canonRow p k (xs.drop 64)
    (c.1 :: r.1, c.2.1 ++ r.2.1, c.2.2 ||| r.2.2)

/-- The bytes of exponents. -/
def expBytes (es : List Nat) : List Byte := es.map (BitVec.ofNat 8)

/-- A CA16 row (R49). -/
def ca16Row (p : Nat) (xs : List FV) : List Byte × Flags :=
  let r := canonRow p ((xs.length + 63) / 64) xs
  (r.2.1.flatMap (fun m => leBytes 2 (natOf 16 m)) ++ expBytes r.1, r.2.2)

/-- A CB8 row of one plane (R50). -/
def cb8Row (xs : List FV) : List Byte × Flags :=
  let r := canonRow 8 ((xs.length + 63) / 64) xs
  (r.2.1.map (fun m => BitVec.ofNat 8 (natOf 8 m)) ++ expBytes r.1, r.2.2)

/-- The two planes of a 16-bit CB8 row (R50): high bytes floor(b / 256), low bytes b - 256 hi. -/
def cb8Planes (xs : List FV) : List Byte × List Byte × Flags :=
  let r := canonRow 16 ((xs.length + 63) / 64) xs
  (r.2.1.map (fun m => BitVec.ofNat 8 (natOf 16 m / 256)) ++ expBytes r.1,
   r.2.1.map (fun m => BitVec.ofNat 8 (natOf 16 m % 256)) ++ expBytes r.1, r.2.2)

/-! ### Writing a descriptor's row -/

/-- Replaces the bits [lo + n - 1 : lo] of a number. -/
def setBits (v lo n x : Nat) : Nat := v - natBits v lo n * 2 ^ lo + x % 2 ^ n * 2 ^ lo

/-- Writes n slots of row r from column c, packed in v: bytes that the box covers in part keep their other bits, and the padding after the
row's last element is written 0 (R45). none where it faults; a page whose entry is 0 is not written: R238 names such a page for sources only
(DEDUCED, log entry 60). -/
def writeSlots (s : State) (g : Agent) (d : TDesc) (e : Elem) (pin : Option Pin) (r c n v : Nat) : Option State :=
  let k := min n (d.d0 - c)
  if k = 0 || d.nrows ≤ r then some s
  else
    let o := e.bits * c
    let first := o / 8
    let last := if c + k = d.d0 then e.rowBytes d.d0 else (o + e.bits * k + 7) / 8
    match rowAt s g d pin r first (last - first) .wr with
    | .absent => some s
    | .fault => none
    | .pieces ps =>
      let old := leNat (g.rdAll s ps)
      let w := if c + k = d.d0 then 8 * (last - first) - o % 8 else e.bits * k
      some (g.wrAll s ps (leBytes (last - first) (setBits old (o % 8) w (v % 2 ^ (e.bits * k)))))

/-- Writes the scale bytes of blocks b0 up of row r. -/
def writeScales (g : Agent) (d : TDesc) (pin : Option Pin) (r : Nat) : Nat → List Nat → State → Option State
  | _, [], s => some s
  | b, t :: ts, s =>
    match scaleAt s g d pin r b .wr with
    | .pieces ps => writeScales g d pin r (b + 1) ts (g.wrAll s ps [BitVec.ofNat 8 t])
    | .absent => some s
    | .fault => none

/-- The blocks of a row's values as the destination cuts them: the first ends at the next multiple of 64 columns. -/
def destBlocks : Nat → Nat → List ElemVal → List (List ElemVal)
  | 0, _, _ => []
  | n + 1, c, xs =>
    if xs.isEmpty then []
    else
      let k := 64 - c % 64
      xs.take k :: destBlocks n (c + k) (xs.drop k)

/-- Encodes a row for a destination (R240): slots, derived scale bytes, flags. c is the first column. -/
def encodeRow (d : TDesc) (e : Elem) (c : Nat) (xs : List ElemVal) : List Nat × List Nat × Flags :=
  if d.blocks then
    let bs := (destBlocks (xs.length + 1) c xs).map (fun b =>
      let t := e.derive (b.map (·.val))
      (t, b.map (fun x => e.encode ⟨x.val.scale (127 - (t : Int)), none⟩)))
    (bs.flatMap (fun b => b.2.map (·.1)), bs.map (·.1), bs.foldl (fun f b => b.2.foldl (fun f x => f ||| x.2) f) 0)
  else
    let ys := xs.map e.encode
    (ys.map (·.1), [], ys.foldl (fun f y => f ||| y.2) 0)

/-! ### Labels (R241) -/

/-- Offset and width of field f of a LAYOUT word. -/
def labField (layout : DWord) (f : Nat) : Nat × Nat := (natBits layout.toNat (12 * f) 6, natBits layout.toNat (12 * f + 6) 6)

/-- A LAYOUT word is legal. -/
def layoutOk (layout : DWord) : Bool :=
  layout.toNat < 2 ^ 48 && (List.range 4).all (fun f => (labField layout f).1 + (labField layout f).2 ≤ 64)

/-- The value of field f of a label: 0 where the field is absent. -/
def fieldVal (layout : DWord) (label : Nat) (f : Nat) : Nat := natBits label (labField layout f).1 (labField layout f).2

/-- The void label. -/
def voidLabel : Nat := 2 ^ 64 - 1

/-- The 64-byte summary of a group of labels. -/
def summaryOf (layout : DWord) (labels : List Nat) : List Byte :=
  let live := labels.filter (· != voidLabel)
  (List.range 4).flatMap (fun f =>
    let vs := live.map (fun l => fieldVal layout l f)
    let lo := if vs.isEmpty then 2 ^ 32 - 1 else if 32 < (labField layout f).2 then 0 else vs.foldl min (2 ^ 32 - 1)
    let hi := if vs.isEmpty then 0 else if 32 < (labField layout f).2 then 2 ^ 32 - 1 else vs.foldl max 0
    leBytes 4 lo ++ leBytes 4 hi) ++ leBytes 4 live.length ++ List.replicate 28 0

/-- The summaries of labels, 64 at a time. -/
def summariesOf (layout : DWord) : Nat → List Nat → List Byte
  | 0, _ => []
  | k + 1, ls => if ls.isEmpty then [] else summaryOf layout (ls.take 64) ++ summariesOf layout k (ls.drop 64)

end Sys2Proof.Machine
end

