-- ==== Sys2Proof/Machine/Copy.lean ====
section
/-! DEFINITION. The copy engine (R236 to R252): acceptance and its checks, rows, labels, completion, chains, the instructions CPY,
CPYG, CPYS, CHAN, TAIL, SIGD and SIGR (strand opcodes 0xA0 to 0xA4, 0xA6, 0xA7), and the events COPY_ACCEPT, COPY_PAGE_IN,
COPY_COMPLETE and SIGR_WAKE. -/

namespace Sys2Proof.Machine

/-! ### An operation and its box -/

/-- The core whose engine runs an operation. -/
def CopyOp.core (op : CopyOp) : Nat := op.cord / 16

/-- The job of a graph instance. -/
def instJob (s : State) (inst : Nat) : Nat := ((aGet? s.insts inst).map (·.job)).getD 0

/-- Who makes an operation's accesses. -/
def opAgent (s : State) (op : CopyOp) : Agent := match op.src with
  | .node inst _ _ => { core := none, job := instJob s inst, who := .unit }
  | _ => { core := some op.core, job := (getCord s op.cord).job, who := .engine op.cord }

/-- The operation is a graph node's. -/
def CopyOp.isNode (op : CopyOp) : Bool := match op.src with | .node .. => true | _ => false

/-- The captured record. -/
def CopyOp.cr (op : CopyOp) : CRec := .ofBytes op.image

/-- The rows of the box (R249). -/
def CopyOp.rows (op : CopyOp) : Nat := match op.src with
  | .gather _ ix => ix.length * op.cr.rows
  | .scatter _ ix => ix.length
  | _ => op.cr.rows

/-- The row of a source descriptor that box row i names. -/
def CopyOp.srcRow (op : CopyOp) (i : Nat) : Nat := match op.src with
  | .gather _ ix => 64 * (ix.getD (i / op.cr.rows) 0).toNat + op.cr.orgRow + i % op.cr.rows
  | _ => op.cr.orgRow + (if op.cr.gath then op.ix.getD i 0 else i)

/-- The row of a destination descriptor that box row i names. Where both operands are descriptors the index of GATH serves both: R239 says
"descriptor row" (DEDUCED, log entry 60). -/
def CopyOp.dstRow (op : CopyOp) (i : Nat) : Nat := match op.src with
  | .scatter _ ix => op.cr.orgRow + (ix.getD i 0).toNat
  | _ => op.cr.orgRow + (if op.cr.gath then op.ix.getD i 0 else i)

/-- The element formats of the two sides; SFMT's for a scratchpad source of an encode. -/
def CopyOp.srcElem (op : CopyOp) : Elem := match op.sdesc with
  | some d => d.elem op.snf
  | none => ⟨op.cr.sfmt, 0, op.snf⟩
def CopyOp.dstElem (op : CopyOp) : Elem := match op.ddesc with
  | some d => d.elem op.dnf
  | none => ⟨0x10, 0, 0⟩

/-- The bytes of a scratchpad row (R240); none where no legal format gives them. -/
def CopyOp.rowBytes (op : CopyOp) : Option Nat :=
  let r := op.cr
  let k := 64 * ((r.cols + 63) / 64)
  match r.conv with
  | 1 => some (2 * k + k / 64)
  | 2 => some (k + k / 64)
  | 3 => if op.srcElem.ok then some (op.srcElem.rowBytes r.cols) else none
  | _ => match op.sdesc, op.ddesc with
    | some _, _ => if op.srcElem.ok then some (op.srcElem.rowBytes r.cols) else none
    | none, some _ => if op.dstElem.ok then some (op.dstElem.rowBytes r.cols) else none
    | none, none => none

/-- The labelled dimension is the columns. -/
def CopyOp.byCols (op : CopyOp) : Bool := match op.sdesc, op.ddesc with
  | some d, _ => d.labdim == 1
  | none, some d => d.labdim == 1
  | none, none => false

/-- The number of labels that the record moves (R241). -/
def CopyOp.labels (op : CopyOp) : Nat := if op.byCols then op.cr.cols else op.rows

/-- The rows that land in the scratchpad: twice as many for two planes. -/
def CopyOp.planes (op : CopyOp) : Nat := if op.cr.two then 2 * op.rows else op.rows

/-- The offset of a scratchpad operand. -/
def padOff (a : DWord) : Nat := a.toNat % 2 ^ 32

/-- The offset, from DST, of the label area and of the summaries (R241). -/
def CopyOp.labelOff (op : CopyOp) (rb : Nat) : Nat := op.planes * pitchOf rb
def CopyOp.sumOff (op : CopyOp) (rb : Nat) : Nat := 64 * ((op.labelOff rb + 8 + 8 * op.labels + 63) / 64)

/-- The end of the bytes that the scratchpad operands cover (R409): 0 where no row is known. -/
def CopyOp.padEnd (op : CopyOp) : Nat :=
  match op.rowBytes with
  | none => 0
  | some rb =>
    let r := op.cr
    if op.rows = 0 || rb = 0 then 0
    else
      let s := if !isScratch r.src then 0
        else padOff r.src + (if r.lab then op.rows * pitchOf rb + 8 + 8 * op.labels else (op.rows - 1) * pitchOf rb + rb)
      let d := if !isScratch r.dst then 0
        else padOff r.dst + (if r.lab then op.sumOff rb + 64 * ((op.labels + 63) / 64) else (op.planes - 1) * pitchOf rb + rb)
      max s d

/-! ### The checks (R243) -/

/-- What R236, R239, R240 and R249 refuse in the fields of the record itself. -/
def CopyOp.badFields (op : CopyOp) : Bool :=
  let r := op.cr
  let ss := isScratch r.src
  let ds := isScratch r.dst
  let k := r.conv
  r.rsv || (ss && ds) || (!ss && !ds && (k == 1 || k == 2)) || ((k == 1 || k == 2) && (ss || !ds)) || (k == 3 && ds) ||
    (k == 2 && r.prec % 2 == 0) || (r.two && 128 < op.rows) ||
    (r.sfmt != 0 && !(k == 3 && ss)) || (k == 3 && ss && !op.srcElem.ok) ||
    r.cols < 1 || 4096 < r.cols || (r.spx && (ss || r.cols % 4 != 0 || r.orgCol % 4 != 0)) ||
    (ss && r.src.toNat % 8 != 0) || (ds && r.dst.toNat % 8 != 0) || (r.action == 2 && r.sig.toNat % 8 != 0) ||
    (r.gath && r.idx.toNat % 4 != 0) ||
    (match op.src with
      | .gather _ _ => ss || !ds || r.gath || r.rows < 1 || 64 < r.rows || 64 < r.orgRow + r.rows || 256 < op.rows ||
          !(match op.sdesc with | some d => d.paged | none => true)
      | .scatter _ _ => !ss || ds || r.gath
      | _ => r.rows < 1 || 256 < r.rows)

/-- What R237 to R241 refuse in the descriptors and in their combination with the record. -/
def CopyOp.badDescs (op : CopyOp) : Bool :=
  let r := op.cr
  let lab (d : TDesc) : Bool := r.lab && (!d.labels || d.label.toNat % 8 != 0)
  let align (e : Elem) : Bool := r.conv == 0 && ((e.bits == 4 && r.orgCol % 2 != 0) || (e.bits == 6 && r.orgCol % 4 != 0))
  (match op.sdesc with
    | some d => d.bad op.snf || d.sparse != r.spx || (d.blocks && r.orgCol % 64 != 0) || lab d || align op.srcElem
    | none => false) ||
  (match op.ddesc with
    | some d => d.bad op.dnf || d.sparse || lab d || align op.dstElem
    | none => false) ||
  (match op.sdesc, op.ddesc with
    | some a, some b => (r.conv == 0 && (a.fmt != b.fmt || a.pack != b.pack)) || (r.lab && a.labdim != b.labdim)
    | _, _ => false)

/-- An index outside the tensor's rows or the table (R243 status 3). -/
def CopyOp.badIndex (op : CopyOp) : Bool :=
  let out (row : Nat → Nat) (d : TDesc) : Bool := (List.range op.rows).any (fun i => d.nrows ≤ row i)
  match op.src with
  | .gather _ ix => (match op.sdesc with | some d => ix.any (fun b => d.d3 ≤ b.toNat) | none => false)
  | .scatter _ _ => (match op.ddesc with | some d => out op.dstRow d | none => false)
  | _ => op.cr.gath &&
      ((match op.sdesc with | some d => out op.srcRow d | none => false) || (match op.ddesc with | some d => out op.dstRow d | none => false))

/-- Reads the descriptor of an operand: none for the scratchpad; the address must be aligned. -/
def readDesc (s : State) (g : Agent) (a : DWord) : Except Nat (Option TDesc) :=
  if isScratch a || a.toNat % 8 != 0 then .ok none
  else match g.read s a 0 64 with
    | .fault => .error 4
    | .poison => .error 5
    | .bytes b => .ok (some (.ofBytes b))

/-- A narrow-format register for an element format; a graph node has none, so none is valid. -/
def opNf (s : State) (op : CopyOp) (fmt : Nat) : Word :=
  if op.isNode || 0x10 ≤ fmt then 0 else aGet 0 (getCord s op.cord).nf fmt

/-- Reads the index list (R239). -/
def readIndex (s : State) (g : Agent) (r : CRec) : Except Nat (List Nat) :=
  if !r.gath then .ok []
  else match g.read s r.idx 0 (4 * r.rows) with
    | .fault => .error 4
    | .poison => .error 5
    | .bytes b => .ok ((List.range r.rows).map (fun i => leAt b (4 * i) 4))

/-- Reads the LAYOUT word of a source plane (R241). -/
def readLayout (s : State) (g : Agent) (r : CRec) (d : Option TDesc) : Except Nat DWord :=
  match d with
  | some d =>
    if !r.lab || d.label.toNat % 8 != 0 then .ok 0
    else match g.read s d.label 0 8 with
      | .fault => .error 4
      | .poison => .error 5
      | .bytes b => .ok (dwAt b 0)
  | none => .ok 0

/-- The signal of COMP 2 can be reached. -/
def sigFaults (s : State) (g : Agent) (r : CRec) : Bool :=
  r.action == 2 && (piecesAt s g r.sig 0 8 .rd).isNone || r.action == 2 && (piecesAt s g r.sig 0 8 .wr).isNone

/-- The first failing check of an operation whose record and descriptors have been read, or none (R243). The LAYOUT word is that of a source
descriptor's plane; those of a destination's plane and of a label area in the scratchpad, which no label is read by, are not checked
(DEDUCED, log entry 60). -/
def checkCopy (s : State) (g : Agent) (op : CopyOp) : CopyOp :=
  let r := op.cr
  let size := if op.isNode then 0 else (getCord s op.cord).hdr.scratch
  let nodePad := op.isNode && (isScratch r.src || isScratch r.dst)
  let misaligned := (!isScratch r.src && r.src.toNat % 8 != 0) || (!isScratch r.dst && r.dst.toNat % 8 != 0)
  let lay := readLayout s g r op.sdesc
  let layBad := match lay with | .ok w => r.lab && op.sdesc.isSome && !layoutOk w | .error _ => false
  let ix := readIndex s g r
  let op := { op with ix := (match ix with | .ok l => l | .error _ => []), layout := (match lay with | .ok w => w | .error _ => 0) }
  let ixBad := match ix with | .ok _ => op.badIndex | .error _ => false
  let fails (n : Nat) : Bool := (match lay with | .error e => e == n | .ok _ => false) || (match ix with | .error e => e == n | .ok _ => false)
  { op with status :=
      if !op.isNode && size < op.padEnd then some 1
      else if nodePad || misaligned || op.badFields || op.badDescs || layBad then some 2
      else if ixBad then some 3
      else if fails 4 || sigFaults s g r then some 4
      else if fails 5 then some 5
      else none }

/-- Acceptance (R243): the descriptors and the registers they name are read once, then the record is checked. A fault or an
uncorrectable error in these reads, or in the record as it was captured (R247), decides first. -/
def acceptCopy (s : State) (op : CopyOp) : CopyOp :=
  let g := opAgent s op
  let r := op.cr
  if op.badRec then { op with status := some 5 }
  else match readDesc s g r.src, readDesc s g r.dst with
  | .error e, _ => { op with status := some e }
  | _, .error e => { op with status := some e }
  | .ok sd, .ok dd =>
    let sf := match sd with | some d => d.fmt | none => r.sfmt
    let df := match dd with | some d => d.fmt | none => 0x10
    checkCopy s g { op with sdesc := sd, ddesc := dd, snf := opNf s op sf, dnf := opNf s op df }

/-! ### Slots (R246) -/

/-- The slots that a cord reserves. -/
def reservedSlots (c : Cord) : Nat := if c.hdr.copyres = 0 then 2 else c.hdr.copyres

/-- An issued entry is a record: the entry of a walking channel is none. -/
def CopyOp.isChain (op : CopyOp) : Bool := match op.src with | .chain .. => true | _ => false

/-- The records and fabric operations of a cord in flight (R386). -/
def inFlight (s : State) (cord : Nat) : Nat :=
  let c := getCore s (cord / 16)
  (c.issuedCp.filter (fun o => o.cord == cord && !o.isChain)).length + (c.copies.filter (·.cord == cord)).length +
    (c.fabric.filter (·.cord == cord)).length

/-- The cords present on a core. -/
def coreCords (s : State) (core : Nat) : List Nat :=
  ((List.range 16).map (cordKey core)).filter (fun k => (aGet? s.cords k).isSome)

/-- A record of the cord may take a slot. -/
def slotFree (s : State) (cord : Nat) : Bool :=
  let all := coreCords s (cord / 16)
  inFlight s cord < reservedSlots (getCord s cord) ||
    (all.map (fun k => reservedSlots (getCord s k) + (inFlight s k - reservedSlots (getCord s k)))).sum < 1024

/-- The record names a barrier for its arrival (R244). -/
def CopyOp.namesBar (op : CopyOp) : Bool := !op.image.isEmpty && op.cr.action % 2 == 1

/-- An operation is taken by the engine of its core: its barrier counts it (R186), unless a save has counted it already (R375). -/
def takeCopy (s : State) (op : CopyOp) : State :=
  let op := acceptCopy s op
  let c := getCore s op.core
  let s := setCore s op.core { c with copies := c.copies ++ [op] }
  if op.namesBar && !op.counted then engineNames s op.cord op.cr.bar else s

/-! ### Rows (R238 to R242) -/

/-- The pin of a mapping that a lookup has given. -/
def pinOf (s : State) (job : Nat) (table h : DWord) : Pin :=
  { handle := h, table := table.toNat, live := match checkHandle s job h .strong with | .alive _ _ => true | _ => false }

/-- The pin of a page of the source's table (side 0) or the destination's (side 1): taken at the first lookup of a page-tile (R225). -/
def pinPage (s : State) (op : CopyOp) (side : Nat) (d : TDesc) (row : Nat) : Except TrapCode (State × CopyOp) :=
  let page := row / 64
  let job := (opAgent s op).job
  if !d.paged || d.nrows ≤ row || (aGet? op.pins (page + side * 2 ^ 32)).isSome then .ok (s, op)
  else match (opAgent s op).core with
    | some core => match btLookup s core job d.aux page (2 * page + side) false with
      | .error c => .error c
      | .ok (h, t) => .ok (t, { op with pins := aSet op.pins (page + side * 2 ^ 32) (pinOf t job d.aux h) })
    | none => match placeAt s none job d.aux (8 * page) 8 .rd with
      | .error c => .error c
      | .ok p =>
        if poisonHit s p.key 8 then .error .poison
        else .ok (s, { op with pins := aSet op.pins (page + side * 2 ^ 32) (pinOf s job d.aux (BitVec.ofNat 64 (leNat (devRdN s p.key 8)))) })

/-- The pinned mapping of a row's page. -/
def CopyOp.pin (op : CopyOp) (side row : Nat) : Option Pin := aGet? op.pins (row / 64 + side * 2 ^ 32)

/-- Releases the pins whose tiles are over: no row that has still to move lies in the page (R225). -/
def CopyOp.unpin (op : CopyOp) : CopyOp :=
  let left := if op.status.isSome then [] else (List.range op.rows).filter (fun i => !op.moved.contains i)
  { op with pins := op.pins.filter (fun p => left.any (fun i => p.1 == op.srcRow i / 64 || p.1 == op.dstRow i / 64 + 2 ^ 32)) }

/-- The pins of box row i. -/
def pinRow (s : State) (op : CopyOp) (i : Nat) : Except TrapCode (State × CopyOp) :=
  match (match op.sdesc with | some d => pinPage s op 0 d (op.srcRow i) | none => .ok (s, op)) with
  | .error c => .error c
  | .ok (s, op) => match op.ddesc with
    | some d => pinPage s op 1 d (op.dstRow i)
    | none => .ok (s, op)

/-- A row's page lies in tier 1 and has not been handled (R242): the alive object of its handle. -/
def pageDue (s : State) (op : CopyOp) (i : Nat) : Option (Nat × Obj) :=
  match op.sdesc with
  | none => none
  | some d =>
    let row := op.srcRow i
    if !op.cr.pgin || !d.paged || d.nrows ≤ row || op.paged.contains (row / 64) then none
    else match op.pin 0 row with
      | none => none
      | some p => match checkHandle s (opAgent s op).job p.handle .strong with
        | .alive i o => if o.tier = 1 then some (i, o) else none
        | _ => none

/-- What a row of the source gives: slots packed in a number, values, or scratchpad bytes. -/
inductive RowData where
  | slots (v : Nat)
  | vals (xs : List ElemVal)

/-- The slots of a raw row, with 0 above each code (R45). -/
def rawSlots (e : Elem) (xs : List Nat) : Nat := packSlots e.bits (xs.map (· % 2 ^ e.codeBits))

/-- Reads box row i (R240); flags of the reading. -/
def readRow (s : State) (op : CopyOp) (i : Nat) : RowGot RowData :=
  let r := op.cr
  let e := op.srcElem
  match op.sdesc with
  | none =>
    let rb := op.rowBytes.getD 0
    let b := scratchRd (getCord s op.cord) (padOff r.src + i * pitchOf rb) rb
    if padPoison s op.cord (padOff r.src + i * pitchOf rb) rb then .poison
    else if r.conv = 3 then .got [.vals (slotVals e (slotsOf e.bits 0 b r.cols))] 0
    else .got [.slots (rawSlots op.dstElem (slotsOf op.dstElem.bits 0 b r.cols))] 0
  | some d =>
    let g := opAgent s op
    let row := op.srcRow i
    if r.conv = 0 then
      match rowSlots s g d e r.spx (op.pin 0 row) row r.orgCol r.cols with
      | .got xs fl => .got [.slots (rawSlots e xs)] fl
      | .fault => .fault
      | .poison => .poison
    else match rowValues s g d e r.spx (op.pin 0 row) row r.orgCol r.cols with
      | .got xs fl => .got [.vals xs] fl
      | .fault => .fault
      | .poison => .poison

/-- A row of zero elements. -/
def zeroRow (op : CopyOp) : RowData :=
  if op.cr.conv = 0 then .slots 0 else .vals (List.replicate op.cr.cols ⟨.zero false, none⟩)

/-- A row that a later box row of the same destination row has already replaced is not written (R247). -/
def CopyOp.replaced (op : CopyOp) (i : Nat) : Bool := op.moved.any (fun j => i < j && op.dstRow j == op.dstRow i)

/-- Writes box row i; none where the destination faults. -/
def writeRow (s : State) (op : CopyOp) (i : Nat) (x : RowData) : Option (State × Flags) :=
  let r := op.cr
  let rb := op.rowBytes.getD 0
  match op.ddesc with
  | none =>
    let at' (j : Nat) : Nat := padOff r.dst + j * pitchOf rb
    some (match x with
      | .slots v => (scratchWr s op.cord (at' i) (leBytes rb v), 0)
      | .vals xs =>
        let vs := xs.map (·.val)
        if r.conv = 1 then let c := ca16Row r.bitsOf vs; (scratchWr s op.cord (at' i) c.1, c.2)
        else if r.two then
          let c := cb8Planes vs
          (scratchWr (scratchWr s op.cord (at' i) c.1) op.cord (at' (op.rows + i)) c.2.1, c.2.2)
        else let c := cb8Row vs; (scratchWr s op.cord (at' i) c.1, c.2))
  | some d =>
    let g := opAgent s op
    let row := op.dstRow i
    let pin := op.pin 1 row
    let k := min r.cols (d.d0 - r.orgCol)
    if op.replaced i || k = 0 || d.nrows ≤ row then some (s, 0)
    else match x with
      | .slots v => (writeSlots s g d op.dstElem pin row r.orgCol r.cols v).map (fun s => (s, 0))
      | .vals xs =>
        let c := encodeRow d op.dstElem r.orgCol (xs.take k)
        match writeSlots s g d op.dstElem pin row r.orgCol k (packSlots op.dstElem.bits c.1) with
        | none => none
        | some s => (writeScales g d pin row (r.orgCol / 64) c.2.1 s).map (fun s => (s, c.2.2))

/-- The row lies in a slot whose bit in its page's SPEC field is 1, and labels are carried (R242). -/
def specRow (s : State) (op : CopyOp) (i : Nat) : Bool :=
  match op.sdesc with
  | none => false
  | some d =>
    let row := op.srcRow i
    op.cr.lab && d.paged && row < d.nrows && (match op.pin 0 row with
      | none => false
      | some p => (getObj s (opAgent s op).job (hIndex p.handle)).spec / 2 ^ (row % 64) % 2 == 1)

/-- A source row that lies in a page whose block-table entry is 0 has the void label (R238). -/
def CopyOp.noteVoid (op : CopyOp) (i : Nat) : CopyOp := match op.sdesc with
  | none => op
  | some d => if d.paged && (op.pin 0 (op.srcRow i)).any (fun p => p.handle == 0) then { op with voided := op.voided ++ [i] } else op

/-- Moves box row i: the state, the operation and the flags. A fault or an uncorrectable error sets the status; one in a block-table entry
that the lookup reads gives POISON (DEDUCED, log entry 35). -/
def pinnedRow (s : State) (op : CopyOp) (i : Nat) : State × CopyOp × Flags :=
  match pinRow s op i with
  | .error c => (s, { op with status := some (if c = .poison then 5 else 4) }, 0)
  | .ok (s, op) =>
    if (pageDue s op i).isSome then (s, op, 0)
    else
      let op := op.noteVoid i
      let done (s : State) (op : CopyOp) (x : RowData) (fl : Flags) (st : Option Nat) : State × CopyOp × Flags :=
        match writeRow s op i x with
        | none => (s, { op with status := some 4 }, fl)
        | some (s, f) => (s, { op with moved := op.moved ++ [i], status := st }, fl ||| f)
      match readRow s op i with
      | .fault => (s, { op with status := some 4 }, 0)
      | .poison =>
        if specRow s op i then done s { op with voided := op.voided ++ [i] } (zeroRow op) fSPEC none
        else done s op (zeroRow op) 0 (some 5)
      | .got xs fl => match xs.head? with
        | some x => done s op x fl none
        | none => (s, op, 0)

/-- Moves box row i, and releases the pins whose page-tiles are over. -/
def moveRow (s : State) (op : CopyOp) (i : Nat) : State × CopyOp × Flags :=
  let r := pinnedRow s op i
  (r.1, r.2.1.unpin, r.2.2)

/-- Replaces the ix-th accepted copy of a core. -/
def setCopy (s : State) (core ix : Nat) (op : CopyOp) : State :=
  let c := getCore s core
  setCore s core { c with copies := lSet c.copies ix op }

/-- One row of an accepted copy moves. -/
def moveCopyRow (s : State) (core ix row : Nat) : State :=
  match (getCore s core).copies[ix]? with
  | none => s
  | some op =>
    if op.status.isSome || op.rows ≤ row || op.moved.contains row then s
    else
      let r := moveRow s op row
      { orFlagsOf (setCopy r.1 core ix r.2.1) op.cord r.2.2 with free := s.free + 1 }

/-! ### Labels (R241, R302) -/

/-- Label k of the source: void for a row outside the tensor or in a page whose entry is 0 (R238), and for a column outside the tensor
(DEDUCED, log entry 60). -/
def srcLabel (s : State) (op : CopyOp) (k : Nat) : Got :=
  let r := op.cr
  let void := Got.bytes (leBytes 8 voidLabel)
  match op.sdesc with
  | none =>
    let off := padOff r.src + op.rows * pitchOf (op.rowBytes.getD 0) + 8 + 8 * k
    if padPoison s op.cord off 8 then .poison else .bytes (scratchRd (getCord s op.cord) off 8)
  | some d =>
    let x := if op.byCols then r.orgCol + k else op.srcRow k
    let gone := if op.byCols then d.d0 ≤ x else d.nrows ≤ x || op.voided.contains k
    if gone then void else (opAgent s op).read s d.label (8 + 8 * x) 8

/-- The labels of the source, or the status of the first that cannot be read. -/
def srcLabels (s : State) (op : CopyOp) : Nat → Except Nat (List Nat)
  | 0 => .ok []
  | k + 1 => match srcLabels s op k with
    | .error e => .error e
    | .ok ls => match srcLabel s op k with
      | .bytes b => .ok (ls ++ [leNat b])
      | .fault => .error 4
      | .poison => .error 5

/-- Writes labels to a destination plane, from index k up; none where one faults. -/
def putLabels (op : CopyOp) (d : TDesc) : Nat → List Nat → State → Option State
  | _, [], s => some s
  | k, l :: ls, s =>
    let g := opAgent s op
    let x := if op.byCols then op.cr.orgCol + k else op.dstRow k
    if (if op.byCols then d.d0 else d.nrows) ≤ x then putLabels op d (k + 1) ls s
    else match piecesAt s g d.label (8 + 8 * x) 8 .wr with
      | none => none
      | some ps => putLabels op d (k + 1) ls (g.wrAll s ps (leBytes 8 l))

/-- Moves the labels of a record whose rows have all moved. -/
def moveLabels (s : State) (op : CopyOp) : State × CopyOp :=
  if !op.cr.lab || op.status.isSome then (s, op)
  else match srcLabels s op op.labels with
    | .error e => (s, { op with status := some e })
    | .ok ls => match op.ddesc with
      | none =>
        let rb := op.rowBytes.getD 0
        let base := padOff op.cr.dst
        let s := scratchWr s op.cord (base + op.labelOff rb) (leBytes 8 op.layout.toNat ++ ls.flatMap (leBytes 8))
        (scratchWr s op.cord (base + op.sumOff rb) (summariesOf op.layout ls.length ls), op)
      | some d => match putLabels op d 0 ls s with
        | some s => (s, op)
        | none => (s, { op with status := some 4 })

/-! ### Completion (R244) -/

/-- The trap of a status (R243). -/
def copyTrap (st : Nat) : TrapCode := match st with | 1 => .copybnd | 4 => .memfault | 5 => .poison | _ => .desc

/-- What TINF reports as a record's address (R243, R364). -/
def CopySrc.addr : CopySrc → DWord
  | .cpy off => BitVec.ofNat 64 (2 ^ 63 + off)
  | .gather off _ => BitVec.ofNat 64 (2 ^ 63 + off)
  | .scatter off _ => BitVec.ofNat 64 (2 ^ 63 + off)
  | .chain _ a => a
  | .node _ _ a => a

/-- Writes bytes at an offset of the record itself, in the scratchpad or in memory. Where the record's page cannot be written, nothing is,
and the completion goes on (DESIGN CHOICE, log entry 60). -/
def putRec (s : State) (op : CopyOp) (o : Nat) (bs : List Byte) : State :=
  match op.src with
  | .chain _ a | .node _ _ a =>
    let g := opAgent s op
    (match piecesAt s g a o bs.length .wr with | some ps => g.wrAll s ps bs | none => s)
  | .cpy off | .gather off _ | .scatter off _ => scratchWr s op.cord (off + o) bs

/-- Step 2: STATUS, ERR and a cleared OWN over bits [5:0] of the captured first dword. -/
def writeBack (s : State) (op : CopyOp) (st : Nat) : State :=
  if op.image.isEmpty then s
  else putRec s op 0 (leBytes 8 (leAt op.image 0 8 / 64 * 64 + 4 * st + (if st = 0 then 0 else 2)))

/-- Step 3: the cord's next completion number, for ACT 3; a release at .dv for a chain record. -/
def writeSeq (s : State) (op : CopyOp) : State :=
  if op.image.isEmpty || op.cr.action != 3 || op.isNode then s
  else
    let c := getCord s op.cord
    let s := setCord s op.cord { c with seqCtr := c.seqCtr + 1 }
    putRec (if op.isChain then flush s op.core 4 else s) op 56 (leBytes 8 (c.seqCtr + 1))

/-- Subtracts from a signal, one indivisible update at the device point (R208). -/
def subSignal (s : State) (core : Option Nat) (p : Place) (n : Nat) : State :=
  let f (old : List Byte) : Option (List Byte) := some (leBytes 8 ((leNat old + (2 ^ 64 - n % 2 ^ 64)) % 2 ^ 64))
  match core with
  | some c => (atomicAt s c 4 p 8 f).2
  | none => devWr s p.key ((f (devRdN s p.key 8)).getD [])

/-- Step 5: the barrier arrival of ACT 1 and 3, or SIG's decrement, a release at .dv. -/
def copyAction (s : State) (op : CopyOp) : State :=
  if op.image.isEmpty then s
  else if op.cr.action = 2 then
    match piecesAt s (opAgent s op) op.cr.sig 0 8 .wr with
    | some ((p, _) :: _) =>
      if op.cr.sig.toNat % 8 != 0 then s
      else if op.isNode then subSignal s none p 1
      else subSignal (flush s op.core 4) (some op.core) p 1
    | _ => s
  else if op.cr.action % 2 = 1 && !op.isNode then arriveEngine s op.cord op.cr.bar
  else s

/-- The status of a walk that has ended and whose records have all completed: the first nonzero one in chain order. -/
def Walk.result (w : Walk) : Option Nat :=
  if w.ended && w.taken.all (fun t => t.2.isSome) then
    some (((w.taken.filterMap (·.2)).find? (· != 0)).getD (if w.desc then 2 else 0))
  else none

/-- Writes the tokens of the walks of a channel that are over; a walk that ended with DESC traps at the strand of the CHAN
under which it walked (R243). -/
def endWalks (s : State) (cord ch : Nat) : State :=
  let c := getCord s cord
  let h := aGet {} c.chans ch
  let past := h.walks.filter (fun w => w.result.isSome)
  let s := setCord s cord { c with chans := aSet c.chans ch { h with walks := h.walks.filter (fun w => w.result.isNone) } }
  past.foldl (fun s w =>
    let s := writeToken s w.strand w.token (BitVec.ofNat 32 (w.result.getD 0)) 2
    if w.desc then recordTrap s w.owner { code := .desc, cls := .engine, addr := w.pos, aux := 2 } else s) s

/-- A record of a channel has completed with a status. -/
def noteTaken (s : State) (op : CopyOp) (st : Nat) : State :=
  match op.src with
  | .chain ch _ =>
    let c := getCord s op.cord
    let h := aGet {} c.chans ch
    let ws := h.walks.map (fun w => { w with taken := w.taken.map (fun t => if t.1 = op.id then (t.1, some st) else t) })
    endWalks (setCord s op.cord { c with chans := aSet c.chans ch { h with walks := ws } }) op.cord ch
  | _ => s

/-- Completes an operation of a core (R244): labels, write-back, SEQ, token, action, and the engine trap of a status. -/
def completeCopy (s : State) (core ix : Nat) : State :=
  match (getCore s core).copies[ix]? with
  | none => s
  | some op =>
    if op.status.isNone && op.moved.length < op.rows then s
    else
      let (s, op) := moveLabels s op
      let st := op.status.getD 0
      let s := writeSeq (writeBack s op st) op
      let s := writeToken s op.strand op.token (BitVec.ofNat 32 st) 2
      let s := copyAction s op
      let c := getCore s core
      let s := noteTaken (setCore s core { c with copies := lDel c.copies ix }) op st
      if st = 0 then s
      else recordTrap s op.strand { code := copyTrap st, cls := .engine, addr := op.src.addr, aux := BitVec.ofNat 64 st }

/-- COPY_COMPLETE (R244): of the core's ix-th accepted copy. -/
def execCopyComplete (s : State) : Out := .next (completeCopy s s.focus.core s.focus.ix)

/-! ### Chains (R245, R250) -/

/-- The walk of a channel that is still walking. -/
def Channel.walking (h : Channel) : Option Walk := match h.walks.getLast? with
  | some w => if w.ended then none else some w
  | none => none

/-- The walk of a channel ends: the cursor stands at its last record, and a CHAN that waits sets its head. -/
def endWalk (h : Channel) (w : Walk) (desc : Bool) : Channel :=
  let h := { h with walks := h.walks.dropLast ++ [{ w with ended := true, desc := desc }], cursor := some w.pos }
  match h.nextHd with
  | some (a, k) => { h with cursor := some a, tail := none, nextHd := none, owner := k }
  | none => h

/-- A walk goes on from a record with the given NEXT. -/
def stepWalk (h : Channel) (w : Walk) (next : DWord) : Channel :=
  if w.pos = w.tail then endWalk h w false
  else if next = 0 || 2 ^ 20 ≤ w.passed + 1 then endWalk h w true
  else { h with walks := h.walks.dropLast ++ [{ w with pos := next, passed := w.passed + 1 }] }

/-- A record of the channel is in flight at an address. -/
def chainBusy (s : State) (cord ch : Nat) (a : DWord) : Bool :=
  (getCore s (cord / 16)).copies.any (fun o => o.cord == cord && o.src == .chain ch a)

/-- Some record that the channel has taken has not completed. -/
def chainOpen (s : State) (cord ch : Nat) : Bool :=
  (getCore s (cord / 16)).copies.any (fun o => o.cord == cord && (match o.src with | .chain c _ => c == ch | _ => false))

/-- Replaces a channel. -/
def setChan (s : State) (cord ch : Nat) (h : Channel) : State :=
  let c := getCord s cord
  setCord s cord { c with chans := aSet c.chans ch h }

/-- The engine reaches the next record of a walking channel (R245): passes over it, accepts it, or waits. A record that cannot be read, or
whose first dword carries an uncorrectable error, ends the walk, for its NEXT is not known (DEDUCED, log entry 60). -/
def reachRecord (s : State) (core ix : Nat) (op : CopyOp) (ch : Nat) : State :=
  let h := aGet {} (getCord s op.cord).chans ch
  match h.walking with
  | none =>
    let c := getCore s core
    setCore s core { c with issuedCp := lDel c.issuedCp ix }
  | some w =>
    let g := opAgent s op
    let close (s : State) (h : Channel) : State :=
      let s := setChan s op.cord ch h
      if h.walking.isSome then s
      else
        let c := getCore s core
        endWalks (setCore s core { c with issuedCp := lDel c.issuedCp ix }) op.cord ch
    let take (image : List Byte) (bad : Bool) (st : Option Nat) (next : DWord) (stop : Bool) : State :=
      let (n, s) := nextSeq s
      let o : CopyOp := { op with id := n, src := .chain ch w.pos, image := image, badRec := bad, status := st, strand := w.owner }
      let c := getCore s core
      let s := match st with
        | none => takeCopy s o
        | some _ => setCore s core { c with copies := c.copies ++ [o] }
      let w := { w with taken := w.taken ++ [(n, none)] }
      let h := { h with walks := h.walks.dropLast ++ [w] }
      close s (if stop then endWalk h w false else stepWalk h w next)
    match g.capture s w.pos with
    | none => if slotFree s op.cord then take [] false (some 4) 0 true else s
    | some x =>
      let r := CRec.ofBytes x.image
      if !x.lost && (!r.own || (w.passed = 0 && chainBusy s op.cord ch w.pos)) then close s (stepWalk h w r.next)
      else if (r.ord && chainOpen s op.cord ch) || !slotFree s op.cord then s
      else take x.image x.bad none r.next x.lost

/-- COPY_ACCEPT (R243, R245): of the core's ix-th issued copy, or of the next record of its walking channel. -/
def execCopyAccept (s : State) : Out :=
  let core := s.focus.core
  let ix := s.focus.ix
  match (getCore s core).issuedCp[ix]? with
  | none => .next s
  | some op => match op.src with
    | .chain ch _ => .next (reachRecord s core ix op ch)
    | _ =>
      let c := getCore s core
      .next (takeCopy (setCore s core { c with issuedCp := lDel c.issuedCp ix }) op)

/-! ### Page-in (R242) -/

/-- The RTAG of a message. -/
def CopySrc.rtag : CopySrc → Nat
  | .cpy off => off / 64
  | .gather off _ => off / 64
  | .scatter off _ => off / 64
  | _ => 0

/-- The TIERMISS message. -/
def tierMiss (inPlace : Bool) (page rtag : Nat) : DWord :=
  BitVec.ofNat 64 (1 + (if inPlace then 256 else 0) + 2 ^ 16 * (page % 2 ^ 32) + 2 ^ 48 * (rtag % 2 ^ 16))

/-- The page of box row i is paged in, or the message says that it could not be. -/
def pageIn (s : State) (core ix row : Nat) : State :=
  match (getCore s core).copies[ix]? with
  | none => s
  | some op =>
    if op.status.isSome || op.rows ≤ row then s
    else match pinRow s op row with
      | .error _ => s
      | .ok (s, op) => match pageDue s op row with
        | none => setCopy s core ix op
        | some (i, _) =>
          let job := (opAgent s op).job
          let page := op.srcRow row / 64
          let r := changeTier s job i 0
          let s := r.getD (reclaim s job 0)
          let s := setCopy s core ix { op with paged := op.paged ++ [page] }
          { postDevice s op.strand (tierMiss r.isNone page op.src.rtag) with free := s.free + 1 }

/-- COPY_PAGE_IN (R242): for the row in focus of the core's ix-th accepted copy. -/
def execCopyPageIn (s : State) : Out := .next (pageIn s s.focus.core s.focus.ix s.focus.row)

/-! ### Issue (R247 to R250) -/

/-- Issues a record of the scratchpad (R249): waits for its token register and for a slot; an offset that is not a multiple of 64
or passes SPSIZE is refused with COPYBND. -/
def issueCopy (mk : Nat → CopySrc) (w : SWord) (l : Lane) (s : State) : Res :=
  if tokenBusy s w then .wait .issue s
  else if !slotFree s (focusCord s) then .wait .slot s
  else
    let off := (opA1 s w l).toNat
    let s := release s 2
    if off % 64 != 0 || !scratchIn (myCord s) off 64 then
      let s := writeToken (startToken s w) (focusStrand s) (tokenOf w.d) 1 2
      .done (recordTrap s (focusStrand s) { code := .copybnd, cls := .engine, addr := BitVec.ofNat 64 (2 ^ 63 + off), aux := 1 })
    else
      let (n, s) := nextSeq (startToken s w)
      let op : CopyOp := { id := n, cord := focusCord s, strand := focusStrand s, token := tokenOf w.d, src := mk off,
                           image := scratchRd (myCord s) off 64, badRec := padPoison s (focusCord s) off 64 }
      let c := myCore s
      .done (setMyCore s { c with issuedCp := c.issuedCp ++ [op] })

/-- B in the enabled lanes, ascending. -/
def indexLanes (s : State) (w : SWord) : List Word := (lanesOf (enabled s w)).map (opB1 s w)

def cpyBody (w : SWord) (s : State) : Res := once (issueCopy .cpy) w s
def cpygBody (w : SWord) (s : State) : Res := once (fun w l s => issueCopy (fun o => .gather o (indexLanes s w)) w l s) w s
def cpysBody (w : SWord) (s : State) : Res := once (fun w l s => issueCopy (fun o => .scatter o (indexLanes s w)) w l s) w s

def execCpy (w : SWord) (s : State) : Out := .next (runWord (.cpy w) cpyBody s)
def execCpyg (w : SWord) (s : State) : Out := .next (runWord (.cpyg w) cpygBody s)
def execCpys (w : SWord) (s : State) : Out := .next (runWord (.cpys w) cpysBody s)

/-- The channel that a word names. -/
def chanOf (w : SWord) : Nat := w.bits 0 3

/-- CHAN (R250): waits, as an outstanding issue, while a walk goes on; an earlier CHAN that waits goes first. -/
def chanBody (w : SWord) (s : State) : Res :=
  once (fun w l s =>
    let h := aGet {} (myCord s).chans (chanOf w)
    if h.nextHd.isSome then .wait .slot s
    else
      let s := release s 2
      let a := opA2 s w l
      .done (setChan s (focusCord s) (chanOf w) (if h.walking.isSome then { h with nextHd := some (a, focusStrand s) }
        else { h with cursor := some a, tail := none, owner := focusStrand s }))) w s

/-- TAIL (R250): starts a walk; a channel walks one chain at a time. -/
def tailBody (w : SWord) (s : State) : Res :=
  once (fun w l s =>
    let ch := chanOf w
    let h := aGet {} (myCord s).chans ch
    if tokenBusy s w then .wait .issue s
    else if h.walking.isSome || h.nextHd.isSome then .wait .slot s
    else
      let s := startToken (release s 2) w
      let k := focusStrand s
      let a := opA2 s w l
      let fail (owner : Nat) (pos : DWord) : Res :=
        .done (recordTrap (writeToken s k (tokenOf w.d) 2 2) owner { code := .desc, cls := .engine, addr := pos, aux := 2 })
      match h.cursor with
      | none => fail k a
      | some cur =>
        if cur.toNat % 64 != 0 then fail h.owner cur
        else if a.toNat % 64 != 0 then fail h.owner a
        else
          let walk : Walk := { pos := cur, token := tokenOf w.d, strand := k, owner := h.owner, tail := a }
          let s := setChan s (focusCord s) ch { h with tail := some a, walks := h.walks ++ [walk] }
          let (n, s) := nextSeq s
          let op : CopyOp := { id := n, cord := focusCord s, strand := h.owner, src := .chain ch cur }
          let c := myCore s
          .done (setMyCore s { c with issuedCp := c.issuedCp ++ [op] })) w s

def execChan (w : SWord) (s : State) : Out := .next (runWord (.chan w) chanBody s)
def execTail (w : SWord) (s : State) : Out := .next (runWord (.tail w) tailBody s)

/-! ### Signals (R251) -/

/-- The place of a signal for the cord in focus; a misaligned one counts as a faulting access. -/
def signalPlace (s : State) (a : DWord) (need : Need) : Option Place :=
  if a.toNat % 8 != 0 then none
  else match placeAt s (some s.focus.core) (myJob s) a 0 8 need with
    | .ok p => some p
    | .error _ => none

/-- SIGD: a release at .dv, then one indivisible subtraction at the device point. -/
def sigdBody (w : SWord) (s : State) : Res :=
  once (fun w l s =>
    if tokenBusy s w then .wait .issue s
    else
      let k := focusStrand s
      let a := opA2 s w l
      let s := startToken (release s 4) w
      match signalPlace s a .rd, signalPlace s a .wr with
      | some p, some _ =>
        let n := natOf 64 (opB1 s w l).toInt
        .done (writeToken (subSignal s (some s.focus.core) p n) k (tokenOf w.d) 0 2)
      | _, _ =>
        .done (recordTrap (writeToken s k (tokenOf w.d) 4 2) k { code := .memfault, cls := .engine, addr := a, aux := 4 })) w s

/-- SIGR: reads the signal at the device point; with its wait the strand stalls while the value is above B. An uncorrectable error in the
signal faults POISON as any data read (R116, R251). -/
def sigrBody (w : SWord) (s : State) : Res :=
  once (fun w l s =>
    let a := opA2 s w l
    match signalPlace s a .rd with
    | none => .done (faultHere s (curClause s) ((lanesOf (enabled s w)).map (fun l => (l, .memfault, a, 0))))
    | some p =>
      let v := BitVec.ofNat 64 (leNat (forwardRd s false (fun k => scopeRd s s.focus.core 4 k p.nc) p.key 8))
      if badData false 4 s p 8 then .done (faultHere s (curClause s) ((lanesOf (enabled s w)).map (fun l => (l, .poison, a, 0))))
      else if w.bits 0 1 = 1 && (opB2 s w l).slt v then .wait .sigr s
      else .done (acquire (putD s w 2 v) 4)) w s

def execSigd (w : SWord) (s : State) : Out := .next (runWord (.sigd w) sigdBody s)
def execSigr (w : SWord) (s : State) : Out := .next (runWord (.sigr w) sigrBody s)

end Sys2Proof.Machine
end

