-- ==== Sys2Proof/Machine/Capstan.lean ====
section
/-! DEFINITION. Calls and the capstan (R59 to R64, R253 to R257, R278 to R284, R299): MCALL (strand opcode 0xA5), the call chain, the
frame of a capstan word, the scalar, control, memory and call-level words (capstan opcodes 0x00 to 0x13 and 0x2D to 0x2F), and the
events of a call. -/

namespace Sys2Proof.Machine

/-! ### The running call -/

/-- The running call of the core in focus, unless it has ended. -/
def myRun? (s : State) : Option RunCall := match (myCore s).run with
  | some r => if r.ended.isNone then some r else none
  | none => none

/-- A call that does not run. -/
def noRun : RunCall := { call := { id := 0, cord := 0, strand := 0 } }

/-- The running call, or none's. -/
def myRun (s : State) : RunCall := (myRun? s).getD noRun

/-- Replaces the running call. -/
def setRun (s : State) (r : RunCall) : State := setMyCore s { myCore s with run := some r }

/-- The cord for which the call acts (R253). -/
def capCord (s : State) : Nat := (myRun s).call.cord

/-- The address of the capstan word in progress. -/
def capAddr (r : RunCall) : VAddr := match r.clause with
  | some c => c.hdr + 8 + BitVec.ofNat 56 (8 * c.word)
  | none => r.pc

/-- How a call ends: a status, a cause and an address (R280). -/
def endWith (status cause : Nat) (addr : DWord) : CallEnd := { status := status, cause := cause, addr := addr }

/-- The call ends at the word in progress: its completion is then due. -/
def endCall (s : State) (e : CallEnd) : State := setRun s { myRun s with ended := some e, waiting := false }

/-- The end that a failed operand check makes (R255): CTRAP with cause ILLOP at the word. -/
def operandEnd (s : State) : CallEnd := endWith 1 3 ((capAddr (myRun s)).setWidth 64)

/-- An end with a status of its own, at the word. -/
def statusEnd (s : State) (st : Nat) : CallEnd := endWith st 0 ((capAddr (myRun s)).setWidth 64)

/-! ### Registers (R24, R62) -/

/-- A register as operand n of a word: c31 reads 0; with outstanding writes each may or may not have been made (R24). -/
def readC (s : State) (n : Nat) (r : BitVec 5) : DWord :=
  if r = 31 then 0
  else
    let m := myRun s
    m.pend.zipIdx.foldl (fun v p =>
      if p.1.reg = r.toNat && Config.unsettled s.free (n + 8 * (16384 + r.toNat + 8192 * p.2)) then p.1.val else v)
      (aGet 0 m.c r.toNat)

/-- The operands of a word. -/
def capA (s : State) (w : CWord) : DWord := readC s 1 w.a
def capB (s : State) (w : CWord) : DWord := readC s 2 w.b
def capC (s : State) (w : CWord) : DWord := readC s 3 w.c
def capD (s : State) (w : CWord) : DWord := readC s 0 w.d

/-- operand2 of R282. -/
def operand2 (s : State) (w : CWord) : DWord := capB s w + w.imm.signExtend 64

/-- Writes a register: a write to c31 is discarded; older outstanding writes of it race (R24). -/
def RunCall.put (m : RunCall) (r : BitVec 5) (v : DWord) : RunCall :=
  if r = 31 then m
  else { m with c := aSet m.c r.toNat v, pend := m.pend.map (fun p => if p.reg = r.toNat then { p with raced := true } else p) }

/-- Writes a register of the running call. -/
def putC (s : State) (r : BitVec 5) (v : DWord) : State := setRun s ((myRun s).put r v)

/-- A call whose outstanding results have been written: those without a race first, the others by an open choice (R24). -/
def RunCall.settle (m : RunCall) (free : Nat) : RunCall :=
  let l := m.pend.zipIdx.filter (fun p => !p.1.raced || Config.unsettled free (6 + 8 * (16384 + p.1.reg + 8192 * p.2)))
  let go (c : AMap DWord) (p : CldResult × Nat) : AMap DWord := if p.1.reg = 31 then c else aSet c p.1.reg p.1.val
  { m with c := (l.filter (fun p => p.1.raced)).foldl go ((l.filter (fun p => !p.1.raced)).foldl go m.c), pend := [] }

/-- Writes the outstanding results of the capstan. -/
def settleCap (s : State) : State :=
  match (myCore s).run with
  | none => s
  | some m => setRun s (m.settle s.free)

/-- The capstan's store queue drains (R284). -/
def drainCap (s : State) : State :=
  match (myCore s).run with
  | none => s
  | some m => m.stores.foldl (fun s q => commitStore s s.focus.core m.call.cord (.engine m.call.cord) q) (setRun s { m with stores := [] })

/-! ### The frame of a capstan word (R64, R282) -/

/-- What the body of a capstan word answers, with the core cycles it spends: the next word, a transfer, the end of the call, a boundary
inside the word, which goes on there, or a wait at the word. -/
inductive CRes where
  | done (cost : Nat) (s : State)
  | jump (cost : Nat) (a : VAddr) (s : State)
  | stop (cost : Nat) (e : CallEnd) (s : State)
  | again (cost : Nat) (s : State)
  | wait (s : State)

/-- A word, or a step of one, has made its effect: core cycles are added to the running call, and what the word may have read is past. -/
def spend (s : State) (n : Nat) : State := match (myCore s).run with
  | some r => setRun s { r with spent := r.spent + n, waiting := false, seen := [] }
  | none => s

/-- Goes on after a word: the next word, or the next header. -/
def capAdvance (s : State) : State :=
  let r := myRun s
  match r.clause with
  | none => s
  | some c =>
    setRun s (if c.nm1 ≤ c.word then { r with clause := none, pc := c.hdr + 8 + BitVec.ofNat 56 (8 * (c.nm1 + 1)) }
      else { r with clause := some { c with word := c.word + 1 } })

/-- Runs a capstan word: the checks of R64, then its body. With S = 1 every outstanding result is written before the next word. -/
def runCap (i : Instr) (body : CWord → State → CRes) (s : State) : State :=
  match capstanForm i, myRun? s with
  | some (w, f), some r =>
    if r.clause.isNone then s
    else if !f.wf w then endCall s (operandEnd s)
    else
      let fin (s : State) (cost : Nat) : State := { spend (if w.sw then settleCap s else s) cost with free := s.free + 1 }
      match body w s with
      | .done n t => capAdvance (fin t n)
      | .jump n a t => let u := fin t n; setRun u { myRun u with clause := none, pc := a }
      | .stop n e t => endCall { spend t n with free := t.free + 1 } e
      | .again n t => { spend t n with free := t.free + 1 }
      | .wait t => setRun t { myRun t with waiting := true }
  | _, _ => s

/-- How far the word of the running call has come. -/
def setProgress (s : State) (p : Progress) : State := setRun s { myRun s with progress := some p }

/-- The word of the running call has made its whole effect. -/
def closeProgress (s : State) : State := match (myRun s).progress with
  | none => s
  | some _ => setRun s { myRun s with progress := none }

/-- The budget of a job's calls in core cycles (R399). -/
def callBudget (s : State) (cord : Nat) : Nat :=
  let b := (aGet {} s.jobs (getCord s cord).job).budget
  if b = 0 then 2 ^ 32 else b

/-- A call has exceeded its budget (R256): it can only be reset. -/
def RunCall.over (s : State) (r : RunCall) : Bool := callBudget s r.call.cord < r.spent

/-! ### Scalar and control words (R283) -/

/-- A word of one result. -/
def capAlu (cost : Nat) (f : DWord → DWord → DWord) (w : CWord) (s : State) : CRes :=
  .done cost (putC s w.d (f (capA s w) (operand2 s w)))

/-- CMOVI. -/
def cmoviValue (w : CWord) (old : DWord) : DWord :=
  let h := 16 * w.b.toNat
  if w.a = 0 then w.imm.signExtend 64 <<< h
  else (old &&& ~~~((0xFFFF : DWord) <<< h)) ||| (w.imm.setWidth 64 <<< h)

/-- The flags of CCMP (R63). -/
def ccmpBody (w : CWord) (s : State) : CRes :=
  let a := capA s w
  let b := operand2 s w
  .done 1 (setRun s { myRun s with fz := a == b, fn := a.slt b, fc := a.ult b })

/-- The condition of CBR (R63). -/
def capCond (cond : Nat) (r : RunCall) : Bool := match cond with
  | 0 => r.fz
  | 1 => !r.fz
  | 2 => r.fn
  | 3 => !r.fn
  | 4 => r.fc
  | 5 => !r.fc
  | 6 => r.fn || r.fz
  | _ => !(r.fn || r.fz)

/-- A transfer's target (R62). -/
def capTarget (s : State) (w : CWord) : VAddr := capAddr (myRun s) + (w.imm.signExtend 56 <<< 3)

def cbrBody (w : CWord) (s : State) : CRes :=
  if capCond w.cond.toNat (myRun s) then .jump 1 (capTarget s w) s else .done 1 s

def cloopBody (w : CWord) (s : State) : CRes :=
  let v := capD s w - 1
  let t := putC s w.d v
  if v = 0 then .done 1 t else .jump 1 (capTarget s w) t

def shl64 (a b : DWord) : DWord := if b.toNat < 64 then a <<< b.toNat else 0
def shr64 (a b : DWord) : DWord := if b.toNat < 64 then a >>> b.toNat else 0

def execCnop (w : CWord) (s : State) : Out := .next (runCap (.cnop w) (fun _ s => .done 1 s) s)
def execCmov (w : CWord) (s : State) : Out := .next (runCap (.cmov w) (fun w s => .done 1 (putC s w.d (capA s w))) s)
def execCmovi (w : CWord) (s : State) : Out :=
  .next (runCap (.cmovi w) (fun w s => .done 1 (putC s w.d (cmoviValue w (capD s w)))) s)
def execCadd (w : CWord) (s : State) : Out := .next (runCap (.cadd w) (capAlu 1 (· + ·)) s)
def execCsub (w : CWord) (s : State) : Out := .next (runCap (.csub w) (capAlu 1 (· - ·)) s)
def execCmul (w : CWord) (s : State) : Out := .next (runCap (.cmul w) (capAlu 4 (· * ·)) s)
def execCand (w : CWord) (s : State) : Out := .next (runCap (.cand w) (capAlu 1 (· &&& ·)) s)
def execCor (w : CWord) (s : State) : Out := .next (runCap (.cor w) (capAlu 1 (· ||| ·)) s)
def execCshl (w : CWord) (s : State) : Out := .next (runCap (.cshl w) (capAlu 1 shl64) s)
def execCshr (w : CWord) (s : State) : Out := .next (runCap (.cshr w) (capAlu 1 shr64) s)
def execCcmp (w : CWord) (s : State) : Out := .next (runCap (.ccmp w) ccmpBody s)
def execCbr (w : CWord) (s : State) : Out := .next (runCap (.cbr w) cbrBody s)
def execCbra (w : CWord) (s : State) : Out := .next (runCap (.cbra w) (fun w s => .jump 1 (capTarget s w) s) s)
def execCloop (w : CWord) (s : State) : Out := .next (runCap (.cloop w) cloopBody s)

/-! ### Memory and waiting (R284) -/

/-- The bytes that CLD and CST move. -/
def capSize (w : CWord) : Nat := 2 ^ (w.imm.toNat / 4096 % 4)

/-- The displacement of CLD and CST. -/
def capOff (w : CWord) : Int := signedOf 12 (w.imm.toNat % 4096)

/-- The access is to the scratchpad. -/
def capSp (w : CWord) : Bool := w.imm.getLsbD 15

/-- n bytes at a scratchpad offset lie below SPSIZE (R255). -/
def capPadOk (s : State) (off n : Nat) : Bool := scratchIn (getCord s (capCord s)) off n

/-- A scratchpad offset of a register value (R282). -/
def capPad (v : DWord) : Nat := v.toNat % 2 ^ 32

/-- Where a CLD or CST lands, or how the call ends. -/
def capPlace (s : State) (w : CWord) (need : Need) : Except CallEnd Place :=
  let n := capSize w
  let base := capA s w
  let a := base + BitVec.ofInt 64 (capOff w)
  if capSp w then
    if capPadOk s (capPad a) n && capPad a % n = 0 then .ok { key := capPad a } else .error (operandEnd s)
  else
    let bad := endWith 8 0 a
    let job := (getCord s (capCord s)).job
    if isHandle base then
      if capOff w % n != 0 then .error bad
      else match handlePlace s job base (capOff w) n with
        | .ok p => .ok p
        | .error _ => .error bad
    else if a.toNat % n != 0 || (base = 0 && w.a != 31) then .error bad
    else match translate s (some s.focus.core) job a need with
      | some p => .ok p
      | none => .error bad

/-- Keeps the translation that the capstan used. -/
def capKeep (s : State) (p : Place) : State := match p.tlb with
  | some t => cacheTlb s s.focus.core t
  | none => s

/-- A byte as the capstan reads it: its own queued stores first (R284). -/
def capByte (s : State) (scratch : Bool) (p : Place) (k : Nat) : Byte :=
  match queueRd (myRun s).stores scratch k with
  | some b => b
  | none => if scratch then memRd (getCord s (capCord s)).scratch k else coreRd s s.focus.core k p.nc

/-- Bytes that the capstan reads carry an uncorrectable error (R280, R406); its own queued stores carry none. -/
def capPoison (s : State) (scratch : Bool) (p : Place) (n : Nat) : Bool :=
  (List.range n).any (fun i => (queueRd (myRun s).stores scratch (p.key + i)).isNone &&
    if scratch then padPoison s (capCord s) (p.key + i) 1 else poisonSeen s s.focus.core (p.key + i) 1 p.nc)

/-- CLD: the value is read at issue, and its result is outstanding. -/
def cldBody (w : CWord) (s : State) : CRes :=
  match capPlace s w .rd with
  | .error e => .stop 1 e s
  | .ok p =>
    if capPoison s (capSp w) p (capSize w) then .stop 1 (endWith 9 0 (capA s w + BitVec.ofInt 64 (capOff w))) s
    else
      let v := leNat ((List.range (capSize w)).map (fun i => capByte s (capSp w) p (p.key + i)))
      let s := capKeep s p
      let r := myRun s
      let pend := r.pend.map (fun p => if p.reg = w.d.toNat then { p with raced := true } else p)
      .done 1 (setRun s { r with pend := pend ++ [{ reg := w.d.toNat, val := BitVec.ofNat 64 v }] })

/-- CST. -/
def cstBody (w : CWord) (s : State) : CRes :=
  match capPlace s w .wr with
  | .error e => .stop 1 e s
  | .ok p =>
    let q : QStore := { scratch := capSp w, key := p.key, bytes := leBytes (capSize w) (capB s w).toNat, nc := p.nc }
    let s := capKeep s p
    .done 1 (setRun s { myRun s with stores := (myRun s).stores ++ [q] })

/-- The place of the signal that CWAIT reads, where it is aligned and accessible. -/
def capSignal (s : State) (a : DWord) : Option Place :=
  if a.toNat % 8 = 0 then (placeAt s (some s.focus.core) (getCord s (capCord s)).job a 0 8 .rd).toOption else none

/-- The signal as the call reads it, at the device point. -/
def capSignalValue (s : State) (p : Place) : DWord :=
  BitVec.ofNat 64 (leNat ((List.range 8).map (fun i =>
    (queueRd (myRun s).stores false (p.key + i)).getD (scopeRd s s.focus.core 4 (p.key + i) p.nc))))

/-- CWAIT: waits while the signal, read at the device point, is above the bound. -/
def cwaitBody (w : CWord) (s : State) : CRes :=
  let a := capA s w
  match capSignal s a with
  | none => .stop 2 (endWith 8 0 a) s
  | some p =>
    if capPoison s false { p with nc := true } 8 then .stop 2 (endWith 9 0 a) s
    else if (capB s w).slt (capSignalValue s p) then .wait s
    else .done 2 (refresh s s.focus.core 4)

/-- CFENCE: FENCE's kinds and scopes applied to the capstan's accesses. -/
def cfenceBody (w : CWord) (s : State) : CRes :=
  let sc := w.imm.toNat % 8
  let k := w.imm.toNat / 8 % 4
  let s := if k = 1 || sc = 0 then s else flush (drainCap s) s.focus.core sc
  .done 2 (if k = 2 then s else refresh s s.focus.core sc)

def execCld (w : CWord) (s : State) : Out := .next (runCap (.cld w) cldBody s)
def execCst (w : CWord) (s : State) : Out := .next (runCap (.cst w) cstBody s)
def execCwait (w : CWord) (s : State) : Out := .next (runCap (.cwait w) cwaitBody s)
def execCfence (w : CWord) (s : State) : Out := .next (runCap (.cfence w) cfenceBody s)

/-! ### Call-level words (R299) -/

/-- CPRI's value. -/
def cpriValue (s : State) : DWord :=
  let r := myRun s
  let c := getCord s r.call.cord
  let ping := c.hdr.flags.getLsbD 1
  BitVec.ofNat 64 (r.call.cord % 16 + 16 * (ping && c.token).toNat + 32 * (ping && c.partner.isSome).toNat +
    2 ^ 8 * min (myCore s).chain.length 255 + 2 ^ 16 * (r.call.strand % 32) + 2 ^ 32 * (c.job % 2 ^ 16))

/-- CRET: waits until no CLD is outstanding and the queue has drained, then completes with status 0. -/
def cretBody (_ : CWord) (s : State) : CRes := .stop 2 (endWith 0 0 0) (drainCap (settleCap s))

/-- CARG: word n of the captured block. -/
def cargBody (w : CWord) (s : State) : CRes := .done 1 (putC s w.d ((myRun s).call.block.getD (w.imm.toNat % 8) 0))

/-- CSEQ. -/
def cseqBody (w : CWord) (s : State) : CRes :=
  let a := capA s w
  if a.toNat % 8 != 0 then .stop 1 (operandEnd s) s else .done 1 (setRun s { myRun s with seqAddr := some a })

/-- CTRAP: cause SWTRAP, with its code. -/
def ctrapBody (w : CWord) (s : State) : CRes :=
  .stop 1 { endWith 1 6 ((capAddr (myRun s)).setWidth 64) with code := w.imm } s

def execCret (w : CWord) (s : State) : Out := .next (runCap (.cret w) cretBody s)
def execCarg (w : CWord) (s : State) : Out := .next (runCap (.carg w) cargBody s)
def execCpri (w : CWord) (s : State) : Out := .next (runCap (.cpri w) (fun w s => .done 1 (putC s w.d (cpriValue s))) s)
def execCseq (w : CWord) (s : State) : Out := .next (runCap (.cseq w) cseqBody s)
def execCtrap (w : CWord) (s : State) : Out := .next (runCap (.ctrap w) ctrapBody s)

/-! ### Completion (R280, R281) -/

/-- The engine trap of a status (R280). -/
def callTrap (st : Nat) : TrapCode := match st with
  | 1 => .ctrap | 2 => .mreset | 3 => .clayerr | 4 => .reln | 5 => .heapcap | 6 => .heapspill | 7 => .biasord | 8 => .memfault
  | 9 => .poison | _ => .desc

/-- The CSEQ write (R281): the cord's next call completion number, a release at .dv; false where it faults. -/
def writeCseq (s : State) (core cord : Nat) (seqAddr : Option DWord) : Bool × State :=
  match seqAddr with
  | none => (true, s)
  | some a =>
    let c := getCord s cord
    let s := flush (setCord s cord { c with cseqCtr := c.cseqCtr + 1 }) core 4
    match placeAt s (some core) c.job a 0 8 .wr with
    | .error _ => (false, s)
    | .ok p => (true, noteWrite (.engine cord) p.key 8 (commit s core p.key (leBytes 8 (c.cseqCtr + 1)) p.nc))

/-- The completion actions of a call, in order (R281), and the engine trap of its status (R280). -/
def finishCall (s : State) (core : Nat) (c : Call) (seqAddr : Option DWord) (e : CallEnd) : State :=
  let w := writeCseq s core c.cord seqAddr
  let e := if w.1 then e else endWith 8 0 (seqAddr.getD 0)
  let s := writeToken w.2 c.strand c.token (BitVec.ofNat 32 e.status) 2
  let s := match c.arr with
    | some k => arriveEngine s c.cord k
    | none => s
  if e.status = 0 then s
  else recordTrap s c.strand { code := callTrap e.status, cls := .engine, addr := e.addr,
                               aux := BitVec.ofNat 64 (e.status + 2 ^ 8 * e.cause + 2 ^ 16 * e.code.toNat) }

/-- CALL_COMPLETE (R281): the ended call's stores commit, and its completion is made. One that has exceeded its budget is reset instead
(R256). -/
def execCallComplete (s : State) : Out :=
  match (myCore s).run with
  | none => .next s
  | some r => match (if r.over s then none else r.ended) with
    | none => .next s
    | some e =>
      let t := drainCap s
      .next (finishCall (setMyCore t { myCore t with run := none }) s.focus.core r.call r.seqAddr e)

/-! ### MCALL and the call chain (R253, R254, R279) -/

/-- The entries of a core's call chain (R254). -/
def chainEntries : Nat := 64

/-- The calls of a core: issued, queued and running ones. -/
def chainLoad (c : Core) : Nat := c.issuedCl.length + c.chain.length + (if c.run.isSome then 1 else 0)

/-- MCALL (R279): a release at .co; the block is captured. A bad offset completes the call at once. -/
def mcallBody (w : SWord) (s : State) : Res :=
  once (fun w l s =>
    if tokenBusy s w then .wait .issue s
    else
      let off := (opA1 s w l).toNat
      let arr := if w.bits 4 1 = 1 then some (w.bits 0 4) else none
      let pc := wordAddr s
      let k := focusStrand s
      if off % 64 != 0 || !scratchIn (myCord s) off 64 then
        let s := startToken (release s 2) w
        let s := match arr with | some b => engineNames s (focusCord s) b | none => s
        .done (finishCall s s.focus.core { id := 0, cord := focusCord s, strand := k, token := tokenOf w.d, arr := arr } none
          (endWith 1 3 (pc.setWidth 64)))
      else if chainEntries ≤ chainLoad (myCore s) then .wait .slot s
      else
        let (n, s) := nextSeq (startToken (release s 2) w)
        let b := scratchRd (myCord s) off 64
        let c : Call := { id := n, cord := focusCord s, strand := k, token := tokenOf w.d, arr := arr,
                          block := (List.range 8).map (fun i => dwAt b (8 * i)) }
        .done (setMyCore s { myCore s with issuedCl := (myCore s).issuedCl ++ [c] })) w s

def execMcall (w : SWord) (s : State) : Out := .next (runWord (.mcall w) mcallBody s)

/-- CALL_ACCEPT (R254): the core's oldest issued call enters the chain where an entry is free; its barrier counts it (R186). -/
def execCallAccept (s : State) : Out :=
  let c := myCore s
  match (if c.chain.length + (if c.run.isSome then 1 else 0) < chainEntries then c.issuedCl else []) with
  | [] => .next s
  | x :: xs =>
    let t := setMyCore s { c with issuedCl := xs, chain := c.chain ++ [x] }
    .next (match x.arr with | some k => engineNames t x.cord k | none => t)

/-- The place in the chain of the call that starts next (R254), and whether it starts by preference. -/
def nextCall (s : State) (c : Core) : Nat × Bool :=
  match c.chain.findIdx? (fun x => (getCord s x.cord).hdr.flags.getLsbD 1 && (getCord s x.cord).token) with
  | some i => if 4 ≤ c.prefer && 2 ≤ c.chain.length then (0, false) else (i, true)
  | none => (0, false)

/-! ### Fetching for the capstan (R64, R280) -/

/-- What a fetch gives: a word, a fault, or an uncorrectable error. -/
inductive Fetched where
  | word (r : DWord) (s : State)
  | fault
  | poison

/-- Fetches eight bytes of code for a job on a core. -/
def fetchAt (s : State) (core job : Nat) (a : VAddr) : Fetched :=
  if a.toNat % 8 != 0 then .fault
  else match translate s (some core) job (a.setWidth 64) .ex with
    | none => .fault
    | some p =>
      if poisonSeen s core p.key 8 p.nc then .poison
      else match wordOfBytes (coreRdN s core p.key 8 p.nc) with
        | some (r, _) => .word r (match p.tlb with | some t => cacheTlb s core t | none => s)
        | none => .fault

/-- Fetches for the running call. -/
def capFetch (s : State) (a : VAddr) : Fetched := fetchAt s s.focus.core (getCord s (capCord s)).job a

/-- CAPSTAN_CLAUSE_HEADER (R60, R64): fetch, check, and the wait mask, whose conditions then hold. -/
def execCapstanClauseHeader (s : State) : Out :=
  match myRun? s with
  | none => .next s
  | some r =>
    if r.clause.isSome then .next s
    else match capFetch s r.pc with
      | .fault => .next (endCall s (endWith 8 0 (r.pc.setWidth 64)))
      | .poison => .next (endCall s (endWith 9 0 (r.pc.setWidth 64)))
      | .word h t =>
        if !capstanHeaderOk h then .next (endCall t (endWith 1 2 (r.pc.setWidth 64)))
        else
          let t := if (hdrWait h).getLsbD 0 then settleCap t else t
          let t := if (hdrWait h).getLsbD 1 then drainCap t else t
          .next (setRun t { myRun t with clause := some { hdr := r.pc, nm1 := hdrNm1 h, word := 0, act := 0, group := 0 } })

/-- CLD_RESULT (R284): the ix-th outstanding result of the capstan is written. -/
def execCldResult (s : State) : Out :=
  match myRun? s with
  | none => .next s
  | some r => match r.pend[s.focus.ix]? with
    | none => .next s
    | some p =>
      let lands := !p.raced || Config.unsettled s.free (6 + 8 * (16384 + p.reg))
      let c := if lands && p.reg != 31 then aSet r.c p.reg p.val else r.c
      .next { setRun s { r with c := c, pend := lDel r.pend s.focus.ix } with free := s.free + 1 }

/-- The capstan word in progress, fetched and decoded. -/
def capWord (s : State) : Option (Instr × State) :=
  match capFetch s (capAddr (myRun s)) with
  | .word r t => (decodeCapstan r).toOption.map (fun i => (i, t))
  | _ => none

/-- CWAIT_WAKE (R284): a call that waits in CWAIT tests its signal again, and goes on where the value is at most the bound. -/
def execCwaitWake (s : State) : Out :=
  match myRun? s with
  | none => .next s
  | some r =>
    if !r.waiting || r.over s then .next s
    else match capWord s with
      | some (.cwait w, t) => execCwait w t
      | _ => .next s

/-- UNASSIGNED_CAPSTAN_OPCODE (R64): the call ends with cause UNDEF. -/
def execUnassignedCapstanOpcode (_raw : DWord) (s : State) : Out :=
  match myRun? s with
  | none => .next s
  | some r => if r.clause.isNone then .next s else .next (endCall s (endWith 1 1 ((capAddr r).setWidth 64)))

end Sys2Proof.Machine
end

