-- ==== Sys2Proof/Machine/Digest.lean ====
section
/-! DEFINITION. The hash and the signature that R1 names for firmware, identity and attestation (R403, R404): SHA-512 of FIPS 180-4 and
Ed25519 of RFC 8032, on bytes. -/

namespace Sys2Proof.Machine

/-! ### SHA-512 -/

/-- The largest r below 2^(n + 1) with r^k at most v, bit by bit from bit n down, r so far given. -/
def rootFrom (k v : Nat) : Nat → Nat → Nat
  | 0, r => if (r + 1) ^ k ≤ v then r + 1 else r
  | n + 1, r => rootFrom k v n (if (r + 2 ^ (n + 1)) ^ k ≤ v then r + 2 ^ (n + 1) else r)

/-- The first 64 bits of the fractional part of the k-th root of p. -/
def rootBits (k p : Nat) : DWord := BitVec.ofNat 64 (rootFrom k (p * 2 ^ (64 * k)) 70 0)

/-- The first 80 primes. -/
def shaPrimes : List Nat :=
  [2, 3, 5, 7, 11, 13, 17, 19, 23, 29, 31, 37, 41, 43, 47, 53, 59, 61, 67, 71] ++
  [73, 79, 83, 89, 97, 101, 103, 107, 109, 113, 127, 131, 137, 139, 149, 151, 157, 163, 167, 173] ++
  [179, 181, 191, 193, 197, 199, 211, 223, 227, 229, 233, 239, 241, 251, 257, 263, 269, 271, 277, 281] ++
  [283, 293, 307, 311, 313, 317, 331, 337, 347, 349, 353, 359, 367, 373, 379, 383, 389, 397, 401, 409]

/-- The round constants, and the initial hash value. -/
def shaK : List DWord := shaPrimes.map (rootBits 3)
def shaInit : List DWord := (shaPrimes.take 8).map (rootBits 2)

/-- A number of n bytes, the most significant first. -/
def beBytes (n v : Nat) : List Byte := (leBytes n v).reverse

/-- The message with a 1 bit, zeros and its length in bits, in blocks of 128 bytes. -/
def shaPad (m : List Byte) : List Byte :=
  m ++ 0x80 :: List.replicate ((239 - m.length % 128) % 128) 0 ++ beBytes 16 (8 * m.length)

/-- The message schedule after n further words, newest word first. -/
def shaSchedule : Nat → List DWord → List DWord
  | 0, w => w
  | n + 1, w =>
    let a := w.getD 14 0
    let b := w.getD 1 0
    let s0 := a.rotateRight 1 ^^^ a.rotateRight 8 ^^^ (a >>> 7)
    let s1 := b.rotateRight 19 ^^^ b.rotateRight 61 ^^^ (b >>> 6)
    shaSchedule n ((w.getD 15 0 + s0 + w.getD 6 0 + s1) :: w)

/-- One round: the eight working words, with a schedule word and its constant added. -/
def shaRound (h : List DWord) (x : DWord) : List DWord := match h with
  | [a, b, c, d, e, f, g, k] =>
    let s1 := e.rotateRight 14 ^^^ e.rotateRight 18 ^^^ e.rotateRight 41
    let t := k + s1 + ((e &&& f) ^^^ (~~~e &&& g)) + x
    let s0 := a.rotateRight 28 ^^^ a.rotateRight 34 ^^^ a.rotateRight 39
    [t + s0 + ((a &&& b) ^^^ (a &&& c) ^^^ (b &&& c)), a, b, c, d + t, e, f, g]
  | _ => h

/-- The hash value after one block. -/
def shaBlock (h : List DWord) (b : List Byte) : List DWord :=
  let w := (List.range 16).map (fun i => BitVec.ofNat 64 (leNat (((b.drop (8 * i)).take 8).reverse)))
  let ws := (shaSchedule 64 w.reverse).reverse
  let r := (ws.zip shaK).foldl (fun h x => shaRound h (x.1 + x.2)) h
  (h.zip r).map (fun x => x.1 + x.2)

/-- SHA-512 of some bytes: 64 bytes. -/
def sha512 (m : List Byte) : List Byte :=
  let p := shaPad m
  ((List.range (p.length / 128)).foldl (fun h i => shaBlock h ((p.drop (128 * i)).take 128)) shaInit).flatMap (fun x => beBytes 8 x.toNat)

/-! ### The curve of Ed25519 -/

/-- The field's prime, and the order of the base point. -/
def edP : Nat := 2 ^ 255 - 19
def edL : Nat := 2 ^ 252 + 27742317777372353535851937790883648493

/-- b^e mod edP, with the low n bits of e. -/
def edPow (b : Nat) : Nat → Nat → Nat
  | 0, _ => 1
  | n + 1, e => (if e % 2 = 1 then b else 1) * edPow (b * b % edP) n (e / 2) % edP

/-- The inverse in the field. -/
def edInv (x : Nat) : Nat := edPow x 256 (edP - 2)

/-- a - b in the field, of reduced numbers. -/
def edSub (a b : Nat) : Nat := (a + edP - b) % edP

/-- The curve's constant -121665/121666. -/
def edD : Nat := edSub 0 (121665 * edInv 121666 % edP)

/-- A point in extended coordinates: x = X/Z, y = Y/Z, T = XY/Z. -/
structure EdPoint where
  x : Nat
  y : Nat
  z : Nat
  t : Nat
  deriving DecidableEq, Repr

/-- The neutral point. -/
def edZero : EdPoint := ⟨0, 1, 1, 0⟩

/-- The sum of two points. -/
def EdPoint.add (p q : EdPoint) : EdPoint :=
  let a := edSub p.y p.x * edSub q.y q.x % edP
  let b := (p.y + p.x) * (q.y + q.x) % edP
  let c := 2 * edD * p.t % edP * q.t % edP
  let d := 2 * p.z * q.z % edP
  let e := edSub b a
  let f := edSub d c
  let g := (d + c) % edP
  let h := (b + a) % edP
  ⟨e * f % edP, g * h % edP, f * g % edP, e * h % edP⟩

/-- k times a point, with the low n bits of k. -/
def EdPoint.mul (p : EdPoint) : Nat → Nat → EdPoint
  | 0, _ => edZero
  | n + 1, k => let r := EdPoint.mul (p.add p) n (k / 2); if k % 2 = 1 then p.add r else r

/-- The 32 bytes of a point: y, with the lowest bit of x on top. -/
def EdPoint.bytes (p : EdPoint) : List Byte :=
  let i := edInv p.z
  leBytes 32 (p.y * i % edP + 2 ^ 255 * (p.x * i % edP % 2))

/-- A point from its y and the lowest bit of its x; none where there is no such point. -/
def edFrom (y odd : Nat) : Option EdPoint :=
  let u := edSub (y * y % edP) 1
  let x2 := u * edInv ((edD * (y * y % edP) + 1) % edP) % edP
  let r := edPow x2 256 ((edP + 3) / 8)
  let r := if r * r % edP = x2 then r else r * edPow 2 256 ((edP - 1) / 4) % edP
  if edP ≤ y || r * r % edP != x2 || (r = 0 && odd = 1) then none
  else
    let x := if r % 2 = odd then r else edP - r
    some ⟨x, y, 1, x * y % edP⟩

/-- A point from 32 bytes. -/
def edDecode (b : List Byte) : Option EdPoint :=
  if b.length != 32 then none else edFrom (leNat b % 2 ^ 255) (leNat b / 2 ^ 255)

/-- The base point: y = 4/5, x even. -/
def edBase : EdPoint := (edFrom (4 * edInv 5 % edP) 0).getD edZero

/-! ### Ed25519 -/

/-- The secret scalar of a key's hash. -/
def edScalar (h : List Byte) : Nat := leNat (h.take 32) % 2 ^ 254 / 8 * 8 + 2 ^ 254

/-- A hash as a scalar. -/
def edHash (b : List Byte) : Nat := leNat (sha512 b) % edL

/-- The public key of a secret key. -/
def edPublic (key : List Byte) : List Byte := (edBase.mul 256 (edScalar (sha512 key))).bytes

/-- The signature of a message by a secret key: 64 bytes. -/
def edSign (key m : List Byte) : List Byte :=
  let h := sha512 key
  let r := edHash (h.drop 32 ++ m)
  let big := (edBase.mul 256 r).bytes
  big ++ leBytes 32 ((r + edHash (big ++ edPublic key ++ m) * edScalar h) % edL)

/-- A signature of a message verifies under a public key. -/
def edVerify (pub m sig : List Byte) : Bool :=
  match edDecode pub, edDecode (sig.take 32) with
  | some a, some r =>
    let k := edHash (sig.take 32 ++ pub ++ m)
    let s := leNat (sig.drop 32)
    sig.length == 64 && s < edL && (edBase.mul 256 s).bytes == (r.add (a.mul 256 k)).bytes
  | _, _ => false

end Sys2Proof.Machine
end

