-- ==== Sys2Proof/Machine/Matrix.lean ====
section
/-! DEFINITION. The matrix complex (R258 to R272, R285 to R291): clay, silt, relations, label banks, and the capstan words 0x14 to
0x24. Every matrix word drains the capstan's store queue before it reads the scratchpad (R284). -/

namespace Sys2Proof.Machine

/-! ### Shapes (R285) -/

/-- A shape value: rows, first silt row, K-segments, N-segments, precision and 16-bit B. -/
structure Shape where
  ar  : Nat
  sb  : Nat
  ks  : List Nat
  ns  : List Nat
  p   : Nat
  b16 : Bool
  deriving Repr

/-- The set bits of the low n bits of a number, ascending. -/
def setBitsOf (v n : Nat) : List Nat := (List.range n).filter (fun i => v / 2 ^ i % 2 == 1)

/-- The fields of a shape value; none where a check fails. arUsed: AR must not be 0. -/
def shapeOf (v : DWord) (arUsed : Bool) : Option Shape :=
  let n := v.toNat
  let sh : Shape := { ar := natBits n 0 9, sb := natBits n 16 8, ks := setBitsOf (natBits n 24 8) 8,
                      ns := setBitsOf (natBits n 32 16) 16, p := 4 * natBits n 48 2 + 4, b16 := natBits n 50 1 == 1 }
  if natBits n 9 7 != 0 || n / 2 ^ 51 != 0 || sh.ks.isEmpty || sh.ns.isEmpty || (arUsed && (sh.ar < 1 || 256 < sh.ar)) ||
      (sh.b16 && natBits n 40 8 != 0) then none
  else some sh

/-- The slots that a shape covers: K-segment and N-segment. With 16-bit B group m takes N-segments 2m and 2m + 1 (R258). -/
def Shape.slots (sh : Shape) : List (Nat × Nat) :=
  sh.ks.flatMap (fun j => sh.ns.flatMap (fun m => if sh.b16 then [(j, 2 * m), (j, 2 * m + 1)] else [(j, m)]))

/-- The place of a slot in the table of slots. -/
def slotKey (j t : Nat) : Nat := 16 * j + t

/-- The rank of a number in a list. -/
def rankIn (l : List Nat) (x : Nat) : Nat := (l.findIdx? (· == x)).getD 0

/-! ### The scratchpad as a word reads it (R257) -/

/-- The scratchpad of the running call's cord as the word in progress reads it: byte by byte, as it is or as it was at a moment since the
word before it. -/
def capCells (s : State) : List Host.Cell :=
  let pad := (getCord s (capCord s)).scratch
  match (myRun s).seen with
  | [] => pad
  | x :: xs =>
    let old := (x :: xs).map (·.pad)
    ((pad :: old).flatMap (fun m => m.map (·.1))).foldl (fun m k => memWr m k (glimpsedByte s k (memRd pad k) old)) pad

/-- n bytes of it. -/
def capBytes (s : State) (off n : Nat) : List Byte := memRdN (capCells s) off n

/-! ### Loading clay (R258 to R260, R286) -/

/-- How a slot is laid out in its source. -/
inductive LoadKind where
  | rows | planes | trans
  deriving DecidableEq, Repr

/-- The number of a layout, kept with a slot for its reload. -/
def LoadKind.num : LoadKind → Nat
  | .rows => 0 | .planes => 1 | .trans => 2

def LoadKind.ofNum : Nat → LoadKind
  | 0 => .rows | 1 => .planes | _ => .trans

/-- The pitch of CB8 rows of a shape, and of the rows of a transposed source. -/
def Shape.pitchB (sh : Shape) : Nat := pitchOf (65 * sh.ks.length)
def Shape.pitchT (sh : Shape) : Nat := 128 * ((64 * sh.ns.length + 127) / 128) + 8

/-- The bytes of a source. -/
def Shape.sourceLen (sh : Shape) (k : LoadKind) : Nat :=
  let nm := sh.ns.length
  let nk := sh.ks.length
  match k with
  | .rows => (64 * nm - 1) * sh.pitchB + 65 * nk
  | .planes => (128 * nm - 1) * sh.pitchB + 65 * nk
  | .trans => (65 * nk - 1) * sh.pitchT + 64 * nm

/-- Mantissas and exponents of slot (j, t) as its source holds them. -/
def slotData (pad : List Host.Cell) (off : Nat) (sh : Shape) (k : LoadKind) (j t : Nat) : List Byte × List Byte :=
  let b := rankIn sh.ks j
  let nk := sh.ks.length
  let q := rankIn sh.ns (if k = .planes then t / 2 else t)
  match k with
  | .trans =>
    ((List.range 64).flatMap (fun i => (List.range 64).map (fun r => memRd pad (off + (64 * b + r) * sh.pitchT + 64 * q + i))),
     memRdN pad (off + (64 * nk + b) * sh.pitchT + 64 * q) 64)
  | _ =>
    let base := off + (if k = .planes && t % 2 = 1 then 64 * sh.ns.length * sh.pitchB else 0)
    let row (i : Nat) : Nat := base + (64 * q + i) * sh.pitchB
    ((List.range 64).flatMap (fun i => memRdN pad (row i + 64 * b) 64), (List.range 64).map (fun i => memRd pad (row i + 64 * nk + b)))

/-- The check value of a slot's bytes (R258). -/
def slotCheck (m e : List Byte) : Word := Config.clayCheck (m ++ e)

/-- The slot is already loaded (R259). -/
def ClaySlot.holds (x : ClaySlot) (cord off gen : Nat) : Bool := match x.tag with
  | some t => t.cord == cord && t.src == off && t.gen == gen && !x.bad
  | none => false

/-- Loads the slots of a shape that are not already loaded: the number loaded, and the slots. -/
def loadSlots (pad : List Host.Cell) (cord off gen : Nat) (v : DWord) (sh : Shape) (k : LoadKind) :
    List (Nat × Nat) → AMap ClaySlot → Nat × AMap ClaySlot
  | [], clay => (0, clay)
  | (j, t) :: l, clay =>
    if (aGet {} clay (slotKey j t)).holds cord off gen then loadSlots pad cord off gen v sh k l clay
    else
      let d := slotData pad off sh k j t
      let x : ClaySlot := { tag := some ⟨cord, off, gen, slotCheck d.1 d.2⟩, mant := d.1, exps := d.2, how := (v, k.num) }
      let r := loadSlots pad cord off gen v sh k l (aSet clay (slotKey j t) x)
      (r.1 + 1, r.2)

/-- The generation of the vocab unit's slots, which no load can name (R294). -/
def vocabGen : Nat := 65536

/-- Reloads a slot from its recorded source (R260): none where the range no longer lies below SPSIZE or the check value differs. A slot of
the vocab unit has STAGE as its source (R294). -/
def reloadSlot (s : State) (key : Nat) (x : ClaySlot) : Option ClaySlot :=
  match x.tag, shapeOf x.how.1 false with
  | some t, some sh =>
    let c := getCord s t.cord
    let k := LoadKind.ofNum x.how.2
    let d := slotData c.scratch t.src sh k (key / 16) (key % 16)
    if scratchIn c t.src (sh.sourceLen k) && slotCheck d.1 d.2 == t.check then some { x with mant := d.1, exps := d.2, bad := false }
    else none
  | _, _ => none

/-- Loads clay for the running call (R286): the number of slots loaded; none where a check fails. -/
def loadClay (s : State) (off gen : Nat) (v : DWord) (k : LoadKind) : Option (Nat × State) :=
  match shapeOf v false with
  | none => none
  | some sh =>
    if sh.b16 != (k == .planes) || !capPadOk s off (sh.sourceLen k) then none
    else
      let r := loadSlots (capCells s) (capCord s) off gen v sh k sh.slots (myCore s).clay
      some (r.1, setMyCore s { myCore s with clay := r.2 })

/-- The body of a load: per is the cost of a slot. -/
def loadBody (k : LoadKind) (per : Nat) (w : CWord) (s : State) : CRes :=
  let s := drainCap s
  match loadClay s (capPad (capA s w)) w.imm.toNat (capB s w) k with
  | none => .stop 8 (operandEnd s) s
  | some (n, t) => .done (8 + per * n) t

def execMload (w : CWord) (s : State) : Out := .next (runCap (.mload w) (loadBody .rows 17) s)
def execMloadh (w : CWord) (s : State) : Out := .next (runCap (.mloadh w) (loadBody .planes 17) s)
def execMtrn (w : CWord) (s : State) : Out := .next (runCap (.mtrn w) (loadBody .trans 24) s)

/-! ### Silt rows (R262) -/

def getSilt (c : Cord) (r : Nat) : SiltRow := aGet {} c.silt r
def setSilt (s : State) (cord r : Nat) (x : SiltRow) : State :=
  let c := getCord s cord
  setCord s cord { c with silt := aSet c.silt r x }

/-- The MZERO state with the row's anchor. -/
def SiltRow.zeroed (x : SiltRow) : SiltRow := { q := x.q }

/-- The value of a cell. -/
def SiltRow.cell (x : SiltRow) (n : Nat) : Int := (aGet (0 : Cell72) x.cells n).toInt

/-- Poisons a cell. -/
def SiltRow.poison (x : SiltRow) (n : Nat) : SiltRow := { x with pois := x.pois ||| BitVec.twoPow 1024 n }

/-- Admits a pair. -/
def SiltRow.setAdmit (x : SiltRow) (n : Nat) : SiltRow := { x with adm := x.adm ||| BitVec.twoPow 1024 n }

/-- Adds a contribution to a cell, modulo 2^72; a poisoned cell stays as it is (R53). -/
def SiltRow.add (x : SiltRow) (n : Nat) (v : Int) : SiltRow :=
  if x.pois.getLsbD n || v = 0 then x else { x with cells := aSet x.cells n (aGet 0 x.cells n + BitVec.ofInt 72 v) }

/-- Rows r to r + n - 1 lie below SILTROWS (R255). -/
def rowsOk (s : State) (r n : Nat) : Bool := n = 0 || r + n ≤ (getCord s (capCord s)).hdr.silt

/-- Changes rows r to r + n - 1. -/
def modRows (s : State) (cord r : Nat) (f : SiltRow → SiltRow) : Nat → State
  | 0 => s
  | n + 1 =>
    let s := modRows s cord r f n
    setSilt s cord (r + n) (f (getSilt (getCord s cord) (r + n)))

/-! ### Relations (R264 to R268) -/

/-- One atom's fields (R264). -/
def atomRF (a : Word) : Nat := a.toNat % 4
def atomCF (a : Word) : Nat := a.toNat / 4 % 4
def atomOp (a : Word) : Nat := a.toNat / 16 % 8
def atomK (a : Word) : Int := signedOf 16 (a.toNat / 2 ^ 16)

/-- A legal atom. -/
def atomOk (a : Word) : Bool := natBits a.toNat 7 9 == 0 && (atomOp a < 6 || a.toNat / 2 ^ 16 == 0)

/-- An atom holds for a pair of labels under the layouts of the banks (R265). -/
def atomHolds (lr lc : DWord) (a b : Nat) (x : Word) : Bool :=
  let u := fieldVal lr a (atomRF x)
  let v := fieldVal lc b (atomCF x)
  let d : Int := (u : Int) - v - atomK x
  match atomOp x with
  | 0 => d == 0
  | 1 => d != 0
  | 2 => d < 0
  | 3 => d ≤ 0
  | 4 => 0 < d
  | 5 => 0 ≤ d
  | 6 => (BitVec.ofNat 64 u &&& BitVec.ofNat 64 v) != 0
  | _ => true

/-- The enabled terms of a knot, four atoms each. -/
def Knot.terms (k : Knot) : List (List Word) :=
  ((List.range 4).filter (fun t => k.en.getLsbD t)).map (fun t => (k.atoms.drop (4 * t)).take 4)

/-- A pair of labels is admitted (R265). -/
def pairAdmitted (ts : List (List Word)) (lr lc : DWord) (a b : Nat) : Bool :=
  a != voidLabel && b != voidLabel && ts.any (fun t => t.all (atomHolds lr lc a b))

/-- What interval arithmetic says of an atom or a term. -/
inductive Tri where
  | always | never | maybe
  deriving DecidableEq, Repr

/-- Minimum and maximum of field f of a summary, and its count (R241). -/
def sumMin (b : List Byte) (f : Nat) : Int := leAt b (8 * f) 4
def sumMax (b : List Byte) (f : Nat) : Int := leAt b (8 * f + 4) 4
def sumCount (b : List Byte) : Nat := leAt b 32 4

/-- An atom on two summaries (R267). -/
def atomTri (lr lc : DWord) (rs cs : List Byte) (x : Word) : Tri :=
  let rf := atomRF x
  let cf := atomCF x
  let pick (a n : Bool) : Tri := if a then .always else if n then .never else .maybe
  if atomOp x = 7 then .always
  else if atomOp x = 6 || 32 < (labField lr rf).2 || 32 < (labField lc cf).2 then .maybe
  else
    let lo := sumMin rs rf - sumMax cs cf - atomK x
    let hi := sumMax rs rf - sumMin cs cf - atomK x
    let out := 0 < lo || hi < 0
    let zero := lo == 0 && hi == 0
    match atomOp x with
    | 0 => pick zero out
    | 1 => pick out zero
    | 2 => pick (hi < 0) (0 ≤ lo)
    | 3 => pick (hi ≤ 0) (0 < lo)
    | 4 => pick (0 < lo) (hi ≤ 0)
    | _ => pick (0 ≤ lo) (hi < 0)

/-- A term on two summaries. -/
def termTri (lr lc : DWord) (rs cs : List Byte) (t : List Word) : Tri :=
  let xs := t.map (atomTri lr lc rs cs)
  if xs.contains .never then .never else if xs.all (· == .always) then .always else .maybe

/-- The class of a tile (R268). -/
inductive TileClass where
  | none | all | mixed
  deriving DecidableEq, Repr

/-- Classifies a tile from its summaries. -/
def tileClass (ts : List (List Word)) (lr lc : DWord) (rs cs : List Byte) : TileClass :=
  let xs := ts.map (termTri lr lc rs cs)
  if sumCount rs = 0 || sumCount cs = 0 || xs.all (· == .never) then .none
  else if xs.contains .always && sumCount rs == 64 && sumCount cs == 64 then .all
  else .mixed

/-- Label and summary of a bank; absent ones are void and all-void (R266). -/
def Bank.label (b : Bank) (i : Nat) : Nat := (aGet (BitVec.allOnes 64) b.labels i).toNat
def Bank.sum (b : Bank) (g : Nat) : List Byte := aGet (summaryOf 0 []) b.sums g

/-! ### The pass (R263, R287) -/

/-- The relation of a pass: its terms and both banks. -/
structure Relation where
  terms : List (List Word)
  row   : Bank
  col   : Bank

/-- The class of the tile of a row label and an N-segment or group; a pass without a relation admits every pair. -/
def passClass (rel : Option Relation) (lab m : Nat) : TileClass := match rel with
  | none => .all
  | some r => tileClass r.terms r.row.layout r.col.layout (r.row.sum (lab / 64)) (r.col.sum m)

/-- One A block: exponent byte and 64 mantissas of p bits. -/
def aBlock (pad : List Host.Cell) (row nk b p : Nat) : Nat × List Int :=
  ((memRd pad (row + 128 * nk + b)).toNat, (List.range 64).map (fun k => signedOf p (leNat (memRdN pad (row + 128 * b + 2 * k) 2))))

/-- One B block of column i of a group: exponent byte and 64 values (R50). -/
def bBlock (clay : AMap ClaySlot) (b16 : Bool) (j m i : Nat) : Nat × List Int :=
  let x := aGet {} clay (slotKey j (if b16 then 2 * m else m))
  let hi := ((x.mant.drop (64 * i)).take 64).map (fun b => b.toInt)
  let e := (x.exps.getD i 0).toNat
  if b16 then
    let y := aGet {} clay (slotKey j (2 * m + 1))
    (e, (hi.zip (((y.mant.drop (64 * i)).take 64).map (fun b => (b.toNat : Int)))).map (fun p => 256 * p.1 + p.2))
  else (e, hi)

/-- The exact product sum of two blocks. -/
def dotBlocks (a b : List Int) : Int := (a.zip b).foldl (fun s p => s + p.1 * p.2) 0

/-- Adds the contributions of the blocks of one pair to a row (R263). -/
def addBlocks (clay : AMap ClaySlot) (b16 : Bool) (m i : Nat) : List (Nat × Nat × List Int) → SiltRow × Flags → SiltRow × Flags
  | [], r => r
  | (j, ea, am) :: t, (x, fl) =>
    let n := 64 * m + i
    let b := bBlock clay b16 j m i
    addBlocks clay b16 m i t
      (if ea = 0xFF || b.1 = 0xFF then (x.poison n, fl ||| fNAN)
      else if ea = 0 || b.1 = 0 then (x, fl)
      else
        let c := contribution 70 x.q (dotBlocks am b.2) (ea + b.1 - 254)
        (x.add n c.1, fl ||| c.2))

/-- One row of a pass: A row at an offset, with its label index. -/
def passRow (pad : List Host.Cell) (clay : AMap ClaySlot) (sh : Shape) (rel : Option Relation) (at' lab : Nat)
    (r : SiltRow × Flags) : SiltRow × Flags :=
  let nk := sh.ks.length
  let as := sh.ks.zipIdx.map (fun x => (x.1, aBlock pad at' nk x.2 sh.p))
  sh.ns.foldl (fun r m =>
    match passClass rel lab m with
    | .none => r
    | c => (List.range 64).foldl (fun r i =>
        let n := 64 * m + i
        let ok := match c, rel with
          | .mixed, some q => pairAdmitted q.terms q.row.layout q.col.layout (q.row.label lab) (q.col.label n)
          | _, _ => true
        if ok then addBlocks clay sh.b16 m i as (r.1.setAdmit n, r.2) else r) r) r

/-- The pitch of CA16 rows of a shape. -/
def Shape.pitchA (sh : Shape) : Nat := pitchOf (129 * sh.ks.length)

/-- Rows i < n of a pass: A rows from an offset of the scratchpad as it is read, silt rows from sb, labels from lab. -/
def passRows (s : State) (cord : Nat) (pad : List Host.Cell) (clay : AMap ClaySlot) (sh : Shape) (rel : Option Relation) (off sb lab : Nat) : Nat → State
  | 0 => s
  | n + 1 =>
    let s := passRows s cord pad clay sh rel off sb lab n
    let c := getCord s cord
    let r := passRow pad clay sh rel (off + n * sh.pitchA) (lab + n) (getSilt c (sb + n), 0)
    orFlagsOf (setSilt s cord (sb + n) r.1) cord r.2

/-- The row groups of labels lab to lab + n - 1. -/
def rowGroups (lab n : Nat) : List Nat := if n = 0 then [] else (List.range ((lab + n - 1) / 64 - lab / 64 + 1)).map (lab / 64 + ·)

/-- Counts the classes of the tiles of a pass (R270). -/
def countTiles (s : State) (cord : Nat) (sh : Shape) (rel : Option Relation) (lab n : Nat) : State :=
  match rel with
  | none => s
  | some _ =>
    let cs := (rowGroups lab n).flatMap (fun g => sh.ns.map (fun m => passClass rel (64 * g) m))
    let num (k : TileClass) : Word := BitVec.ofNat 32 (cs.filter (· == k)).length
    let c := getCord s cord
    setCord s cord { c with cntNone := c.cntNone + num .none, cntAll := c.cntAll + num .all, cntMixed := c.cntMixed + num .mixed }

/-- The core cycles of a pass (R287). -/
def passCost (sh : Shape) (rel : Option Relation) (lab n : Nat) : Nat :=
  match rel with
  | none => 8 + n * sh.p
  | some _ =>
    let live (g : Nat) : Bool := sh.ns.any (fun m => passClass rel (64 * g) m != .none)
    8 + 2 * (rowGroups lab n).length + sh.p * ((List.range n).filter (fun i => live ((lab + i) / 64))).length

/-- The relation of a knot for the running call; none where it or a bank is not the call's. -/
def relationOf (s : State) (k : Nat) : Option Relation :=
  let c := myCore s
  let x := aGet {} c.knots k
  if x.owner == some (capCord s) && c.rowBank.owner == some (capCord s) && c.colBank.owner == some (capCord s) then
    some ⟨x.terms, c.rowBank, c.colBank⟩
  else none

/-- Clay with every failing slot of a pass reloaded (R260): the number reloaded; none where one cannot be. -/
def repairSlots (s : State) : List (Nat × Nat) → AMap ClaySlot → Option (Nat × AMap ClaySlot)
  | [], clay => some (0, clay)
  | (j, t) :: l, clay =>
    let x := aGet {} clay (slotKey j t)
    if !x.bad then repairSlots s l clay
    else match reloadSlot s (slotKey j t) x with
      | none => none
      | some y => (repairSlots s l (aSet clay (slotKey j t) y)).map (fun r => (r.1 + 1, r.2))

/-- The call owns every slot of a pass (R255). -/
def ownsSlots (s : State) (sh : Shape) : Bool :=
  sh.slots.all (fun p => match (aGet {} (myCore s).clay (slotKey p.1 p.2)).tag with
    | some t => t.cord == capCord s
    | none => false)

/-- How a pass ends: with its cost, or with the end of the call. -/
inductive PassRes where
  | ok (cost : Nat) (s : State)
  | bad (e : CallEnd) (s : State)

/-- An operand of a pass over n rows fails a check (R255, R287). -/
def passRefused (s : State) (sh : Shape) (knot : Option Nat) (off sb lab n : Nat) : Bool :=
  !ownsSlots s sh || !rowsOk s sb n || !capPadOk s off ((n - 1) * sh.pitchA + 129 * sh.ks.length) ||
    (knot.isSome && ((knot.bind (relationOf s)).isNone || 256 < lab + n))

/-- A pass over n rows (R263, R287) after its checks. -/
def pass (s : State) (sh : Shape) (knot : Option Nat) (off sb lab n : Nat) : PassRes :=
  let rel := knot.bind (relationOf s)
  if passRefused s sh knot off sb lab n then .bad (operandEnd s) s
  else match repairSlots s sh.slots (myCore s).clay with
    | none => .bad (statusEnd s 3) s
    | some (fixed, clay) =>
      let cord := capCord s
      let pad := capCells s
      let s := setMyCore s { myCore s with clay := clay }
      let s := if fixed = 0 then s else countErrors s (BitVec.ofNat 64 fixed) 0
      let s := countTiles s cord sh rel lab n
      .ok (passCost sh rel lab n) (passRows s cord pad clay sh rel off sb lab n)

/-- The knot of MMAR, and its first label; MMA has neither. -/
def mmaKnot (rel : Bool) (w : CWord) : Option Nat := if rel then some (w.imm.toNat % 4) else none
def mmaLabel (rel : Bool) (w : CWord) : Nat := if rel then 64 * (w.imm.toNat / 4 % 4) else 0

/-- MMA and MMAR. -/
def mmaBody (rel : Bool) (w : CWord) (s : State) : CRes :=
  let s := drainCap s
  match shapeOf (capB s w) true with
  | none => .stop 8 (operandEnd s) s
  | some sh =>
    match pass s sh (mmaKnot rel w) (capPad (capA s w)) sh.sb (mmaLabel rel w) sh.ar with
    | .ok n t => .done n t
    | .bad e t => .stop 8 e t

def execMma (w : CWord) (s : State) : Out := .next (runCap (.mma w) (mmaBody false) s)
def execMmar (w : CWord) (s : State) : Out := .next (runCap (.mmar w) (mmaBody true) s)

/-! ### MGRP (R272, R288) -/

/-- An entry of the group table. -/
structure GroupRow where
  count : Nat
  flags : Nat
  boff  : Nat
  srow  : Nat
  knot  : Nat
  rsv   : Nat
  deriving Repr

/-- Reads an entry. -/
def groupRow (pad : List Host.Cell) (at' : Nat) : GroupRow :=
  let b := memRdN pad at' 16
  { count := leAt b 0 2, flags := leAt b 2 2, boff := leAt b 4 4, srow := leAt b 8 4, knot := leAt b 12 1, rsv := leAt b 13 3 }

/-- The knot of a group's pass, and its first label: for group rows that follow a rows. -/
def GroupRow.knotOf (e : GroupRow) : Option Nat := if e.flags % 2 == 1 then some e.knot else none
def GroupRow.label (e : GroupRow) (a : Nat) : Nat := if e.flags % 2 == 1 then a else 0

/-- One group up to its pass: its checks, the load and the zeroing. The number of slots loaded, or none where a check fails. -/
def groupLoad (s : State) (v : DWord) (sh : Shape) (gen off a : Nat) (e : GroupRow) : Option (Nat × State) :=
  let rel := e.flags % 2 == 1
  if 256 < e.count || 4 ≤ e.flags || 4 ≤ e.knot || e.rsv != 0 || !rowsOk s e.srow e.count ||
      !capPadOk s off ((e.count - 1) * sh.pitchA + 129 * sh.ks.length) ||
      (rel && (256 < a + e.count || (relationOf s e.knot).isNone)) then none
  else (loadClay s e.boff gen v (if sh.b16 then .planes else .rows)).map (fun r =>
    (r.1, if e.flags / 2 % 2 = 1 then modRows r.2 (capCord r.2) e.srow SiltRow.zeroed e.count else r.2))

/-- One group: its checks before its load, the load, the zeroing, the pass. -/
def runGroup (s : State) (v : DWord) (sh : Shape) (gen aoff a : Nat) (e : GroupRow) : PassRes :=
  let off := aoff + a * sh.pitchA
  match groupLoad s v sh gen off a e with
  | none => .bad (operandEnd s) s
  | some (n, t) => match pass t sh e.knotOf off e.srow (e.label a) e.count with
    | .ok c u => .ok (8 + 17 * n + c) u
    | .bad e u => .bad e u

/-- The next entry from q on with rows (R272). -/
def nextGroup (pad : List Host.Cell) (tab ar q : Nat) : Option Nat :=
  ((List.range ar).drop q).find? (fun q => (groupRow pad (tab + 16 * q)).count != 0)

/-- MGRP runs its next group (R288); the boundary behind it is one at which the call may stop (R371). -/
def groupStep (gen : Nat) (x : GroupRun) (s : State) : CRes :=
  match shapeOf x.shape true with
  | none => .stop 8 (operandEnd s) s
  | some sh => match nextGroup (capCells s) x.tab sh.ar x.q with
    | none => .done 0 (closeProgress s)
    | some q =>
      let e := groupRow (capCells s) (x.tab + 16 * q)
      match runGroup s x.shape sh gen x.aoff x.a e with
      | .bad e t => .stop 8 e t
      | .ok c t =>
        if (nextGroup (capCells t) x.tab sh.ar (q + 1)).isNone then .done c (closeProgress t)
        else .again c (setProgress t (.groups { x with q := q + 1, a := x.a + e.count }))

/-- What MGRP starts with: its operands, checked. -/
def groupStart (w : CWord) (s : State) : Option GroupRun :=
  let tab := capPad (capA s w)
  match shapeOf (capB s w) true with
  | none => none
  | some sh => if tab % 16 != 0 || !capPadOk s tab (16 * sh.ar) then none
    else some { tab := tab, shape := capB s w, aoff := capPad (capC s w) }

/-- How far MGRP has come: where it stands already, or at its start. -/
def groupAt (w : CWord) (s : State) : Option GroupRun := match (myRun s).progress with
  | some (.groups x) => some x
  | _ => groupStart w s

/-- MGRP. -/
def mgrpBody (w : CWord) (s : State) : CRes :=
  let s := drainCap s
  match groupAt w s with
  | none => .stop 8 (operandEnd s) s
  | some x => groupStep w.imm.toNat x s

def execMgrp (w : CWord) (s : State) : Out := .next (runCap (.mgrp w) mgrpBody s)

/-! ### Silt words (R271, R289, R290) -/

/-- MZERO and MANC over rows c[A] to c[A] + c[B] - 1. -/
def rowsBody (cost : Nat → Nat) (ok : Bool) (f : SiltRow → SiltRow) (w : CWord) (s : State) : CRes :=
  let r := (capA s w).toNat
  let n := (capB s w).toNat
  if !ok || !rowsOk s r n then .stop 2 (operandEnd s) s else .done (cost n) (modRows s (capCord s) r f n)

def mzeroBody (w : CWord) (s : State) : CRes := rowsBody (fun n => 2 + (n + 7) / 8) true SiltRow.zeroed w s

def mancBody (w : CWord) (s : State) : CRes :=
  let q := (capC s w + w.imm.signExtend 64).toInt
  rowsBody (fun _ => 2) (-512 ≤ q && q ≤ 511) (fun x => { x with q := q }) w s

/-- A silt range (R289). -/
structure SiltRange where
  fr   : Nat
  nr   : Nat
  m0   : Nat
  ng   : Nat
  bf   : Bool
  fill : Bool
  deriving Repr

/-- The fields of a range word; none where one is out of range. drain: BF and FILL are allowed. -/
def rangeOf (v : DWord) (drain : Bool) : Option SiltRange :=
  let n := v.toNat
  let r : SiltRange := { fr := natBits n 0 8, nr := natBits n 8 9, m0 := natBits n 24 4, ng := natBits n 28 5,
                         bf := natBits n 33 1 == 1, fill := natBits n 34 1 == 1 }
  if natBits n 17 7 != 0 || n / 2 ^ 35 != 0 || r.nr < 1 || 256 < r.nr || r.ng < 1 || 16 < r.m0 + r.ng || (!drain && (r.bf || r.fill)) then
    none
  else some r

/-- The columns of a range. -/
def SiltRange.cols (r : SiltRange) : List Nat := (List.range (64 * r.ng)).map (64 * r.m0 + ·)

/-- The format of a drain and its bytes. -/
def SiltRange.fmt (r : SiltRange) : Fmt := if r.bf then bf16 else f32
def SiltRange.size (r : SiltRange) : Nat := if r.bf then 2 else 4

/-- What a cell drains to (R271): poison gives the canonical NaN with NAN; in fill mode a cell that is not admitted gives -∞. -/
def drainCell (r : SiltRange) (x : SiltRow) (n : Nat) : Nat × Flags :=
  if x.pois.getLsbD n then (r.fmt.nan, fNAN)
  else if r.fill && !x.adm.getLsbD n then (r.fmt.sbit + r.fmt.infBits, 0)
  else drainTo r.fmt (x.cell n) x.q

/-- What MDACC makes of a cell, clamped as any drain's (R54), and the value already there; none where the destination stays (R271). -/
def accCell (r : SiltRange) (x : SiltRow) (n : Nat) (old : Nat) : Option (Nat × Flags) :=
  if x.pois.getLsbD n then some (r.fmt.nan, fNAN)
  else if r.fill && !x.adm.getLsbD n then none
  else
    let c := clampInt (-(2 ^ 63 : Nat)) ((2 ^ 63 : Nat) - 1) (x.cell n)
    let v := (FV.ofInt c).scale x.q
    let u := r.fmt.unpack old
    let t := FV.sum .rne [u, v]
    let p := r.fmt.pack .rne false t.1
    let past := match u with | .inf _ => false | _ => p.1 % r.fmt.sbit == r.fmt.infBits
    some (p.1, t.2 ||| p.2 ||| flagIf (c != x.cell n) fOFL ||| flagIf past fOFL)

/-- Drains row FR + i to an address: bytes and flags. f makes a cell from the bytes already there as they are read; where it makes none they
stay. -/
def drainRow (r : SiltRange) (pad read : List Host.Cell) (at' : Nat) (x : SiltRow) (f : SiltRow → Nat → Nat → Option (Nat × Flags)) :
    List Byte × Flags :=
  r.cols.zipIdx.foldl (fun a c =>
    match f x c.1 (leNat (memRdN read (at' + c.2 * r.size) r.size)) with
    | some (v, fl) => (a.1 ++ leBytes r.size v, a.2 ||| fl)
    | none => (a.1 ++ memRdN pad (at' + c.2 * r.size) r.size, a.2)) ([], 0)

/-- Drains the rows i < n of a range, ascending. -/
def drainRows (s : State) (cord : Nat) (read : List Host.Cell) (r : SiltRange) (dst pitch : Nat) (f : SiltRow → Nat → Nat → Option (Nat × Flags)) : Nat → State
  | 0 => s
  | n + 1 =>
    let s := drainRows s cord read r dst pitch f n
    let c := getCord s cord
    let d := drainRow r c.scratch read (dst + n * pitch) (getSilt c (r.fr + n)) f
    orFlagsOf (scratchWr s cord (dst + n * pitch) d.1) cord d.2

/-- MDRN and MDACC: per is the cost of a row and group. -/
def drainBody (per : SiltRange → Nat) (f : SiltRange → SiltRow → Nat → Nat → Option (Nat × Flags)) (w : CWord) (s : State) : CRes :=
  let s := drainCap s
  match rangeOf (capB s w) true with
  | none => .stop 4 (operandEnd s) s
  | some r =>
    let dst := capPad (capA s w)
    let pitch := (capC s w).toNat
    let width := 64 * r.ng * r.size
    if !rowsOk s r.fr r.nr || pitch < width || pitch % r.size != 0 || !capPadOk s dst ((r.nr - 1) * pitch + width) then
      .stop 4 (operandEnd s) s
    else .done (per r) (drainRows s (capCord s) (capCells s) r dst pitch (f r) r.nr)

def mdrnBody (w : CWord) (s : State) : CRes :=
  drainBody (fun r => let n := 4 + r.nr * r.ng; if r.bf then 2 * n else n) (fun r x n _ => some (drainCell r x n)) w s
def mdaccBody (w : CWord) (s : State) : CRes := drainBody (fun r => 4 + 2 * r.nr * r.ng) accCell w s

/-- One cell of MSADD (R290). -/
def saddCell (src : SiltRow) (r : SiltRow × Flags) (n : Nat) : SiltRow × Flags :=
  let d := if src.adm.getLsbD n then r.1.setAdmit n else r.1
  if src.pois.getLsbD n then (d.poison n, r.2 ||| fNAN)
  else
    let c := contribution 70 d.q (src.cell n) src.q
    (d.add n c.1, r.2 ||| c.2)

/-- The rows i < n of MSADD. -/
def saddRows (s : State) (cord : Nat) (r : SiltRange) (db : Nat) : Nat → State
  | 0 => s
  | n + 1 =>
    let s := saddRows s cord r db n
    let c := getCord s cord
    let x := r.cols.foldl (saddCell (getSilt c (r.fr + n))) (getSilt c (db + n), 0)
    orFlagsOf (setSilt s cord (db + n) x.1) cord x.2

def msaddBody (w : CWord) (s : State) : CRes :=
  match rangeOf (capA s w) false with
  | none => .stop 4 (operandEnd s) s
  | some r =>
    let db := (capB s w).toNat
    if !rowsOk s r.fr r.nr || !rowsOk s db r.nr || (db < r.fr + r.nr && r.fr < db + r.nr) then .stop 4 (operandEnd s) s
    else .done (4 + r.nr * r.ng) (saddRows s (capCord s) r db r.nr)

/-- The 16 bytes of a cell (R271). -/
def cellBytes (x : SiltRow) (n : Nat) : List Byte :=
  leBytes 9 (aGet (0 : Cell72) x.cells n).toNat ++ leBytes 7 ((x.adm.getLsbD n).toNat + 2 * (x.pois.getLsbD n).toNat)

/-- A cell from its 16 bytes. -/
def cellFrom (x : SiltRow) (n : Nat) (b : List Byte) : SiltRow :=
  let f := leAt b 9 7
  let m := BitVec.twoPow 1024 n
  { x with cells := aSet x.cells n (BitVec.ofNat 72 (leAt b 0 9)),
           adm := if f % 2 = 1 then x.adm ||| m else x.adm &&& ~~~m,
           pois := if f / 2 % 2 = 1 then x.pois ||| m else x.pois &&& ~~~m }

/-- The address of cell (i, column rank k) of a range. -/
def cellAt (r : SiltRange) (base i k : Nat) : Nat := base + 16 * (64 * r.ng * i + k)

/-- The shared checks of MSTO and MSLD. -/
def rawBody (f : State → SiltRange → Nat → Option State) (w : CWord) (s : State) : CRes :=
  let s := drainCap s
  match rangeOf (capB s w) false with
  | none => .stop 4 (operandEnd s) s
  | some r =>
    let base := capPad (capA s w)
    if base % 16 != 0 || !rowsOk s r.fr r.nr || !capPadOk s base (1024 * r.ng * r.nr) then .stop 4 (operandEnd s) s
    else match f s r base with
      | some t => .done (4 + 2 * r.nr * r.ng) t
      | none => .stop 4 (operandEnd s) s

/-- MSTO's rows i < n. -/
def stoRows (s : State) (cord : Nat) (r : SiltRange) (base : Nat) : Nat → State
  | 0 => s
  | n + 1 =>
    let s := stoRows s cord r base n
    let x := getSilt (getCord s cord) (r.fr + n)
    scratchWr s cord (cellAt r base n 0) (r.cols.flatMap (cellBytes x))

/-- MSLD's rows i < n. -/
def sldRows (s : State) (cord : Nat) (pad : List Host.Cell) (r : SiltRange) (base : Nat) : Nat → State
  | 0 => s
  | n + 1 =>
    let s := sldRows s cord pad r base n
    let c := getCord s cord
    let x := r.cols.zipIdx.foldl (fun x p => cellFrom x p.1 (memRdN pad (cellAt r base n p.2) 16)) (getSilt c (r.fr + n))
    setSilt s cord (r.fr + n) x

/-- Every record of an MSLD has its other bits 0. -/
def sldOk (pad : List Host.Cell) (r : SiltRange) (base : Nat) : Bool :=
  (List.range (64 * r.ng * r.nr)).all (fun k => leNat (memRdN pad (base + 16 * k + 9) 7) < 4)

def mstoBody (w : CWord) (s : State) : CRes := rawBody (fun s r b => some (stoRows s (capCord s) r b r.nr)) w s
def msldBody (w : CWord) (s : State) : CRes :=
  rawBody (fun s r b => if sldOk (capCells s) r b then some (sldRows s (capCord s) (capCells s) r b r.nr) else none) w s

/-- The row count (R262). -/
def SiltRow.count (x : SiltRow) : Nat := popBelow x.adm.toNat 1024

/-- MROW (R290). -/
def mrowBody (w : CWord) (s : State) : CRes :=
  let a := (capA s w).toNat
  let c := getCord s (capCord s)
  let row (f : SiltRow → DWord) : CRes := if rowsOk s a 1 then .done 2 (putC s w.d (f (getSilt c a))) else .stop 2 (operandEnd s) s
  match w.imm.toNat % 8 with
  | 0 => row (fun x => BitVec.ofNat 64 x.count)
  | 1 =>
    if 3 < a then .stop 2 (operandEnd s) s
    else .done 2 (putC s w.d (BitVec.ofNat 64 ((List.range 64).foldl (fun v i =>
      if 64 * a + i < c.hdr.silt && (getSilt c (64 * a + i)).count = 0 then v + 2 ^ i else v) 0)))
  | 2 => .done 2 (putC s w.d (c.cntAll ++ c.cntNone))
  | 3 => .done 2 (putC s w.d (c.cntMixed.setWidth 64))
  | _ => row (fun x => BitVec.ofInt 64 x.q)

def execMzero (w : CWord) (s : State) : Out := .next (runCap (.mzero w) mzeroBody s)
def execManc (w : CWord) (s : State) : Out := .next (runCap (.manc w) mancBody s)
def execMdrn (w : CWord) (s : State) : Out := .next (runCap (.mdrn w) mdrnBody s)
def execMdacc (w : CWord) (s : State) : Out := .next (runCap (.mdacc w) mdaccBody s)
def execMsadd (w : CWord) (s : State) : Out := .next (runCap (.msadd w) msaddBody s)
def execMsto (w : CWord) (s : State) : Out := .next (runCap (.msto w) mstoBody s)
def execMsld (w : CWord) (s : State) : Out := .next (runCap (.msld w) msldBody s)
def execMrow (w : CWord) (s : State) : Out := .next (runCap (.mrow w) mrowBody s)

/-! ### Relations and labels (R264, R266, R291) -/

/-- MKNOT: every atom is checked; a failing block leaves the knot as it is and ends the call with RELN. -/
def mknotBody (w : CWord) (s : State) : CRes :=
  let s := drainCap s
  let off := capPad (capA s w)
  if off % 8 != 0 || !capPadOk s off 72 then .stop 12 (operandEnd s) s
  else
    let b := capBytes s off 72
    let atoms := (List.range 16).map (fun i => BitVec.ofNat 32 (leAt b (8 + 4 * i) 4))
    if 16 ≤ leAt b 0 8 || !atoms.all atomOk then .stop 12 (statusEnd s 4) s
    else
      let c := myCore s
      let k : Knot := { owner := some (capCord s), en := BitVec.ofNat 4 (leAt b 0 8), atoms := atoms }
      .done 12 (setMyCore s { c with knots := aSet c.knots (w.imm.toNat % 4) k })

/-- The bank that a word names: its labels in all, the bank, and the core with another in its place. -/
def bankSize (w : CWord) : Nat := if w.imm.getLsbD 0 then 1024 else 256
def bankOf (w : CWord) (c : Core) : Bank := if w.imm.getLsbD 0 then c.colBank else c.rowBank
def withBank (w : CWord) (c : Core) (b : Bank) : Core := if w.imm.getLsbD 0 then { c with colBank := b } else { c with rowBank := b }

/-- MLAB: takes the bank where the call does not own it, then loads labels and summaries. -/
def mlabBody (w : CWord) (s : State) : CRes :=
  let s := drainCap s
  let a := capPad (capA s w)
  let f := natBits (capB s w).toNat 0 11
  let n := natBits (capB s w).toNat 11 11
  let cs := capPad (capC s w)
  let g := (n + 63) / 64
  if f % 64 != 0 || n < 1 || 1024 < n || bankSize w < f + n || cs % 64 != 0 ||
      !capPadOk s a (8 + 8 * n) || !capPadOk s cs (64 * g) then .stop 4 (operandEnd s) s
  else
    let pad := capCells s
    let c := myCore s
    let b := bankOf w c
    let b : Bank := if b.owner == some (capCord s) then b else { owner := some (capCord s) }
    let labels := (List.range (64 * g)).foldl (fun m i =>
      if i < n then aSet m (f + i) (BitVec.ofNat 64 (leNat (memRdN pad (a + 8 + 8 * i) 8))) else aDel m (f + i)) b.labels
    let sums := (List.range g).foldl (fun m i => aSet m (f / 64 + i) (memRdN pad (cs + 64 * i) 64)) b.sums
    .done (4 + (n + 7) / 8)
      (setMyCore s (withBank w c { b with layout := BitVec.ofNat 64 (leNat (memRdN pad a 8)), labels := labels, sums := sums }))

/-- MSUMQ: recomputes every summary of a bank that the call owns. -/
def msumqBody (w : CWord) (s : State) : CRes :=
  let c := myCore s
  let b := bankOf w c
  let k := bankSize w
  if b.owner != some (capCord s) then .stop 4 (operandEnd s) s
  else
    let sums := (List.range (k / 64)).foldl (fun m g =>
      aSet m g (summaryOf b.layout ((List.range 64).map (fun i => b.label (64 * g + i))))) b.sums
    .done (4 + k / 8) (setMyCore s (withBank w c { b with sums := sums }))

def execMknot (w : CWord) (s : State) : Out := .next (runCap (.mknot w) mknotBody s)
def execMlab (w : CWord) (s : State) : Out := .next (runCap (.mlab w) mlabBody s)
def execMsumq (w : CWord) (s : State) : Out := .next (runCap (.msumq w) msumqBody s)

/-! ### Parity and reset (R256, R260) -/

/-- The beginning of a pass (R260): the state in which it reads its slots, those slots, and what is left of the state where it fails. -/
structure PassStart where
  read  : State
  slots : List (Nat × Nat)
  left  : State

/-- The pass of MMA and MMAR; none where a check refuses it. -/
def mmaPass (rel : Bool) (w : CWord) (s : State) : Option PassStart :=
  let s := drainCap s
  match shapeOf (capB s w) true with
  | none => none
  | some sh => if passRefused s sh (mmaKnot rel w) (capPad (capA s w)) sh.sb (mmaLabel rel w) sh.ar then none
    else some ⟨s, sh.slots, s⟩

/-- The pass of MGRP's next group, behind its load. -/
def groupPass (w : CWord) (s : State) : Option PassStart :=
  let s := drainCap s
  match groupAt w s with
  | none => none
  | some x => match shapeOf x.shape true with
    | none => none
    | some sh => match nextGroup (capCells s) x.tab sh.ar x.q with
      | none => none
      | some q =>
        let e := groupRow (capCells s) (x.tab + 16 * q)
        let off := x.aoff + x.a * sh.pitchA
        match groupLoad s x.shape sh w.imm.toNat off x.a e with
        | none => none
        | some (_, t) => if passRefused t sh e.knotOf off e.srow (e.label x.a) e.count then none else some ⟨t, sh.slots, t⟩

/-- A slot fails its parity in a pass (R260). It is reloaded and the pass repeated, which counts as a corrected soft error; or the call ends
with CLAYERR, and nothing of the pass has reached silt. -/
def failSlot (s : State) (p : PassStart) (key : Nat) : State :=
  let x := aGet {} (myCore p.read).clay key
  let put (s : State) (y : ClaySlot) : State := setMyCore s { myCore s with clay := aSet (myCore s).clay key y }
  match reloadSlot p.read key x with
  | some y => countErrors (if aGet? (myCore s).clay key = some x then put s y else s) 1 0
  | none => endCall (put p.left { x with bad := true }) (statusEnd p.left 3)

/-- Clears a cord's part of the matrix complex of its core (R256): slots, knots and banks become unowned. -/
def unownMatrix (c : Core) (cord : Nat) : Core :=
  let mine (o : Option Nat) : Bool := o == some cord
  let drop (x : ClaySlot) : ClaySlot := match x.tag with
    | some t => if t.cord = cord then { x with tag := none } else x
    | none => x
  { c with
    clay := c.clay.map (fun e => (e.1, drop e.2)),
    knots := c.knots.filter (fun e => !mine e.2.owner),
    rowBank := if mine c.rowBank.owner then {} else c.rowBank,
    colBank := if mine c.colBank.owner then {} else c.colBank }

/-- The silt rows of a cord go to the MZERO state, each with its anchor. -/
def zeroSilt (c : Cord) : Cord := { c with silt := c.silt.map (fun e => (e.1, e.2.zeroed)), vstat := {} }

/-- Other cords' slots are reloaded; one that cannot be fails its parity at its next use. -/
def reloadOthers (s : State) (core : Nat) : State :=
  let c := getCore s core
  let redo (e : Nat × ClaySlot) : ClaySlot := match e.2.tag with
    | none => e.2
    | some _ => (reloadSlot s e.1 e.2).getD { e.2 with bad := true }
  setCore s core { c with clay := c.clay.map (fun e => (e.1, redo e)) }

/-- A queued call that MRESET ends: a restored one has its sequence address and stands at its word, another one at its entry. -/
def resetQueued (core : Nat) (again : List Resumed) (s : State) (x : Call) : State :=
  match again.find? (fun e => e.run.call.id == x.id) with
  | some e => finishCall s core x e.run.seqAddr (endWith 2 0 ((capAddr e.run).setWidth 64))
  | none => finishCall s core x none (endWith 2 0 (x.block.getD 0 0))

/-- MRESET (R256): where the running call has exceeded its budget, every running or queued call of the core completes with MRESET,
their cords' matrix state is cleared, and other cords' clay is reloaded. -/
def execMreset (s : State) : Out :=
  let core := s.focus.core
  match (myCore s).run with
  | none => .next s
  | some r =>
    if !r.over s then .next s
    else
      let at' := (capAddr r).setWidth 64
      let t := drainCap (settleCap s)
      let c := myCore t
      let cords := (r.call :: c.chain).map (·.cord)
      let t := setMyCore t (cords.foldl unownMatrix { c with run := none, chain := [], resumed := [] })
      let t := cords.foldl (fun t k => setCord t k (zeroSilt (getCord t k))) t
      let t := reloadOthers t core
      .next (c.chain.foldl (resetQueued core c.resumed) (finishCall t core r.call r.seqAddr (endWith 2 0 at')))

/-- CLAY_MACRO_SPARE (R261, R406): between calls a failed macro is replaced by a spare; results do not change. -/
def execClayMacroSpare (s : State) : Out :=
  let c := myCore s
  .next (if c.run.isSome then s else setMyCore s { c with macros := c.macros - 1 })

/-! ### The start of a call (R253, R254, R374) -/

/-- Reloads saved clay from its recorded sources: false where a slot cannot be; it then fails at its next use. -/
def reloadSaved (core : Nat) : List SavedSlot → State → Bool × State
  | [], s => (true, s)
  | e :: l, s =>
    let x : ClaySlot := { tag := some e.tag, how := e.how }
    let c := getCore s core
    match reloadSlot s e.key x with
    | some y => reloadSaved core l (setCore s core { c with clay := aSet c.clay e.key y })
    | none => (false, (reloadSaved core l (setCore s core { c with clay := aSet c.clay e.key { x with bad := true } })).2)

/-- A call that was saved while it ran goes on where it stopped, once its clay has been reloaded; a mismatch ends it with CLAYERR. -/
def resumeCall (s : State) (core : Nat) (r : RunCall) (clay : List SavedSlot) : State :=
  let x := reloadSaved core clay s
  let r : RunCall := if x.1 then r else { r with ended := some (endWith 3 0 ((capAddr r).setWidth 64)) }
  setCore x.2 core { getCore x.2 core with run := some r, resumed := (getCore x.2 core).resumed.filter (fun e => e.run.call.id != r.call.id) }

/-- CALL_START (R253, R254): the free capstan starts a call. -/
def execCallStart (s : State) : Out :=
  let c := myCore s
  if c.run.isSome then .next s
  else
    let (i, pref) := nextCall s c
    match c.chain[i]? with
    | none => .next s
    | some x =>
      let c := { c with chain := lDel c.chain i, prefer := if pref && 2 ≤ c.chain.length then c.prefer + 1 else 0 }
      match c.resumed.find? (fun e => e.run.call.id == x.id) with
      | some p => .next (resumeCall (setMyCore s c) s.focus.core p.run p.clay)
      | none =>
        let entry := x.block.getD 0 0
        let r : RunCall := { call := x, pc := entry.extractLsb' 0 56,
                             ended := if entry.toNat % 8 = 0 && vaOk entry then none else some (endWith 8 0 entry) }
        .next (setMyCore s { c with run := some r })

end Sys2Proof.Machine
end

