-- ==== Sys2Proof/Machine/Vocab.lean ====
section
/-! DEFINITION. The vocab unit (R273 to R277, R292 to R298): capstan words 0x25 to 0x2C. -/

namespace Sys2Proof.Machine

/-! ### FP32 steps: a value with the flags raised so far (R274) -/

/-- A code with the flags of its computation. -/
abbrev FRes := Nat × Flags

/-- rne(a + b), rne(a - b), rne(a * b) and fdiv (R88). -/
def fAdd (a b : Nat) : FRes := roundResult f32 .rne false (FV.sum .rne [f32.unpack a, f32.unpack b])
def fSub (a b : Nat) : FRes := roundResult f32 .rne false (FV.sum .rne [f32.unpack a, (f32.unpack b).flip])
def fMul (a b : Nat) : FRes := roundResult f32 .rne false ((f32.unpack a).mul (f32.unpack b))
def fDiv (a b : Nat) : FRes := roundResult f32 .rne false (FV.div 24 (f32.unpack a) (f32.unpack b))

def negInf : Nat := 0xFF800000
def oneBits : Nat := 0x3F800000

/-- Equal as numbers. -/
def fEq (a b : Nat) : Bool := !f32.isNan a && !f32.isNan b && f32.numKey a == f32.numKey b

/-- The larger of two codes that are no NaN. -/
def fMax (a b : Nat) : Nat := (f32.minMax true a b).1

/-- E(z) of R274. -/
def eOf (z : Nat) : FRes :=
  let p := fMul z 0x3FB8AA3B
  let r := exp2Bits p.1
  (r.1, p.2 ||| r.2)

/-- E(rne(x - m2)). -/
def eDiff (x m2 : Nat) : FRes :=
  let d := fSub x m2
  let r := eOf d.1
  (r.1, d.2 ||| r.2)

/-- term(y, m2) of R274. -/
def termOf (y m2 : Nat) : FRes := if y = negInf then (0, 0) else if fEq y m2 then (oneBits, 0) else eDiff y m2

/-- F(x) of R276. -/
def factorOf (x m2 : Nat) : FRes := if fEq x m2 then (oneBits, 0) else eDiff x m2

/-- p of R297 and R298. -/
def probOf (y m s : Nat) : FRes :=
  if s % 2 ^ 31 = 0 then (0, 0)
  else
    let t := termOf y m
    let r := fDiv t.1 s
    (r.1, t.2 ||| r.2)

/-! ### The call block (R292) -/

/-- A vocabulary call block. -/
structure Vcb where
  rows   : Nat
  heapk  : Nat
  mode   : Nat
  named  : Nat
  h      : Nat
  vbase  : Nat
  vcount : Nat
  aoff   : Nat
  q      : Int
  temp   : Nat
  delta  : Nat
  wdesc  : DWord
  blist  : DWord
  bcount : Nat
  nids   : Nat
  state  : Nat
  stage  : Nat
  shard  : Nat
  scount : Nat
  resume : DWord
  rsv    : Nat
  deriving Repr

/-- The 128 bytes of a block. -/
def Vcb.ofBytes (b : List Byte) : Vcb :=
  { rows := leAt b 0 1, heapk := leAt b 1 1, mode := leAt b 2 1, named := leAt b 3 1, h := leAt b 4 4, vbase := leAt b 8 4,
    vcount := leAt b 12 4, aoff := leAt b 16 4, q := signedOf 32 (leAt b 20 4), temp := leAt b 24 4, delta := leAt b 28 4,
    wdesc := dwAt b 32, blist := dwAt b 40, bcount := leAt b 48 4, nids := leAt b 52 4, state := leAt b 56 4, stage := leAt b 60 4,
    shard := leAt b 64 4, scount := leAt b 68 4, resume := dwAt b 72, rsv := leAt b 80 48 }

def Vcb.thr (v : Vcb) : Bool := v.mode % 2 == 1
def Vcb.bias (v : Vcb) : Bool := v.mode / 2 % 2 == 1
def Vcb.isNamed (v : Vcb) : Bool := v.mode / 4 % 2 == 1
def Vcb.resumes (v : Vcb) : Bool := v.mode / 8 % 2 == 1
def Vcb.prec (v : Vcb) : Nat := 4 * (v.mode / 16 % 4) + 4
def Vcb.blocks (v : Vcb) : Nat := v.h / 64
def Vcb.stride (v : Vcb) : Nat := 16 * ((16 + 8 * v.heapk + 4 * v.named + 15) / 16)
def Vcb.pitchA (v : Vcb) : Nat := pitchOf (129 * v.blocks)
def Vcb.stageLen (v : Vcb) : Nat := 512 * pitchOf (65 * (min v.h 512 / 64))
def Vcb.chunks (v : Vcb) : Nat := (v.blocks + 7) / 8
def Vcb.tiles (v : Vcb) : Nat := (v.vcount + 1023) / 1024

/-- A finite FP32 code. -/
def fFinite (x : Nat) : Bool := x / 2 ^ 23 % 2 ^ 8 != 255

/-- Every field is in its range. -/
def Vcb.ok (v : Vcb) : Bool :=
  1 ≤ v.rows && v.rows ≤ 64 && 1 ≤ v.heapk && v.heapk ≤ 64 && v.mode < 64 && v.named ≤ 8 && (v.named == 0 || v.isNamed) &&
    v.h % 64 == 0 && 64 ≤ v.h && v.h ≤ 65472 && 1 ≤ v.vcount && -512 ≤ v.q && v.q ≤ 511 && fFinite v.temp && fFinite v.delta &&
    (v.delta < 2 ^ 31 || v.delta == 2 ^ 31) && v.blist.toNat % 8 == 0 && v.state % 16 == 0 && v.stage % 8 == 0 &&
    1 ≤ v.scount && v.shard < v.scount && v.resume.toNat % 64 == 0 && v.rsv == 0

/-- What a vocab word needs or how its call ends. -/
abbrev VGet (α : Type) := Except CallEnd α

/-- Reads the block at a scratchpad offset. -/
def readVcb (s : State) (off : Nat) : VGet Vcb :=
  if off % 128 != 0 || !capPadOk s off 128 then .error (operandEnd s)
  else .ok (.ofBytes (capBytes s off 128))

/-- Who makes the unit's memory accesses. -/
def capAgent (s : State) : Agent := 
  { core := some s.focus.core, job := (getCord s (capCord s)).job, who := .engine (capCord s), seen := (myRun s).seen }

/-- The first of n bytes that cannot be read, as an offset from the first. -/
def firstBad (s : State) (a : DWord) (disp n : Nat) : Option Nat :=
  (List.range n).find? (fun i => match (capAgent s).read s a (disp + i) 1 with | .bytes _ => false | _ => true)

/-- The address that a call reports of n bytes that cannot be read: that of the first one that cannot (R280). -/
def badAddr (s : State) (a : DWord) (disp n : Nat) : DWord := a + BitVec.ofNat 64 (disp + (firstBad s a disp n).getD 0)

/-- Reads n bytes of memory for the call. -/
def capMem (s : State) (a : DWord) (disp n : Nat) : VGet (List Byte) :=
  match (capAgent s).read s a disp n with
  | .bytes b => .ok b
  | .fault => .error (endWith 8 0 (badAddr s a disp n))
  | .poison => .error (endWith 9 0 (badAddr s a disp n))

/-- The bias list from entry i on, n entries left: strictly ascending, or BIASORD (R273). -/
def readBias (s : State) (a : DWord) : Nat → Nat → Option Nat → AMap Nat → VGet (AMap Nat)
  | 0, _, _, m => .ok m
  | n + 1, i, prev, m => match capMem s a (8 * i) 8 with
    | .error e => .error e
    | .ok b =>
      let id := leAt b 0 4
      if prev.any (fun p => id ≤ p) then .error (statusEnd s 7)
      else readBias s a n (i + 1) (some id) (m ++ [(id, leAt b 4 4)])

/-- The bias list of a block. -/
def biasOf (s : State) (v : Vcb) : VGet (AMap Nat) :=
  if !v.bias then .ok [] else if v.blist.toNat % 8 != 0 then .error (operandEnd s) else readBias s v.blist v.bcount 0 none []

/-- The weight descriptor, checked as a CB8 source (R243, R292), and its format. -/
def readWeights (s : State) (v : Vcb) : VGet (List Byte × Word) :=
  if v.wdesc.toNat % 8 != 0 || isHandle v.wdesc then .error (statusEnd s 10)
  else match capMem s v.wdesc 0 64 with
    | .error e => .error e
    | .ok b =>
      let d := TDesc.ofBytes b
      let nf := if 0x10 ≤ d.fmt then 0 else aGet 0 (getCord s (capCord s)).nf d.fmt
      if d.bad nf || d.sparse then .error (statusEnd s 10)
      else if d.paged || d.d0 < v.h || d.nrows < v.vcount then .error (operandEnd s)
      else .ok (b, nf)

/-! ### Row states (R293) -/

/-- The initial state. -/
def Vcb.initRow (v : Vcb) : VRow := { thr := v.thr, named := List.replicate v.named negInf }

/-- A state from its bytes; none where HCNT exceeds HEAPK or a reserved bit is set. -/
def VRow.ofBytes (heapk named : Nat) (b : List Byte) : Option VRow :=
  let f := leAt b 12 4
  if heapk < f % 128 || f / 2 ^ 10 != 0 then none
  else some { m := leAt b 0 4, s := leAt b 4 4, valid := leAt b 8 4, thr := natBits f 7 1 == 1, nanx := natBits f 8 1 == 1,
              done := natBits f 9 1 == 1, heap := (List.range (f % 128)).map (fun e => (leAt b (16 + 8 * e) 4, leAt b (20 + 8 * e) 4)),
              named := (List.range named).map (fun t => leAt b (16 + 8 * heapk + 4 * t) 4) }

/-- The heap entries with unused ones. -/
def VRow.entries (heapk : Nat) (r : VRow) : List (Nat × Nat) := r.heap ++ List.replicate (heapk - r.heap.length) (negInf, 2 ^ 32 - 1)

/-- The bytes of a state. -/
def VRow.bytes (v : Vcb) (r : VRow) : List Byte :=
  let f := r.heap.length + 2 ^ 7 * r.thr.toNat + 2 ^ 8 * r.nanx.toNat + 2 ^ 9 * r.done.toNat
  let b := leBytes 4 r.m ++ leBytes 4 r.s ++ leBytes 4 r.valid ++ leBytes 4 f ++
    (r.entries v.heapk).flatMap (fun e => leBytes 4 e.1 ++ leBytes 4 e.2) ++ r.named.flatMap (leBytes 4)
  b ++ List.replicate (v.stride - b.length) 0

/-- Reads row states from bytes; none where one is malformed. -/
def rowsFrom (heapk named stride : Nat) (b : List Byte) : Nat → Option (List VRow)
  | 0 => some []
  | n + 1 => match rowsFrom heapk named stride b n, VRow.ofBytes heapk named ((b.drop (n * stride)).take stride) with
    | some l, some r => some (l ++ [r])
    | _, _ => none

/-- The states at an offset of the scratchpad. -/
def readRows (s : State) (v : Vcb) (off : Nat) : VGet (List VRow) :=
  if !capPadOk s off (v.rows * v.stride) then .error (operandEnd s)
  else match rowsFrom v.heapk v.named v.stride (capBytes s off (v.rows * v.stride)) v.rows with
    | some l => .ok l
    | none => .error (operandEnd s)

/-- The bytes of all states. -/
def rowsBytes (v : Vcb) (rs : List VRow) : List Byte := rs.flatMap (VRow.bytes v)

/-- Writes the states to STATE. -/
def writeRows (s : State) (v : Vcb) (rs : List VRow) : State := scratchWr s (capCord s) v.state (rowsBytes v rs)

/-! ### A tile (R274, R294) -/

/-- What the unit works with: the block, the first working row, the weights and their format, the bias list. -/
structure VCtx where
  v    : Vcb
  base : Nat
  d    : TDesc
  nf   : Word
  bias : AMap Nat

/-- The same from what has been read. -/
def TileRun.ctx (x : TileRun) : VCtx := ⟨.ofBytes x.vcb, x.base, .ofBytes x.desc, x.nf, x.bias⟩

/-- The operand checks of R292 and R294, and the descriptor: what the tiles start with. -/
def vocabCtx (s : State) (vcb : List Byte) (base : Nat) (bias : AMap Nat) : VGet TileRun :=
  let v := Vcb.ofBytes vcb
  if !v.ok || 256 ≤ base || !rowsOk s base v.rows ||
      !capPadOk s v.aoff ((v.rows - 1) * v.pitchA + 129 * v.blocks) || !capPadOk s v.state (v.rows * v.stride) ||
      !capPadOk s v.stage v.stageLen || (v.named != 0 && !capPadOk s v.nids (4 * v.rows * v.named)) then .error (operandEnd s)
  else match readWeights s v with
    | .error e => .error e
    | .ok (desc, nf) => .ok { vcb := vcb, desc := desc, nf := nf, bias := bias, base := base, first := 0, tile := 0, rows := [] }

/-- The address that a call reports of a weight row that cannot be read: the first such byte of its elements, or of its scales (R280). -/
def badWeight (s : State) (c : VCtx) (r : Nat) : DWord :=
  let n := ((c.d.elem c.nf).bits * c.v.h + 7) / 8
  let k := if c.d.blocks then (c.v.h + 63) / 64 else 0
  match firstBad s c.d.base (c.d.rowDisp r) n, firstBad s c.d.base (c.d.scaleOff r 0) k with
  | none, some i => c.d.base + BitVec.ofNat 64 (c.d.scaleOff r 0 + i)
  | i, _ => c.d.base + BitVec.ofNat 64 (c.d.rowDisp r + i.getD 0)

/-- CB8 blocks of a weight row: exponent and mantissa bytes of each, with flags. -/
def weightRow (s : State) (c : VCtx) (r : Nat) : VGet (List (Byte × List Byte) × Flags) :=
  match rowValues s (capAgent s) c.d (c.d.elem c.nf) false none r 0 c.v.h with
  | .fault => .error (endWith 8 0 (badWeight s c r))
  | .poison => .error (endWith 9 0 (badWeight s c r))
  | .got xs fl =>
    let r := canonRow 8 c.v.blocks (xs.map (·.val))
    .ok ((List.range c.v.blocks).map (fun b =>
      (BitVec.ofNat 8 (r.1.getD b 0), ((r.2.1.drop (64 * b)).take 64).map (fun m => BitVec.ofNat 8 (natOf 8 m)))), fl ||| r.2.2)

/-- The weight rows from lo up. -/
def weightRows (s : State) (c : VCtx) (lo : Nat) : Nat → VGet (List (List (Byte × List Byte)) × Flags)
  | 0 => .ok ([], 0)
  | n + 1 => match weightRows s c lo n with
    | .error e => .error e
    | .ok (l, f) => match weightRow s c (lo + n) with
      | .error e => .error e
      | .ok (x, g) => .ok (l ++ [x], f ||| g)

/-- The slot of K-block b and N-segment m of a tile; rows past the tile are zero (R294). -/
def tileSlot (c : VCtx) (cord : Nat) (how : DWord) (ws : List (List (Byte × List Byte))) (b m : Nat) : ClaySlot :=
  let row (i : Nat) : Byte × List Byte := ((ws[64 * m + i]?).bind (·[b]?)).getD (0, List.replicate 64 0)
  let mant := (List.range 64).flatMap (fun i => (row i).2)
  let exps := (List.range 64).map (fun i => (row i).1)
  { tag := some ⟨cord, c.v.stage, vocabGen, slotCheck mant exps⟩, mant := mant, exps := exps, how := (how, 0) }

/-- The slots that K-chunk k of a tile of n rows uses: K-block of the chunk and N-segment. -/
def chunkKeys (c : VCtx) (k n : Nat) : List (Nat × Nat) :=
  (List.range (min 8 (c.v.blocks - 8 * k))).flatMap (fun j => (List.range ((n + 63) / 64)).map (fun m => (j, m)))

/-- The shape of a slot's source in STAGE, which holds 512 rows: those of the lower or of the upper eight N-segments of a chunk (R292,
R294). -/
def stageShape (c : VCtx) (k n m : Nat) : DWord :=
  let nm := (n + 63) / 64
  let ns := if m < 8 then 2 ^ min 8 nm - 1 else (2 ^ (nm - 8) - 1) * 2 ^ 8
  BitVec.ofNat 64 ((2 ^ min 8 (c.v.blocks - 8 * k) - 1) * 2 ^ 24 + ns * 2 ^ 32)

/-- The slots of K-chunk k of a tile. -/
def chunkSlots (c : VCtx) (cord : Nat) (ws : List (List (Byte × List Byte))) (k : Nat) (clay : AMap ClaySlot) : AMap ClaySlot :=
  (chunkKeys c k ws.length).foldl (fun clay p =>
    aSet clay (slotKey p.1 p.2) (tileSlot c cord (stageShape c k ws.length p.2) ws (8 * k + p.1) p.2)) clay

/-- Row i of the working rows after K-chunk k. -/
def chunkRow (c : VCtx) (pad : List Host.Cell) (clay : AMap ClaySlot) (k nm i : Nat) (r : SiltRow × Flags) : SiltRow × Flags :=
  let nj := min 8 (c.v.blocks - 8 * k)
  let at' := c.v.aoff + i * c.v.pitchA
  let as := (List.range nj).map (fun j => (j, aBlock pad at' c.v.blocks (8 * k + j) c.v.prec))
  (List.range nm).foldl (fun r m => (List.range 64).foldl (fun r n => addBlocks clay false m n as (r.1.setAdmit (64 * m + n), r.2)) r) r

/-- The K-chunks of a tile from k on: each loads its clay and multiplies every working row. -/
def tileChunks (c : VCtx) (cord : Nat) (pad : List Host.Cell) (ws : List (List (Byte × List Byte))) :
    Nat → Nat → AMap ClaySlot → List SiltRow → Flags → AMap ClaySlot × List SiltRow × Flags
  | 0, _, clay, rows, fl => (clay, rows, fl)
  | n + 1, k, clay, rows, fl =>
    let clay := chunkSlots c cord ws k clay
    let out := rows.zipIdx.map (fun x => chunkRow c pad clay k ((ws.length + 63) / 64) x.2 (x.1, 0))
    tileChunks c cord pad ws n (k + 1) clay (out.map (·.1)) (out.foldl (fun f x => f ||| x.2) fl)

/-- The logit of a cell (R274): its drain, the bias, the temperature; NAN where it is NaN. -/
def logitOf (c : VCtx) (x : SiltRow) (n id : Nat) : Nat × Flags :=
  let d : FRes := if x.pois.getLsbD n then (f32.nan, fNAN) else drainTo f32 (x.cell n) c.v.q
  let b : FRes := match aGet? c.bias id with
    | some w => fAdd d.1 w
    | none => (d.1, 0)
  let y := fMul b.1 c.v.temp
  (y.1, d.2 ||| b.2 ||| y.2 ||| flagIf (f32.isNan y.1) fNAN)

/-- The logits of a row: ids with values, and flags. -/
def rowLogits (c : VCtx) (t w : Nat) (x : SiltRow) : List (Nat × Nat) × Flags :=
  (List.range w).foldl (fun a n =>
    let id := (c.v.vbase + 1024 * t + n) % 2 ^ 32
    let y := logitOf c x n id
    (a.1 ++ [(id, y.1)], a.2 ||| y.2)) ([], 0)

/-- The number of ids in tile t. -/
def Vcb.width (v : Vcb) (t : Nat) : Nat := min 1024 (v.vcount - 1024 * t)

/-- Puts working rows into a cord's silt. -/
def putRows (s : State) (cord base : Nat) (rows : List SiltRow) : State :=
  rows.zipIdx.foldl (fun s x => setSilt s cord (base + x.2) x.1) s

/-- Leaves STAGE with bytes that the spec does not state (R292). -/
def spoilStage (s : State) (v : Vcb) : State :=
  { scratchWr s (capCord s) v.stage ((List.range v.stageLen).map (Config.stageByte s.free)) with free := s.free + 1 }

/-- The working rows of a tile whose weight rows are ws after its first n K-chunks, with clay and flags. -/
def tileRows (s : State) (c : VCtx) (ws : List (List (Byte × List Byte))) (n : Nat) (fl : Flags) : AMap ClaySlot × List SiltRow × Flags :=
  tileChunks c (capCord s) (capCells s) ws n 0 (myCore s).clay (List.replicate c.v.rows { q := c.v.q }) fl

/-- Runs tile t: the logits of each row, and the state with clay, working rows and flags. -/
def runTile (s : State) (c : VCtx) (t : Nat) : VGet (List (List (Nat × Nat)) × State) :=
  let w := c.v.width t
  match weightRows s c (1024 * t) w with
  | .error e => .error e
  | .ok (ws, f) =>
    let cord := capCord s
    let r := tileRows s c ws c.v.chunks f
    let ys := r.2.1.map (rowLogits c t w)
    let s := putRows (setMyCore s { myCore s with clay := r.1 }) cord c.base r.2.1
    .ok (ys.map (·.1), orFlagsOf (spoilStage s c.v) cord (ys.foldl (fun f y => f ||| y.2) r.2.2))

/-! ### The fold of a tile (R274, R275) -/

/-- The key of R275: y descending, ties by id ascending. -/
def heapBefore (a b : Nat × Nat) : Bool := f32.numKey b.1 < f32.numKey a.1 || (f32.numKey a.1 == f32.numKey b.1 && a.2 < b.2)

/-- Puts an entry into a sorted heap. -/
def heapPut (e : Nat × Nat) : List (Nat × Nat) → List (Nat × Nat)
  | [] => [e]
  | x :: t => if heapBefore e x then e :: x :: t else x :: heapPut e t

/-- The entries that threshold mode keeps: y ≥ rne(m - DELTA). -/
def keepAbove (m delta : Nat) (h : List (Nat × Nat)) : List (Nat × Nat) :=
  let b := (fSub m delta).1
  h.filter (fun e => !f32.isNan b && f32.numKey b ≤ f32.numKey e.1)

/-- The heap after entries join it: none where threshold mode keeps more than HEAPK. -/
def heapJoin (v : Vcb) (m : Nat) (h new : List (Nat × Nat)) : Option (List (Nat × Nat)) :=
  let all := new.foldl (fun h e => heapPut e h) h
  if v.thr then
    let k := keepAbove m v.delta all
    if v.heapk < k.length then none else some k
  else some (all.take v.heapk)

/-- The normaliser after the included logits, in ascending id order. -/
def sumTerms (m2 : Nat) (acc : FRes) (ys : List Nat) : FRes :=
  ys.foldl (fun a y =>
    let t := termOf y m2
    let r := fAdd a.1 t.1
    (r.1, a.2 ||| t.2 ||| r.2)) acc

/-- Folds a tile into a row: none where its heap spills. -/
def foldTile (v : Vcb) (nids : List Nat) (ys : List (Nat × Nat)) (r : VRow) : Option (VRow × Flags) :=
  let inc := ys.filter (fun y => !f32.isNan y.2)
  let m2 := fMax r.m (inc.foldl (fun m y => fMax m y.2) negInf)
  let acc : FRes := if fEq r.m m2 then (r.s, 0) else
    let e := eDiff r.m m2
    let p := fMul r.s e.1
    (p.1, e.2 ||| p.2)
  let s := sumTerms m2 acc (inc.map (·.2))
  match heapJoin v m2 r.heap (inc.map (fun y => (y.2, y.1))) with
  | none => none
  | some h =>
    some ({ r with m := m2, s := s.1, valid := (r.valid + inc.length) % 2 ^ 32, thr := v.thr, nanx := r.nanx || inc.length < ys.length, heap := h,
                   named := (r.named.zip nids).map (fun x => ((ys.find? (fun y => y.1 == x.2)).map (·.2)).getD x.1) }, s.2)

/-- Folds a tile into every row: none where a row spills. -/
def foldRows (v : Vcb) : List (List Nat) → List (List (Nat × Nat)) → List VRow → Option (List VRow × Flags)
  | ns :: nt, ys :: yt, r :: rt => match foldTile v ns ys r, foldRows v nt yt rt with
    | some (x, f), some (l, g) => some (x :: l, f ||| g)
    | _, _ => none
  | _, _, _ => some ([], 0)

/-- The named ids of every row. -/
def namedIds (s : State) (v : Vcb) : List (List Nat) :=
  let b := capBytes s v.nids (4 * v.rows * v.named)
  (List.range v.rows).map (fun r => (List.range v.named).map (fun t => leAt b (4 * (r * v.named + t)) 4))

/-! ### VPROJ and VRES (R294, R295) -/

/-- What VSTAT reports of the cord's last VPROJ, VRES or VPRJB (R298). -/
def setVstat (s : State) (tiles resume status : Nat) : State :=
  let k := capCord s
  setCord s k { getCord s k with vstat := { tiles := BitVec.ofNat 16 tiles, resume := BitVec.ofNat 16 resume, status := BitVec.ofNat 8 status } }

/-- How a tile ended: with the row states, with the end of the call, or with a spill before the states changed, n tiles charged. -/
inductive VEnd where
  | ok (rs : List VRow) (s : State)
  | bad (e : CallEnd) (s : State)
  | spill (rs : List VRow) (n : Nat) (s : State)

/-- Runs the tile that is next and folds it into the states. -/
def oneTile (x : TileRun) (s : State) : VEnd := match runTile s x.ctx x.tile with
  | .error e => .bad e s
  | .ok (ys, u) => match foldRows x.ctx.v (namedIds s x.ctx.v) ys x.rows with
    | none => .spill x.rows 1 u
    | some (out, f) => .ok out (orFlagsOf u (capCord u) f)

/-- The core cycles of n tiles (R294). -/
def Vcb.cost (v : Vcb) (n : Nat) : Nat := n * max ((v.h + 511) / 512 * v.rows * v.prec) (16 * v.rows)

/-- The bytes of a resume area (R294): the block's copy, the tile, zeros, and the states. -/
def resumeBytes (v : Vcb) (vcb : List Byte) (t : Nat) (rs : List VRow) : List Byte :=
  vcb ++ leBytes 4 t ++ List.replicate 12 0 ++ rowsBytes v rs

/-- Writes a resume area, or the address at which that faults. -/
def writeResume (s : State) (v : Vcb) (vcb : List Byte) (t : Nat) (rs : List VRow) : Except DWord State :=
  let g := capAgent s
  let b := resumeBytes v vcb t rs
  match piecesAt s g v.resume 0 b.length .wr with
  | some ps => .ok (g.wrAll s ps b)
  | none => .error (v.resume + BitVec.ofNat 64 (((List.range b.length).find? (fun i => (piecesAt s g v.resume i 1 .wr).isNone)).getD 0))

/-- Goes on after a tile: to the boundary before the next one, at which the call may stop (R294, R371); after the last one the states are
written with DONE. A spill saves the states; VSTAT reports the tiles made. -/
def endTile (x : TileRun) (r : VEnd) : CRes :=
  let v := x.ctx.v
  let made := x.tile - x.first
  match r with
  | .ok rs s =>
    if x.tile + 1 < v.tiles then .again (v.cost 1) (setProgress s (.tiles { x with tile := x.tile + 1, rows := rs }))
    else
      .done (v.cost 1) (setVstat (writeRows (closeProgress s) v (rs.map (fun r => { r with done := true }))) (made + 1) 0xFFFF 0)
  | .bad e s => .stop 1 e (setVstat s made 0xFFFF e.status)
  | .spill rs n s =>
    let s := writeRows s v rs
    match writeResume s v x.vcb x.tile rs with
    | .error a => .stop (v.cost n) (endWith 8 0 a) (setVstat s made 0xFFFF 8)
    | .ok u => .stop (v.cost n) (statusEnd u 6) (setVstat u made x.tile 6)

/-- A failed check of VPROJ, VRES or VPRJB: its status is what VSTAT reports, but a failed operand check changes nothing (R282). -/
def vocabFail (s : State) (e : CallEnd) : CRes := .stop 1 e (if e.status = 1 then s else setVstat s 0 0xFFFF e.status)

/-- The first checks of R273. -/
def heapChecks (s : State) (v : Vcb) : VGet (AMap Nat) :=
  if 4096 < v.rows * v.heapk then .error (statusEnd s 5) else biasOf s v

/-- The 128 bytes of the block at a scratchpad offset. -/
def vcbBytes (s : State) (off : Nat) : List Byte := capBytes s off 128

/-- What VPROJ starts with, after its checks. -/
def vprojStart (w : CWord) (s : State) : VGet TileRun :=
  match readVcb s (capPad (capA s w)) with
  | .error e => .error e
  | .ok v => match heapChecks s v with
    | .error e => .error e
    | .ok bias => match vocabCtx s (vcbBytes s (capPad (capA s w))) (capB s w).toNat bias with
      | .error e => .error e
      | .ok x => match (if v.resumes then readRows s v v.state else .ok (List.replicate v.rows v.initRow)) with
        | .error e => .error e
        | .ok rs => .ok { x with rows := rs }

/-- VPROJ: the checks, the first tile and, one at a time, the others. -/
def vprojBody (w : CWord) (s : State) : CRes :=
  let s := drainCap s
  match (myRun s).progress with
  | some (.tiles x) => endTile x (oneTile x s)
  | _ => match vprojStart w s with
    | .error e => vocabFail s e
    | .ok x => endTile x (oneTile x s)

/-- The saved copy of a block equals another in every byte but HEAPK and DELTA. -/
def sameVcb (a b : List Byte) : Bool :=
  (List.range 128).all (fun i => i == 1 || (28 ≤ i && i < 32) || a[i]? == b[i]?)

/-- VRES's saved states, thresholded anew: none where one keeps more than HEAPK. -/
def rethreshold (v : Vcb) (rs : List VRow) : Option (List VRow) :=
  rs.mapM (fun r => (heapJoin v r.m r.heap []).map (fun h => { r with heap := h }))

/-- What VRES starts with at the saved tile, after its checks, with the saved states. -/
def vresStart (w : CWord) (s : State) : VGet TileRun :=
  let area := capA s w
  match readVcb s (capPad (capB s w)), capMem s area 0 132 with
  | .error e, _ => .error e
  | _, .error e => .error e
  | .ok v, .ok b =>
    let old := Vcb.ofBytes b
    let vcb := vcbBytes s (capPad (capB s w))
    if area.toNat % 64 != 0 || !sameVcb b vcb || v.heapk < old.heapk || 4096 < v.rows * v.heapk then .error (operandEnd s)
    else match biasOf s v with
      | .error e => .error e
      | .ok bias => match vocabCtx s vcb ((capC s w).toNat % 256) bias, capMem s area 144 (old.rows * old.stride) with
        | .error e, _ => .error e
        | _, .error e => .error e
        | .ok x, .ok sb =>
          let t := leAt b 128 4
          match rowsFrom old.heapk old.named old.stride sb old.rows with
          | none => .error (operandEnd s)
          | some rs => if v.tiles ≤ t then .error (operandEnd s) else .ok { x with first := t, tile := t, rows := rs }

/-- VRES: thresholds the saved states anew, and continues at the saved tile. -/
def vresBody (w : CWord) (s : State) : CRes :=
  let s := drainCap s
  match (myRun s).progress with
  | some (.tiles x) => endTile x (oneTile x s)
  | _ => match vresStart w s with
    | .error e => vocabFail s e
    | .ok x => match rethreshold x.ctx.v x.rows with
      | none => endTile x (.spill x.rows 0 s)
      | some rs => endTile { x with rows := rs } (oneTile { x with rows := rs } s)

def execVproj (w : CWord) (s : State) : Out := .next (runCap (.vproj w) vprojBody s)
def execVres (w : CWord) (s : State) : Out := .next (runCap (.vres w) vresBody s)

/-! ### VPRJB (R297) -/

/-- The gradient values of a row. -/
def gradRow (scale target : Nat) (r : VRow) (ys : List (Nat × Nat)) : List Nat × Flags :=
  ys.foldl (fun a y =>
    if f32.isNan y.2 then (a.1 ++ [f32.nan], a.2)
    else
      let p := probOf y.2 r.m r.s
      let d := fSub p.1 (if y.1 = target then oneBits else 0)
      let g := fMul d.1 scale
      (a.1 ++ [g.1], a.2 ||| p.2 ||| d.2 ||| g.2)) ([], 0)

/-- Writes the gradient rows. -/
def putGrads (v : Vcb) (scale out pitch : Nat) : Nat → List (List Nat) → List VRow → List (List (Nat × Nat)) → State → State
  | i, ns :: nt, r :: rt, ys :: yt, s =>
    let g := gradRow scale (ns.headD 0) r ys
    let c := ca16Row v.prec (g.1.map f32.unpack)
    let s := scratchWr s (capCord s) (out + i * pitch) c.1
    putGrads v scale out pitch (i + 1) nt rt yt (orFlagsOf s (capCord s) (g.2 ||| c.2))
  | _, _, _, _, s => s

/-- The pitch of the gradient rows of tile t. -/
def Vcb.gradPitch (v : Vcb) (t : Nat) : Nat := pitchOf (129 * ((v.width t + 63) / 64))

/-- The tile and the states that VPRJB works on, after its checks. -/
def vprjbStart (w : CWord) (s : State) : VGet TileRun :=
  let b := (capB s w).toNat
  let t := natBits b 8 16
  match readVcb s (capPad (capA s w)) with
  | .error e => .error e
  | .ok v => match biasOf s v with
    | .error e => .error e
    | .ok bias => match vocabCtx s (vcbBytes s (capPad (capA s w))) (b % 256) bias with
      | .error e => .error e
      | .ok x =>
        if natBits b 24 8 != 0 || !v.isNamed || v.named = 0 || !fFinite (natBits b 32 32) || v.tiles ≤ t ||
            !capPadOk s (capPad (capC s w)) ((v.rows - 1) * v.gradPitch t + 129 * ((v.width t + 63) / 64)) then .error (operandEnd s)
        else match readRows s v v.state with
          | .error e => .error e
          | .ok rs => .ok { x with first := t, tile := t, rows := rs }

/-- VPRJB: regenerates a tile and writes its gradient. -/
def vprjbBody (w : CWord) (s : State) : CRes :=
  let s := drainCap s
  match vprjbStart w s with
  | .error e => vocabFail s e
  | .ok x =>
    let v := x.ctx.v
    match runTile s x.ctx x.tile with
    | .error e => vocabFail s e
    | .ok (ys, u) =>
      let scale := natBits (capB s w).toNat 32 32
      .done (v.cost 1 + 16 * v.rows)
        (setVstat (putGrads v scale (capPad (capC s w)) (v.gradPitch x.tile) 0 (namedIds s v) x.rows ys u) 1 0xFFFF 0)

def execVprjb (w : CWord) (s : State) : Out := .next (runCap (.vprjb w) vprjbBody s)

/-! ### Parity in the vocab unit's passes (R260) -/

/-- A byte of STAGE while a chunk is multiplied: what the weight copy has put there, or what a program has written over it since the word
began (R257, R260). -/
def stagedByte (s : State) (pad : List Host.Cell) (k : Nat) (b : Byte) : Byte :=
  let now := memRd pad k
  pickOne b (Config.glimpsed s.free k) (b :: if (myRun s).seen.any (fun x => memRd x.pad k != now) then [now] else [])

/-- Writes some bytes of a chunk's rows to STAGE. -/
def stageBytes (s : State) (pad : List Host.Cell) (off : Nat) (bs : List Byte) (m : List Host.Cell) : List Host.Cell :=
  bs.zipIdx.foldl (fun m x => memWr m (off + x.2) (stagedByte s pad (off + x.2) x.1)) m

/-- STAGE behind the copy of the weight rows from lo up, at most 512, for K-chunk k: CB8 rows of the chunk's blocks (R294). -/
def stageRows (s : State) (c : VCtx) (ws : List (List (Byte × List Byte))) (k lo : Nat) (pad : List Host.Cell) : List Host.Cell :=
  let nj := min 8 (c.v.blocks - 8 * k)
  let n := min 512 (64 * ((ws.length + 63) / 64) - lo)
  let block (i j : Nat) : Byte × List Byte := ((ws[lo + i]?).bind (·[8 * k + j]?)).getD (0, List.replicate 64 0)
  (List.range n).foldl (fun m i => (List.range nj).foldl (fun m j =>
    let at' := c.v.stage + i * pitchOf (65 * nj)
    stageBytes s pad (at' + 64 * nj + j) [(block i j).1] (stageBytes s pad (at' + 64 * j) (block i j).2 m)) m) pad

/-- The pass of K-chunk k of a tile, behind its load, where STAGE holds the rows of the slot's half. -/
def tilePass (x : TileRun) (k m : Nat) (s : State) : Option PassStart :=
  let c := x.ctx
  match weightRows s c (1024 * x.tile) (c.v.width x.tile) with
  | .error _ => none
  | .ok (ws, f) =>
    if c.v.chunks ≤ k then none
    else
      let r := tileRows s c ws k f
      let t := setMyCore s { myCore s with clay := chunkSlots c (capCord s) ws k r.1 }
      let o := getCord t (capCord t)
      let left := spoilStage (orFlagsOf (putRows t (capCord t) c.base r.2.1) (capCord t) r.2.2) c.v
      some { read := setCord t (capCord t) { o with scratch := stageRows s c ws k (if m < 8 then 0 else 512) o.scratch },
             slots := chunkKeys c k ws.length, left := setVstat left (x.tile - x.first) 0xFFFF 3 }

/-- The tile that a vocab word makes next. -/
def nextTile (start : State → VGet TileRun) (s : State) : Option TileRun := match (myRun s).progress with
  | some (.tiles x) => some x
  | _ => (start s).toOption

/-- The pass in which the word of the running call reads the slot in focus, of its K-chunk k (R260). -/
def passOf (i : Instr) (k m : Nat) (s : State) : Option PassStart :=
  let t := drainCap s
  let tile (start : State → VGet TileRun) : Option PassStart := (nextTile start t).bind (fun x => tilePass x k m t)
  match i with
  | .mma w => mmaPass false w s
  | .mmar w => mmaPass true w s
  | .mgrp w => groupPass w s
  | .vproj w => tile (vprojStart w)
  | .vres w => ((nextTile (vresStart w) t).filter (fun x => (rethreshold x.ctx.v x.rows).isSome)).bind (fun x => tilePass x k m t)
  | .vprjb w => tile (vprjbStart w)
  | _ => none

/-- CLAY_PARITY_FAILURE (R260): the slot in focus fails in a pass that the running call's word makes. -/
def execClayParityFailure (s : State) : Out :=
  let j := s.focus.ix % 8
  let m := s.focus.row % 16
  match myRun? s, capWord s with
  | some r, some (i, _) =>
    if r.clause.isNone || r.over s then .next s
    else match passOf i (s.focus.ix / 8) m s with
      | some p => .next (if p.slots.contains (j, m) then failSlot s p (slotKey j m) else s)
      | none => .next s
  | _, _ => .next s

/-! ### VMRG (R276, R296) -/

/-- Folds state b into the running state a, the named logits by FMAXP (R89, R296): none where the heap spills. -/
def foldState (v : Vcb) (a b : VRow) : Option (VRow × Flags) :=
  let m2 := fMax a.m b.m
  let fa := factorOf a.m m2
  let fb := factorOf b.m m2
  let x := fMul a.s fa.1
  let y := fMul b.s fb.1
  let s := fAdd x.1 y.1
  let ns := (a.named.zip b.named).map (fun p => f32.minMaxP true p.1 p.2)
  match heapJoin v m2 a.heap b.heap with
  | none => none
  | some h =>
    some ({ m := m2, s := s.1, valid := (a.valid + b.valid) % 2 ^ 32, thr := v.thr, nanx := a.nanx || b.nanx, done := a.done && b.done,
            heap := h, named := ns.map (·.1) }, fa.2 ||| fb.2 ||| x.2 ||| y.2 ||| s.2 ||| ns.foldl (fun f x => f ||| x.2) 0)

/-- Folds the states of one shard into the running ones. -/
def foldShard (v : Vcb) : List VRow → List VRow → Option (List VRow × Flags)
  | a :: at', b :: bt => match foldState v a b, foldShard v at' bt with
    | some (x, f), some (l, g) => some (x :: l, f ||| g)
    | _, _ => none
  | _, _ => some ([], 0)

/-- Folds shards in ascending order: none where a row spills. -/
def foldShards (v : Vcb) : List (List VRow) → List VRow × Flags → Option (List VRow × Flags)
  | [], r => some r
  | b :: t, (rs, f) => match foldShard v rs b with
    | none => none
    | some (out, g) => foldShards v t (out, f ||| g)

/-- VMRG. -/
def vmrgBody (w : CWord) (s : State) : CRes :=
  let s := drainCap s
  let src := capPad (capB s w)
  match readVcb s (capPad (capA s w)) with
  | .error e => .stop 8 e s
  | .ok v =>
    let one := v.rows * v.stride
    if !v.ok || !capPadOk s v.state one || !capPadOk s src (v.scount * one) ||
        (overlaps src (v.scount * one) v.state one && src != v.state) then .stop 8 (operandEnd s) s
    else match (List.range v.scount).mapM (fun i => readRows s v (src + i * one)) with
      | .error e => .stop 8 e s
      | .ok [] => .stop 8 (operandEnd s) s
      | .ok (a :: t) =>
        let cost := 8 + 2 * v.rows * v.scount
        match foldShards v t (a.map (fun r => { r with thr := v.thr }), 0) with
        | none => .stop cost (statusEnd s 6) s
        | some (rs, f) => .done cost (orFlagsOf (writeRows s v rs) (capCord s) f)

def execVmrg (w : CWord) (s : State) : Out := .next (runCap (.vmrg w) vmrgBody s)

/-! ### The state utilities (R298) -/

/-- The block of a utility, with its fields in range. -/
def utilVcb (s : State) (off : Nat) : VGet Vcb :=
  match readVcb s off with
  | .error e => .error e
  | .ok v => if v.ok then .ok v else .error (operandEnd s)

/-- VCLR: initial states; the unit's resume status is cleared. -/
def vclrBody (w : CWord) (s : State) : CRes :=
  let s := drainCap s
  match utilVcb s (capPad (capA s w)) with
  | .error e => .stop 2 e s
  | .ok v =>
    if !capPadOk s v.state (v.rows * v.stride) then .stop 2 (operandEnd s) s
    else
      let s := writeRows s v (List.replicate v.rows v.initRow)
      let k := capCord s
      let c := getCord s k
      .done (2 + v.rows) (setCord s k { c with vstat := { c.vstat with resume := 0xFFFF } })

/-- What VHEAP writes of an entry: its value, or its probability for a used one. -/
def heapValue (prob : Bool) (r : VRow) (i : Nat) (y : Nat) : FRes := if prob && i < r.heap.length then probOf y r.m r.s else (y, 0)

/-- VHEAP: ids, then values, in key order. -/
def vheapBody (w : CWord) (s : State) : CRes :=
  let s := drainCap s
  match utilVcb s (capPad (capA s w)) with
  | .error e => .stop 2 e s
  | .ok v =>
    let out := capPad (capB s w)
    if !capPadOk s out (8 * v.heapk * v.rows) then .stop 2 (operandEnd s) s
    else match readRows s v v.state with
      | .error e => .stop 2 e s
      | .ok rs =>
        let vals (r : VRow) : List FRes := (r.entries v.heapk).zipIdx.map (fun e => heapValue (w.imm.getLsbD 0) r e.2 e.1.1)
        let bytes := rs.flatMap (fun r => (r.entries v.heapk).flatMap (fun e => leBytes 4 e.2) ++ (vals r).flatMap (fun x => leBytes 4 x.1))
        let fl := rs.foldl (fun f r => (vals r).foldl (fun f x => f ||| x.2) f) 0
        .done (2 + v.rows * v.heapk / 8) (orFlagsOf (scratchWr s (capCord s) out bytes) (capCord s) fl)

/-- VNORM: m, s, VALID and 0 of each row. -/
def vnormBody (w : CWord) (s : State) : CRes :=
  let s := drainCap s
  match utilVcb s (capPad (capA s w)) with
  | .error e => .stop 2 e s
  | .ok v =>
    let out := capPad (capB s w)
    if !capPadOk s out (16 * v.rows) then .stop 2 (operandEnd s) s
    else match readRows s v v.state with
      | .error e => .stop 2 e s
      | .ok rs =>
        let bytes := rs.flatMap (fun r => leBytes 4 r.m ++ leBytes 4 r.s ++ leBytes 4 r.valid ++ leBytes 4 0)
        .done (2 + v.rows) (scratchWr s (capCord s) out bytes)

/-- VSTAT. -/
def vstatBody (w : CWord) (s : State) : CRes :=
  let x := (getCord s (capCord s)).vstat
  .done 2 (putC s w.d (BitVec.ofNat 64 (x.tiles.toNat + 2 ^ 16 * x.resume.toNat + 2 ^ 32 * x.status.toNat)))

def execVclr (w : CWord) (s : State) : Out := .next (runCap (.vclr w) vclrBody s)
def execVheap (w : CWord) (s : State) : Out := .next (runCap (.vheap w) vheapBody s)
def execVnorm (w : CWord) (s : State) : Out := .next (runCap (.vnorm w) vnormBody s)
def execVstat (w : CWord) (s : State) : Out := .next (runCap (.vstat w) vstatBody s)

end Sys2Proof.Machine
end

