-- ==== Sys2Proof/Machine/Fabric.lean ====
section
/-! DEFINITION. The Tirral fabric (R384 to R393): strand opcodes 0xAA to 0xAC, and the events FABRIC_ACCEPT, FABRIC_COMPLETE,
XRED_COMBINE, TIRRAL_FLIT, FLIT_RETRANSMIT and TIRRAL_PORT_FAILURE. -/

namespace Sys2Proof.Machine

/-! ### The block (R385) -/

/-- The fields of a fabric block. -/
structure FBlock where
  loc   : DWord
  far   : DWord
  len   : Nat
  group : Nat
  op    : Nat
  fl    : Nat
  seq   : Nat
  rsv   : Bool
  deriving Repr

/-- The 64 bytes of a block. -/
def FBlock.ofBytes (b : List Byte) : FBlock :=
  { loc := dwAt b 0, far := dwAt b 8, len := leAt b 16 4, group := leAt b 20 2, op := leAt b 22 1, fl := leAt b 23 1,
    seq := leAt b 24 8, rsv := leAt b 32 32 != 0 }

/-- The captured block of an operation. -/
def FabOp.fb (op : FabOp) : FBlock := .ofBytes op.block

/-- The bytes that an operation moves. -/
def FabOp.bytes (op : FabOp) : Nat := match op.kind with
  | .xred => 8 * op.fb.len
  | _ => op.fb.len

/-- The operation re-requests a result (R390, R391). -/
def FabOp.again (op : FabOp) : Bool := op.rereq || op.fb.fl % 2 == 1

/-- The engine whose accesses an operation makes. -/
def fabAgent (s : State) (op : FabOp) : Agent := 
  { core := some (op.cord / 16), job := (getCord s op.cord).job, who := .engine op.cord }

/-- A scratchpad operand whose bits [62:32] are not zero. -/
def badLocal (a : DWord) : Bool := isScratch a && a.toNat / 2 ^ 32 % 2 ^ 31 != 0

/-- A field outside R385. -/
def FabOp.badFields (op : FabOp) : Bool :=
  let b := op.fb
  b.rsv || badLocal b.loc || (match op.kind with
    | .xred => badLocal b.far || b.len < 1 || 512 < b.len || 255 < b.group || 1 < b.op || 1 < b.fl
    | _ => b.len % 8 != 0 || b.len < 8 || 65536 < b.len || b.group != 0 || b.op != 0 || b.fl != 0 || b.seq != 0)

/-- A local scratchpad range that does not lie below SPSIZE. -/
def fabOut (s : State) (op : FabOp) : Bool :=
  let out (a : DWord) : Bool := isScratch a && !scratchIn (getCord s op.cord) (padOff a) op.bytes
  out op.fb.loc || (op.kind == .xred && out op.fb.far)

/-! ### Accesses -/

/-- A far access fails because its page's peer cannot be reached (R388, R401). -/
def unreachable (s : State) (op : FabOp) (a : DWord) (need : Need) : Bool :=
  !isHandle a && vaOk a && (match findTlb s (op.cord / 16) (getCord s op.cord).job a.toNat 0 with
    | some t => t.tier == 3 && t.allows need && routeMask s t.ext == 0
    | none => false)

/-- Reads n bytes at an operand, or a status. `loc` says that bit 63 names the scratchpad. -/
def fabRead (s : State) (op : FabOp) (loc : Bool) (a : DWord) (disp n : Nat) : Except Nat (List Byte) :=
  if loc && isScratch a then
    (if padPoison s op.cord (padOff a + disp) n then .error 4 else .ok (scratchRd (getCord s op.cord) (padOff a + disp) n))
  else match (fabAgent s op).read s a disp n with
    | .bytes b => .ok b
    | .poison => .error 4
    | .fault => .error (if unreachable s op (a + BitVec.ofNat 64 disp) .rd then 5 else 3)

/-- The keys and lengths of the pieces that lie in a peer's memory. -/
def farPieces (ps : List (Place × Nat)) : List (Nat × Nat) :=
  (ps.filter (fun p => tierOf p.1.key == 3)).map (fun p => (p.1.key, p.2))

/-- Writes bytes at an operand: the state, with what was written in a peer's memory; or a status. -/
def fabWrite (s : State) (op : FabOp) (loc : Bool) (a : DWord) (disp : Nat) (bs : List Byte) :
    Except Nat (State × List (Nat × Nat)) :=
  if loc && isScratch a then .ok (scratchWr s op.cord (padOff a + disp) bs, [])
  else match piecesAt s (fabAgent s op) a disp bs.length .wr with
    | some ps => .ok ((fabAgent s op).wrAll s ps bs, farPieces ps)
    | none => .error (if unreachable s op (a + BitVec.ofNat 64 disp) .wr then 5 else 3)

/-- What an operation of a core wrote in a peer's memory has reached it: the system point (R202, R387). -/
def settleSent (s : State) (core : Nat) (sent : List (Nat × Nat)) : State :=
  sent.foldl (fun s p => settleSys (settleDie (settleUp s core p.1 p.2) (dieOf core) p.1 p.2) p.1 p.2) s

/-- Replaces the ix-th fabric operation of a core. -/
def setFab (s : State) (core ix : Nat) (op : FabOp) : State :=
  let c := getCore s core
  setCore s core { c with fabric := lSet c.fabric ix op }

/-- Where the destination of an XPUT or XGET stands in its first aligned 8-byte word. A handle's object is aligned. -/
def FabOp.skew (op : FabOp) : Nat :=
  let a := if op.kind == .xput then op.fb.far else op.fb.loc
  if op.kind == .xput && isHandle a then 0 else a.toNat % 8

/-- The aligned destination words that an XPUT or XGET touches. -/
def FabOp.words (op : FabOp) : Nat := (op.fb.len + op.skew + 7) / 8

/-- The part of aligned destination word i that is written: its offset from the first byte, and its length. -/
def FabOp.span (op : FabOp) (i : Nat) : Nat × Nat :=
  let lo := 8 * i - op.skew
  (lo, min op.fb.len (8 * i + 8 - op.skew) - lo)

/-- Aligned destination word i of an XPUT or XGET moves (R387), with the operation's new record: an access that fails sets its status. -/
def moveWord (s : State) (op : FabOp) (i : Nat) : State × FabOp :=
  let b := op.fb
  let put := op.kind == .xput
  let at' := op.span i
  match fabRead s op put (if put then b.loc else b.far) at'.1 at'.2 with
  | .error e => (s, { op with status := some e })
  | .ok bs => match fabWrite s op (!put) (if put then b.far else b.loc) at'.1 bs with
    | .error e => (s, { op with status := some e })
    | .ok r => (r.1, { op with moved := op.moved ++ [i], sent := op.sent ++ r.2 })

/-- The words of a list move. -/
def moveWords : List Nat → State → FabOp → State × FabOp
  | [], s, op => (s, op)
  | i :: is, s, op =>
    if op.status.isSome || op.moved.contains i then moveWords is s op
    else let r := moveWord s op i; moveWords is r.1 r.2

/-- One word of an accepted XPUT or XGET of a core moves. -/
def moveFabricWord (s : State) (core ix word : Nat) : State :=
  match (getCore s core).fabric[ix]? with
  | none => s
  | some op =>
    if !op.accepted || op.kind == .xred || op.words ≤ word then s
    else let r := moveWords [word] s op; setFab r.1 core ix r.2

/-! ### Reductions (R389, R390) -/

/-- The place of a sequence number among the reductions. -/
def findRed (s : State) (group seq : Nat) : Option Nat := s.reds.findIdx? (fun r => r.group == group && r.seq == seq)

/-- The elements of a contribution. -/
def elemsOf (b : List Byte) (n : Nat) : List DWord := (List.range n).map (fun i => dwAt b (8 * i))

/-- All the contributions that a group's sequence number takes have arrived (R389). -/
def gathered (s : State) (r : Reduction) : Bool :=
  let n := (aGet {} s.groups r.group).n
  n != 0 && n ≤ r.parts.length

/-- A contribution arrives: it joins its sequence number, disagrees with it, or comes too late; the status where it fails at once. -/
def contribute (s : State) (group seq op : Nat) (xs : List DWord) : Option Nat × State :=
  match findRed s group seq with
  | none => (none, { s with reds := { group := group, seq := seq, op := op, len := xs.length, parts := [xs] } :: s.reds })
  | some i => match s.reds[i]? with
    | none => (none, s)
    | some r =>
      if r.bad || r.result.isSome || gathered s r then (some 2, s)
      else if r.op != op || r.len != xs.length then (some 2, { s with reds := lSet s.reds i { r with bad := true } })
      else (none, { s with reds := lSet s.reds i { r with parts := r.parts ++ [xs] } })

/-- sum96 of one element: the clamped sum, and whether it was clamped. -/
def sumElem (xs : List DWord) : DWord × Bool :=
  let acc := (xs.map (fun x => x.toInt)).foldl (· + ·) 0
  let r := clampInt (-(2 ^ 63)) (2 ^ 63 - 1) acc
  (BitVec.ofInt 64 r, r != acc)

/-- One vimax element beats another. -/
def beats (a b : DWord) : Bool :=
  let va := (loW a).toNat
  let vb := (loW b).toNat
  let na := f32.isNan va
  let nb := f32.isNan vb
  (!na && nb) || (!na && !nb && f32.numKey vb < f32.numKey va) ||
    (((na && nb) || (!na && !nb && f32.numKey va == f32.numKey vb)) && (hiW a).ult (hiW b))

/-- Two elements of different bits of which neither beats the other. -/
def tied (a b : DWord) : Bool := a != b && !beats a b && !beats b a

/-- An element with every NaN and -0 in one form. -/
def tieForm (a : DWord) : DWord :=
  let v := (loW a).toNat
  pairOf (if f32.isNan v then BitVec.ofNat 32 f32.nan else if v % 2 ^ 31 = 0 then 0 else loW a) (hiW a)

/-- vimax of one element: the one that beats every other. -/
def maxElem : List DWord → DWord
  | [] => 0
  | x :: xs =>
    let r := xs.foldl (fun a b => if beats b a then b else a) x
    if (x :: xs).any (tied r) then Config.vimaxTie (tieForm r) else r

/-- The combined elements of a reduction, and whether one was clamped. -/
def combine (r : Reduction) : List DWord × Bool :=
  let col (i : Nat) : List DWord := r.parts.map (fun p => p.getD i 0)
  if r.op = 0 then
    let xs := (List.range r.len).map (fun i => sumElem (col i))
    (xs.map (·.1), xs.any (·.2))
  else ((List.range r.len).map (fun i => maxElem (col i)), false)

/-- A result reaches the FAR of an operation that waits for it; a clamped one sets OFL in its cord, whatever becomes of the write (R389). -/
def deliver (s : State) (core ix : Nat) (res : List DWord × Bool) : State :=
  match (getCore s core).fabric[ix]? with
  | none => s
  | some op =>
    let s := if res.2 then orFlagsOf s op.cord fOFL else s
    match fabWrite s op true op.fb.far 0 ((res.1.take op.fb.len).flatMap (fun x => leBytes 8 x.toNat)) with
    | .error e => setFab s core ix { op with status := some e }
    | .ok r => setFab r.1 core ix { op with status := some 0, sent := r.2 }

/-- The accepted XREDs that wait for a sequence number, by core and place. -/
def redWaiters (s : State) (group seq : Nat) : List (Nat × Nat) :=
  s.cores.flatMap (fun e => (e.2.fabric.zipIdx.filter (fun p => p.1.kind == .xred && p.1.accepted && p.1.status.isNone &&
    p.1.fb.group == group && p.1.fb.seq == seq)).map (fun p => (e.1, p.2)))

/-- The held results of a group are its 16 most recently completed. -/
def heldFrom (s : State) (group i : Nat) : Bool :=
  ((s.reds.drop (i + 1)).filter (fun r => r.group == group && r.result.isSome)).length < 16

/-- Older results are dropped; that their sequence number has completed is kept. -/
def dropOld (s : State) (group : Nat) : State :=
  { s with reds := s.reds.zipIdx.map (fun p => if p.1.group == group && p.1.result.isSome && !heldFrom s group p.2
      then { p.1 with parts := [], result := some ([], false) } else p.1) }

/-- How an operation ends whose sequence number has failed: a contributor with FDESC, also where a save has made it a re-request; a
re-request that contributed nothing with STALE (log entry 39). -/
def FabOp.failed (op : FabOp) : Nat := if op.fb.fl % 2 = 1 then 6 else 2

/-- Where contributions disagree, every operation that waits on the sequence number ends. -/
def failRed (s : State) (group seq : Nat) : State :=
  if !(s.reds.any (fun r => r.group == group && r.seq == seq && r.bad)) then s
  else (redWaiters s group seq).foldl (fun s w => match (getCore s w.1).fabric[w.2]? with
    | some op => setFab s w.1 w.2 { op with status := some op.failed }
    | none => s) s

/-- The n contributions of a sequence number are combined, and the result reaches every contributor of this device (R389). -/
def combineRed (s : State) (group seq : Nat) : State :=
  match findRed s group seq with
  | none => s
  | some i => match s.reds[i]? with
    | none => s
    | some r =>
      if r.bad || r.result.isSome || !gathered s r then s
      else
        let res := combine r
        let s := { s with reds := lDel s.reds i ++ [{ r with parts := [], result := some res }] }
        (redWaiters s group seq).foldl (fun s w => deliver s w.1 w.2 res) (dropOld s group)

/-- XRED_COMBINE (R389): of the group and the sequence number in focus. -/
def execXredCombine (s : State) : Out := .next (combineRed s s.focus.ix s.focus.row)

/-! ### Issue, acceptance and completion (R386 to R388) -/

/-- Issues a fabric operation: a release at .sy; the block is captured. -/
def issueFabric (kind : FabKind) (w : SWord) (s : State) : Res :=
  once (fun w l s =>
    if tokenBusy s w then .wait .issue s
    else if !slotFree s (focusCord s) then .wait .slot s
    else
      let off := (opA1 s w l).toNat
      let ok := off % 64 == 0 && scratchIn (myCord s) off 64
      let (n, s) := nextSeq (startToken (release s 5) w)
      let op : FabOp := { id := n, cord := focusCord s, strand := focusStrand s, token := tokenOf w.d, kind := kind, off := off,
                          block := if ok then scratchRd (myCord s) off 64 else [],
                          bad := padPoison s (focusCord s) off 64 }
      .done (setMyCore s { myCore s with fabric := (myCore s).fabric ++ [op] })) w s

def execXred (w : SWord) (s : State) : Out := .next (runWord (.xred w) (issueFabric .xred) s)
def execXput (w : SWord) (s : State) : Out := .next (runWord (.xput w) (issueFabric .xput) s)
def execXget (w : SWord) (s : State) : Out := .next (runWord (.xget w) (issueFabric .xget) s)

/-- An accepted XRED takes a held result, waits, or contributes. -/
def acceptRed (s : State) (core ix : Nat) (op : FabOp) : State :=
  let b := op.fb
  let stop (s : State) (st : Nat) : State := setFab s core ix { op with accepted := true, status := some st }
  let wait (s : State) : State := setFab s core ix { op with accepted := true }
  if op.again then
    match findRed s b.group b.seq with
    | none => wait s
    | some i => match s.reds[i]? with
      | none => wait s
      | some r => match r.result with
        | some res => if heldFrom s b.group i then deliver (wait s) core ix res else stop s 6
        | none => if r.bad then stop s op.failed else wait s
  else
    let g : GroupEnt := aGet {} s.groups b.group
    match fabRead s op true b.loc 0 op.bytes with
    | .error e => stop s e
    | .ok bs =>
      if !g.root && routeMask s g.parent == 0 then stop s 5
      else
        match contribute s b.group b.seq b.op (elemsOf bs b.len) with
        | (some e, t) => failRed (stop t e) b.group b.seq
        | (none, t) => wait t

/-- FABRIC_ACCEPT (R388): of the core's ix-th fabric operation. FBND and FDESC are found here. -/
def execFabricAccept (s : State) : Out :=
  let core := s.focus.core
  let ix := s.focus.ix
  match (myCore s).fabric[ix]? with
  | none => .next s
  | some op =>
    let stop (st : Nat) : State := setFab s core ix { op with accepted := true, status := some st }
    .next (if op.accepted then s
      else if op.block.isEmpty then stop 1
      else if op.bad then stop 4
      else if fabOut s op then stop 1
      else if op.badFields then stop 2
      else if op.kind == .xred then acceptRed s core ix op
      else setFab s core ix { op with accepted := true })

/-- The engine trap of a status (R388). -/
def fabTrap (st : Nat) : TrapCode := match st with | 1 => .copybnd | 3 => .memfault | 4 => .poison | 5 => .memfault | _ => .desc

/-- FABRIC_COMPLETE (R387, R388): the words left move, and what went to a peer reaches its memory; then the token is written, whose read is
an acquire at .sy, and a nonzero status is an engine trap. An XRED that still waits for its result stays. -/
def execFabricComplete (s : State) : Out :=
  let core := s.focus.core
  match (myCore s).fabric[s.focus.ix]? with
  | none => .next s
  | some op =>
    if !op.accepted || (op.kind == .xred && op.status.isNone) then .next s
    else
      let r := if op.kind == .xred then (s, op) else moveWords (List.range op.words) s op
      let st := r.2.status.getD 0
      let u := settleSent r.1 core r.2.sent
      let c := getCore u core
      let t := writeToken (setCore u core { c with fabric := lDel c.fabric s.focus.ix }) op.strand op.token (BitVec.ofNat 32 st) 5
      .next (if st = 0 then t
        else recordTrap t op.strand { code := fabTrap st, cls := .engine, addr := BitVec.ofNat 64 (2 ^ 63 + op.off), aux := BitVec.ofNat 64 st })

/-! ### Traffic and ports (R384, R387, R393) -/

/-- A peer may write some bytes of this device's memory: its near store, or its pool under a live key, where that stands (R198, R199,
R388). -/
def peerMay (s : State) (key n : Nat) : Bool :=
  (List.range n).all (fun i => tierOf (key + i) ≤ 1 && backed s (tierOf (key + i)) (paOf (key + i)) &&
    extLive s (tierOf (key + i)) (extOf (key + i)))

/-- TIRRAL_FLIT (R387, R389): a peer's traffic is served at this device's memory. A read leaves nothing behind here. A write that this
device's memory does not back fails at the peer and writes nothing, and in recovery no traffic is served (R403). -/
def execTirralFlit (f : Flit) (s : State) : Out :=
  .next (if s.mgmt.state = 3 then s else match f with
    | .put key bytes => if peerMay s key bytes.length then settleSys (devWr s key bytes) key bytes.length else s
    | .get _ _ => s
    | .contribution group seq op elems =>
      match contribute s group seq op elems with
      | (some _, t) => failRed t group seq
      | (none, t) => t
    | .unreachable core ix =>
      match (getCore s core).fabric[ix]? with
      | some o => if o.accepted && o.status.isNone then setFab s core ix { o with status := some 5 } else s
      | none => s)

/-- FLIT_RETRANSMIT (R384): the flit is delivered once; the event is a corrected soft error. -/
def execFlitRetransmit (_port : Nat) (s : State) : Out := .next (countErrors s 1 0)

/-- An accepted XRED whose contribution or result can no longer travel. -/
def cutOff (s : State) (op : FabOp) : Bool :=
  let g : GroupEnt := aGet {} s.groups op.fb.group
  op.kind == .xred && op.accepted && op.status.isNone && !g.root && routeMask s g.parent == 0

/-- TIRRAL_PORT_FAILURE (R393): a failed port takes no new traffic, and operations that cannot be rerouted end UNREACH: those that
move words find it at their next word. A port that has lost lanes runs on. -/
def execTirralPortFailure (port : Nat) (lost : Bool) (s : State) : Out :=
  if lost && port < 8 && !s.portsLost.contains port then
    let s := { s with portsLost := s.portsLost ++ [port] }
    .next { s with cores := s.cores.map (fun e => (e.1, { e.2 with fabric := e.2.fabric.map (fun o =>
      if cutOff s o then { o with status := some 5 } else o) })) }
  else if port < 8 && !lost && !s.portsNarrow.contains port then .next { s with portsNarrow := s.portsNarrow ++ [port] }
  else .next s

end Sys2Proof.Machine
end

