-- ==== Sys2Proof/Machine/Tasks.lean ====
section
/-! DEFINITION. Task records, queues, and the task instructions (R318 to R333): strand opcodes 0xC0 to 0xC3, 0xC6 and 0xC7, with the
event TSPN_ROOM. -/

namespace Sys2Proof.Machine

/-! ### Records (R318) -/

/-- The record of 64 bytes. -/
def TaskRec.ofBytes (b : List Byte) : TaskRec :=
  { khdr := dwAt b 0, arg := dwAt b 8, wid := dwAt b 16, succ := dwAt b 24, join := BitVec.ofNat 32 (leAt b 32 4),
    ctl := BitVec.ofNat 32 (leAt b 36 4), save := dwAt b 40, energy := BitVec.ofNat 32 (leAt b 48 4),
    rsv := BitVec.ofNat 32 (leAt b 52 4), link := dwAt b 56 }

/-- The 64 bytes of a record. -/
def TaskRec.toBytes (r : TaskRec) : List Byte :=
  leBytes 8 r.khdr.toNat ++ leBytes 8 r.arg.toNat ++ leBytes 8 r.wid.toNat ++ leBytes 8 r.succ.toNat ++ leBytes 4 r.join.toNat ++
    leBytes 4 r.ctl.toNat ++ leBytes 8 r.save.toNat ++ leBytes 4 r.energy.toNat ++ leBytes 4 r.rsv.toNat ++ leBytes 8 r.link.toNat

/-- The fields of CTL. -/
def TaskRec.pri (r : TaskRec) : Nat := natBits r.ctl.toNat 0 4
def TaskRec.queue (r : TaskRec) : Nat := natBits r.ctl.toNat 4 8
def TaskRec.gang (r : TaskRec) : Bool := r.ctl.getLsbD 12
def TaskRec.resume (r : TaskRec) : Bool := r.ctl.getLsbD 13

/-- Reserved bits are set. -/
def TaskRec.bad (r : TaskRec) : Bool := natBits r.ctl.toNat 14 18 != 0 || r.rsv != 0

/-- A CTL word of its fields. -/
def mkCtl (pri queue : Nat) (gang resume : Bool) : Word :=
  BitVec.ofNat 32 (pri + 16 * queue + 4096 * gang.toNat + 8192 * resume.toNat)

/-- A record with another level. -/
def TaskRec.atLevel (r : TaskRec) (l : Nat) : TaskRec := { r with ctl := BitVec.ofNat 32 (r.ctl.toNat / 16 * 16 + l % 16) }

/-! ### Queues (R319) -/

/-- The FIFO of a queue and a level. -/
def fifoKey (q level : Nat) : Nat := 16 * q + level
def getFifo (s : State) (q level : Nat) : List QRec := aGet [] s.fifos (fifoKey q level)
def setFifo (s : State) (q level : Nat) (l : List QRec) : State := { s with fifos := aSet s.fifos (fifoKey q level) l }

/-- A queue is bound to a job (R319, R400). -/
def queueBound (s : State) (q job : Nat) : Bool := match aGet? s.queues q with
  | some e => e.valid && e.job == job
  | none => false

/-- The records of all sixteen FIFOs. -/
def occupancy (s : State) (q : Nat) : Nat := ((List.range 16).map (fun l => (getFifo s q l).length)).sum

/-- The queue is full. -/
def queueFull (s : State) (q : Nat) : Bool := (aGet {} s.queues q).capacity ≤ occupancy s q

/-- A record goes to the tail of its FIFO. -/
def pushItem (s : State) (q level : Nat) (x : QItem) : State := setFifo s q level (getFifo s q level ++ [{ item := x }])

/-- A task record is pushed to its own queue and level. -/
def pushTask (s : State) (r : TaskRec) : State := pushItem s r.queue r.pri (.task r true)

/-! ### Waiting records (R325, R330) -/

/-- Decrements the waiting record at an address for a job, from a core or from the device itself: whether it was pushed. -/
def decrement (s : State) (core : Option Nat) (job : Nat) (a : DWord) : Except TrapCode (Bool × State) :=
  if a.toNat % 64 != 0 then .error .align
  else match placeAt s core job a 0 64 .rd, placeAt s core job a 0 64 .wr with
    | .ok p, .ok _ =>
      if poisonHit s p.key 64 then .error .poison
      else
        let s := match core, p.tlb with | some c, some t => cacheTlb s c t | _, _ => s
        let r := TaskRec.ofBytes (devRdN s p.key 64)
        if r.join = 0 || !queueBound s r.queue job then .error .memfault
        else
          let bs := leBytes 4 (r.join.toNat - 1)
          let q : Place := { p with key := p.key + 32 }
          let t := match core with
            | some c => (atomicAt s c 4 q 4 (fun _ => some bs)).2
            | none => devWr s q.key bs
          .ok (r.join == 1, if r.join = 1 then pushTask t { r with join := 0 } else t)
    | .error c, _ => .error c
    | _, .error c => .error c

/-! ### TSPN (R328) -/

/-- What a lane of TSPN finds at its record. -/
inductive Spawn where
  | fault (c : TrapCode)
  | full
  | room (r : TaskRec)

/-- A record offset is usable, or the lane's fault. -/
def recordFault (s : State) (off : Nat) : Option TrapCode :=
  if off % 64 != 0 then some .align else if !scratchIn (myCord s) off 64 then some .memfault else none

/-- Looks at the record of a lane. -/
def spawnAt (s : State) (off : Nat) : Spawn :=
  match recordFault s off with
  | some c => .fault c
  | none =>
    let r := TaskRec.ofBytes (scratchRd (myCord s) off 64)
    if padPoison s (focusCord s) off 64 then .fault .poison
    else if !queueBound s r.queue (myJob s) || r.resume || r.join != 0 then .fault .memfault
    else if queueFull s r.queue then .full
    else .room r

/-- How pushing lanes ended: the lanes with what p[D] receives, the faults, and the lane that found its queue full in the blocking
form. -/
structure Pushed where
  wrote  : List (Lane × Bool) := []
  faults : List (Lane × TrapCode × DWord × DWord) := []
  stop   : Option Lane := none

/-- Lanes push in ascending order. -/
def spawnLanes (isTry : Bool) (off : Lane → Nat) : List Lane → State → Pushed → State × Pushed
  | [], s, r => (s, r)
  | l :: ls, s, r =>
    match spawnAt s (off l) with
    | .fault c => spawnLanes isTry off ls s { r with faults := r.faults ++ [(l, c, BitVec.ofNat 64 (off l), 0)] }
    | .full =>
      if isTry then spawnLanes isTry off ls s { r with wrote := r.wrote ++ [(l, true)] } else (s, { r with stop := some l })
    | .room t => spawnLanes isTry off ls (pushTask s t) { r with wrote := r.wrote ++ [(l, false)] }

/-- TSPN: the push is a release at .dv. A stalled word goes on from the lane that it stalled at. -/
def tspnBody (w : SWord) (s : State) : Res :=
  let isTry := w.bits 0 1 == 1
  let one := onceFor [w.a]
  let en := enabled s w
  let c := curClause s
  let from' : Nat := match myStall s with | some (.tspn n) => n | _ => 0
  let ls := (accessLanes one w s).filter (fun l => one || from' ≤ l.val)
  if ls.isEmpty then .done s
  else
    let r := spawnLanes isTry (fun l => (opA1 s w l).toNat) ls (release s 4) {}
    let m := maskFor one en (r.2.wrote.map (·.1))
    let t := if isTry then setMe r.1 (putP (me r.1) w.d.toNat m (byLane one false r.2.wrote)) else r.1
    let t := faultHere t c (r.2.faults.flatMap (fun f => if one then (lanesOf en).map (fun l => (l, f.2)) else [f]))
    match r.2.stop with
    | some l => .wait (.tspn l.val) t
    | none => .done t

def execTspn (w : SWord) (s : State) : Out := .next (runWord (.tspn w) tspnBody s)

/-! ### TSTL (R329) -/

/-- A record that a steal may take: pushed by TSPN or by a decrement. -/
def QRec.stealable (q : QRec) : Option TaskRec := match q.item with
  | .task r true => some r
  | _ => none

/-- The oldest record that may be taken in a FIFO, with the others. -/
def stealFrom : List QRec → Option (TaskRec × List QRec)
  | [] => none
  | q :: qs => match q.stealable with
    | some r => some (r, qs)
    | none => (stealFrom qs).map (fun x => (x.1, q :: x.2))

/-- Takes the oldest record of the highest level of a queue that has one, from a level down. -/
def stealLevel (s : State) (q : Nat) : Nat → Option (TaskRec × State)
  | 0 => none
  | n + 1 => match stealFrom (getFifo s q n) with
    | some (r, l) => some (r, setFifo s q n l)
    | none => stealLevel s q n

/-- A lane of TSTL. -/
def tstlLane (w : SWord) (s0 : State) (s : State) (l : Lane) : LaneRes :=
  let off := (opA1 s0 w l).toNat
  let q := (opB1 s0 w l).toNat
  match recordFault s off with
  | some c => .fault c (BitVec.ofNat 64 off) 0 s
  | none =>
    if 255 < q || !queueBound s q (myJob s) then .fault .memfault (BitVec.ofNat 64 off) 0 s
    else match stealLevel s q 16 with
      | none => .done 0 true s
      | some (r, t) => .done 0 false (acquire (scratchWr t (focusCord t) off r.toBytes) 4)

/-- TSTL: its writes of the scratchpad follow the strand's earlier stores. -/
def tstlBody (w : SWord) (s : State) : Res :=
  let t := if enabled s w = 0 then s else drain s (focusStrand s)
  objectWord (onceFor [w.a, w.b]) id 0 (some w.d.toNat) (tstlLane w s) w t

def execTstl (w : SWord) (s : State) : Out := .next (runWord (.tstl w) tstlBody s)

/-! ### TDEC, TEND, ENRD and GCND (R330 to R333) -/

/-- A lane of TDEC. -/
def tdecLane (w : SWord) (s0 : State) (s : State) (l : Lane) : LaneRes :=
  let a := opA2 s0 w l
  match decrement s (some s.focus.core) (myJob s) a with
  | .error c => .fault c a 0 s
  | .ok (b, t) => .done 0 b t

/-- TDEC: a release at .dv. -/
def tdecBody (w : SWord) (s : State) : Res :=
  let t := if enabled s w = 0 then s else release s 4
  objectWord (onceFor [w.a]) id 0 (some w.d.toNat) (tdecLane w s) w t

def execTdec (w : SWord) (s : State) : Out := .next (runWord (.tdec w) tdecBody s)

/-- A strand of a cord that TEND has ended leaves: at its clause boundary, or where it waits; with its handler, which is abandoned
(R331). -/
def Strand.tendStop (t : Strand) : Strand :=
  let between := match t.handler with
    | some h => h.clause.isNone || h.stall.isSome || t.waitHdr.isSome
    | none => t.clause.isNone || t.stall.isSome || t.waitHdr.isSome
  if between && !t.ended then t.stop else t

/-- TEND takes effect in every strand of the cord that stands at a clause boundary or waits; the failure that recorded traps would
make is discarded with them. -/
def endTask (s : State) (cord : Nat) : State :=
  let s := setCord s cord { getCord s cord with tend := true, sticky := 0, failure := none }
  (strandKeys s cord).foldl (fun s k => setStrand s k (getStrand s k).tendStop) s

/-- TEND (R331). -/
def tendBody (w : SWord) (s : State) : Res := once (fun _ _ s => .done (endTask s (focusCord s))) w s

def execTend (w : SWord) (s : State) : Out := .next (runWord (.tend w) tendBody s)

/-- Measured energy as a w64, which never decreases: past 2^64 - 1 it stays there (R332). -/
def energyWord (e : Nat) : DWord := BitVec.ofNat 64 (min e (2 ^ 64 - 1))

/-- ENRD (R332): the energy measured so far, which the controller brings up to date. -/
def enrdBody (w : SWord) (s : State) : Res :=
  once (fun w _ s =>
    let c := myCord s
    let e := c.energy + Config.measuredEnergy s.free
    .done (putD (setMyCord s { c with energy := e }) w 2 (energyWord e))) w s

def execEnrd (w : SWord) (s : State) : Out := .next (runWord (.enrd w) enrdBody s)

/-- GCND (R333): a store of B as STRL.w32.dv makes it, a release at .dv; a base pair that holds 0 is the null handle (R218). -/
def gcndBody (w : SWord) (s : State) : Res :=
  once (fun w l s =>
    let a := opA2 s w l
    let place := if a = 0 && w.a != 0xF0 then .error .memfault else placeAt s (some s.focus.core) (myJob s) a 0 4 .wr
    storeWith false 4 true [(l, a, place)] (fun l => leBytes 4 (opB1 s w l).toNat) w s) w s

def execGcnd (w : SWord) (s : State) : Out := .next (runWord (.gcnd w) gcndBody s)

end Sys2Proof.Machine
end

