-- ==== Sys2Proof/Machine/Preempt.lean ====
section
/-! DEFINITION. Spatial pre-emption (R370 to R376): the choice of cores, stopping a cord, the save and the restore, with the event
CORD_SAVE. VACATE and COREOFF, the commands that ask for it, stand in Machine/Commands.lean. -/

namespace Sys2Proof.Machine

/-! ### Charging and energy (R322, R324) -/

/-- Saturation to 64 bits with a sign. -/
def satS64 (x : Int) : Int := clampInt (-(2 ^ 63)) (2 ^ 63 - 1) x

/-- A cord's queue is charged for its core cycles since the start or the restore (R322). -/
def chargeQueue (s : State) (cord : Nat) : State :=
  let c := getCord s cord
  let used := (getCore s (cord / 16)).cycles - c.start
  let cost := (used * c.nstr + 63) / 64
  { s with deficit := aMod 0 s.deficit c.queue (fun d => satS64 (d - cost)) }

/-- Energy is reconciled with what the controller measured since the start or the restore (R324). -/
def reconcile (s : State) (cord : Nat) : State :=
  let c := getCord s cord
  let e := c.energy + Config.measuredEnergy s.free
  let s := { setCord s cord { c with energy := e } with free := s.free + 1 }
  { s with credit := aMod 0 s.credit c.queue (fun x => x + (c.estimate : Int) - ((e - c.energy0 : Nat) : Int)) }

/-! ### The save area (R373) -/

/-- The bytes that a save of a cord uses: header, strands, cord state, scratchpad and silt. The layout past the header, and so the
size, is the device's own (log entry 30). -/
def saveBytes (s : State) (cord : Nat) : Nat :=
  let c := getCord s cord
  let strand (k : Nat) : Nat := let t := getStrand s k; 128 * (t.base + if t.ext then 128 else 0) + 1024
  64 + ((strandKeys s cord).map strand).sum + 4096 + c.hdr.scratch + 9600 * c.hdr.silt

/-- The least class of at least n bytes. -/
def classFor (n : Nat) : Nat := if n ≤ 64 then 0 else bitLen (n - 1) - 6

/-- Allocates a save area: tier 0, or tier 1 when tier 0 cannot hold it after reclaim. -/
def allocArea (s : State) (cord : Nat) : Option (DWord × State) :=
  let job := (getCord s cord).job
  let cls := classFor (saveBytes s cord)
  match allocate s job 0 cls 15 with
  | some r => some r
  | none => allocate (afterFailed s job 0) job 1 cls 15

/-- Drops a strong handle as OREL does (R229). -/
def dropHandle (s : State) (job : Nat) (h : DWord) : State := match checkHandle s job h .strong with
  | .alive i _ => (changeCount s job i true false).getD s
  | _ => s

/-! ### Choosing cores (R370) -/

/-- The highest level that runs on a core, plus one; 0 for none. -/
def coreLevel (s : State) (core : Nat) : Nat := ((coreCords s core).map (fun k => (getCord s k).level + 1)).foldl max 0

/-- The core whose highest running level is lowest among the candidates of a list, lowest id first. -/
def bestCore (s : State) (level : Nat) : List Nat → Option Nat
  | [] => none
  | c :: cs =>
    let r := bestCore s level cs
    if !s.present.getLsbD c || s.mgmt.off.contains c || level < coreLevel s c then r
    else match r with
      | some d => if coreLevel s c ≤ coreLevel s d then some c else some d
      | none => some c

/-- Allocates the save areas of some cords, unless they are being stopped already, and marks them as being stopped. Where one cannot be
held, the others are dropped again and no cord is stopped. -/
def stopCords : List Nat → State → Bool × State
  | [], s => (true, s)
  | k :: ks, s =>
    let job := (getCord s k).job
    if (getCord s k).stopping then stopCords ks s
    else match allocArea s k with
    | none => (false, afterFailed (afterFailed s job 0) job 1)
    | some (h, t) =>
      let r := stopCords ks (setCord t k { getCord t k with stopping := true, area := h })
      if r.1 then r else (false, dropHandle (setCord r.2 k { getCord r.2 k with stopping := false, area := 0 }) job h)

/-- The cords of a core that run. -/
def runningCords (s : State) (core : Nat) : List Nat :=
  (coreCords s core).filter (fun k => (strandKeys s k).any (fun i => !(getStrand s i).ended))

/-- A core is vacated for a level: an earlier request that still stands keeps its level where that is higher (log entry 47). -/
def vacate (s : State) (core level : Nat) : State :=
  { s with mgmt := { s.mgmt with vacated := aMod 0 s.mgmt.vacated core (max level) } }

/-- Chooses up to k cores, with n left to look at (R370): the cores chosen and the state. A core whose cords cannot all be saved is
passed over. -/
def chooseCores (level : Nat) : Nat → Nat → List Nat → State → Nat × State
  | 0, _, _, s => (0, s)
  | _, 0, _, s => (0, s)
  | n + 1, k + 1, skip, s =>
    match bestCore s level ((List.range 128).filter (fun c => !skip.contains c)) with
    | none => (0, s)
    | some c =>
      let t := stopCords (runningCords s c) s
      if t.1 then
        let r := chooseCores level n k (c :: skip) (vacate t.2 c level)
        (r.1 + 1, r.2)
      else chooseCores level n (k + 1) (c :: skip) t.2

/-! ### Stopping (R371) -/

/-- A strand has stopped: between clauses, or where it waits. -/
def Strand.stopped (t : Strand) : Bool := t.ended || (match t.handler with
  | some h => h.clause.isNone || h.stall.isSome || t.waitHdr.isSome
  | none => t.clause.isNone || t.stall.isSome || t.waitHdr.isSome)

/-- Everything that must be over before the save is over: strands have stopped, accepted copies and fabric moves are complete, an
ended call is complete, as is one that has exceeded its budget, and no BTINV waits. -/
def saveReady (s : State) (cord : Nat) : Bool :=
  let c := getCore s (cord / 16)
  (getCord s cord).stopping && (strandKeys s cord).all (fun k => (getStrand s k).stopped) &&
    (strandKeys s cord).any (fun k => !(getStrand s k).ended) &&
    c.copies.all (fun o => o.cord != cord) &&
    c.fabric.all (fun o => o.cord != cord || !o.accepted || (o.kind == .xred && o.status.isNone)) &&
    (match c.run with | some r => r.call.cord != cord || (r.ended.isNone && !r.over s) | none => true) &&
    s.btinvs.all (fun b => b.cord != cord)

/-- Every result of the cord is written, and its stores and its call's stores commit and reach the device point. -/
def quiesceCord (s : State) (cord : Nat) : State :=
  let core := cord / 16
  let s := (strandKeys s cord).foldl (fun s k => drain (onStrand s k settleAll) k) s
  let f := s.focus
  let s := match (getCore s core).run with
    | some r => if r.call.cord = cord then
        let t := drainCap (settleCap { s with focus := { f with core := core } })
        { t with focus := f }
      else s
    | none => s
  flush s core 4

/-! ### The save (R371 to R373) -/

/-- A withdrawn copy: an arrival that it names is counted in the saved barrier (R375). -/
def CopyOp.withdrawn (o : CopyOp) : CopyOp := { o with counted := o.counted || (!o.isChain && o.namesBar) }

/-- The barriers of a cord count the arrivals that its withdrawn records name (R375). -/
def countWithdrawn (s : State) (cord : Nat) : State :=
  ((getCore s (cord / 16)).issuedCp.filter (fun o => o.cord == cord && !o.isChain && o.namesBar && !o.counted)).foldl
    (fun s o => engineNames s cord o.cr.bar) s

/-- A withdrawn fabric operation: an XRED that has contributed is reissued as a re-request (R391). -/
def FabOp.withdrawn (o : FabOp) : FabOp := { o with accepted := false, rereq := o.rereq || o.accepted }

/-- What a cord's save holds. A restored call that has not started again is saved as the running call that it was. -/
def savedOf (s : State) (cord : Nat) : Saved :=
  let c := getCord s cord
  let core := getCore s (cord / 16)
  let mine (b : Bank) : Option Bank := if b.owner = some cord then some b else none
  let again := core.resumed.find? (·.run.call.cord == cord)
  { handle := c.area, key := cord, partner := c.partner.map (fun p => (getCord s p).recAddr), cord := { c with stopping := false, area := 0 },
    strands := (strandKeys s cord).map (fun k => (getStrand s k).unblock),
    run := (core.run.filter (fun r => r.call.cord == cord)).orElse (fun _ => again.map (·.run)),
    calls := core.chain.filter (fun x => x.cord == cord && !again.any (fun a => a.run.call.id == x.id)),
    issued := core.issuedCl.filter (·.cord == cord),
    copies := (core.issuedCp.filter (·.cord == cord)).map CopyOp.withdrawn,
    fabric := (core.fabric.filter (·.cord == cord)).map FabOp.withdrawn,
    clay := (again.map (·.clay)).getD [] ++ core.clay.filterMap (fun e => match e.2.tag with
      | some t => if t.cord = cord && t.gen != vocabGen then some { key := e.1, tag := t, how := e.2.how } else none
      | none => none),
    knots := core.knots.filter (fun e => e.2.owner == some cord), rowBank := mine core.rowBank, colBank := mine core.colBank }

/-- A cord leaves its core: strands, issued and queued work and matrix state. -/
def dropCord (s : State) (cord : Nat) : State :=
  let k := cord / 16
  let c := getCore s k
  let own (x : Nat) : Bool := x / 32 == cord
  let c := unownMatrix { c with
    xacq := c.xacq.filter (fun x => !own x), issuedCp := c.issuedCp.filter (·.cord != cord), copies := c.copies.filter (·.cord != cord),
    issuedCl := c.issuedCl.filter (·.cord != cord), chain := c.chain.filter (·.cord != cord),
    resumed := c.resumed.filter (·.run.call.cord != cord), run := c.run.filter (·.call.cord != cord),
    fabric := c.fabric.filter (·.cord != cord) } cord
  let s := setCore s k c
  { s with cords := aDel s.cords cord, strands := s.strands.filter (fun e => !own e.1), consts := s.consts.filter (·.cord != cord) }

/-- The first 64 bytes of a save area. LEVEL is CAPS. -/
def areaHeader (s : State) (cord : Nat) : List Byte :=
  let c := getCord s cord
  leBytes 4 1 ++ leBytes 4 c.nstr ++ leBytes 8 (saveBytes s cord) ++ leBytes 8 c.task.khdr.toNat ++ leBytes 8 (cord / 16) ++
    leBytes 8 ((c.partner.map (fun p => (getCord s p).recAddr)).getD 0).toNat ++ List.replicate 24 0

/-- The record of a saved cord goes to the head of its level's FIFO. -/
def requeue (s : State) (v : Saved) : State :=
  let c := v.cord
  let r : TaskRec := { c.task with ctl := mkCtl c.level c.queue c.task.gang true, save := v.handle }
  setFifo s c.queue c.level ({ item := .task r false } :: getFifo s c.queue c.level)

/-- What a save changes before the cord leaves its core: the queue is charged, energy reconciled and withdrawn arrivals counted. -/
def settleCord (s : State) (cord : Nat) : State := countWithdrawn (reconcile (chargeQueue s cord) cord) cord

/-- The header of a cord's save area is written. -/
def writeArea (s : State) (cord : Nat) : State :=
  match handlePlace s (getCord s cord).job (getCord s cord).area 0 64 with
  | .ok p => devWr s p.key (areaHeader s cord)
  | .error _ => s

/-- CORD_SAVE (R373): the cord in focus, and its partner with it. Both states and both headers, each of which names the other record, are
written before either cord leaves the core; the token holder's record goes to the head and its partner's directly behind it. -/
def execCordSave (s : State) : Out :=
  let k := focusCord s
  let pair : List Nat := match (getCord s k).partner with
    | some p => if (getCord s k).token then [k, p] else [p, k]
    | none => [k]
  if !pair.all (saveReady s) then .next s
  else
    let s := pair.foldl writeArea (pair.foldl settleCord (pair.foldl quiesceCord s))
    let vs := pair.map (savedOf s)
    let t := pair.foldl dropCord s
    .next (vs.reverse.foldl requeue { t with saved := t.saved ++ vs })

/-! ### The restore (R374) -/

/-- A key of a strand moved with its cord. -/
def rekey (old new k : Nat) : Nat := if k / 32 = old then new * 32 + k % 32 else k

/-- A channel moved with its cord. -/
def Channel.moved (old new : Nat) (h : Channel) : Channel :=
  { h with owner := rekey old new h.owner, nextHd := h.nextHd.map (fun x => (x.1, rekey old new x.2)),
           walks := h.walks.map (fun w => { w with strand := rekey old new w.strand, owner := rekey old new w.owner }) }

/-- A call moved with its cord. -/
def Call.moved (old new : Nat) (c : Call) : Call := { c with cord := new, strand := rekey old new c.strand }

/-- Restores a saved cord at a key: its state is written, as an acquire at .dv; calls re-enter the chain, withdrawn work is reissued,
and the save area's handle is dropped. -/
def restoreCord (s : State) (v : Saved) (new : Nat) : State :=
  let k := new / 16
  let s := refresh s k 4
  let c := { v.cord with
    start := (getCore s k).cycles, energy0 := v.cord.energy, partner := none,
    chans := v.cord.chans.map (fun e => (e.1, e.2.moved v.key new)) }
  let s := setCord s new c
  let s := v.strands.zipIdx.foldl (fun s t => setStrand s (new * 32 + t.2) t.1.postHeld.syncMail.wake) s
  let run := v.run.map (fun r => { r with call := r.call.moved v.key new, seen := [] })
  let clay := v.clay.map (fun e => { e with tag := { e.tag with cord := new } })
  let own (b : Option Bank) (old : Bank) : Bank := match b with | some x => { x with owner := some new } | none => old
  let x := getCore s k
  let s := setCore s k { x with
    chain := x.chain ++ (run.map (·.call)).toList ++ v.calls.map (·.moved v.key new),
    resumed := x.resumed ++ (run.map (fun r => ({ run := r, clay := clay } : Resumed))).toList,
    issuedCl := x.issuedCl ++ v.issued.map (·.moved v.key new),
    issuedCp := x.issuedCp ++ v.copies.map (fun o => { o with cord := new, strand := rekey v.key new o.strand }),
    fabric := x.fabric ++ v.fabric.map (fun o => { o with cord := new, strand := rekey v.key new o.strand }),
    knots := v.knots.foldl (fun m e => aSet m e.1 { e.2 with owner := some new }) x.knots,
    rowBank := own v.rowBank x.rowBank, colBank := own v.colBank x.colBank }
  let s := if run.isNone then (reloadSaved k clay s).2 else s
  let s := { s with saved := s.saved.filter (fun w => w.handle != v.handle) }
  dropHandle s v.cord.job v.handle

/-! ### Messages to a task by its record (R313, R341, R343) -/

/-- The strand of a running or saved task takes a device message; none where there is no such task of the job, or no such strand. -/
def postToTask (s : State) (job : Nat) (target : DWord) (i : Nat) (m : DWord) : Option State :=
  match s.cords.find? (fun e => e.2.recAddr == target && e.2.job == job && e.2.recAddr != 0) with
  | some e => if i < e.2.nstr then some (postDevice s (e.1 * 32 + i) m) else none
  | none =>
    match s.saved.findIdx? (fun v => v.cord.recAddr == target && v.cord.job == job) with
    | none => none
    | some n => match s.saved[n]? with
      | none => none
      | some v =>
        if i < v.cord.nstr then
          let t := (v.strands[i]?).getD {}
          some { s with saved := lSet s.saved n { v with strands := lSet v.strands i { t with heldMsg := some m } } }
        else none

end Sys2Proof.Machine
end

