-- ==== Sys2Proof/Machine/Graph.lean ====
section
/-! DEFINITION. Graphs and the host path (R334 to R344, R354): the submission entries RUN, POST, WATCH and BADENTRY, the nodes, the end
of an instance, completion records, and the coalescer's INTERRUPT_THRESHOLD. -/

namespace Sys2Proof.Machine

/-! ### Completion records (R342, R394, R396) -/

/-- An interrupt is raised on a vector. -/
def raiseIrq (s : State) (vec : Nat) : State := { s with irqs := aMod 0 s.irqs vec (· + 1) }

/-- The key of a byte of host memory. -/
def hostKey (a : Nat) : Nat := physKey 2 0 (a % 2 ^ 48)

/-- Writes the records that the completion ring has room for, n of them at most. Without a ring none is written. -/
def flushRecords : Nat → State → State
  | 0, s => s
  | n + 1, s => match s.records with
    | [] => s
    | b :: bs =>
      let m := s.mgmt
      if m.crsize = 0 then flushRecords n { s with records := bs }
      else if m.state != 2 || 2 ^ m.crsize.toNat ≤ m.crtail - m.crhead then s
      else
        let k := hostKey (m.crbase.toNat + 32 * (m.crtail % 2 ^ m.crsize.toNat))
        let s := flushSys (devWr { s with records := bs } k b)
        flushRecords n (raiseIrq { s with mgmt := { s.mgmt with crtail := s.mgmt.crtail + 1 } } 64)

/-- The 32 bytes of a completion record. -/
def crBytes (seq kind status trap : Nat) (tag : DWord) (detail : Nat) : List Byte :=
  leBytes 8 seq ++ leBytes 1 kind ++ leBytes 1 status ++ leBytes 1 trap ++ List.replicate 5 0 ++ leBytes 8 tag.toNat ++ leBytes 8 detail

/-- An entry is finished: its record is written, or held until the ring has room. -/
def putRecord (s : State) (seq kind status trap : Nat) (tag : DWord) (detail : Nat) : State :=
  flushRecords (s.records.length + 1) { s with records := s.records ++ [crBytes seq kind status trap tag detail] }

/-! ### Instances -/

/-- Replaces an instance. -/
def setInst (s : State) (i : Nat) (g : GInst) : State := { s with insts := aSet s.insts i g }

/-- The graph unit's accesses for a job. -/
def graphAgent (job : Nat) : Agent := { core := none, job := job, who := .unit }

/-- An instance fails (R338): the first cause stands, and no further node starts. -/
def failInst (s : State) (i : Nat) (status trap node : Nat) : State := match aGet? s.insts i with
  | none => s
  | some g => setInst s i { g with ready := [], failed := some (g.failed.getD (status, trap, node)) }

/-- Reads a number of n bytes of an instance. -/
def gRd (s : State) (g : GInst) (off n : Nat) : Option Nat := match (graphAgent g.job).read s g.addr off n with
  | .bytes b => some (leNat b)
  | _ => none

/-- Writes a number of n bytes of an instance. -/
def gWr (s : State) (g : GInst) (off n v : Nat) : Option State :=
  (piecesAt s (graphAgent g.job) g.addr off n .wr).map (fun ps => (graphAgent g.job).wrAll s ps (leBytes n v))

/-- The instance's own memory cannot be reached: BADPGB (R338). -/
def orBad (s : State) (i : Nat) (r : Option State) : State := r.getD (failInst s i 7 0 0)

/-- The offset of a node's record. -/
def nodeOff (n : Nat) : Nat := 64 * (n + 1)

/-- A list of w16 node indices. -/
def gList (s : State) (g : GInst) (off n : Nat) : Option (List Nat) := (List.range n).mapM (fun k => gRd s g (off + 2 * k) 2)

/-- Decrements REM of a node (R336): at 0 the node is ready; a REM of 0 fails the instance. -/
def decRem (i : Nat) (s : State) (n : Nat) : State := match aGet? s.insts i with
  | none => s
  | some g => match gRd s g (nodeOff n + 6) 2 with
    | none => failInst s i 7 0 0
    | some 0 => failInst s i 7 0 n
    | some (r + 1) => match gWr s g (nodeOff n + 6) 2 r with
      | none => failInst s i 7 0 0
      | some s => if r = 0 && g.failed.isNone then setInst s i { g with ready := g.ready ++ [n] } else s

/-- Decrements a list of nodes, found at an offset and a count that stand in a node's record. -/
def decList (s : State) (i n offAt cntAt : Nat) : State := match aGet? s.insts i with
  | none => s
  | some g => match gRd s g (nodeOff n + offAt) 4, gRd s g (nodeOff n + cntAt) 2 with
    | some o, some c => match gList s g o c with
      | some l => l.foldl (decRem i) s
      | none => failInst s i 7 0 0
    | _, _ => failInst s i 7 0 0

/-! ### The memory plan (R340) -/

/-- An entry of .mplan. -/
structure MEnt where
  size  : Nat
  tier  : Nat
  kind  : Nat
  first : Nat
  last  : Nat
  fix   : Nat
  nfix  : Nat
  deriving Repr

/-- The 32 bytes of an entry. -/
def MEnt.ofBytes (b : List Byte) : MEnt :=
  { size := leAt b 0 8, tier := leAt b 8 1, kind := leAt b 9 1, first := leAt b 12 2, last := leAt b 14 2, fix := leAt b 16 4,
    nfix := leAt b 20 4 }

/-- What is loaded for an instance. -/
def planOf (s : State) (job : Nat) (addr : DWord) : Plan :=
  (s.plans.find? (fun p => p.job == job && p.inst == addr)).getD { job := job, inst := addr }

/-- The buffers of an instance: entries with their numbers; none where the section cannot be read. -/
def planEntries (s : State) (g : GInst) : Option (List (Nat × MEnt)) :=
  let p := planOf s g.job g.addr
  let entry (k : Nat) : Option (Nat × MEnt) := match (graphAgent g.job).read s p.mplan (32 * k) 32 with
    | .bytes b => some (k, MEnt.ofBytes b)
    | _ => none
  ((List.range p.nplan).mapM entry).map (fun l => l.filter (fun e => e.2.kind == 1))

/-- Writes a handle to the fixup addresses of an entry, k of them left; none where one cannot be written. -/
def writeFixups (g : GInst) (base : DWord) (fix : Nat) (h : DWord) : Nat → State → Option State
  | 0, s => some s
  | k + 1, s => match (graphAgent g.job).read s base (fix + 8 * k) 8 with
    | .bytes b => match piecesAt s (graphAgent g.job) (dwAt b 0) 0 8 .wr with
      | some ps => writeFixups g base fix h k ((graphAgent g.job).wrAll s ps (leBytes 8 h.toNat))
      | none => none
    | _ => none

/-- Allocates one buffer, unless it is allocated already: NOMEM where that fails. -/
def allocBuf (i n : Nat) (s : State) (e : Nat × MEnt) : State := match aGet? s.insts i with
  | none => s
  | some g =>
    let cls := classFor e.2.size
    if g.failed.isSome || g.bufs.any (fun b => b.1 == e.1) then s
    else if 25 < cls || 1 < e.2.tier then failInst s i 3 0 n
    else match allocate s g.job e.2.tier cls 15 with
      | none => failInst (afterFailed s g.job e.2.tier) i 3 0 n
      | some (h, t) =>
        let t := setInst t i { g with bufs := g.bufs ++ [(e.1, h)] }
        match writeFixups g (planOf s g.job g.addr).mplan e.2.fix h e.2.nfix t with
        | some u => u
        | none => failInst t i 7 0 n

/-- The number of the whole instance as FIRST or LAST. -/
def wholeInst : Nat := 0xFFFF

/-- The buffers whose FIRST is a node are allocated before it starts. -/
def allocFirst (s : State) (i n : Nat) : State := match aGet? s.insts i with
  | none => s
  | some g => match planEntries s g with
    | none => failInst s i 7 0 0
    | some l => (l.filter (fun e => e.2.first == n)).foldl (allocBuf i (if n = wholeInst then 0 else n)) s

/-- The buffers whose LAST is a node are dropped after it has completed. -/
def dropLast (s : State) (i n : Nat) : State := match aGet? s.insts i with
  | none => s
  | some g => match planEntries s g with
    | none => s
    | some l =>
      let past := g.bufs.filter (fun b => l.any (fun e => e.1 == b.1 && e.2.last == n))
      let s := setInst s i { g with bufs := g.bufs.filter (fun b => !past.contains b) }
      past.foldl (fun s b => dropHandle s g.job b.2) s

/-! ### Nodes start and complete (R336) -/

/-- A node completes: the REM of each successor is decremented. -/
def completeNode (s : State) (i n : Nat) : State := match aGet? s.insts i with
  | none => s
  | some g => dropLast (decList (setInst s i { g with started := g.started.filter (· != n) }) i n 8 12) i n

/-- A node ends without completing. -/
def dropNode (s : State) (i n : Nat) : State := match aGet? s.insts i with
  | none => s
  | some g => setInst s i { g with started := g.started.filter (· != n) }

/-- A ready node of a kind starts: its buffers are allocated, and then its body runs on the instance. -/
def startNode (kind : Nat) (body : GInst → Nat → Nat → State → State) (s : State) : State :=
  let i := s.focus.ix
  let n := s.focus.row
  match aGet? s.insts i with
  | none => s
  | some g =>
    if !g.ready.contains n || g.failed.isSome then s
    else match gRd s g (nodeOff n) 1 with
      | none => failInst s i 7 0 0
      | some k =>
        if 6 < k then failInst s i 7 0 n
        else if k != kind then s
        else
          let s := allocFirst (setInst s i { g with ready := g.ready.filter (· != n), started := g.started ++ [n] }) i n
          match aGet? s.insts i with
          | none => s
          | some g => if g.failed.isSome then dropNode s i n else body g i n s

/-- The node fails the instance and ends. -/
def failNode (s : State) (i n status trap : Nat) : State := dropNode (failInst s i status trap n) i n

/-- The instance's memory cannot be read: the node ends. -/
def badNode (s : State) (i n : Nat) : State := dropNode (failInst s i 7 0 0) i n

/-- The code of MEMFAULT in a record. -/
def memfaultCode : Nat := TrapCode.memfault.num

/-- The place of a signal or a word of n bytes for the graph unit (R336, R337). -/
def graphWord (s : State) (g : GInst) (a : DWord) (n : Nat) (need : Need) : Option Place :=
  match placeAt s none g.job a 0 n need with
  | .ok p => if poisonHit s p.key n then none else some p
  | .error _ => none

/-- KERNEL (R319, R336): counts are checked against the kernel header's widths, and a launch position is placed. -/
def kernelBody (g : GInst) (i n : Nat) (s : State) : State :=
  match gRd s g (nodeOff n + 16) 8, gRd s g (nodeOff n + 24) 8, (List.range 6).mapM (fun k => gRd s g (nodeOff n + 32 + 4 * k) 4) with
  | some kh, some arg, some counts =>
    let total := counts.foldl (· * ·) 1
    let khdr := BitVec.ofNat 64 kh
    let fits := match (graphAgent g.job).read s khdr 0 64 with
      | .bytes b => (List.range 6).all (fun k => counts.getD k 1 ≤ 2 ^ leAt b (20 + k) 1)
      | _ => true
    if counts.contains 0 || 2 ^ 32 ≤ total || !fits then failNode s i n 7 0
    else
      let (lid, s) := nextSeq s
      let s := setInst s i { g with live := aSet g.live n total }
      pushItem s g.queue g.level (.launch { inst := i, node := n, khdr := khdr, arg := BitVec.ofNat 64 arg, counts := counts, lid := lid })
  | _, _, _ => badNode s i n

/-- The rows of a record move on the graph unit's engine, each page of the source paged in before it is read (R242). -/
def nodeRows : List Nat → State × CopyOp → State × CopyOp
  | [], x => x
  | r :: rs, (s, op) =>
    if op.status.isSome then (s, op)
    else
      let (s, op) := match pinRow s op r with
        | .error _ => (s, op)
        | .ok (s, op) => match pageDue s op r with
          | none => (s, op)
          | some (i, _) =>
            let job := (opAgent s op).job
            ((changeTier s job i 0).getD (reclaim s job 0), { op with paged := op.paged ++ [op.srcRow r / 64] })
      let m := moveRow s op r
      nodeRows rs (m.1, m.2.1)

/-- One record of a COPY node, from acceptance to completion: its status. -/
def nodeRecord (s : State) (i n : Nat) (a : DWord) (x : Captured) : Nat × State :=
  let (id, s) := nextSeq s
  let op := acceptCopy s { id := id, cord := 0, strand := 0, src := .node i n a, image := x.image, badRec := x.bad }
  let r := nodeRows (List.range op.rows) (s, op)
  let m := moveLabels r.1 r.2
  let st := m.2.status.getD 0
  (st, copyAction (writeBack { m.1 with free := m.1.free + 1 } m.2 st) m.2)

/-- A COPY node walks its chain from a record (R245): the first nonzero status, with `left` records to pass at most. -/
def nodeWalk (g : GInst) (i n : Nat) (tail : DWord) : Nat → DWord → Nat → State → Nat × State
  | 0, _, st, s => (if st = 0 then 2 else st, s)
  | left + 1, pos, st, s =>
    let first (a b : Nat) : Nat := if a = 0 then b else a
    match (graphAgent g.job).capture s pos with
    | none => (first st 4, s)
    | some x =>
      let r := CRec.ofBytes x.image
      let y := if x.lost || r.own then nodeRecord s i n pos x else (0, s)
      let st := first st y.1
      if pos = tail || x.lost then (st, y.2)
      else if r.next = 0 then (first st 2, y.2)
      else nodeWalk g i n tail left r.next st y.2

/-- COPY: the whole chain, whose first nonzero status fails the instance. -/
def copyNodeBody (g : GInst) (i n : Nat) (s : State) : State :=
  match gRd s g (nodeOff n + 16) 8, gRd s g (nodeOff n + 24) 8 with
  | some h, some t =>
    let r := if h % 64 != 0 || t % 64 != 0 then (2, s) else nodeWalk g i n (BitVec.ofNat 64 t) (2 ^ 20) (BitVec.ofNat 64 h) 0 s
    if r.1 = 0 then completeNode r.2 i n else failNode r.2 i n 2 (copyTrap r.1).num
  | _, _ => badNode s i n

/-- SIGNAL: subtracts as SIGD does. -/
def signalBody (g : GInst) (i n : Nat) (s : State) : State :=
  match gRd s g (nodeOff n + 16) 8, gRd s g (nodeOff n + 24) 8 with
  | some a, some v =>
    let a := BitVec.ofNat 64 a
    match graphWord s g a 8 .rd, graphWord s g a 8 .wr with
    | some p, some _ => completeNode (subSignal s none p v) i n
    | _, _ => failNode s i n 1 memfaultCode
  | _, _ => badNode s i n

/-- WAIT: waits on a signal. -/
def waitBody (g : GInst) (i n : Nat) (s : State) : State :=
  match gRd s g (nodeOff n + 16) 8, gRd s g (nodeOff n + 24) 8 with
  | some a, some v =>
    let a := BitVec.ofNat 64 a
    if (graphWord s g a 8 .rd).isNone then failNode s i n 1 memfaultCode
    else setInst s i { g with waits := g.waits ++ [{ node := n, addr := a, bound := BitVec.ofNat 64 v }] }
  | _, _ => badNode s i n

/-- Re-arms a node of a COND's SET list: REM := NRARM (R337). -/
def rearm (i : Nat) (s : State) (n : Nat) : State := match aGet? s.insts i with
  | none => s
  | some g => match gRd s g (nodeOff n + 4) 2 with
    | none => failInst s i 7 0 0
    | some r => orBad s i (gWr s g (nodeOff n + 6) 2 r)

/-- COND (R337). -/
def condBody (g : GInst) (i n : Nat) (s : State) : State :=
  let o := nodeOff n
  match gRd s g (o + 16) 8, gRd s g (o + 30) 2, gRd s g (o + 32) 4, gRd s g (o + 36) 2, gRd s g (o + 38) 2 with
  | some a, some mx, some setO, some setN, some iter =>
    match graphWord s g (BitVec.ofNat 64 a) 4 .rd with
    | none => failNode s i n 1 memfaultCode
    | some p =>
      let it := iter + 1
      if leNat (devRdN s p.key 4) != 0 && it < (if mx = 0 then 65535 else mx) then
        match gList s g setO setN with
        | none => badNode s i n
        | some l =>
          let s := l.foldl (rearm i) (orBad s i (gWr s g (o + 38) 2 it))
          dropLast (dropNode (decList s i n 24 28) i n) i n
      else completeNode (orBad s i (gWr s g (o + 38) 2 0)) i n
  | _, _, _, _, _ => badNode s i n

/-- An interrupt is raised behind the writes that it covers (R212): what is on its way reaches the system point first, and a tail word
among it counts an advance of its own, after the count that this interrupt took. -/
def raiseCovered (s : State) (vec : Nat) : State := raiseIrq (flushSys s) vec

/-- The flush test of a NOTIFY node (R344): a count above 0 raises the vector and is 0 again. -/
def flushVector (s : State) (vec : Nat) : State :=
  if 0 < aGet 0 s.vecCount vec then raiseCovered { s with vecCount := aSet s.vecCount vec 0 } vec else s

/-- An advance of a NOTIFY node with its threshold, and then its flush (R344, R354). -/
def notifyVector (s : State) (vec : Nat) (flushes : Bool) : State :=
  if flushes then flushVector (countAdvance s vec) vec else countAdvance s vec

/-- NOTIFY. A vector above 63 is none of the coalescer's. -/
def notifyBody (g : GInst) (i n : Nat) (s : State) : State :=
  match gRd s g (nodeOff n + 16) 2, gRd s g (nodeOff n + 18) 1 with
  | some v, some f => if 63 < v then failNode s i n 7 0 else completeNode (notifyVector s v (f % 2 == 1)) i n
  | _, _ => badNode s i n

def execKernelNode (s : State) : Out := .next (startNode 0 kernelBody s)
def execCopyNode (s : State) : Out := .next (startNode 1 copyNodeBody s)
def execSignalNode (s : State) : Out := .next (startNode 2 signalBody s)
def execWaitNode (s : State) : Out := .next (startNode 3 waitBody s)
def execCondNode (s : State) : Out := .next (startNode 4 condBody s)
def execNotifyNode (s : State) : Out := .next (startNode 5 notifyBody s)

/-- WAIT_NODE_SATISFIED (R336): the signal of the node in focus, read at the device point, is at or below its bound. -/
def execWaitNodeSatisfied (s : State) : Out :=
  let i := s.focus.ix
  let n := s.focus.row
  match aGet? s.insts i with
  | none => .next s
  | some g => match g.waits.find? (fun w => w.node == n) with
    | none => .next s
    | some w =>
      let past := setInst s i { g with waits := g.waits.filter (fun w => w.node != n) }
      match graphWord s g w.addr 8 .rd with
      | none => .next (failNode past i n 1 memfaultCode)
      | some p => if w.bound.slt (BitVec.ofNat 64 (leNat (devRdN s p.key 8))) then .next s else .next (completeNode past i n)

/-! ### The end of an instance (R338) -/

/-- Writes the completion signal, a release at .sy (R338): `put` is stored, or the signal is decremented by 1. One that cannot be reached is
left. -/
def writeCsig (s : State) (g : GInst) (put : Option Nat) : State :=
  let write (p : Place) (v : Nat) : State := flushSys (devWr (flushSys s) p.key (leBytes 8 v))
  if g.csig = 0 then s
  else match put with
    | some v => (match placeAt s none g.job g.csig 0 8 .wr with
      | .ok p => write p v
      | .error _ => s)
    | none => match graphWord s g g.csig 8 .rd, graphWord s g g.csig 8 .wr with
      | some p, some _ => write p ((leNat (devRdN s p.key 8) + (2 ^ 64 - 1)) % 2 ^ 64)
      | _, _ => s

/-- The instance is over: its whole-instance buffers are dropped, the completion signal and then the record are written. -/
def finishInst (s : State) (i : Nat) (status trap detail : Nat) (put : Option Nat) : State := match aGet? s.insts i with
  | none => s
  | some g =>
    let s := writeCsig (dropLast s i wholeInst) g put
    putRecord { s with insts := aDel s.insts i } g.seq 0 status trap g.tag detail

/-- END_NODE (R336, R338): every started node has completed. -/
def execEndNode (s : State) : Out :=
  let i := s.focus.ix
  match aGet? s.insts i with
  | none => .next s
  | some g =>
    if g.failed.isSome || !g.started.isEmpty || g.ready != [s.focus.row] || gRd s g (nodeOff s.focus.row) 1 != some 6 then .next s
    else
      let t := dropLast (allocFirst s i s.focus.row) i s.focus.row
      match aGet? t.insts i with
      | some h => if h.failed.isSome then .next t else .next (finishInst t i 0 0 0 none)
      | none => .next t

/-- GRAPH_FAILURE (R338): nodes that had started have run to completion. -/
def execGraphFailure (s : State) : Out :=
  let i := s.focus.ix
  match aGet? s.insts i with
  | none => .next s
  | some g => match g.failed with
    | none => .next s
    | some (st, tr, n) => if !g.started.isEmpty then .next s else .next (finishInst s i st tr n (some (2 ^ 63 + st * 2 ^ 8 + tr)))

/-- A task of a KERNEL node has ended (R326, R336, R338). -/
def taskEnded (s : State) (origin : Option (Nat × Nat)) (trap : Option TrapCode) : State := match origin with
  | none => s
  | some (i, n) =>
    let s := match trap with | some t => failInst s i 1 t.num n | none => s
    match aGet? s.insts i with
    | none => s
    | some g =>
      let k := aGet 0 g.live n
      if k = 0 then s
      else
        let s := setInst s i { g with live := if k = 1 then aDel g.live n else aSet g.live n (k - 1) }
        if k = 1 then completeNode s i n else s

/-! ### Submission entries (R341, R343) -/

/-- The next entry of the submission ring, which the graph unit reads at the system point; it works only where STATE is 2 (R403). -/
def nextEntry (s : State) : Option (List Byte) :=
  let m := s.mgmt
  if m.state != 2 || m.srsize = 0 || m.srtail ≤ m.srhead then none
  else some ((List.range 64).map (fun k => sysRd s (hostKey (m.srbase.toNat + 64 * (m.srhead % 2 ^ m.srsize.toNat) + k))))

/-- The fields of an entry. -/
structure Entry where
  kind   : Nat
  pri    : Nat
  queue  : Nat
  job    : Nat
  target : DWord
  value  : DWord
  csig   : DWord
  strand : Nat
  tag    : DWord
  deriving Repr

/-- The 64 bytes of an entry. -/
def Entry.ofBytes (b : List Byte) : Entry :=
  { kind := leAt b 0 1, pri := leAt b 1 1 % 16, queue := leAt b 2 1, job := leAt b 4 2, target := dwAt b 8, value := dwAt b 16,
    csig := dwAt b 24, strand := leAt b 32 4, tag := dwAt b 40 }

/-- The entry's job is valid and its key is live. -/
def jobLive (s : State) (job : Nat) : Bool := (aGet {} s.jobs job).valid && s.mgmt.keys.contains job

/-- Takes the next entry where its kind satisfies p: its number, its fields and the state that has read it. -/
def takeEntry (p : Nat → Bool) (s : State) : Option (Nat × Entry × State) := match nextEntry s with
  | none => none
  | some b =>
    let e := Entry.ofBytes b
    if p e.kind then some (s.mgmt.srhead, e, { s with mgmt := { s.mgmt with srhead := s.mgmt.srhead + 1 } }) else none

/-- The nodes from n on, as many as are left: REM is set to NPRED, and those with NPRED 0 are ready (R336). -/
def presetNodes (i : Nat) : Nat → Nat → State → State
  | 0, _, s => s
  | left + 1, n, s => match aGet? s.insts i with
    | none => s
    | some g => match gRd s g (nodeOff n) 1, gRd s g (nodeOff n + 2) 2 with
      | some k, some p =>
        if 6 < k then failInst s i 7 0 n
        else match gWr s g (nodeOff n + 6) 2 p with
          | none => failInst s i 7 0 0
          | some t => presetNodes i left (n + 1) (if p = 0 then setInst t i { g with ready := g.ready ++ [n] } else t)
      | _, _ => failInst s i 7 0 0

/-- The patch points of an instance: offset and size; none where the section cannot be read. -/
def patchPoints (s : State) (job : Nat) (addr : DWord) : Option (List (Nat × Nat)) :=
  let p := planOf s job addr
  (List.range p.npatch).mapM (fun k => match (graphAgent job).read s p.patch (8 * k) 8 with
    | .bytes b => some (leAt b 0 4, leAt b 4 1)
    | _ => none)

/-- A patch point is outside the instance's node records and lists, or misaligned (R339). `size` is the instance's size. -/
def badPatch (size : Nat) (p : Nat × Nat) : Bool := !([1, 2, 4, 8].contains p.2) || p.1 % p.2 != 0 || size < p.1 + p.2

/-- The end of an instance's bytes: its node records and every list that they name. -/
def instSize (s : State) (g : GInst) (nodes : Nat) : Nat :=
  (List.range nodes).foldl (fun m n =>
    let list (o c : Nat) : Nat := match gRd s g (nodeOff n + o) 4, gRd s g (nodeOff n + c) 2 with
      | some a, some k => if k = 0 then 0 else a + 2 * k
      | _, _ => 0
    let cond := gRd s g (nodeOff n) 1 == some 4
    max (max m (list 8 12)) (if cond then max (list 24 28) (list 32 36) else 0)) (64 * (nodes + 1))

/-- Writes the patch values (R339), k points done. -/
def writePatches (g : GInst) (i : Nat) (values : DWord) : Nat → List (Nat × Nat) → State → State
  | _, [], s => s
  | k, p :: ps, s => match (graphAgent g.job).read s values (8 * k) 8 with
    | .bytes b => match gWr s g p.1 p.2 (leNat b) with
      | some t => writePatches g i values (k + 1) ps t
      | none => failInst s i 7 0 0
    | _ => failInst s i 7 0 0

/-- PATCH (R339): all points are checked before any write. -/
def patchInst (s : State) (i nodes : Nat) (values : DWord) : State := match aGet? s.insts i with
  | none => s
  | some g =>
    if values = 0 then s
    else match patchPoints s g.job g.addr with
      | none => failInst s i 7 0 0
      | some ps => if ps.any (badPatch (instSize s g nodes)) then failInst s i 7 0 0 else writePatches g i values 0 ps s

/-- Starts an instance: patches, the buffers of the whole instance, REM of every node. -/
def startInst (s : State) (i : Nat) (values : DWord) : State := match aGet? s.insts i with
  | none => s
  | some g =>
    if g.addr.toNat % 64 != 0 then failInst s i 7 0 0
    else match gRd s g 0 4 with
      | none => failInst s i 7 0 0
      | some nodes =>
        let s := allocFirst (patchInst s i nodes values) i wholeInst
        match aGet? s.insts i with
        | some h => if h.failed.isSome then s else presetNodes i nodes 0 s
        | none => s

/-- RUN (R341). -/
def execRun (s : State) : Out := match takeEntry (· == 0) s with
  | none => .next s
  | some (seq, e, t) =>
    if !jobLive t e.job || !queueBound t e.queue e.job then .next (putRecord t seq 0 5 0 e.tag 0)
    else if t.insts.any (fun x => x.2.addr == e.target && x.2.job == e.job) then .next (putRecord t seq 0 4 0 e.tag 0)
    else
      let i := t.instSeq
      let g : GInst := { addr := e.target, job := e.job, queue := e.queue, level := e.pri, csig := e.csig, tag := e.tag, seq := seq }
      .next (startInst (setInst { t with instSeq := i + 1 } i g) i e.value)

/-- POST (R343): the message is posted, or NOTARGET is found. -/
def execPost (s : State) : Out := match takeEntry (· == 1) s with
  | none => .next s
  | some (seq, e, t) =>
    if !jobLive t e.job then .next (putRecord t seq 1 5 0 e.tag 0)
    else match postToTask t e.job e.target e.strand e.value with
      | some u => .next (putRecord u seq 1 0 0 e.tag 0)
      | none => .next (putRecord t seq 1 6 0 e.tag 0)

/-- The SIGNAL message (R343). -/
def signalMsg (tag : DWord) : DWord := (tag <<< 8) ||| 4

/-- The target of a watch is a strand of a running or saved task of the job. -/
def targetThere (s : State) (job : Nat) (target : DWord) (i : Nat) : Bool := (postToTask s job target i 0).isSome

/-- WATCH (R341, R343): at most 256 watches are set up. -/
def execWatch (s : State) : Out := match takeEntry (· == 2) s with
  | none => .next s
  | some (seq, e, t) =>
    if !jobLive t e.job then .next (putRecord t seq 2 5 0 e.tag 0)
    else if 256 ≤ t.watches.length then .next (putRecord t seq 2 4 0 e.tag 0)
    else if !targetThere t e.job e.target e.strand then .next (putRecord t seq 2 6 0 e.tag 0)
    else
      let w : Watch := { job := e.job, target := e.target, strand := e.strand, signal := e.value, bound := e.csig, tag := e.tag, seq := seq }
      .next { t with watches := t.watches ++ [w] }

/-- BADENTRY (R341): an entry of another kind. -/
def execBadentry (s : State) : Out := match takeEntry (fun k => 2 < k) s with
  | none => .next s
  | some (seq, e, t) => .next (putRecord t seq e.kind 5 0 e.tag 0)

/-- WATCH_FIRE (R343): the ix-th watch's signal, read at the device point, is at or below its bound, or its target is gone. -/
def execWatchFire (s : State) : Out := match s.watches[s.focus.ix]? with
  | none => .next s
  | some w =>
    let t := { s with watches := lDel s.watches s.focus.ix }
    if !targetThere s w.job w.target w.strand then .next (putRecord t w.seq 2 6 0 w.tag 0)
    else match (if w.signal.toNat % 8 != 0 then none else unitPlace s w.job w.signal 8 .rd) with
      | none => .next (putRecord t w.seq 2 1 memfaultCode w.tag 0)
      | some p =>
        if w.bound.slt (BitVec.ofNat 64 (leNat (devRdN s p.key 8))) then .next s
        else match postToTask t w.job w.target w.strand (signalMsg w.tag) with
          | some u => .next (putRecord u w.seq 2 0 0 w.tag 0)
          | none => .next (putRecord t w.seq 2 6 0 w.tag 0)

/-! ### The coalescer (R344) -/

/-- INTERRUPT_THRESHOLD (R344): a vector's count had reached its ring's threshold, and its interrupt is raised. -/
def execInterruptThreshold (vec : Nat) (s : State) : Out :=
  .next (if s.dueIrq.contains vec then raiseCovered { s with dueIrq := s.dueIrq.erase vec } vec else s)

end Sys2Proof.Machine
end

