-- ==== Sys2Proof/Machine/Scheduler.lean ====
section
/-! DEFINITION. The dispatcher (R10 to R12, R157 to R162, R168, R318 to R326): refusal, fit, decisions, the start of a cord and the end
of a task, with the events DISPATCH_DECISION, PASS_COUNT_PROMOTION, TASK_END and ENERGY_PERIOD. -/

namespace Sys2Proof.Machine

/-! ### Kernel headers and refusal (R12, R29, R34, R158 to R160, R246, R318) -/

/-- The 64 bytes of a kernel header. -/
def KHdr.ofBytes (b : List Byte) : KHdr :=
  { entry := dwAt b 0, nstr := leAt b 8 1, base := leAt b 9 1, flags := BitVec.ofNat 8 (leAt b 10 1), byte11 := BitVec.ofNat 8 (leAt b 11 1),
    scratch := leAt b 12 4, silt := leAt b 16 2, preload := BitVec.ofNat 16 (leAt b 18 2),
    widths := (List.range 6).map (fun k => leAt b (20 + k) 1), affinity := leAt b 26 1, copyres := leAt b 27 1,
    energy := leAt b 28 4, nf := dwAt b 32, roles := dwAt b 40, handler := dwAt b 48, tail := dwAt b 56 }

/-- An entry of a role table. -/
structure Role where
  offset : DWord
  base   : Nat
  count  : Nat
  rsv    : Bool
  deriving Repr

/-- The four roles of a table of 64 bytes. -/
def rolesOf (b : List Byte) : List Role :=
  (List.range 4).map (fun k => { offset := dwAt b (16 * k), base := leAt b (16 * k + 8) 1, count := leAt b (16 * k + 9) 1,
                                 rsv := leAt b (16 * k + 10) 6 != 0 })

/-- What the dispatcher knows of a task that it may start: header, nf presets, and for each strand its base size, entry and role. -/
structure Ready where
  hdr   : KHdr
  nf    : List Word
  lanes : List (Nat × VAddr × Nat)
  deriving Repr

/-- The faults of R12, R160 and R246 in the header's own fields. -/
def KHdr.bad (h : KHdr) : Bool :=
  h.preload.getLsbD 15 || h.nstr < 1 || 32 < h.nstr || (h.base != 32 && h.base != 64) || h.entry.toNat % 8 != 0 ||
    1572864 < h.scratch || 256 < h.silt || h.flags.toNat / 16 != 0 || h.byte11 != 0 || h.tail != 0 ||
    64 < h.widths.sum || 6 < h.affinity || 64 < h.copyres ||
    (h.flags.getLsbD 2 && (h.roles = 0 || h.roles.toNat % 8 != 0)) || (!h.flags.getLsbD 2 && h.roles != 0)

/-- Absent roles stand only after present ones, and role 0 is present. -/
def rolesInOrder : List Role → Bool
  | [] => true
  | [_] => true
  | a :: b :: l => (a.count != 0 || b.count == 0) && rolesInOrder (b :: l)

/-- The faults of R159 in the table: of all four entries, an absent role's too. -/
def rolesBad (h : KHdr) (l : List Role) : Bool :=
  (l.head?.map (·.count)) == some 0 || !rolesInOrder l || (l.map (·.count)).sum != h.nstr ||
    l.any (fun r => (r.base != 32 && r.base != 64) || r.offset.toNat % 8 != 0 || r.rsv || 32 < r.count)

/-- Reads 64 bytes for the dispatcher at the device point. -/
def read64 (s : State) (job : Nat) (a : DWord) : Option (List Byte) := match (graphAgent job).read s a 0 64 with
  | .bytes b => some b
  | _ => none

/-- The nf presets, or why the task is refused (R34, R35). -/
def nfPresets (s : State) (job : Nat) (a : DWord) : Except TrapCode (List Word) :=
  if a = 0 then .ok []
  else if a.toNat % 64 != 0 then .error .illop
  else match read64 s job a with
    | none => .error .memfault
    | some b =>
      let l := (List.range 16).map (fun k => BitVec.ofNat 32 (leAt b (4 * k) 4))
      if l.any (fun v => v &&& 0xFFE00080 != 0) then .error .illop else .ok l

/-- The strands of a cord: base size, entry and role (R158); or why the task is refused. An entry with bits 63 to 56 set is not refused by
R12, and the strand starts at its low 56 bits (DEDUCED, log entry 51). -/
def strandPlan (s : State) (job : Nat) (h : KHdr) : Except TrapCode (List (Nat × VAddr × Nat)) :=
  if !h.flags.getLsbD 2 then .ok (List.replicate h.nstr (h.base, h.entry.extractLsb' 0 56, 0))
  else match read64 s job h.roles with
    | none => .error .memfault
    | some b =>
      let l := rolesOf b
      if rolesBad h l then .error .illop
      else .ok (l.zipIdx.flatMap (fun r => List.replicate r.1.count (r.1.base, (h.entry + r.1.offset).extractLsb' 0 56, r.2)))

/-- The whole check of a task for a job: refused with a trap code, or ready. -/
def checkTask (s : State) (job : Nat) (r : TaskRec) : Except TrapCode Ready :=
  if r.khdr.toNat % 64 != 0 || r.bad then .error .illop
  else match read64 s job r.khdr with
    | none => .error .memfault
    | some b =>
      let h := KHdr.ofBytes b
      if h.bad || r.gang != h.flags.getLsbD 2 then .error .illop
      else match nfPresets s job h.nf, strandPlan s job h with
        | .error e, _ => .error e
        | _, .error e => .error e
        | .ok nf, .ok l => .ok { hdr := h, nf := nf, lanes := l }

/-! ### Fit (R157, R162, R246) -/

/-- What the cords of a core hold: cord slots, and for each quadrant strands and free registers; scratchpad, silt and reserved
record slots. -/
structure Load where
  cords   : Nat
  strands : List Nat
  free    : List Nat
  scratch : Nat
  silt    : Nat
  slots   : Nat
  deriving Repr

/-- An empty core. -/
def emptyLoad : Load := ⟨0, [0, 0, 0, 0], [quadrantRegs, quadrantRegs, quadrantRegs, quadrantRegs], 0, 0, 0⟩

/-- What a core holds. -/
def coreLoad (s : State) (core : Nat) : Load :=
  let cs := coreCords s core
  { cords := cs.length, strands := (List.range 4).map (fun q => (quadrantStrands s core q).length),
    free := (List.range 4).map (freeRegs s core), scratch := (cs.map (fun k => (getCord s k).hdr.scratch)).sum,
    silt := (cs.map (fun k => (getCord s k).hdr.silt)).sum, slots := (cs.map (fun k => reservedSlots (getCord s k))).sum }

/-- The strands of a quadrant that a cord brings, with the registers that each holds: strand i runs on quadrant i mod 4 (R156). -/
def onQuadrant (regs : List Nat) (q : Nat) : List Nat := (regs.zipIdx.filter (fun x => x.2 % 4 == q)).map (·.1)

/-- Adds a cord to a load. -/
def Load.add (l : Load) (h : KHdr) (regs : List Nat) : Load :=
  { cords := l.cords + 1,
    strands := (List.range 4).map (fun q => l.strands.getD q 0 + (onQuadrant regs q).length),
    free := (List.range 4).map (fun q => l.free.getD q 0 - (onQuadrant regs q).sum),
    scratch := l.scratch + h.scratch, silt := l.silt + h.silt, slots := l.slots + (if h.copyres = 0 then 2 else h.copyres) }

/-- A cord fits beside a load; `waits` counts the block requests that wait on each quadrant. -/
def Load.fits (l : Load) (waits : Nat → Nat) (h : KHdr) (regs : List Nat) : Bool :=
  let m := l.add h regs
  m.cords ≤ 16 && m.strands.sum ≤ 64 && m.scratch ≤ 1572864 && m.silt ≤ 256 && m.slots ≤ 1024 &&
    (List.range 4).all (fun q => (onQuadrant regs q).isEmpty ||
      (m.strands.getD q 0 ≤ 16 &&
        (onQuadrant regs q).sum + 128 * waits q + (if h.flags.getLsbD 0 then 128 else 0) ≤ l.free.getD q 0))

/-- The block requests that wait on a quadrant of a core. -/
def waitingOn (s : State) (core q : Nat) : Nat := (xacqQueue s core q).length

/-- The registers that each strand of a ready task needs: its base block, and for a saved strand the extended block that it holds. -/
def needRegs (s : State) (r : TaskRec) (x : Ready) : List Nat :=
  match (if r.resume then s.saved.find? (fun v => v.handle == r.save) else none) with
  | some v => v.strands.map (fun t => t.base + if t.ext then 128 else 0)
  | none => x.lanes.map (·.1)

/-! ### Heads of FIFOs (R168, R319, R320, R324) -/

/-- The WID that a launch gives its next task (R161), with field 0 varying fastest. -/
def launchWid : Nat → List Nat → List Nat → Nat → Nat
  | n, c :: cs, w :: ws, o => (n % max c 1) * 2 ^ o + launchWid (n / max c 1) cs ws (o + w)
  | _, _, _, _ => 0

/-- The job of a queued record. -/
def itemJob (s : State) (q : Nat) (x : QItem) : Nat := match x with
  | .task _ _ => (aGet {} s.queues q).job
  | .launch l => instJob s l.inst

/-- The task record that an item gives at its next pop: a launch position makes the next task of its order. -/
def itemTask (s : State) (q level : Nat) (x : QItem) : TaskRec := match x with
  | .task r _ => r.atLevel level
  | .launch l =>
    let h := match read64 s (instJob s l.inst) l.khdr with | some b => KHdr.ofBytes b | none => {}
    { khdr := l.khdr, arg := l.arg, wid := BitVec.ofNat 64 (launchWid l.made l.counts h.widths 0),
      ctl := mkCtl level q (h.flags.getLsbD 2) false }

/-- The estimate of a record (R324). -/
def estimateOf (r : TaskRec) (h : KHdr) : Nat := if r.energy = 0 then h.energy else r.energy.toNat

/-- What a popped record is: refused with a code, or ready to start. A RESUME record needs its saved cord, and a save area of this
level (R374). -/
def examine (s : State) (job : Nat) (r : TaskRec) : Except TrapCode Ready := match checkTask s job r with
  | .error e => .error e
  | .ok x =>
    if !r.resume then .ok x
    else if (s.saved.find? (fun v => v.handle == r.save)).isNone then .error .illop
    else match read64 s job r.save with
      | none => .error .memfault
      | some b => if leAt b 0 4 = 1 then .ok x else .error .illop

/-- How the head of a FIFO may leave it. -/
inductive Verdict where
  | refused (c : TrapCode)
  | alone (x : Ready)
  | pair (x y : Ready)
  | held

/-- A record directly behind the head is its partner (R168): the partner's RESUME record for a saved pair; for a new pair one of the
same kernel header whose cord fits an empty core beside the head's. -/
def partnerOf (s : State) (q level : Nat) (r : TaskRec) (x : Ready) (behind : Option QRec) : Option (TaskRec × Ready) :=
  match behind with
  | none => none
  | some b =>
    let p := itemTask s q level b.item
    match examine s (itemJob s q b.item) p with
    | .error _ => none
    | .ok y =>
      if r.resume then
        match s.saved.find? (fun v => v.handle == r.save), s.saved.find? (fun v => v.handle == p.save) with
        | some v, some w => if p.resume && v.partner == some w.cord.recAddr then some (p, y) else none
        | _, _ => none
      else if !p.resume && p.khdr == r.khdr &&
          (emptyLoad.add x.hdr (needRegs s r x)).fits (fun _ => 0) y.hdr (needRegs s p y) &&
          emptyLoad.fits (fun _ => 0) x.hdr (needRegs s r x) then some (p, y)
      else none

/-- A core may take a task of a level (R370, R398): it is present and not vacated for a higher one. -/
def coreTakes (s : State) (core level : Nat) : Bool :=
  s.present.getLsbD core && !s.mgmt.off.contains core && (match aGet? s.mgmt.vacated core with | some l => l ≤ level | none => true)

/-- What a decision for a core finds at the head of a FIFO (R320). -/
def headVerdict (s : State) (core q level : Nat) : Verdict := match getFifo s q level with
  | [] => .held
  | h :: rest =>
    let r := itemTask s q level h.item
    match examine s (itemJob s q h.item) r with
    | .error c => .refused c
    | .ok x =>
      let e := estimateOf r x.hdr
      let credit := aGet 0 s.credit q
      let load := coreLoad s core
      let waits := waitingOn s core
      let fits := coreTakes s core level && load.fits waits x.hdr (needRegs s r x)
      let alone : Verdict := if fits && (e = 0 || (e : Int) ≤ credit) then .alone x else .held
      if !x.hdr.flags.getLsbD 1 then alone
      else match partnerOf s q level r x rest.head? with
        | none => alone
        | some (p, y) =>
          let f := estimateOf p y.hdr
          if fits && (load.add x.hdr (needRegs s r x)).fits waits y.hdr (needRegs s p y) && (e + f = 0 || ((e + f : Nat) : Int) ≤ credit)
            then .pair x y else .held

/-- The head of a queue's FIFO is eligible for a core. -/
def eligible (s : State) (core q level : Nat) : Bool := match headVerdict s core q level with
  | .held => false
  | _ => true

/-! ### Deficit round robin (R321) -/

/-- The quantum of a queue. -/
def quantumOf (s : State) (q : Nat) : Nat := max 1 (aGet {} s.queues q).quantum

/-- The first queue of a rising list at or after a number, wrapping. -/
def firstAt (rr : Nat) (qs : List Nat) : Option Nat := match qs.find? (fun q => rr ≤ q) with
  | some q => some q
  | none => qs.head?

/-- Full rounds in which no deficit becomes positive, added at once. -/
def addRounds (s : State) (qs : List Nat) : State :=
  let d (q : Nat) : Int := aGet 0 s.deficit q
  if qs.any (fun q => 0 < d q) then s
  else
    let need (q : Nat) : Nat := ((1 - d q).toNat + quantumOf s q - 1) / quantumOf s q
    let r := (qs.map need).foldl min (need (qs.headD 0)) - 1
    qs.foldl (fun s q => { s with deficit := aSet s.deficit q (satS64 (aGet 0 s.deficit q + r * quantumOf s q)) }) s

/-- The loop of R321 at a level, over the eligible queues. -/
def drr (level : Nat) (qs : List Nat) : Nat → State → Option (Nat × State)
  | 0, _ => none
  | n + 1, s => match firstAt (aGet 0 s.rr level) qs with
    | none => none
    | some q =>
      if 0 < aGet 0 s.deficit q then some (q, { s with rr := aSet s.rr level q })
      else drr level qs n { s with deficit := aSet s.deficit q (satS64 (aGet 0 s.deficit q + quantumOf s q)),
                                   rr := aSet s.rr level (q + 1) }

/-- The queues whose head at a level is eligible for a core, rising. -/
def eligibleQueues (s : State) (core level : Nat) : List Nat :=
  (s.fifos.filter (fun e => e.1 % 16 == level && !e.2.isEmpty && eligible s core (e.1 / 16) level)).map (fun e => e.1 / 16)

/-- The level and queue of a decision, from a level down. -/
def choose (s : State) (core : Nat) : Nat → Option (Nat × Nat × State)
  | 0 => none
  | l + 1 =>
    let qs := eligibleQueues s core l
    if qs.isEmpty then choose s core l
    else (drr l qs (2 * qs.length + 2) (addRounds s qs)).map (fun x => (l, x.1, x.2))

/-! ### Pops and promotion (R319, R323) -/

/-- Every record queued in any FIFO counts a pop; at level 15 the count stands still (R323). -/
def countPasses (s : State) : State :=
  { s with fifos := s.fifos.map (fun e => if e.1 % 16 = 15 then e else (e.1, e.2.map (fun r => { r with passes := r.passes + 1 }))) }

/-- The head of a FIFO leaves it; a launch position stays until its last task has been made, its pass count 0. -/
def popItem (x : QRec) : List QRec := match x.item with
  | .task _ _ => []
  | .launch l =>
    if l.made + 1 < l.counts.foldl (· * ·) 1 then [{ item := .launch { l with made := l.made + 1 }, passes := 0 }] else []

/-- n records leave the head of a FIFO at one decision; every other record counts it. -/
def popHeads (s : State) (q level n : Nat) : State :=
  let l := getFifo s q level
  let s := countPasses (setFifo s q level (l.drop n))
  setFifo s q level ((l.take n).flatMap popItem ++ getFifo s q level)

/-- The promotions that are due, in FIFO order: the place of each once those before it have moved. -/
def duePromotions (s : State) : List Turn :=
  s.fifos.flatMap (fun e =>
    if e.1 % 16 = 15 then []
    else ((e.2.zipIdx.filter (fun r => 4096 ≤ r.1.passes)).zipIdx.map (fun x =>
      .event { ix := e.1 / 16, row := e.1 % 16, slot := x.1.2 - x.2 } .passCountPromotion)))

/-- PASS_COUNT_PROMOTION (R323): the record in focus moves to the tail of the next level, its PRI raised and its count 0. -/
def execPassCountPromotion (s : State) : Out :=
  let q := s.focus.ix
  let l := s.focus.row
  match (getFifo s q l)[s.focus.slot]? with
  | none => .next s
  | some r =>
    if r.passes < 4096 || 15 ≤ l then .next s
    else
      let item : QItem := match r.item with
        | .task t b => .task (t.atLevel (l + 1)) b
        | .launch x => .launch x
      let s := setFifo s q l (lDel (getFifo s q l) s.focus.slot)
      .next (setFifo s q (l + 1) (getFifo s q (l + 1) ++ [{ item := item, passes := 0 }]))

/-! ### The start of a cord (R9, R10, R157 to R160) -/

/-- The WID fields of a header, low 32 bits of each (R11). -/
def widFields (wid : Nat) : List Nat → Nat → List Word
  | [], _ => []
  | w :: ws, o => BitVec.ofNat 32 (wid / 2 ^ o % 2 ^ w) :: widFields wid ws (o + w)

/-- A strand with its preloads (R10). -/
def freshStrand (core : Nat) (c : Cord) (i : Nat) (x : Nat × VAddr × Nat) : Strand :=
  let pre := c.hdr.preload
  let set (n : Nat) (r : Nat) (v : Word) (t : Strand) : Strand := if pre.getLsbD n && v != 0 then { t with s := aSet t.s r v } else t
  let t : Strand := { base := x.1, role := x.2.2, live := true,
                      threads := Lanes.tab (fun _ => { pc := x.2.1, place := none, mr := 0, st := .ready, stamp := 0 }) }
  let t := set 0 1 (hiW c.task.arg) (set 0 0 (loW c.task.arg) t)
  let t := (widFields c.task.wid.toNat c.hdr.widths 0).zipIdx.foldl (fun t v => set (1 + v.2) (2 + v.2) v.1 t) t
  let t := set 7 8 (BitVec.ofNat 32 i) t
  let t := set 8 9 (BitVec.ofNat 32 core) t
  let t := set 9 10 (BitVec.ofNat 32 (dieOf core)) t
  let t := if pre.getLsbD 10 then { t with s := aSet t.s 11 (Config.devId.setWidth 32) } else t
  let t := set 13 13 (hiW c.recAddr) (set 13 12 (loW c.recAddr) t)
  let t := set 14 14 (BitVec.ofNat 32 x.2.2) t
  let t := if pre.getLsbD 11 then { t with v := aSet t.v 0 (Lanes.tab (fun l => BitVec.ofNat 32 (32 * i + l.val))) } else t
  if pre.getLsbD 12 then { t with v := aSet t.v 1 (Lanes.tab (fun l => BitVec.ofNat 32 l.val)) } else t

/-- The lowest number that is no key of a table, n numbers tried. -/
def freeKey {α : Type} (m : AMap α) (lo : Nat) (n : Nat) : Option Nat := (List.range n).map (lo + ·) |>.find? (fun k => (aGet? m k).isNone)

/-- The lowest free cord slot of a core, as a cord key. -/
def freeSlot (s : State) (core : Nat) : Option Nat := freeKey s.cords (core * 16) 16

/-- Starts a task on a core as a new cord (R157): its record is copied into the record window (R318), its energy reserved (R324), and
its strands are made. The start is an acquire at .dv (R325). -/
def startCord (s : State) (core job queue level : Nat) (origin : Option (Nat × Nat)) (r : TaskRec) (x : Ready) : Option (Nat × State) :=
  match freeSlot s core, freeKey s.recs 0 (s.recs.length + 1) with
  | some k, some w =>
    let e := estimateOf r x.hdr
    let a := windowBase + 64 * w
    let s := devWr { s with recs := aSet s.recs w (job, s.uids), credit := aMod 0 s.credit queue (fun c => c - (e : Int)) }
      (physKey windowTier 0 (64 * w)) r.toBytes
    let c : Cord := {
      uid := s.uids, job := job, queue := queue, level := level, task := r, recAddr := BitVec.ofNat 64 a, hdr := x.hdr, origin := origin,
      nstr := x.lanes.length, start := (getCore s core).cycles, sarm := if x.hdr.flags.getLsbD 3 then 0x1E else 0,
      nf := x.nf.zipIdx.map (fun v => (v.2, v.1)), token := true, estimate := e }
    let s := setCord { s with uids := s.uids + 1 } k c
    let s := x.lanes.zipIdx.foldl (fun s l => setStrand s (k * 32 + l.2) (freshStrand core c l.2 l.1)) s
    some (k, refresh s core 4)
  | _, _ => none

/-- Starts or restores a task on a core. -/
def placeTask (s : State) (core q level : Nat) (x : QItem) (r : TaskRec) (y : Ready) : Option (Nat × State) :=
  let origin := match x with | .launch l => some (l.inst, l.node) | .task _ _ => none
  if !r.resume then startCord s core (itemJob s q x) q level origin r y
  else match s.saved.find? (fun v => v.handle == r.save), freeSlot s core with
    | some v, some k =>
      let e := estimateOf r y.hdr
      let s := { s with credit := aMod 0 s.credit q (fun c => c - (e : Int)) }
      let v := { v with cord := { v.cord with level := level, estimate := e } }
      some (k, restoreCord s v k)
    | _, _ => none

/-! ### Affinity (R160) -/

/-- The affinity key of a launch's task: the launch, and the fields from the affinity level up. -/
def affinityKey (x : QItem) (r : TaskRec) (h : KHdr) : Option Nat := match x with
  | .task _ _ => none
  | .launch l => if h.affinity = 0 then none else some (l.lid * 2 ^ 64 + r.wid.toNat / 2 ^ (h.widths.take h.affinity).sum)

/-- The core of a decision's task: a core that fits on the die of an earlier task with the same key, if there is one. -/
def placedCore (s : State) (core q level : Nat) (key : Option Nat) : Nat :=
  match key.bind (aGet? s.homes) with
  | none => core
  | some d =>
    if dieOf core = d then core
    else ((List.range 32).map (fun i => 32 * d + i) |>.find? (fun c => match headVerdict s c q level with
      | .alone _ => true
      | .pair _ _ => true
      | _ => false)).getD core

/-- Remembers the die of a key's first task. -/
def noteHome (s : State) (key : Option Nat) (core : Nat) : State := match key with
  | some k => if (aGet? s.homes k).isSome then s else { s with homes := aSet s.homes k (dieOf core) }
  | none => s

/-! ### The decision (R320, R321) -/

/-- The decrement at SUCC and the report of a task's end (R326 steps 4 and 5). -/
def reportEnd (s : State) (job : Nat) (succ : DWord) (origin : Option (Nat × Nat)) (trap : Option TrapCode) : State :=
  if succ = 0 then taskEnded s origin trap
  else match decrement s none job succ with
    | .ok (_, t) => taskEnded t origin trap
    | .error c => taskEnded s origin (some (trap.getD (if c == .align then .align else c)))

/-- A task of level L or above has been placed on a vacated core: the core is vacated no longer (R370). -/
def noteVacated (s : State) (core level : Nat) : State := match aGet? s.mgmt.vacated core with
  | some l => if l ≤ level then { s with mgmt := { s.mgmt with vacated := aDel s.mgmt.vacated core } } else s
  | none => s

/-- Makes two cords partners (R168): the first holds the token of a new pair. -/
def makePartners (s : State) (a b : Nat) (fresh : Bool) : State :=
  let x := getCord s a
  let y := getCord s b
  setCord (setCord s a { x with partner := some b, token := if fresh then true else x.token })
    b { y with partner := some a, token := if fresh then false else y.token }

/-- A cord that runs alone holds the token until it ends (R168). -/
def holdAlone (s : State) (cord : Nat) : State := setCord s cord { getCord s cord with token := true }

/-- A saved cord whose partner has ended holds the token, and has no partner (R169). -/
def Saved.survive (ended : DWord) (v : Saved) : Saved :=
  if v.partner == some ended then { v with partner := none, cord := { v.cord with partner := none, token := true } } else v

/-- A refused or failed record whose saved cord cannot be restored: the save is discarded with its area and its window record. -/
def discardSaved (s : State) (r : TaskRec) : State :=
  match (if r.resume then s.saved.find? (fun v => v.handle == r.save) else none) with
  | none => s
  | some v => dropHandle { s with saved := (s.saved.filter (fun w => w.handle != v.handle)).map (Saved.survive v.cord.recAddr),
                                  recs := s.recs.filter (fun e => e.2.2 != v.cord.uid) } v.cord.job v.handle

/-- The origin of a popped task: its launch node, or that of the saved cord. -/
def originOf (s : State) (x : QItem) (r : TaskRec) : Option (Nat × Nat) := match x with
  | .launch l => some (l.inst, l.node)
  | .task _ _ => (if r.resume then s.saved.find? (fun v => v.handle == r.save) else none).bind (·.cord.origin)

/-- One decision for a core: it pops the chosen head and starts, restores or fails it. -/
def decide' (s : State) (core : Nat) : State := match choose s core 16 with
  | none => s
  | some (l, q, s) => match getFifo s q l with
    | [] => s
    | h :: rest =>
      let r := itemTask s q l h.item
      match headVerdict s core q l with
      | .held => s
      | .refused c =>
        let origin := originOf s h.item r
        let t := discardSaved (popHeads s q l 1) r
        reportEnd t (itemJob s q h.item) r.succ origin (some c)
      | .alone x =>
        let key := affinityKey h.item r x.hdr
        let k := placedCore s core q l key
        let t := popHeads s q l 1
        (match placeTask t k q l h.item r x with
          | some (a, u) => noteVacated (noteHome (holdAlone u a) key k) k l
          | none => s)
      | .pair x y =>
        let key := affinityKey h.item r x.hdr
        let k := placedCore s core q l key
        (match rest.head? with
          | none => s
          | some b =>
            let p := itemTask s q l b.item
            let t := popHeads s q l 2
            match placeTask t k q l h.item r x with
            | none => s
            | some (a, u) => match placeTask u k q l b.item p y with
              | none => s
              | some (b', u) => noteVacated (noteHome (makePartners u a b' (!r.resume)) key k) k l)

/-- A decision is made for a core that is present and has a free cord slot (R320). -/
def mayDecide (s : State) (core : Nat) : Bool :=
  core < 128 && s.present.getLsbD core && !s.mgmt.off.contains core && (freeSlot s core).isSome

/-- The promotions that a pop made due come before anything else (R323): no later decision stands between. -/
def promoteFirst (s : State) : State := { s with agenda := duePromotions s ++ s.agenda }

/-- DISPATCH_DECISION (R320, R321, R323): for the core in focus. -/
def execDispatchDecision (s : State) : Out :=
  .next (if mayDecide s s.focus.core then promoteFirst (decide' s s.focus.core) else s)

/-! ### The end of a task (R326) -/

/-- Everything that R326 waits for is over: strands, copies, calls, fabric operations and stores. -/
def endReady (s : State) (cord : Nat) : Bool :=
  let c := getCore s (cord / 16)
  (aGet? s.cords cord).isSome && (strandKeys s cord).all (fun k => (getStrand s k).ended && (getStrand s k).stores.isEmpty) &&
    c.issuedCp.all (fun o => o.cord != cord) && c.copies.all (fun o => o.cord != cord) && c.issuedCl.all (fun o => o.cord != cord) &&
    c.chain.all (fun o => o.cord != cord) && c.fabric.all (fun o => o.cord != cord) &&
    (match c.run with | some r => r.call.cord != cord | none => true) && s.btinvs.all (fun b => b.cord != cord)

/-- The first trap of a cord that has ended: its failure record, or the earliest trap still recorded (R71); none under TEND. -/
def endTrap (s : State) (cord : Nat) : Option TrapCode :=
  let c := getCord s cord
  if c.tend then none
  else match c.failure with
    | some f => some f.code
    | none => match trapsOf s cord with
      | [] => none
      | t :: ts => some (earliest t ts).code

/-- A survivor holds the token (R169). -/
def leavePartner (s : State) (cord : Nat) : State := match (getCord s cord).partner with
  | some p => setCord s p { getCord s p with partner := none, token := true }
  | none => s

/-- Drops the save area of a cord that ended while it was being stopped. -/
def dropArea (s : State) (cord : Nat) : State :=
  let c := getCord s cord
  if c.area = 0 then s else dropHandle s c.job c.area

/-- TASK_END (R326): of the cord in focus. -/
def execTaskEnd (s : State) : Out :=
  let k := focusCord s
  if !endReady s k then .next s
  else
    let c := myCord s
    let trap := endTrap s k
    let s := leavePartner (dropArea s k) k
    let s := reconcile (chargeQueue s k) k
    let s := flush (dropCord s k) s.focus.core 4
    let s := { s with recs := s.recs.filter (fun e => e.2.2 != c.uid) }
    .next (reportEnd s c.job c.task.succ c.origin trap)

/-! ### Energy (R324, R405) -/

/-- ENERGY_PERIOD (R405): ERATE is added to each valid queue's credit up to ECAP; POWERNOW is what the controller measured. The clock
that it lowers or raises alters time only. -/
def execEnergyPeriod (milliwatts : Nat) (s : State) : Out :=
  let add (m : AMap Int) (e : Nat × QueueEnt) : AMap Int :=
    if e.2.valid then aMod 0 m e.1 (fun c => min (max c e.2.ecap) (c + e.2.erate)) else m
  .next { s with credit := s.queues.foldl add s.credit, mgmt := { s.mgmt with powernow := milliwatts % 2 ^ 32 } }

end Sys2Proof.Machine
end

