-- ==== Sys2Proof/Machine/Traps.lean ====
section
/-! DEFINITION. Selection, clause headers and the delivery of traps (R14, R15, R71, R148, R149, R356, R360, R363), the handler
instructions (R365 to R368, R410): strand opcodes 0xD0 to 0xD4, an unassigned opcode (R68), the snag detector (R345, R346), and the
events CLAUSE_HEADER, DEFERRED_QUIESCE, SIGR_WAKE, TSPN_ROOM and SNAG_SEARCH. -/

namespace Sys2Proof.Machine

/-! ### Selection (R148, R149, R356) -/

/-- Two threads stand at one position. -/
def samePosition (x y : Thread) : Bool := x.pc == y.pc && x.hi == y.hi && x.place == y.place

/-- The smallest stamp among the ready threads at a thread's position. -/
def groupStamp (t : Strand) (x : Thread) : Nat :=
  allLanes.foldl (fun a l =>
    let y := t.threads.get l
    if y.isReady && samePosition x y then min a y.stamp else a) x.stamp

/-- The lane that stands for the candidate to select: the smallest stamp, and among equals the position of the lowest lane. -/
def selectFrom (t : Strand) : List Lane → Option Lane → Option Lane
  | [], best => best
  | l :: ls, best =>
    let x := t.threads.get l
    let better := x.isReady && (match best with | some b => groupStamp t x < groupStamp t (t.threads.get b) | none => true)
    selectFrom t ls (if better then some l else best)

/-- The candidate of the next selection. -/
def Strand.select (t : Strand) : Option Lane := selectFrom t allLanes none

/-- The ready threads at the position of a lane. -/
def positionGroup (t : Strand) (l : Lane) : LaneMask := t.threadsIn (fun y => y.isReady && samePosition (t.threads.get l) y)

/-! ### Which trap is due (R58, R71, R360, R363) -/

/-- The strand stands at a word where it waits. -/
def waitsHere (s : State) : Bool := (me s).stickyHeld || (match myStall s with
  | none => false
  | some .released => false
  | some _ => true)

/-- No clause is in progress and the next selection takes a header, or no thread is ready. -/
def atBoundary (s : State) : Bool := (curClause? s).isNone && (match (me s).select with
  | some l => ((me s).threads.get l).place.isNone
  | none => true)

/-- The threads of the group that is stalled at a blocking word. -/
def stalledGroup (s : State) : LaneMask := match myStall s with
  | none => 0
  | some .released => 0
  | some _ => act s

/-- The deferred trap is due: lanes are parked, and no thread is ready but those of a group stalled at a word, or the strand has issued
65,536 words since the first fault of the split (R360). The count n holds the word that the fault arose in. -/
def deferredDue (s : State) : Bool := match (me s).split with
  | none => false
  | some n => (me s).threadsIn Thread.isFaulted != 0 &&
      (65536 < n || (me s).threadsIn Thread.isReady &&& ~~~stalledGroup s == 0)

/-- Where a strand stands that takes an engine or cord-level trap (R364 item 1): the waiting word, the header that it would select, or
the position of its lowest thread that has not exited. -/
def trapPc (s : State) : DWord :=
  if (curClause? s).isSome then (wordAddr s).setWidth 64
  else match (me s).select.orElse (fun _ => lowestLane ((me s).threadsIn (fun x => !x.isExited))) with
    | some l => ((me s).threads.get l).addr
    | none => 0

/-- The threads that SNAG parks: the group stalled at the blocking word (R359). -/
def snagPark (s : State) : LaneMask :=
  if (curClause? s).isSome then act s
  else (me s).threadsIn (fun x => match x.st with | .parked (.wany ..) => true | _ => false)

/-- The first recorded trap in the order of R363: engine traps as recorded, then STICKY, then SNAG. -/
def nextRecorded (ts : List TrapInfo) : Option TrapInfo :=
  (ts.find? (·.cls == .engine)).orElse (fun _ => (ts.find? (·.code == .sticky)).orElse (fun _ => ts.head?))

/-- Takes the recorded trap that is due. -/
def takeRecorded (s : State) (t : TrapInfo) : State :=
  let pc := trapPc s
  let park := if t.code = .snag then snagPark s else 0
  takeTrap (setMe s { me s with traps := (me s).traps.filter (fun u => u.seq != t.seq) }) { t with pc := pc, park := park }

/-- Takes the trap that is due where the strand stands, if one is (R363). In handler mode none is. -/
def takeDue (s : State) : Option State :=
  if inHandler s || (me s).ended then none
  else if deferredDue s then some (takeDeferred s)
  else if atBoundary s || waitsHere s then (nextRecorded (me s).traps).map (takeRecorded s)
  else none

/-- DEFERRED_QUIESCE (R360). -/
def execDeferredQuiesce (s : State) : Out :=
  .next (if !inHandler s && !(me s).ended && deferredDue s then takeDeferred s else s)

/-! ### Headers (R14 to R16) -/

/-- Every asynchronous issue of a strand has been accepted (R15). A CHAN that waits for a walk is still outstanding (R22, R250); a TAIL
counts as accepted once its walk has started, since the spec does not say when the engine accepts one (DEDUCED, log
entry 35). -/
def issuesAccepted (s : State) (k : Nat) : Bool :=
  let c := getCore s (k / 512)
  (getCord s (k / 32)).chans.all (fun e => !e.2.nextHd.any (fun x => x.2 == k)) &&
  c.issuedCp.all (fun o => o.strand != k || (match o.src with | .chain .. => true | _ => false)) &&
    c.issuedCl.all (fun o => o.strand != k) && c.fabric.all (fun o => o.strand != k || o.accepted)

/-- The wait mask of the header (R15): results are written, stores leave the queue; for AQ the strand waits at the header. -/
def headerWait (s : State) (m : BitVec 8) : State :=
  if m.getLsbD 4 && !issuesAccepted s (focusStrand s) then setMe s { me s with waitHdr := some m }
  else
    let s := setMe s { me s with waitHdr := none }
    let s := if m.getLsbD 0 then settleClass s .ld else s
    let s := if m.getLsbD 2 then settleClass s .xu else s
    let s := if m.getLsbD 3 then settleClass s .sh else s
    let s := countSplit s
    let s := if m.getLsbD 1 then drain s (focusStrand s) else s
    let s := { s with free := s.free + 1 }
    if act s = 0 then endClause s else s

/-- Fetches code for the strand in focus. -/
def strandFetch (s : State) (a : VAddr) : Fetched := fetchAt s s.focus.core (myCord s).job a

/-- The threads that fetch fault where they stand, before any word issues (R104, R360): in handler mode the cord ends. -/
def fetchFault (s : State) (c : TrapCode) (pc : VAddr) (place : Option Nat) (a : DWord) (m : LaneMask) : State :=
  countSplit (faultLanes s pc place ((lanesOf m).map (fun l => (l, c, a, 0))))

/-- A header fails its checks: ILLCL, precisely, with the group as PARK (R14, R70). -/
def illegalClause (s : State) (pc : VAddr) (m : LaneMask) : State :=
  let (n, s) := nextSeq s
  takeTrap s { code := .illcl, cls := .precise, pc := pc.setWidth 64, park := m, seq := n }

/-- The handler's next header (R357). -/
def handlerHeader (s : State) (h : Handler) : State :=
  match strandFetch s h.pc with
  | .fault => fetchFault s .memfault h.pc none (h.pc.setWidth 64) 1
  | .poison => fetchFault s .poison h.pc none (h.pc.setWidth 64) 1
  | .word r t =>
    if !strandHeaderOk r then illegalClause t h.pc 1
    else headerWait (setClause t (some { hdr := h.pc, nm1 := hdrNm1 r, word := 0, act := 1, group := 1 })) (hdrWait r)

/-- The selected group fetches its header: a group at word w reads it again for N-1 alone (R356). -/
def groupHeader (s : State) (l : Lane) : State :=
  let x := (me s).threads.get l
  let g := positionGroup (me s) l
  let s := setMe s { me s with sel := (me s).sel + 1 }
  if x.hi != 0 then fetchFault s .memfault x.pc x.place x.addr g
  else match strandFetch s x.pc with
    | .fault => fetchFault s .memfault x.pc x.place (x.pc.setWidth 64) g
    | .poison => fetchFault s .poison x.pc x.place (x.pc.setWidth 64) g
    | .word r t => match x.place with
      | some w => setClause t (some { hdr := x.pc, nm1 := hdrNm1 r, word := w, act := g, group := g })
      | none =>
        if !strandHeaderOk r then illegalClause t x.pc g
        else headerWait (setClause t (some { hdr := x.pc, nm1 := hdrNm1 r, word := 0, act := g, group := g })) (hdrWait r)

/-- The strand in focus runs and no clause of it is in progress. -/
def betweenClauses (s : State) : Bool := (me s).live && !(me s).ended && ((curClause? s).isNone || (me s).waitHdr.isSome)

/-- CLAUSE_HEADER (R16, R148): at a clause boundary TEND is seen first, then a trap that is due; a cord that is being stopped stands
still. One that STICKY holds takes a trap that is due, and no header. -/
def execClauseHeader (s : State) : Out :=
  if !betweenClauses s then .next s
  else if (myCord s).tend then .next (setMe s (me s).tendStop)
  else if (myCord s).stopping then .next s
  else if (me s).stickyHeld && !inHandler s then .next ((if (me s).waitHdr.isSome then none else takeDue s).getD s)
  else match (me s).waitHdr with
    | some m => .next (headerWait s m)
    | none => match (me s).handler with
      | some h => .next (handlerHeader s h)
      | none => match takeDue s with
        | some t => .next t
        | none => match (me s).select with
          | some l => .next (groupHeader s l)
          | none => .next s

/-! ### Frozen state (R366, R367) -/

/-- The position of a lane as the handler sees it: a lane of the interrupted clause stands at its word (R356). -/
def frozenAddr (t : Strand) (l : Lane) : DWord := match t.handler.bind (·.saved) with
  | some (c, _) => if inMask c.act l then posAddr 0 c.hdr (some c.word) else (t.threads.get l).addr
  | none => (t.threads.get l).addr

/-- The fault record of a parked lane: code and data address; 0 where it has none. -/
def faultRecord (x : Thread) : Nat × DWord := match x.st with
  | .parked (.fault c a _ _) => (c.num, a)
  | _ => (0, 0)

/-- The trap being handled. -/
def handledTrap (s : State) : TrapInfo := match (me s).handler with
  | some h => h.trap
  | none => { code := .undef, cls := .precise }

/-- Predicate i of a lane of the frozen strand. -/
def frozenPred (t : Strand) (i : Nat) (l : Lane) : Bool := i == 7 || inMask (aGet 0 t.p i) l

/-- What TRDL reads of lane n. -/
def frozenValue (s : State) (w : SWord) (n : Nat) : DWord :=
  if 31 < n then 0
  else
    let l := laneOfNat n
    let t := me s
    let x := t.threads.get l
    match w.c.toNat with
    | 0 => pairOf (vLane t w.a.toNat l) (if w.ty.regs = 2 then vLane t (w.a.toNat + 1) l else 0)
    | 1 => frozenAddr t l
    | 2 => (faultRecord x).2
    | 3 => BitVec.ofNat 64 ((faultRecord x).1 + 2 ^ 8 * (inMask (handledTrap s).park l).toNat + 2 ^ 9 * x.isExited.toNat)
    | _ => BitVec.ofNat 64 (((List.range 8).filter (fun i => frozenPred t i l)).map (2 ^ ·)).sum

/-- TRDL (R366). -/
def trdlBody (w : SWord) (s : State) : Res :=
  once (fun w l s => .done (putD s w w.ty.regs (frozenValue s w (opB1 s w l).toNat))) w s

/-- Writes predicate i of a lane of the frozen strand. -/
def putFrozenPred (t : Strand) (i : Nat) (l : Lane) (v : Bool) : Strand :=
  if i = 7 then t else { t with p := aSet t.p i (maskOf (fun m => if m = l then v else inMask (aGet 0 t.p i) m)) }

/-- Lanes leave the interrupted clause: they stand at positions of their own, and without a thread the clause has ended. -/
def leaveSaved (t : Strand) (m : LaneMask) : Strand := match t.handler with
  | none => t
  | some h => match h.saved with
    | none => t
    | some (c, st) =>
      let c := { c with act := c.act &&& ~~~m, group := c.group &&& ~~~m }
      if c.act = 0 then
        { t.modThreads c.group (fun _ x => if x.isReady then { x with stamp := t.sel } else x) with handler := some { h with saved := none } }
      else { t with handler := some { h with saved := some (c, st) } }

/-- TWRL (R366). -/
def twrlBody (w : SWord) (s : State) : Res :=
  once (fun w l s =>
    let n := (opB1 s w l).toNat
    let t := me s
    let m := laneOfNat n
    if 31 < n || (t.threads.get m).isExited then .done s
    else match w.c.toNat with
      | 0 =>
        let a := operand s w 1 w.a w.ty.regs l
        .done (setMe s (putReg t w.d w.ty.regs (laneBit m) (fun _ => a)))
      | 1 => .done (setMe s (putFrozenPred t w.d.toNat m ((opA1 s w l).getLsbD 0)))
      | _ =>
        if !inMask (handledTrap s).park m then .trap .illop 0
        else
          let a := opA2 s w l
          .done (setMe s ((leaveSaved t (laneBit m)).modThread m (fun x => { x with pc := a.extractLsb' 0 56, hi := a.extractLsb' 56 8, place := none })))) w s

/-- TINF (R364). -/
def tinfBody (w : SWord) (s : State) : Res := once (fun w _ s => .done (putD s w 2 (myTrapItem s (w.bits 0 4)))) w s

/-- Changes SET of the trap being handled. -/
def setTrapSet (t : Strand) (v : LaneMask) : Strand :=
  { t with handler := t.handler.map (fun h => { h with trap := { h.trap with set := v &&& h.trap.park } }) }

/-- TMSK (R367). -/
def tmskBody (w : SWord) (s : State) : Res :=
  once (fun w l s =>
    let b := opB1 s w l
    let s := putD s w 1 ((handledTrap s).set.setWidth 64)
    .done (setMe s (setTrapSet (me s) b))) w s

def execTrdl (w : SWord) (s : State) : Out := .next (runWord (.trdl w) trdlBody s)
def execTwrl (w : SWord) (s : State) : Out := .next (runWord (.twrl w) twrlBody s)
def execTinf (w : SWord) (s : State) : Out := .next (runWord (.tinf w) tinfBody s)
def execTmsk (w : SWord) (s : State) : Out := .next (runWord (.tmsk w) tmskBody s)

/-! ### Returning from a handler (R368, R410) -/

/-- N-1 of the clause at an address as the strand reads it; 15 where it cannot be read. -/
def nm1At (s : State) (a : VAddr) : Nat := match strandFetch s a with
  | .word r _ => hdrNm1 r
  | _ => 15

/-- The position of the word after a thread's own: the next header after the last word. A thread at a header, which ILLCL or a fetch
left there, goes on at that address + 8. -/
def skipFrom (s : State) (x : Thread) : Thread := match x.place with
  | none => { x with pc := x.pc + 8 }
  | some w =>
    let n := nm1At s x.pc
    if n ≤ w then { x with pc := x.pc + 8 + BitVec.ofNat 56 (8 * (n + 1)), place := none } else { x with place := some (w + 1) }

/-- An outstanding write goes to a predicate. -/
def PendWrite.isPred (w : PendWrite) : Bool := match w.dest with | .p .. => true | _ => false

/-- What stays outstanding when the handler ends: its predicates, and with them their outstanding writes, are no more (R358). -/
def Pending.ofHandler (e : Pending) : Pending := { e with writes := e.writes.filter (fun w => !w.isPred) }

/-- The strand leaves handler mode: its interrupted clause and stall stand again. -/
def leaveHandler (t : Strand) : Strand := match t.handler with
  | none => t
  | some h => { t with handler := none, waitHdr := none, clause := h.saved.map (·.1), stall := h.saved.bind (·.2),
                       pend := t.pend.map Pending.ofHandler }

/-- Releases the strands of the cord that STICKY holds (R368). -/
def releaseHeld (s : State) (cord : Nat) : State :=
  (strandKeys s cord).foldl (fun s k => setStrand s k { getStrand s k with stickyHeld := false }) s

/-- A stalled word completes without its wait: the strand stands at the next word (R410). -/
def skipStall (s : State) : State := match (me s).stall with
  | none => s
  | some _ => advance (setMe s { (me s).unblock with stall := none })

/-- TRET's effect on a precise or deferred trap: the lanes of SET. -/
def returnLanes (s : State) (mode : Nat) (set : LaneMask) : State :=
  let set := set &&& (me s).threadsIn (fun x => !x.isExited)
  match mode with
  | 0 => setMe s ((me s).modThreads set (fun _ x => { x with st := .ready }))
  | 1 => setMe s ((me s).modThreads set (fun _ x => { skipFrom s x with st := .ready }))
  | _ => exitThreads s set

/-- TRET's effect on an engine or cord-level trap: the whole strand. -/
def returnStrand (s : State) (mode : Nat) : State := match mode with
  | 0 => s
  | 1 => skipStall s
  | _ => exitThreads (setMe s { me s with clause := none, stall := none }) (BitVec.allOnes 32)

/-- The trap with which the handler is entered again for the lanes outside SET (R368): a deferred trap names its lowest lane. -/
def reentryTrap (s : State) (t : TrapInfo) (rest : LaneMask) : TrapInfo :=
  let t := { t with park := rest, reentry := true }
  match (lowestLane rest).map (fun l => (me s).threads.get l) with
  | none => t
  | some x => match x.st with
    | .parked (.fault c a u _) => if t.cls = .deferred then { t with code := c, addr := a, aux := u, pc := x.addr } else t
    | _ => t

/-- Returns from the handler in a mode (R368): retry, skip, kill or esc. -/
def returnFrom (mode : Nat) (s : State) : State := match (me s).handler with
  | none => s
  | some h =>
    let t := h.trap
    if mode = 3 then escalate s (focusCord s) none t
    else
      let s := setMe s (leaveHandler (me s))
      let s := match t.cls with
        | .precise | .deferred => returnLanes s mode t.set
        | .engine | .cord => returnStrand s mode
      let s := if t.code = .sticky then releaseHeld s (focusCord s) else s
      let rest := t.park &&& ~~~t.set &&& (me s).threadsIn (fun x => !x.isExited)
      if rest != 0 then takeTrap s (reentryTrap s t rest) else setMe s (me s).wake

/-- What a TRET that returns waits for: with S = 1 every result (R23). A load of the handler whose data carries an error traps in handler
mode (R358, log entry 21). -/
def tretSettle (sw : Bool) (s : State) : State :=
  if sw || (me s).pend.any (fun e => !e.poison.isEmpty) then settleAll s else s

/-- TRET: the return takes the place of the advance to the next word. -/
def tretRun (w : SWord) (s : State) : State := match strandForm (.tret w) with
  | none => s
  | some (w, f) => match wordTrap f w s with
    | some c => preciseTrap s c 0
    | none =>
      if enabled s w = 0 then finishWord w.sw s
      else
        let s := tretSettle w.sw s
        returnFrom (w.bits 0 2) { s with free := s.free + 1 }

def execTret (w : SWord) (s : State) : Out := .next (tretRun w s)

/-- UNASSIGNED_OPCODE (R68): UNDEF, precisely. -/
def execUnassignedOpcode (_raw : DWord) (s : State) : Out :=
  .next (if (curClause? s).isNone then s else preciseTrap s .undef 0)

/-! ### Words that wait (R251, R328) -/

/-- The word at which the strand in focus stands, fetched and decoded. -/
def wordHere (s : State) : Option (Instr × State) :=
  if (curClause? s).isNone then none
  else match strandFetch s (wordAddr s) with
    | .word r t => (decodeStrand r).toOption.map (fun i => (i, t))
    | _ => none

/-- The strand may go on with the word at which it waits. -/
def mayGoOn (s : State) : Bool := !(myCord s).stopping && !(myCord s).tend && ((me s).handler.isSome || !(me s).stickyHeld)

/-- SIGR_WAKE (R251): the waiting SIGR reads its signal again, and completes where it is at most the bound. -/
def execSigrWake (s : State) : Out :=
  if myStall s = some .sigr && mayGoOn s then
    match wordHere s with
    | some (.sigr w, t) => execSigr w t
    | _ => .next s
  else .next s

/-- TSPN_ROOM (R328): the blocked TSPN pushes its remaining lanes as its queue has room. -/
def execTspnRoom (s : State) : Out :=
  match myStall s with
  | some (.tspn _) =>
    if mayGoOn s then
      match wordHere s with
      | some (.tspn w, t) => execTspn w t
      | _ => .next s
    else .next s
  | _ => .next s

/-! ### The snag detector (R345, R346) -/

/-- Core cycles of a blocked strand between two searches. -/
def snagPeriod : Nat := 2 ^ 20

/-- A thread is parked in SLEEP. -/
def Thread.sleeps (x : Thread) : Bool := match x.st with | .parked (.sleep _) => true | _ => false

/-- The hitch masks of a strand's parked groups. -/
def wanyMask (t : Strand) : BitVec 16 :=
  allLanes.foldl (fun m l => match (t.threads.get l).st with
    | .parked (.wany k _ _) => m ||| k
    | _ => m) 0

/-- The hitches that a parked group of a strand waits for: the valid, unmasked ones of the masks of its parked groups. -/
def parkedMask (t : Strand) : BitVec 16 := t.validMask &&& ~~~t.evmask &&& wanyMask t

/-- Every thread that has not exited is held or parked, none of them in SLEEP (R317), and some is parked in WANY. -/
def allParked (t : Strand) : Bool :=
  t.handler.isNone && t.clause.isNone && t.threadsIn (fun x => x.isReady || x.sleeps) == 0 &&
    allLanes.any (fun l => match (t.threads.get l).st with | .parked (.wany ..) => true | _ => false)

/-- The stall of a strand that counts as a blocked state. -/
def blockedAt (t : Strand) : Option Stall :=
  match (match t.handler with | some h => h.stall | none => t.stall) with
  | some .released => none
  | x => x

/-- The strand is blocked (R345). -/
def Strand.isBlocked (t : Strand) : Bool := !t.ended && ((blockedAt t).isSome || allParked t)

/-- The strands that a barrier's completion waits for: those whose AMASK bit is clear. -/
def missingAt (s : State) (cord k : Nat) : List Nat :=
  let b := getBar (getCord s cord) k
  (strandKeys s cord).filter (fun j => !b.amask.getLsbD (j % 32))

/-- The word at which a strand stalls. -/
def stalledInstr (s : State) (k : Nat) : Option Instr := (wordHere (focusOn s k)).map (·.1)

/-- The record slots that a cord holds: of its accepted copies and fabric operations (R246, R386). -/
def heldSlots (s : State) (cord : Nat) : Nat :=
  let c := getCore s (cord / 16)
  (c.copies.filter (·.cord == cord)).length + (c.fabric.filter (fun o => o.cord == cord && o.accepted)).length

/-- The cords of a core that hold copy slots beyond their reservations. -/
def overReserved (s : State) (core : Nat) : List Nat := (coreCords s core).filter (fun k => reservedSlots (getCord s k) < heldSlots s k)

/-- The strands of a job's running cords. -/
def jobStrands (s : State) (job : Nat) : List Nat := (s.cords.filter (fun e => e.2.job == job)).flatMap (fun e => strandKeys s e.1)

/-- The blocked state of a strand in SNAG's numbers: the state and the object (R364). -/
def snagState (s : State) (k : Nat) : Nat × Nat :=
  let t := getStrand s k
  match blockedAt t with
  | some (.bar b _) => (0, b)
  | some (.barw b) => (0, b)
  | some (.token r) => (1, r)
  | some .issue => (1, 0)
  | some .slot => (match stalledInstr s k with | some (.mcall _) => (2, 0) | _ => (3, 0))
  | some (.tspn _) => (4, 0)
  | some .xacq => (5, 0)
  | some .sigr => (7, 0)
  | _ => (6, ((bits16 (wanyMask t)).head?).getD 0)

/-- What a hitch waits for: a barrier's missing strands, or the posters of a mailbox; an operation waits for no strand. -/
def hitchWaits (s : State) (k : Nat) (h : Hitch) : List Nat := match h.kind with
  | .barrier => missingAt s (k / 32) h.obj
  | .token => []
  | .mailbox => strandKeys s (k / 32)

/-- The strands that a blocked strand waits for (R345), itself apart: a parked strand whose mailbox only it could post to forms no cycle
(17_events, "Binding after the rendezvous"). Operations and signals wait for no strand. -/
def waitsFor (s : State) (k : Nat) : List Nat :=
  let t := getStrand s k
  let all := if !t.isBlocked then [] else match blockedAt t with
    | some (.bar b _) => missingAt s (k / 32) b
    | some (.barw b) => missingAt s (k / 32) b
    | some .slot => (match stalledInstr s k with
      | some (.cpy _) | some (.cpyg _) | some (.cpys _) | some (.xred _) | some (.xput _) | some (.xget _) => (overReserved s (k / 512)).flatMap (strandKeys s)
      | _ => [])
    | some (.tspn _) => jobStrands s (getCord s (k / 32)).job
    | some .xacq => (quadrantStrands s (k / 512) (k % 4)).filter (fun j => (getStrand s j).ext)
    | some _ => []
    | none => (bits16 (parkedMask t)).flatMap (fun i => match aGet? t.hitches i with
      | some h => hitchWaits s k h
      | none => [])
  all.filter (fun j => j != k && !(getStrand s j).ended)

/-- Searches for a cycle from a strand along a path, passing over the strands visited before. -/
def snagFrom (s : State) : Nat → List Nat → List Nat → Nat → Option (List Nat) × List Nat
  | 0, _, seen, _ => (none, seen)
  | n + 1, path, seen, k =>
    if path.contains k then (some ((path.takeWhile (· != k)) ++ [k]).reverse, seen)
    else if seen.contains k then (none, seen)
    else (waitsFor s k).foldl (fun r j => match r.1 with
      | some c => (some c, r.2)
      | none => snagFrom s n (k :: path) r.2 j) (none, k :: seen)

/-- The members of a cycle from the one with the least core, slot and strand. -/
def fromLeast (c : List Nat) : List Nat :=
  let m := c.foldl min (c.headD 0)
  c.dropWhile (· != m) ++ c.takeWhile (· != m)

/-- A member as TINF shows it (R364). -/
def memberWord (s : State) (k : Nat) : Word :=
  let x := snagState s k
  BitVec.ofNat 32 (k / 512 + 2 ^ 7 * (k / 32 % 16) + 2 ^ 11 * (k % 32) + 2 ^ 16 * x.1 + 2 ^ 20 * x.2)

/-- A cycle is reported: the trap is recorded in its least member, and each member notes the cycle. -/
def reportSnag (s : State) (c : List Nat) : State :=
  let ms := (c.take 16).map (memberWord s)
  let s := c.foldl (fun s k => setStrand s k { getStrand s k with reported := c :: (getStrand s k).reported }) s
  recordTrap s (c.headD 0) { code := .snag, cls := .cord, aux := BitVec.ofNat 64 c.length, members := ms }

/-- SNAG_SEARCH (R346): the strand in focus has been blocked for a further 2^20 core cycles. A cycle that all members still note is
not reported again. -/
def execSnagSearch (s : State) : Out :=
  let k := focusStrand s
  let t := me s
  if !t.isBlocked || t.blocked < snagPeriod * (t.searched + 1) then .next s
  else
    let s := setMe s { t with searched := t.searched + 1 }
    match (snagFrom s (s.strands.length + 1) [] [] k).1 with
    | none => .next s
    | some c =>
      let c := fromLeast c
      .next (if c.all (fun j => (getStrand s j).reported.contains c) then s else reportSnag s c)

end Sys2Proof.Machine
end

