-- ==== Sys2Proof/Machine/Commands.lean ====
section
/-! DEFINITION. The management registers and the commands (R212, R394 to R405, R407, R408): register writes, tables, keys, vacating,
firmware and attestation, COMMAND_COMPLETE and DEVICE_RESET. -/

namespace Sys2Proof.Machine

/-! ### Tables in the near store (R399 to R401) -/

/-- A job table entry of 64 bytes (R399). -/
def JobEnt.ofBytes (b : List Byte) : JobEnt :=
  let r := leAt b 0 8
  { valid := r % 2 == 1, root := natBits r 12 36 * 4096, tier := natBits r 48 2, tbase := leAt b 8 8, tlen := leAt b 16 4,
    budget := leAt b 20 4, low0 := leAt b 24 4, high0 := leAt b 28 4, low1 := leAt b 32 4, high1 := leAt b 36 4,
    nsbase := leAt b 40 8, nslen := leAt b 48 4, pllen := leAt b 52 4, plbase := leAt b 56 8 }

/-- A queue table entry of 32 bytes (R400). -/
def QueueEnt.ofBytes (b : List Byte) : QueueEnt :=
  { job := leAt b 0 2, valid := leAt b 2 1 % 2 == 1, capacity := leAt b 4 4, quantum := leAt b 8 4, erate := leAt b 12 4,
    ecap := leAt b 16 8 }

/-- A group table entry of 16 bytes (R401). -/
def GroupEnt.ofBytes (b : List Byte) : GroupEnt :=
  { n := leAt b 0 2, parent := leAt b 2 2, root := leAt b 4 1 % 2 == 1, children := leAt b 5 1 }

/-- A host ring table entry of 16 bytes (R401). -/
def RingEnt.ofBytes (b : List Byte) : RingEnt := { tail := leAt b 0 8, n := leAt b 8 2 }

/-- n bytes of entry i of a table of entries of that size, in the near store. -/
def tableBytes (s : State) (base : DWord) (n i : Nat) : List Byte := devRdN s (physKey 0 0 (base.toNat + n * i)) n

/-- The entries of a table that differ from an empty one. -/
def tableOf {α : Type} [DecidableEq α] (empty : α) (read : Nat → α) (n : Nat) : AMap α :=
  (List.range n).filterMap (fun i => if read i = empty then none else some (i, read i))

/-- The number of entries of each table: job, queue, group, route, host ring. -/
def tableLen (t : Nat) : Nat := match t with | 0 => 1024 | 1 => 256 | 2 => 256 | 3 => 65536 | _ => 64

/-- Reads one entry. -/
def readJob (s : State) (i : Nat) : JobEnt := .ofBytes (tableBytes s s.mgmt.jobtab 64 i)
def readQueue (s : State) (i : Nat) : QueueEnt := .ofBytes (tableBytes s s.mgmt.qtab 32 i)
def readGroup (s : State) (i : Nat) : GroupEnt := .ofBytes (tableBytes s s.mgmt.gtab 16 i)
def readRoute (s : State) (i : Nat) : Byte := memRd s.mem (physKey 0 0 (s.mgmt.rtab.toNat + i))
def readRing (s : State) (i : Nat) : RingEnt := .ofBytes (tableBytes s s.mgmt.hrtab 16 i)

/-- Reads a whole table, when its base has been written. Every queue of a new table has its credit at ECAP (R324). -/
def loadTable (s : State) (t : Nat) : State := match t with
  | 0 => { s with jobs := tableOf {} (readJob s) 1024 }
  | 1 =>
    let qs := tableOf {} (readQueue s) 256
    { s with queues := qs, credit := qs.map (fun e => (e.1, (e.2.ecap : Int))) }
  | 2 => { s with groups := tableOf {} (readGroup s) 256 }
  | 3 => { s with routes := tableOf 0 (readRoute s) 65536 }
  | _ => { s with rings := tableOf {} (readRing s) 64 }

/-- The credit of a queue whose entry is reread (R324). -/
def reloadCredit (old new : QueueEnt) (c : Int) : Int :=
  if !old.valid && new.valid then new.ecap else if new.valid then min c new.ecap else c

/-- Rereads one entry of a table (R398). -/
def reloadEntry (s : State) (t i : Nat) : State := match t with
  | 0 => { s with jobs := aSet s.jobs i (readJob s i) }
  | 1 =>
    let new := readQueue s i
    { s with queues := aSet s.queues i new, credit := aMod 0 s.credit i (reloadCredit (aGet {} s.queues i) new) }
  | 2 => { s with groups := aSet s.groups i (readGroup s i) }
  | 3 => { s with routes := aSet s.routes i (readRoute s i) }
  | _ => { s with rings := aSet s.rings i (readRing s i) }

/-! ### Register writes (R212, R395, R396, R405) -/

/-- A write is discarded and WREJ is set (R395). -/
def rejectWrite (s : State) : State := { s with mgmt := { s.mgmt with wrej := true } }

/-- No task is queued, running or saved. -/
def noTask (s : State) : Bool := s.cords.isEmpty && s.saved.isEmpty && s.fifos.all (fun e => e.2.isEmpty)

/-- The base registers in their order. -/
def setTableBase (m : Mgmt) (t : Nat) (v : DWord) : Mgmt := match t with
  | 0 => { m with jobtab := v }
  | 1 => { m with qtab := v }
  | 2 => { m with gtab := v }
  | 3 => { m with rtab := v }
  | _ => { m with hrtab := v }

/-- Writes a table base: only while no task exists. -/
def writeTableBase (s : State) (t : Nat) (v : DWord) : State :=
  if 4 < t then s
  else if noTask s then loadTable { s with mgmt := setTableBase s.mgmt t v } t
  else rejectWrite s

/-- The submission ring may be changed: SRHEAD equals the doorbell tail and every entry read has its completion record. -/
def submissionIdle (s : State) : Bool :=
  s.mgmt.srhead == s.mgmt.srtail && s.insts.isEmpty && s.watches.isEmpty && s.records.isEmpty

/-- The completion ring may be changed. -/
def completionIdle (s : State) : Bool := s.mgmt.crhead == s.mgmt.crtail && s.records.isEmpty

/-- A ring size is 0 to 16. -/
def ringSizeOk (v : DWord) : Bool := v.toNat ≤ 16

/-- SRBASE (R396). -/
def writeSrbase (s : State) (v : DWord) : State :=
  if submissionIdle s then { s with mgmt := { s.mgmt with srbase := v } } else rejectWrite s

/-- SRSIZE (R396): an accepted write creates the ring. -/
def writeSrsize (s : State) (v : DWord) : State :=
  if submissionIdle s && ringSizeOk v then { s with mgmt := { s.mgmt with srsize := v, srhead := 0, srtail := 0 } } else rejectWrite s

/-- CRBASE (R396). -/
def writeCrbase (s : State) (v : DWord) : State :=
  if completionIdle s then { s with mgmt := { s.mgmt with crbase := v } } else rejectWrite s

/-- CRSIZE (R396). -/
def writeCrsize (s : State) (v : DWord) : State :=
  if completionIdle s && ringSizeOk v then { s with mgmt := { s.mgmt with crsize := v, crhead := 0, crtail := 0 } } else rejectWrite s

/-- SRTAIL (R212, R396): the doorbell. -/
def writeSrtail (s : State) (v : DWord) : State :=
  let m := s.mgmt
  if m.srsize = 0 then s
  else if v.toNat < m.srhead || m.srhead + 2 ^ m.srsize.toNat < v.toNat then rejectWrite s
  else { s with mgmt := { m with srtail := v.toNat } }

/-- CRHEAD (R342, R396): held records follow where there is room now. -/
def writeCrhead (s : State) (v : DWord) : State :=
  let m := s.mgmt
  if v.toNat < m.crhead || m.crtail < v.toNat then rejectWrite s
  else flushRecords (s.records.length + 1) { s with mgmt := { m with crhead := v.toNat } }

/-- POWERCAP (R405): from 600 to 1500. -/
def writePowercap (s : State) (v : DWord) : State := { s with mgmt := { s.mgmt with powercap := max 600 (min 1500 v.toNat) } }

def execSrtail (v : DWord) (s : State) : Out := .next (writeSrtail s v)
def execCrhead (v : DWord) (s : State) : Out := .next (writeCrhead s v)
def execSrbase (v : DWord) (s : State) : Out := .next (writeSrbase s v)
def execSrsize (v : DWord) (s : State) : Out := .next (writeSrsize s v)
def execCrbase (v : DWord) (s : State) : Out := .next (writeCrbase s v)
def execCrsize (v : DWord) (s : State) : Out := .next (writeCrsize s v)
def execPowercap (v : DWord) (s : State) : Out := .next (writePowercap s v)
def execTableBaseWrite (table : Nat) (v : DWord) (s : State) : Out := .next (writeTableBase s table v)

/-! ### Commands (R397, R398) -/

/-- Every write of the package reaches the system point. -/
def flushAll (s : State) : State := flushSys (s.cores.foldl (fun s e => flush s e.1 4) s)

/-- The command completes (R397): BUSY is clear, the status and the result stand, and vector 65 is raised. -/
def finishCommand (s : State) (status : Nat) (result : Word) : State :=
  raiseIrq { s with mgmt := { s.mgmt with busy := false, running := none, status := status, result := result } } 65

/-- A command's own effect: none for an argument out of range; else its status, its result and the state. -/
abbrev CmdRun := Option (Nat × Nat × State)

/-- Command argument i. -/
def cmdArg (s : State) (i : Nat) : DWord := aGet 0 s.mgmt.args i

/-- A cached translation lies in an address range of a job. -/
def Tlb.inRange (t : Tlb) (job va len : Nat) : Bool :=
  let size := if t.big then 2 ^ 21 else 2 ^ 16
  t.job == job && (len == 0 || overlaps (t.vpn * size) size va len)

/-- Every translation cache loses a range of a job. -/
def dropRange (s : State) (job va len : Nat) : State :=
  { s with cores := s.cores.map (fun e => (e.1, { e.2 with tlb := e.2.tlb.filter (fun t => !t.inRange job va len) })) }

/-- INVAL (R200): every translation cache loses the range now, and once more when the command completes. -/
def cmdInval (s : State) : CmdRun :=
  let job := (cmdArg s 0).toNat
  if 1023 < job then none else some (0, 0, dropRange s job (cmdArg s 1).toNat (cmdArg s 2).toNat)

/-- RELOAD. -/
def cmdReload (s : State) : CmdRun :=
  let t := (cmdArg s 0).toNat
  let i := (cmdArg s 1).toNat
  if 4 < t || tableLen t ≤ i then none else some (0, 0, reloadEntry s t i)

/-- Every entry of a job's object table is free, with GEN 0 (R215). -/
def clearTable (s : State) (job : Nat) : State :=
  (List.range (aGet {} s.jobs job).tlen).foldl
    (fun s i => setObj s job i { addr := 0, tier := 0, cls := 0, pri := 0, st := 0, sc := 0, wc := 0, gen := 0, age := i + 1, spec := 0 })
    { s with dying := s.dying.filter (·.1 != job), lowDue := s.lowDue.filter (·.1 != job) }

/-- JOBSTART (R402): the job's entry is read, its object table is empty, and its new key becomes live: pool memory that any key has written
reads under it as what the decryption makes of it. -/
def cmdJobstart (s : State) : CmdRun :=
  let job := (cmdArg s 0).toNat
  if 1023 < job then none
  else if s.mgmt.keys.contains job then some (2, 0, s)
  else
    let s := clearTable (reloadEntry s 0 job) job
    let s := s.lines.foldl (fun s l => garble s job l.1 l.2) s
    some (0, 0, { s with mgmt := { s.mgmt with keys := s.mgmt.keys ++ [job] } })

/-- A task of the job is queued, running or saved, or an instance of its queues runs. -/
def jobBusy (s : State) (job : Nat) : Bool :=
  s.cords.any (fun e => e.2.job == job) || s.saved.any (fun v => v.cord.job == job) || s.insts.any (fun e => e.2.job == job) ||
    s.fifos.any (fun e => e.2.any (fun x => itemJob s (e.1 / 16) x.item == job))

/-- A byte of pool memory under a job's key. -/
def underKey (job key : Nat) : Bool := tierOf key == 1 && extOf key == job

/-- The key is destroyed: what was written under it cannot be read any more. -/
def destroyKey (s : State) (job : Nat) : State :=
  let mem := s.mem.foldl (fun m e => if underKey job e.1 then memWr m e.1 (Config.erasedByte s.mgmt.keyEras e.1) else m) s.mem
  { s with mem := mem, mgmt := { s.mgmt with keys := s.mgmt.keys.filter (· != job), keyEras := s.mgmt.keyEras + 1 } }

/-- n bytes of the near store become 0 at the device point. -/
def zeroNear (s : State) (base n : Nat) : State :=
  let lo := physKey 0 0 base
  { s with mem := s.mem.filter (fun e => !(lo ≤ e.1 && e.1 < lo + n)), poisoned := s.poisoned.filter (fun p => !(lo ≤ p && p < lo + n)) }

/-- JOBEND (R402). -/
def cmdJobend (s : State) : CmdRun :=
  let job := (cmdArg s 0).toNat
  let sig := cmdArg s 1
  if 1023 < job then none
  else if jobBusy s job then some (2, 0, s)
  else
    let j : JobEnt := aGet {} s.jobs job
    let s := zeroNear (destroyKey (flushAll s) job) j.nsbase (j.nslen * 2 ^ 21)
    some (0, 0, match (if sig = 0 || sig.toNat % 8 != 0 then none else unitPlace s job sig 8 .wr) with
      | some p => flushSys (subSignal s none p 1)
      | none => s)

/-- VACATE (R370): short where fewer than k cores are candidates. -/
def cmdVacate (s : State) : CmdRun :=
  let k := (cmdArg s 0).toNat
  let l := (cmdArg s 1).toNat
  if k < 1 || 128 < k || 15 < l then none
  else
    let r := chooseCores l 128 k [] s
    some (if r.1 < k then 3 else 0, r.1, r.2)

/-- WITHDRAW (R370). -/
def cmdWithdraw (s : State) : CmdRun :=
  some (0, 0, { s with mgmt := { s.mgmt with vacated := [] } })

/-- COREOFF: the core is vacated for every level; SHORT where its cords cannot be saved. The result holds the core while it runs. -/
def cmdCoreoff (s : State) : CmdRun :=
  let c := (cmdArg s 0).toNat
  if 127 < c then none
  else
    let r := stopCords (runningCords s c) s
    let off := if s.mgmt.off.contains c then s.mgmt.off else s.mgmt.off ++ [c]
    if r.1 then some (0, c, { r.2 with mgmt := { r.2.mgmt with off := off } }) else some (3, c, r.2)

/-- COREON: the core returns; a request to vacate it stands. -/
def cmdCoreon (s : State) : CmdRun :=
  let c := (cmdArg s 0).toNat
  if 127 < c then none
  else some (0, 0, { s with present := s.present ||| BitVec.twoPow 128 c, mgmt := { s.mgmt with off := s.mgmt.off.filter (· != c) } })

/-- PORTREM (R407): new traffic stops at once; the command completes when the accesses in flight have ended. -/
def cmdPortrem (s : State) : CmdRun :=
  let p := (cmdArg s 0).toNat
  if 11 < p then none
  else some (0, 0, { s with mgmt := { s.mgmt with ports := aDel s.mgmt.ports p } })

/-- Trains a pool port: its POOLMAP entry is what the port finds (R407, R408), inside the 4096 GiB of pool address space (R1, R198). -/
def trainPort (s : State) (p : Nat) : State :=
  let base := (Config.poolBase s.free p).toNat
  let e := (base, min (Config.poolSize s.free p).toNat (4096 - base))
  { s with mgmt := { s.mgmt with ports := if e.2 = 0 then aDel s.mgmt.ports p else aSet s.mgmt.ports p e } }

/-- PORTADD (R407). -/
def cmdPortadd (s : State) : CmdRun :=
  let p := (cmdArg s 0).toNat
  if 11 < p then none
  else
    let t := trainPort s p
    some (0, 0, { t with free := t.free + 1 })

/-- n bytes of host memory at the system point. -/
def hostRd (s : State) (a : DWord) (n : Nat) : List Byte := (List.range n).map (fun i => sysRd s (hostKey (a.toNat + i)))

/-- Writes host memory at the system point. -/
def hostWr (s : State) (a : DWord) (bs : List Byte) : State := flushSys (devWr s (hostKey a.toNat) bs)

/-- The image of a flash slot: the factory's until one is staged. -/
def imageOf (m : Mgmt) (slot : Nat) : List Byte := (aGet? m.images slot).getD (Config.fwFactory slot)

/-- The vendor's signature of an image verifies (R403). -/
def imageSigned (image : List Byte) : Bool := edVerify Config.vendorKey (Config.fwSigned image) (Config.fwSignature image)

/-- An image verifies, with a rollback counter no lower than FWSLOT's (R403). -/
def imageOk (m : Mgmt) (image : List Byte) : Bool := imageSigned image && m.rollback.toNat ≤ (Config.fwRollback image).toNat

/-- The bits set in CORES. -/
def corePresent (s : State) : Nat := ((List.range 128).filter (fun c => s.present.getLsbD c)).length

/-- The Tirral ports at full width (R393). -/
def fullPorts (s : State) : Nat := ((List.range 8).filter (fun p => !s.portsLost.contains p && !s.portsNarrow.contains p)).length

/-- Bytes 0 to 191 of the report (R404). -/
def reportBody (s : State) (nonce : List Byte) : List Byte :=
  leBytes 4 0x54414C43 ++ leBytes 4 1 ++ nonce ++ sha512 (imageOf s.mgmt s.mgmt.slot) ++
    leBytes 8 s.mgmt.rollback.toNat ++ leBytes 8 Config.serial.toNat ++
    leBytes 1 s.mgmt.ports.length ++ leBytes 1 (fullPorts s) ++ leBytes 1 (corePresent s) ++ leBytes 5 0 ++ List.replicate 64 0

/-- ATTEST (R404). -/
def cmdAttest (s : State) : CmdRun :=
  let body := reportBody s (hostRd s (cmdArg s 0) 32)
  some (0, 0, hostWr s (cmdArg s 1) (body ++ edSign Config.deviceKey body))

/-- FWSTAGE (R403): VERIFY where the image fails. -/
def cmdFwstage (s : State) : CmdRun :=
  let image := hostRd s (cmdArg s 0) (cmdArg s 1).toNat
  let m := s.mgmt
  if imageOk m image then some (0, 0, { s with mgmt := { m with images := aSet m.images (1 - m.slot) image, otherOk := true } })
  else some (4, 0, s)

/-- FWSWAP (R403): the staged slot is active from the next reset; VERIFY where the other slot holds no valid image. -/
def cmdFwswap (s : State) : CmdRun :=
  let m := s.mgmt
  if m.otherOk then
    let r := Config.fwRollback (imageOf m (1 - m.slot))
    some (0, 0, { s with mgmt := { m with nextSlot := some (1 - m.slot), rollback := if m.rollback.toNat < r.toNat then r else m.rollback } })
  else some (4, 0, s)

/-- The commands by number. -/
def cmdRun (n : Nat) (s : State) : CmdRun := match n with
  | 1 => cmdInval s
  | 2 => cmdReload s
  | 3 => cmdJobstart s
  | 4 => cmdJobend s
  | 5 => cmdVacate s
  | 6 => cmdWithdraw s
  | 7 => cmdCoreoff s
  | 8 => cmdCoreon s
  | 9 => cmdPortrem s
  | 10 => cmdPortadd s
  | 11 => cmdAttest s
  | 12 => cmdFwstage s
  | 13 => cmdFwswap s
  | _ => none

/-- A write of CMD (R397): discarded while BUSY. Before STATE is 2 every command but FWSTAGE completes with BUSY (R408); an argument
out of range completes it with BADARG and changes nothing else. Any other command is accepted and clears WREJ (R395). -/
def command (n : Nat) (s : State) : State :=
  let ok (s : State) : State := { s with mgmt := { s.mgmt with wrej := false } }
  if s.mgmt.busy then s
  else if s.mgmt.state != 2 && n != 12 then finishCommand (ok s) 2 0
  else match cmdRun n s with
    | none => finishCommand s 1 0
    | some (st, r, t) =>
      { ok t with mgmt := { (ok t).mgmt with busy := true, running := some (n, st, BitVec.ofNat 32 r), runArgs := s.mgmt.args } }

def execInval (s : State) : Out := .next (command 1 s)
def execReload (s : State) : Out := .next (command 2 s)
def execJobstart (s : State) : Out := .next (command 3 s)
def execJobend (s : State) : Out := .next (command 4 s)
def execVacate (s : State) : Out := .next (command 5 s)
def execWithdraw (s : State) : Out := .next (command 6 s)
def execCoreoff (s : State) : Out := .next (command 7 s)
def execCoreon (s : State) : Out := .next (command 8 s)
def execPortrem (s : State) : Out := .next (command 9 s)
def execPortadd (s : State) : Out := .next (command 10 s)
def execAttest (s : State) : Out := .next (command 11 s)
def execFwstage (s : State) : Out := .next (command 12 s)
def execFwswap (s : State) : Out := .next (command 13 s)

/-- REGISTER_WRITE (R395): CMDARG0 to 3 keep what is written; a write at another register's offset is that register's write; every
other write is discarded. -/
def execRegisterWrite (off : Nat) (v : DWord) (s : State) : Out :=
  .next (match off with
    | 0x010 => writeTableBase s 0 v
    | 0x018 => writeTableBase s 1 v
    | 0x020 => writeTableBase s 2 v
    | 0x028 => writeTableBase s 3 v
    | 0x030 => writeTableBase s 4 v
    | 0x040 => writeSrbase s v
    | 0x048 => writeSrsize s v
    | 0x050 => writeSrtail s v
    | 0x060 => writeCrbase s v
    | 0x068 => writeCrsize s v
    | 0x078 => writeCrhead s v
    | 0x080 => command (v.toNat % 256) s
    | 0x088 => { s with mgmt := { s.mgmt with args := aSet s.mgmt.args 0 v } }
    | 0x090 => { s with mgmt := { s.mgmt with args := aSet s.mgmt.args 1 v } }
    | 0x098 => { s with mgmt := { s.mgmt with args := aSet s.mgmt.args 2 v } }
    | 0x0A0 => { s with mgmt := { s.mgmt with args := aSet s.mgmt.args 3 v } }
    | 0x0B0 => writePowercap s v
    | _ => s)

/-- A write goes to pool memory that no port backs any more. -/
def toLostPool (s : State) (key : Nat) : Bool := tierOf key == 1 && !backed s 1 (paOf key)

/-- No access is in flight to pool memory that no port backs any more (R407): queued stores, committed writes, writes above a die. -/
def portQuiet (s : State) : Bool :=
  s.strands.all (fun e => e.2.stores.all (fun q => q.scratch || !toLostPool s q.key)) &&
    s.cores.all (fun e => e.2.up.all (fun w => !toLostPool s w.key) &&
      (e.2.run.toList.flatMap (·.stores)).all (fun q => q.scratch || !toLostPool s q.key)) &&
    s.dieUp.all (fun e => e.2.all (fun w => !toLostPool s w.key)) && s.sysUp.all (fun w => !toLostPool s w.key)

/-- The running command is done: vacating commands wait until the cords have been saved (R370, R371), PORTREM for its accesses in flight. -/
def commandDone (s : State) (cmd status : Nat) (result : Word) : Bool := match cmd with
  | 9 => portQuiet s
  | 5 => s.cords.all (fun e => !e.2.stopping)
  | 7 => status != 0 || (coreCords s result.toNat).isEmpty
  | _ => true

/-- COMMAND_COMPLETE (R397). COREOFF removes its core from CORES, and INVAL leaves no cached entry of its range (R398). -/
def execCommandComplete (s : State) : Out := match s.mgmt.running with
  | none => .next s
  | some (cmd, st, r) =>
    if !commandDone s cmd st r then .next s
    else if cmd = 7 then
      let t := if st = 0 then { s with present := s.present &&& ~~~BitVec.twoPow 128 r.toNat } else s
      .next (finishCommand t st 0)
    else if cmd = 1 then
      let arg (i : Nat) : Nat := (aGet 0 s.mgmt.runArgs i).toNat
      .next (finishCommand (dropRange s (arg 0) (arg 1) (arg 2)) st r)
    else .next (finishCommand s st r)

/-- What the host reads at an offset of BAR0 (R395): 0 at an offset that is not listed. -/
def barRead (s : State) (off : Nat) : DWord :=
  let m := s.mgmt
  match off with
  | 0x000 => BitVec.ofNat 64 (0xC109 + 2 ^ 16 * Config.serial.toNat)
  | 0x008 => BitVec.ofNat 64 m.state
  | 0x010 => m.jobtab
  | 0x018 => m.qtab
  | 0x020 => m.gtab
  | 0x028 => m.rtab
  | 0x030 => m.hrtab
  | 0x040 => m.srbase
  | 0x048 => m.srsize
  | 0x058 => BitVec.ofNat 64 m.srhead
  | 0x060 => m.crbase
  | 0x068 => m.crsize
  | 0x070 => BitVec.ofNat 64 m.crtail
  | 0x088 => aGet 0 m.args 0
  | 0x090 => aGet 0 m.args 1
  | 0x098 => aGet 0 m.args 2
  | 0x0A0 => aGet 0 m.args 3
  | 0x0A8 => BitVec.ofNat 64 (m.busy.toNat + 2 * m.status + 2 ^ 8 * m.wrej.toNat + 2 ^ 32 * m.result.toNat)
  | 0x0B0 => BitVec.ofNat 64 m.powercap
  | 0x0B8 => BitVec.ofNat 64 m.powernow
  | 0x0C0 => m.errce
  | 0x0C8 => m.errue
  | 0x0D0 => BitVec.ofNat 64 (m.slot + 2 * m.otherOk.toNat + 2 ^ 16 * m.rollback.toNat)
  | _ =>
    if 0x100 ≤ off && off < 0x160 && off % 8 = 0 then
      let e := aGet (0, 0) m.ports ((off - 0x100) / 8)
      BitVec.ofNat 64 (e.1 + 2 ^ 16 * e.2)
    else 0

/-! ### Reset (R403, R408) -/

/-- The boot ROM's choice: the slot that becomes active, and whether the other one holds a valid image; none where both fail. -/
def bootSlot (m : Mgmt) : Option (Nat × Bool) :=
  let slot := m.nextSlot.getD m.slot
  let a := imageOk m (imageOf m slot)
  let b := imageOk m (imageOf m (1 - slot))
  if a then some (slot, b) else if b then some (1 - slot, false) else none

/-- What a reset keeps: the memories as they stand, the flash, and the model's own counters. Pool memory is under no live key. Which memories
survive, and that no port is lost or narrow afterwards, so that every Tirral port is trained at full width again, are the model's choice
(DESIGN CHOICE, log entry 48). -/
def afterReset (s : State) : State :=
  let m := s.mgmt
  let mine (k : Nat) : Bool := k < 4 * 2 ^ 72
  { State.reset with
    mem := s.mem.filter (fun e => mine e.1), poisoned := s.poisoned.filter mine, lines := s.lines,
    free := s.free + 1, agenda := s.agenda, focus := s.focus,
    mgmt := { slot := m.slot, rollback := m.rollback, images := m.images, keyEras := m.keyEras } }

/-- Every job's key is destroyed. -/
def destroyKeys (s : State) : State := s.mgmt.keys.foldl destroyKey s

/-- DEVICE_RESET (R403, R408): the firmware is verified, and STATE is 1, or 3 where no image verifies. The rest of the bring-up is due. -/
def execDeviceReset (s : State) : Out :=
  let r := afterReset (destroyKeys (flushAll s))
  .next (match bootSlot s.mgmt with
    | none => { r with mgmt := { r.mgmt with state := 3 } }
    | some (slot, other) => { r with mgmt := { r.mgmt with state := 1, slot := slot, otherOk := other } })

/-- The rest of the bring-up (R408): the near store is zeroed, the pool ports, Tirral and the host link are trained, and STATE is 2. Every
core is present and every Tirral port works at full width (log entry 48). -/
def bringUp (s : State) : State :=
  if s.mgmt.state != 1 then s
  else
    let near (k : Nat) : Bool := k < 2 ^ 72
    let t : State := { s with mem := s.mem.filter (fun e => !near e.1), poisoned := s.poisoned.filter (fun p => !near p),
                              present := BitVec.allOnes 128, portsLost := [], portsNarrow := [], mgmt := { s.mgmt with state := 2 } }
    { (List.range 12).foldl trainPort t with free := s.free + 1 }

end Sys2Proof.Machine
end

