-- ==== Sys2Proof/Machine/Service.lean ====
section
/-! DEFINITION. What happens beside the strands and the capstan: WRITE_PROPAGATION (R205, R206), the errors of R406, time on a core, and
what an older value held by a cache makes visible (R121, R200, R205). -/

namespace Sys2Proof.Machine

/-! ### Propagation (R205, R206) -/

/-- A core's view of a byte moves to its die point, with the unit that holds it (R201). -/
def refreshView (s : State) (core key : Nat) : State :=
  let c := getCore s core
  setCore s core { c with view := dropView c.view key 1 }

/-- A die point moves to the device point. -/
def refreshDie (s : State) (die key : Nat) : State := { s with dieLag := aSet s.dieLag die (dropView (aGet [] s.dieLag die) key 1) }

/-- WRITE_PROPAGATION: one move. -/
def execWritePropagation (h : Hop) (s : State) : Out :=
  .next (match h with
    | .toDie core ix => moveToDie s core ix
    | .toDevice die ix => moveToDevice s die ix
    | .toSystem ix => moveToSystem s ix
    | .viewRefresh core key => refreshView s core key
    | .dieRefresh die key => refreshDie s die key)

/-! ### Older values (R205) -/

/-- The bound of R205 in core cycles. -/
def staleBound : Nat := 65536

/-- Some units of a view stay where they are: a view that holds a byte of the unit already, or a write on its way to it, leaves it. -/
def keepUnit (v : AMap (Byte × Nat)) (up : List Committed) (rd : Nat → Byte) (key : Nat) : AMap (Byte × Nat) :=
  let b := unitBase key
  let n := unitOf key
  if up.any (·.touches b n) || v.any (fun e => b ≤ e.1 && e.1 < b + n) then v
  else (List.range n).foldl (fun v i => aSet v (b + i) (rd (b + i), staleBound)) v

/-- A core's view of a unit stays where it is while the die point moves on: it keeps the value it has now. A peer's memory is not cached
(R198, R384), and a unit that carries an uncorrectable error is not kept. -/
def keepView (s : State) (core key : Nat) : State :=
  let c := getCore s core
  if tierOf key = 3 || poisonSeen s core (unitBase key) (unitOf key) false then s
  else setCore s core { c with view := keepUnit c.view c.up (dieRd s (dieOf core)) key }

/-- A die point of pool or host memory stays where it is while the device point moves on. The near store and a Tirral port are the
device point themselves (R202). -/
def keepDie (s : State) (die key : Nat) : State :=
  if dieIsDevice key || poisonHit s (unitBase key) (unitOf key) then s
  else { s with dieLag := aSet s.dieLag die (keepUnit (aGet [] s.dieLag die) (aGet [] s.dieUp die) (memRd s.mem) key),
                dieBad := soundDie s die (fun _ => false) }

/-! ### Errors (R406) -/

/-- The tier that stands for the scratchpads in an error's key: 2^32 * cord + offset. -/
def padTier : Nat := 6

/-- ECC_CORRECTED: the data is as it was; a row that is spared is switched in one event, with no visible effect. -/
def execEccCorrected (_key : Nat) (_spare : Bool) (s : State) : Out := .next (countErrors s 1 0)

/-- A silt cell: the cord, the row and the cell, above this base. -/
def siltTier : Nat := 7

/-- A word of a die cache: its physical key, with one more than the die above bit 80. -/
def dieKey (die key : Nat) : Nat := 2 ^ 80 * (die + 1) + key

/-- The word of a die cache carries an uncorrectable error (R406): it holds pool and host memory (R383), a line that it has fetched as the
device point stands, or a write on its way. -/
def poisonDie (s : State) (die key : Nat) : State :=
  let w := key / 8 * 8
  let t := keepDie s die w
  if 4 ≤ die || tierOf key < 1 || 2 < tierOf key || !dieHolds t die w 8 || (dieBadWords t die).contains w then s
  else { t with dieBad := aSet t.dieBad die (dieBadWords t die ++ [w]) }

/-- Poisons the data of a key: an 8-byte word of memory, of a die cache or of a cord's scratchpad, or a silt cell. -/
def poisonWord (s : State) (key : Nat) : State :=
  if 2 ^ 80 ≤ key then poisonDie s (key / 2 ^ 80 - 1) (key % 2 ^ 80)
  else if tierOf key = siltTier then
    let cord := key / 2 ^ 32 % 2048
    let row := key % 2 ^ 32 / 1024
    if (aGet? s.cords cord).isSome && row < (getCord s cord).hdr.silt
    then setSilt s cord row ((getSilt (getCord s cord) row).poison (key % 1024)) else s
  else if tierOf key = padTier then
    let cord := key / 2 ^ 32 % 2048
    let c := getCord s cord
    let w := key % 2 ^ 32 / 8 * 8
    if (aGet? s.cords cord).isSome && w < c.hdr.scratch && !c.bad.contains w then setCord s cord { c with bad := c.bad ++ [w] } else s
  else
    let w := key / 8 * 8
    if s.poisoned.contains w then s else { s with poisoned := s.poisoned ++ [w] }

/-- UNCORRECTABLE_ERROR. -/
def execUncorrectableError (key : Nat) (s : State) : Out := .next (poisonWord (countErrors s 0 1) key)

/-- NEAR_STORE_SCRUB: a line of the near store is read and corrected; its data is as it was. -/
def execNearStoreScrub (_line : Nat) (s : State) : Out := .next s

/-! ### Time (R205, R256, R317, R346) -/

/-- n core cycles pass for a thread: a sleep runs down, no further than a pending expiry. -/
def Thread.tick (n : Nat) (x : Thread) : Thread := match x.st with
  | .parked (.sleep k) => { x with st := .parked (.sleep (k - n)) }
  | _ => x

/-- n core cycles pass for a strand. A strand in handler mode is frozen but its sleeps run on. -/
def Strand.tick (n : Nat) (t : Strand) : Strand :=
  let t := { t with threads := Lanes.tab (fun l => (t.threads.get l).tick n) }
  if t.isBlocked then { t with blocked := t.blocked + n } else t.unblock

/-- Older values that a cache holds come nearer to their bound of 65,536 core cycles, and move when it is reached (R205). -/
def ageView (n : Nat) (v : AMap (Byte × Nat)) : AMap (Byte × Nat) :=
  v.filterMap (fun e => if e.2.2 ≤ n then none else some (e.1, e.2.1, e.2.2 - n))

/-- n core cycles pass on a core. -/
def tickCore (s : State) (core n : Nat) : State :=
  let c := getCore s core
  let run := c.run.map (fun r => if r.ended.isNone && r.waiting then { r with spent := r.spent + n } else r)
  let s := setCore s core { c with cycles := c.cycles + n, view := ageView n c.view, run := run }
  { s with strands := s.strands.map (fun e => if e.1 / 512 = core then (e.1, e.2.tick n) else e),
           dieLag := s.dieLag.map (fun e => if e.1 = dieOf core then (e.1, ageView n e.2) else e) }

/-! ### Constant caches (R121) -/

/-- The least scope of a fence of a cord that covers the writers whose writes to some bytes are on their way to its die or the device point;
6 where there are none. -/
def pendingReach (s : State) (cord key n : Nat) : Nat :=
  let core := cord / 16
  let near (c : Nat) : Bool := dieOf c = dieOf core
  if s.cores.any (fun e => e.1 != core && near e.1 && e.2.up.any (·.touches key n)) then 3
  else if s.cores.any (fun e => !near e.1 && e.2.up.any (·.touches key n)) ||
      s.dieUp.any (fun e => e.1 != dieOf core && e.2.any (·.touches key n)) then 4
  else 6

/-- A cord's constant cache keeps a unit as it stands now for its core (R121). -/
def keepConst (s : State) (cord key : Nat) : State :=
  if (aGet? s.cords cord).isNone || poisonSeen s (cord / 16) (unitBase key) (unitOf key) true then s
  else
    let b := unitBase key
    let n := unitOf key
    { s with consts := s.consts ++ [{ cord := cord, key := b, bytes := (List.range n).map (fun i => laterRd s (cord / 16) (b + i)),
                                      need := pendingReach s cord b n }] }

/-- The bytes that f gives at some keys, as cells. -/
def cellsOf (f : Nat → Byte) (ks : List Nat) : List Host.Cell := ks.foldl (fun m k => memWr m k (f k)) []

/-- The keys of the bytes at which memory, or a core's view of it, holds more than its reset contents. -/
def viewKeys (s : State) (core : Nat) : List Nat :=
  let c := getCore s core
  let of' (l : List Committed) : List Nat := l.flatMap (fun w => (List.range w.bytes.length).map (w.key + ·))
  s.mem.map (·.1) ++ (aGet [] s.dieLag (dieOf core)).map (·.1) ++ of' (aGet [] s.dieUp (dieOf core)) ++ c.view.map (·.1) ++ of' c.up

/-- The capstan word in progress on the core in focus may read bytes as they are now, before it has its effect (R257). The stores of earlier
words have left the queue by then (R284). -/
def glimpse (s : State) : State := match myRun? s with
  | none => s
  | some r =>
    if r.clause.isNone || r.over s || (getCord s r.call.cord).stopping then s
    else
      let t := drainCap s
      let core := t.focus.core
      let ks := viewKeys t core
      let x : Glimpse := { pad := (getCord t r.call.cord).scratch, view := cellsOf (fun k => coreRd t core k false) ks,
                           dev := cellsOf (fun k => coreRd t core k true) ks }
      setRun t { myRun t with seen := (myRun t).seen ++ [x] }

/-- A core's translation cache drops an entry (R200). -/
def dropTlb (s : State) (core ix : Nat) : State :=
  let c := getCore s core
  setCore s core { c with tlb := lDel c.tlb ix }

/-- The host writes a byte of its own memory (R212). -/
def hostByte (s : State) (addr : Nat) (b : Byte) : State :=
  let s := settleSys s (hostKey addr) 1
  noteWrite .host (hostKey addr) 1 { s with mem := memWr s.mem (hostKey addr) b }

/-- System software writes a byte of the near store, where it keeps its tables (R395, R398, R408). In recovery nothing but BAR0 and FWSTAGE
works (R403). -/
def hostNear (s : State) (addr : Nat) (b : Byte) : State :=
  let k := physKey 0 0 (addr % 2 ^ 33)
  if s.mgmt.state = 3 then s else noteWrite .host k 1 { s with mem := memWr s.mem k b }

end Sys2Proof.Machine
end

