-- ==== Sys2Proof/Machine/Dispatch.lean ====
section
/-! DEFINITION. The meaning of every instruction: one arm for each constructor. -/

namespace Sys2Proof.Machine

/-- Executes one instruction, or one step of the device, in a state. -/
def exec (i : Instr) (s : State) : Host.Outcome State Fault Refusal :=
  match i with
  | .nop w => Sys2Proof.Machine.execNop w s
  | .mov w => Sys2Proof.Machine.execMov w s
  | .movi w => Sys2Proof.Machine.execMovi w s
  | .movh w => Sys2Proof.Machine.execMovh w s
  | .sel w => Sys2Proof.Machine.execSel w s
  | .lea w => Sys2Proof.Machine.execLea w s
  | .srd w => Sys2Proof.Machine.execSrd w s
  | .swr w => Sys2Proof.Machine.execSwr w s
  | .iadd w => Sys2Proof.Machine.execIadd w s
  | .isub w => Sys2Proof.Machine.execIsub w s
  | .iaddc w => Sys2Proof.Machine.execIaddc w s
  | .imul w => Sys2Proof.Machine.execImul w s
  | .imulh w => Sys2Proof.Machine.execImulh w s
  | .imad w => Sys2Proof.Machine.execImad w s
  | .imadw w => Sys2Proof.Machine.execImadw w s
  | .idiv w => Sys2Proof.Machine.execIdiv w s
  | .irem w => Sys2Proof.Machine.execIrem w s
  | .imin w => Sys2Proof.Machine.execImin w s
  | .imax w => Sys2Proof.Machine.execImax w s
  | .iabs w => Sys2Proof.Machine.execIabs w s
  | .ineg w => Sys2Proof.Machine.execIneg w s
  | .isat w => Sys2Proof.Machine.execIsat w s
  | .and w => Sys2Proof.Machine.execAnd w s
  | .or w => Sys2Proof.Machine.execOr w s
  | .xor w => Sys2Proof.Machine.execXor w s
  | .andn w => Sys2Proof.Machine.execAndn w s
  | .not w => Sys2Proof.Machine.execNot w s
  | .shl w => Sys2Proof.Machine.execShl w s
  | .shr w => Sys2Proof.Machine.execShr w s
  | .sar w => Sys2Proof.Machine.execSar w s
  | .rotl w => Sys2Proof.Machine.execRotl w s
  | .bfx w => Sys2Proof.Machine.execBfx w s
  | .bfi w => Sys2Proof.Machine.execBfi w s
  | .popc w => Sys2Proof.Machine.execPopc w s
  | .clz w => Sys2Proof.Machine.execClz w s
  | .ctz w => Sys2Proof.Machine.execCtz w s
  | .brev w => Sys2Proof.Machine.execBrev w s
  | .bprm w => Sys2Proof.Machine.execBprm w s
  | .icmp w => Sys2Proof.Machine.execIcmp w s
  | .iset w => Sys2Proof.Machine.execIset w s
  | .plog w => Sys2Proof.Machine.execPlog w s
  | .pmov w => Sys2Proof.Machine.execPmov w s
  | .idot4 w => Sys2Proof.Machine.execIdot4 w s
  | .idot2 w => Sys2Proof.Machine.execIdot2 w s
  | .iadd3 w => Sys2Proof.Machine.execIadd3 w s
  | .blut w => Sys2Proof.Machine.execBlut w s
  | .rhash w => Sys2Proof.Machine.execRhash w s
  | .fshf w => Sys2Proof.Machine.execFshf w s
  | .fadd w => Sys2Proof.Machine.execFadd w s
  | .fsub w => Sys2Proof.Machine.execFsub w s
  | .fmul w => Sys2Proof.Machine.execFmul w s
  | .ffma w => Sys2Proof.Machine.execFfma w s
  | .fmin w => Sys2Proof.Machine.execFmin w s
  | .fmax w => Sys2Proof.Machine.execFmax w s
  | .fminp w => Sys2Proof.Machine.execFminp w s
  | .fmaxp w => Sys2Proof.Machine.execFmaxp w s
  | .fabs w => Sys2Proof.Machine.execFabs w s
  | .fneg w => Sys2Proof.Machine.execFneg w s
  | .fcmp w => Sys2Proof.Machine.execFcmp w s
  | .fset w => Sys2Proof.Machine.execFset w s
  | .fcls w => Sys2Proof.Machine.execFcls w s
  | .frnd w => Sys2Proof.Machine.execFrnd w s
  | .fscl w => Sys2Proof.Machine.execFscl w s
  | .fexpn w => Sys2Proof.Machine.execFexpn w s
  | .fdot2 w => Sys2Proof.Machine.execFdot2 w s
  | .fdot4 w => Sys2Proof.Machine.execFdot4 w s
  | .fcps w => Sys2Proof.Machine.execFcps w s
  | .fmed3 w => Sys2Proof.Machine.execFmed3 w s
  | .exp2 w => Sys2Proof.Machine.execExp2 w s
  | .log2 w => Sys2Proof.Machine.execLog2 w s
  | .rcp w => Sys2Proof.Machine.execRcp w s
  | .rsq w => Sys2Proof.Machine.execRsq w s
  | .sqrt w => Sys2Proof.Machine.execSqrt w s
  | .sinp w => Sys2Proof.Machine.execSinp w s
  | .cosp w => Sys2Proof.Machine.execCosp w s
  | .tanh w => Sys2Proof.Machine.execTanh w s
  | .fdiv w => Sys2Proof.Machine.execFdiv w s
  | .fadd3 w => Sys2Proof.Machine.execFadd3 w s
  | .cvtf w => Sys2Proof.Machine.execCvtf w s
  | .cvne w => Sys2Proof.Machine.execCvne w s
  | .cvnd w => Sys2Proof.Machine.execCvnd w s
  | .i2f w => Sys2Proof.Machine.execI2f w s
  | .f2i w => Sys2Proof.Machine.execF2i w s
  | .pack w => Sys2Proof.Machine.execPack w s
  | .unpk w => Sys2Proof.Machine.execUnpk w s
  | .fxq w => Sys2Proof.Machine.execFxq w s
  | .fxd w => Sys2Proof.Machine.execFxd w s
  | .bscl w => Sys2Proof.Machine.execBscl w s
  | .shfl w => Sys2Proof.Machine.execShfl w s
  | .bxch w => Sys2Proof.Machine.execBxch w s
  | .rxch w => Sys2Proof.Machine.execRxch w s
  | .vote w => Sys2Proof.Machine.execVote w s
  | .matchLanes w => Sys2Proof.Machine.execMatchLanes w s
  | .lmov w => Sys2Proof.Machine.execLmov w s
  | .lput w => Sys2Proof.Machine.execLput w s
  | .redl w => Sys2Proof.Machine.execRedl w s
  | .scanl w => Sys2Proof.Machine.execScanl w s
  | .lfnd w => Sys2Proof.Machine.execLfnd w s
  | .lrot w => Sys2Proof.Machine.execLrot w s
  | .bra w => Sys2Proof.Machine.execBra w s
  | .brx w => Sys2Proof.Machine.execBrx w s
  | .call w => Sys2Proof.Machine.execCall w s
  | .callx w => Sys2Proof.Machine.execCallx w s
  | .ret w => Sys2Proof.Machine.execRet w s
  | .join w => Sys2Proof.Machine.execJoin w s
  | .meet w => Sys2Proof.Machine.execMeet w s
  | .exit w => Sys2Proof.Machine.execExit w s
  | .trap w => Sys2Proof.Machine.execTrap w s
  | .yield w => Sys2Proof.Machine.execYield w s
  | .ptok w => Sys2Proof.Machine.execPtok w s
  | .brk w => Sys2Proof.Machine.execBrk w s
  | .bdec w => Sys2Proof.Machine.execBdec w s
  | .ld w => Sys2Proof.Machine.execLd w s
  | .st w => Sys2Proof.Machine.execSt w s
  | .lds w => Sys2Proof.Machine.execLds w s
  | .sts w => Sys2Proof.Machine.execSts w s
  | .ldc w => Sys2Proof.Machine.execLdc w s
  | .ldaq w => Sys2Proof.Machine.execLdaq w s
  | .strl w => Sys2Proof.Machine.execStrl w s
  | .stnt w => Sys2Proof.Machine.execStnt w s
  | .atom w => Sys2Proof.Machine.execAtom w s
  | .cas w => Sys2Proof.Machine.execCas w s
  | .fxadd w => Sys2Proof.Machine.execFxadd w s
  | .atoms w => Sys2Proof.Machine.execAtoms w s
  | .fence w => Sys2Proof.Machine.execFence w s
  | .pref w => Sys2Proof.Machine.execPref w s
  | .ldl w => Sys2Proof.Machine.execLdl w s
  | .stlb w => Sys2Proof.Machine.execStlb w s
  | .ldw w => Sys2Proof.Machine.execLdw w s
  | .oupg w => Sys2Proof.Machine.execOupg w s
  | .orel w => Sys2Proof.Machine.execOrel w s
  | .owk w => Sys2Proof.Machine.execOwk w s
  | .owd w => Sys2Proof.Machine.execOwd w s
  | .onew w => Sys2Proof.Machine.execOnew w s
  | .opri w => Sys2Proof.Machine.execOpri w s
  | .oapp w => Sys2Proof.Machine.execOapp w s
  | .btinv w => Sys2Proof.Machine.execBtinv w s
  | .btld w => Sys2Proof.Machine.execBtld w s
  | .cpy w => Sys2Proof.Machine.execCpy w s
  | .cpyg w => Sys2Proof.Machine.execCpyg w s
  | .cpys w => Sys2Proof.Machine.execCpys w s
  | .chan w => Sys2Proof.Machine.execChan w s
  | .tail w => Sys2Proof.Machine.execTail w s
  | .mcall w => Sys2Proof.Machine.execMcall w s
  | .sigd w => Sys2Proof.Machine.execSigd w s
  | .sigr w => Sys2Proof.Machine.execSigr w s
  | .mpost w => Sys2Proof.Machine.execMpost w s
  | .mtake w => Sys2Proof.Machine.execMtake w s
  | .xred w => Sys2Proof.Machine.execXred w s
  | .xput w => Sys2Proof.Machine.execXput w s
  | .xget w => Sys2Proof.Machine.execXget w s
  | .bar w => Sys2Proof.Machine.execBar w s
  | .bara w => Sys2Proof.Machine.execBara w s
  | .barw w => Sys2Proof.Machine.execBarw w s
  | .barx w => Sys2Proof.Machine.execBarx w s
  | .wany w => Sys2Proof.Machine.execWany w s
  | .evb w => Sys2Proof.Machine.execEvb w s
  | .evm w => Sys2Proof.Machine.execEvm w s
  | .evp w => Sys2Proof.Machine.execEvp w s
  | .evc w => Sys2Proof.Machine.execEvc w s
  | .sflg w => Sys2Proof.Machine.execSflg w s
  | .mcnt w => Sys2Proof.Machine.execMcnt w s
  | .tspn w => Sys2Proof.Machine.execTspn w s
  | .tstl w => Sys2Proof.Machine.execTstl w s
  | .tdec w => Sys2Proof.Machine.execTdec w s
  | .tend w => Sys2Proof.Machine.execTend w s
  | .xacq w => Sys2Proof.Machine.execXacq w s
  | .xrel w => Sys2Proof.Machine.execXrel w s
  | .enrd w => Sys2Proof.Machine.execEnrd w s
  | .gcnd w => Sys2Proof.Machine.execGcnd w s
  | .sleep w => Sys2Proof.Machine.execSleep w s
  | .trdl w => Sys2Proof.Machine.execTrdl w s
  | .twrl w => Sys2Proof.Machine.execTwrl w s
  | .tret w => Sys2Proof.Machine.execTret w s
  | .tinf w => Sys2Proof.Machine.execTinf w s
  | .tmsk w => Sys2Proof.Machine.execTmsk w s
  | .cnop w => Sys2Proof.Machine.execCnop w s
  | .cmov w => Sys2Proof.Machine.execCmov w s
  | .cmovi w => Sys2Proof.Machine.execCmovi w s
  | .cadd w => Sys2Proof.Machine.execCadd w s
  | .csub w => Sys2Proof.Machine.execCsub w s
  | .cmul w => Sys2Proof.Machine.execCmul w s
  | .cand w => Sys2Proof.Machine.execCand w s
  | .cor w => Sys2Proof.Machine.execCor w s
  | .cshl w => Sys2Proof.Machine.execCshl w s
  | .cshr w => Sys2Proof.Machine.execCshr w s
  | .ccmp w => Sys2Proof.Machine.execCcmp w s
  | .cbr w => Sys2Proof.Machine.execCbr w s
  | .cbra w => Sys2Proof.Machine.execCbra w s
  | .cloop w => Sys2Proof.Machine.execCloop w s
  | .cld w => Sys2Proof.Machine.execCld w s
  | .cst w => Sys2Proof.Machine.execCst w s
  | .cret w => Sys2Proof.Machine.execCret w s
  | .carg w => Sys2Proof.Machine.execCarg w s
  | .cwait w => Sys2Proof.Machine.execCwait w s
  | .cfence w => Sys2Proof.Machine.execCfence w s
  | .mload w => Sys2Proof.Machine.execMload w s
  | .mloadh w => Sys2Proof.Machine.execMloadh w s
  | .mma w => Sys2Proof.Machine.execMma w s
  | .mmar w => Sys2Proof.Machine.execMmar w s
  | .mgrp w => Sys2Proof.Machine.execMgrp w s
  | .mzero w => Sys2Proof.Machine.execMzero w s
  | .manc w => Sys2Proof.Machine.execManc w s
  | .mdrn w => Sys2Proof.Machine.execMdrn w s
  | .mdacc w => Sys2Proof.Machine.execMdacc w s
  | .mknot w => Sys2Proof.Machine.execMknot w s
  | .mlab w => Sys2Proof.Machine.execMlab w s
  | .msumq w => Sys2Proof.Machine.execMsumq w s
  | .mrow w => Sys2Proof.Machine.execMrow w s
  | .mtrn w => Sys2Proof.Machine.execMtrn w s
  | .msadd w => Sys2Proof.Machine.execMsadd w s
  | .msto w => Sys2Proof.Machine.execMsto w s
  | .msld w => Sys2Proof.Machine.execMsld w s
  | .vproj w => Sys2Proof.Machine.execVproj w s
  | .vprjb w => Sys2Proof.Machine.execVprjb w s
  | .vmrg w => Sys2Proof.Machine.execVmrg w s
  | .vres w => Sys2Proof.Machine.execVres w s
  | .vclr w => Sys2Proof.Machine.execVclr w s
  | .vheap w => Sys2Proof.Machine.execVheap w s
  | .vnorm w => Sys2Proof.Machine.execVnorm w s
  | .vstat w => Sys2Proof.Machine.execVstat w s
  | .cpri w => Sys2Proof.Machine.execCpri w s
  | .cseq w => Sys2Proof.Machine.execCseq w s
  | .ctrap w => Sys2Proof.Machine.execCtrap w s
  | .writePropagation h => Sys2Proof.Machine.execWritePropagation h s
  | .interruptThreshold vec => Sys2Proof.Machine.execInterruptThreshold vec s
  | .flitRetransmit port => Sys2Proof.Machine.execFlitRetransmit port s
  | .tirralPortFailure port lost => Sys2Proof.Machine.execTirralPortFailure port lost s
  | .eccCorrected key spare => Sys2Proof.Machine.execEccCorrected key spare s
  | .uncorrectableError key => Sys2Proof.Machine.execUncorrectableError key s
  | .nearStoreScrub line => Sys2Proof.Machine.execNearStoreScrub line s
  | .energyPeriod milliwatts => Sys2Proof.Machine.execEnergyPeriod milliwatts s
  | .srtail v => Sys2Proof.Machine.execSrtail v s
  | .crhead v => Sys2Proof.Machine.execCrhead v s
  | .srbase v => Sys2Proof.Machine.execSrbase v s
  | .srsize v => Sys2Proof.Machine.execSrsize v s
  | .crbase v => Sys2Proof.Machine.execCrbase v s
  | .crsize v => Sys2Proof.Machine.execCrsize v s
  | .powercap v => Sys2Proof.Machine.execPowercap v s
  | .tableBaseWrite table v => Sys2Proof.Machine.execTableBaseWrite table v s
  | .registerWrite off v => Sys2Proof.Machine.execRegisterWrite off v s
  | .unassignedOpcode raw => Sys2Proof.Machine.execUnassignedOpcode raw s
  | .unassignedCapstanOpcode raw => Sys2Proof.Machine.execUnassignedCapstanOpcode raw s
  | .tirralFlit f => Sys2Proof.Machine.execTirralFlit f s
  | .clauseHeader => Sys2Proof.Machine.execClauseHeader s
  | .longLatencyResult => Sys2Proof.Machine.execLongLatencyResult s
  | .storeCommit => Sys2Proof.Machine.execStoreCommit s
  | .deferredQuiesce => Sys2Proof.Machine.execDeferredQuiesce s
  | .sleepExpiry => Sys2Proof.Machine.execSleepExpiry s
  | .sigrWake => Sys2Proof.Machine.execSigrWake s
  | .tspnRoom => Sys2Proof.Machine.execTspnRoom s
  | .snagSearch => Sys2Proof.Machine.execSnagSearch s
  | .copyAccept => Sys2Proof.Machine.execCopyAccept s
  | .copyPageIn => Sys2Proof.Machine.execCopyPageIn s
  | .copyComplete => Sys2Proof.Machine.execCopyComplete s
  | .callAccept => Sys2Proof.Machine.execCallAccept s
  | .callStart => Sys2Proof.Machine.execCallStart s
  | .capstanClauseHeader => Sys2Proof.Machine.execCapstanClauseHeader s
  | .cldResult => Sys2Proof.Machine.execCldResult s
  | .cwaitWake => Sys2Proof.Machine.execCwaitWake s
  | .callComplete => Sys2Proof.Machine.execCallComplete s
  | .mreset => Sys2Proof.Machine.execMreset s
  | .clayParityFailure => Sys2Proof.Machine.execClayParityFailure s
  | .reclaim => Sys2Proof.Machine.execReclaim s
  | .objectMemoryReturn => Sys2Proof.Machine.execObjectMemoryReturn s
  | .btinvComplete => Sys2Proof.Machine.execBtinvComplete s
  | .dispatchDecision => Sys2Proof.Machine.execDispatchDecision s
  | .passCountPromotion => Sys2Proof.Machine.execPassCountPromotion s
  | .taskEnd => Sys2Proof.Machine.execTaskEnd s
  | .run => Sys2Proof.Machine.execRun s
  | .post => Sys2Proof.Machine.execPost s
  | .watch => Sys2Proof.Machine.execWatch s
  | .badentry => Sys2Proof.Machine.execBadentry s
  | .watchFire => Sys2Proof.Machine.execWatchFire s
  | .kernelNode => Sys2Proof.Machine.execKernelNode s
  | .copyNode => Sys2Proof.Machine.execCopyNode s
  | .signalNode => Sys2Proof.Machine.execSignalNode s
  | .waitNode => Sys2Proof.Machine.execWaitNode s
  | .waitNodeSatisfied => Sys2Proof.Machine.execWaitNodeSatisfied s
  | .condNode => Sys2Proof.Machine.execCondNode s
  | .notifyNode => Sys2Proof.Machine.execNotifyNode s
  | .endNode => Sys2Proof.Machine.execEndNode s
  | .graphFailure => Sys2Proof.Machine.execGraphFailure s
  | .fabricAccept => Sys2Proof.Machine.execFabricAccept s
  | .fabricComplete => Sys2Proof.Machine.execFabricComplete s
  | .xredCombine => Sys2Proof.Machine.execXredCombine s
  | .cordSave => Sys2Proof.Machine.execCordSave s
  | .clayMacroSpare => Sys2Proof.Machine.execClayMacroSpare s
  | .deviceReset => Sys2Proof.Machine.execDeviceReset s
  | .inval => Sys2Proof.Machine.execInval s
  | .reload => Sys2Proof.Machine.execReload s
  | .jobstart => Sys2Proof.Machine.execJobstart s
  | .jobend => Sys2Proof.Machine.execJobend s
  | .vacate => Sys2Proof.Machine.execVacate s
  | .withdraw => Sys2Proof.Machine.execWithdraw s
  | .coreoff => Sys2Proof.Machine.execCoreoff s
  | .coreon => Sys2Proof.Machine.execCoreon s
  | .portrem => Sys2Proof.Machine.execPortrem s
  | .portadd => Sys2Proof.Machine.execPortadd s
  | .attest => Sys2Proof.Machine.execAttest s
  | .fwstage => Sys2Proof.Machine.execFwstage s
  | .fwswap => Sys2Proof.Machine.execFwswap s
  | .commandComplete => Sys2Proof.Machine.execCommandComplete s

end Sys2Proof.Machine
end

