-- ==== Sys2Proof/Machine/Turns.lean ====
section
/-! DEFINITION. Whose turn it is. One turn of an agent runs one instruction or moves one piece of data. Where the agenda names no turn,
the next ones are a round of everything that is enabled, in a fixed order: the spec gives none, and any other order is an agenda
(log entry 12). `run` is the meaning of an instruction. -/

namespace Sys2Proof.Machine

/-! ### A strand's turn (R16, R70, R104, R331, R363, R371) -/

/-- The word in progress cannot be fetched: the group faults at it, and the strand goes on without it (R104, R360). -/
def wordFault (s : State) (c : TrapCode) : State :=
  advance (fetchFault s c (curClause s).hdr (some (curClause s).word) ((wordAddr s).setWidth 64) (act s))

/-- The strand in focus issues the word at which it stands: a word that fails the operand check traps ILLOP (R27). -/
def wordTurn (run : Instr → State → Out) (s : State) : Out :=
  match strandFetch s (wordAddr s) with
  | .fault => .next (wordFault s .memfault)
  | .poison => .next (wordFault s .poison)
  | .word r t => match decodeStrand r with
    | .instr i => run i t
    | .reject _ => .next (preciseTrap t .illop 0)

/-- The strand in focus moves: a header, a trap that is due, or a word. A cord that is being stopped stands still where it waits. -/
def strandTurn (run : Instr → State → Out) (s : State) : Out :=
  if !(me s).live || (me s).ended then .next s
  else if betweenClauses s then run .clauseHeader s
  else if (myCord s).tend && (myStall s).isSome then .next (setMe s (me s).tendStop)
  else if (myCord s).stopping && (myStall s).isSome then .next s
  else match (if (myCord s).stopping then none else takeDue s) with
    | some t => .next t
    | none => if (me s).stickyHeld && !inHandler s then .next s else wordTurn run s

/-! ### The capstan's turn (R64, R280, R371) -/

/-- The capstan of the core in focus moves: a header or a word of its running call, or the reset of a call that has exceeded its budget.
Status 1, 8 and 9 end the call where the word cannot run. -/
def capstanTurn (run : Instr → State → Out) (s : State) : Out :=
  match myRun? s with
  | none => .next s
  | some r =>
    let a := (capAddr r).setWidth 64
    if r.over s then run .mreset s
    else if (getCord s r.call.cord).stopping then .next s
    else if r.clause.isNone then run .capstanClauseHeader s
    else match capFetch s (capAddr r) with
      | .fault => .next (endCall s (endWith 8 0 a))
      | .poison => .next (endCall s (endWith 9 0 a))
      | .word x t => match decodeCapstan x with
        | .instr i => run i t
        | .reject _ => .next (endCall t (endWith 1 3 a))

/-! ### Turns -/

/-- One turn. -/
def runTurn (run : Instr → State → Out) (t : Turn) (s : State) : Out := match t with
  | .event f i => run i { s with focus := f }
  | .strand core slot strand => strandTurn run { s with focus := { s.focus with core := core, slot := slot, strand := strand } }
  | .capstan core => capstanTurn run { s with focus := { s.focus with core := core } }
  | .tick core n => .next (tickCore s core n)
  | .copyRow core ix row => .next (moveCopyRow s core ix row)
  | .fabricWord core ix word => .next (moveFabricWord s core ix word)
  | .dropTlb core ix => .next (dropTlb s core ix)
  | .keepView core key => .next (keepView s core key)
  | .keepDie die key => .next (keepDie s die key)
  | .keepConst cord key => .next (keepConst s cord key)
  | .glimpse core => .next (glimpse { s with focus := { s.focus with core := core } })
  | .hostByte addr b => .next (hostByte s addr b)
  | .hostNear addr b => .next (hostNear s addr b)
  | .bringUp => .next (bringUp s)
  | .hostPlan p => .next { s with plans := s.plans ++ [p] }

/-! ### The round of a device whose agenda is empty -/

/-- One turn where a condition holds. -/
def turnIf (b : Bool) (t : Turn) : List Turn := if b then [t] else []

/-- The focus of a strand's events. -/
def strandFocus (k : Nat) (ix : Nat) : Focus := { core := k / 512, slot := k / 32 % 16, strand := k % 32, ix := ix }

/-- A group of the strand sleeps and its time has run out: its lowest lane. -/
def sleepDue (t : Strand) : Option Lane := lowestLane (t.threadsIn (fun x => x.st == .parked (.sleep 0)))

/-- The turns of a strand: its results, its stores, its sleeps, its next header or word, the snag search. -/
def strandTurns (e : Nat × Strand) : List Turn :=
  let k := e.1
  let t := e.2
  let event (ix : Nat) (i : Instr) : Turn := .event (strandFocus k ix) i
  turnIf (!t.pend.isEmpty) (event 0 .longLatencyResult) ++
  turnIf (!t.stores.isEmpty) (event 0 .storeCommit) ++
  (match sleepDue t with | some l => [event l.val .sleepExpiry] | none => []) ++
  turnIf (t.live && !t.ended) (.strand (k / 512) (k / 32 % 16) (k % 32)) ++
  turnIf (t.isBlocked && snagPeriod * (t.searched + 1) ≤ t.blocked) (event 0 .snagSearch)

/-- The turns of a core's copy engine: acceptance, and of the first accepted copy that moves its next row and its page, or its
completion. -/
def copyTurns (e : Nat × Core) : List Turn :=
  let event (ix row : Nat) (i : Instr) : Turn := .event { core := e.1, ix := ix, row := row } i
  (List.range e.2.issuedCp.length).map (fun ix => event ix 0 .copyAccept) ++
  (match e.2.copies with
    | [] => []
    | op :: _ => match (if op.status.isSome then none else (List.range op.rows).find? (fun i => !op.moved.contains i)) with
      | some row => turnIf op.cr.pgin (event 0 row .copyPageIn) ++ [.copyRow e.1 0 row]
      | none => [event 0 0 .copyComplete])

/-- The first fabric operation of a core that satisfies p. -/
def firstFab (c : Core) (p : FabOp → Bool) (t : Nat → Turn) : List Turn := match c.fabric.findIdx? p with
  | some ix => [t ix]
  | none => []

/-- The turns of a core: engines, capstan, propagation. -/
def coreTurns (s : State) (e : Nat × Core) : List Turn :=
  let event (ix : Nat) (i : Instr) : Turn := .event { core := e.1, ix := ix, strand := 32 } i
  let c := e.2
  copyTurns e ++
  firstFab c (fun o => !o.accepted) (fun ix => event ix .fabricAccept) ++
  firstFab c (fun o => o.accepted && (o.kind != .xred || o.status.isSome)) (fun ix => event ix .fabricComplete) ++
  turnIf (!c.issuedCl.isEmpty) (event 0 .callAccept) ++
  turnIf (c.run.isNone && !c.chain.isEmpty) (event 0 .callStart) ++
  (match c.run with
    | none => []
    | some r =>
      turnIf (!r.pend.isEmpty) (event 0 .cldResult) ++ turnIf (!r.stores.isEmpty) (event 0 .storeCommit) ++
      turnIf (r.ended.isSome && !r.over s) (event 0 .callComplete) ++
      turnIf (r.over s) (event 0 .mreset) ++
      turnIf r.ended.isNone (.capstan e.1)) ++
  turnIf (!c.up.isEmpty) (event 0 (.writePropagation (.toDie e.1 0)))

/-- Writes on their way above a core. -/
def hopTurns (s : State) : List Turn :=
  (s.dieUp.filter (fun e => !e.2.isEmpty)).map (fun e => .event {} (.writePropagation (.toDevice e.1 0))) ++
  turnIf (!s.sysUp.isEmpty) (.event {} (.writePropagation (.toSystem 0)))

/-- The turn of a graph instance's first ready node, by its kind; a kind that is none fails the instance when it starts. -/
def nodeTurn (s : State) (i : Nat) (g : GInst) : List Turn := match g.ready with
  | [] => []
  | n :: _ =>
    let event (j : Instr) : Turn := .event { ix := i, row := n } j
    match gRd s g (nodeOff n) 1 with
    | some 0 => [event .kernelNode]
    | some 1 => [event .copyNode]
    | some 2 => [event .signalNode]
    | some 3 => [event .waitNode]
    | some 4 => [event .condNode]
    | some 5 => [event .notifyNode]
    | some 6 => turnIf (g.started.isEmpty && g.ready.length == 1) (event .endNode) ++
        (match g.ready.drop 1 with
          | m :: _ => [.event { ix := i, row := m } .kernelNode, .event { ix := i, row := m } .copyNode,
              .event { ix := i, row := m } .signalNode, .event { ix := i, row := m } .waitNode,
              .event { ix := i, row := m } .condNode, .event { ix := i, row := m } .notifyNode]
          | [] => [])
    | _ => [event .kernelNode]

/-- The turns of a graph instance. -/
def instTurns (s : State) (e : Nat × GInst) : List Turn :=
  (if e.2.failed.isSome then turnIf e.2.started.isEmpty (.event { ix := e.1 } .graphFailure) else nodeTurn s e.1 e.2) ++
  e.2.waits.map (fun w => .event { ix := e.1, row := w.node } .waitNodeSatisfied)

/-- The turn of the next submission entry. -/
def entryTurn (s : State) : List Turn := match nextEntry s with
  | none => []
  | some b => match (Entry.ofBytes b).kind with
    | 0 => [.event {} .run]
    | 1 => [.event {} .post]
    | 2 => [.event {} .watch]
    | _ => [.event {} .badentry]

/-- The first core that a decision would start a task on, or that would refuse one. -/
def dispatchCore (s : State) : Option Nat :=
  if s.fifos.all (fun e => e.2.isEmpty) then none
  else (List.range 128).find? (fun c => mayDecide s c && (choose s c 16).isSome)

/-- The turns of the tasks: saves, ends, one decision, a period where queued tasks wait for credit. -/
def taskTurns (s : State) : List Turn :=
  let slot (k : Nat) (i : Instr) : Turn := .event { core := k / 16, slot := k % 16 } i
  s.cords.flatMap (fun e => turnIf (saveReady s e.1) (slot e.1 .cordSave) ++ turnIf (endReady s e.1) (slot e.1 .taskEnd)) ++
  (match dispatchCore s with
    | some c => [.event { core := c } .dispatchDecision]
    | none => turnIf (s.fifos.any (fun e => !e.2.isEmpty)) (.event {} (.energyPeriod s.mgmt.powernow)))

/-- The other turns of the device. -/
def deviceTurns (s : State) : List Turn :=
  turnIf (s.mgmt.state == 0) (.event {} .deviceReset) ++ turnIf (s.mgmt.state == 1) .bringUp ++
  s.dying.map (fun d => .event { ix := d.1, row := d.2 } .objectMemoryReturn) ++
  (List.range s.btinvs.length).map (fun ix => .event { ix := ix } .btinvComplete) ++
  ((s.reds.filter (fun r => !r.bad && r.result.isNone && gathered s r)).map (fun r =>
    .event { ix := r.group, row := r.seq } .xredCombine)) ++
  s.dueIrq.map (fun v => .event {} (.interruptThreshold v)) ++ s.insts.flatMap (instTurns s) ++ entryTurn s ++
  (List.range s.watches.length).map (fun ix => .event { ix := ix } .watchFire) ++
  turnIf s.mgmt.busy (.event {} .commandComplete)

/-- Time passes on each core that has a strand. -/
def tickTurns (s : State) : List Turn :=
  ((List.range 128).filter (fun c => s.strands.any (fun e => e.1 / 512 == c && e.2.live))).map (fun c => .tick c 1)

/-- One round. -/
def roundTurns (s : State) : List Turn :=
  deviceTurns s ++ s.strands.flatMap strandTurns ++ s.cores.flatMap (coreTurns s) ++ hopTurns s ++ taskTurns s ++ tickTurns s

/-- The next turn, with open choices of its own: of the agenda, or of a new round. A device in which nothing is enabled waits for its host.
-/
def nextTurn (run : Instr → State → Out) (s : State) : Out :=
  match s.agenda with
  | t :: ts => runTurn run t { s with agenda := ts, free := s.free + 1 }
  | [] => match roundTurns s with
    | [] => .next s
    | t :: ts => runTurn run t { s with agenda := ts, free := s.free + 1 }

/-! ### A word put where the next step fetches (log entry 13) -/

/-- The virtual and physical address of the clause that holds the word: its own page. -/
def placeAddr : Nat := 0x100000

/-- Core 0 caches the page of the clause for job 0, and its point of view is the device's. -/
def placeCore (c : Core) : Core :=
  { c with view := [], tlb := { job := 0, vpn := placeAddr / 65536, big := false, tier := 0, pa := placeAddr, rd := true, wr := true, ex := true,
                                nc := false } :: c.tlb }

/-- The bytes of header and word stand in memory, at every point, without error. -/
def placeBytes (s : State) (h r : DWord) : State :=
  let s := flush s 0 4
  { s with mem := memWrN s.mem placeAddr (bytesOfWord h ++ bytesOfWord r), dieLag := aDel s.dieLag 0,
           poisoned := s.poisoned.filter (fun p => !overlaps p 8 placeAddr 16) }

/-- The clause of one word, at its word. -/
def placeClause (m : LaneMask) : Clause := { hdr := BitVec.ofNat 56 placeAddr, nm1 := 0, word := 0, act := m, group := m }

/-- Strand 0 of core 0's cord slot 0 stands at the word with all its lanes, with 64 registers and its cord a job 0's of one strand. -/
def placeStrand (s : State) : State :=
  let t : Strand := { base := 64, live := true, clause := some (placeClause (BitVec.allOnes 32)),
                      threads := Lanes.tab (fun _ => { pc := BitVec.ofNat 56 placeAddr, st := .ready }) }
  { setStrand (setCord s 0 {}) 0 t with agenda := [.strand 0 0 0] }

/-- The call of core 0's capstan, of the cord in slot 0, stands at the word. -/
def placeCall (s : State) : State :=
  let r : RunCall := { call := { id := 0, cord := 0, strand := 0 }, clause := some (placeClause 0) }
  let s := setCord s 0 {}
  { setCore s 0 { getCore s 0 with run := some r } with agenda := [.capstan 0] }

/-- The state in which the next step fetches an instruction of nbits bits: up to 64 bits are a strand word, in a clause of its own; more
are a clause header and its first word, and the header's class names the stream (R59). -/
def placeWord (s : State) (nbits w : Nat) : State :=
  let h : DWord := if nbits ≤ 64 then 0xC500000000000000 else BitVec.ofNat 64 w
  let r : DWord := if nbits ≤ 64 then BitVec.ofNat 64 w else BitVec.ofNat 64 (w / 2 ^ 64)
  let s := placeBytes s h r
  let s := setCore { s with mgmt := { s.mgmt with state := 2 }, present := s.present ||| 1 } 0 (placeCore (getCore s 0))
  if h.extractLsb' 4 2 == 1 then placeCall s else placeStrand s

end Sys2Proof.Machine
end

