-- ==== Sys2Proof/Safety.lean ====
section
/-! DEFINITION. The terms in which claims speak of a run: when a word issues, what a word that writes registers leaves, and what
counts as a safe state of memory. -/

namespace Sys2Proof.Machine

/-! ### Memory -/

/-- The memories of a state are in their canonical form: device memory and every cord's scratchpad. -/
def State.memoryOk (s : State) : Bool := Memory.wf s.mem && s.cords.all (fun e => Memory.wf e.2.scratch)

/-! ### When a strand word issues (R25, R27, R69) -/

/-- The word of a strand instruction passes the issue checks and reads no register whose token is unwritten. -/
def issues (i : Instr) (s : State) : Bool := match strandForm i with
  | none => false
  | some (w, f) => (wordTrap f w s).isNone && (enabled s w == 0 || (tokenRead f w s).isNone)

/-- The state in which the effect of an issued word is made: the tokens that it reads have joined their operations (R210). -/
def issued (i : Instr) (s : State) : State := match strandForm i with
  | none => s
  | some (w, f) => if enabled s w = 0 then s else joinTokens s (f.reads w)

/-- The word's marker asks for nothing (S = 0), or nothing is outstanding (R23). -/
def quiet (w : SWord) (s : State) : Bool := !w.sw || (me s).pend.isEmpty

/-! ### What a word that writes registers leaves (R9, R18, R19, R24) -/

/-- The vector registers of a strand after a write of n registers from D up, in the lanes of en. -/
def vectorsAfter (w : SWord) (n : Nat) (en : LaneMask) (val : Lane → DWord) (a b : Strand) : Prop :=
  ∀ r l, vLane b r l =
    if isVector w.d && inMask en l && (r == w.d.toNat) then loW (val l)
    else if isVector w.d && inMask en l && n == 2 && r == w.d.toNat + 1 then hiW (val l)
    else vLane a r l

/-- The scalar registers of a strand after such a write: made once, with the value of the lowest lane of en. -/
def scalarsAfter (w : SWord) (n : Nat) (en : LaneMask) (val : Lane → DWord) (a b : Strand) : Prop :=
  ∀ r, aGet 0 b.s r =
    match (if isScalar w.d then lowestLane en else none) with
    | none => aGet 0 a.s r
    | some l =>
      if r = w.d.toNat - 0xC0 then loW (val l) else if n = 2 ∧ r = w.d.toNat - 0xC0 + 1 then hiW (val l) else aGet 0 a.s r

/-- The predicates of a strand, and of its handler, stand as they were. -/
def predsKept (a b : Strand) : Prop := b.p = a.p ∧ b.handler.map (·.preds) = a.handler.map (·.preds)

/-- Predicate i of each lane: p7 reads 1, and a strand in handler mode has the handler's own (R9, R358). -/
def predOf (t : Strand) (i : Nat) : LaneMask :=
  if i = 7 then BitVec.allOnes 32
  else match t.handler with
    | some h => if h.preds.getLsbD i then 1 else 0
    | none => aGet 0 t.p i

/-- The predicates of a strand after a write of predicate i in the lanes of en; in handler mode, where lane 0 alone runs, the strand's
own stay. A write of p7 is discarded. -/
def predsAfter (i : Nat) (en : LaneMask) (val : Lane → Bool) (a b : Strand) : Prop :=
  (∀ j l, j < 8 → a.handler = none ∨ l = 0 → inMask (predOf b j) l =
    if j = i ∧ i ≠ 7 ∧ inMask en l = true then val l else inMask (predOf a j) l) ∧
  (a.handler ≠ none → b.p = a.p)

/-- The registers and predicates of a strand stand as they were. -/
def regsKept (a b : Strand) : Prop := b.v = a.v ∧ b.s = a.s ∧ predsKept a b

/-- A write of n registers from D up, and of nothing else: a vector in every lane of en, a scalar once, z nowhere. -/
def wrote (w : SWord) (n : Nat) (en : LaneMask) (val : Lane → DWord) (a b : Strand) : Prop :=
  vectorsAfter w n en val a b ∧ scalarsAfter w n en val a b ∧ predsKept a b

/-- A strand but its registers, its predicates, the tokens that it has joined and what stands outstanding is as it was: its clause, its
position and its threads too. -/
def strandKept (a b : Strand) : Prop :=
  b = { a with v := b.v, s := b.s, p := b.p, pend := b.pend, joins := b.joins, handler := b.handler } ∧
  b.handler.map (fun h => { h with preds := 0 }) = a.handler.map (fun h => { h with preds := 0 })

/-- Everything outside the strand in focus is as it was, but the flags of its cord, to which fl has been added, and the core's view. -/
def restKept (fl : Flags) (s t : State) : Prop :=
  t = { s with strands := t.strands, cords := t.cords, cores := t.cores, dieLag := t.dieLag } ∧
  (∀ k, k ≠ focusStrand s → getStrand t k = getStrand s k) ∧
  (∀ k, getCord t k = if k = focusCord s then (if fl = 0 then getCord s k else (getCord s k).orFlags fl) else getCord s k) ∧
  (∀ k, getCore t k = { getCore s k with view := (getCore t k).view })

/-- The register places that a write of n registers from D up in the lanes of en takes. An older result that is still outstanding for one of
them races with the write (R24). -/
def writtenIn (d : BitVec 8) (n : Nat) (en : LaneMask) : Dest → Bool
  | .v r l => isVector d && inMask en l && (r == d.toNat || n == 2 && r == d.toNat + 1)
  | .s r => isScalar d && en != 0 && (r == d.toNat - 0xC0 || n == 2 && r == d.toNat - 0xC0 + 1)
  | .p .. => false

/-- The places that a write of predicate i in the lanes of en takes: none for p7, and in handler mode none unless lane 0 is enabled. -/
def decidedIn (t : Strand) (i : Nat) (en : LaneMask) : Dest → Bool
  | .p j l => j == i && i != 7 && inMask en l && (t.handler.isNone || inMask en 0)
  | _ => false

/-- What the effect of a word leaves whose results are registers at once (R22): its destination holds the values, in the lanes that it
computes in, its flags are added, older outstanding results for the same places race, and nothing else changes. -/
def wordWrote (w : SWord) (n : Nat) (val : Lane → DWord × Flags) (s u : State) : Prop :=
  wrote w n (computeLanes s w) (fun l => (val l).1) (me s) (me u) ∧
  (me u).pend = race (me s).pend (writtenIn w.d n (computeLanes s w)) ∧ strandKept (me s) (me u) ∧
  restKept (flagsOf (computeLanes s w) (fun l => (val l).2)) s u

/-- What the effect of a word leaves whose result is a predicate at once (R76). -/
def wordDecided (w : SWord) (i : Nat) (val : Lane → Bool × Flags) (s u : State) : Prop :=
  predsAfter i (enabled s w) (fun l => (val l).1) (me s) (me u) ∧ (me u).v = (me s).v ∧ (me u).s = (me s).s ∧
  (me u).pend = race (me s).pend (decidedIn (me s) i (enabled s w)) ∧ strandKept (me s) (me u) ∧
  restKept (flagsOf (enabled s w) (fun l => (val l).2)) s u

/-! ### Where a strand stands after a word (R16, R23, R148, R149) -/

/-- A strand after a word that lets it go on: at the next word of its clause. After the last word, or with no thread left in the clause, the
clause is over: its active threads stand at the header that follows, and the threads of the selected group that are ready take the stamp of
this selection. In handler mode the handler's own clause and PC move so. A strand that goes on waits for nothing, and a split counts the
word. -/
def wentOn (a : Strand) : Strand :=
  let past (c : Clause) : Bool := c.act == 0 || decide (c.nm1 ≤ c.word)
  let following (c : Clause) : VAddr := c.hdr + 8 + BitVec.ofNat 56 (8 * (c.nm1 + 1))
  let b := { a with blocked := 0, searched := 0, reported := [], split := a.split.map (· + 1) }
  match a.handler with
  | some h => { b with handler := some (match h.clause with
      | none => { h with stall := none }
      | some c => if past c then { h with stall := none, clause := none, pc := if inMask c.act 0 then following c else h.pc }
        else { h with stall := none, clause := some { c with word := c.word + 1 } }) }
  | none => match a.clause with
    | none => { b with stall := none }
    | some c => if past c then { b with stall := none, clause := none, threads := Lanes.tab (fun l =>
          let x := a.threads.get l
          let y := if inMask c.act l then { x with pc := following c, place := none } else x
          if inMask c.group l && y.isReady then { y with stamp := a.sel } else y) }
      else { b with stall := none, clause := some { c with word := c.word + 1 } }

/-- The state after a word whose effect has made u: with S = 1 every outstanding result is written first (R23), and the strand goes on. -/
def goneOn (sw : Bool) (u : State) : State :=
  let v := if sw then settleAll u else u
  { setMe v (wentOn (me v)) with free := v.free + 1 }

/-! ### Forms of statements about words -/

/-- What the effect of a word leaves whose results come later (R22, R23): its registers stand as they were, its flags are added, and its
results are outstanding, with the word's address; older outstanding results for the same places race. -/
def wordLater (c : LatClass) (ws : List PendWrite) (fl : Flags) (s u : State) : Prop :=
  regsKept (me s) (me u) ∧ (me u).pend = (if ws.isEmpty then (me s).pend else race (me s).pend (fun d => ws.any (fun w => w.dest == d)) ++
    [{ cls := c, writes := ws, pc := (curClause s).hdr, word := (curClause s).word }]) ∧
  strandKept (me s) (me u) ∧ restKept fl s u

/-- With S = 1 and nothing older outstanding, the results of a word whose effect made u stand in their places once the strand goes on. -/
def madeBy (sw : Bool) (made : Strand → Strand → Prop) (s u : State) : Prop :=
  sw = true → (me s).pend = [] → made (me s) (me (goneOn sw u)) ∧ (me (goneOn sw u)).pend = []

/-- The instruction mk w completes wherever it issues, and leaves its destination's value in each lane. -/
def writes (mk : SWord → Instr) (n : SWord → Nat) (val : SWord → State → Lane → DWord × Flags) : Prop :=
  ∀ w s, issues (mk w) s = true → ∃ u, exec (mk w) s = .next (goneOn w.sw u) ∧ wordWrote w (n w) (val w (issued (mk w) s)) s u

/-- The same where a condition on the issued state holds. -/
def writesIf (mk : SWord → Instr) (cond : SWord → State → Bool) (n : SWord → Nat) (val : SWord → State → Lane → DWord × Flags) : Prop :=
  ∀ w s, issues (mk w) s = true → cond w (issued (mk w) s) = true →
    ∃ u, exec (mk w) s = .next (goneOn w.sw u) ∧ wordWrote w (n w) (val w (issued (mk w) s)) s u

/-- The instruction mk w completes wherever it issues, and its results come later. -/
def writesLater (mk : SWord → Instr) (c : LatClass) (n : SWord → Nat) (val : SWord → State → Lane → DWord × Flags) : Prop :=
  ∀ w s, issues (mk w) s = true → ∃ u, exec (mk w) s = .next (goneOn w.sw u) ∧
    let en := computeLanes s w
    let x := fun l => (val w (issued (mk w) s) l).1
    wordLater c (regWrites w.d (n w) en x) (flagsOf en (fun l => (val w (issued (mk w) s) l).2)) s u ∧ madeBy w.sw (wrote w (n w) en x) s u

/-- The instruction mk w completes wherever it issues, and leaves its predicate in each enabled lane. -/
def decides (mk : SWord → Instr) (val : SWord → State → Lane → Bool × Flags) : Prop :=
  ∀ w s, issues (mk w) s = true → ∃ u, exec (mk w) s = .next (goneOn w.sw u) ∧ wordDecided w w.d.toNat (val w (issued (mk w) s)) s u

/-- The instruction mk w completes wherever it issues, with an effect: the state that the effect makes of the issued one, in which the
strand then goes on. -/
def does (mk : SWord → Instr) (effect : SWord → State → State) : Prop :=
  ∀ w s, issues (mk w) s = true → exec (mk w) s = .next (goneOn w.sw (effect w (issued (mk w) s)))

/-- The same where a condition on the issued state holds. -/
def doesIf (mk : SWord → Instr) (cond : SWord → State → Bool) (effect : SWord → State → State) : Prop :=
  ∀ w s, issues (mk w) s = true → cond w (issued (mk w) s) = true →
    exec (mk w) s = .next (goneOn w.sw (effect w (issued (mk w) s)))

/-- The instruction mk w traps precisely where a condition on the issued state holds (R70, R359). -/
def trapsIf (mk : SWord → Instr) (cond : SWord → State → Bool) (c : TrapCode) (aux : SWord → DWord) : Prop :=
  ∀ w s, issues (mk w) s = true → cond w (issued (mk w) s) = true → exec (mk w) s = .next (preciseTrap s c (aux w))

/-- The instruction mk w waits at the word where a condition on the issued state holds (R71). -/
def waitsIf (mk : SWord → Instr) (cond : SWord → State → Bool) (st : SWord → State → Stall) (effect : SWord → State → State) : Prop :=
  ∀ w s, issues (mk w) s = true → cond w (issued (mk w) s) = true →
    exec (mk w) s = .next (stallAt (st w (issued (mk w) s)) (effect w (issued (mk w) s)))

/-- The instruction mk w, which acts once for the strand, completes wherever it issues and a condition holds in the issued state for the
lowest enabled lane (R26): with its effect. -/
def doesOnce (mk : SWord → Instr) (cond : SWord → Lane → State → Bool) (effect : SWord → Lane → State → State) : Prop :=
  ∀ w s l, issues (mk w) s = true → lowestLane (enabled s w) = some l → cond w l (issued (mk w) s) = true →
    exec (mk w) s = .next (goneOn w.sw (effect w l (issued (mk w) s)))

/-- The same, where the strand waits at the word (R71). -/
def waitsOnce (mk : SWord → Instr) (cond : SWord → Lane → State → Bool) (st : SWord → Lane → State → Stall) (effect : SWord → Lane → State → State) : Prop :=
  ∀ w s l, issues (mk w) s = true → lowestLane (enabled s w) = some l → cond w l (issued (mk w) s) = true →
    exec (mk w) s = .next (stallAt (st w l (issued (mk w) s)) (effect w l (issued (mk w) s)))

/-- The same, where the word traps precisely (R70). -/
def trapsOnce (mk : SWord → Instr) (cond : SWord → Lane → State → Bool) (c : TrapCode) : Prop :=
  ∀ w s l, issues (mk w) s = true → lowestLane (enabled s w) = some l → cond w l (issued (mk w) s) = true →
    exec (mk w) s = .next (preciseTrap s c 0)

/-- The instruction mk w does nothing but go on where no active lane is enabled (R26). -/
def idle (mk : SWord → Instr) : Prop :=
  ∀ w s, issues (mk w) s = true → enabled s w = 0 → exec (mk w) s = .next (goneOn w.sw s)

/-- No condition. -/
def always (_ : SWord) (_ : Lane) (_ : State) : Bool := true

/-! ### Words that access memory (R115 to R117) -/

/-- The place of an access that has one. -/
def placeOf (r : DWord × Except TrapCode Place) : Place := match r.2 with
  | .ok p => p
  | .error _ => { key := 0 }

/-- The access of a lane, with the address and place that t gives it. -/
def accessOf (t : Lane → DWord × Except TrapCode Place) (l : Lane) : Acc := ⟨l, (t l).1, placeOf (t l)⟩

/-- The accesses of a word: one for each enabled lane, or a single one for the strand (R117). -/
def accesses (one : Bool) (t : Lane → DWord × Except TrapCode Place) (w : SWord) (u : State) : List Acc :=
  (accessLanes one w u).map (accessOf t)

/-- The lane whose access serves lane l. -/
def servedBy (one : Bool) (w : SWord) (u : State) (l : Lane) : Lane := if one then (lowestLane (enabled u w)).getD l else l

/-- Every access of the word passes the checks of R116. -/
def placed (one : Bool) (t : Lane → DWord × Except TrapCode Place) (w : SWord) (u : State) : Prop :=
  ∀ l ∈ accessLanes one w u, ∃ p, (t l).2 = .ok p

/-- No access of the word reads data with an uncorrectable error. -/
def sound (flawed : State → Acc → Bool) (one : Bool) (t : Lane → DWord × Except TrapCode Place) (w : SWord) (u : State) : Prop :=
  ∀ l ∈ accessLanes one w u, flawed u (accessOf t l) = false

/-- The accesses of the word that pass the checks of R116. -/
def passing (one : Bool) (t : Lane → DWord × Except TrapCode Place) (w : SWord) (u : State) : List Acc :=
  ((accessLanes one w u).filter (fun l => (t l).2.toOption.isSome)).map (accessOf t)

/-- The lanes that an access serves: every enabled one, where the word makes one access (R19). -/
def servesOf (one : Bool) (w : SWord) (u : State) (l : Lane) : List Lane := if one then lanesOf (enabled u w) else [l]

/-- The lanes whose access fails a check, with its trap and its address (R116). -/
def failing (one : Bool) (t : Lane → DWord × Except TrapCode Place) (w : SWord) (u : State) : List (Lane × TrapCode × DWord × DWord) :=
  (accessLanes one w u).flatMap (fun l => match (t l).2 with
    | .ok _ => []
    | .error c => (servesOf one w u l).map (fun k => (k, c, (t l).1, 0)))

/-- The lanes that some accesses serve. -/
def servedMask (one : Bool) (w : SWord) (u : State) (acc : List Acc) : LaneMask :=
  if one then (if acc.isEmpty then 0 else enabled u w) else maskOf (fun l => (acc.map (·.lane)).contains l)

/-- The registers named D, A and B hold no vector: the word makes one access. -/
def onceDAB (w : SWord) : Bool := !isVector w.d && !isVector w.a && !isVector w.b

/-- The instruction mk w loads z bytes for each enabled lane from the address that t gives it (R114, R118 to R122): where every access
passes the checks the word completes, its results outstanding, and post follows. v is the word with the shape byte of the access. -/
def loads (mk : SWord → Instr) (cond : SWord → Bool) (flawed : SWord → State → Acc → Bool) (v : SWord → SWord)
    (t : SWord → State → Lane → DWord × Except TrapCode Place) (rd : SWord → State → Acc → List Byte)
    (extra : SWord → LaneMask → (Lane → Nat) → List PendWrite) (post : SWord → State → State → State) : Prop :=
  ∀ w s, issues (mk w) s = true → cond w = true →
    let u := issued (mk w) s
    let one := onceDAB w
    let en := enabled u w
    let val := fun l => loadValue (v w) (v w).size (leNat (rd w u (accessOf (t w u) (servedBy one w u l))))
    placed one (t w u) w u → sound (flawed w) one (t w u) w u →
    exec (mk w) s = .next (goneOn w.sw (post w u (cachePlaces
      (setMe u (pushPend (me u) .ld (groupWrites w.d (v w).dataRegs en val ++ extra w en val) [] (curClause u).hdr (curClause u).word))
      (accesses one (t w u) w u))))

/-- The same, whatever the checks say (R116, R361): the lanes whose access passes have their results outstanding, where their data carries no
error; those whose data does will split when their results are written; and the others split at the word, each with its own trap. -/
def loadsSplit (mk : SWord → Instr) (cond : SWord → Bool) (flawed : SWord → State → Acc → Bool) (v : SWord → SWord)
    (t : SWord → State → Lane → DWord × Except TrapCode Place) (rd : SWord → State → Acc → List Byte)
    (extra : SWord → LaneMask → (Lane → Nat) → List PendWrite) (post : SWord → State → State → State) : Prop :=
  ∀ w s, issues (mk w) s = true → cond w = true →
    let u := issued (mk w) s
    let one := onceDAB w
    let c := curClause u
    let good := passing one (t w u) w u
    let bad := flawed w u
    let en := servedMask one w u (good.filter (fun a => !bad a))
    let val := fun l => loadValue (v w) (v w).size (leNat (rd w u (accessOf (t w u) (servedBy one w u l))))
    exec (mk w) s = .next (goneOn w.sw (post w u (faultLanes (cachePlaces (setMe u (pushPend (me u) .ld
      (groupWrites w.d (v w).dataRegs en val ++ extra w en val)
      ((good.filter bad).flatMap (fun a => (servesOf one w u a.lane).map (fun l => (l, a.addr)))) c.hdr c.word)) good)
      c.hdr (some c.word) (failing one (t w u) w u))))

/-- The instruction mk w stores the low bytes of D for each enabled lane at the address that t gives it (R118 to R120): where every access
passes the checks the word completes, and its stores are in the strand's queue, lowest lane first. -/
def storesAt (mk : SWord → Instr) (cond : SWord → Bool) (scratch : Bool) (rel : SWord → Scope) (v : SWord → SWord)
    (t : SWord → State → Lane → DWord × Except TrapCode Place) : Prop :=
  ∀ w s, issues (mk w) s = true → cond w = true →
    let u := issued (mk w) s
    let acc := accesses (onceDAB w) (t w u) w u
    placed (onceDAB w) (t w u) w u →
    exec (mk w) s = .next (goneOn w.sw (cachePlaces (setMe u { me u with stores := (me u).stores ++ acc.zipIdx.map (fun x =>
      { scratch := scratch, key := x.1.place.key, bytes := storeBytes u (v w) (v w).size x.1.lane, nc := x.1.place.nc,
        more := decide (x.2 + 1 < acc.length), rel := rel w }) }) acc))

/-- The same, whatever the checks say (R116): the stores of the lanes whose access passes are queued, and the others split at the word. -/
def storesSplit (mk : SWord → Instr) (cond : SWord → Bool) (scratch : Bool) (rel : SWord → Scope) (v : SWord → SWord)
    (t : SWord → State → Lane → DWord × Except TrapCode Place) : Prop :=
  ∀ w s, issues (mk w) s = true → cond w = true →
    let u := issued (mk w) s
    let acc := passing (onceDAB w) (t w u) w u
    exec (mk w) s = .next (goneOn w.sw (faultLanes (cachePlaces (setMe u { me u with stores := (me u).stores ++ acc.zipIdx.map (fun x =>
      { scratch := scratch, key := x.1.place.key, bytes := storeBytes u (v w) (v w).size x.1.lane, nc := x.1.place.nc,
        more := decide (x.2 + 1 < acc.length), rel := rel w }) }) acc) (curClause u).hdr (some (curClause u).word)
      (failing (onceDAB w) (t w u) w u)))

/-- The instruction mk w updates z bytes for each enabled lane, one lane after another in an order that the device does not fix (R117,
R120, R123 to R126, R208): where every access passes the checks, on a page that lets it write and, where reads holds, read (R199), the word
completes, and the old values are outstanding. Every earlier store of the strand has left its queue first. -/
def updates (mk : SWord → Instr) (scratch reads : Bool) (z : SWord → Nat) (rel acq : SWord → Bool)
    (upd : SWord → State → List Byte → Lane → Option (List Byte)) (extra : SWord → State → LaneMask → (Lane → Nat) → List PendWrite)
    (flags : SWord → State → LaneMask → Flags) : Prop :=
  ∀ w s, issues (mk w) s = true → enabled s w ≠ 0 →
    let u := issued (mk w) s
    let one := !isVector w.d && !isVector w.a && !isVector w.b && !isVector w.c
    let t (need : Need) (l : Lane) : DWord × Except TrapCode Place := if scratch then scratchTarget u w (z w) 0 l else memTarget u w (z w) 0 need l
    let sc := scopeOf w
    let acc := accesses one (t .wr) w u
    let go (s : State) (a : Acc) : List Byte × State :=
      if scratch then atomicScratch s a.place.key (z w) (fun o => upd w u o a.lane)
      else
        let r := atomicAt s s.focus.core sc a.place (z w) (fun o => upd w u o a.lane)
        (r.1, if (upd w u r.1 a.lane).isSome then noteWrite (.strand (focusStrand s)) a.place.key (z w) r.2 else r.2)
    let before := (if rel w then fun s => release s sc else id) (cachePlaces (drain u (focusStrand u)) acc)
    let r := serveAtomics go (serveOrder u.free 32 acc) before
    let after := if acq w then acquire r.2 sc else r.2
    let val := byLane one 0 r.1
    (reads = true → placed one (t .rd) w u) → placed one (t .wr) w u →
    (∀ l ∈ accessLanes one w u, badData scratch (scopeOf w) (drain u (focusStrand u)) (placeOf (t .wr l)) (z w) = false) →
    exec (mk w) s = .next (goneOn w.sw (orFlags (setMe after (pushPend (me after) .ld
      (groupWrites w.d (if z w = 8 then 2 else 1) (enabled u w) val ++ extra w u (enabled u w) val) [] (curClause u).hdr (curClause u).word))
      (flags w u (maskOf (fun l => (accessLanes one w u).contains l)))))

/-- The target of an update in a lane with the order of R116: ALIGN and the checks of the place, first for the write and then, where reads
holds, for the read; POISON last. -/
def updateChecked (scratch reads : Bool) (z : Nat) (w : SWord) (u : State) (l : Lane) : DWord × Except TrapCode Place :=
  let t (need : Need) : DWord × Except TrapCode Place := if scratch then scratchTarget u w z 0 l else memTarget u w z 0 need l
  ((t .wr).1, match (t .wr).2, (t .rd).2 with
    | .error c, _ => .error c
    | .ok p, .ok _ => if badData scratch (scopeOf w) (drain u (focusStrand u)) p z then .error .poison else .ok p
    | .ok p, .error c => if reads then .error c else if badData scratch (scopeOf w) (drain u (focusStrand u)) p z then .error .poison else .ok p)

/-- The same, whatever the checks say: the lanes that pass are served, and the others split at the word. -/
def updatesSplit (mk : SWord → Instr) (scratch reads : Bool) (z : SWord → Nat) (rel acq : SWord → Bool)
    (upd : SWord → State → List Byte → Lane → Option (List Byte)) (extra : SWord → State → LaneMask → (Lane → Nat) → List PendWrite)
    (flags : SWord → State → LaneMask → Flags) : Prop :=
  ∀ w s, issues (mk w) s = true → enabled s w ≠ 0 →
    let u := issued (mk w) s
    let one := !isVector w.d && !isVector w.a && !isVector w.b && !isVector w.c
    let t := updateChecked scratch reads (z w) w u
    let sc := scopeOf w
    let acc := passing one t w u
    let go (s : State) (a : Acc) : List Byte × State :=
      if scratch then atomicScratch s a.place.key (z w) (fun o => upd w u o a.lane)
      else
        let r := atomicAt s s.focus.core sc a.place (z w) (fun o => upd w u o a.lane)
        (r.1, if (upd w u r.1 a.lane).isSome then noteWrite (.strand (focusStrand s)) a.place.key (z w) r.2 else r.2)
    let before := (if rel w then fun s => release s sc else id) (cachePlaces (drain u (focusStrand u)) acc)
    let r := serveAtomics go (serveOrder u.free 32 acc) before
    let after := if acq w then acquire r.2 sc else r.2
    let val := byLane one 0 r.1
    let en := servedMask one w u acc
    exec (mk w) s = .next (goneOn w.sw (orFlags (faultLanes (setMe after (pushPend (me after) .ld
      (groupWrites w.d (if z w = 8 then 2 else 1) en val ++ extra w u en val) [] (curClause u).hdr (curClause u).word))
      (curClause u).hdr (some (curClause u).word) (failing one t w u)) (flags w u (maskOf (fun l => (acc.map (·.lane)).contains l)))))

/-! ### Capstan words (R64, R255, R282 to R284) -/

/-- The capstan word of the running call passes the checks of R64. -/
def capIssues (i : Instr) (s : State) : Bool := match capstanForm i, myRun? s with
  | some (w, f), some r => r.clause.isSome && f.wf w
  | _, _ => false

/-- The running call r as a word leaves it: with S = 1 every outstanding result is written behind the word (R23, R62). -/
def capLeft (w : CWord) (r : RunCall) (s : State) : RunCall := if w.sw then r.settle s.free else r

/-- Where the call stands after a word: at the next word, or before the next header. -/
def capNext (r : RunCall) : Option Clause × VAddr := match r.clause with
  | none => (none, r.pc)
  | some c => if c.nm1 ≤ c.word then (none, c.hdr + 8 + BitVec.ofNat 56 (8 * (c.nm1 + 1))) else (some { c with word := c.word + 1 }, r.pc)

/-- The running call is what the word leaves of r, has spent n more core cycles, and goes on with the next word; nothing else of s has
changed. -/
def capRan (w : CWord) (n : Nat) (r : RunCall) (s : State) : State :=
  { setRun s { capLeft w r s with spent := r.spent + n, waiting := false, seen := [], clause := (capNext r).1, pc := (capNext r).2 } with
    free := s.free + 1 }

/-- The same, and the call goes on at an address. -/
def capWent (w : CWord) (n : Nat) (a : VAddr) (r : RunCall) (s : State) : State :=
  { setRun s { capLeft w r s with spent := r.spent + n, waiting := false, seen := [], clause := none, pc := a } with free := s.free + 1 }

/-- A word that has spent n core cycles and whose effect made t is followed by the next one; with S = 1 every outstanding result is written
first. -/
def capGoes (w : CWord) (n : Nat) (t : State) : State :=
  capAdvance { spend (if w.sw then settleCap t else t) n with free := t.free + 1 }

/-- A word that has spent n core cycles and whose effect made t ends the call. -/
def capEnds (n : Nat) (e : CallEnd) (t : State) : State := endCall { spend t n with free := t.free + 1 } e

/-- The capstan instruction mk w completes wherever it issues and leaves a value in D (R282, R283). -/
def capWrites (mk : CWord → Instr) (n : Nat) (val : CWord → State → DWord) : Prop :=
  ∀ w s, capIssues (mk w) s = true → exec (mk w) s = .next (capRan w n ((myRun s).put w.d (val w s)) s)

/-- The capstan instruction mk w completes wherever it issues and a condition holds, with its cost and its effect. -/
def capDoes (mk : CWord → Instr) (cond : CWord → State → Bool) (n : CWord → State → Nat) (effect : CWord → State → State) : Prop :=
  ∀ w s, capIssues (mk w) s = true → cond w s = true → exec (mk w) s = .next (capGoes w (n w s) (effect w s))

/-- The capstan instruction mk w ends the call where a condition holds. -/
def capStops (mk : CWord → Instr) (cond : CWord → State → Bool) (n : CWord → State → Nat) (e : CWord → State → CallEnd)
    (effect : CWord → State → State) : Prop :=
  ∀ w s, capIssues (mk w) s = true → cond w s = true → exec (mk w) s = .next (capEnds (n w s) (e w s) (effect w s))

end Sys2Proof.Machine
end

