-- ==== Sys2Proof/Certificates/Slice0/Obligations.lean ====
section
/-! DEFINITION. The statements for the provers. -/

open Sys2Proof Sys2Proof.Machine

/-! ### Words whose result is a register at once -/

/-- Moves (R77, R78, R16, R23): each word completes wherever it issues, writes its destination with the value stated, and changes nothing
else; NOP writes nothing. The strand then stands at the next word of its clause, or its clause is over, as goneOn says; with S = 1 every
outstanding result is written first. -/
def Obligations.MovesComplete : Prop :=
  (∀ w s, issues (.nop w) s = true → ∃ u, exec (.nop w) s = .next (goneOn w.sw u) ∧
    regsKept (me s) (me u) ∧ (me u).pend = (me s).pend ∧ strandKept (me s) (me u) ∧ restKept 0 s u) ∧
  writes .mov (fun w => w.ty.regs) (fun w s l => (opA s w l, 0)) ∧
  writes .movi (fun w => w.ty.regs) (fun w _ _ => (immValue w.ty w.imm, 0)) ∧
  writes .movh (fun _ => 1) (fun w s l => ((w.imm ++ (opD1 s w l).extractLsb' 0 16 : Word).setWidth 64, 0)) ∧
  writes .sel (fun w => w.ty.regs) (fun w s l => (if readP s w.c.toNat l then opA s w l else opB s w l, 0)) ∧
  writes .lea (fun _ => 2) (fun w s l =>
    (opA2 s w l + ((if w.ty.signed then (opB1 s w l).signExtend 64 else (opB1 s w l).setWidth 64) <<< w.c.toNat), 0))

/-- Integer arithmetic without flags (R80): sums, differences, products, the high half of a product, multiply-add, smaller and
larger, absolute value and negation at the type's width, and the dot products of bytes and halves. -/
def Obligations.IntegersComplete : Prop :=
  writes .iadd (fun w => w.ty.regs) (fun w s l => (atWidth2 w (fun _ a b => a + b) (opA s w l) (opB s w l), 0)) ∧
  writes .isub (fun w => w.ty.regs) (fun w s l => (atWidth2 w (fun _ a b => a - b) (opA s w l) (opB s w l), 0)) ∧
  writes .imul (fun w => w.ty.regs) (fun w s l => (atWidth2 w (fun _ a b => a * b) (opA s w l) (opB s w l), 0)) ∧
  writes .imulh (fun w => w.ty.regs) (fun w s l => (atWidth2 w (fun n a b =>
    BitVec.ofInt n (intOf w.ty.signed n a * intOf w.ty.signed n b / 2 ^ n)) (opA s w l) (opB s w l), 0)) ∧
  writes .imad (fun w => w.ty.regs) (fun w s l => (atWidth3 w (fun _ a b c => a * b + c) (opA s w l) (opB s w l) (opC s w l), 0)) ∧
  writes .imadw (fun _ => 2) (fun w s l =>
    (if w.ty.signed then (opA1 s w l).signExtend 64 * (opB1 s w l).signExtend 64 + opC2 s w l
     else (opA1 s w l).setWidth 64 * (opB1 s w l).setWidth 64 + opC2 s w l, 0)) ∧
  writes .imin (fun w => w.ty.regs) (fun w s l => (atWidth2 w (fun n a b =>
    if intOf w.ty.signed n a ≤ intOf w.ty.signed n b then a else b) (opA s w l) (opB s w l), 0)) ∧
  writes .imax (fun w => w.ty.regs) (fun w s l => (atWidth2 w (fun n a b =>
    if intOf w.ty.signed n a ≤ intOf w.ty.signed n b then b else a) (opA s w l) (opB s w l), 0)) ∧
  writes .iabs (fun w => w.ty.regs) (fun w s l => (atWidth1 w (fun _ a => if a.msb then -a else a) (opA s w l), 0)) ∧
  writes .ineg (fun w => w.ty.regs) (fun w s l => (atWidth1 w (fun _ a => -a) (opA s w l), 0)) ∧
  writes .iadd3 (fun w => w.ty.regs) (fun w s l => (atWidth3 w (fun _ a b c => a + b + c) (opA s w l) (opB s w l) (opC s w l), 0)) ∧
  writes .idot4 (fun _ => 1) (fun w s l => ((opC1 s w l + BitVec.ofInt 32 (((List.range 4).map (fun i =>
    intOf w.ty.signed 8 ((opA1 s w l).extractLsb' (8 * i) 8) * intOf w.ty.signed 8 ((opB1 s w l).extractLsb' (8 * i) 8))).sum)).setWidth 64, 0)) ∧
  writes .idot2 (fun _ => 1) (fun w s l => ((opC1 s w l + BitVec.ofInt 32 (((List.range 2).map (fun i =>
    intOf w.ty.signed 16 ((opA1 s w l).extractLsb' (16 * i) 16) * intOf w.ty.signed 16 ((opB1 s w l).extractLsb' (16 * i) 16))).sum)).setWidth 64, 0))

/-- The integer condition of a word in a lane, by the number in C (R79). -/
def integerHolds (w : SWord) (s : State) (l : Lane) : Bool :=
  let f (n : Nat) (a b : BitVec n) : Bool := match w.c.toNat with
    | 0 => a == b
    | 1 => a != b
    | 2 => decide (intOf w.ty.signed n a < intOf w.ty.signed n b)
    | 3 => decide (intOf w.ty.signed n a ≤ intOf w.ty.signed n b)
    | 4 => decide (intOf w.ty.signed n b < intOf w.ty.signed n a)
    | _ => decide (intOf w.ty.signed n b ≤ intOf w.ty.signed n a)
  if w.ty.wide then f 64 (opA s w l) (opB s w l) else f 32 (loW (opA s w l)) (loW (opB s w l))

/-- Logic, shifts, bit fields, the byte permutation, the hash and ISET (R79, R83, R84, R86): a shift count is B's low byte; counts of the
width or more give 0, or the sign for SAR; a field is LEN bits from POS up, where bits above 31 read as 0; the hash is four rounds and a
final mix; ISET makes a mask of the condition. -/
def Obligations.LogicComplete : Prop :=
  let pos (b : Word) : Nat := b.toNat % 256
  let len (b : Word) : Nat := min (b.toNat / 256 % 256) 32
  let field (w : SWord) (a b : Word) : Word :=
    if w.ty.signed then ((a >>> pos b).setWidth (len b)).signExtend 32 else ((a >>> pos b).setWidth (len b)).setWidth 32
  let insert (a b c : Word) : Word :=
    let m : Word := (BitVec.allOnes (len b)).setWidth 32 <<< pos b
    (c &&& ~~~m) ||| ((a <<< pos b) &&& m)
  let pick (ab : DWord) (c : Word) (i : Nat) : Byte :=
    let sel := c.extractLsb' (4 * i) 4
    let src := ab.extractLsb' (8 * (sel.toNat % 8)) 8
    if sel.msb then (if src.msb then 0xFF else 0) else src
  let round (x : Word × Word × Word) (k : Word) : Word × Word × Word :=
    let a := x.1 + (x.2.1 ^^^ x.2.2.rotateLeft 7) + k
    let b := x.2.1 ^^^ a.rotateLeft 13
    let c := x.2.2 + b.rotateLeft 17
    (a ^^^ c.rotateLeft 5, b, c)
  let hash (key : DWord) (ctr : Word) : Word :=
    let x := round (round (round (round (ctr, key.setWidth 32, (key >>> 32).setWidth 32) 0x5C4E1B27) 0xA3D96F01) 0x17B5C8E3) 0xE2F03A9D
    let h := x.1 ^^^ x.2.1 ^^^ x.2.2
    let h := (h ^^^ (h >>> 16)) * 0x8B3A5C97
    h ^^^ (h >>> 15)
  writes .and (fun w => w.ty.regs) (fun w s l => (atWidth2 w (fun _ a b => a &&& b) (opA s w l) (opB s w l), 0)) ∧
  writes .or (fun w => w.ty.regs) (fun w s l => (atWidth2 w (fun _ a b => a ||| b) (opA s w l) (opB s w l), 0)) ∧
  writes .xor (fun w => w.ty.regs) (fun w s l => (atWidth2 w (fun _ a b => a ^^^ b) (opA s w l) (opB s w l), 0)) ∧
  writes .andn (fun w => w.ty.regs) (fun w s l => (atWidth2 w (fun _ a b => a &&& ~~~b) (opA s w l) (opB s w l), 0)) ∧
  writes .not (fun w => w.ty.regs) (fun w s l => (atWidth1 w (fun _ a => ~~~a) (opA s w l), 0)) ∧
  writes .shl (fun w => w.ty.regs) (fun w s l => (atWidth1 w (fun _ a => a <<< ((opB1 s w l).toNat % 256)) (opA s w l), 0)) ∧
  writes .shr (fun w => w.ty.regs) (fun w s l => (atWidth1 w (fun _ a => a >>> ((opB1 s w l).toNat % 256)) (opA s w l), 0)) ∧
  writes .sar (fun w => w.ty.regs) (fun w s l => (atWidth1 w (fun _ a => a.sshiftRight ((opB1 s w l).toNat % 256)) (opA s w l), 0)) ∧
  writes .rotl (fun w => w.ty.regs) (fun w s l => (atWidth1 w (fun n a => a.rotateLeft ((opB1 s w l).toNat % 256 % n)) (opA s w l), 0)) ∧
  writes .bfx (fun _ => 1) (fun w s l => ((field w (opA1 s w l) (opB1 s w l)).setWidth 64, 0)) ∧
  writes .bfi (fun _ => 1) (fun w s l => ((insert (opA1 s w l) (opB1 s w l) (opC1 s w l)).setWidth 64, 0)) ∧
  writes .popc (fun _ => 1) (fun w s l =>
    (BitVec.ofNat 64 (if w.ty.wide then popBits 64 (opA s w l) else popBits 32 (loW (opA s w l))), 0)) ∧
  writes .clz (fun _ => 1) (fun w s l =>
    (BitVec.ofNat 64 (if w.ty.wide then clzBits 64 (opA s w l) else clzBits 32 (loW (opA s w l))), 0)) ∧
  writes .ctz (fun _ => 1) (fun w s l =>
    (BitVec.ofNat 64 (if w.ty.wide then ctzBits 64 (opA s w l) else ctzBits 32 (loW (opA s w l))), 0)) ∧
  writes .brev (fun w => w.ty.regs) (fun w s l => (atWidth1 w brevBits (opA s w l), 0)) ∧
  writes .bprm (fun _ => 1) (fun w s l => 
    let p := pick (opB1 s w l ++ opA1 s w l) (opC1 s w l)
    ((p 3 ++ p 2 ++ p 1 ++ p 0 : Word).setWidth 64, 0)) ∧
  writes .fshf (fun _ => 1) (fun w s l =>
    (((opB1 s w l ++ opA1 s w l : DWord) >>> ((opC1 s w l).toNat % 64)).setWidth 32 |>.setWidth 64, 0)) ∧
  writes .blut (fun w => w.ty.regs) (fun w s l => (atWidth3 w (lutBits (w.imm.setWidth 8)) (opA s w l) (opB s w l) (opC s w l), 0)) ∧
  writes .rhash (fun _ => 1) (fun w s l => ((hash (opA2 s w l) (opB1 s w l)).setWidth 64, 0)) ∧
  writes .iset (fun _ => 1) (fun w s l => (if integerHolds w s l then 0xFFFFFFFF else 0, 0))

/-- The bit counts, the reversal, the bit fields, the byte permutation and the three-input table, bit by bit (R83, R84): a result bit of BFX
is the bit POS above it of A, or above LEN bits the field's highest one where it is signed; BFI replaces LEN bits from POS up; byte i of BPRM
is the byte of B:A that the low three bits of selector i name, or its highest bit in every place where the selector's fourth bit is 1. -/
def Obligations.BitFunctions : Prop :=
  (∀ n (a : BitVec n), popBits n a = ((List.range n).filter a.getLsbD).length) ∧
  (∀ n (a : BitVec n), clzBits n a ≤ n ∧ (∀ i, i < clzBits n a → a.getMsbD i = false) ∧
    (clzBits n a < n → a.getMsbD (clzBits n a) = true)) ∧
  (∀ n (a : BitVec n), ctzBits n a ≤ n ∧ (∀ i, i < ctzBits n a → a.getLsbD i = false) ∧
    (ctzBits n a < n → a.getLsbD (ctzBits n a) = true)) ∧
  (∀ n (a : BitVec n) i, (brevBits n a).getLsbD i = a.getMsbD i) ∧
  (∀ tt n (a b c : BitVec n) i, i < n → (lutBits tt n a b c).getLsbD i =
    tt.getLsbD ((a.getLsbD i).toNat + 2 * (b.getLsbD i).toNat + 4 * (c.getLsbD i).toNat)) ∧
  (∀ sg (a b : Word) i, i < 32 →
    let pos := b.toNat % 256
    let len := min (b.toNat / 256 % 256) 32
    (bfxBits sg a b).getLsbD i = if i < len then a.getLsbD (pos + i) else sg && (decide (1 ≤ len) && a.getLsbD (pos + len - 1))) ∧
  (∀ (a b c : Word) i, i < 32 →
    let pos := b.toNat % 256
    let len := min (b.toNat / 256 % 256) 32
    (bfiBits a b c).getLsbD i = if pos ≤ i ∧ i < pos + len then a.getLsbD (i - pos) else c.getLsbD i) ∧
  (∀ (a b c : Word) i j, i < 4 → j < 8 →
    let sel := c.toNat / 2 ^ (4 * i) % 16
    (bprmBits a b c).getLsbD (8 * i + j) = (b ++ a : DWord).getLsbD (8 * (sel % 8) + if 8 ≤ sel then 7 else j))

/-! ### Words with flags, words whose result is a predicate, and words whose result comes later -/

/-- ISAT, IDIV and IREM (R81, R82, R22, R23): the clamp to a width with SAT where it changes the value; the quotient toward zero and the
remainder with the dividend's sign, which come later, and DZ with all ones or the dividend for a divisor 0. When every outstanding result is
written, as S = 1 asks, each register without a race holds the newest one for it, every other register stands, and nothing is outstanding. -/
def Obligations.DivisionsComplete : Prop :=
  let newest (s : State) (d : Dest) (old : Word) : Word :=
    ((((me s).pend.flatMap (·.writes)).filter (fun w => w.dest == d)).getLast?.map (·.val)).getD old
  (∀ s, (me s).pend = [] → settleAll s = s) ∧
  (∀ s, (me s).pend ≠ [] → (∀ e ∈ (me s).pend, e.poison = [] ∧ ∀ w ∈ e.writes, w.raced = false) → ∃ t, settleAll s = setMe s t ∧ t.pend = [] ∧
    (∀ r l, vLane t r l = newest s (.v r l) (vLane (me s) r l)) ∧ (∀ r, aGet 0 t.s r = newest s (.s r) (aGet 0 (me s).s r)) ∧
    t = { me s with v := t.v, s := t.s, p := t.p, pend := [], handler := t.handler }) ∧
  writes .isat (fun _ => 1) (fun w s l =>
    let r := intRange w.ty.signed (min (max (opB1 s w l).toNat 1) 32)
    let x := (opA1 s w l).toInt
    ((BitVec.ofInt 32 (max r.1 (min r.2 x))).setWidth 64, if x < r.1 ∨ r.2 < x then fSAT else 0)) ∧
  writesLater .idiv .xu (fun w => w.ty.regs) (fun w s l => atWidthF w (fun n a b =>
    if b = 0 then (BitVec.allOnes n, fDZ) else (if w.ty.signed then a.sdiv b else a / b, 0)) (opA s w l) (opB s w l)) ∧
  writesLater .irem .xu (fun w => w.ty.regs) (fun w s l => atWidthF w (fun _ a b =>
    if b = 0 then (a, fDZ) else (if w.ty.signed then a.srem b else a % b, 0)) (opA s w l) (opB s w l))

/-- The sum and the carry of IADDC in a lane (R80). -/
def carrySum (w : SWord) (s : State) (l : Lane) : DWord × Bool :=
  let sum (n : Nat) (a b : BitVec n) (c : Bool) : BitVec n × Bool := (a + b + BitVec.ofNat n c.toNat, 2 ^ n ≤ a.toNat + b.toNat + c.toNat)
  if w.ty.wide then sum 64 (opA s w l) (opB s w l) (readP s w.c.toNat l)
  else let r := sum 32 (loW (opA s w l)) (loW (opB s w l)) (readP s w.c.toNat l); (r.1.setWidth 64, r.2)

/-- IADDC (R80, R76): D receives the sum with the carry that p[C] holds, and p[C] the carry out, in each enabled lane; with a scalar D
the sum is made once and every enabled lane receives its carry. -/
def Obligations.CarryCompletes : Prop :=
  ∀ w s, issues (.iaddc w) s = true → ∃ u, exec (.iaddc w) s = .next (goneOn w.sw u) ∧
    let en := enabled s w
    let r := fun l => carrySum w (issued (.iaddc w) s) (if isScalar w.d then (lowestLane en).getD l else l)
    vectorsAfter w w.ty.regs en (fun l => (r l).1) (me s) (me u) ∧ scalarsAfter w w.ty.regs en (fun l => (r l).1) (me s) (me u) ∧
    predsAfter w.c.toNat en (fun l => (r l).2) (me s) (me u) ∧
    (me u).pend = race (me s).pend (fun d => writtenIn w.d w.ty.regs en d || decidedIn (me s) w.c.toNat en d) ∧
    strandKept (me s) (me u) ∧ restKept 0 s u

/-- Comparisons and predicate logic (R76, R79, R84, R90): the predicate in each enabled lane, and nothing else. -/
def Obligations.PredicatesComplete : Prop :=
  decides .icmp (fun w s l => (integerHolds w s l, 0)) ∧
  decides .plog (fun w s l => ((w.imm.setWidth 8).getLsbD
    ((readP s w.a.toNat l).toNat + 2 * (readP s w.b.toNat l).toNat + 4 * (readP s w.c.toNat l).toNat), 0)) ∧
  decides .fcmp (fun w s l => f32.cond w.c.toNat (flA s w l).toNat (flB s w l).toNat) ∧
  decides .fcls (fun w s l => (w.imm.getLsbD (5 + fClass (opA1 s w l).toNat), 0))

/-- PMOV (R85) in its four forms: the eight predicates of a lane into a register; the predicates of a mask from a register's bits; one
predicate of the enabled lanes into a scalar; and one predicate from a scalar's bits. -/
def Obligations.PredicateMovesComplete : Prop :=
  ∀ w s, issues (.pmov w) s = true → ∃ t, exec (.pmov w) s = .next (goneOn w.sw t) ∧ strandKept (me s) (me t) ∧ restKept 0 s t ∧
    let u := issued (.pmov w) s
    let en := enabled s w
    let reg (val : Lane → DWord) : Prop := wrote w 1 en val (me s) (me t) ∧ (me t).pend = race (me s).pend (writtenIn w.d 1 en)
    let same : Prop := (me t).v = (me s).v ∧ (me t).s = (me s).s
    match w.bits 0 2 with
    | 0 => reg (fun l => BitVec.ofNat 64 (((List.range 8).map (fun i => (readP u i l).toNat * 2 ^ i)).sum))
    | 1 => same ∧ (∀ j l, j < 8 → (me s).handler = none ∨ l = 0 → inMask (predOf (me t) j) l =
        if w.imm.getLsbD (8 + j) = true ∧ j ≠ 7 ∧ inMask en l = true then (opA1 u w l).getLsbD j else inMask (predOf (me s) j) l) ∧
      ((me s).handler ≠ none → (me t).p = (me s).p) ∧
      (me t).pend = race (me s).pend (fun d => (List.range 8).any (fun j => w.imm.getLsbD (8 + j) && decidedIn (me s) j en d))
    | 2 => reg (fun _ => (maskOf (fun l => inMask en l && readP u (w.bits 8 3) l)).setWidth 64)
    | _ => same ∧ predsAfter (w.bits 8 3) en (fun l => (opA1 u w l).getLsbD l.val) (me s) (me t) ∧
      (me t).pend = race (me s).pend (decidedIn (me s) (w.bits 8 3) en)

/-- Float arithmetic and selections (R72, R87 to R92): each element is the exact result of its inputs rounded once in the word's mode,
with its flags; FMIN to FMED3 select, FABS, FNEG and FCPS act on sign bits, FSET makes a mask, FRND an integral value, FSCL a
scaling and FEXPN an exponent. -/
def Obligations.FloatsComplete : Prop :=
  let elem (mk : SWord → Instr) (g : SWord → Fmt → Nat → Nat → Nat → Nat × Flags) : Prop :=
    writes mk (fun _ => 1) (fun w s l => eachElem w.ty (g w) (flA s w l) (flB s w l) (opC1 s w l))
  let rounded (w : SWord) (f : Fmt) (x : FV × Flags) : Nat × Flags := roundResult f (roundOf w) (satOf w) x
  elem .fadd (fun w f a b _ => rounded w f (FV.sum (roundOf w) [f.unpack a, f.unpack b])) ∧
  elem .fsub (fun w f a b _ => rounded w f (FV.sum (roundOf w) [f.unpack a, (f.unpack b).flip])) ∧
  elem .fadd3 (fun w f a b c => rounded w f (FV.sum (roundOf w) [f.unpack a, f.unpack b, f.unpack c])) ∧
  elem .fmul (fun w f a b _ => rounded w f ((f.unpack a).mul (f.unpack b))) ∧
  elem .ffma (fun w f a b c => dotElem f (roundOf w) (satOf w) [(f.unpack a, f.unpack b)] (f.unpack c)) ∧
  elem .fmin (fun _ f a b _ => f.minMax false a b) ∧
  elem .fmax (fun _ f a b _ => f.minMax true a b) ∧
  elem .fminp (fun _ f a b _ => f.minMaxP false a b) ∧
  elem .fmaxp (fun _ f a b _ => f.minMaxP true a b) ∧
  elem .fmed3 (fun _ f a b c =>
    let lo := f.minMax false a b
    let hi := f.minMax true a b
    let m := f.minMax false hi.1 c
    let r := f.minMax true lo.1 m.1
    (r.1, lo.2 ||| hi.2 ||| m.2 ||| r.2)) ∧
  elem .fabs (fun _ f a _ _ => (a % f.sbit, 0)) ∧
  elem .fneg (fun _ f a _ _ => (if a / f.sbit % 2 = 1 then a - f.sbit else a + f.sbit, 0)) ∧
  elem .fcps (fun _ f a b _ => (a % f.sbit + b / f.sbit % 2 * f.sbit, 0)) ∧
  elem .fset (fun w f a b _ => (if (f.cond w.c.toNat a b).1 then 2 * f.sbit - 1 else 0, (f.cond w.c.toNat a b).2)) ∧
  elem .frnd (fun w f a _ _ => rndElem (.ofBits (w.bits 0 2)) f a 0 0) ∧
  writes .fscl (fun _ => 1) (fun w s l =>
    let r := rounded w f32 ((f32.unpack (flA s w l).toNat).scale (fsclB s w l), 0)
    (BitVec.ofNat 64 r.1, r.2)) ∧
  writes .fexpn (fun _ => 1) (fun w s l => ((expnBits (opA1 s w l)).1.setWidth 64, (expnBits (opA1 s w l)).2)) ∧
  writes .fdot2 (fun _ => 1) (fun w s l =>
    let f := fmtOf w.ty
    let r := dotElem f32 (roundOf w) (satOf w) ((halves f (flA s w l)).zip (halves f (flB s w l))) (f32.unpack (opC1 s w l).toNat)
    (BitVec.ofNat 64 r.1, r.2))

/-- FDOT4, CVNE, CVND and BSCL read a narrow-format register (R88, R97, R101, R35): with a valid one they complete, and with another
they trap ILLOP. -/
def Obligations.NarrowFormatsComplete : Prop :=
  let valid (ix : SWord → Nat) (w : SWord) (s : State) : Bool := nfValid (nfReg s (ix w))
  let apply (w : SWord) : Bool := w.bits 5 1 == 0
  writesIf .fdot4 (valid fdot4Nf) (fun _ => 1) (fun w s l =>
    let f := NF.of (nfReg s (fdot4Nf w))
    let r := dotElem f32 (roundOf w) (satOf w) ((codes4 f (negA w) (opA1 s w l)).zip (codes4 f (negB w) (opB1 s w l)))
      (f32.unpack (opC1 s w l).toNat)
    (BitVec.ofNat 64 r.1, r.2)) ∧
  trapsIf .fdot4 (fun w s => !valid fdot4Nf w s) .illop (fun _ => 0) ∧
  writesIf .cvne (valid (fun w => w.bits 7 4)) (fun _ => 1) (fun w s l =>
    let r := (NF.of (nfReg s (w.bits 7 4))).ofF32 (roundOf w) (opA1 s w l).toNat
    ((setByte (opD1 s w l) (w.bits 5 2) r.1).setWidth 64, r.2)) ∧
  trapsIf .cvne (fun w s => !valid (fun w => w.bits 7 4) w s) .illop (fun _ => 0) ∧
  writesIf .cvnd (valid (fun w => w.bits 7 4)) (fun _ => 1) (fun w s l =>
    (BitVec.ofNat 64 ((NF.of (nfReg s (w.bits 7 4))).toF32 ((opA1 s w l).toNat / 2 ^ (8 * w.bits 5 2) % 256)), 0)) ∧
  trapsIf .cvnd (fun w s => !valid (fun w => w.bits 7 4) w s) .illop (fun _ => 0) ∧
  writesIf .bscl (fun w _ => apply w) (fun _ => 1) (fun w s l =>
    let r := bsclApply ((opB1 s w l).toNat / 2 ^ (8 * w.bits 6 2) % 256) (opA1 s w l)
    (r.1.setWidth 64, r.2)) ∧
  writesIf .bscl (fun w s => !apply w && valid (fun w => w.bits 8 4) w s) (fun _ => 1) (fun w s l =>
    ((bsclDerive (nfReg s (w.bits 8 4)) (opA1 s w l)).setWidth 64, if f32.isSig (opA1 s w l).toNat then fINV else 0)) ∧
  trapsIf .bscl (fun w s => !apply w && !valid (fun w => w.bits 8 4) w s) .illop (fun _ => 0)

/-- The other conversions (R96, R98 to R100). -/
def Obligations.ConversionsComplete : Prop :=
  writes .cvtf (fun _ => 1) (fun w s l => cvtfLane w (opA1 s w l) (opB1 s w l)) ∧
  writes .i2f (fun _ => 1) (fun w s l =>
    let x : Int := if w.bits 5 2 = 0 then (opA1 s w l).toInt else if w.bits 5 2 = 1 then (opA1 s w l).toNat
      else if w.bits 5 2 = 2 then (opA2 s w l).toInt else (opA2 s w l).toNat
    let r := f32.pack (roundOf w) false (.ofInt x)
    (BitVec.ofNat 64 r.1, r.2)) ∧
  writes .f2i (fun w => w.ty.regs) (fun w s l =>
    let n := if w.ty.wide then 64 else 32
    let r := f2iVal (roundOf w) w.ty.signed n (opA1 s w l).toNat
    (BitVec.ofNat 64 (natOf n r.1), r.2)) ∧
  writes .pack (fun _ => 1) (fun w s l => packLane w (opA1 s w l) (opB1 s w l) (opC1 s w l)) ∧
  writes .unpk (fun _ => 1) (fun w s l =>
    let n := if w.bits 5 1 = 1 then 8 else 16
    let v := (opA1 s w l).extractLsb' (n * w.bits 6 2) n
    (((if w.ty.signed then v.signExtend 32 else v.setWidth 32) : Word).setWidth 64, 0)) ∧
  writes .fxq (fun _ => 2) (fun w s l => fxqBits (signedOf 8 (w.bits 8 8)) (opA1 s w l)) ∧
  writes .fxd (fun _ => 1) (fun w s l => fxdBits (roundOf w) (signedOf 8 (w.bits 8 8)) (opA2 s w l))

/-- Transcendentals and FDIV (R93, R94): results that come later, for every operand. The values that R94 lists are exact: for NaN, the zeros
and the infinities, for negative operands of LOG2, RSQ and SQRT, for powers of two and of four, for integers and halves of SINP and COSP,
and for small and large operands of TANH. Elsewhere RCP and RSQ answer the exact result rounded, or bits of the device within 1 or 2 units
in the last place; LOG2, SINP, COSP and TANH answer the nearest value to a bracket of the exact result, or bits of the device within the
bound of it (which bits is left open, log entry 2). -/
def Obligations.TranscendentalsComplete : Prop :=
  let isNan (a : Word) : Prop := a.extractLsb' 23 8 = 0xFF ∧ a.extractLsb' 0 23 ≠ 0
  let nan (a : Word) : Word × Flags := (0x7FC00000, if a.getLsbD 22 then 0 else fINV)
  let fin (a : Word) (m e : Int) : Prop := f32.unpack a.toNat = .fin m e
  let code (v : FV) : Word := BitVec.ofNat 32 (f32.pack .rne false v).1
  let whole (m e : Int) : Prop := 0 ≤ e ∨ m % 2 ^ (-e).toNat = 0
  let half (m e : Int) : Prop := ¬ whole m e ∧ 2 * m % 2 ^ (-e).toNat = 0
  let even (m e : Int) : Prop := (if 0 ≤ e then m * 2 ^ e.toNat else m / 2 ^ (-e).toNat) % 2 = 0
  let near (k : Nat) (mid lo hi bound : Int) (c : Word) : Prop :=
    c = f32OfFixed k mid ∨ ∃ x, f32Fixed k c.toNat = some x ∧ hi - bound ≤ x ∧ x ≤ lo + bound
  let under (c : Word) : Flags := if c.toNat % 2 ^ 31 = 0 then fUNF else 0
  let one (mk : SWord → Instr) (g : Word → Word × Flags) : Prop :=
    writesLater mk .xu (fun _ => 1) (fun w s l => ((g (flA s w l)).1.setWidth 64, (g (flA s w l)).2))
  one .exp2 (fun a => (BitVec.ofNat 32 (exp2Bits a.toNat).1, (exp2Bits a.toNat).2)) ∧
  one .log2 log2Result ∧ one .rcp rcpResult ∧ one .rsq rsqResult ∧ one .sinp sinpResult ∧ one .cosp cospResult ∧ one .tanh tanhResult ∧
  writesLater .sqrt .xu (fun _ => 1) (fun w s l =>
    ((sqrtResult (roundOf w) (satOf w) (opA1 s w l)).1.setWidth 64, (sqrtResult (roundOf w) (satOf w) (opA1 s w l)).2)) ∧
  writesLater .fdiv .xu (fun _ => 1) (fun w s l => eachElem w.ty (fun f a b _ =>
    roundResult f (roundOf w) (satOf w) ((f.unpack a).div (f.mb + 1) (f.unpack b))) (flA s w l) (flB s w l) (opC1 s w l)) ∧
  (∀ g ∈ [log2Result, rcpResult, rsqResult, sinpResult, cospResult, tanhResult], ∀ a, isNan a → g a = nan a) ∧
  (∀ rm sat a, isNan a → sqrtResult rm sat a = nan a) ∧
  (∀ g ∈ [log2Result, rsqResult, sqrtResult .rne false], ∀ a : Word, a.msb = true → ¬ isNan a → a ≠ 0x80000000 → g a = (0x7FC00000, fINV)) ∧
  [0, 0x80000000, 0x7F800000, 0x3F800000].map log2Result = [(0xFF800000, fDZ), (0xFF800000, fDZ), (0x7F800000, 0), (0, 0)] ∧
  [0, 0x80000000, 0x7F800000, 0xFF800000].map rcpResult = [(0x7F800000, fDZ), (0xFF800000, fDZ), (0, 0), (0x80000000, 0)] ∧
  [0, 0x80000000, 0x7F800000].map rsqResult = [(0x7F800000, fDZ), (0xFF800000, fDZ), (0, 0)] ∧
  [0, 0x80000000, 0x7F800000].map (sqrtResult .rne false) = [(0, 0), (0x80000000, 0), (0x7F800000, 0)] ∧
  [0, 0x80000000, 0x7F800000, 0xFF800000].map sinpResult = [(0, 0), (0x80000000, 0), (0x7FC00000, fINV), (0x7FC00000, fINV)] ∧
  [0, 0x80000000, 0x7F800000, 0xFF800000].map cospResult = [(0x3F800000, 0), (0x3F800000, 0), (0x7FC00000, fINV), (0x7FC00000, fINV)] ∧
  [0, 0x80000000, 0x7F800000, 0xFF800000].map tanhResult = [(0, 0), (0x80000000, 0), (0x3F800000, 0), (0xBF800000, 0)] ∧
  (∀ a m e (n : Nat), fin a m e → m = 2 ^ n → log2Result a = (code (.ofInt (n + e)), 0)) ∧
  (∀ a m e (n : Nat), fin a m e → m.natAbs = 2 ^ n → rcpResult a = (code (.fin (if m < 0 then -1 else 1) (-(n + e))), 0)) ∧
  (∀ a m e (n : Nat) k, fin a m e → m = 2 ^ n → n + e = 2 * k → rsqResult a = (code (.fin 1 (-k)), 0)) ∧
  (∀ rm sat a m e, fin a m e → 0 < m → sqrtResult rm sat a =
    (BitVec.ofNat 32 (f32.pack rm sat (sqrtSticky 30 m.natAbs e)).1, (f32.pack rm sat (sqrtSticky 30 m.natAbs e)).2)) ∧
  (∀ a m e, fin a m e → (whole m e → sinpResult a = (if m < 0 then 0x80000000 else 0, 0) ∧
      (even m e → cospResult a = (0x3F800000, 0)) ∧ (¬ even m e → cospResult a = (0xBF800000, 0))) ∧
    (half m e → cospResult a = (0, 0) ∧ (even m e → sinpResult a = (0x3F800000, 0)) ∧ (¬ even m e → sinpResult a = (0xBF800000, 0)))) ∧
  (∀ a m e, fin a m e → (m.natAbs * 2 ^ (e + 149).toNat < 2 ^ 137 → tanhResult a = (a, 0)) ∧
    (901 * 2 ^ 149 ≤ 100 * m.natAbs * 2 ^ (e + 149).toNat → tanhResult a = (if m < 0 then 0xBF800000 else 0x3F800000, 0))) ∧
  (∀ a m e, fin a m e → let c := (rcpResult a).1
    let exact := divSticky 30 1 0 m e
    (rcpResult a).2 = 0 ∧ (c = code exact ∨ ∃ cm ce, candidate c = some (cm, ce) ∧
      |(cm : Rat) * 2 ^ ce * (m * 2 ^ e) - 1| ≤ |(m : Rat) * 2 ^ e| * 2 ^ (ulpExp exact.exp2of))) ∧
  (∀ a m e rm re, fin a m e → 0 < m → sqrtSticky 34 m.natAbs e = .fin rm re → let c := (rsqResult a).1
    let exact := divSticky 34 1 0 rm re
    let u : Rat := 2 * 2 ^ (ulpExp exact.exp2of)
    (rsqResult a).2 = 0 ∧ (c = code exact ∨ ∃ cm ce, candidate c = some (cm, ce) ∧
      (((cm : Rat) * 2 ^ ce - u ≤ 0) ∨ ((cm : Rat) * 2 ^ ce - u) ^ 2 * (m * 2 ^ e) ≤ 1) ∧
      1 ≤ ((cm : Rat) * 2 ^ ce + u) ^ 2 * (m * 2 ^ e) ∧ 0 < (cm : Rat) * 2 ^ ce + u)) ∧
  (∀ a m e, fin a m e → 0 < m → (∀ n : Nat, m ≠ 2 ^ n) →
    let br := log2Bracket m.natAbs e
    let k := (bitLen m.natAbs : Int) - 1 + e
    near 160 br.1 br.1 br.2 (if k = -1 ∨ k = 0 then 2 ^ 138 else min |br.1| |br.2| / 2 ^ 22) (log2Result a).1 ∧
    (log2Result a).2 = under (log2Result a).1) ∧
  (∀ a m e, fin a m e → ¬ whole m e → ¬ half m e →
    near 256 (sinPi m e) (sinPi m e - 2 ^ 16) (sinPi m e + 2 ^ 16) (2 ^ 234) (sinpResult a).1 ∧ (sinpResult a).2 = under (sinpResult a).1 ∧
    (let y : Nat := fracOf m e
     let far : Bool := decide (2 ^ 149 < y)
     let v := cosPiFixed (((if far then 2 ^ 150 - y else y : Nat) : Int) * 2 ^ 106)
     let x := if far != oddOf m e then -v else v
     near 256 x (x - 2 ^ 16) (x + 2 ^ 16) (2 ^ 234) (cospResult a).1) ∧ (cospResult a).2 = under (cospResult a).1) ∧
  (∀ a m e, fin a m e → 2 ^ 137 ≤ m.natAbs * 2 ^ (e + 149).toNat → 100 * m.natAbs * 2 ^ (e + 149).toNat < 901 * 2 ^ 149 →
    let v := tanhFixed ((m.natAbs * 2 ^ (e + 192).toNat : Nat) : Int)
    let x := if m < 0 then -v else v
    near 192 x (x - 2 ^ 40) (x + 2 ^ 40) ((v - 2 ^ 40) / 2 ^ 21) (tanhResult a).1 ∧ (tanhResult a).2 = 0)

/-- Moves between lanes, with MATCH and LFND (R171, R173 to R176, R178, R181): the results come later. SHFL takes its source lane by its
mode; BXCH orders the values of a pair of participants; RXCH orders two registers of a lane, both of which are results; LMOV, LPUT and LROT
use the amount of lane 0; MATCH gives each lane the mask of the participants, the enabled lanes, whose A equals its own; LFND gives the
lowest or the highest participant whose A and B are equal, 32 where there is none, or how many there are. -/
def Obligations.LaneMovesComplete : Prop :=
  writesLater .shfl .sh (fun w => w.ty.regs) (fun w s l =>
    let b := (opB1 s w l).toNat
    (match w.c.toNat with
      | 0 => opA s w (Fin.ofNat 32 b)
      | 1 => opA s w (Fin.ofNat 32 (l.val ^^^ (b % 32)))
      | 2 => if l.val + b < 32 then opA s w (Fin.ofNat 32 (l.val + b)) else opD s w l
      | _ => if b ≤ l.val then opA s w (Fin.ofNat 32 (l.val - b)) else opD s w l, 0)) ∧
  writesLater .bxch .sh (fun w => w.ty.regs) (fun w s l =>
    let q : Lane := Fin.ofNat 32 (l.val ^^^ ((opB1 s w l).toNat % 32))
    let lower : Lane := if l.val < q.val then l else q
    (if q = l ∨ inMask (enabled s w) q = false then opA s w l
     else if (l = lower) ≠ (readP s w.c.toNat lower = true) then laneSmaller w.ty (opA s w l) (opA s w q)
     else laneLarger w.ty (opA s w l) (opA s w q), 0)) ∧
  writesLater .lmov .sh (fun w => w.ty.regs) (fun w s _ => (opA s w (Fin.ofNat 32 (opB1 s w 0).toNat), 0)) ∧
  writesLater .lrot .sh (fun w => w.ty.regs) (fun w s l => (opA s w (Fin.ofNat 32 (l.val + (opB1 s w 0).toNat % 32)), 0)) ∧
  writesLater .lfnd .sh (fun _ => 1) (fun w s _ =>
    let hit := (lanesOf (enabled s w)).filter (fun l => opA s w l == opB s w l)
    (BitVec.ofNat 64 (match w.c.toNat with
      | 0 => (hit.head?.map (·.val)).getD 32
      | 1 => (hit.getLast?.map (·.val)).getD 32
      | _ => hit.length), 0)) ∧
  writesLater .matchLanes .sh (fun _ => 1) (fun w s l =>
    ((maskOf (fun m => inMask (enabled s w) m && opA s w m == opA s w l)).setWidth 64, 0)) ∧
  (∀ w s, issues (.rxch w) s = true → ∃ t, exec (.rxch w) s = .next (goneOn w.sw t) ∧
    let u := issued (.rxch w) s
    let swap := fun l => readP u w.c.toNat l
    let d := fun l => if swap l then laneLarger w.ty (opD u w l) (opA u w l) else laneSmaller w.ty (opD u w l) (opA u w l)
    let a := fun l => if swap l then laneSmaller w.ty (opD u w l) (opA u w l) else laneLarger w.ty (opD u w l) (opA u w l)
    let ws := regWrites w.d w.ty.regs (enabled s w) d ++ regWrites w.a w.ty.regs (enabled s w) a
    wordLater .sh ws 0 s t ∧
    madeBy w.sw (fun x y => ∃ z, wrote w w.ty.regs (enabled s w) d x z ∧ wrote { w with d := w.a } w.ty.regs (enabled s w) a z y) s t) ∧
  (∀ w s, issues (.lput w) s = true → ∃ t, exec (.lput w) s = .next (goneOn w.sw t) ∧
    let u := issued (.lput w) s
    let en := enabled s w &&& laneBit (Fin.ofNat 32 (opB1 u w 0).toNat)
    wordLater .sh (regWrites w.d w.ty.regs en (opA u w)) 0 s t ∧ madeBy w.sw (wrote w w.ty.regs en (opA u w)) s t)

/-- Collectives over the participating lanes (R171, R177, R179, R180): VOTE's mask, count and two predicates, REDL's tree and SCANL's
prefixes; the results come later. -/
def Obligations.CollectivesComplete : Prop :=
  (∀ w s, issues (.vote w) s = true → ∃ t, exec (.vote w) s = .next (goneOn w.sw t) ∧
    let u := issued (.vote w) s
    let v := maskOf (fun l => inMask (enabled s w) l && readP u w.a.toNat l)
    let n := laneCount (enabled s w)
    let pred (b : Bool) : Prop := wordLater .sh (predWrites w.d.toNat (enabled s w) (fun _ => b)) 0 s t ∧
      madeBy w.sw (fun x y => predsAfter w.d.toNat (enabled s w) (fun _ => b) x y ∧ y.v = x.v ∧ y.s = x.s) s t
    let reg (x : DWord) : Prop := wordLater .sh (regWrites w.d 1 (computeLanes s w) (fun _ => x)) 0 s t ∧
      madeBy w.sw (wrote w 1 (computeLanes s w) (fun _ => x)) s t
    match w.c.toNat with
    | 0 => reg (v.setWidth 64)
    | 1 => reg (BitVec.ofNat 64 (laneCount v))
    | 2 => pred (if w.bits 0 6 = 0 then laneCount v == n else w.bits 0 6 ≤ laneCount v)
    | _ => pred (laneCount v == 0 || laneCount v == n)) ∧
  writesLater .redl .sh (fun w => w.ty.regs) (fun w s _ => redTree (redCombine w.ty w.c.toNat) 5
    (allLanes.map (fun l => if inMask (enabled s w) l then opA s w l else redIdentity w.ty w.c.toNat))) ∧
  writesLater .scanl .sh (fun w => w.ty.regs) (fun w s l =>
    let r := scanFrom w s (w.c.toNat % 16) (w.c.toNat / 16 % 2 == 1) (lanesOf (enabled s w)) none
    (((r.1.find? (fun x => x.1 == l)).map (·.2)).getD 0, r.2))


/-! ### Control, reconvergence and software traps -/

/-- BRA, BRX, CALL, CALLX, RET, YIELD and BDEC (R28, R103 to R105, R108, R109): every enabled lane whose target is good transfers, after
its link or its count has been written; a lane whose register target is not a multiple of 8, or has bits above 55, faults MEMFAULT at
the word. That a relative target and the link are sums modulo 2^56, so that they wrap at the top of the address space, is the model's choice
(log 51). -/
def Obligations.TransfersComplete : Prop :=
  let relative (w : SWord) (u : State) : VAddr := wordAddr u + BitVec.ofInt 56 (8 * w.imm.toInt)
  let next (u : State) : VAddr := (curClause u).hdr + 8 + BitVec.ofNat 56 (8 * ((curClause u).nm1 + 1))
  let link (w : SWord) (m : LaneMask) (u : State) : State := setMe u (putReg (me u) w.d 2 m (fun _ => (next u).setWidth 64))
  let good (w : SWord) (u : State) : LaneMask :=
    maskOf (fun l => inMask (enabled u w) l && (opA2 u w l).toNat % 8 == 0 && decide ((opA2 u w l).toNat < 2 ^ 56))
  let jump (w : SWord) (u t : State) : State :=
    faultLanes (transfer t (good w u) (fun l => (opA2 u w l).extractLsb' 0 56)) (curClause u).hdr (some (curClause u).word)
      ((lanesOf (enabled u w &&& ~~~good w u)).map (fun l => (l, .memfault, opA2 u w l, 0)))
  let count (w : SWord) (u : State) (l : Lane) : Word := opD1 u w (if isVector w.d then l else (lowestLane (enabled u w)).getD l) - 1
  does .bra (fun w u => transfer u (enabled u w) (fun _ => relative w u)) ∧
  does .call (fun w u => transfer (link w (enabled u w) u) (enabled u w) (fun _ => relative w u)) ∧
  does .brx (fun w u => jump w u u) ∧ does .ret (fun w u => jump w u u) ∧
  does .callx (fun w u => jump w u (link w (good w u) u)) ∧
  does .yield (fun _ u => transfer u (act u) (fun _ => next u)) ∧
  does .bdec (fun w u => transfer (setMe u (putReg (me u) w.d 1 (enabled u w) (fun l => (count w u l).setWidth 64)))
    (maskOf (fun l => inMask (enabled u w) l && count w u l != 0)) (fun _ => relative w u))

/-- A branch (R28, R103, R148, R149): each enabled lane stands at the header that the branch word's address plus 8 times the sign-extended
IMM16 names, and has left the clause; every other lane stands where it stood, until the strand goes on: then, after the last word of the
clause, the active lanes that did not branch stand at the header that follows it. In handler mode the handler's own PC moves so, and no
thread's does. That an address past 2^56 wraps is the model's choice (log entry 51). -/
def Obligations.BranchMoves : Prop :=
  let target (w : SWord) (s : State) : VAddr := wordAddr s + BitVec.ofInt 56 (8 * w.imm.toInt)
  (∀ w s c, issues (.bra w) s = true → (me s).handler = none → (me s).clause = some c →
    let go := enabled s w
    (∃ u, exec (.bra w) s = .next (goneOn w.sw u) ∧ regsKept (me s) (me u) ∧ (me u).pend = (me s).pend ∧ restKept 0 s u ∧
      (me u).clause = some { c with act := c.act &&& ~~~go } ∧
      ∀ l, (me u).threads.get l = if inMask go l then { (me s).threads.get l with pc := target w s, place := none } else (me s).threads.get l) ∧
    (quiet w s = true → ∃ t, exec (.bra w) s = .next t ∧ regsKept (me s) (me t) ∧
      (me t).clause = (if c.act &&& ~~~go = 0 ∨ c.nm1 ≤ c.word then none else some { c with act := c.act &&& ~~~go, word := c.word + 1 }) ∧
      ∀ l, let x := (me s).threads.get l
           let y := (me t).threads.get l
        y.st = x.st ∧ y.mr = x.mr ∧
        if inMask go l = true then y.pc = target w s ∧ y.place = none
        else if inMask c.act l = true ∧ c.nm1 ≤ c.word then y.pc = nextHeader s ∧ y.place = none
        else y.pc = x.pc ∧ y.place = x.place)) ∧
  (∀ w s h c, issues (.bra w) s = true → (me s).handler = some h → h.clause = some c → inMask (enabled s w) 0 = true →
    ∃ u, exec (.bra w) s = .next (goneOn w.sw u) ∧ regsKept (me s) (me u) ∧ restKept 0 s u ∧ (me u).threads = (me s).threads ∧
      (me u).handler = some { h with pc := target w s, clause := some { c with act := c.act &&& ~~~enabled s w } })

/-- JOIN, MEET, EXIT and PTOK (R106, R152, R153, R169, R183): JOIN saves each enabled lane's meeting address in D and sets the new one;
MEET, at word 0 only, holds the enabled lanes whose meeting address is this header and lets all of them go on when the release condition
holds; EXIT ends the enabled lanes; PTOK hands the token to the partner. That JOIN's address is a sum modulo 2^56, as a branch target is
(log 51), and that MEET at another word is ILLOP (log 50), are the model's choices. -/
def Obligations.ReconvergenceComplete : Prop :=
  does .join (fun w u => setMe u (meetSweep (readV u 1)
    ((putReg (me u) w.d 2 (enabled u w) (fun l => ((me u).threads.get l).mr.setWidth 64)).modThreads (enabled u w)
      (fun _ x => { x with mr := wordAddr u + BitVec.ofInt 56 (8 * w.imm.toInt) })))) ∧
  trapsIf .meet (fun _ u => decide ((curClause u).word ≠ 0)) .illop (fun _ => 0) ∧
  doesIf .meet (fun _ u => decide ((curClause u).word = 0)) (fun w u =>
    let h := (curClause u).hdr
    let held := maskOf (fun l => inMask (enabled u w) l && ((me u).threads.get l).mr == h)
    let a := parkClause (setMe u ((me u).modThreads held (fun _ x => { x with st := .held w.a.toNat, pc := h, place := none }))) held
    let free := meetReady (me a) h
    let b := setMe a (meetRelease (readV a 1) (me a) free)
    setClause b ((curClause? b).map (fun c => { c with act := c.act ||| free, group := c.group ||| free }))) ∧
  does .exit (fun w u => exitThreads (leaveClause u (enabled u w)) (enabled u w)) ∧
  idle .ptok ∧
  doesOnce .ptok (fun _ _ u => (myCord u).token && (myCord u).partner.isSome) (fun _ _ u =>
    let a := setMyCord u { myCord u with token := false }
    let p := (myCord u).partner.getD 0
    setCord a p { getCord a p with token := true }) ∧
  doesOnce .ptok (fun _ _ u => !((myCord u).token && (myCord u).partner.isSome)) (fun _ _ u => u)

/-- TRAP and BRK (R107): precise traps with IMM16 in AUX where some active lane is enabled, and no effect where none is. -/
def Obligations.SoftwareTrapsTaken : Prop :=
  idle .trap ∧ trapsIf .trap (fun w u => enabled u w != 0) .swtrap (fun w => w.imm.setWidth 64) ∧
  idle .brk ∧ trapsIf .brk (fun w u => enabled u w != 0) .brk (fun w => w.imm.setWidth 64)

/-! ### Memory: loads, stores, atomics and fences -/

/-- The word of a label access: eight bytes, with the offset of its shape byte (R252). -/
def labelWord (w : SWord) : SWord := { w with imm := BitVec.ofNat 16 (256 * w.bits 8 8 + 3) }

/-- The checks of an access to device memory in a lane, in the order of R116 and R218, with the address that is formed: ALIGN; through a
handle base its form, its bit W, its generation and its bounds, and a base register that holds 0, the null handle; then translation and
permission. That a base of 0 is the null handle only where a register names it is the model's choice (log entry 19). -/
def addressChecks (need : Need) : Prop :=
  ∀ s w (z : Nat) off l, let base := opA2 s w l
    let disp : Int := (opB1 s w l).toInt * z + off * z
    let a := base + BitVec.ofInt 64 disp
    let job := (myCord s).job
    let o := getObj s job (hIndex base)
    let form : Prop := hClass base ≤ 25 ∧ hIndex base < (aGet {} s.jobs job).tlen ∧ o.cls = hClass base
    let live : Prop := o.gen = hGen base ∧ o.st = 1
    let bounds : Prop := 0 ≤ disp ∧ disp + z ≤ 2 ^ (o.cls + 6)
    let r := (memTarget s w z off need l).2
    (memTarget s w z off need l).1 = a ∧
    (isHandle base = false → (a.toNat % z ≠ 0 → r = .error .align) ∧
      (a.toNat % z = 0 → base = 0 → w.a ≠ 0xF0 → r = .error .memfault) ∧
      (a.toNat % z = 0 → (base ≠ 0 ∨ w.a = 0xF0) → r = match translate s (some s.focus.core) job a need (l.val + 1) with
        | some p => .ok p
        | none => .error .memfault) ∧
      (a.toNat % z = 0 → vaOk a = false → r = .error .memfault) ∧
      (a.toNat % z = 0 → a.toNat < windowBase → (∀ x, findTlb s s.focus.core job a.toNat (l.val + 1) = some x → x.allows need = false) →
        r = .error .memfault)) ∧
    (isHandle base = true → (disp % z ≠ 0 → r = .error .align) ∧
      (disp % z = 0 → ¬ form → r = .error .memfault) ∧ (disp % z = 0 → form → hWeak base = true → r = .error .weakuse) ∧
      (disp % z = 0 → form → hWeak base = false → ¬ live → r = .error .memfault) ∧
      (disp % z = 0 → form → hWeak base = false → live → ¬ bounds → r = .error .memfault) ∧
      (disp % z = 0 → form → hWeak base = false → live → bounds →
        r = if backed s o.tier (o.addr + disp.toNat) && extLive s o.tier job then .ok { key := jobKey job o.tier (o.addr + disp.toNat) }
          else .error .memfault))

/-- The checks of a scratchpad access in a lane (R115, R116): ALIGN, and then MEMFAULT past the scratchpad. -/
def scratchChecks : Prop :=
  ∀ s w (z : Nat) off l, let a := opA1 s w l + BitVec.ofInt 32 ((opB1 s w l).toInt * z + off * z)
    (scratchTarget s w z off l).1 = a.setWidth 64 ∧ (scratchTarget s w z off l).2 =
      if a.toNat % z ≠ 0 then .error .align else if a.toNat + z ≤ (myCord s).hdr.scratch then .ok { key := a.toNat } else .error .memfault

/-- Lanes that fault (R116, R360): outside handler mode each is parked where it faulted, with its trap, numbered in their order; they leave
the clause, and the strand's registers, its queue and every other lane stand. -/
def lanesFault : Prop :=
  ∀ s pc place fs, (me s).handler = none → (fs.map (·.1)).Nodup → ∃ t, faultLanes s pc place fs = t ∧
    t = { s with strands := t.strands, ops := s.ops + fs.length } ∧ (∀ k, k ≠ focusStrand s → getStrand t k = getStrand s k) ∧
    me t = { me s with threads := (me t).threads, clause := (me t).clause, split := (me t).split } ∧
    (∀ i x, fs[i]? = some x → (me t).threads.get x.1 =
      { (me s).threads.get x.1 with st := .parked (.fault x.2.1 x.2.2.1 x.2.2.2 (s.ops + i)), pc := pc, place := place }) ∧
    (∀ l, l ∉ fs.map (·.1) → (me t).threads.get l = (me s).threads.get l) ∧
    ∀ c, (me s).clause = some c → ∃ d, (me t).clause = some d ∧ d.hdr = c.hdr ∧ d.nm1 = c.nm1 ∧ d.word = c.word ∧
      ∀ l, inMask d.act l = (inMask c.act l && !(fs.map (·.1)).contains l)

/-- LD, LDS, LDC, LDAQ and LDL (R114 to R116, R118 to R122, R201, R252, R361): an aligned access in range loads little-endian bytes, the
strand's own queued stores first, and its value, extended, is outstanding; LDL also tells an all-ones label; LDAQ is an acquire where some
lane is enabled. An access that fails a check of R116 faults in its lane, and one whose data carries an uncorrectable error will fault
POISON when its result is written; the other lanes complete. That the bytes are read at issue (log entry 20), and which older values LDC may
still read (log entry 17), are the model's choices. -/
def Obligations.LoadsComplete : Prop :=
  let mem (v : SWord → SWord) (w : SWord) (u : State) : Lane → DWord × Except TrapCode Place :=
    memTarget u (v w) (v w).size (signedOf 8 (w.bits 8 8)) .rd
  let pad (v : SWord → SWord) (w : SWord) (u : State) : Lane → DWord × Except TrapCode Place :=
    scratchTarget u (v w) (v w).size (signedOf 8 (w.bits 8 8))
  let own (u : State) (scratch : Bool) (rd : Nat → Byte) (k n : Nat) : List Byte :=
    (List.range n).map (fun i => (queueRd (me u).stores scratch (k + i)).getD (rd (k + i)))
  let view (z : SWord → Nat) (w : SWord) (u : State) (a : Acc) : List Byte :=
    own u false (fun k => coreRd u u.focus.core k a.place.nc) a.place.key (z w)
  let scratch (z : SWord → Nat) (w : SWord) (u : State) (a : Acc) : List Byte := own u true (memRd (myCord u).scratch) a.place.key (z w)
  let none : SWord → LaneMask → (Lane → Nat) → List PendWrite := fun _ _ _ => []
  let void (w : SWord) (m : LaneMask) (val : Lane → Nat) : List PendWrite := predWrites w.c.toNat m (fun l => val l == 2 ^ 64 - 1)
  let flawed (scratch : Bool) (sc : SWord → Scope) (z : SWord → Nat) (w : SWord) (u : State) (a : Acc) : Bool :=
    badData scratch (sc w) u a.place (z w)
  let load (mk : SWord → Instr) (cond : SWord → Bool) (bad : SWord → State → Acc → Bool) (v : SWord → SWord)
      (t : SWord → State → Lane → DWord × Except TrapCode Place) (rd : SWord → State → Acc → List Byte)
      (extra : SWord → LaneMask → (Lane → Nat) → List PendWrite) (post : SWord → State → State → State) : Prop :=
    loads mk cond bad v t rd extra post ∧ loadsSplit mk cond bad v t rd extra post
  load .ld (fun _ => true) (flawed false (fun _ => 2) SWord.size) id (mem id) (view SWord.size) none (fun _ _ t => t) ∧
  load .lds (fun _ => true) (flawed true (fun _ => 2) SWord.size) id (pad id) (scratch SWord.size) none (fun _ _ t => t) ∧
  load .ldc (fun _ => true) (fun w => badConst w.size) id (mem id) (fun w u a => ldcRead w.size u a) none (fun _ _ t => t) ∧
  load .ldaq (fun _ => true) (flawed false (fun w => w.bits 5 3) SWord.size) id (mem id)
    (fun w u a => own u false (fun k => scopeRd u u.focus.core (w.bits 5 3) k a.place.nc) a.place.key w.size) none
    (fun w u t => if enabled u w = 0 then t else refresh t u.focus.core (w.bits 5 3)) ∧
  load .ldl (fun w => w.bits 0 1 == 0) (flawed false (fun _ => 2) (fun _ => 8)) labelWord (mem labelWord) (view (fun _ => 8)) void (fun _ _ t => t) ∧
  load .ldl (fun w => w.bits 0 1 == 1) (flawed true (fun _ => 2) (fun _ => 8)) labelWord (pad labelWord) (scratch (fun _ => 8)) void (fun _ _ t => t) ∧
  (∀ w u a, (∀ h ∈ u.consts, h.cord ≠ focusCord u) → ldcRead (SWord.size w) u a = view SWord.size w u a ∧
    badConst (SWord.size w) u a = flawed false (fun _ => 2) SWord.size w u a) ∧
  addressChecks .rd ∧ scratchChecks ∧ lanesFault

/-- ST, STS, STRL, STNT and STLB (R115 to R120, R122, R252): the stores of the lanes whose access passes are in the strand's queue, lowest
lane first; an access that fails a check of R116, a store to a read-only page among them, faults in its lane. -/
def Obligations.StoresComplete : Prop :=
  let mem (v : SWord → SWord) (w : SWord) (u : State) : Lane → DWord × Except TrapCode Place :=
    memTarget u (v w) (v w).size (signedOf 8 (w.bits 8 8)) .wr
  let pad (v : SWord → SWord) (w : SWord) (u : State) : Lane → DWord × Except TrapCode Place :=
    scratchTarget u (v w) (v w).size (signedOf 8 (w.bits 8 8))
  let store (mk : SWord → Instr) (cond : SWord → Bool) (scratch : Bool) (rel : SWord → Scope) (v : SWord → SWord)
      (t : SWord → State → Lane → DWord × Except TrapCode Place) : Prop :=
    storesAt mk cond scratch rel v t ∧ storesSplit mk cond scratch rel v t
  store .st (fun _ => true) false (fun _ => 0) id (mem id) ∧
  store .sts (fun _ => true) true (fun _ => 0) id (pad id) ∧
  store .strl (fun _ => true) false (fun w => w.bits 5 3) id (mem id) ∧
  store .stnt (fun _ => true) false (fun _ => 0) id (mem id) ∧
  store .stlb (fun w => w.bits 0 1 == 0) false (fun _ => 0) labelWord (mem labelWord) ∧
  store .stlb (fun w => w.bits 0 1 == 1) true (fun _ => 0) labelWord (pad labelWord) ∧
  addressChecks .wr ∧ lanesFault

/-- The frame of the stores (R118 to R120, R122, R204, R252): a store that completes leaves every byte of memory and of every scratchpad,
the strand's registers and predicates, what it has outstanding, its cord (flags and special registers with it) and every other strand as
they were; and of the bytes that the strand itself has queued, only those of its own accesses change. Only the core's kept translations and,
on a page that bypasses the caches, its view move. -/
def Obligations.StoreFrame : Prop :=
  let mem (v : SWord → SWord) (w : SWord) (u : State) : Lane → DWord × Except TrapCode Place :=
    memTarget u (v w) (v w).size (signedOf 8 (w.bits 8 8)) .wr
  let pad (v : SWord → SWord) (w : SWord) (u : State) : Lane → DWord × Except TrapCode Place :=
    scratchTarget u (v w) (v w).size (signedOf 8 (w.bits 8 8))
  let frame (mk : SWord → Instr) (cond : SWord → Bool) (scratch : Bool) (v : SWord → SWord)
      (t : SWord → State → Lane → DWord × Except TrapCode Place) : Prop :=
    ∀ w s, issues (mk w) s = true → cond w = true →
      let u := issued (mk w) s
      placed (onceDAB w) (t w u) w u →
      ∃ r, exec (mk w) s = .next (goneOn w.sw r) ∧ (∀ key, memRd (goneOn w.sw r).mem key = memRd s.mem key) ∧
        (∀ k, getCord r k = getCord s k) ∧ regsKept (me s) (me r) ∧ (me r).pend = (me s).pend ∧
        (quiet w s = true → regsKept (me s) (me (goneOn w.sw r))) ∧ (∀ k, k ≠ focusStrand s → getStrand r k = getStrand s k) ∧
        r = { s with strands := r.strands, cords := r.cords, cores := r.cores, dieLag := r.dieLag } ∧
        (∀ k, getCore r k = { getCore s k with view := (getCore r k).view, tlb := (getCore r k).tlb }) ∧
        ∀ pad key, (∀ a ∈ accesses (onceDAB w) (t w u) w u, pad = scratch → key < a.place.key ∨ a.place.key + (v w).size ≤ key) →
          queueRd (me r).stores pad key = queueRd (me s).stores pad key
  frame .st (fun _ => true) false id (mem id) ∧
  frame .sts (fun _ => true) true id (pad id) ∧
  frame .strl (fun _ => true) false id (mem id) ∧
  frame .stnt (fun _ => true) false id (mem id) ∧
  frame .stlb (fun w => w.bits 0 1 == 0) false labelWord (mem labelWord) ∧
  frame .stlb (fun w => w.bits 0 1 == 1) true labelWord (pad labelWord)

/-- ATOM, CAS, FXADD and ATOMS (R116, R123 to R126, R199): the op's new value, the conditional swap with its predicate, and the 64-bit
fixed-point sum with the flags of its conversion. The page must let an update write and, but for FXADD, read. A lane whose access fails a
check faults at the word, POISON last, and changes no memory; the others are served. That an error in the old data is found at issue is the
model's choice (log entry 20). -/
def Obligations.AtomicsComplete : Prop :=
  let new (op : SWord → Nat) (w : SWord) (u : State) (old : List Byte) (l : Lane) : Option (List Byte) :=
    some (leBytes w.size (atomNew (op w) (8 * w.size) w.ty.signed (leNat old) (groupNat u 3 w.c w.ty.regs l)))
  let swap (w : SWord) (u : State) (old : List Byte) (l : Lane) : Option (List Byte) :=
    let g := groupNat u 3 w.c (2 * w.ty.regs) l
    if leNat old = g % 2 ^ (8 * w.size) then some (leBytes w.size (g / 2 ^ (8 * w.size))) else none
  let term (w : SWord) (u : State) (l : Lane) := fxaddTerm w (groupNat u 3 w.c w.ty.regs l)
  let rel (w : SWord) : Bool := w.bits 13 1 == 1
  let acq (w : SWord) : Bool := w.bits 12 1 == 1
  idle .atom ∧ idle .cas ∧ idle .fxadd ∧ idle .atoms ∧
  let update (mk : SWord → Instr) (scratch reads : Bool) (z : SWord → Nat) (rel acq : SWord → Bool)
      (upd : SWord → State → List Byte → Lane → Option (List Byte)) (extra : SWord → State → LaneMask → (Lane → Nat) → List PendWrite)
      (flags : SWord → State → LaneMask → Flags) : Prop :=
    updates mk scratch reads z rel acq upd extra flags ∧ updatesSplit mk scratch reads z rel acq upd extra flags
  update .atom false true SWord.size rel acq (new (fun w => w.bits 8 4)) (fun _ _ _ _ => []) (fun _ _ _ => 0) ∧
  update .cas false true SWord.size rel acq swap (fun w u m val => predWrites (w.bits 8 3) m
    (fun l => val l == groupNat u 3 w.c (2 * w.ty.regs) l % 2 ^ (8 * w.size))) (fun _ _ _ => 0) ∧
  update .fxadd false false (fun _ => 8) (fun _ => false) (fun _ => false)
    (fun w u old l => some (leBytes 8 (natOf 64 (leNat old + (term w u l).1)))) (fun _ _ _ _ => []) (fun w u m => flagsOf m (fun l => (term w u l).2)) ∧
  update .atoms true true SWord.size rel acq (fun w => if w.bits 8 4 = 9 then swap w else new (fun w => w.bits 8 4) w) (fun _ _ _ _ => [])
    (fun _ _ _ => 0)

/-- FENCE and PREF (R121, R127, R128, R207): a full or release fence performs the strand's stores and its core's writes at the scope, and a
full or acquire one moves the core's view there; the constant cache of the cord drops the older values whose later writers the scope covers,
and those that the strand itself has overwritten, and a store of the strand that is still queued is marked, so that what it overwrites is
dropped when it commits (the older values that the cache may hold are the model's choice, log entry 17); PREF changes nothing. -/
def Obligations.FencesComplete : Prop :=
  idle .fence ∧
  doesIf .fence (fun w u => enabled u w != 0) (fun w u =>
    let sc := w.bits 0 3
    let a := if w.bits 3 2 = 1 ∨ sc = 0 then u else flush (drain u (focusStrand u)) u.focus.core sc
    let b := if w.bits 3 2 = 2 then a else refresh a a.focus.core sc
    let c := if (me b).stores = [] then b else setMe b { me b with stores := (me b).stores.map (fun q => { q with fenced := true }) }
    { c with consts := c.consts.filter (fun h =>
      !(h.cord == focusStrand u / 32 && (decide (h.need ≤ sc) || h.own.getLsbD (focusStrand u % 32)))) }) ∧
  does .pref (fun _ u => u)

/-! ### Special registers, hitches, barriers, mailboxes and the extended block -/

/-- SRD, SWR and SFLG (R35, R56 to R58, R110, R111, R192): SRD writes the register's value; SWR traps ILLOP on a set reserved bit and else
replaces the flags, the armed flags, the hitch mask, a narrow format or the low word of TBASE; SFLG arms, disarms or clears a mask. STICKY
latches where SFLAGS or SARM goes from 0 to 1 at a flag that the other has set; that arming a flag which is armed already latches nothing is
the model's choice (log 53). -/
def Obligations.SpecialRegistersComplete : Prop :=
  let value (w : SWord) (l : Lane) (u : State) : Word := opA1 u w l
  let ix (w : SWord) : Nat := w.bits 0 8
  let at' (i : Nat) (w : SWord) (l : Lane) (u : State) : Bool := ix w == i && !swrBad i (value w l u)
  let cord (f : Word → Cord → Cord) (w : SWord) (l : Lane) (u : State) : State := setMyCord u (f (value w l u) (myCord u))
  writes .srd (fun w => w.ty.regs) (fun w u l => (specialValue u (ix w) (w.bits 8 2) l, 0)) ∧
  idle .swr ∧ idle .sflg ∧
  trapsOnce .swr (fun w l u => swrBad (ix w) (value w l u)) .illop ∧
  doesOnce .swr (at' 0x08) (cord (fun v c => { c with sflags := v, sticky := c.sticky ||| (v &&& ~~~c.sflags &&& c.sarm) })) ∧
  doesOnce .swr (at' 0x09) (cord (fun v c => { c with sarm := v, sticky := c.sticky ||| (v &&& ~~~c.sarm &&& c.sflags) })) ∧
  doesOnce .swr (at' 0x0B) (fun w l u => setMe u (Strand.wake { me u with evmask := (value w l u).setWidth 16 })) ∧
  doesOnce .swr (fun w l u => decide (0x40 ≤ ix w ∧ ix w ≤ 0x4F) && !swrBad (ix w) (value w l u))
    (fun w l u => setMyCord u { myCord u with nf := aSet (myCord u).nf (ix w - 0x40) (value w l u) }) ∧
  doesOnce .swr (at' 0x50) (fun w l u =>
    let j := aGet {} u.jobs (myCord u).job
    { u with jobs := aSet u.jobs (myCord u).job { j with tbase := j.tbase / 2 ^ 32 * 2 ^ 32 + (value w l u).toNat } }) ∧
  doesOnce .sflg always (fun w _ u =>
    let m : Word := BitVec.ofNat 32 (w.bits 0 7)
    let c := myCord u
    setMyCord u (match w.bits 8 2 with
      | 0 => { c with sarm := c.sarm ||| m, sticky := c.sticky ||| ((c.sarm ||| m) &&& ~~~c.sarm &&& c.sflags) }
      | 1 => { c with sarm := c.sarm &&& ~~~m }
      | _ => { c with sflags := c.sflags &&& ~~~m }))

/-- The values of the special registers (R111): ACT, the numbers of the strand, slot, core and die, the device's id, the cycle count and its
high word, SFLAGS, SARM, PEV, EVMASK, whether the extended block is held, the lane's meeting address, the job, the present cores, the
version, the sizes of the scratchpad and the silt, the token, the low words of the trap's items (R364), TBASE, and the narrow formats. -/
def Obligations.SpecialValues : Prop :=
  ∀ s k l, let t := me s
    let c := myCord s
    specialValue s 0x00 k l = (act s).setWidth 64 ∧ specialValue s 0x01 k l = BitVec.ofNat 64 s.focus.strand ∧
    specialValue s 0x02 k l = BitVec.ofNat 64 s.focus.slot ∧ specialValue s 0x03 k l = BitVec.ofNat 64 s.focus.core ∧
    specialValue s 0x04 k l = BitVec.ofNat 64 (s.focus.core / 32) ∧ specialValue s 0x05 k l = Config.devId.setWidth 64 ∧
    specialValue s 0x06 k l = BitVec.ofNat 64 (myCore s).cycles ∧
    specialValue s 0x07 k l = BitVec.ofNat 64 ((myCore s).cycles / 2 ^ 32 % 2 ^ 32) ∧
    specialValue s 0x08 k l = c.sflags.setWidth 64 ∧ specialValue s 0x09 k l = c.sarm.setWidth 64 ∧
    specialValue s 0x0A k l = t.pev.setWidth 64 ∧ specialValue s 0x0B k l = t.evmask.setWidth 64 ∧
    specialValue s 0x0C k l = BitVec.ofNat 64 t.ext.toNat ∧ specialValue s 0x0D k l = (t.threads.get l).mr.setWidth 64 ∧
    specialValue s 0x0E k l = BitVec.ofNat 64 c.job ∧ specialValue s 0x0F k l = (s.present.extractLsb' (32 * k) 32).setWidth 64 ∧
    specialValue s 0x10 k l = 1 ∧ specialValue s 0x11 k l = BitVec.ofNat 64 c.hdr.scratch ∧
    specialValue s 0x12 k l = BitVec.ofNat 64 c.hdr.silt ∧
    specialValue s 0x13 k l = (if c.hdr.flags.getLsbD 1 then BitVec.ofNat 64 (c.token.toNat + 2 * c.partner.isSome.toNat) else 0) ∧
    specialValue s 0x50 k l = BitVec.ofNat 64 (aGet {} s.jobs c.job).tbase ∧
    (∀ i, i < 16 → specialValue s (0x40 + i) k l = (aGet 0 c.nf i).setWidth 64) ∧
    (∀ i, i < 16 → specialValue s (0x20 + i) k l = (loW (myTrapItem s i)).setWidth 64) ∧
    (∀ h, t.handler = some h → let x := h.trap
      myTrapItem s 0 = BitVec.ofNat 64 (x.code.num + 2 ^ 8 * x.cls.num + 2 ^ 10 * (trapPending t x.park).toNat + 2 ^ 11 * x.reentry.toNat) ∧
      myTrapItem s 1 = x.pc ∧ myTrapItem s 2 = x.addr ∧ myTrapItem s 3 = x.aux ∧ myTrapItem s 4 = x.park.setWidth 64 ∧
      myTrapItem s 5 = x.set.setWidth 64 ∧ myTrapItem s 6 = x.held ∧ myTrapItem s 7 = 0 ∧
      ∀ i, i < 8 → myTrapItem s (8 + i) = pairOf ((x.members[2 * i]?).getD 0) ((x.members[2 * i + 1]?).getD 0))

/-- WANY, EVB, EVM, EVP and EVC (R303, R305, R307, R308, R310, R311): WANY gives 16 where no hitch of its mask is bound, takes the lowest
one that is valid, unmasked and pending, and else parks its threads; EVB binds a hitch, whose PEV bit starts at its condition; EVM masks
or unmasks, EVP reads and clears PEV, EVC unbinds. That EVB's handler address is a sum modulo 2^56, as a branch target is, is the model's
choice (log 51). -/
def Obligations.HitchesComplete : Prop :=
  let t (u : State) : Strand := me u
  let free (w : SWord) (u : State) : Bool := w.imm &&& (t u).validMask == 0
  let due (w : SWord) (u : State) : Option Nat := (bits16 (w.imm &&& ((t u).validMask &&& ~~~(t u).evmask &&& (t u).pev))).head?
  let kind (n : Nat) : HitchKind := if n = 0 then .barrier else if n = 1 then .token else .mailbox
  idle .wany ∧ idle .evb ∧ idle .evm ∧ idle .evp ∧ idle .evc ∧
  doesOnce .wany (fun w _ u => free w u) (fun w _ u => setMe u (putScalar (t u) w.d 16)) ∧
  doesOnce .wany (fun w _ u => !free w u && (due w u).isSome) (fun w _ u =>
    leaveClause (setMe u (dispatchTo (t u) ((due w u).getD 0) (enabled u w) w.d)) (enabled u w)) ∧
  doesOnce .wany (fun w _ u => !free w u && (due w u).isNone) (fun w _ u =>
    parkClause (setMe u { (t u).modThreads (enabled u w) (fun _ x => { x with
      st := .parked (.wany w.imm w.d (t u).parkSeq), pc := (curClause u).hdr, place := some (curClause u).word }) with
      parkSeq := (t u).parkSeq + 1 }) (enabled u w)) ∧
  doesOnce .evb always (fun w _ u =>
    let i := w.d.toNat
    let obj := w.b.toNat
    let k := kind w.a.toNat
    let h : Hitch := { kind := k, obj := obj, ph := w.a == 0 && (getBar (myCord u) obj).ph,
                       handler := wordAddr u + BitVec.ofInt 56 (8 * w.imm.toInt) }
    let on : Bool := match k with
      | .barrier => false
      | .token => !(t u).tokens.contains obj
      | .mailbox => mailFull (t u) obj
    setMe u (Strand.setPev { t u with hitches := aSet (t u).hitches i h } i on).wake) ∧
  doesOnce .evm (fun w _ _ => w.c == 0) (fun w _ u => setMe u { t u with evmask := (t u).evmask ||| w.imm }) ∧
  doesOnce .evm (fun w _ _ => w.c != 0) (fun w _ u => setMe u (Strand.wake { t u with evmask := (t u).evmask &&& ~~~w.imm })) ∧
  doesOnce .evp always (fun w _ u =>
    let a := setMe u (putReg (me u) w.d 1 (enabled u w) (fun _ => (t u).pev.setWidth 64))
    setMe a ((bits16 w.imm).foldl Strand.clearPev (me a))) ∧
  doesOnce .evc always (fun w _ u =>
    setMe u ((bits16 w.imm).foldl (fun x i => Strand.setPev { x with hitches := aDel x.hitches i } i false) (t u)))

/-- BAR, BARA, BARW and BARX (R58, R186, R188 to R190): an arrival counts once in a phase and is a release at .cd; BAR waits until the
phase flips, unless its own arrival flips it; BARW waits while the phase is its operand's bit 0; a strand that a flip has released goes
on; BARX sets EXP, 0 for the strand count, and tests the phase. -/
def Obligations.BarriersComplete : Prop :=
  let k (w : SWord) : Nat := w.bits 0 4
  let ph (w : SWord) (u : State) : Bool := (getBar (myCord u) (k w)).ph
  let arrive (w : SWord) (passes : Bool) (u : State) : State := arriveStrand (release u 1) (focusCord u) (k w) u.focus.strand passes
  let fresh (u : State) : Bool := match myStall u with
    | some .released => false
    | some (.bar ..) => false
    | _ => true
  let after (w : SWord) (u : State) : State := arrive w true u
  idle .bara ∧ idle .barx ∧
  doesIf .bar (fun _ u => myStall u == some .released) (fun _ u => u) ∧
  doesIf .barw (fun _ u => myStall u == some .released) (fun _ u => u) ∧
  doesIf .bar (fun w u => fresh u && enabled u w == 0) (fun _ u => u) ∧
  doesIf .barw (fun w u => myStall u != some .released && enabled u w == 0) (fun _ u => u) ∧
  doesOnce .bar (fun w _ u => fresh u && (ph w (after w u) != ph w u) && !(me (after w u)).stickyHeld) (fun w _ u => after w u) ∧
  waitsOnce .bar (fun w _ u => fresh u && (ph w (after w u) != ph w u) && (me (after w u)).stickyHeld)
    (fun _ _ _ => .released) (fun w _ u => after w u) ∧
  waitsOnce .bar (fun w _ u => fresh u && (ph w (after w u) == ph w u)) (fun w _ u => .bar (k w) (ph w u)) (fun w _ u => after w u) ∧
  doesOnce .bara always (fun w _ u => arrive w false (setMe u (putReg (me u) w.d 1 (enabled u w) (fun _ => BitVec.ofNat 64 (ph w u).toNat)))) ∧
  waitsOnce .barw (fun w l u => myStall u != some .released && ph w u == (opA1 u w l).getLsbD 0) (fun w _ _ => .barw (k w)) (fun _ _ u => u) ∧
  doesOnce .barw (fun w l u => myStall u != some .released && ph w u != (opA1 u w l).getLsbD 0) (fun _ _ u => u) ∧
  doesOnce .barx always (fun w l u =>
    let v := (opA1 u w l).toNat % 2 ^ 16
    let c := myCord u
    let a := setMyCord u { c with bars := aSet c.bars (k w) { getBar c (k w) with exp := if v = 0 then c.nstr else v } }
    checkPhase a (focusCord a) (k w) none)

/-- MPOST, MTAKE and MCNT (R304, R312 to R316): a post fills the lowest empty slot of the strand that B names in this cord and clears the
predicate, or sets it where that strand does not exist, has ended or has no empty slot; a message of the device that is held is posted
before it; a take empties the named slot, or the oldest one for 15, and posts a held message of the device; MCNT reports the slots. -/
def Obligations.MailComplete : Prop :=
  let dest (w : SWord) (l : Lane) (u : State) : Nat := focusCord (release u 2) * 32 + (opB1 (release u 2) w l).toNat
  let absent (w : SWord) (l : Lane) (u : State) : Bool :=
    decide ((myCord (release u 2)).nstr ≤ (opB1 (release u 2) w l).toNat) || (getStrand (release u 2) (dest w l u)).ended
  let posted (w : SWord) (l : Lane) (u : State) : State :=
    let a := release u 2
    if (getStrand a (dest w l u)).heldMsg.isSome then modWake a (dest w l u) (fun t => t.postHeld.syncMail) else a
  let no (w : SWord) (l : Lane) (u : State) : Bool := (emptySlot (getStrand (posted w l u) (dest w l u))).isNone
  let pred (i : Nat) (w : SWord) (b : Bool) (u : State) : State := setMe u (putP (me u) i (enabled u w) (fun _ => b))
  let dst (w : SWord) (n : Nat) (v : DWord) (u : State) : State := setMe u (putReg (me u) w.d n (enabled u w) (fun _ => v))
  let pick (w : SWord) (u : State) : Option (Nat × Mail) :=
    if w.bits 0 4 = 15 then oldestMail (me u).mail else (aGet? (me u).mail (w.bits 0 4)).map (fun m => (w.bits 0 4, m))
  idle .mpost ∧ idle .mtake ∧ idle .mcnt ∧
  doesOnce .mpost absent (fun w _ u => pred w.d.toNat w true (release u 2)) ∧
  doesOnce .mpost (fun w l u => !absent w l u && no w l u) (fun w l u => pred w.d.toNat w true (posted w l u)) ∧
  doesOnce .mpost (fun w l u => !absent w l u && !no w l u) (fun w l u =>
    let a := posted w l u
    pred w.d.toNat w false (modWake a (dest w l u) (fun t => (fillSlot t ((emptySlot (getStrand a (dest w l u))).getD 0) (opA2 a w l)).syncMail))) ∧
  doesOnce .mtake (fun w _ u => (pick w u).isNone) (fun w _ u => pred w.c.toNat w true (dst w 2 0 u)) ∧
  doesOnce .mtake (fun w _ u => (pick w u).isSome) (fun w _ u =>
    let x := (pick w u).getD (0, { msg := 0, stamp := 0 })
    pred w.c.toNat w false (dst w 2 x.2.msg (setMe u (emptyMail (me u) x.1).syncMail.wake))) ∧
  doesOnce .mcnt always (fun w _ u => dst w 1 (BitVec.ofNat 64
    ((List.range 8).foldl (fun a i => if (aGet? (me u).mail i).isSome then a + 2 ^ i else a) 0 + 2 ^ 8 * (me u).mail.length +
      2 ^ 12 * (me u).heldMsg.isSome.toNat)) u)

/-- XACQ, XREL and SLEEP (R162, R193, R194, R317): a kernel without the flag traps ILLOP; a strand that holds the block, or whose quadrant
has 128 registers free when its turn comes, has it, with its registers reading 0; else the try form answers no and the waiting form queues;
XREL gives it up when every result is written; SLEEP parks its threads for B cycles, at the next word, unless a hitch is due. -/
def Obligations.BlocksComplete : Prop :=
  let may (u : State) : Bool := (myCord u).hdr.flags.getLsbD 0
  let isTry (w : SWord) : Bool := w.bits 0 1 == 1
  let answer (w : SWord) (b : Bool) (u : State) : State := if isTry w then setMe u (putP (me u) w.d.toNat (enabled u w) (fun _ => b)) else u
  let turn (u : State) : Bool :=
    let q := xacqQueue u u.focus.core (focusStrand u % 4)
    decide (128 ≤ freeRegs u u.focus.core (focusStrand u % 4)) && (q.head? == none || q.head? == some (focusStrand u))
  let held (u : State) : Bool := (me u).ext
  trapsIf .xacq (fun _ u => !may u) .illop (fun _ => 0) ∧
  doesIf .xacq (fun w u => may u && enabled u w == 0) (fun _ u => u) ∧
  doesOnce .xacq (fun _ _ u => may u && held u) (fun w _ u => answer w true u) ∧
  doesOnce .xacq (fun _ _ u => may u && !held u && turn u) (fun w _ u =>
    let a := setMe u { me u with ext := true, v := (me u).v.filter (fun e => decide (e.1 < 64)) }
    answer w true (setMyCore a { myCore u with xacq := (myCore u).xacq.filter (· != focusStrand u) })) ∧
  doesOnce .xacq (fun w _ u => may u && !held u && !turn u && isTry w) (fun w _ u => answer w false u) ∧
  waitsOnce .xacq (fun w _ u => may u && !held u && !turn u && !isTry w) (fun _ _ _ => .xacq) (fun _ _ u =>
    if (myCore u).xacq.contains (focusStrand u) && waitsXacq (me u) then u
    else setMyCore u { myCore u with xacq := (myCore u).xacq.filter (· != focusStrand u) ++ [focusStrand u] }) ∧
  idle .xrel ∧ doesOnce .xrel always (fun _ _ u => setMe (settleAll u) { me (settleAll u) with ext := false }) ∧
  idle .sleep ∧
  doesOnce .sleep (fun w l u => opB1 u w l == 0 || (me u).due != 0) (fun _ _ u => u) ∧
  doesOnce .sleep (fun w l u => opB1 u w l != 0 && (me u).due == 0) (fun w l u =>
    parkClause (setMe u ((me u).modThreads (enabled u w) (fun _ x => { x with
      st := .parked (.sleep (opB1 u w l).toNat), pc := (nextPosition u).1, place := (nextPosition u).2 }))) (enabled u w))

/-! ### Objects -/

/-- What a word leaves whose lanes are served one after another (R117, R220, R226): the values of the lanes that do not fault in D, their
predicates, and the other lanes' faults at the word. A word without a vector operand is served once, for every enabled lane. -/
def servedWord (one : Bool) (ls : List Lane) (regs : Nat) (pred : Option Nat) (f : State → Lane → LaneRes) (w : SWord) (u : State) : State :=
  let r := serveLanes f ls u
  let m := maskFor one (enabled u w) (r.1.map (·.1))
  let val : Lane → DWord × Bool := byLane one (0, false) r.1
  let a := if regs = 0 then me r.2.2 else putReg (me r.2.2) w.d regs m (fun l => (val l).1)
  let b := match pred with
    | some p => putP a p m (fun l => (val l).2)
    | none => a
  faultLanes (setMe r.2.2 b) (curClause u).hdr (some (curClause u).word)
    (r.2.1.flatMap (fun x => if one then (lanesOf (enabled u w)).map (fun l => (l, x.2)) else [x]))

/-- The object words (R220, R226, R228 to R231, R234, R235): OUPG, OREL, OWK and OWD change a count of each lane's object by one, in an
order that the device does not fix; OREL is a release first, a successful OUPG and ONEW an acquire; ONEW allocates lane by lane; OPRI sets
a priority or changes the special bits; BTLD looks a page up; BTINV drops a range of every core's block-table cache, and its token waits
for the pins that copies hold on it. That the lanes are served in an order of their own is left open by the spec (log entry 11); that BTINV
waits at the word while its token register is busy is the model's choice (log entry 52), and so are the corners of AGE (log entry 19). -/
def Obligations.ObjectsComplete : Prop :=
  let job (u : State) : Nat := (myCord u).job
  let lane (w : SWord) (u : State) (one : Bool) : List Lane := accessLanes one w u
  let some' (w : SWord) (u : State) (one : Bool) : List Lane := serveOrder u.free 32 (lane w u one)
  let oneDA (w : SWord) : Bool := !isVector w.d && !isVector w.a
  let oneA (w : SWord) : Bool := !isVector w.a
  let pri (w : SWord) (u s : State) (l : Lane) : LaneRes := match checkHandle s (job s) (opA2 u w l) .either with
    | .null => .done 0 false s
    | .gone => .done 0 false s
    | .fault c => .fault c (opA2 u w l) 0 s
    | .alive i o => .done 0 false (setObj s (job s) i (match w.c.toNat with
      | 0 => { o with pri := min (opB1 u w l).toNat 15 }
      | 1 => { o with spec := o.spec ||| (opB2 u w l).toNat }
      | _ => { o with spec := (BitVec.ofNat 64 o.spec &&& ~~~opB2 u w l).toNat }))
  does .oupg (fun w u =>
    let t := servedWord (oneDA w) (some' w u (oneDA w)) 2 (some w.c.toNat) (oupgLane w u) w u
    if t.allocSeq = u.allocSeq then t else refresh t t.focus.core 4) ∧
  does .orel (fun w u =>
    let a := if enabled u w = 0 then u else release u 4
    servedWord (oneA w) (serveOrder u.free 32 (lane w a (oneA w))) 0 none (countLane .strong true false false w u) w a) ∧
  does .owk (fun w u => servedWord (oneDA w) (some' w u (oneDA w)) 2 none (countLane .strong false true false w u) w u) ∧
  does .owd (fun w u => servedWord (oneA w) (some' w u (oneA w)) 0 none (countLane .weak false false true w u) w u) ∧
  does .onew (fun w u =>
    let t := servedWord (!isVector w.d) (lane w u (!isVector w.d)) 2 (some w.c.toNat) (onewLane w) w u
    if enabled u w = 0 then t else refresh t t.focus.core 4) ∧
  does .opri (fun w u => servedWord (!isVector w.a && !isVector w.b) (some' w u (!isVector w.a && !isVector w.b)) 0 none (pri w u) w u) ∧
  does .btld (fun w u => servedWord (!isVector w.d && !isVector w.b) (lane w u (!isVector w.d && !isVector w.b)) 2 (some (w.bits 0 3))
    (btldLane w u) w u) ∧
  idle .btinv ∧
  waitsOnce .btinv (fun w _ u => tokenBusy u w) (fun _ _ _ => .issue) (fun _ _ u => u) ∧
  doesOnce .btinv (fun w _ u => !tokenBusy u w) (fun w l u =>
    let a := startToken (release u 4) w
    let first := (opB1 a w l).toNat
    let count := (opC1 a w l).toNat
    { btDrop a (job a) (opA2 a w l) first count with btinvs := a.btinvs ++
      [{ cord := focusCord a, strand := a.focus.strand, token := tokenOf w.d, ops := pinOps a (job a) (opA2 a w l) first count }] })

/-- LDW and OAPP (R227, R230, R232, R233): a lane of LDW whose object is null or gone has 0 and the predicate set; a live one has its bytes
and the predicate clear, outstanding, and the object keeps its memory until then. OAPP serves the entries of its list in order: an entry of
16 bytes at base + 16n that is well formed and whose slots, the eight bytes at TABLE + 8 (SLOT + i), are accessible and 0, has NP class-10
objects made and their handles written to its slots, each in one update at the device point; where the table or the tier cannot hold them,
PRESSURE is posted and the list ends; D receives how many it has served. A malformed entry, or a slot that cannot be accessed or holds a
value, faults MEMFAULT in every enabled lane with that count in AUX; an entry or a slot that carries an uncorrectable error faults POISON. A
lane of LDW that cannot be served faults on its own, and one whose data carries an error splits when the results are written. That LDW's
bytes are read at issue (log 20), what an entry's fault leaves in D, that TABLE may be a handle, and that FREE saturates (log 52) are the
model's choices. -/
def Obligations.ObjectListsComplete : Prop :=
  let read (u : State) (r : Option (Nat × Nat)) (z : Nat) : Nat × Bool := match r with
    | none => (0, true)
    | some (k, _) => (leNat (devRdN u k z), false)
  (∀ w s, issues (.ldw w) s = true →
    let u := issued (.ldw w) s
    let one := onceDAB w
    let z := w.size
    let ls := accessLanes one w u
    let got (l : Lane) : Option (Nat × Nat) := match ldwLane w u l with
      | .ok r => r
      | .error _ => none
    let val (l : Lane) : Nat × Bool := read u (got (servedBy one w u l)) z
    let ws := groupWrites w.d w.dataRegs (enabled u w) (fun l => (val l).1) ++ predWrites w.c.toNat (enabled u w) (fun l => (val l).2)
    let seen := (ls.filterMap got).foldl (fun t r => seeDevice t t.focus.core (r.1 / 16 * 16) 16) u
    (∀ l ∈ ls, ∃ r, ldwLane w u l = .ok r ∧ ∀ k i, r = some (k, i) → poisonHit u k z = false) → ws ≠ [] →
    exec (.ldw w) s = .next (goneOn w.sw (setMe seen { me u with pend := race (me u).pend (fun d => ws.any (fun x => x.dest == d)) ++
      [{ cls := .ld, writes := ws, pc := (curClause u).hdr, word := (curClause u).word, objs := (ls.filterMap got).map (·.2) }] }))) ∧
  (∀ w s, issues (.ldw w) s = true →
    let u := issued (.ldw w) s
    let one := onceDAB w
    let c := curClause u
    let z := w.size
    let ls := accessLanes one w u
    let got (l : Lane) : Option (Nat × Nat) := (ldwLane w u l).toOption.join
    let spoilt (l : Lane) : Bool := (got l).any (fun r => poisonHit u r.1 z)
    let good := ls.filter (fun l => (ldwLane w u l).toOption.isSome && !spoilt l)
    let m := maskFor one (enabled u w) good
    let val (l : Lane) : Nat × Bool := if one then ((good.head?).map (fun l => read u (got l) z)).getD (0, false)
      else if good.contains l then read u (got l) z else (0, false)
    let ws := groupWrites w.d w.dataRegs m (fun l => (val l).1) ++ predWrites w.c.toNat m (fun l => (val l).2)
    let poison := (ls.filter spoilt).flatMap (fun l => (servesOf one w u l).map (fun k => (k, ldwAddr w u l)))
    let faults := ls.flatMap (fun l => match ldwLane w u l with
      | .error (e, a) => (servesOf one w u l).map (fun k => (k, e, a, (0 : DWord)))
      | .ok _ => [])
    let seen := (ls.filterMap got).foldl (fun t r => seeDevice t t.focus.core (r.1 / 16 * 16) 16) u
    let t := if ws = [] ∧ poison = [] then me u else
      { me u with pend := race (me u).pend (fun d => ws.any (fun x => x.dest == d)) ++
        [{ cls := .ld, writes := ws, poison := poison, pc := c.hdr, word := c.word, objs := (ls.filterMap got).map (·.2) }] }
    exec (.ldw w) s = .next (goneOn w.sw (faultLanes (setMe seen t) c.hdr (some c.word) faults))) ∧
  idle .oapp ∧
  (∀ w s l n t, issues (.oapp w) s = true → lowestLane (enabled s w) = some l →
    let u := issued (.oapp w) s
    appFrom (opA2 u w l) (opB1 u w l).toNat 0 (drain u (focusStrand u)) = .served n t →
    exec (.oapp w) s = .next (goneOn w.sw (setMe t (putReg (me t) w.d 1 (enabled t w) (fun _ => BitVec.ofNat 64 n))))) ∧
  (∀ w s l n c a wr t, issues (.oapp w) s = true → lowestLane (enabled s w) = some l →
    let u := issued (.oapp w) s
    appFrom (opA2 u w l) (opB1 u w l).toNat 0 (drain u (focusStrand u)) = .fault c a n wr t →
    let v := if wr then setMe t (putReg (me t) w.d 1 (enabled t w) (fun _ => BitVec.ofNat 64 n)) else t
    exec (.oapp w) s = .next (goneOn w.sw (faultLanes v (curClause u).hdr (some (curClause u).word)
      ((lanesOf (enabled u w)).map (fun l => (l, c, a, if c = .memfault then BitVec.ofNat 64 n else 0)))))) ∧
  (∀ base n s, appFrom base 0 n s = .served n s) ∧
  (∀ base k n s c, placeAt s (some s.focus.core) (myCord s).job base (16 * n) 16 .rd = .error c →
    appFrom base (k + 1) n s = .fault c (base + BitVec.ofNat 64 (16 * n)) n false s) ∧
  (∀ base k n s p, placeAt s (some s.focus.core) (myCord s).job base (16 * n) 16 .rd = .ok p → poisonSeen s s.focus.core p.key 16 p.nc = true →
    appFrom base (k + 1) n s = .fault .poison (base + BitVec.ofNat 64 (16 * n)) n false s) ∧
  (∀ base k n s p, placeAt s (some s.focus.core) (myCord s).job base (16 * n) 16 .rd = .ok p → poisonSeen s s.focus.core p.key 16 p.nc = false →
    let job := (myCord s).job
    let t := match p.tlb with | some x => cacheTlb s s.focus.core x | none => s
    let b := (List.range 16).map (fun i => coreRd t t.focus.core (p.key + i) p.nc)
    let table : DWord := BitVec.ofNat 64 (leNat (b.take 8))
    let slot := leNat ((b.drop 8).take 3)
    let np := (b.getD 11 0).toNat
    let len := leNat ((b.drop 12).take 3)
    let tier := (b.getD 15 0).toNat % 2
    let pri := (b.getD 15 0).toNat / 16
    let good : Prop := 1 ≤ np ∧ np ≤ 16 ∧ slot + np ≤ len ∧ (b.getD 15 0).toNat / 2 % 8 = 0 ∧ table.toNat % 8 = 0
    let at' (need : Need) (i : Nat) : Except TrapCode Place := placeAt t (some t.focus.core) job table (8 * (slot + i)) 8 need
    let zero (q : Place) : Prop := leNat ((List.range 8).map (fun i => scopeRd t t.focus.core 4 (q.key + i) q.nc)) = 0
    let bad := AppEnd.fault .memfault (base + BitVec.ofNat 64 (16 * n)) n true t
    (¬ good → appFrom base (k + 1) n s = bad) ∧
    (good → (∃ i, i < np ∧ ∀ q r, ¬ (at' .rd i = .ok q ∧ at' .wr i = .ok r)) → appFrom base (k + 1) n s = bad) ∧
    ∀ ps : List Place, good → ps.length = np → (∀ i q, ps[i]? = some q → at' .rd i = .ok q ∧ ∃ r, at' .wr i = .ok r) →
      let spoilt (q : Place) : Bool := poisonAt t t.focus.core 4 q.key 8 q.nc
      ((∃ q ∈ ps, spoilt q = true) → appFrom base (k + 1) n s = .fault .poison (base + BitVec.ofNat 64 (16 * n)) n false t) ∧
      ((∀ q ∈ ps, spoilt q = false) → (∃ q ∈ ps, ¬ zero q) → appFrom base (k + 1) n s = bad) ∧
      ((∀ q ∈ ps, spoilt q = false) → (∀ q ∈ ps, zero q) →
        let u := returnAll t job
        let full (x : State) : AppEnd := .served n (postDevice x (focusStrand x) (BitVec.ofNat 64 (2 + 2 ^ 8 * tier + 2 ^ 16 * min n 65535 + 2 ^ 32 * np +
          2 ^ 40 * min (freeFrames x job tier) (2 ^ 24 - 1))))
        let v := if (allocPages u tier pri np).isSome then u else reclaim u job tier
        (freeIndices u job < np → appFrom base (k + 1) n s = full u) ∧
        (np ≤ freeIndices u job → allocPages v tier pri np = none → appFrom base (k + 1) n s = full v) ∧
        ∀ hs x, np ≤ freeIndices u job → allocPages v tier pri np = some (hs, x) → appFrom base (k + 1) n s = appFrom base k (n + 1) (putHandles x ps hs))) ∧
  (∀ s tier pri n, allocPages s tier pri 0 = some ([], s) ∧ allocPages s tier pri (n + 1) = (match allocateNow s (myCord s).job tier 10 pri with
    | none => none
    | some (h, t) => (allocPages t tier pri n).map (fun r => (h :: r.1, r.2)))) ∧
  (∀ s q qs h hs, putHandles s (q :: qs) (h :: hs) =
    putHandles (noteWrite .unit q.key 8 (atomicAt s s.focus.core 4 q 8 (fun _ => some (leBytes 8 h.toNat))).2) qs hs)

/-! ### Copies, calls, the fabric and signals -/

/-- CPY, CPYG, CPYS, CHAN and TAIL (R243, R246 to R250): an issue waits for its token register and for a slot, then is a release at .co that
captures the record and whether it carries an uncorrectable error, and will be accepted; a bad offset completes with COPYBND at once; CHAN
sets a channel's head, or stays outstanding as the head to come while a walk runs, and TAIL starts its walk, whose traps go to the strand
that set the head; a TAIL with no head, or with a head or a tail that is not aligned, is token 2 and the engine trap DESC. That CHAN and
TAIL wait while a head waits (log entry 35), and that the wait for a slot falls at the word (log entry 36), are the model's choices. -/
def Obligations.CopyIssueCompletes : Prop :=
  let bad (w : SWord) (l : Lane) (u : State) : Bool :=
    (opA1 u w l).toNat % 64 != 0 || !scratchIn (myCord (release u 2)) (opA1 u w l).toNat 64
  let free (w : SWord) (u : State) : Bool := !tokenBusy u w && slotFree u (focusCord u)
  let issue (mk : SWord → Instr) (src : SWord → State → Nat → CopySrc) : Prop :=
    idle mk ∧
    waitsOnce mk (fun w _ u => tokenBusy u w) (fun _ _ _ => .issue) (fun _ _ u => u) ∧
    waitsOnce mk (fun w _ u => !tokenBusy u w && !slotFree u (focusCord u)) (fun _ _ _ => .slot) (fun _ _ u => u) ∧
    doesOnce mk (fun w l u => free w u && bad w l u) (fun w l u =>
      let a := writeToken (startToken (release u 2) w) (focusStrand (release u 2)) (tokenOf w.d) 1 2
      recordTrap a (focusStrand a) { code := .copybnd, cls := .engine, addr := BitVec.ofNat 64 (2 ^ 63 + (opA1 u w l).toNat), aux := 1 }) ∧
    doesOnce mk (fun w l u => free w u && !bad w l u) (fun w l u =>
      let a := startToken (release u 2) w
      let b := { a with ops := a.ops + 1 }
      let op : CopyOp := { id := a.ops, cord := focusCord b, strand := focusStrand b, token := tokenOf w.d,
                           src := src w u (opA1 u w l).toNat, image := scratchRd (myCord b) (opA1 u w l).toNat 64,
                           badRec := padPoison b (focusCord b) (opA1 u w l).toNat 64 }
      setMyCore b { myCore b with issuedCp := (myCore b).issuedCp ++ [op] })
  let chan (w : SWord) (u : State) : Channel := aGet {} (myCord u).chans (w.bits 0 3)
  let set (w : SWord) (h : Channel) (u : State) : State := setChan u (focusCord u) (w.bits 0 3) h
  let open' (w : SWord) (u : State) : Bool := !tokenBusy u w && !((chan w u).walking.isSome || (chan w u).nextHd.isSome)
  let good (w : SWord) (l : Lane) (u : State) : Bool := match (chan w u).cursor with
    | some a => a.toNat % 64 == 0 && (opA2 (startToken (release u 2) w) w l).toNat % 64 == 0
    | none => false
  issue .cpy (fun _ _ o => .cpy o) ∧
  issue .cpyg (fun w u o => .gather o ((lanesOf (enabled u w)).map (opB1 u w))) ∧
  issue .cpys (fun w u o => .scatter o ((lanesOf (enabled u w)).map (opB1 u w))) ∧
  idle .chan ∧ idle .tail ∧
  waitsOnce .chan (fun w _ u => (chan w u).nextHd.isSome) (fun _ _ _ => .slot) (fun _ _ u => u) ∧
  doesOnce .chan (fun w _ u => !(chan w u).nextHd.isSome) (fun w l u =>
    let a := release u 2
    set w (if (chan w u).walking.isSome then { chan w u with nextHd := some (opA2 a w l, focusStrand a) }
      else { chan w u with cursor := some (opA2 a w l), tail := none, owner := focusStrand a }) a) ∧
  waitsOnce .tail (fun w _ u => tokenBusy u w) (fun _ _ _ => .issue) (fun _ _ u => u) ∧
  waitsOnce .tail (fun w _ u => !tokenBusy u w && ((chan w u).walking.isSome || (chan w u).nextHd.isSome)) (fun _ _ _ => .slot) (fun _ _ u => u) ∧
  doesOnce .tail (fun w l u => open' w u && good w l u) (fun w l u =>
    let a := startToken (release u 2) w
    let dest := opA2 a w l
    let from' := (chan w u).cursor.getD 0
    let b := set w { chan w u with tail := some dest, walks := (chan w u).walks ++
      [{ pos := from', token := tokenOf w.d, strand := focusStrand a, owner := (chan w u).owner, tail := dest }] } a
    let c := { b with ops := b.ops + 1 }
    setMyCore c { myCore c with issuedCp := (myCore c).issuedCp ++
      [{ id := b.ops, cord := focusCord c, strand := (chan w u).owner, src := .chain (w.bits 0 3) from' }] }) ∧
  doesOnce .tail (fun w l u => open' w u && !good w l u) (fun w l u =>
    let a := startToken (release u 2) w
    let who := if (chan w u).cursor.isSome then (chan w u).owner else focusStrand a
    let pos := match (chan w u).cursor with
      | none => opA2 a w l
      | some c => if c.toNat % 64 ≠ 0 then c else opA2 a w l
    recordTrap (writeToken a (focusStrand a) (tokenOf w.d) 2 2) who { code := .desc, cls := .engine, addr := pos, aux := 2 })

/-- MCALL, XRED, XPUT and XGET (R253, R254, R279, R385, R386, R388): an issue waits for its token register and for room, then captures the
block of 64 bytes at the offset in the scratchpad; MCALL is a release at .co, and one whose offset is bad completes at once with cause
ILLOP, and its barrier counts it; a fabric issue is a release at .sy, and a bad offset is found at acceptance. That the running call counts
among the 64 entries of the chain (log entry 37), and that the wait for a slot falls at the word (log entry 36), are the model's choices. -/
def Obligations.CallAndFabricIssueComplete : Prop :=
  let off (w : SWord) (l : Lane) (u : State) : Nat := (opA1 u w l).toNat
  let bad (w : SWord) (l : Lane) (u : State) : Bool := off w l u % 64 != 0 || !scratchIn (myCord u) (off w l u) 64
  let arr (w : SWord) : Option Nat := if w.bits 4 1 = 1 then some (w.bits 0 4) else none
  let full (u : State) : Bool := decide (64 ≤ (myCore u).issuedCl.length + (myCore u).chain.length + (if (myCore u).run.isSome then 1 else 0))
  let fabric (mk : SWord → Instr) (k : FabKind) : Prop :=
    idle mk ∧
    waitsOnce mk (fun w _ u => tokenBusy u w) (fun _ _ _ => .issue) (fun _ _ u => u) ∧
    waitsOnce mk (fun w _ u => !tokenBusy u w && !slotFree u (focusCord u)) (fun _ _ _ => .slot) (fun _ _ u => u) ∧
    doesOnce mk (fun w _ u => !tokenBusy u w && slotFree u (focusCord u)) (fun w l u =>
      let a := startToken (release u 5) w
      let b := { a with ops := a.ops + 1 }
      let op : FabOp := { id := a.ops, cord := focusCord b, strand := focusStrand b, token := tokenOf w.d, kind := k, off := off w l u,
                          block := if bad w l u then [] else scratchRd (myCord b) (off w l u) 64,
                          bad := padPoison b (focusCord b) (off w l u) 64 }
      setMyCore b { myCore b with fabric := (myCore b).fabric ++ [op] })
  idle .mcall ∧
  waitsOnce .mcall (fun w _ u => tokenBusy u w) (fun _ _ _ => .issue) (fun _ _ u => u) ∧
  waitsOnce .mcall (fun w l u => !tokenBusy u w && !bad w l u && full u) (fun _ _ _ => .slot) (fun _ _ u => u) ∧
  doesOnce .mcall (fun w l u => !tokenBusy u w && bad w l u) (fun w _ u =>
    let a := startToken (release u 2) w
    let b := match arr w with
      | some k => engineNames a (focusCord a) k
      | none => a
    finishCall b b.focus.core { id := 0, cord := focusCord b, strand := focusStrand u, token := tokenOf w.d, arr := arr w } none
      { status := 1, cause := 3, addr := (wordAddr u).setWidth 64 }) ∧
  doesOnce .mcall (fun w l u => !tokenBusy u w && !bad w l u && !full u) (fun w l u =>
    let a := startToken (release u 2) w
    let b := { a with ops := a.ops + 1 }
    let x := scratchRd (myCord b) (off w l u) 64
    let c : Call := { id := a.ops, cord := focusCord b, strand := focusStrand u, token := tokenOf w.d, arr := arr w,
                      block := (List.range 8).map (fun i => BitVec.ofNat 64 (leNat ((x.drop (8 * i)).take 8))) }
    setMyCore b { myCore b with issuedCl := (myCore b).issuedCl ++ [c] }) ∧
  fabric .xred .xred ∧ fabric .xput .xput ∧ fabric .xget .xget

/-- Where the signal stands that SIGR reads. -/
def signalAt (w : SWord) (l : Lane) (u : State) : Option Place := signalPlace u (opA2 u w l) .rd

/-- The signal that SIGR reads at the device point: the strand's own queued stores first. -/
def signalHere (w : SWord) (l : Lane) (u : State) : DWord :=
  let p := (signalAt w l u).getD { key := 0 }
  BitVec.ofNat 64 (leNat (forwardRd u false (fun k => scopeRd u u.focus.core 4 k p.nc) p.key 8))

/-- The blocking SIGR waits: the signal is above its bound. -/
def aboveBound (w : SWord) (l : Lane) (u : State) : Bool := w.bits 0 1 == 1 && (opB2 u w l).slt (signalHere w l u)

/-- The signal can be accessed, and a byte of it that is not one of the strand's own queued stores carries an uncorrectable error. -/
def signalSpoilt (w : SWord) (l : Lane) (u : State) : Bool := (signalAt w l u).any (fun p => (List.range 8).any (fun i =>
  (queueRd (me u).stores false (p.key + i)).isNone && poisonAt u u.focus.core 4 (p.key + i) 1 p.nc))

/-- SIGR can read its signal. -/
def signalGood (w : SWord) (l : Lane) (u : State) : Bool := (signalAt w l u).isSome && !signalSpoilt w l u

/-- SIGR of a signal that cannot be accessed, or that carries an uncorrectable error: every enabled lane splits. -/
def signalFaults (w : SWord) (l : Lane) (u : State) : State :=
  faultLanes u (curClause u).hdr (some (curClause u).word)
    ((lanesOf (enabled u w)).map (fun m => (m, if signalSpoilt w l u then .poison else .memfault, opA2 u w l, 0)))

/-- SIGR of a signal that it need not wait for: D receives it, and the word is an acquire at .dv. -/
def signalRead (w : SWord) (l : Lane) (u : State) : State :=
  let a := setMe u (putReg (me u) w.d 2 (enabled u w) (fun _ => signalHere w l u))
  refresh a a.focus.core 4

/-- SIGD and SIGR (R251): SIGD is a release at .dv and subtracts B from the signal in one indivisible update at the device point, its token
0; a signal that is not aligned or not accessible gives token 4 and the engine trap MEMFAULT; SIGR reads the signal at the device point as
an acquire, and with its wait the strand stands at the word while the value is above B; where it faults, MEMFAULT, or POISON for an
uncorrectable error in the signal (R116), every enabled lane does. -/
def Obligations.SignalsComplete : Prop :=
  idle .sigd ∧ idle .sigr ∧
  waitsOnce .sigd (fun w _ u => tokenBusy u w) (fun _ _ _ => .issue) (fun _ _ u => u) ∧
  (∀ w s l, issues (.sigd w) s = true → lowestLane (enabled s w) = some l →
    let u := issued (.sigd w) s
    tokenBusy u w = false →
    let a := startToken (release u 4) w
    let p := signalPlace a (opA2 u w l)
    exec (.sigd w) s = .next (goneOn w.sw (
      if (p .rd).isSome && (p .wr).isSome then
        writeToken (subSignal a (some a.focus.core) ((p .rd).getD { key := 0 }) (natOf 64 (opB1 a w l).toInt)) (focusStrand u) (tokenOf w.d) 0 2
      else recordTrap (writeToken a (focusStrand u) (tokenOf w.d) 4 2) (focusStrand u)
        { code := .memfault, cls := .engine, addr := opA2 u w l, aux := 4 }))) ∧
  doesOnce .sigr (fun w l u => !signalGood w l u) signalFaults ∧
  waitsOnce .sigr (fun w l u => signalGood w l u && aboveBound w l u) (fun _ _ _ => .sigr) (fun _ _ u => u) ∧
  doesOnce .sigr (fun w l u => signalGood w l u && !aboveBound w l u) signalRead

/-! ### Tasks, and the words of the handler -/

/-- The lanes whose records TSPN still has to push: with a record address in no vector, one for the strand; of a blocked one those from the
lane on at which it waits. -/
def spawning (w : SWord) (u : State) : List Lane :=
  let from' : Nat := match myStall u with
    | some (.tspn n) => n
    | _ => 0
  (accessLanes (!isVector w.a) w u).filter (fun l => !isVector w.a || decide (from' ≤ l.val))

/-- What TSPN has pushed, behind a release at .dv. -/
def spawned (w : SWord) (u : State) : State × Pushed :=
  spawnLanes (w.bits 0 1 == 1) (fun l => (opA1 u w l).toNat) (spawning w u) (release u 4) {}

/-- TSPN's state after its pushes: the try form has told each lane's answer, and the lanes whose record faults have split. -/
def afterSpawn (w : SWord) (u : State) : State :=
  let one : Bool := !isVector w.a
  let r := spawned w u
  let m := maskFor one (enabled u w) (r.2.wrote.map (·.1))
  faultLanes (if w.bits 0 1 == 1 then setMe r.1 (putP (me r.1) w.d.toNat m (byLane one false r.2.wrote)) else r.1) (curClause u).hdr
    (some (curClause u).word) (r.2.faults.flatMap (fun f => if one then (lanesOf (enabled u w)).map (fun l => (l, f.2)) else [f]))

/-- TSPN, TSTL, TDEC, TEND, ENRD and GCND (R328 to R333): TSPN is a release at .dv that pushes its lanes' records, in lane order, each to
its queue's level; the blocking form waits at the lane whose queue is full, and goes on from it; the try form tells each lane's answer; TSTL
takes the oldest stealable record of a queue and writes it to the scratchpad; TDEC is a release that decrements a waiting record; TEND ends
the task; ENRD reads the energy, which never decreases; GCND stores four bytes as a release, and faults in every enabled lane where STRL
would, at the null handle too. That a blocking TSPN writes no predicate, and that TSTL first lets the strand's stores leave, are the model's
choices (log entry 41); how much energy has been measured is left open (log entry 6). -/
def Obligations.TasksComplete : Prop :=
  let one (w : SWord) : Bool := !isVector w.a
  doesIf .tspn (fun w u => (spawning w u).isEmpty) (fun _ u => u) ∧
  doesIf .tspn (fun w u => !(spawning w u).isEmpty && (spawned w u).2.stop.isNone) afterSpawn ∧
  waitsIf .tspn (fun w u => !(spawning w u).isEmpty && (spawned w u).2.stop.isSome)
    (fun w u => .tspn (((spawned w u).2.stop.getD 0).val)) afterSpawn ∧
  does .tstl (fun w u =>
    let a := if enabled u w = 0 then u else drain u (focusStrand u)
    servedWord (!isVector w.a && !isVector w.b) (accessLanes (!isVector w.a && !isVector w.b) w a) 0 (some w.d.toNat) (tstlLane w u) w a) ∧
  does .tdec (fun w u =>
    let a := if enabled u w = 0 then u else release u 4
    servedWord (one w) (accessLanes (one w) w a) 0 (some w.d.toNat)
      (fun s l => match decrement s (some s.focus.core) (myCord s).job (opA2 u w l) with
        | .error c => .fault c (opA2 u w l) 0 s
        | .ok (b, t) => .done 0 b t) w a) ∧
  idle .tend ∧ idle .enrd ∧ idle .gcnd ∧
  doesOnce .tend always (fun _ _ u =>
    let a := setCord u (focusCord u) { getCord u (focusCord u) with tend := true, sticky := 0, failure := none }
    (strandKeys a (focusCord u)).foldl (fun s k => setStrand s k (getStrand s k).tendStop) a) ∧
  doesOnce .enrd always (fun w _ u =>
    let e := (myCord u).energy + Config.measuredEnergy u.free
    let a := setMyCord u { myCord u with energy := e }
    setMe a (putReg (me a) w.d 2 (enabled a w) (fun _ => BitVec.ofNat 64 (min e (2 ^ 64 - 1))))) ∧
  (∀ w s l p, issues (.gcnd w) s = true → lowestLane (enabled s w) = some l →
    let u := issued (.gcnd w) s
    placeAt u (some u.focus.core) (myCord u).job (opA2 u w l) 0 4 .wr = .ok p → (opA2 u w l ≠ 0 ∨ w.a = 0xF0) →
    exec (.gcnd w) s = .next (goneOn w.sw (cachePlaces (setMe u { me u with stores := (me u).stores ++
      [{ scratch := false, key := p.key, bytes := leBytes 4 (opB1 u w l).toNat, nc := p.nc, rel := 4 }] }) [⟨l, opA2 u w l, p⟩]))) ∧
  (∀ w s l c, issues (.gcnd w) s = true → lowestLane (enabled s w) = some l →
    let u := issued (.gcnd w) s
    let null := opA2 u w l = 0 ∧ w.a ≠ 0xF0
    (null ∧ c = .memfault) ∨ (¬ null ∧ placeAt u (some u.focus.core) (myCord u).job (opA2 u w l) 0 4 .wr = .error c) →
    exec (.gcnd w) s = .next (goneOn w.sw (faultLanes (setMe u (me u)) (curClause u).hdr (some (curClause u).word)
      ((lanesOf (enabled u w)).map (fun m => (m, c, opA2 u w l, 0))))))

/-- TRDL, TWRL, TINF, TMSK and TRET (R364 to R368): TRDL and TWRL read and write a lane of the frozen strand, its registers, its predicates,
its position and its fault; a lane whose position is written leaves the interrupted clause; TINF reads an item of the trap; TMSK reads SET
and replaces it within PARK; TRET retries, skips, kills or escalates. With S = 1 it first waits for every result (R23); that it does so too
where a load of the handler carries an error is the model's choice (log entry 21). -/
def Obligations.HandlerWordsComplete : Prop :=
  let dst (w : SWord) (n : Nat) (v : DWord) (u : State) : State := setMe u (putReg (me u) w.d n (enabled u w) (fun _ => v))
  let n (w : SWord) (l : Lane) (u : State) : Nat := (opB1 u w l).toNat
  let dest (w : SWord) (l : Lane) (u : State) : Lane := laneOfNat (n w l u)
  let out (w : SWord) (l : Lane) (u : State) : Bool := decide (31 < n w l u) || ((me u).threads.get (dest w l u)).isExited
  idle .trdl ∧ idle .twrl ∧ idle .tinf ∧ idle .tmsk ∧ idle .tret ∧
  doesOnce .trdl always (fun w l u => dst w w.ty.regs (if 31 < n w l u then 0 else
    let x := (me u).threads.get (dest w l u)
    match w.c.toNat with
    | 0 => pairOf (vLane (me u) w.a.toNat (dest w l u)) (if w.ty.regs = 2 then vLane (me u) (w.a.toNat + 1) (dest w l u) else 0)
    | 1 => frozenAddr (me u) (dest w l u)
    | 2 => (faultRecord x).2
    | 3 => BitVec.ofNat 64 ((faultRecord x).1 + 2 ^ 8 * (inMask (handledTrap u).park (dest w l u)).toNat + 2 ^ 9 * x.isExited.toNat)
    | _ => BitVec.ofNat 64 (((List.range 8).filter (fun i => frozenPred (me u) i (dest w l u))).map (2 ^ ·)).sum) u) ∧
  doesOnce .twrl out (fun _ _ u => u) ∧
  doesOnce .twrl (fun w l u => !out w l u && w.c.toNat == 0) (fun w l u =>
    setMe u (putReg (me u) w.d w.ty.regs (laneBit (dest w l u)) (fun _ => operand u w 1 w.a w.ty.regs l))) ∧
  doesOnce .twrl (fun w l u => !out w l u && w.c.toNat == 1) (fun w l u =>
    setMe u (putFrozenPred (me u) w.d.toNat (dest w l u) ((opA1 u w l).getLsbD 0))) ∧
  trapsOnce .twrl (fun w l u => !out w l u && decide (1 < w.c.toNat) && !inMask (handledTrap u).park (dest w l u)) .illop ∧
  doesOnce .twrl (fun w l u => !out w l u && decide (1 < w.c.toNat) && inMask (handledTrap u).park (dest w l u)) (fun w l u =>
    setMe u ((leaveSaved (me u) (laneBit (dest w l u))).modThread (dest w l u) (fun x => { x with
      pc := (opA2 u w l).extractLsb' 0 56, hi := (opA2 u w l).extractLsb' 56 8, place := none }))) ∧
  doesOnce .tinf always (fun w _ u => dst w 2 (myTrapItem u (w.bits 0 4)) u) ∧
  doesOnce .tmsk always (fun w l u =>
    let a := dst w 1 ((handledTrap u).set.setWidth 64) u
    setMe a { me a with handler := (me a).handler.map (fun h => { h with trap := { h.trap with set := opB1 u w l &&& h.trap.park } }) }) ∧
  (∀ w s, issues (.tret w) s = true → enabled s w ≠ 0 →
    let t := if w.sw || (me s).pend.any (fun e => !e.poison.isEmpty) then settleAll s else s
    exec (.tret w) s = .next (returnFrom (w.bits 0 2) { t with free := t.free + 1 })) ∧
  (∀ t m h c st, t.handler = some h → h.saved = some (c, st) →
    let d : Clause := { c with act := c.act &&& ~~~m, group := c.group &&& ~~~m }
    (d.act ≠ 0 → leaveSaved t m = { t with handler := some { h with saved := some (d, st) } }) ∧
    (d.act = 0 → (leaveSaved t m).handler = some { h with saved := none }))

/-! ### Words of the capstan -/

/-- CNOP to CLOOP (R23, R62, R63, R282, R283): the words of one result leave it in D, with operand2 the sum of B and the immediate; CCMP
sets the flags; a transfer goes to the word's address plus eight times the immediate, and ends the clause. With S = 1 the results still
outstanding are written behind the word, D's included: of a register written twice either value may stay (R24). That a transfer's target is
a sum modulo 2^56, as a branch's is, is the model's choice (log 51). -/
def Obligations.CapstanScalarComplete : Prop :=
  let dest (w : CWord) (s : State) : VAddr := capAddr (myRun s) + (w.imm.signExtend 56 <<< 3)
  let op2 (w : CWord) (s : State) : DWord := capB s w + w.imm.signExtend 64
  let alu (mk : CWord → Instr) (n : Nat) (f : DWord → DWord → DWord) : Prop := capWrites mk n (fun w s => f (capA s w) (op2 w s))
  let holds (w : CWord) (r : RunCall) : Bool :=
    [r.fz, !r.fz, r.fn, !r.fn, r.fc, !r.fc, r.fn || r.fz, !(r.fn || r.fz)].getD w.cond.toNat false
  let goes (mk : CWord → Instr) (t : CWord → State → State) : Prop :=
    ∀ w s, capIssues (mk w) s = true → exec (mk w) s = .next (t w s)
  (∀ w s, capIssues (.cnop w) s = true → exec (.cnop w) s = .next (capGoes w 1 s)) ∧
  goes .cnop (fun w s => capRan w 1 (myRun s) s) ∧
  capWrites .cmov 1 (fun w s => capA s w) ∧
  capWrites .cmovi 1 (fun w s =>
    let h := 16 * w.b.toNat
    if w.a = 0 then BitVec.ofInt 64 (w.imm.toInt * 2 ^ h) else (capD s w &&& ~~~((0xFFFF : DWord) <<< h)) ||| (w.imm.setWidth 64 <<< h)) ∧
  alu .cadd 1 (fun a b => BitVec.ofNat 64 (a.toNat + b.toNat)) ∧ alu .csub 1 (fun a b => BitVec.ofInt 64 (a.toInt - b.toInt)) ∧
  alu .cmul 4 (fun a b => BitVec.ofNat 64 (a.toNat * b.toNat)) ∧ alu .cand 1 (fun a b => a &&& b) ∧ alu .cor 1 (fun a b => a ||| b) ∧
  alu .cshl 1 (fun a b => if b.toNat < 64 then BitVec.ofNat 64 (a.toNat * 2 ^ b.toNat) else 0) ∧
  alu .cshr 1 (fun a b => if b.toNat < 64 then BitVec.ofNat 64 (a.toNat / 2 ^ b.toNat) else 0) ∧
  goes .ccmp (fun w s => capRan w 1 { myRun s with
    fz := decide (capA s w = op2 w s), fn := decide ((capA s w).toInt < (op2 w s).toInt), fc := decide ((capA s w).toNat < (op2 w s).toNat) } s) ∧
  goes .cbr (fun w s => if holds w (myRun s) then capWent w 1 (dest w s) (myRun s) s else capRan w 1 (myRun s) s) ∧
  goes .cbra (fun w s => capWent w 1 (dest w s) (myRun s) s) ∧
  goes .cloop (fun w s =>
    let v := capD s w - 1
    if v = 0 then capRan w 1 ((myRun s).put w.d v) s else capWent w 1 (dest w s) ((myRun s).put w.d v) s)

/-- Some byte that the running call would read, at a place or in the scratchpad, is not one of its own queued stores and carries an
uncorrectable error. -/
def spoiltFor (s : State) (sp : Bool) (n : Nat) (p : Place) : Bool := (List.range n).any (fun i =>
  (queueRd (myRun s).stores sp (p.key + i)).isNone &&
    (if sp then padPoison s (capCord s) (p.key + i) 1 else poisonSeen s s.focus.core (p.key + i) 1 p.nc))

/-- Where the signal of a CWAIT stands. -/
def awaitedAt (w : CWord) (s : State) : Option Place := if (capA s w).toNat % 8 = 0 then
  (placeAt s (some s.focus.core) (getCord s (capCord s)).job (capA s w) 0 8 .rd).toOption else none

/-- The signal at a place as the running call reads it at the device point: its own queued stores first. -/
def awaitedHere (s : State) (p : Place) : DWord := BitVec.ofNat 64 (leNat ((List.range 8).map (fun i =>
  (queueRd (myRun s).stores false (p.key + i)).getD (scopeRd s s.focus.core 4 (p.key + i) p.nc))))

/-- CWAIT (R284): where the signal is at most the bound the call goes on, as an acquire at .dv; where it is above, the call waits; a signal
that cannot be accessed ends the call with MFAULT, one that carries an uncorrectable error with POISON. -/
def waitOrGo (w : CWord) (s : State) : State := match awaitedAt w s with
  | none => capEnds 2 { status := 8, cause := 0, addr := capA s w } s
  | some p =>
    if spoiltFor s false 8 { p with nc := true } then capEnds 2 { status := 9, cause := 0, addr := capA s w } s
    else if (awaitedHere s p).toInt ≤ (capB s w).toInt then capGoes w 2 (refresh s s.focus.core 4)
    else setRun s { myRun s with waiting := true }

/-- CLD, CST, CWAIT, CFENCE, CRET, CARG, CPRI, CSEQ and CTRAP (R282, R284, R299): CLD reads its bytes at issue, its result outstanding; CST
queues its bytes; a scratchpad place below SPSIZE and aligned is the access's, any other ends the call with ILLOP; a place of memory that
does not translate or is not aligned, and a base register that holds the null handle 0, end it with MFAULT; a byte that is not the call's
own queued store and carries an uncorrectable error ends it with POISON; CWAIT goes on where the signal is at most the bound, and else
waits. That CLD reads at issue is the model's choice (log 20), and so is the 8-byte unit of poison (log 32). -/
def Obligations.CapstanMemoryComplete : Prop :=
  let at' (w : CWord) (s : State) : DWord := capA s w + BitVec.ofInt 64 (signedOf 12 (w.imm.toNat % 4096))
  let place (need : Need) (w : CWord) (s : State) : Except CallEnd Place := capPlace s w need
  let ok (need : Need) (w : CWord) (s : State) : Option Place := (place need w s).toOption
  let got (need : Need) (w : CWord) (s : State) : Place := (ok need w s).getD { key := 0 }
  let pois (w : CWord) (s : State) : Bool := spoiltFor s (capSp w) (capSize w) (got .rd w s)
  let bytes (w : CWord) (s : State) : List Byte :=
    (List.range (capSize w)).map (fun i => capByte s (capSp w) (got .rd w s) ((got .rd w s).key + i))
  (∀ s w need, capSp w = true → place need w s =
    let k := (at' w s).toNat % 2 ^ 32
    if k + capSize w ≤ (getCord s (capCord s)).hdr.scratch ∧ k % capSize w = 0 then .ok { key := k } else .error (operandEnd s)) ∧
  (∀ s w need, capSp w = false → isHandle (capA s w) = false →
    (at' w s).toNat % capSize w ≠ 0 ∨ (capA s w = 0 ∧ w.a ≠ 31) ∨ translate s (some s.focus.core) (getCord s (capCord s)).job (at' w s) need = none →
    place need w s = .error { status := 8, cause := 0, addr := at' w s }) ∧
  capDoes .cld (fun w s => (ok .rd w s).isSome && !pois w s) (fun _ _ => 1) (fun w s =>
    let t := capKeep s (got .rd w s)
    let raced := (myRun t).pend.map (fun p => if p.reg = w.d.toNat then { p with raced := true } else p)
    setRun t { myRun t with pend := raced ++ [{ reg := w.d.toNat, val := BitVec.ofNat 64 (leNat (bytes w s)) }] }) ∧
  capStops .cld (fun w s => (ok .rd w s).isSome && pois w s) (fun _ _ => 1)
    (fun w s => { status := 9, cause := 0, addr := at' w s }) (fun _ s => s) ∧
  (∀ w s e, capIssues (.cld w) s = true → place .rd w s = .error e → exec (.cld w) s = .next (capEnds 1 e s)) ∧
  (∀ w s e, capIssues (.cst w) s = true → place .wr w s = .error e → exec (.cst w) s = .next (capEnds 1 e s)) ∧
  capDoes .cst (fun w s => (ok .wr w s).isSome) (fun _ _ => 1) (fun w s =>
    let t := capKeep s (got .wr w s)
    let q : QStore :=
      { scratch := capSp w, key := (got .wr w s).key, bytes := leBytes (capSize w) (capB s w).toNat, nc := (got .wr w s).nc }
    setRun t { myRun t with stores := (myRun t).stores ++ [q] }) ∧
  (∀ w s, capIssues (.cwait w) s = true → exec (.cwait w) s = .next (waitOrGo w s)) ∧
  capDoes .cfence (fun _ _ => true) (fun _ _ => 2) (fun w s =>
    let sc := w.imm.toNat % 8
    let k := w.imm.toNat / 8 % 4
    let t := if k = 1 ∨ sc = 0 then s else flush (drainCap s) s.focus.core sc
    if k = 2 then t else refresh t t.focus.core sc) ∧
  capStops .cret (fun _ _ => true) (fun _ _ => 2) (fun _ _ => { status := 0, cause := 0, addr := 0 }) (fun _ s => drainCap (settleCap s)) ∧
  capWrites .carg 1 (fun w s => (myRun s).call.block.getD (w.imm.toNat % 8) 0) ∧
  capWrites .cpri 1 (fun _ s =>
    let c := getCord s (myRun s).call.cord
    let ping := c.hdr.flags.getLsbD 1
    BitVec.ofNat 64 ((myRun s).call.cord % 16 + 2 ^ 4 * (ping && c.token).toNat + 2 ^ 5 * (ping && c.partner.isSome).toNat +
      2 ^ 8 * min (myCore s).chain.length 255 + 2 ^ 16 * ((myRun s).call.strand % 32) + 2 ^ 32 * (c.job % 2 ^ 16))) ∧
  capDoes .cseq (fun w s => (capA s w).toNat % 8 == 0) (fun _ _ => 1) (fun w s => setRun s { myRun s with seqAddr := some (capA s w) }) ∧
  capStops .cseq (fun w s => (capA s w).toNat % 8 != 0) (fun _ _ => 1) (fun _ s => operandEnd s) (fun _ s => s) ∧
  capStops .ctrap (fun _ _ => true) (fun _ _ => 1)
    (fun w s => { status := 1, cause := 6, addr := (capAddr (myRun s)).setWidth 64, code := w.imm }) (fun _ s => s)

/-- The matrix words (R255, R258 to R272, R284 to R291): each waits for the capstan's stores, reads its shape or its range, and where every
check passes has its effect at its cost: loads fill the slots that do not hold their source; a pass over slots, a knot and banks that the
call owns adds to its silt rows, and one whose slots fail their parity reloads them or ends the call with CLAYERR; MZERO and MANC change the
rows named and no other; MGRP runs the next entry of its table that has rows, and goes on at the same word while one is left; the drains
write rows to the scratchpad. Where a check fails (a malformed shape, range or entry; a slot, knot or bank of another cord; a row, a label
or a byte out of range; an offset not aligned) the call ends with cause ILLOP and nothing else has changed; a bad atom ends it with RELN.
What a word reads of the scratchpad is capCells: each byte as it is, or as it was at a moment since the word before (R257). That MLOADH
costs 17 core cycles a slot, that MLAB ignores the bits of B above 21, and that the boundary behind each group of MGRP is a step of its own
are the model's choices (log 38). -/
def Obligations.MatrixComplete : Prop :=
  let pad (u : State) : List Host.Cell := capCells u
  let lies (u : State) (off n : Nat) : Prop := off + n ≤ (getCord u (capCord u)).hdr.scratch
  let mine (u : State) (o : Option Nat) : Prop := o = some (capCord u)
  let related (u : State) (knot : Option Nat) (first n : Nat) : Prop := ∀ k, knot = some k →
    (mine u (aGet {} (myCore u).knots k).owner ∧ mine u (myCore u).rowBank.owner ∧ mine u (myCore u).colBank.owner) ∧ first + n ≤ 256
  let relation (u : State) (knot : Option Nat) : Option Relation :=
    knot.map (fun k => ⟨(aGet {} (myCore u).knots k).terms, (myCore u).rowBank, (myCore u).colBank⟩)
  let holds (u : State) (sh : Shape) : Prop := ∀ p ∈ sh.slots, mine u ((aGet {} (myCore u).clay (slotKey p.1 p.2)).tag.map (·.cord))
  let rows (u : State) (r n : Nat) : Prop := n = 0 ∨ r + n ≤ (getCord u (capCord u)).hdr.silt
  let off (v : DWord) : Nat := v.toNat % 2 ^ 32
  let load (mk : CWord → Instr) (k : LoadKind) (per : Nat) : Prop := ∀ w s, capIssues (mk w) s = true →
    let u := drainCap s
    let o := off (capA u w)
    (∀ sh, shapeOf (capB u w) false = some sh → sh.b16 = (k == .planes) → lies u o (sh.sourceLen k) →
      let r := loadSlots (pad u) (capCord u) o w.imm.toNat (capB u w) sh k sh.slots (myCore u).clay
      exec (mk w) s = .next (capGoes w (8 + per * r.1) (setMyCore u { myCore u with clay := r.2 }))) ∧
    ((∀ sh, shapeOf (capB u w) false = some sh → sh.b16 ≠ (k == .planes) ∨ ¬ lies u o (sh.sourceLen k)) →
      exec (mk w) s = .next (capEnds 8 (operandEnd u) u))
  let mult (mk : CWord → Instr) (knot : CWord → Option Nat) (lab : CWord → Nat) : Prop := ∀ w s, capIssues (mk w) s = true →
    let u := drainCap s
    let o := off (capA u w)
    let rel := relation u (knot w)
    let fits (sh : Shape) : Prop := holds u sh ∧ rows u sh.sb sh.ar ∧ lies u o ((sh.ar - 1) * sh.pitchA + 129 * sh.ks.length) ∧
      related u (knot w) (lab w) sh.ar
    let passed (sh : Shape) (n : Nat) (clay : AMap ClaySlot) : State :=
      let t := setMyCore u { myCore u with clay := clay }
      let t : State := if n = 0 then t else { t with
        mgmt := { t.mgmt with errce := t.mgmt.errce + BitVec.ofNat 64 n }, irqs := aMod 0 t.irqs 66 (· + 1) }
      passRows (countTiles t (capCord u) sh rel (lab w) sh.ar) (capCord u) (pad u) clay sh rel o sh.sb (lab w) sh.ar
    (∀ sh, shapeOf (capB u w) true = some sh → fits sh →
      ((∀ p ∈ sh.slots, (aGet {} (myCore u).clay (slotKey p.1 p.2)).bad = false) →
        exec (mk w) s = .next (capGoes w (passCost sh rel (lab w) sh.ar) (passed sh 0 (myCore u).clay))) ∧
      (∀ n clay, repairSlots u sh.slots (myCore u).clay = some (n, clay) →
        exec (mk w) s = .next (capGoes w (passCost sh rel (lab w) sh.ar) (passed sh n clay))) ∧
      (repairSlots u sh.slots (myCore u).clay = none →
        exec (mk w) s = .next (capEnds 8 { status := 3, cause := 0, addr := (capAddr (myRun u)).setWidth 64 } u))) ∧
    ((∀ sh, shapeOf (capB u w) true = some sh → ¬ fits sh) → exec (mk w) s = .next (capEnds 8 (operandEnd u) u))
  let change (mk : CWord → Instr) (n : Nat → Nat) (ok : CWord → State → Bool) (f : CWord → State → SiltRow → SiltRow) : Prop :=
    ∀ w s, capIssues (mk w) s = true →
    let r := (capA s w).toNat
    let k := (capB s w).toNat
    (ok w s = true → rows s r k → exec (mk w) s = .next (capGoes w (n k) (modRows s (capCord s) r (f w s) k))) ∧
    (¬ (ok w s = true ∧ rows s r k) → exec (mk w) s = .next (capEnds 2 (operandEnd s) s))
  let q (w : CWord) (s : State) : Int := (capC s w + w.imm.signExtend 64).toInt
  let out (mk : CWord → Instr) (n : SiltRange → Nat) (f : SiltRange → SiltRow → Nat → Nat → Option (Nat × Flags)) : Prop :=
    ∀ w s, capIssues (mk w) s = true →
    let u := drainCap s
    let pitch := (capC u w).toNat
    let fits (r : SiltRange) : Prop := rows u r.fr r.nr ∧ 64 * r.ng * r.size ≤ pitch ∧ pitch % r.size = 0 ∧
      lies u (off (capA u w)) ((r.nr - 1) * pitch + 64 * r.ng * r.size)
    (∀ r, rangeOf (capB u w) true = some r → fits r →
      exec (mk w) s = .next (capGoes w (n r) (drainRows u (capCord u) (pad u) r (off (capA u w)) pitch (f r) r.nr))) ∧
    ((∀ r, rangeOf (capB u w) true = some r → ¬ fits r) → exec (mk w) s = .next (capEnds 4 (operandEnd u) u))
  let first (p : List Host.Cell) (tab ar from' q : Nat) : Prop := from' ≤ q ∧ q < ar ∧ leAt (memRdN p (tab + 16 * q) 16) 0 2 ≠ 0 ∧
    ∀ k, from' ≤ k → k < q → leAt (memRdN p (tab + 16 * k) 16) 0 2 = 0
  let begun (w : CWord) (s : State) : Option GroupRun :=
    let u := drainCap s
    let tab := off (capA u w)
    match (myRun u).progress with
    | some (.groups x) => some x
    | _ => (shapeOf (capB u w) true).bind (fun sh => if tab % 16 = 0 ∧ tab + 16 * sh.ar ≤ (getCord u (capCord u)).hdr.scratch
        then some { tab := tab, shape := capB u w, aoff := off (capC u w) } else none)
  let raw (mk : CWord → Instr) (ok : State → SiltRange → Nat → Prop) (f : State → SiltRange → Nat → State) : Prop :=
    ∀ w s, capIssues (mk w) s = true →
    let u := drainCap s
    let b := off (capA u w)
    let fits (r : SiltRange) : Prop := b % 16 = 0 ∧ rows u r.fr r.nr ∧ lies u b (1024 * r.ng * r.nr) ∧ ok u r b
    (∀ r, rangeOf (capB u w) false = some r → fits r → exec (mk w) s = .next (capGoes w (4 + 2 * r.nr * r.ng) (f u r b))) ∧
    ((∀ r, rangeOf (capB u w) false = some r → ¬ fits r) → exec (mk w) s = .next (capEnds 4 (operandEnd u) u))
  (∀ s cord r n k (f : SiltRow → SiltRow), getSilt (getCord (modRows s cord r f n) cord) k =
    if r ≤ k ∧ k < r + n then f (getSilt (getCord s cord) k) else getSilt (getCord s cord) k) ∧
  load .mload .rows 17 ∧ load .mloadh .planes 17 ∧ load .mtrn .trans 24 ∧
  mult .mma (fun _ => none) (fun _ => 0) ∧ mult .mmar (fun w => some (w.imm.toNat % 4)) (fun w => 64 * (w.imm.toNat / 4 % 4)) ∧
  (∀ w s x sh, capIssues (.mgrp w) s = true → begun w s = some x → shapeOf x.shape true = some sh →
    let u := drainCap s
    (∀ q, first (pad u) x.tab sh.ar x.q q →
      let e := groupRow (pad u) (x.tab + 16 * q)
      let go := runGroup u x.shape sh w.imm.toNat x.aoff x.a e
      (∀ n t, go = .ok n t → (∀ k, ¬ first (pad t) x.tab sh.ar (q + 1) k) → exec (.mgrp w) s = .next (capGoes w n (closeProgress t))) ∧
      (∀ n t k, go = .ok n t → first (pad t) x.tab sh.ar (q + 1) k → exec (.mgrp w) s =
        .next { spend (setProgress t (.groups { x with q := q + 1, a := x.a + e.count })) n with free := t.free + 1 }) ∧
      (∀ y t, go = .bad y t → exec (.mgrp w) s = .next (capEnds 8 y t)) ∧
      (256 < e.count ∨ 4 ≤ e.flags ∨ 4 ≤ e.knot ∨ e.rsv ≠ 0 ∨ ¬ rows u e.srow e.count ∨
          ¬ lies u (x.aoff + x.a * sh.pitchA) ((e.count - 1) * sh.pitchA + 129 * sh.ks.length) ∨
          ¬ related u (if e.flags % 2 = 1 then some e.knot else none) x.a e.count ∨
          ¬ lies u e.boff (sh.sourceLen (if sh.b16 then .planes else .rows)) →
        exec (.mgrp w) s = .next (capEnds 8 (operandEnd u) u))) ∧
    ((∀ k, ¬ first (pad u) x.tab sh.ar x.q k) → exec (.mgrp w) s = .next (capGoes w 0 (closeProgress u)))) ∧
  (∀ w s, capIssues (.mgrp w) s = true → begun w s = none → exec (.mgrp w) s = .next (capEnds 8 (operandEnd (drainCap s)) (drainCap s))) ∧
  change .mzero (fun k => 2 + (k + 7) / 8) (fun _ _ => true) (fun _ _ x => { q := x.q }) ∧
  change .manc (fun _ => 2) (fun w s => decide (-512 ≤ q w s ∧ q w s ≤ 511)) (fun w s x => { x with q := q w s }) ∧
  out .mdrn (fun r => (4 + r.nr * r.ng) * (if r.bf then 2 else 1)) (fun r x n _ => some (drainCell r x n)) ∧
  out .mdacc (fun r => 4 + 2 * r.nr * r.ng) accCell ∧
  (∀ w s, capIssues (.mknot w) s = true →
    let u := drainCap s
    let o := off (capA u w)
    let b := memRdN (pad u) o 72
    let atoms := (List.range 16).map (fun i => BitVec.ofNat 32 (leAt b (8 + 4 * i) 4))
    let k : Knot := { owner := some (capCord u), en := BitVec.ofNat 4 (leAt b 0 8), atoms := atoms }
    (¬ (o % 8 = 0 ∧ lies u o 72) → exec (.mknot w) s = .next (capEnds 12 (operandEnd u) u)) ∧
    (o % 8 = 0 → lies u o 72 → exec (.mknot w) s = .next (
      if leAt b 0 8 < 16 ∧ atoms.all atomOk = true then
        capGoes w 12 (setMyCore u { myCore u with knots := aSet (myCore u).knots (w.imm.toNat % 4) k })
      else capEnds 12 { status := 4, addr := (capAddr (myRun u)).setWidth 64 } u))) ∧
  (∀ w s, capIssues (.mlab w) s = true →
    let u := drainCap s
    let v := (capB u w).toNat
    let f := v % 2 ^ 11
    let n := v / 2 ^ 11 % 2 ^ 11
    let g := (n + 63) / 64
    let a := off (capA u w)
    let c := off (capC u w)
    let b := bankOf w (myCore u)
    let own := if b.owner = some (capCord u) then b else { owner := some (capCord u) }
    let fits := f % 64 = 0 ∧ 1 ≤ n ∧ n ≤ 1024 ∧ f + n ≤ bankSize w ∧ c % 64 = 0 ∧ lies u a (8 + 8 * n) ∧ lies u c (64 * g)
    (¬ fits → exec (.mlab w) s = .next (capEnds 4 (operandEnd u) u)) ∧ (fits →
    ∃ dest : Bank, exec (.mlab w) s = .next (capGoes w (4 + (n + 7) / 8) (setMyCore u (withBank w (myCore u) dest))) ∧
      dest.owner = some (capCord u) ∧ dest.layout = BitVec.ofNat 64 (leNat (memRdN (pad u) a 8)) ∧
      (∀ i, i < n → dest.label (f + i) = leNat (memRdN (pad u) (a + 8 + 8 * i) 8)) ∧
      (∀ i, n ≤ i → i < 64 * g → dest.label (f + i) = voidLabel) ∧
      (∀ i, i < f ∨ f + 64 * g ≤ i → dest.label i = own.label i) ∧
      (∀ i, i < g → dest.sum (f / 64 + i) = memRdN (pad u) (c + 64 * i) 64) ∧
      (∀ i, i < f / 64 ∨ f / 64 + g ≤ i → dest.sum i = own.sum i))) ∧
  (∀ w s, capIssues (.msumq w) s = true →
    let b := bankOf w (myCore s)
    (b.owner = some (capCord s) → ∃ dest : Bank,
      exec (.msumq w) s = .next (capGoes w (4 + bankSize w / 8) (setMyCore s (withBank w (myCore s) dest))) ∧
      dest.owner = b.owner ∧ dest.layout = b.layout ∧ dest.labels = b.labels ∧
      ∀ g, g < bankSize w / 64 → dest.sum g = summaryOf b.layout ((List.range 64).map (fun i => b.label (64 * g + i)))) ∧
    (b.owner ≠ some (capCord s) → exec (.msumq w) s = .next (capEnds 4 (operandEnd s) s))) ∧
  capDoes .mrow (fun w s => decide (w.imm.toNat % 8 = 0) && rowsOk s (capA s w).toNat 1) (fun _ _ => 2)
    (fun w s => putC s w.d (BitVec.ofNat 64 (getSilt (getCord s (capCord s)) (capA s w).toNat).count)) ∧
  capDoes .mrow (fun w _ => decide (w.imm.toNat % 8 = 2)) (fun _ _ => 2) (fun w s =>
    putC s w.d ((getCord s (capCord s)).cntAll ++ (getCord s (capCord s)).cntNone)) ∧
  capDoes .mrow (fun w _ => decide (w.imm.toNat % 8 = 3)) (fun _ _ => 2) (fun w s =>
    putC s w.d ((getCord s (capCord s)).cntMixed.setWidth 64)) ∧
  capDoes .mrow (fun w s => decide (w.imm.toNat % 8 = 4) && rowsOk s (capA s w).toNat 1) (fun _ _ => 2)
    (fun w s => putC s w.d (BitVec.ofInt 64 (getSilt (getCord s (capCord s)) (capA s w).toNat).q)) ∧
  (∀ w s, capIssues (.mrow w) s = true → w.imm.toNat % 8 = 1 → (capA s w).toNat ≤ 3 → ∃ v : DWord,
    exec (.mrow w) s = .next (capGoes w 2 (putC s w.d v)) ∧ ∀ i, i < 64 → v.getLsbD i =
      (decide (64 * (capA s w).toNat + i < (getCord s (capCord s)).hdr.silt) &&
        decide ((getSilt (getCord s (capCord s)) (64 * (capA s w).toNat + i)).count = 0))) ∧
  (∀ w s, capIssues (.mrow w) s = true → w.imm.toNat % 8 = 1 → 3 < (capA s w).toNat →
    exec (.mrow w) s = .next (capEnds 2 (operandEnd s) s)) ∧
  (∀ w s, capIssues (.mrow w) s = true → w.imm.toNat % 8 = 0 ∨ w.imm.toNat % 8 = 4 → ¬ rows s (capA s w).toNat 1 →
    exec (.mrow w) s = .next (capEnds 2 (operandEnd s) s)) ∧
  (∀ w s, capIssues (.msadd w) s = true →
    let db := (capB s w).toNat
    let fits (r : SiltRange) : Prop := rows s r.fr r.nr ∧ rows s db r.nr ∧ (r.fr + r.nr ≤ db ∨ db + r.nr ≤ r.fr)
    (∀ r, rangeOf (capA s w) false = some r → fits r →
      exec (.msadd w) s = .next (capGoes w (4 + r.nr * r.ng) (saddRows s (capCord s) r db r.nr))) ∧
    ((∀ r, rangeOf (capA s w) false = some r → ¬ fits r) → exec (.msadd w) s = .next (capEnds 4 (operandEnd s) s))) ∧
  raw .msto (fun _ _ _ => True) (fun u r b => stoRows u (capCord u) r b r.nr) ∧
  raw .msld (fun u r b => ∀ k, k < 64 * r.ng * r.nr → leNat (memRdN (pad u) (b + 16 * k + 9) 7) < 4)
    (fun u r b => sldRows u (capCord u) (pad u) r b r.nr)

/-- The vocab words (R273 to R277, R282, R292 to R298): where their block and what it names pass the checks, VPROJ starts from its initial
or its saved states, VRES at the saved tile with thresholds taken anew, and each makes the next tile: it goes on at the same word while a
tile is left, and behind the last one leaves its states, DONE; a spill leaves the states at the tile, saves them in the resume area and ends
the call with HEAPSPILL; VPRJB regenerates one tile and writes its gradient; VMRG folds the states of the shards in ascending order, and a
spill writes nothing; VCLR, VHEAP, VNORM and VSTAT write states, heaps, normalisers and the unit's report. A failed operand check (a block
out of place, a field or an area out of range, a resume area or saved state that does not match, a bad tile or SCALE, a source that overlaps
STATE) ends the call with ILLOP and changes nothing; a bias list out of order, a refused descriptor and bytes that cannot be read end it
with BIASORD, DESC, MFAULT or POISON. That VRES ignores the bits of C above 7, that VPRJB makes no HEAPCAP check, the reading of THR and the
step of its own for each tile are the model's choices (log 38), and so is what STAGE holds behind a tile (log 4). -/
def Obligations.VocabComplete : Prop :=
  let off (v : DWord) : Nat := v.toNat % 2 ^ 32
  let lies (u : State) (o n : Nat) : Prop := o + n ≤ (getCord u (capCord u)).hdr.scratch
  let ending (st : Nat) (u : State) : CallEnd := { status := st, cause := 0, addr := (capAddr (myRun u)).setWidth 64 }
  let block (s : State) (a : DWord) : List Byte := capBytes s (off a) 128
  let placed (u : State) (a : DWord) : Prop := off a % 128 = 0 ∧ lies u (off a) 128
  let inRange (v : Vcb) : Prop := (1 ≤ v.rows ∧ v.rows ≤ 64) ∧ (1 ≤ v.heapk ∧ v.heapk ≤ 64) ∧ v.mode < 64 ∧
    (v.named ≤ 8 ∧ (v.named = 0 ∨ v.mode / 4 % 2 = 1)) ∧ (v.h % 64 = 0 ∧ 64 ≤ v.h ∧ v.h ≤ 65472) ∧ 1 ≤ v.vcount ∧ (-512 ≤ v.q ∧ v.q ≤ 511) ∧
    v.temp / 2 ^ 23 % 2 ^ 8 ≠ 255 ∧ (v.delta / 2 ^ 23 % 2 ^ 8 ≠ 255 ∧ (v.delta < 2 ^ 31 ∨ v.delta = 2 ^ 31)) ∧ v.blist.toNat % 8 = 0 ∧
    v.state % 16 = 0 ∧ v.stage % 8 = 0 ∧ (1 ≤ v.scount ∧ v.shard < v.scount) ∧ v.resume.toNat % 64 = 0 ∧ v.rsv = 0
  let areas (u : State) (v : Vcb) (base : Nat) : Prop :=
    base < 256 ∧ (v.rows = 0 ∨ base + v.rows ≤ (getCord u (capCord u)).hdr.silt) ∧
    lies u v.aoff ((v.rows - 1) * pitchOf (129 * (v.h / 64)) + 129 * (v.h / 64)) ∧ lies u v.state (v.rows * v.stride) ∧
    lies u v.stage (512 * pitchOf (65 * (min v.h 512 / 64))) ∧ (v.named = 0 ∨ lies u v.nids (4 * v.rows * v.named))
  let refused (mk : CWord → Instr) (w : CWord) (s : State) : Prop :=
    exec (mk w) s = .next (capEnds 1 (operandEnd (drainCap s)) (drainCap s))
  let fails (mk : CWord → Instr) (w : CWord) (s : State) (e : CallEnd) : Prop := exec (mk w) s =
    .next (capEnds 1 e (if e.status = 1 then drainCap s else setVstat (drainCap s) 0 0xFFFF e.status))
  let fresh (u : State) : Prop := ∀ x, (myRun u).progress ≠ some (.tiles x)
  let spills (mk : CWord → Instr) (w : CWord) (s : State) (x : TileRun) (n : Nat) (t : State) : Prop :=
    let v := Vcb.ofBytes x.vcb
    let u := writeRows t v x.rows
    let k := x.tile - x.first
    (∀ y, writeResume u v x.vcb x.tile x.rows = .ok y → exec (mk w) s = .next (capEnds (v.cost n) (ending 6 y) (setVstat y k x.tile 6))) ∧
    (∀ a, writeResume u v x.vcb x.tile x.rows = .error a →
      exec (mk w) s = .next (capEnds (v.cost n) { status := 8, cause := 0, addr := a } (setVstat u k 0xFFFF 8)))
  let makes (mk : CWord → Instr) (w : CWord) (s : State) (x : TileRun) : Prop :=
    let u := drainCap s
    let v := Vcb.ofBytes x.vcb
    (∀ ys t rs f, runTile u x.ctx x.tile = .ok (ys, t) → foldRows v (namedIds u v) ys x.rows = some (rs, f) →
      let z := orFlagsOf t (capCord t) f
      (x.tile + 1 < v.tiles → exec (mk w) s =
        .next { spend (setProgress z (.tiles { x with tile := x.tile + 1, rows := rs })) (v.cost 1) with free := z.free + 1 }) ∧
      (v.tiles ≤ x.tile + 1 → exec (mk w) s = .next (capGoes w (v.cost 1) (setVstat (writeRows (closeProgress z) v
        (rs.map (fun r => { r with done := true }))) (x.tile - x.first + 1) 0xFFFF 0)))) ∧
    (∀ ys t, runTile u x.ctx x.tile = .ok (ys, t) → foldRows v (namedIds u v) ys x.rows = none → spills mk w s x 1 t) ∧
    (∀ e, runTile u x.ctx x.tile = .error e → exec (mk w) s = .next (capEnds 1 e (setVstat u (x.tile - x.first) 0xFFFF e.status)))
  let util (mk : CWord → Instr) (n : Vcb → Nat) (fits : CWord → State → Vcb → Prop) (states : Bool)
      (effect : CWord → State → Vcb → List VRow → State) : Prop :=
    (∀ w s v rs, capIssues (mk w) s = true → readVcb (drainCap s) (off (capA (drainCap s) w)) = .ok v → inRange v →
      fits w (drainCap s) v → (states = true → readRows (drainCap s) v v.state = .ok rs) →
      exec (mk w) s = .next (capGoes w (n v) (effect w (drainCap s) v rs))) ∧
    (∀ w s, capIssues (mk w) s = true → ¬ placed (drainCap s) (capA (drainCap s) w) →
      exec (mk w) s = .next (capEnds 2 (operandEnd (drainCap s)) (drainCap s))) ∧
    (∀ w s v, capIssues (mk w) s = true → readVcb (drainCap s) (off (capA (drainCap s) w)) = .ok v →
      ¬ (inRange v ∧ fits w (drainCap s) v) → exec (mk w) s = .next (capEnds 2 (operandEnd (drainCap s)) (drainCap s))) ∧
    (∀ w s v e, capIssues (mk w) s = true → readVcb (drainCap s) (off (capA (drainCap s) w)) = .ok v → inRange v →
      fits w (drainCap s) v → states = true → readRows (drainCap s) v v.state = .error e →
      exec (mk w) s = .next (capEnds 2 e (drainCap s)))
  (∀ w s x, capIssues (.vproj w) s = true → (myRun (drainCap s)).progress = some (.tiles x) → makes .vproj w s x) ∧
  (∀ w s x, capIssues (.vres w) s = true → (myRun (drainCap s)).progress = some (.tiles x) → makes .vres w s x) ∧
  (∀ w s v bias x rs, capIssues (.vproj w) s = true →
    let u := drainCap s
    fresh u → readVcb u (off (capA u w)) = .ok v → v.rows * v.heapk ≤ 4096 → biasOf u v = .ok bias →
    vocabCtx u (block u (capA u w)) (capB u w).toNat bias = .ok x →
    (if v.mode / 8 % 2 = 1 then readRows u v v.state = .ok rs else rs = List.replicate v.rows
      { m := 0xFF800000, s := 0, valid := 0, thr := v.mode % 2 == 1, nanx := false, done := false, heap := [],
        named := List.replicate v.named 0xFF800000 }) →
    makes .vproj w s { x with rows := rs }) ∧
  (∀ s vcb base bias x, vocabCtx s vcb base bias = .ok x →
    x.vcb = vcb ∧ x.bias = bias ∧ x.base = base ∧ x.first = 0 ∧ x.tile = 0 ∧ readWeights s (.ofBytes vcb) = .ok (x.desc, x.nf)) ∧
  (∀ w s v, capIssues (.vproj w) s = true →
    let u := drainCap s
    fresh u → readVcb u (off (capA u w)) = .ok v → 4096 < v.rows * v.heapk →
    exec (.vproj w) s = .next (capEnds 1 (ending 5 u) (setVstat u 0 0xFFFF 5))) ∧
  (∀ u vcb base bias d, inRange (.ofBytes vcb) → areas u (.ofBytes vcb) base → readWeights u (.ofBytes vcb) = .ok d →
    vocabCtx u vcb base bias =
      .ok { vcb := vcb, desc := d.1, nf := d.2, bias := bias, base := base, first := 0, tile := 0, rows := [] }) ∧
  (∀ s a v, placed s a → (readVcb s (off a) = .ok v ↔ v = .ofBytes (block s a))) ∧
  (∀ s v off, lies s off (v.rows * v.stride) → ∀ rs, readRows s v off = .ok rs ↔
    rowsFrom v.heapk v.named v.stride (capBytes s off (v.rows * v.stride)) v.rows = some rs) ∧
  (∀ w s, capIssues (.vproj w) s = true →
    let u := drainCap s
    fresh u → (¬ placed u (capA u w) → refused .vproj w s) ∧
      (∀ v, readVcb u (off (capA u w)) = .ok v → v.rows * v.heapk ≤ 4096 →
        (∀ e, biasOf u v = .error e → fails .vproj w s e) ∧
        (∀ bias, biasOf u v = .ok bias → ¬ (inRange v ∧ areas u v (capB u w).toNat) → refused .vproj w s) ∧
        (∀ bias, biasOf u v = .ok bias → inRange v → areas u v (capB u w).toNat →
          (∀ e, readWeights u v = .error e → fails .vproj w s e) ∧
          (∀ d e, readWeights u v = .ok d → v.mode / 8 % 2 = 1 → readRows u v v.state = .error e → fails .vproj w s e)))) ∧
  (∀ w s, capIssues (.vprjb w) s = true →
    let u := drainCap s
    let b := (capB u w).toNat
    let tile := b / 2 ^ 8 % 2 ^ 16
    (¬ placed u (capA u w) → refused .vprjb w s) ∧
    (∀ v, readVcb u (off (capA u w)) = .ok v →
      (∀ e, biasOf u v = .error e → fails .vprjb w s e) ∧
      (∀ bias, biasOf u v = .ok bias → ¬ (inRange v ∧ areas u v (b % 256)) → refused .vprjb w s) ∧
      (∀ bias, biasOf u v = .ok bias → inRange v → areas u v (b % 256) →
        (∀ e, readWeights u v = .error e → fails .vprjb w s e) ∧
        (∀ d, readWeights u v = .ok d →
          let k := (v.width tile + 63) / 64
          let good := b / 2 ^ 24 % 2 ^ 8 = 0 ∧ v.mode / 4 % 2 = 1 ∧ v.named ≠ 0 ∧ b / 2 ^ 55 % 2 ^ 8 ≠ 255 ∧ tile < v.tiles ∧
            lies u (off (capC u w)) ((v.rows - 1) * pitchOf (129 * k) + 129 * k)
          (¬ good → refused .vprjb w s) ∧
          (∀ e, good → readRows u v v.state = .error e → fails .vprjb w s e) ∧
          (∀ rs x e, good → readRows u v v.state = .ok rs → vocabCtx u (block u (capA u w)) (b % 256) bias = .ok x →
            runTile u x.ctx tile = .error e → fails .vprjb w s e))))) ∧
  (∀ w s, capIssues (.vres w) s = true →
    let u := drainCap s
    let area := capA u w
    let vcb := block u (capB u w)
    fresh u → (¬ placed u (capB u w) → refused .vres w s) ∧
      (∀ v, readVcb u (off (capB u w)) = .ok v →
        (∀ e, capMem u area 0 132 = .error e → fails .vres w s e) ∧
        (∀ b, capMem u area 0 132 = .ok b →
          let old := Vcb.ofBytes b
          let base := (capC u w).toNat % 256
          let same := area.toNat % 64 = 0 ∧ (∀ i, i < 128 → i ≠ 1 → i < 28 ∨ 32 ≤ i → b[i]? = vcb[i]?) ∧ old.heapk ≤ v.heapk ∧
            v.rows * v.heapk ≤ 4096
          (¬ same → refused .vres w s) ∧
          (∀ e, same → biasOf u v = .error e → fails .vres w s e) ∧
          (∀ bias, same → biasOf u v = .ok bias → ¬ (inRange v ∧ areas u v base) → refused .vres w s) ∧
          (∀ bias, same → biasOf u v = .ok bias → inRange v → areas u v base →
            (∀ e, readWeights u v = .error e → fails .vres w s e) ∧
            (∀ d, readWeights u v = .ok d →
              (∀ e, capMem u area 144 (old.rows * old.stride) = .error e → fails .vres w s e) ∧
              (∀ sb, capMem u area 144 (old.rows * old.stride) = .ok sb →
                rowsFrom old.heapk old.named old.stride sb old.rows = none ∨ v.tiles ≤ leAt b 128 4 → refused .vres w s)))))) ∧
  (∀ w s v b bias x sb rs, capIssues (.vres w) s = true →
    let u := drainCap s
    let area := capA u w
    let vcb := block u (capB u w)
    let old := Vcb.ofBytes b
    let t := leAt b 128 4
    fresh u → readVcb u (off (capB u w)) = .ok v → capMem u area 0 132 = .ok b → area.toNat % 64 = 0 → sameVcb b vcb = true →
    old.heapk ≤ v.heapk → v.rows * v.heapk ≤ 4096 → biasOf u v = .ok bias → vocabCtx u vcb ((capC u w).toNat % 256) bias = .ok x →
    capMem u area 144 (old.rows * old.stride) = .ok sb → rowsFrom old.heapk old.named old.stride sb old.rows = some rs → t < v.tiles →
    let at' : TileRun := { x with first := t, tile := t, rows := rs }
    (∀ new, rethreshold v rs = some new → makes .vres w s { at' with rows := new }) ∧
    (rethreshold v rs = none → spills .vres w s at' 0 u)) ∧
  (∀ w s v bias x rs ys t, capIssues (.vprjb w) s = true →
    let u := drainCap s
    let b := (capB u w).toNat
    let tile := b / 2 ^ 8 % 2 ^ 16
    let scale := b / 2 ^ 32 % 2 ^ 32
    let k := (v.width tile + 63) / 64
    let pitch := pitchOf (129 * k)
    readVcb u (off (capA u w)) = .ok v → biasOf u v = .ok bias → vocabCtx u (block u (capA u w)) (b % 256) bias = .ok x →
    b / 2 ^ 24 % 2 ^ 8 = 0 → v.isNamed = true → v.named ≠ 0 → fFinite scale = true → tile < v.tiles →
    lies u (off (capC u w)) ((v.rows - 1) * pitch + 129 * k) → readRows u v v.state = .ok rs → runTile u x.ctx tile = .ok (ys, t) →
    exec (.vprjb w) s = .next (capGoes w (v.cost 1 + 16 * v.rows)
      (setVstat (putGrads v scale (off (capC u w)) pitch 0 (namedIds u v) rs ys t) 1 0xFFFF 0))) ∧
  (∀ w s, capIssues (.vmrg w) s = true →
    let u := drainCap s
    let src := off (capB u w)
    (¬ placed u (capA u w) → exec (.vmrg w) s = .next (capEnds 8 (operandEnd u) u)) ∧
    (∀ v, readVcb u (off (capA u w)) = .ok v →
      let one := v.rows * v.stride
      let good := inRange v ∧ lies u v.state one ∧ lies u src (v.scount * one) ∧
        (src = v.state ∨ src + v.scount * one ≤ v.state ∨ v.state + one ≤ src)
      (¬ good → exec (.vmrg w) s = .next (capEnds 8 (operandEnd u) u)) ∧
      (∀ e, good → (List.range v.scount).mapM (fun i => readRows u v (src + i * one)) = Except.error e →
        exec (.vmrg w) s = .next (capEnds 8 e u)) ∧
      (∀ first rest, good → (List.range v.scount).mapM (fun i => readRows u v (src + i * one)) = Except.ok (first :: rest) →
        foldShards v rest (first.map (fun r => { r with thr := v.thr }), 0) = none →
        exec (.vmrg w) s = .next (capEnds (8 + 2 * v.rows * v.scount) (ending 6 u) u)))) ∧
  (∀ w s v first rest rs f, capIssues (.vmrg w) s = true →
    let u := drainCap s
    let one := v.rows * v.stride
    let src := off (capB u w)
    readVcb u (off (capA u w)) = .ok v → v.ok = true → lies u v.state one → lies u src (v.scount * one) →
    (src = v.state ∨ src + v.scount * one ≤ v.state ∨ v.state + one ≤ src) →
    (List.range v.scount).mapM (fun i => readRows u v (src + i * one)) = Except.ok (first :: rest) →
    foldShards v rest (first.map (fun r => { r with thr := v.thr }), 0) = some (rs, f) →
    exec (.vmrg w) s = .next (capGoes w (8 + 2 * v.rows * v.scount) (orFlagsOf (writeRows u v rs) (capCord u) f))) ∧
  util .vclr (fun v => 2 + v.rows) (fun _ u v => lies u v.state (v.rows * v.stride)) false (fun _ u v _ =>
    let t := writeRows u v (List.replicate v.rows v.initRow)
    let c := getCord t (capCord t)
    setCord t (capCord t) { c with vstat := { c.vstat with resume := 0xFFFF } }) ∧
  util .vheap (fun v => 2 + v.rows * v.heapk / 8) (fun w u v => lies u (off (capB u w)) (8 * v.heapk * v.rows)) true (fun w u v rs =>
    let value (r : VRow) (e : (Nat × Nat) × Nat) : Nat × Flags :=
      if w.imm.getLsbD 0 = true ∧ e.2 < r.heap.length then probOf e.1.1 r.m r.s else (e.1.1, 0)
    let all (r : VRow) : List ((Nat × Nat) × Nat) := (r.entries v.heapk).zipIdx
    let row (r : VRow) : List Byte := (r.entries v.heapk).flatMap (fun e => leBytes 4 e.2) ++ (all r).flatMap (fun e => leBytes 4 (value r e).1)
    orFlagsOf (scratchWr u (capCord u) (off (capB u w)) (rs.flatMap row)) (capCord u)
      (rs.foldl (fun f r => ((all r).map (value r)).foldl (fun f x => f ||| x.2) f) 0)) ∧
  util .vnorm (fun v => 2 + v.rows) (fun w u v => lies u (off (capB u w)) (16 * v.rows)) true (fun w u _ rs =>
    scratchWr u (capCord u) (off (capB u w)) (rs.flatMap (fun r => leBytes 4 r.m ++ leBytes 4 r.s ++ leBytes 4 r.valid ++ leBytes 4 0))) ∧
  (∀ w s, capIssues (.vstat w) s = true → exec (.vstat w) s = .next (capGoes w 2 (putC s w.d
    (let x := (getCord s (capCord s)).vstat
     BitVec.ofNat 64 (x.tiles.toNat + 2 ^ 16 * x.resume.toNat + 2 ^ 32 * x.status.toNat)))))

/-! ### What happens beside the words -/

/-- The events of a strand (R14 to R16, R22, R68, R148, R204, R251, R317, R328, R345, R346, R356, R360, R361, R363): a header that passes its
checks begins its clause for the selected group, at the word at which the group stands; one that fails them traps ILLCL; TEND is seen first;
a trap that is due is taken, and a strand that STICKY holds begins no clause; a result is written, and a lane whose data carried an error is
parked at its word; the stores of the oldest word commit; parked lanes trap when they are due; a sleep that has run out ends; a waiting SIGR
completes where the signal is at most its bound, and else waits on; a waiting TSPN goes on with its records; a search reports a cycle that
it finds and that is new; an unassigned opcode traps UNDEF. When a CHAN or TAIL counts as accepted for AQ is the model's choice (log entry
35), and so are the turns in which these events take place (log entry 12). -/
def Obligations.StrandEventsComplete : Prop :=
  let runs (s : State) : Prop := betweenClauses s = true ∧ (myCord s).tend = false ∧ (myCord s).stopping = false ∧
    ((me s).stickyHeld = false ∨ inHandler s = true)
  let begins (r : DWord) (pc : VAddr) (w : Nat) (g : LaneMask) (t : State) : State :=
    setMe t { me t with clause := some { hdr := pc, nm1 := (r.extractLsb' 0 4).toNat, word := w, act := g, group := g } }
  let selects (s : State) (l : Lane) (x : Thread) : Prop :=
    runs s ∧ (me s).waitHdr = none ∧ (me s).handler = none ∧ takeDue s = none ∧ (me s).select = some l ∧ x = (me s).threads.get l ∧ x.hi = 0
  let after (s : State) : State := setMe s { me s with sel := (me s).sel + 1 }
  (∀ s l x r t, selects s l x → x.place = none → strandFetch (after s) x.pc = .word r t → strandHeaderOk r = true →
    exec .clauseHeader s = .next (headerWait (begins r x.pc 0 (positionGroup (me s) l) t) (hdrWait r))) ∧
  (∀ s l x r t w, selects s l x → x.place = some w → strandFetch (after s) x.pc = .word r t →
    exec .clauseHeader s = .next (begins r x.pc w (positionGroup (me s) l) t)) ∧
  (∀ s l x r t, selects s l x → x.place = none → strandFetch (after s) x.pc = .word r t → strandHeaderOk r = false →
    exec .clauseHeader s = .next (takeTrap { t with ops := t.ops + 1 }
      { code := .illcl, cls := .precise, pc := x.pc.setWidth 64, park := positionGroup (me s) l, seq := t.ops })) ∧
  (∀ s, betweenClauses s = true → (myCord s).tend = true → exec .clauseHeader s = .next (setMe s (me s).tendStop)) ∧
  (∀ s m, runs s → (me s).waitHdr = some m → exec .clauseHeader s = .next (headerWait s m)) ∧
  (∀ s m, m.getLsbD 4 = true → issuesAccepted s (focusStrand s) = false → headerWait s m = setMe s { me s with waitHdr := some m }) ∧
  (∀ s t, runs s → (me s).waitHdr = none → (me s).handler = none → takeDue s = some t → exec .clauseHeader s = .next t) ∧
  (∀ s, betweenClauses s = true → (myCord s).tend = false → (myCord s).stopping = false → (me s).stickyHeld = true → inHandler s = false →
    exec .clauseHeader s = .next (if (me s).waitHdr.isSome then s else (takeDue s).getD s)) ∧
  (∀ s e, (me s).pend[s.focus.ix]? = some e →
    exec .longLatencyResult s = .next { betweenWords (settle s [e] (lDel (me s).pend s.focus.ix)) with free := s.free + 1 }) ∧
  (∀ s e l a keep, e.poison = [(l, a)] → (me s).handler = none →
    let x := (me (settle s [e] keep)).threads.get l
    x.st = .parked (.fault .poison a 0 s.ops) ∧ x.pc = e.pc ∧ x.place = some e.word) ∧
  (∀ s c, curClause? s = some c → c.act ≠ 0 → (me s).split ≠ some 0 → betweenWords s = s) ∧
  (∀ s c, curClause? s = some c → c.act = 0 → curClause? (betweenWords s) = none) ∧
  (∀ s, s.focus.strand < 32 → exec .storeCommit s = .next ((firstStore (me s).stores).1.foldl
    (fun t q => commitStore t (focusStrand s / 512) (focusStrand s / 32) (.strand (focusStrand s)) q)
    (setMe s { me s with stores := (firstStore (me s).stores).2 }))) ∧
  (∀ s r q qs, 32 ≤ s.focus.strand → (myCore s).run = some r → r.stores = q :: qs →
    exec .storeCommit s = .next (commitStore (setRun s { r with stores := qs }) s.focus.core r.call.cord (.engine r.call.cord) q)) ∧
  (∀ s, inHandler s = false → (me s).ended = false → deferredDue s = true → exec .deferredQuiesce s = .next (takeDeferred s)) ∧
  (∀ s, ((me s).threads.get (laneOfNat s.focus.ix)).st = .parked (.sleep 0) → ∃ t : Strand, exec .sleepExpiry s = .next (setMe s t) ∧
    t = { me s with threads := t.threads } ∧
    ∀ l, t.threads.get l = (let x := (me s).threads.get l
      let y := (me s).threads.get (laneOfNat s.focus.ix)
      if x.st = .parked (.sleep 0) ∧ x.pc = y.pc ∧ x.place = y.place then { x with st := .ready } else x)) ∧
  (∀ s w t l, myStall s = some .sigr → mayGoOn s = true → wordHere s = some (.sigr w, t) → issues (.sigr w) t = true →
    lowestLane (enabled t w) = some l →
    let u := issued (.sigr w) t
    (signalGood w l u = true → aboveBound w l u = false → exec .sigrWake s = .next (goneOn w.sw (signalRead w l u))) ∧
    (signalGood w l u = true → aboveBound w l u = true → exec .sigrWake s = .next (stallAt .sigr u)) ∧
    (signalGood w l u = false → exec .sigrWake s = .next (goneOn w.sw (signalFaults w l u)))) ∧
  (∀ s n w t, myStall s = some (.tspn n) → mayGoOn s = true → wordHere s = some (.tspn w, t) → issues (.tspn w) t = true →
    let u := issued (.tspn w) t
    spawning w u ≠ [] →
    ((spawned w u).2.stop = none → exec .tspnRoom s = .next (goneOn w.sw (afterSpawn w u))) ∧
    (∀ l, (spawned w u).2.stop = some l → exec .tspnRoom s = .next (stallAt (.tspn l.val) (afterSpawn w u)))) ∧
  (∀ s, (me s).isBlocked = true → 2 ^ 20 * ((me s).searched + 1) ≤ (me s).blocked →
    let t := setMe s { me s with searched := (me s).searched + 1 }
    let found := (snagFrom t (t.strands.length + 1) [] [] (focusStrand s)).1.map fromLeast
    exec .snagSearch s = .next (match found with
      | some c => if c.all (fun k => (getStrand t k).reported.contains c) then t else reportSnag t c
      | none => t)) ∧
  (∀ s raw, (curClause? s).isSome = true → exec (.unassignedOpcode raw) s = .next (preciseTrap s .undef 0))

/-- The events of copies and calls (R64, R242 to R245, R253, R254, R256, R260, R261, R280, R281, R284, R374): an issued copy is accepted,
its pages are paged in, and it completes when its rows have moved or it has failed, with its write-back, its sequence number, its token and
its action; an issued call enters the chain, and the free capstan starts the one whose turn it is, a restored one where it stood; a header
that passes begins a clause; a call that waits in CWAIT tests its signal again; an ended call completes; a call over its budget is reset,
and completes in no other way; a slot that a pass of the word in progress reads (MMA's and MMAR's behind their checks, MGRP's behind its
load, the chunk's in a tile of VPROJ, VRES and VPRJB) and whose parity fails is reloaded, or ends the call with CLAYERR. What
a queued call reports at MRESET and that a bad ENTRY fails at the start are the model's choices (log 37), and so are that labels move at the
completion (log 34), what a walk's DESC traps (log 35) and the turns of these events (log 12). -/
def Obligations.CopyAndCallEventsComplete : Prop :=
  let runs (s : State) (r : RunCall) : Prop := myRun? s = some r
  let stands (s : State) : Prop := ∃ r, runs s r ∧ r.clause = none
  let waited (r : DWord) (t : State) : State :=
    let u := if (hdrWait r).getLsbD 0 then settleCap t else t
    if (hdrWait r).getLsbD 1 then drainCap u else u
  (∀ s op ch a, (myCore s).issuedCp[s.focus.ix]? = some op → op.src = .chain ch a →
    exec .copyAccept s = .next (reachRecord s s.focus.core s.focus.ix op ch)) ∧
  (∀ s op, (myCore s).issuedCp[s.focus.ix]? = some op → (∀ ch a, op.src ≠ .chain ch a) →
    exec .copyAccept s = .next (takeCopy (setMyCore s { myCore s with issuedCp := lDel (myCore s).issuedCp s.focus.ix }) op)) ∧
  (∀ s op t op' i x, (myCore s).copies[s.focus.ix]? = some op → op.status = none → s.focus.row < op.rows →
    pinRow s op s.focus.row = .ok (t, op') → pageDue t op' s.focus.row = some (i, x) →
    let job := (opAgent t op').job
    let page := op'.srcRow s.focus.row / 64
    let there := changeTier t job i 0
    let u := setCopy (there.getD (reclaim t job 0)) s.focus.core s.focus.ix { op' with paged := op'.paged ++ [page] }
    exec .copyPageIn s = .next { postDevice u op'.strand (BitVec.ofNat 64 (1 + (if there.isNone then 2 ^ 8 else 0) + 2 ^ 16 * (page % 2 ^ 32) +
      2 ^ 48 * (op'.src.rtag % 2 ^ 16))) with free := u.free + 1 }) ∧
  (∀ s op, (myCore s).copies[s.focus.ix]? = some op → op.status.isSome = true ∨ op.rows ≤ op.moved.length →
    let x := moveLabels s op
    let st := x.2.status.getD 0
    let t := copyAction (writeToken (writeSeq (writeBack x.1 x.2 st) x.2) x.2.strand x.2.token (BitVec.ofNat 32 st) 2) x.2
    let c := getCore t s.focus.core
    let u := noteTaken (setCore t s.focus.core { c with copies := lDel c.copies s.focus.ix }) x.2 st
    exec .copyComplete s = .next (if st = 0 then u else recordTrap u x.2.strand
      { code := copyTrap st, cls := .engine, addr := x.2.src.addr, aux := BitVec.ofNat 64 st })) ∧
  (∀ s c cs, (myCore s).issuedCl = c :: cs → exec .callAccept s = .next (
    let t := setMyCore s { myCore s with issuedCl := cs, chain := (myCore s).chain ++ [c] }
    if (myCore s).chain.length + (if (myCore s).run.isSome then 1 else 0) < 64 then (c.arr.map (engineNames t c.cord)).getD t else s)) ∧
  (∀ s c, (myCore s).run = none → (myCore s).chain[(nextCall s (myCore s)).1]? = some c →
    let x := nextCall s (myCore s)
    let entry := c.block.getD 0 0
    let n := if x.2 = true ∧ 2 ≤ (myCore s).chain.length then (myCore s).prefer + 1 else 0
    let r : RunCall :=
      { call := c, pc := entry.extractLsb' 0 56, ended := if entry.toNat % 8 = 0 ∧ vaOk entry = true then none else some { status := 8, cause := 0, addr := entry } }
    let u := setMyCore s { myCore s with chain := lDel (myCore s).chain x.1, prefer := n }
    ((myCore s).resumed.find? (fun e => e.run.call.id == c.id) = none →
      exec .callStart s = .next (setMyCore s { myCore s with chain := lDel (myCore s).chain x.1, prefer := n, run := some r })) ∧
    (∀ p, (myCore s).resumed.find? (fun e => e.run.call.id == c.id) = some p →
      exec .callStart s = .next (resumeCall u s.focus.core p.run p.clay))) ∧
  (∀ s r t, stands s → capFetch s (myRun s).pc = .word r t → capstanHeaderOk r = true →
    exec .capstanClauseHeader s = .next (
      let c : Clause := { hdr := (myRun s).pc, nm1 := (r.extractLsb' 0 4).toNat, word := 0, act := 0, group := 0 }
      setRun (waited r t) { myRun (waited r t) with clause := some c })) ∧
  (∀ s r t, stands s → capFetch s (myRun s).pc = .word r t → capstanHeaderOk r = false → exec .capstanClauseHeader s = .next (
    endCall t { status := 1, cause := 2, addr := (myRun s).pc.setWidth 64 })) ∧
  (∀ s r p, runs s r → r.pend[s.focus.ix]? = some p → ∃ lands : Bool, (p.raced = false → lands = true) ∧ exec .cldResult s = .next
    { setRun s { r with c := if lands = false ∨ p.reg = 31 then r.c else aSet r.c p.reg p.val, pend := lDel r.pend s.focus.ix } with
      free := s.free + 1 }) ∧
  (∀ s r w t, runs s r → r.waiting = true → r.spent ≤ callBudget s r.call.cord → capWord s = some (.cwait w, t) → capIssues (.cwait w) t = true →
    exec .cwaitWake s = .next (waitOrGo w t)) ∧
  (∀ s r e, (myCore s).run = some r → r.ended = some e → r.spent ≤ callBudget s r.call.cord → exec .callComplete s = .next (
    let t := drainCap s
    finishCall (setMyCore t { myCore t with run := none }) s.focus.core r.call r.seqAddr e)) ∧
  (∀ s r, (myCore s).run = some r → callBudget s r.call.cord < r.spent → exec .callComplete s = .next s) ∧
  (∀ s r, (myCore s).run = some r → callBudget s r.call.cord < r.spent →
    let t := drainCap (settleCap s)
    let cords := r.call.cord :: (myCore t).chain.map (·.cord)
    let u := setMyCore t (cords.foldl unownMatrix { myCore t with run := none, chain := [], resumed := [] })
    let v := reloadOthers (cords.foldl (fun t k => setCord t k (zeroSilt (getCord t k))) u) s.focus.core
    let x := finishCall v s.focus.core r.call r.seqAddr { status := 2, cause := 0, addr := (capAddr r).setWidth 64 }
    exec .mreset s = .next ((myCore t).chain.foldl (fun x c => match (myCore t).resumed.find? (fun e => e.run.call.id == c.id) with
      | none => finishCall x s.focus.core c none { status := 2, cause := 0, addr := c.block.getD 0 0 }
      | some e => finishCall x s.focus.core c e.run.seqAddr { status := 2, cause := 0, addr := (capAddr e.run).setWidth 64 }) x)) ∧
  (∀ s w sh k m, let u := drainCap s
    shapeOf (capB u w) true = some sh →
    passOf (.mma w) k m s = (if passRefused u sh none ((capA u w).toNat % 2 ^ 32) sh.sb 0 sh.ar then none else some ⟨u, sh.slots, u⟩) ∧
    passOf (.mmar w) k m s = (if passRefused u sh (some (w.imm.toNat % 4)) ((capA u w).toNat % 2 ^ 32) sh.sb (64 * (w.imm.toNat / 4 % 4)) sh.ar
      then none else some ⟨u, sh.slots, u⟩)) ∧
  (∀ s w x sh q n t k m, let u := drainCap s
    groupAt w u = some x → shapeOf x.shape true = some sh → nextGroup (capCells u) x.tab sh.ar x.q = some q →
    let e := groupRow (capCells u) (x.tab + 16 * q)
    let o := x.aoff + x.a * sh.pitchA
    groupLoad u x.shape sh w.imm.toNat o x.a e = some (n, t) → passRefused t sh e.knotOf o e.srow (e.label x.a) e.count = false →
    passOf (.mgrp w) k m s = some ⟨t, sh.slots, t⟩) ∧
  (∀ s w x r k m, let u := drainCap s
    weightRows u x.ctx (1024 * x.tile) (x.ctx.v.width x.tile) = .ok r → k < x.ctx.v.chunks →
    let makes (i : Instr) : Prop := ∃ p, passOf i k m s = some p ∧ p.slots = chunkKeys x.ctx k r.1.length
    (nextTile (vprojStart w) u = some x → makes (.vproj w)) ∧
    (nextTile (vresStart w) u = some x → (rethreshold x.ctx.v x.rows).isSome = true → makes (.vres w)) ∧
    (nextTile (vprjbStart w) u = some x → makes (.vprjb w))) ∧
  (∀ s r i t, runs s r → r.clause.isSome = true → r.spent ≤ callBudget s r.call.cord → capWord s = some (i, t) →
    let slot := (s.focus.ix % 8, s.focus.row % 16)
    let key := 16 * (s.focus.ix % 8) + s.focus.row % 16
    let put (s : State) (y : ClaySlot) : State := setMyCore s { myCore s with clay := aSet (myCore s).clay key y }
    (∀ p, passOf i (s.focus.ix / 8) (s.focus.row % 16) s = some p → slot ∈ p.slots →
      let x := aGet {} (myCore p.read).clay key
      exec .clayParityFailure s = .next ((reloadSlot p.read key x).elim
        (endCall (put p.left { x with bad := true }) { status := 3, cause := 0, addr := (capAddr (myRun p.left)).setWidth 64 })
        (fun y => countErrors (if aGet? (myCore s).clay key = some x then put s y else s) 1 0))) ∧
    ((∀ p, passOf i (s.focus.ix / 8) (s.focus.row % 16) s = some p → slot ∉ p.slots) → exec .clayParityFailure s = .next s)) ∧
  (∀ s, exec .clayMacroSpare s = .next (if (myCore s).run.isSome then s else setMyCore s { myCore s with macros := (myCore s).macros - 1 })) ∧
  (∀ s r raw, runs s r → r.clause.isSome = true → exec (.unassignedCapstanOpcode raw) s = .next (
    endCall s { status := 1, cause := 1, addr := (capAddr r).setWidth 64 }))

/-- The events of objects and tasks (R168, R215, R221, R222, R235, R320 to R326, R371 to R373, R405): where the free count has fallen below
LOW, RECLAIM ends the candidate with the least (PRI, AGE) while it is below HIGH; a dying object for which nothing is pending gives its
memory back, and its free entry links to the next; BTINV completes when no copy in flight pins a mapping of its range; a record that has
been passed 4,096 times moves to the next level, before any later decision; a decision for a core that is present and has a free slot starts
the head of the chosen FIFO, which holds the token where it is alone, or reports the one that it refuses; a task ends when nothing of its
cord is left; a stopped cord and its partner are saved, each area naming the other's record; a period adds ERATE to each valid queue's
credit, up to ECAP. The model's choices: promotions as turns of the agenda (log 12), the core of an affinity (log 42), what a save waits for
and holds (log 44), the trap that a task's end reports (log 24) and what a refused record does to its save (log 43). -/
def Obligations.ObjectAndTaskEventsComplete : Prop :=
  let due (t : State) : Host.Outcome State Fault Refusal := .next { t with agenda := duePromotions t ++ t.agenda }
  let decides (s : State) : Prop := s.focus.core < 128 ∧ s.present.getLsbD s.focus.core = true ∧ s.focus.core ∉ s.mgmt.off ∧
    ∃ i, i < 16 ∧ aGet? s.cords (16 * s.focus.core + i) = none
  let fell (s : State) : Prop := (s.focus.ix, s.focus.row) ∈ s.lowDue
  let noted (s : State) : State := { s with lowDue := s.lowDue.filter (· != (s.focus.ix, s.focus.row)) }
  (∀ s, ¬ fell s → exec .reclaim s = .next s) ∧
  (∀ s, fell s → let t := returnAll (noted s) s.focus.ix
    highMark t s.focus.ix s.focus.row ≤ freeFrames t s.focus.ix s.focus.row ∨ candidateOf t s.focus.ix s.focus.row = none →
    exec .reclaim s = .next t) ∧
  (∀ s i o n, fell s → let t := returnAll (noted s) s.focus.ix
    freeFrames t s.focus.ix s.focus.row < highMark t s.focus.ix s.focus.row → candidateOf t s.focus.ix s.focus.row = some (i, o) →
    (aGet {} s.jobs s.focus.ix).tlen = n + 1 →
    exec .reclaim s = .next (reclaimFrom s.focus.ix s.focus.row n (returnObject (endObject t s.focus.ix i o) s.focus.ix i))) ∧
  (∀ s, mayReturn s s.focus.ix s.focus.row = true → exec .objectMemoryReturn s = .next (relink
    { setObj s s.focus.ix s.focus.row { getObj s s.focus.ix s.focus.row with st := 0, sc := 0, wc := 0 } with
      dying := s.dying.filter (· != (s.focus.ix, s.focus.row)) } s.focus.ix s.focus.row)) ∧
  (∀ s job i, (getObj s job i).st = 0 → (∀ k, k < i → (getObj s job k).st ≠ 0) →
    relink s job i = setObj s job i { getObj s job i with age := nextFree s job i }) ∧
  (∀ s b, s.btinvs[s.focus.ix]? = some b → (∀ x ∈ b.ops, stillPins s x = false) →
    exec .btinvComplete s = .next (writeToken { s with btinvs := lDel s.btinvs s.focus.ix } (b.cord * 32 + b.strand) b.token 0 4)) ∧
  (∀ s b x, s.btinvs[s.focus.ix]? = some b → x ∈ b.ops → stillPins s x = true → exec .btinvComplete s = .next s) ∧
  (∀ s r, (getFifo s s.focus.ix s.focus.row)[s.focus.slot]? = some r → 4096 ≤ r.passes → s.focus.row < 15 →
    let moved : QItem := match r.item with
      | .task t b => .task (t.atLevel (s.focus.row + 1)) b
      | .launch x => .launch x
    let t := setFifo s s.focus.ix s.focus.row (lDel (getFifo s s.focus.ix s.focus.row) s.focus.slot)
    exec .passCountPromotion s = .next (setFifo t s.focus.ix (s.focus.row + 1)
      (getFifo t s.focus.ix (s.focus.row + 1) ++ [{ item := moved, passes := 0 }]))) ∧
  (∀ s, ¬ decides s → exec .dispatchDecision s = .next s) ∧
  (∀ s l q t h rest x a u, decides s → choose s s.focus.core 16 = some (l, q, t) → getFifo t q l = h :: rest →
    headVerdict t s.focus.core q l = .alone x →
    let r := itemTask t q l h.item
    let key := affinityKey h.item r x.hdr
    let core := placedCore t s.focus.core q l key
    placeTask (popHeads t q l 1) core q l h.item r x = some (a, u) →
    exec .dispatchDecision s = due (noteVacated (noteHome (setCord u a { getCord u a with token := true }) key core) core l)) ∧
  (∀ s l q t h rest c, decides s → choose s s.focus.core 16 = some (l, q, t) → getFifo t q l = h :: rest → headVerdict t s.focus.core q l = .refused c →
    let r := itemTask t q l h.item
    exec .dispatchDecision s = due (reportEnd (discardSaved (popHeads t q l 1) r) (itemJob t q h.item) r.succ (originOf t h.item r) (some c))) ∧
  (∀ s l q t h b rest x y a a' u u', decides s → choose s s.focus.core 16 = some (l, q, t) → getFifo t q l = h :: b :: rest →
    headVerdict t s.focus.core q l = .pair x y →
    let r := itemTask t q l h.item
    let key := affinityKey h.item r x.hdr
    let core := placedCore t s.focus.core q l key
    placeTask (popHeads t q l 2) core q l h.item r x = some (a, u) → placeTask u core q l b.item (itemTask t q l b.item) y = some (a', u') →
    exec .dispatchDecision s = due (noteVacated (noteHome (makePartners u' a a' (!r.resume)) key core) core l)) ∧
  (∀ s, endReady s (focusCord s) = true →
    let k := focusCord s
    let c := myCord s
    let t := reconcile (chargeQueue (leavePartner (dropArea s k) k) k) k
    let u := flush (dropCord t k) t.focus.core 4
    exec .taskEnd s = .next (reportEnd { u with recs := u.recs.filter (fun e => e.2.2 != c.uid) } c.job c.task.succ c.origin (endTrap s k))) ∧
  (∀ s ks, (ks = match (myCord s).partner with
      | some p => if (myCord s).token then [focusCord s, p] else [p, focusCord s]
      | none => [focusCord s]) → (∀ k ∈ ks, saveReady s k = true) →
    let t := ks.foldl writeArea (ks.foldl settleCord (ks.foldl quiesceCord s))
    let u := ks.foldl dropCord t
    exec .cordSave s = .next ((ks.map (savedOf t)).reverse.foldl requeue { u with saved := u.saved ++ ks.map (savedOf t) })) ∧
  (∀ s mw, ∃ t, exec (.energyPeriod mw) s = .next t ∧ t = { s with credit := t.credit, mgmt := { s.mgmt with powernow := mw % 2 ^ 32 } } ∧
    ((s.queues.map (·.1)).Nodup → ∀ q, aGet 0 t.credit q =
      let e := aGet {} s.queues q
      let c := aGet 0 s.credit q
      if e.valid then min (max c e.ecap) (c + e.erate) else c))

/-- The events of the graph unit (R334 to R344, R354): an entry is taken in its order and RUN starts an instance, POST posts a message,
WATCH sets up a watch, and a bad entry is reported; a ready node starts once its buffers are allocated, and has the effect of its kind; a
WAIT is satisfied when its signal is at or below its bound; END_NODE and GRAPH_FAILURE write the completion signal and then the record; a
watch fires once; an advance that brings a vector's count to its threshold makes it 0 and one interrupt due, which is raised once the writes
that it covers have reached the system point. That a COPY node's whole chain runs in one event is the model's choice (log 45), and so are
where the .patch and .mplan sections stand (log 31) and status and detail in the corners that R338 and R342 do not list (log 46). -/
def Obligations.GraphEventsComplete : Prop :=
  let taken (s : State) (seq : Nat) (e : Entry) (t : State) : Prop := ∃ b, nextEntry s = some b ∧ e = Entry.ofBytes b ∧ seq = s.mgmt.srhead ∧
    t = { s with mgmt := { s.mgmt with srhead := s.mgmt.srhead + 1 } }
  let starts (s : State) (k : Nat) (g : GInst) (u : State) : Prop := ∃ g0, aGet? s.insts s.focus.ix = some g0 ∧
    s.focus.row ∈ g0.ready ∧ g0.failed = none ∧ gRd s g0 (64 * (s.focus.row + 1)) 1 = some k ∧
    u = allocFirst (setInst s s.focus.ix { g0 with ready := g0.ready.filter (· != s.focus.row), started := g0.started ++ [s.focus.row] })
      s.focus.ix s.focus.row ∧ aGet? u.insts s.focus.ix = some g ∧ g.failed = none
  let word (s : State) (g : GInst) (u : State) (o n v : Nat) : Prop := gRd u g (64 * (s.focus.row + 1) + o) n = some v
  let done (s u : State) : Host.Outcome State Fault Refusal := .next (completeNode u s.focus.ix s.focus.row)
  (∀ s seq e t, taken s seq e t → e.kind = 0 → jobLive t e.job = true → queueBound t e.queue e.job = true →
    (∀ x ∈ t.insts, ¬ (x.2.addr = e.target ∧ x.2.job = e.job)) →
    let g : GInst := { addr := e.target, job := e.job, queue := e.queue, level := e.pri, csig := e.csig, tag := e.tag, seq := seq }
    exec .run s = .next (startInst (setInst { t with instSeq := t.instSeq + 1 } t.instSeq g) t.instSeq e.value)) ∧
  (∀ s seq e t, taken s seq e t → e.kind = 0 → jobLive t e.job = false ∨ queueBound t e.queue e.job = false →
    exec .run s = .next (putRecord t seq 0 5 0 e.tag 0)) ∧
  (∀ s seq e t, taken s seq e t → e.kind = 1 → jobLive t e.job = true → exec .post s = .next (
    (postToTask t e.job e.target e.strand e.value).elim (putRecord t seq 1 6 0 e.tag 0) (fun u => putRecord u seq 1 0 0 e.tag 0))) ∧
  (∀ s seq e t, taken s seq e t → e.kind = 2 → jobLive t e.job = true → t.watches.length < 256 → targetThere t e.job e.target e.strand = true →
    let w : Watch := { job := e.job, target := e.target, strand := e.strand, signal := e.value, bound := e.csig, tag := e.tag, seq := seq }
    exec .watch s = .next { t with watches := t.watches ++ [w] }) ∧
  (∀ s seq e t, taken s seq e t → 2 < e.kind → exec .badentry s = .next (putRecord t seq e.kind 5 0 e.tag 0)) ∧
  (∀ s w, s.watches[s.focus.ix]? = some w → targetThere s w.job w.target w.strand = true → w.signal.toNat % 8 = 0 →
    let t := { s with watches := lDel s.watches s.focus.ix }
    let high : DWord := w.tag <<< 8
    ∀ p, unitPlace s w.job w.signal 8 .rd = some p →
    exec .watchFire s = .next (
      if (BitVec.ofNat 64 (leNat (devRdN s p.key 8))).toInt ≤ w.bound.toInt then
        (postToTask t w.job w.target w.strand (high ||| 4)).elim (putRecord t w.seq 2 6 0 w.tag 0)
          (fun u => putRecord u w.seq 2 0 0 w.tag 0)
      else s)) ∧
  (∀ s g u kh arg counts, starts s 0 g u → word s g u 16 8 kh → word s g u 24 8 arg →
    (List.range 6).mapM (fun k => gRd u g (64 * (s.focus.row + 1) + 32 + 4 * k) 4) = some counts →
    0 ∉ counts → counts.foldl (· * ·) 1 < 2 ^ 32 →
    (∀ b, (graphAgent g.job).read u (BitVec.ofNat 64 kh) 0 64 = .bytes b → ∀ k, k < 6 → counts.getD k 1 ≤ 2 ^ leAt b (20 + k) 1) →
    exec .kernelNode s = .next (pushItem
      (setInst { u with ops := u.ops + 1 } s.focus.ix { g with live := aSet g.live s.focus.row (counts.foldl (· * ·) 1) }) g.queue g.level
      (.launch { inst := s.focus.ix, node := s.focus.row, khdr := BitVec.ofNat 64 kh, arg := BitVec.ofNat 64 arg, counts := counts, lid := u.ops }))) ∧
  (∀ s g u h t, starts s 1 g u → word s g u 16 8 h → word s g u 24 8 t → h % 64 = 0 → t % 64 = 0 →
    let r := nodeWalk g s.focus.ix s.focus.row (BitVec.ofNat 64 t) (2 ^ 20) (BitVec.ofNat 64 h) 0 u
    exec .copyNode s = if r.1 = 0 then done s r.2 else .next (failNode r.2 s.focus.ix s.focus.row 2 (copyTrap r.1).num)) ∧
  (∀ s g u a v p q, starts s 2 g u → word s g u 16 8 a → word s g u 24 8 v → graphWord u g (BitVec.ofNat 64 a) 8 .rd = some p →
    graphWord u g (BitVec.ofNat 64 a) 8 .wr = some q → exec .signalNode s = done s (subSignal u none p v)) ∧
  (∀ s g u a v p, starts s 3 g u → word s g u 16 8 a → word s g u 24 8 v → graphWord u g (BitVec.ofNat 64 a) 8 .rd = some p →
    exec .waitNode s = .next (setInst u s.focus.ix { g with waits := g.waits ++
      [{ node := s.focus.row, addr := BitVec.ofNat 64 a, bound := BitVec.ofNat 64 v }] })) ∧
  (∀ s g w p, aGet? s.insts s.focus.ix = some g → g.waits.find? (fun w => w.node == s.focus.row) = some w →
    graphWord s g w.addr 8 .rd = some p → exec .waitNodeSatisfied s =
      if (BitVec.ofNat 64 (leNat (devRdN s p.key 8))).toInt ≤ w.bound.toInt then
        done s (setInst s s.focus.ix { g with waits := g.waits.filter (fun w => w.node != s.focus.row) })
      else .next s) ∧
  (∀ s g u a mx setO setN iter p, starts s 4 g u → word s g u 16 8 a → word s g u 30 2 mx → word s g u 32 4 setO → word s g u 36 2 setN →
    word s g u 38 2 iter → graphWord u g (BitVec.ofNat 64 a) 4 .rd = some p →
    let again := leNat (devRdN u p.key 4) ≠ 0 ∧ iter + 1 < (if mx = 0 then 65535 else mx)
    (¬ again → exec .condNode s = done s (orBad u s.focus.ix (gWr u g (64 * (s.focus.row + 1) + 38) 2 0))) ∧
    (∀ l, again → gList u g setO setN = some l → exec .condNode s = .next (
      let t := l.foldl (rearm s.focus.ix) (orBad u s.focus.ix (gWr u g (64 * (s.focus.row + 1) + 38) 2 (iter + 1)))
      dropLast (dropNode (decList t s.focus.ix s.focus.row 24 28) s.focus.ix s.focus.row) s.focus.ix s.focus.row))) ∧
  (∀ s g u v f, starts s 5 g u → word s g u 16 2 v → word s g u 18 1 f → v ≤ 63 →
    let n := aGet 0 u.vecCount v + 1
    let r : RingEnt := aGet {} u.rings v
    exec .notifyNode s = done s (
      if r.n ≠ 0 ∧ r.n ≤ n then { u with vecCount := aSet u.vecCount v 0, dueIrq := u.dueIrq ++ [v] }
      else if f % 2 = 1 then raiseIrq (flushSys { u with vecCount := aSet u.vecCount v 0 }) v
      else { u with vecCount := aSet u.vecCount v n })) ∧
  (∀ s g h, aGet? s.insts s.focus.ix = some g → g.failed = none → g.started = [] → g.ready = [s.focus.row] →
    gRd s g (64 * (s.focus.row + 1)) 1 = some 6 →
    let t := dropLast (allocFirst s s.focus.ix s.focus.row) s.focus.ix s.focus.row
    aGet? t.insts s.focus.ix = some h → h.failed = none →
    exec .endNode s = .next (finishInst t s.focus.ix 0 0 0 none)) ∧
  (∀ s g st tr n, aGet? s.insts s.focus.ix = some g → g.failed = some (st, tr, n) → g.started = [] →
    exec .graphFailure s = .next (finishInst s s.focus.ix st tr n (some (2 ^ 63 + st * 2 ^ 8 + tr)))) ∧
  (∀ s i g st tr n put, aGet? s.insts i = some g → finishInst s i st tr n put =
    let u := writeCsig (dropLast s i wholeInst) g put
    putRecord { u with insts := aDel u.insts i } g.seq 0 st tr g.tag n) ∧
  (∀ s g put, g.csig = 0 → writeCsig s g put = s) ∧
  (∀ s g v p, g.csig ≠ 0 → placeAt s none g.job g.csig 0 8 .wr = .ok p →
    writeCsig s g (some v) = flushSys (devWr (flushSys s) p.key (leBytes 8 v))) ∧
  (∀ s g p q, g.csig ≠ 0 → graphWord s g g.csig 8 .rd = some p → graphWord s g g.csig 8 .wr = some q → writeCsig s g none =
    flushSys (devWr (flushSys s) p.key (leBytes 8 (natOf 64 (leNat (devRdN s p.key 8) - 1))))) ∧
  (∀ s v, exec (.interruptThreshold v) s = .next (
    if v ∈ s.dueIrq then raiseIrq (flushSys { s with dueIrq := s.dueIrq.erase v }) v else s))

/-- Propagation, the fabric and errors (R204 to R206, R384, R386 to R389, R393, R406): one write moves one point further; an accepted fabric
operation has passed its checks, or holds the status of the first one that fails; XPUT and XGET complete when their aligned destination
words have moved, and XRED when its result has come; a contribution joins its sequence number or fails it, and the contributions are
combined when all are there, a clamped result setting OFL; what went to a peer is in its memory before the token is written; a peer's words
land at the system point, where this device's memory backs them, and nowhere in recovery; a lost port ends what can no longer travel; a
corrected error is counted, and an uncorrectable one poisons its word of memory, of a die cache or of a scratchpad, or its silt cell. The
8-byte unit of poison is the model's choice (log 32), and so are the fabric's statuses in corners that R388 does not list (log 39), which
results stay held (log 40) and that a scrub leaves every byte as it was (log 32). -/
def Obligations.FabricAndErrorsComplete : Prop :=
  let counted (s : State) (ce ue : DWord) : State :=
    { s with mgmt := { s.mgmt with errce := s.mgmt.errce + ce, errue := s.mgmt.errue + ue }, irqs := aMod 0 s.irqs 66 (· + 1) }
  let at' (s : State) (op : FabOp) : Prop := (myCore s).fabric[s.focus.ix]? = some op
  let sameUnit (a b : Nat) : Bool :=
    let n := if tierOf a = 0 then 16 else 8
    decide (a / n * n ≤ b ∧ b < a / n * n + n)
  let isDie (k : Nat) : Bool := tierOf k == 0 || tierOf k == 3
  let arrived (s : State) (core : Nat) (sent : List (Nat × Nat)) : State := sent.foldl (fun s p =>
    settleSys (settleDie (settleUp s core p.1 p.2) (dieOf core) p.1 p.2) p.1 p.2) s
  let stops (s : State) (op : FabOp) (st : Nat) : Host.Outcome State Fault Refusal :=
    .next (setFab s s.focus.core s.focus.ix { op with accepted := true, status := some st })
  let ends (s : State) (op : FabOp) (t : State) (st : Nat) : Host.Outcome State Fault Refusal :=
    let c := getCore t s.focus.core
    let u := writeToken (setCore t s.focus.core { c with fabric := lDel c.fabric s.focus.ix }) op.strand op.token (BitVec.ofNat 32 st) 5
    .next (if st = 0 then u else recordTrap u op.strand
      { code := fabTrap st, cls := .engine, addr := BitVec.ofNat 64 (2 ^ 63 + op.off), aux := BitVec.ofNat 64 st })
  (∀ s core ix w, (getCore s core).up[ix]? = some w → exec (.writePropagation (.toDie core ix)) s = .next (
    if mayMove (getCore s core).up ix then
      let t := setCore s core { getCore s core with up := lDel (getCore s core).up ix }
      if isDie w.key then devWr t w.key w.bytes
      else { t with dieUp := aSet t.dieUp (dieOf core) (aGet [] t.dieUp (dieOf core) ++ [w]),
                    dieBad := soundDie t (dieOf core) (fun p => w.key ≤ p && p + 8 ≤ w.key + w.bytes.length),
                    dieLag := aSet t.dieLag (dieOf core) (dropView (aGet [] t.dieLag (dieOf core)) w.key w.bytes.length) }
    else s)) ∧
  (∀ s die ix w, (aGet [] s.dieUp die)[ix]? = some w → exec (.writePropagation (.toDevice die ix)) s = .next (
    if mayMove (aGet [] s.dieUp die) ix then
      let t := devWr { s with dieUp := aSet s.dieUp die (lDel (aGet [] s.dieUp die) ix) } w.key w.bytes
      let bad := (dieBadWords s die).filter (fun p => w.touches p 8)
      if bad = [] then t else { t with poisoned := t.poisoned ++ bad.filter (fun p => !t.poisoned.contains p) }
    else s)) ∧
  (∀ s ix w, s.sysUp[ix]? = some w → exec (.writePropagation (.toSystem ix)) s = .next (
    if mayMove s.sysUp ix then reachSys s w (lDel s.sysUp ix) else s)) ∧
  (∀ s core key, ∃ t, exec (.writePropagation (.viewRefresh core key)) s = .next t ∧ t = { s with cores := t.cores } ∧
    ∀ k, aGet? (getCore t core).view k = if sameUnit k key then none else aGet? (getCore s core).view k) ∧
  (∀ s die key, ∃ t, exec (.writePropagation (.dieRefresh die key)) s = .next t ∧ t = { s with dieLag := t.dieLag } ∧
    ∀ k, aGet? (aGet [] t.dieLag die) k = if sameUnit k key then none else aGet? (aGet [] s.dieLag die) k) ∧
  (∀ s op, at' s op → op.accepted = false → op.block = [] → exec .fabricAccept s = stops s op 1) ∧
  (∀ s op, at' s op → op.accepted = false → op.block ≠ [] → op.bad = true → exec .fabricAccept s = stops s op 4) ∧
  (∀ s op, at' s op → op.accepted = false → op.block ≠ [] → op.bad = false → fabOut s op = true → exec .fabricAccept s = stops s op 1) ∧
  (∀ s op, at' s op → op.accepted = false → op.block ≠ [] → op.bad = false → fabOut s op = false →
    op.badFields = true → exec .fabricAccept s = stops s op 2) ∧
  (∀ s op, at' s op → op.accepted = false → op.block ≠ [] → op.bad = false → fabOut s op = false →
    op.badFields = false → exec .fabricAccept s = .next (
      if op.kind = .xred then acceptRed s s.focus.core s.focus.ix op else setFab s s.focus.core s.focus.ix { op with accepted := true })) ∧
  (∀ s op, at' s op → op.accepted = true → op.kind ≠ .xred →
    let r := moveWords (List.range op.words) s op
    exec .fabricComplete s = ends s op (arrived r.1 s.focus.core r.2.sent) (r.2.status.getD 0)) ∧
  (∀ op : FabOp, op.kind = .xget ∨ isHandle op.fb.far = false → op.words = (op.fb.len +
    (if op.kind = .xput then op.fb.far else op.fb.loc).toNat % 8 + 7) / 8) ∧
  (∀ s op st, at' s op → op.accepted = true → op.kind = .xred → op.status = some st →
    exec .fabricComplete s = ends s op (arrived s s.focus.core op.sent) st) ∧
  (∀ s i r, findRed s s.focus.ix s.focus.row = some i → s.reds[i]? = some r → r.bad = false → r.result = none →
    1 ≤ (aGet {} s.groups s.focus.ix).n → (aGet {} s.groups s.focus.ix).n ≤ r.parts.length →
    let t := { s with reds := lDel s.reds i ++ [{ r with parts := [], result := some (combine r) }] }
    exec .xredCombine s = .next ((redWaiters t s.focus.ix s.focus.row).foldl (fun u w => deliver u w.1 w.2 (combine r)) (dropOld t s.focus.ix))) ∧
  (∀ s key bs, s.mgmt.state ≠ 3 →
    let open' : Prop := ∀ i, i < bs.length → tierOf (key + i) ≤ 1 ∧ backed s (tierOf (key + i)) (paOf (key + i)) = true ∧
      (tierOf (key + i) = 1 → (key + i) / 2 ^ 48 % 2 ^ 24 ∈ s.mgmt.keys)
    (open' → exec (.tirralFlit (.put key bs)) s = .next (settleSys (devWr s key bs) key bs.length)) ∧
    (¬ open' → exec (.tirralFlit (.put key bs)) s = .next s)) ∧
  (∀ s f, s.mgmt.state = 3 → exec (.tirralFlit f) s = .next s) ∧
  (∀ s key n, exec (.tirralFlit (.get key n)) s = .next s) ∧
  (∀ s g q op xs, s.mgmt.state ≠ 3 → findRed s g q = none → exec (.tirralFlit (.contribution g q op xs)) s =
    .next { s with reds := { group := g, seq := q, op := op, len := xs.length, parts := [xs] } :: s.reds }) ∧
  (∀ s g q op xs i r, s.mgmt.state ≠ 3 → findRed s g q = some i → s.reds[i]? = some r → r.bad = false → r.result = none →
    (aGet {} s.groups r.group).n = 0 ∨ r.parts.length < (aGet {} s.groups r.group).n →
    (r.op = op ∧ r.len = xs.length → exec (.tirralFlit (.contribution g q op xs)) s =
      .next { s with reds := lSet s.reds i { r with parts := r.parts ++ [xs] } }) ∧
    (¬ (r.op = op ∧ r.len = xs.length) → exec (.tirralFlit (.contribution g q op xs)) s =
      .next (failRed { s with reds := lSet s.reds i { r with bad := true } } g q))) ∧
  (∀ s core ix op res, (getCore s core).fabric[ix]? = some op →
    let t := if res.2 = true then orFlagsOf s op.cord fOFL else s
    let x := fabWrite t op true op.fb.far 0 ((res.1.take op.fb.len).flatMap (fun v => leBytes 8 v.toNat))
    (∀ u far, x = .ok (u, far) → deliver s core ix res = setFab u core ix { op with status := some 0, sent := far }) ∧
    (∀ e, x = .error e → deliver s core ix res = setFab t core ix { op with status := some e })) ∧
  (∀ s core ix op, s.mgmt.state ≠ 3 → (getCore s core).fabric[ix]? = some op → op.accepted = true → op.status = none →
    exec (.tirralFlit (.unreachable core ix)) s = .next (setFab s core ix { op with status := some 5 })) ∧
  (∀ s p, exec (.flitRetransmit p) s = .next (counted s 1 0)) ∧
  (∀ s p, p < 8 → p ∉ s.portsLost → ∃ t, exec (.tirralPortFailure p true) s = .next t ∧ t.portsLost = s.portsLost ++ [p] ∧
    t = { s with portsLost := t.portsLost, cores := t.cores } ∧
    ∀ k, (getCore t k).fabric = (getCore s k).fabric.map (fun o =>
      if cutOff { s with portsLost := s.portsLost ++ [p] } o = true then { o with status := some 5 } else o)) ∧
  (∀ s p, p < 8 → p ∉ s.portsNarrow → exec (.tirralPortFailure p false) s = .next { s with portsNarrow := s.portsNarrow ++ [p] }) ∧
  (∀ s key b, exec (.eccCorrected key b) s = .next (counted s 1 0)) ∧
  (∀ s key, tierOf key < padTier → exec (.uncorrectableError key) s = .next (
    let t := counted s 0 1
    if key / 8 * 8 ∈ s.poisoned then t else { t with poisoned := s.poisoned ++ [key / 8 * 8] })) ∧
  (∀ s key, tierOf key = padTier →
    let cord := key / 2 ^ 32 % 2048
    let w := key % 2 ^ 32 / 8 * 8
    let t := counted s 0 1
    let c := getCord s cord
    (aGet? s.cords cord).isSome = true → w < c.hdr.scratch → w ∉ c.bad →
    exec (.uncorrectableError key) s = .next (setCord t cord { c with bad := c.bad ++ [w] })) ∧
  (∀ s key, tierOf key = siltTier →
    let cord := key / 2 ^ 32 % 2048
    let row := key % 2 ^ 32 / 1024
    let x := getSilt (getCord s cord) row
    (aGet? s.cords cord).isSome = true → row < (getCord s cord).hdr.silt →
    exec (.uncorrectableError key) s = .next (setSilt (counted s 0 1) cord row { x with pois := x.pois ||| BitVec.twoPow 1024 (key % 1024) })) ∧
  (∀ s die key, die < 4 → tierOf key = 1 ∨ tierOf key = 2 →
    let w := key / 8 * 8
    let t := keepDie (counted s 0 1) die w
    dieHolds t die w 8 = true → w ∉ dieBadWords t die → exec (.uncorrectableError (2 ^ 80 * (die + 1) + key)) s =
      .next { t with dieBad := aSet t.dieBad die (dieBadWords t die ++ [w]) }) ∧
  (∀ s core sc key n nc, poisonAt s core sc key n nc = true ↔ ∃ i, i < n ∧
    ((poisonHit s (key + i) 1 = true ∧ fromDevice s core sc (key + i) nc = true) ∨ fromBadDie s core sc (key + i) nc = true)) ∧
  (∀ s n, exec (.nearStoreScrub n) s = .next s)

/-- The commands (R200, R215, R370, R397, R398, R402 to R404, R407, R408): a command that is accepted clears WREJ, has its effect and is busy
with its status and result until COMMAND_COMPLETE; one written while BUSY is discarded, one before STATE is 2 completes with BUSY but for
FWSTAGE, and an argument out of range completes it with BADARG and changes nothing else. DEVICE_RESET leaves STATE 1 with the slot that
verifies, or 3 with none, and the bring-up goes on to STATE 2. The model's choices: COREOFF's SHORT and result, FWSWAP's VERIFY, JOBEND's
signal and the number of entries of a table (log 47), that every core is present and every port at full width after the bring-up (log
48), what a port's training finds (log 10), what a key change leaves of pool memory (log 5), and the keys and parts of images (log 7). -/
def Obligations.CommandsComplete : Prop :=
  let all : List (Instr × Nat) := [(.inval, 1), (.reload, 2), (.jobstart, 3), (.jobend, 4), (.vacate, 5), (.withdraw, 6), (.coreoff, 7),
    (.coreon, 8), (.portrem, 9), (.portadd, 10), (.attest, 11), (.fwstage, 12), (.fwswap, 13)]
  let finish (st : Nat) (r : Word) (s : State) : State :=
    { s with mgmt := { s.mgmt with busy := false, running := none, status := st, result := r }, irqs := aMod 0 s.irqs 65 (· + 1) }
  let arg (s : State) (i : Nat) : Nat := (aGet 0 s.mgmt.args i).toNat
  let free (s : State) : Prop := s.mgmt.busy = false ∧ s.mgmt.state = 2
  let bad (s : State) : Host.Outcome State Fault Refusal := .next (finish 1 0 s)
  let busy (s : State) (n st r : Nat) (t : State) : Host.Outcome State Fault Refusal :=
    .next { t with mgmt := { t.mgmt with wrej := false, busy := true, running := some (n, st, BitVec.ofNat 32 r), runArgs := s.mgmt.args } }
  let lose (s : State) (job va len : Nat) : State :=
    { s with cores := s.cores.map (fun e => (e.1, { e.2 with tlb := e.2.tlb.filter (fun t =>
      !(t.job == job && (len == 0 || overlaps (t.vpn * (if t.big then 2 ^ 21 else 2 ^ 16)) (if t.big then 2 ^ 21 else 2 ^ 16) va len))) })) }
  let image (s : State) (slot : Nat) : List Byte := (aGet? s.mgmt.images slot).getD (Config.fwFactory slot)
  let signed (b : List Byte) : Bool := edVerify Config.vendorKey (Config.fwSigned b) (Config.fwSignature b)
  let sound (s : State) (b : List Byte) : Bool := signed b && decide (s.mgmt.rollback.toNat ≤ (Config.fwRollback b).toNat)
  let pool (p : Nat) (t : State) : State :=
    let base := (Config.poolBase t.free p).toNat
    let size := min (Config.poolSize t.free p).toNat (4096 - base)
    { t with mgmt := { t.mgmt with ports := if size = 0 then aDel t.mgmt.ports p else aSet t.mgmt.ports p (base, size) } }
  (∀ s, ∀ p ∈ all, s.mgmt.busy = true → exec p.1 s = .next s) ∧
  (∀ s, ∀ p ∈ all, s.mgmt.busy = false → s.mgmt.state ≠ 2 → p.1 ≠ .fwstage →
    exec p.1 s = .next (finish 2 0 { s with mgmt := { s.mgmt with wrej := false } })) ∧
  (∀ s, free s → exec .inval s = if 1023 < arg s 0 then bad s else busy s 1 0 0 (lose s (arg s 0) (arg s 1) (arg s 2))) ∧
  (∀ s, free s → exec .reload s = if 4 < arg s 0 ∨ [1024, 256, 256, 65536, 64].getD (arg s 0) 0 ≤ arg s 1 then bad s else
    busy s 2 0 0 (reloadEntry s (arg s 0) (arg s 1))) ∧
  (∀ s, free s → exec .jobstart s = if 1023 < arg s 0 then bad s
    else if arg s 0 ∈ s.mgmt.keys then busy s 3 2 0 s
    else
      let t := clearTable { s with jobs := aSet s.jobs (arg s 0) (readJob s (arg s 0)) } (arg s 0)
      let u := t.lines.foldl (fun t l => garble t (arg s 0) l.1 l.2) t
      busy s 3 0 0 { u with mgmt := { u.mgmt with keys := u.mgmt.keys ++ [arg s 0] } }) ∧
  (∀ s, free s → exec .jobend s = if 1023 < arg s 0 then bad s else if jobBusy s (arg s 0) then busy s 4 2 0 s else
    let sig := aGet 0 s.mgmt.args 1
    let j : JobEnt := aGet {} s.jobs (arg s 0)
    let t := zeroNear (destroyKey (flushAll s) (arg s 0)) j.nsbase (j.nslen * 2 ^ 21)
    busy s 4 0 0 ((if sig = 0 ∨ sig.toNat % 8 ≠ 0 then none else unitPlace t (arg s 0) sig 8 .wr).elim t
      (fun p => flushSys (subSignal t none p 1)))) ∧
  (∀ s, free s → exec .vacate s = if arg s 0 < 1 ∨ 128 < arg s 0 ∨ 15 < arg s 1 then bad s else
    let r := chooseCores (arg s 1) 128 (arg s 0) [] s
    busy s 5 (if r.1 < arg s 0 then 3 else 0) r.1 r.2) ∧
  (∀ s, free s → exec .withdraw s = busy s 6 0 0 { s with mgmt := { s.mgmt with vacated := [] } }) ∧
  (∀ s, free s → exec .coreoff s = if 127 < arg s 0 then bad s else
    let r := stopCords (runningCords s (arg s 0)) s
    if r.1 then busy s 7 0 (arg s 0)
      { r.2 with mgmt := { r.2.mgmt with off := if arg s 0 ∈ s.mgmt.off then s.mgmt.off else s.mgmt.off ++ [arg s 0] } }
    else busy s 7 3 (arg s 0) r.2) ∧
  (∀ s, free s → exec .coreon s = if 127 < arg s 0 then bad s else busy s 8 0 0
    { s with present := s.present ||| BitVec.twoPow 128 (arg s 0), mgmt := { s.mgmt with off := s.mgmt.off.filter (· != arg s 0) } }) ∧
  (∀ s, free s → exec .portrem s = if 11 < arg s 0 then bad s else
    busy s 9 0 0 { s with mgmt := { s.mgmt with ports := aDel s.mgmt.ports (arg s 0) } }) ∧
  (∀ s, free s → exec .portadd s = if 11 < arg s 0 then bad s else
    let t := pool (arg s 0) s
    busy s 10 0 0 { t with free := t.free + 1 }) ∧
  (∀ s, free s → exec .attest s =
    let body := reportBody s (hostRd s (aGet 0 s.mgmt.args 0) 32)
    busy s 11 0 0 (flushSys (devWr s (hostKey (arg s 1)) (body ++ edSign Config.deviceKey body)))) ∧
  (∀ s nonce, ∃ rest, rest.length = 88 ∧
    reportBody s nonce = leBytes 4 0x54414C43 ++ leBytes 4 1 ++ nonce ++ sha512 (image s s.mgmt.slot) ++ rest) ∧
  (∀ s, s.mgmt.busy = false → exec .fwstage s =
    let b := hostRd s (aGet 0 s.mgmt.args 0) (arg s 1)
    if sound s b then busy s 12 0 0 { s with mgmt := { s.mgmt with images := aSet s.mgmt.images (1 - s.mgmt.slot) b, otherOk := true } }
    else busy s 12 4 0 s) ∧
  (∀ s, free s → exec .fwswap s =
    let r := Config.fwRollback (image s (1 - s.mgmt.slot))
    if s.mgmt.otherOk then busy s 13 0 0 { s with mgmt := { s.mgmt with
      nextSlot := some (1 - s.mgmt.slot), rollback := if s.mgmt.rollback.toNat < r.toNat then r else s.mgmt.rollback } }
    else busy s 13 4 0 s) ∧
  (∀ s n st r, s.mgmt.running = some (n, st, r) → n ∉ [1, 5, 7, 9] → exec .commandComplete s = .next (finish st r s)) ∧
  (∀ s st r, s.mgmt.running = some (1, st, r) → exec .commandComplete s = .next (finish st r (lose s (aGet 0 s.mgmt.runArgs 0).toNat
    (aGet 0 s.mgmt.runArgs 1).toNat (aGet 0 s.mgmt.runArgs 2).toNat))) ∧
  (∀ s st r, s.mgmt.running = some (5, st, r) → exec .commandComplete s = .next (
    if s.cords.any (fun e => e.2.stopping) then s else finish st r s)) ∧
  (∀ s r, s.mgmt.running = some (7, 0, r) → exec .commandComplete s = .next (
    if coreCords s r.toNat = [] then finish 0 0 { s with present := s.present &&& ~~~BitVec.twoPow 128 r.toNat } else s)) ∧
  (∀ s r, s.mgmt.running = some (7, 3, r) → exec .commandComplete s = .next (finish 3 0 s)) ∧
  (∀ s st r, s.mgmt.running = some (9, st, r) → exec .commandComplete s = .next (if portQuiet s then finish st r s else s)) ∧
  (∀ s, let r := afterReset (destroyKeys (flushAll s))
    exec .deviceReset s = .next (
      let slot := s.mgmt.nextSlot.getD s.mgmt.slot
      if sound s (image s slot) then { r with mgmt := { r.mgmt with state := 1, slot := slot, otherOk := sound s (image s (1 - slot)) } }
      else if sound s (image s (1 - slot)) then { r with mgmt := { r.mgmt with state := 1, slot := 1 - slot, otherOk := false } }
      else { r with mgmt := { r.mgmt with state := 3 } })) ∧
  (∀ s, s.mgmt.state = 1 → bringUp s = { (List.range 12).foldl (fun t p => pool p t)
    { s with mem := s.mem.filter (fun e => 2 ^ 72 ≤ e.1), poisoned := s.poisoned.filter (fun p => 2 ^ 72 ≤ p), present := BitVec.allOnes 128,
             portsLost := [], portsNarrow := [], mgmt := { s.mgmt with state := 2 } } with free := s.free + 1 })

/-- The registers of the host (R212, R342, R395, R396, R405): a base or a size is accepted where its condition holds, and else the write is
discarded and WREJ is set; an accepted size creates its ring; SRTAIL and CRHEAD move within their rings; POWERCAP is held between 600 and
1500; a write at an offset is the write of the register there, and at any other offset it is discarded. That the whole of a table is read
when its base is written, that POWERCAP clamps all 64 bits, that SRTAIL may go back to SRHEAD and that an argument may be written while a
command is busy are the model's choices (log 47). -/
def Obligations.HostRegistersComplete : Prop :=
  let rejected (s : State) : State := { s with mgmt := { s.mgmt with wrej := true } }
  let check (i : DWord → Instr) (ok : State → DWord → Prop) (set : State → DWord → State) : Prop := ∀ s v,
    (ok s v → exec (i v) s = .next (set s v)) ∧ (¬ ok s v → exec (i v) s = .next (rejected s))
  let subIdle (s : State) : Prop := s.mgmt.srhead = s.mgmt.srtail ∧ s.insts = [] ∧ s.watches = [] ∧ s.records = []
  let compIdle (s : State) : Prop := s.mgmt.crhead = s.mgmt.crtail ∧ s.records = []
  let bases : List (Nat × Nat) := [(0, 0x010), (1, 0x018), (2, 0x020), (3, 0x028), (4, 0x030)]
  let commands : List (Nat × Instr) := [(1, .inval), (2, .reload), (3, .jobstart), (4, .jobend), (5, .vacate), (6, .withdraw), (7, .coreoff),
    (8, .coreon), (9, .portrem), (10, .portadd), (11, .attest), (12, .fwstage), (13, .fwswap)]
  check .srbase (fun s _ => subIdle s) (fun s v => { s with mgmt := { s.mgmt with srbase := v } }) ∧
  check .srsize (fun s v => subIdle s ∧ v.toNat ≤ 16) (fun s v => { s with mgmt := { s.mgmt with srsize := v, srhead := 0, srtail := 0 } }) ∧
  check .crbase (fun s _ => compIdle s) (fun s v => { s with mgmt := { s.mgmt with crbase := v } }) ∧
  check .crsize (fun s v => compIdle s ∧ v.toNat ≤ 16) (fun s v => { s with mgmt := { s.mgmt with crsize := v, crhead := 0, crtail := 0 } }) ∧
  (∀ s v, s.mgmt.srsize = 0 → exec (.srtail v) s = .next s) ∧
  (∀ s v, s.mgmt.srsize ≠ 0 → exec (.srtail v) s = .next (
    if s.mgmt.srhead ≤ v.toNat ∧ v.toNat ≤ s.mgmt.srhead + 2 ^ s.mgmt.srsize.toNat then { s with mgmt := { s.mgmt with srtail := v.toNat } }
    else rejected s)) ∧
  (∀ s v, exec (.crhead v) s = .next (
    if s.mgmt.crhead ≤ v.toNat ∧ v.toNat ≤ s.mgmt.crtail then
      flushRecords (s.records.length + 1) { s with mgmt := { s.mgmt with crhead := v.toNat } }
    else rejected s)) ∧
  (∀ s v, exec (.powercap v) s = .next { s with mgmt := { s.mgmt with
    powercap := if v.toNat < 600 then 600 else if 1500 < v.toNat then 1500 else v.toNat } }) ∧
  (∀ s v t, 4 < t → exec (.tableBaseWrite t v) s = .next s) ∧
  (∀ s v, ∀ b ∈ bases, noTask s = true → exec (.tableBaseWrite b.1 v) s = .next (loadTable { s with mgmt := setTableBase s.mgmt b.1 v } b.1)) ∧
  (∀ s v, ∀ b ∈ bases, noTask s = false → exec (.tableBaseWrite b.1 v) s = .next (rejected s)) ∧
  (∀ s v, ∀ b ∈ bases, exec (.registerWrite b.2 v) s = exec (.tableBaseWrite b.1 v) s) ∧
  (∀ s v, exec (.registerWrite 0x040 v) s = exec (.srbase v) s ∧ exec (.registerWrite 0x048 v) s = exec (.srsize v) s ∧
    exec (.registerWrite 0x050 v) s = exec (.srtail v) s ∧ exec (.registerWrite 0x060 v) s = exec (.crbase v) s ∧
    exec (.registerWrite 0x068 v) s = exec (.crsize v) s ∧ exec (.registerWrite 0x078 v) s = exec (.crhead v) s ∧
    exec (.registerWrite 0x0B0 v) s = exec (.powercap v) s) ∧
  (∀ s v i, i < 4 → exec (.registerWrite (0x088 + 8 * i) v) s = .next { s with mgmt := { s.mgmt with args := aSet s.mgmt.args i v } }) ∧
  (∀ s v, ∀ p ∈ commands, v.toNat % 256 = p.1 → exec (.registerWrite 0x080 v) s = exec p.2 s) ∧
  (∀ s v off, off ∉ [0x010, 0x018, 0x020, 0x028, 0x030, 0x040, 0x048, 0x050, 0x060, 0x068, 0x078, 0x080, 0x088, 0x090, 0x098, 0x0A0, 0x0B0] →
    exec (.registerWrite off v) s = .next s)

/-! ### Encodings -/

/-- Every instruction that has an encoding has one of eight bytes, and where it is well formed the decoder of its stream reads it back from
those bytes, whatever follows them (R17, R61, R65, R67). -/
def Obligations.DecodeEncode : Prop :=
  ∀ i : Instr, ((strandForm i).isSome ∨ (capstanForm i).isSome ∨ (∃ r, i = .unassignedOpcode r) ∨ (∃ r, i = .unassignedCapstanOpcode r)) →
    ∃ bs, encode i = some bs ∧ bs.length = 8 ∧ (i.wf = true → ∀ rest, decodeBytes i.isCapstan (bs ++ rest) = .instr i)

/-- What the decoder reads is well formed, belongs to the stream that was decoded, and its encoding is the bytes that were read. -/
def Obligations.EncodeDecode : Prop :=
  ∀ capstan bs i, decodeBytes capstan bs = .instr i →
    i.wf = true ∧ i.isCapstan = capstan ∧ ∃ word rest, encode i = some word ∧ bs = word ++ rest

/-- Words of the spec's worked encodings decode to the instructions that they stand for (R17, R61). -/
def Obligations.DecodedWords : Prop :=
  let x : SWord := { sw := false, gp := 7, gi := false, ty := .s32, d := 0, a := 0, b := 0, c := 0, imm := 0 }
  let y : CWord := { sw := false, cond := 0, d := 0, a := 0, b := 0, c := 0, imm := 0 }
  decodeStrand 0x000300FF01020E0B = .instr (.imul { x with d := 2, a := 1, b := 0xFF, imm := 3 }) ∧
  decodeStrand 0x0000040605044333 = .instr (.ffma { x with d := 4, a := 5, b := 6, c := 4, ty := .f32, gp := 1, sw := true }) ∧
  decodeStrand 0x000500FF01021408 = .instr (.iadd { x with d := 2, a := 1, b := 0xFF, imm := 5, gp := 2, gi := true }) ∧
  decodeStrand 0x04020001C2084F80 = .instr (.ld { x with d := 8, a := 0xC2, b := 1, imm := 0x0402, ty := .f32, sw := true }) ∧
  decodeStrand 0xFFFD000000C40E7C = .instr (.bdec { x with d := 0xC4, imm := 0xFFFD }) ∧
  decodeStrand 0x0000000004000E76 = .instr (.meet { x with a := 4 }) ∧
  decodeStrand 0x0003000000C40EB1 = .instr (.bara { x with d := 0xC4, imm := 3 }) ∧
  decodeCapstan 0x0000000008230003 = .instr (.cadd { y with d := 3, a := 1, b := 2 }) ∧
  decodeCapstan 0x000300000000020B = .instr (.cbr { y with cond := 1, imm := 3 }) ∧
  decodeStrand 0x0000000001021E08 = .reject .illop ∧
  decodeStrand 0x0000000000001F4F = .instr (.unassignedOpcode 0x0000000000001F4F)

/-! ### Words and headers that are refused -/

/-- Every unassigned opcode is decided by OP alone: of a strand it traps UNDEF, precisely; of the capstan it ends the call with status 1
and cause UNDEF (R68). -/
def Obligations.UnassignedOpcodesTrap : Prop :=
  let strands (op : Nat) : Prop := (0x4E ≤ op ∧ op ≤ 0x4F) ∨ (0x5A ≤ op ∧ op ≤ 0x5F) ∨ (0x6B ≤ op ∧ op ≤ 0x6F) ∨ (0x7D ≤ op ∧ op ≤ 0x7F) ∨
    (0x9A ≤ op ∧ op ≤ 0x9F) ∨ (0xAD ≤ op ∧ op ≤ 0xAF) ∨ (0xBB ≤ op ∧ op ≤ 0xBF) ∨ (0xC9 ≤ op ∧ op ≤ 0xCF) ∨ 0xD5 ≤ op
  (∀ r : DWord, strands (r.extractLsb' 0 8).toNat ↔ decodeStrand r = .instr (.unassignedOpcode r)) ∧
  (∀ r s, (curClause? s).isSome = true → exec (.unassignedOpcode r) s = .next (preciseTrap s .undef 0)) ∧
  (∀ r : DWord, 0x30 ≤ (r.extractLsb' 0 8).toNat ↔ decodeCapstan r = .instr (.unassignedCapstanOpcode r)) ∧
  (∀ r s x, myRun? s = some x → x.clause.isSome = true →
    exec (.unassignedCapstanOpcode r) s = .next (endCall s { status := 1, cause := 1, addr := (capAddr x).setWidth 64 }))

/-- A strand word that fails a check of R27 traps precisely, in the order of R27 and R69, whatever its guard enables: ILLOP where the word is
not well formed, or where the handler may not run it (R358); REGRANGE where it names a register that the strand lacks; PRIV where its mode is
another. A capstan word that is not well formed ends its call with status 1 and cause ILLOP (R64). -/
def Obligations.IllFormedWordsTrap : Prop :=
  (∀ i w f s, strandForm i = some (w, f) → i.wf = false → exec i s = .next (preciseTrap s .illop 0)) ∧
  (∀ i w f s, strandForm i = some (w, f) → inHandler s = true → f.inHandler w = false → exec i s = .next (preciseTrap s .illop 0)) ∧
  (∀ i w f s, strandForm i = some (w, f) → i.wf = true → (inHandler s = false ∨ f.inHandler w = true) →
    (∃ r ∈ f.names w, regInRange (me s).base (me s).ext r = false) → exec i s = .next (preciseTrap s .regrange 0)) ∧
  (∀ i w f s, strandForm i = some (w, f) → i.wf = true → (inHandler s = false ∨ f.inHandler w = true) →
    (∀ r ∈ f.names w, regInRange (me s).base (me s).ext r = true) →
    (f.priv = .handler ∧ inHandler s = false ∨ f.priv = .system ∧ (myCord s).job ≠ 0) → exec i s = .next (preciseTrap s .priv 0)) ∧
  (∀ i w f s r, capstanForm i = some (w, f) → i.wf = false → myRun? s = some r → r.clause.isSome = true →
    exec i s = .next (endCall s { status := 1, cause := 3, addr := (capAddr r).setWidth 64 }))

/-- The traps of SRD and SWR (R112). -/
def Obligations.SpecialRegisterTraps : Prop :=
  let ix (w : SWord) : Nat := w.imm.toNat % 256
  let word (w : SWord) : Nat := w.imm.toNat / 256 % 4
  let none' (i : Nat) : Prop := (0x14 ≤ i ∧ i ≤ 0x1F) ∨ (0x30 ≤ i ∧ i ≤ 0x3F) ∨ 0x51 ≤ i
  let readOnly (i : Nat) : Prop := i ≤ 0x07 ∨ i = 0x0A ∨ (0x0C ≤ i ∧ i ≤ 0x2F)
  let passes (i : Instr) (s : State) : Prop := ∃ w f, strandForm i = some (w, f) ∧ i.wf = true ∧
    (inHandler s = false ∨ f.inHandler w = true) ∧ ∀ r ∈ f.names w, regInRange (me s).base (me s).ext r = true
  (∀ w s, none' (ix w) → exec (.srd w) s = .next (preciseTrap s .illop 0) ∧ exec (.swr w) s = .next (preciseTrap s .illop 0)) ∧
  (∀ w s, readOnly (ix w) → exec (.swr w) s = .next (preciseTrap s .illop 0)) ∧
  (∀ w s, w.ty = .w64 → ix w ∉ [0x06, 0x0D, 0x50] → exec (.srd w) s = .next (preciseTrap s .illop 0)) ∧
  (∀ w s, ix w = 0x0D → isScalar w.d = true → exec (.srd w) s = .next (preciseTrap s .illop 0)) ∧
  (∀ w s, word w ≠ 0 → ix w ≠ 0x0F → exec (.srd w) s = .next (preciseTrap s .illop 0) ∧ exec (.swr w) s = .next (preciseTrap s .illop 0)) ∧
  (∀ w s, 0x20 ≤ ix w → ix w ≤ 0x2F → inHandler s = false → passes (.srd w) s → exec (.srd w) s = .next (preciseTrap s .priv 0)) ∧
  (∀ w s, ix w = 0x50 → (myCord s).job ≠ 0 → (passes (.srd w) s → exec (.srd w) s = .next (preciseTrap s .priv 0)) ∧
    (passes (.swr w) s → exec (.swr w) s = .next (preciseTrap s .priv 0)))

/-- A fetched header traps ILLCL, precisely, where its signature, class, reserved bits or upper wait-mask bits are wrong, with no other
change than the fetch; every other header begins its clause (R14). So it is for the header of the selected group and for the handler's own.
-/
def Obligations.IllegalHeadersTrap : Prop :=
  let bad (h : DWord) : Prop := h.extractLsb' 56 8 ≠ 0xC5 ∨ h.extractLsb' 4 2 ≠ 0 ∨ h.extractLsb' 14 42 ≠ 0 ∨ h.extractLsb' 11 3 ≠ 0
  let runs (s : State) : Prop := betweenClauses s = true ∧ (myCord s).tend = false ∧ (myCord s).stopping = false ∧
    ((me s).stickyHeld = false ∨ inHandler s = true) ∧ (me s).waitHdr = none
  let illcl (pc : VAddr) (g : LaneMask) (t : State) : State :=
    takeTrap { t with ops := t.ops + 1 } { code := .illcl, cls := .precise, pc := pc.setWidth 64, park := g, seq := t.ops }
  let begins (r : DWord) (pc : VAddr) (g : LaneMask) (t : State) : State :=
    headerWait (setClause t (some { hdr := pc, nm1 := (r.extractLsb' 0 4).toNat, word := 0, act := g, group := g })) (r.extractLsb' 6 8)
  (∀ s l x r t, runs s → (me s).handler = none → takeDue s = none → (me s).select = some l → x = (me s).threads.get l → x.hi = 0 →
    x.place = none → strandFetch (setMe s { me s with sel := (me s).sel + 1 }) x.pc = .word r t →
    t = { setMe s { me s with sel := (me s).sel + 1 } with cores := t.cores } ∧
    (bad r → exec .clauseHeader s = .next (illcl x.pc (positionGroup (me s) l) t)) ∧
    (¬ bad r → exec .clauseHeader s = .next (begins r x.pc (positionGroup (me s) l) t))) ∧
  (∀ s h r t, runs s → (me s).handler = some h → strandFetch s h.pc = .word r t → t = { s with cores := t.cores } ∧
    (bad r → exec .clauseHeader s = .next (illcl h.pc 1 t)) ∧ (¬ bad r → exec .clauseHeader s = .next (begins r h.pc 1 t)))

/-! ### Taking a trap, and returning -/

/-- A precise trap with nothing outstanding (R70, R357 to R359). Outside handler mode, with a handler: the registers, predicates and memory
stand; every thread of the group stands at the trapping word and the others where they stood; the trap holds code, address and AUX, and its
PARK and SET are the group's active threads; the handler stands before its first header, at the kernel header's address, with p0 to p6
reading 0 and p7 reading 1. With no handler, or in handler mode, the cord fails: all its strands' threads exit, and its failure record holds
the first trap, by the order in which they arose, and the codes of the others; a trap in handler mode puts the trap being handled first,
whatever the record held. That of a handler's address the low 56 bits are its PC is the model's choice (log 51). -/
def Obligations.TrapEntry : Prop :=
  (∀ s c code aux, (me s).handler = none → (me s).clause = some c → (me s).pend = [] → (myCord s).tend = false → (myCord s).hdr.handler ≠ 0 →
    ∃ t, preciseTrap s code aux = t ∧ t = { s with strands := t.strands, ops := s.ops + 1 } ∧
      (∀ k, k ≠ focusStrand s → getStrand t k = getStrand s k) ∧
      (me t).v = (me s).v ∧ (me t).s = (me s).s ∧ (me t).p = (me s).p ∧ (me t).clause = none ∧ curClause? t = none ∧
      (∃ h, (me t).handler = some h ∧ h.pc = (myCord s).hdr.handler.extractLsb' 0 56 ∧ h.saved = none ∧
        h.trap.code = code ∧ h.trap.cls = .precise ∧ h.trap.pc = (c.hdr + 8 + BitVec.ofNat 56 (8 * c.word)).setWidth 64 ∧
        h.trap.aux = aux ∧ h.trap.addr = 0 ∧ h.trap.park = c.act ∧ h.trap.set = c.act) ∧
      (∀ i l, i < 8 → inMask (predOf (me t) i) l = (i == 7)) ∧
      (∀ l, let x := (me s).threads.get l
            let y := (me t).threads.get l
        y.st = x.st ∧ y.mr = x.mr ∧
        if inMask c.act l then y.pc = c.hdr ∧ y.place = some c.word else y.pc = x.pc ∧ y.place = x.place)) ∧
  (∀ s c code aux, (me s).handler = none → (me s).clause = some c → (me s).pend = [] → (myCord s).tend = false → (myCord s).hdr.handler = 0 →
    trapsOf s (focusCord s) = [] → (myCord s).failure = none →
    ∃ t f, preciseTrap s code aux = t ∧ (getCord t (focusCord s)).failure = some f ∧ f.code = code ∧ f.cls = .precise ∧
      f.item1 = (c.hdr + 8 + BitVec.ofNat 56 (8 * c.word)).setWidth 64 ∧ f.item3 = aux ∧ f.others = [] ∧ t.mem = s.mem ∧
      ∀ k ∈ strandKeys s (focusCord s), (getStrand t k).ended = true) ∧
  (∀ (c : Cord) (t : TrapInfo) others, c.failure = none → c.fail t others = { c with failure := some (
    { code := t.code, cls := t.cls, item1 := t.pc, item2 := t.addr, item3 := t.aux, seq := t.seq, others := others } : Failure) }) ∧
  (∀ (c : Cord) (t : TrapInfo) others r, c.failure = some r → c.fail t others = { c with failure := some (
    if t.seq < r.seq then
      ({ code := t.code, cls := t.cls, item1 := t.pc, item2 := t.addr, item3 := t.aux, seq := t.seq, others := r.code :: (r.others ++ others) } : Failure)
    else { r with others := r.others ++ t.code :: others }) }) ∧
  (∀ s h code aux, (me s).handler = some h → (me s).pend = [] → (myCord s).tend = false →
    ∃ t f, preciseTrap s code aux = t ∧ (getCord t (focusCord s)).failure = some f ∧ f.code = h.trap.code ∧ f.cls = h.trap.cls ∧
      f.item1 = h.trap.pc ∧ f.item2 = h.trap.addr ∧ f.item3 = h.trap.aux ∧ (h.trap.seq ≠ s.ops → code ∈ f.others) ∧
      (∀ r, (myCord s).failure = some r → r.code ∈ f.others) ∧ t.mem = s.mem ∧
      ∀ k ∈ strandKeys s (focusCord s), (getStrand t k).ended = true)

/-- TRET's return (R358, R363, R367 to R369, R410). From a precise or deferred trap: retry makes the lanes of SET ready where they stand,
skip at the word after theirs, kill ends them; the interrupted clause of the strand stands again, and its registers, its predicates and
every other thread's position stand. From an engine or cord-level trap: retry goes on at the interrupted word, skip completes it without its
wait, kill ends every thread; after STICKY the strands that it held go on. Lanes of PARK that are not in SET enter the handler again, with
PARK those lanes; else a hitch that is due wakes its group. Escalation ends the cord, with the earliest trap in its failure record; lanes
that stand parked make one deferred trap, that of the lowest (R360), which arose with the first of their faults. What becomes of the
interrupted clause, its stall and the handler's outstanding results is the model's choice (log 21), and so are that wakes wait for the return
and that a re-entry from a deferred trap names the lowest lane's fault (log 25). -/
def Obligations.HandlerReturn : Prop :=
  let back (s : State) (h : Handler) : Strand := { me s with handler := none, waitHdr := none, clause := h.saved.map (·.1), stall := h.saved.bind (·.2),
                                                              pend := (me s).pend.map Pending.ofHandler }
  let rest (h : Handler) (u : State) : LaneMask := h.trap.park &&& ~~~h.trap.set &&& (me u).threadsIn (fun x => !x.isExited)
  let ends (s : State) (h : Handler) (mode : Nat) (u : State) : Prop :=
    returnFrom mode s = if rest h u = 0 then setMe u (me u).wake else takeTrap u (reentryTrap u h.trap (rest h u))
  let parked (h : Handler) : Prop := h.trap.cls = .precise ∨ h.trap.cls = .deferred
  (∀ s h mode, (me s).handler = some h → parked h → h.trap.code ≠ .sticky → mode < 2 →
    ∃ u, ends s h mode u ∧ u = { s with strands := u.strands } ∧ (∀ k, k ≠ focusStrand s → getStrand u k = getStrand s k) ∧
      me u = { back s h with threads := (me u).threads } ∧
      ∀ l, let x := (me s).threads.get l
           let y := (me u).threads.get l
        y.mr = x.mr ∧
        if inMask h.trap.set l && !x.isExited then
          y.st = .ready ∧ (mode = 0 → y.pc = x.pc ∧ y.place = x.place) ∧
          (mode = 1 → ∀ w, x.place = some w → ∀ r u, strandFetch s x.pc = .word r u →
            if (r.extractLsb' 0 4).toNat ≤ w then y.pc = x.pc + 8 + BitVec.ofNat 56 (8 * ((r.extractLsb' 0 4).toNat + 1)) ∧ y.place = none
            else y.pc = x.pc ∧ y.place = some (w + 1)) ∧
          (mode = 1 → x.place = none → y.pc = x.pc + 8 ∧ y.place = none)
        else y = x) ∧
  (∀ s h, (me s).handler = some h → parked h → h.trap.code ≠ .sticky →
    ends s h 2 (exitThreads (setMe s (back s h)) (h.trap.set &&& (back s h).threadsIn (fun x => !x.isExited)))) ∧
  (∀ s m l, ((me (exitThreads s m)).threads.get l).isExited = (inMask m l || ((me s).threads.get l).isExited)) ∧
  (∀ s h, (me s).handler = some h → h.trap.cls = .engine ∨ h.trap.cls = .cord →
    let u := setMe s (back s h)
    let held (t : State) : State := if h.trap.code = .sticky then (strandKeys t (focusCord s)).foldl
      (fun t k => setStrand t k { getStrand t k with stickyHeld := false }) t else t
    ends s h 0 (held u) ∧
    (h.saved.bind (·.2) = none → ends s h 1 (held u)) ∧
    (∀ st, h.saved.bind (·.2) = some st →
      ends s h 1 (held (advance (setMe u { back s h with stall := none, blocked := 0, searched := 0, reported := [] })))) ∧
    ends s h 2 (held (exitThreads (setMe s { back s h with clause := none, stall := none }) (BitVec.allOnes 32)))) ∧
  (∀ s (t : TrapInfo) m, t.cls ≠ .deferred → reentryTrap s t m = { t with park := m, reentry := true }) ∧
  (∀ s (t : TrapInfo) m l c a x n, t.cls = .deferred → lowestLane m = some l → ((me s).threads.get l).st = .parked (.fault c a x n) →
    reentryTrap s t m = { t with park := m, reentry := true, code := c, addr := a, aux := x, pc := ((me s).threads.get l).addr }) ∧
  (∀ t m l c a x n, lowestLane m = some l → (t.threads.get l).st = .parked (.fault c a x n) → ∃ k, deferredTrap t m =
      some { code := c, cls := .deferred, seq := k, addr := a, aux := x, pc := (t.threads.get l).addr, park := m } ∧ k ≤ n ∧
    ∀ j d b y i, inMask m j = true → (t.threads.get j).st = .parked (.fault d b y i) → k ≤ i) ∧
  (∀ s h, (me s).handler = some h → (myCord s).failure = none →
    let all := h.trap :: trapsOf s (focusCord s)
    ∃ t f, returnFrom 3 s = t ∧ (getCord t (focusCord s)).failure = some f ∧ (getCord t (focusCord s)).sticky = 0 ∧ t.mem = s.mem ∧
      (∃ x ∈ all, f.code = x.code ∧ f.cls = x.cls ∧ f.item1 = x.pc ∧ f.item2 = x.addr ∧ f.item3 = x.aux ∧ f.seq = x.seq ∧
        ∀ y ∈ all, x.seq ≤ y.seq ∧ (y.seq ≠ x.seq → y.code ∈ f.others)) ∧
      ∀ k ∈ strandKeys s (focusCord s), (getStrand t k).ended = true)

/-! ### Steps, reset and memory -/

/-- A step (R16, R64, R148). With a strand's turn next, a strand that stands between clauses runs its header; one that stands at a word and
may go on fetches that word and runs the instruction that it decodes to, or traps ILLOP. With a capstan's turn next it is the same for the
running call. With an event next, the event runs. Where the agenda names no turn, the step is the first turn of a round (the order of turns
is the model's choice, log entry 12). A capstan's turn resets a call that has exceeded its budget (R256); the bring-up that follows a reset
and the host's writes of the near store are turns of their own (R408). -/
def Obligations.StepRunsWord : Prop :=
  let at' (s : State) (core slot strand : Nat) (ts : List Turn) : State :=
    { s with agenda := ts, free := s.free + 1, focus := { s.focus with core := core, slot := slot, strand := strand } }
  let goesOn (u : State) : Prop := (me u).live = true ∧ (me u).ended = false ∧ betweenClauses u = false ∧ takeDue u = none ∧
    (myCord u).stopping = false ∧ ((myCord u).tend = false ∨ myStall u = none) ∧ ((me u).stickyHeld = false ∨ inHandler u = true)
  (∀ s core slot strand ts, s.agenda = .strand core slot strand :: ts → betweenClauses (at' s core slot strand ts) = true →
    step s = exec .clauseHeader (at' s core slot strand ts)) ∧
  (∀ s core slot strand ts r t, s.agenda = .strand core slot strand :: ts → goesOn (at' s core slot strand ts) →
    strandFetch (at' s core slot strand ts) (wordAddr (at' s core slot strand ts)) = .word r t →
    (∀ i, decodeStrand r = .instr i → step s = exec i t) ∧ (∀ e, decodeStrand r = .reject e → step s = .next (preciseTrap t .illop 0))) ∧
  (∀ s core slot strand ts t, s.agenda = .strand core slot strand :: ts → (me (at' s core slot strand ts)).live = true →
    (me (at' s core slot strand ts)).ended = false → betweenClauses (at' s core slot strand ts) = false →
    (myCord (at' s core slot strand ts)).tend = false → (myCord (at' s core slot strand ts)).stopping = false →
    takeDue (at' s core slot strand ts) = some t → step s = .next t) ∧
  (∀ s core ts x a, s.agenda = .capstan core :: ts → a = { s with agenda := ts, free := s.free + 1, focus := { s.focus with core := core } } →
    myRun? a = some x → callBudget a x.call.cord < x.spent → step s = exec .mreset a) ∧
  (∀ s core ts r x a, s.agenda = .capstan core :: ts → a = { s with agenda := ts, free := s.free + 1, focus := { s.focus with core := core } } →
    myRun? a = some x → x.spent ≤ callBudget a x.call.cord → (getCord a x.call.cord).stopping = false →
    (x.clause = none → step s = exec .capstanClauseHeader a) ∧
    (∀ t, x.clause ≠ none → capFetch a (capAddr x) = .word r t →
      (∀ i, decodeCapstan r = .instr i → step s = exec i t) ∧
      (∀ e, decodeCapstan r = .reject e → step s = .next (endCall t { status := 1, cause := 3, addr := (capAddr x).setWidth 64 })))) ∧
  (∀ s core job a r t, fetchAt s core job a = .word r t →
    ∃ p, translate s (some core) job (a.setWidth 64) .ex = some p ∧ bytesOfWord r = (List.range 8).map (fun i => coreRd s core (p.key + i) p.nc) ∧
      t = { s with cores := t.cores }) ∧
  (∀ s f i ts, s.agenda = .event f i :: ts → step s = exec i { s with agenda := ts, free := s.free + 1, focus := f }) ∧
  (∀ s ts, s.agenda = .bringUp :: ts → step s = .next (bringUp { s with agenda := ts, free := s.free + 1 })) ∧
  (∀ s a b ts, s.agenda = .hostNear a b :: ts → ∃ t, step s = .next t ∧
    t = { s with agenda := ts, free := s.free + 1, mem := memWr s.mem (physKey 0 0 (a % 2 ^ 33)) b, consts := t.consts }) ∧
  (∀ s, s.agenda = [] → roundTurns s = [] → step s = .next s) ∧
  (∀ s t ts, s.agenda = [] → roundTurns s = t :: ts → step s = step { s with agenda := t :: ts })

/-- The device at reset: STATE 0, the table bases 0, the power cap 1500, no key is live, no core is present, no task runs and no call; memory
lists nothing and is in its canonical form (R395, R408). Its first step is the reset itself (log entry 13). -/
def Obligations.ResetState : Prop :=
  let s := State.reset
  s.mgmt.state = 0 ∧ s.mgmt.jobtab = 0 ∧ s.mgmt.qtab = 0 ∧ s.mgmt.gtab = 0 ∧ s.mgmt.rtab = 0 ∧ s.mgmt.hrtab = 0 ∧ s.mgmt.powercap = 1500 ∧
  s.mgmt.keys = [] ∧ s.mgmt.busy = false ∧ s.mgmt.errce = 0 ∧ s.mgmt.errue = 0 ∧ s.strands = [] ∧ s.cords = [] ∧ s.cores = [] ∧ s.mem = [] ∧
  s.memoryOk = true ∧ step s = exec .deviceReset { s with agenda := [], free := s.free + 1 }

/-- Every step keeps the canonical form of device memory: addresses rise strictly, and no entry reads as an unlisted address does (a
convention of the model). -/
def Obligations.MemoryStaysCanonical : Prop := ∀ s t, step s = .next t → Memory.wf s.mem = true → Memory.wf t.mem = true

/-- Reading after writing (R4, R122, R201, R204, R206, R207): when a store commits, every agent of the core reads its bytes, each in its
place. Every other byte of the scratchpad reads as before; above the core a byte reads as before but where the core has kept an older value
for the unit that the store touches, which moves to the die point. A store that releases at .di or above (STRL, GCND) first lets every
earlier write of the core reach the die point, the device point and the system point, as its scope says. A page that bypasses the caches is
written at the device point, where no earlier write to the same bytes is on its way; pool memory reads under the key under which it was
written. -/
def Obligations.CommitMovesBytes : Prop :=
  let within (q : QStore) (key : Nat) : Prop := q.key ≤ key ∧ key < q.key + q.bytes.length
  let here (q : QStore) (key : Nat) : Byte := q.bytes.getD (key - q.key) 0
  let touched (q : QStore) (key : Nat) : Prop :=
    let n := if tierOf key = 0 then 16 else 8
    key / n * n < q.key + q.bytes.length ∧ q.key < key / n * n + n
  (∀ s core cord who q, q.scratch = true → Memory.wf (getCord s cord).scratch = true →
    ∃ t, commitStore s core cord who q = t ∧ t = { s with cords := t.cords } ∧ (∀ k, k ≠ cord → getCord t k = getCord s k) ∧
      ∀ key, (within q key → memRd (getCord t cord).scratch key = here q key) ∧
        (¬ within q key → memRd (getCord t cord).scratch key = memRd (getCord s cord).scratch key)) ∧
  (∀ s core cord who q, q.scratch = false → q.nc = false →
    let u := flush s core q.rel
    ∃ t, commitStore s core cord who q = t ∧ t = { u with cores := t.cores, consts := t.consts } ∧ (∀ k, k ≠ core → getCore t k = getCore u k) ∧
      ∀ key, (within q key → coreRd t core key false = here q key) ∧
        (¬ within q key → touched q key → coreRd t core key false = (upRd (getCore u core).up key).getD (dieRd u (dieOf core) key)) ∧
        (¬ touched q key → coreRd t core key false = coreRd u core key false)) ∧
  (∀ s core sc, (sc ≤ 2 → flush s core sc = s) ∧ (3 ≤ sc → (getCore (flush s core sc) core).up = []) ∧
    (4 ≤ sc → aGet [] (flush s core sc).dieUp (dieOf core) = []) ∧ (5 ≤ sc → (flush s core sc).sysUp = [])) ∧
  (∀ s core cord who q, q.scratch = false → q.nc = true →
    let u := flush s core q.rel
    Memory.wf u.mem = true → (∀ w ∈ (getCore u core).up, w.touches q.key q.bytes.length = false) →
    (∀ w ∈ aGet [] u.dieUp (dieOf core), w.touches q.key q.bytes.length = false) →
    ∃ t, commitStore s core cord who q = t ∧
      t = { u with cores := t.cores, dieUp := t.dieUp, dieLag := t.dieLag, mem := t.mem, sysLag := t.sysLag, sysUp := t.sysUp,
                   poisoned := t.poisoned, lines := t.lines, consts := t.consts } ∧
      ∀ key, tierOf q.key ≠ 1 ∨ (key / 2 ^ 48 = q.key / 2 ^ 48 ∧ paOf q.key + q.bytes.length ≤ 2 ^ 48 ∧ ∀ k ∈ u.mgmt.keys, k < 1024) →
        (within q key → memRd t.mem key = here q key) ∧ (¬ within q key → memRd t.mem key = memRd u.mem key))
end

