-- ==== Sys2Proof/Laws/Containers.lean ====
section
/-! SUPPORT. What the containers do: sparse tables, lanes and sets of lanes. -/

namespace Sys2Proof.Machine

/-! ### Sparse tables -/

theorem aGet?_aSet {α : Type} (m : AMap α) (k j : Nat) (v : α) : aGet? (aSet m k v) j = if j = k then some v else aGet? m j := by
  induction m with
  | nil => simp [aSet, aGet?]
  | cons e t ih =>
    obtain ⟨i, u⟩ := e
    simp only [aSet]
    split
    · simp [aGet?]
    · split
      · subst_vars; simp only [aGet?]; split <;> rfl
      · simp only [aGet?, ih]
        by_cases h : j = k
        · subst h; simp [*]
        · simp [h]

theorem aGet_aSet {α : Type} (d : α) (m : AMap α) (k j : Nat) (v : α) : aGet d (aSet m k v) j = if j = k then v else aGet d m j := by
  simp only [aGet, aGet?_aSet]; split <;> rfl

theorem aGet?_aDel {α : Type} (m : AMap α) (k j : Nat) : aGet? (aDel m k) j = if j = k then none else aGet? m j := by
  induction m with
  | nil => simp [aDel, aGet?]
  | cons e t ih =>
    obtain ⟨i, u⟩ := e
    simp only [aDel, List.filter_cons] at ih ⊢
    by_cases h : i = k
    · subst h; simp only [bne_self_eq_false, Bool.false_eq_true, if_false, aGet?, ih]
      split <;> simp_all
    · simp only [bne_iff_ne, ne_eq, h, not_false_eq_true, if_true, aGet?, ih]
      by_cases hj : j = i
      · subst hj; simp [h]
      · simp [hj]

theorem aSet_aSet {α : Type} (m : AMap α) (k : Nat) (v u : α) : aSet (aSet m k v) k u = aSet m k u := by
  induction m with
  | nil => simp [aSet]
  | cons e t ih =>
    obtain ⟨i, x⟩ := e
    simp only [aSet]
    split
    · simp [aSet]
    · split
      · simp [aSet]
      · simp only [aSet, *, if_false]

/-! ### Lanes -/

@[simp] theorem tab_get {α : Type} (f : Lane → α) (l : Lane) : (Lanes.tab f).get l = f l := by
  have h : (Vector.ofFn f)[l.val] = f l := by rw [Vector.getElem_ofFn]
  exact h

theorem lanes_ext {α : Type} {a b : Lanes α} (h : ∀ l : Lane, a.get l = b.get l) : a = b := by
  apply Vector.ext
  intro i hi
  simpa [Vector.get] using h ⟨i, hi⟩

/-! ### Sets of lanes -/

theorem maskUpTo_bit (f : Nat → Bool) (n i : Nat) (hn : n ≤ 32) : (maskUpTo f n).getLsbD i = (decide (i < n) && f i) := by
  induction n with
  | zero => simp [maskUpTo]
  | succ n ih =>
    rw [maskUpTo, BitVec.getLsbD_or, ih (by omega)]
    by_cases h : i = n
    · subst h
      by_cases hf : f i = true
      · simp [hf]; omega
      · simp [hf]
    · have : (decide (i < n + 1)) = decide (i < n) := by simp; omega
      rw [this]
      by_cases hf : f n = true
      · simp [hf, BitVec.getLsbD_twoPow]; intros; omega
      · simp [hf]

@[simp] theorem inMask_maskOf (f : Lane → Bool) (l : Lane) : inMask (maskOf f) l = f l := by
  rw [inMask, maskOf, maskUpTo_bit _ _ _ (Nat.le_refl _)]; simp

theorem mask_ext {a b : LaneMask} (h : ∀ l : Lane, inMask a l = inMask b l) : a = b := by
  apply BitVec.eq_of_getLsbD_eq
  intro i hi
  exact h ⟨i, hi⟩

@[simp] theorem inMask_zero (l : Lane) : inMask 0 l = false := by simp [inMask]
@[simp] theorem inMask_and (a b : LaneMask) (l : Lane) : inMask (a &&& b) l = (inMask a l && inMask b l) := by simp [inMask]
@[simp] theorem inMask_or (a b : LaneMask) (l : Lane) : inMask (a ||| b) l = (inMask a l || inMask b l) := by simp [inMask]
@[simp] theorem inMask_not (a : LaneMask) (l : Lane) : inMask (~~~a) l = !inMask a l := by simp [inMask]
@[simp] theorem inMask_laneBit (k l : Lane) : inMask (laneBit k) l = decide (l = k) := by
  simp [inMask, laneBit, Fin.ext_iff, eq_comm]

theorem mem_allLanes (l : Lane) : l ∈ allLanes := by
  simp only [allLanes, List.mem_map, List.mem_range]
  exact ⟨l.val, l.isLt, by simp [Fin.ofNat, Fin.ext_iff]⟩

@[simp] theorem mem_lanesOf (m : LaneMask) (l : Lane) : l ∈ lanesOf m ↔ inMask m l = true := by
  simp [lanesOf, mem_allLanes]

@[simp] theorem lowestLane_zero : lowestLane 0 = none := by decide

theorem lowestLane_mem {m : LaneMask} {l : Lane} (h : lowestLane m = some l) : inMask m l = true := by
  have := List.mem_of_mem_head? (Option.mem_def.mpr h)
  simpa using this

theorem lowestLane_none {m : LaneMask} (h : lowestLane m = none) : m = 0 := by
  apply mask_ext
  intro l
  have h' : lanesOf m = [] := by simpa [lowestLane] using h
  have : l ∉ lanesOf m := by simp [h']
  rw [inMask_zero]
  simpa using this

end Sys2Proof.Machine
end

