-- ==== Sys2Proof/Laws/State.lean ====
section
/-! SUPPORT. What each update of the state leaves, one lemma per field per update. -/

namespace Sys2Proof.Machine

@[simp] theorem setStrand_mem (s : State) (k : Nat) (t : Strand) : (setStrand s k t).mem = s.mem := rfl
@[simp] theorem setStrand_sysLag (s : State) (k : Nat) (t : Strand) : (setStrand s k t).sysLag = s.sysLag := rfl
@[simp] theorem setStrand_sysUp (s : State) (k : Nat) (t : Strand) : (setStrand s k t).sysUp = s.sysUp := rfl
@[simp] theorem setStrand_dieUp (s : State) (k : Nat) (t : Strand) : (setStrand s k t).dieUp = s.dieUp := rfl
@[simp] theorem setStrand_dieLag (s : State) (k : Nat) (t : Strand) : (setStrand s k t).dieLag = s.dieLag := rfl
@[simp] theorem setStrand_dieBad (s : State) (k : Nat) (t : Strand) : (setStrand s k t).dieBad = s.dieBad := rfl
@[simp] theorem setStrand_poisoned (s : State) (k : Nat) (t : Strand) : (setStrand s k t).poisoned = s.poisoned := rfl
@[simp] theorem setStrand_consts (s : State) (k : Nat) (t : Strand) : (setStrand s k t).consts = s.consts := rfl
@[simp] theorem setStrand_lines (s : State) (k : Nat) (t : Strand) : (setStrand s k t).lines = s.lines := rfl
@[simp] theorem setStrand_cores (s : State) (k : Nat) (t : Strand) : (setStrand s k t).cores = s.cores := rfl
@[simp] theorem setStrand_cords (s : State) (k : Nat) (t : Strand) : (setStrand s k t).cords = s.cords := rfl
@[simp] theorem setStrand_present (s : State) (k : Nat) (t : Strand) : (setStrand s k t).present = s.present := rfl
@[simp] theorem setStrand_uids (s : State) (k : Nat) (t : Strand) : (setStrand s k t).uids = s.uids := rfl
@[simp] theorem setStrand_ops (s : State) (k : Nat) (t : Strand) : (setStrand s k t).ops = s.ops := rfl
@[simp] theorem setStrand_recs (s : State) (k : Nat) (t : Strand) : (setStrand s k t).recs = s.recs := rfl
@[simp] theorem setStrand_allocSeq (s : State) (k : Nat) (t : Strand) : (setStrand s k t).allocSeq = s.allocSeq := rfl
@[simp] theorem setStrand_dying (s : State) (k : Nat) (t : Strand) : (setStrand s k t).dying = s.dying := rfl
@[simp] theorem setStrand_lowDue (s : State) (k : Nat) (t : Strand) : (setStrand s k t).lowDue = s.lowDue := rfl
@[simp] theorem setStrand_btinvs (s : State) (k : Nat) (t : Strand) : (setStrand s k t).btinvs = s.btinvs := rfl
@[simp] theorem setStrand_jobs (s : State) (k : Nat) (t : Strand) : (setStrand s k t).jobs = s.jobs := rfl
@[simp] theorem setStrand_queues (s : State) (k : Nat) (t : Strand) : (setStrand s k t).queues = s.queues := rfl
@[simp] theorem setStrand_groups (s : State) (k : Nat) (t : Strand) : (setStrand s k t).groups = s.groups := rfl
@[simp] theorem setStrand_routes (s : State) (k : Nat) (t : Strand) : (setStrand s k t).routes = s.routes := rfl
@[simp] theorem setStrand_rings (s : State) (k : Nat) (t : Strand) : (setStrand s k t).rings = s.rings := rfl
@[simp] theorem setStrand_fifos (s : State) (k : Nat) (t : Strand) : (setStrand s k t).fifos = s.fifos := rfl
@[simp] theorem setStrand_deficit (s : State) (k : Nat) (t : Strand) : (setStrand s k t).deficit = s.deficit := rfl
@[simp] theorem setStrand_rr (s : State) (k : Nat) (t : Strand) : (setStrand s k t).rr = s.rr := rfl
@[simp] theorem setStrand_credit (s : State) (k : Nat) (t : Strand) : (setStrand s k t).credit = s.credit := rfl
@[simp] theorem setStrand_homes (s : State) (k : Nat) (t : Strand) : (setStrand s k t).homes = s.homes := rfl
@[simp] theorem setStrand_saved (s : State) (k : Nat) (t : Strand) : (setStrand s k t).saved = s.saved := rfl
@[simp] theorem setStrand_insts (s : State) (k : Nat) (t : Strand) : (setStrand s k t).insts = s.insts := rfl
@[simp] theorem setStrand_instSeq (s : State) (k : Nat) (t : Strand) : (setStrand s k t).instSeq = s.instSeq := rfl
@[simp] theorem setStrand_plans (s : State) (k : Nat) (t : Strand) : (setStrand s k t).plans = s.plans := rfl
@[simp] theorem setStrand_watches (s : State) (k : Nat) (t : Strand) : (setStrand s k t).watches = s.watches := rfl
@[simp] theorem setStrand_records (s : State) (k : Nat) (t : Strand) : (setStrand s k t).records = s.records := rfl
@[simp] theorem setStrand_vecCount (s : State) (k : Nat) (t : Strand) : (setStrand s k t).vecCount = s.vecCount := rfl
@[simp] theorem setStrand_dueIrq (s : State) (k : Nat) (t : Strand) : (setStrand s k t).dueIrq = s.dueIrq := rfl
@[simp] theorem setStrand_irqs (s : State) (k : Nat) (t : Strand) : (setStrand s k t).irqs = s.irqs := rfl
@[simp] theorem setStrand_reds (s : State) (k : Nat) (t : Strand) : (setStrand s k t).reds = s.reds := rfl
@[simp] theorem setStrand_portsLost (s : State) (k : Nat) (t : Strand) : (setStrand s k t).portsLost = s.portsLost := rfl
@[simp] theorem setStrand_portsNarrow (s : State) (k : Nat) (t : Strand) : (setStrand s k t).portsNarrow = s.portsNarrow := rfl
@[simp] theorem setStrand_mgmt (s : State) (k : Nat) (t : Strand) : (setStrand s k t).mgmt = s.mgmt := rfl
@[simp] theorem setStrand_focus (s : State) (k : Nat) (t : Strand) : (setStrand s k t).focus = s.focus := rfl
@[simp] theorem setStrand_agenda (s : State) (k : Nat) (t : Strand) : (setStrand s k t).agenda = s.agenda := rfl
@[simp] theorem setStrand_free (s : State) (k : Nat) (t : Strand) : (setStrand s k t).free = s.free := rfl

@[simp] theorem setCord_mem (s : State) (k : Nat) (c : Cord) : (setCord s k c).mem = s.mem := rfl
@[simp] theorem setCord_sysLag (s : State) (k : Nat) (c : Cord) : (setCord s k c).sysLag = s.sysLag := rfl
@[simp] theorem setCord_sysUp (s : State) (k : Nat) (c : Cord) : (setCord s k c).sysUp = s.sysUp := rfl
@[simp] theorem setCord_dieUp (s : State) (k : Nat) (c : Cord) : (setCord s k c).dieUp = s.dieUp := rfl
@[simp] theorem setCord_dieLag (s : State) (k : Nat) (c : Cord) : (setCord s k c).dieLag = s.dieLag := rfl
@[simp] theorem setCord_dieBad (s : State) (k : Nat) (c : Cord) : (setCord s k c).dieBad = s.dieBad := rfl
@[simp] theorem setCord_poisoned (s : State) (k : Nat) (c : Cord) : (setCord s k c).poisoned = s.poisoned := rfl
@[simp] theorem setCord_consts (s : State) (k : Nat) (c : Cord) : (setCord s k c).consts = s.consts := rfl
@[simp] theorem setCord_lines (s : State) (k : Nat) (c : Cord) : (setCord s k c).lines = s.lines := rfl
@[simp] theorem setCord_cores (s : State) (k : Nat) (c : Cord) : (setCord s k c).cores = s.cores := rfl
@[simp] theorem setCord_strands (s : State) (k : Nat) (c : Cord) : (setCord s k c).strands = s.strands := rfl
@[simp] theorem setCord_present (s : State) (k : Nat) (c : Cord) : (setCord s k c).present = s.present := rfl
@[simp] theorem setCord_uids (s : State) (k : Nat) (c : Cord) : (setCord s k c).uids = s.uids := rfl
@[simp] theorem setCord_ops (s : State) (k : Nat) (c : Cord) : (setCord s k c).ops = s.ops := rfl
@[simp] theorem setCord_recs (s : State) (k : Nat) (c : Cord) : (setCord s k c).recs = s.recs := rfl
@[simp] theorem setCord_allocSeq (s : State) (k : Nat) (c : Cord) : (setCord s k c).allocSeq = s.allocSeq := rfl
@[simp] theorem setCord_dying (s : State) (k : Nat) (c : Cord) : (setCord s k c).dying = s.dying := rfl
@[simp] theorem setCord_lowDue (s : State) (k : Nat) (c : Cord) : (setCord s k c).lowDue = s.lowDue := rfl
@[simp] theorem setCord_btinvs (s : State) (k : Nat) (c : Cord) : (setCord s k c).btinvs = s.btinvs := rfl
@[simp] theorem setCord_jobs (s : State) (k : Nat) (c : Cord) : (setCord s k c).jobs = s.jobs := rfl
@[simp] theorem setCord_queues (s : State) (k : Nat) (c : Cord) : (setCord s k c).queues = s.queues := rfl
@[simp] theorem setCord_groups (s : State) (k : Nat) (c : Cord) : (setCord s k c).groups = s.groups := rfl
@[simp] theorem setCord_routes (s : State) (k : Nat) (c : Cord) : (setCord s k c).routes = s.routes := rfl
@[simp] theorem setCord_rings (s : State) (k : Nat) (c : Cord) : (setCord s k c).rings = s.rings := rfl
@[simp] theorem setCord_fifos (s : State) (k : Nat) (c : Cord) : (setCord s k c).fifos = s.fifos := rfl
@[simp] theorem setCord_deficit (s : State) (k : Nat) (c : Cord) : (setCord s k c).deficit = s.deficit := rfl
@[simp] theorem setCord_rr (s : State) (k : Nat) (c : Cord) : (setCord s k c).rr = s.rr := rfl
@[simp] theorem setCord_credit (s : State) (k : Nat) (c : Cord) : (setCord s k c).credit = s.credit := rfl
@[simp] theorem setCord_homes (s : State) (k : Nat) (c : Cord) : (setCord s k c).homes = s.homes := rfl
@[simp] theorem setCord_saved (s : State) (k : Nat) (c : Cord) : (setCord s k c).saved = s.saved := rfl
@[simp] theorem setCord_insts (s : State) (k : Nat) (c : Cord) : (setCord s k c).insts = s.insts := rfl
@[simp] theorem setCord_instSeq (s : State) (k : Nat) (c : Cord) : (setCord s k c).instSeq = s.instSeq := rfl
@[simp] theorem setCord_plans (s : State) (k : Nat) (c : Cord) : (setCord s k c).plans = s.plans := rfl
@[simp] theorem setCord_watches (s : State) (k : Nat) (c : Cord) : (setCord s k c).watches = s.watches := rfl
@[simp] theorem setCord_records (s : State) (k : Nat) (c : Cord) : (setCord s k c).records = s.records := rfl
@[simp] theorem setCord_vecCount (s : State) (k : Nat) (c : Cord) : (setCord s k c).vecCount = s.vecCount := rfl
@[simp] theorem setCord_dueIrq (s : State) (k : Nat) (c : Cord) : (setCord s k c).dueIrq = s.dueIrq := rfl
@[simp] theorem setCord_irqs (s : State) (k : Nat) (c : Cord) : (setCord s k c).irqs = s.irqs := rfl
@[simp] theorem setCord_reds (s : State) (k : Nat) (c : Cord) : (setCord s k c).reds = s.reds := rfl
@[simp] theorem setCord_portsLost (s : State) (k : Nat) (c : Cord) : (setCord s k c).portsLost = s.portsLost := rfl
@[simp] theorem setCord_portsNarrow (s : State) (k : Nat) (c : Cord) : (setCord s k c).portsNarrow = s.portsNarrow := rfl
@[simp] theorem setCord_mgmt (s : State) (k : Nat) (c : Cord) : (setCord s k c).mgmt = s.mgmt := rfl
@[simp] theorem setCord_focus (s : State) (k : Nat) (c : Cord) : (setCord s k c).focus = s.focus := rfl
@[simp] theorem setCord_agenda (s : State) (k : Nat) (c : Cord) : (setCord s k c).agenda = s.agenda := rfl
@[simp] theorem setCord_free (s : State) (k : Nat) (c : Cord) : (setCord s k c).free = s.free := rfl

@[simp] theorem setCore_mem (s : State) (k : Nat) (c : Core) : (setCore s k c).mem = s.mem := rfl
@[simp] theorem setCore_sysLag (s : State) (k : Nat) (c : Core) : (setCore s k c).sysLag = s.sysLag := rfl
@[simp] theorem setCore_sysUp (s : State) (k : Nat) (c : Core) : (setCore s k c).sysUp = s.sysUp := rfl
@[simp] theorem setCore_dieUp (s : State) (k : Nat) (c : Core) : (setCore s k c).dieUp = s.dieUp := rfl
@[simp] theorem setCore_dieLag (s : State) (k : Nat) (c : Core) : (setCore s k c).dieLag = s.dieLag := rfl
@[simp] theorem setCore_dieBad (s : State) (k : Nat) (c : Core) : (setCore s k c).dieBad = s.dieBad := rfl
@[simp] theorem setCore_poisoned (s : State) (k : Nat) (c : Core) : (setCore s k c).poisoned = s.poisoned := rfl
@[simp] theorem setCore_consts (s : State) (k : Nat) (c : Core) : (setCore s k c).consts = s.consts := rfl
@[simp] theorem setCore_lines (s : State) (k : Nat) (c : Core) : (setCore s k c).lines = s.lines := rfl
@[simp] theorem setCore_cords (s : State) (k : Nat) (c : Core) : (setCore s k c).cords = s.cords := rfl
@[simp] theorem setCore_strands (s : State) (k : Nat) (c : Core) : (setCore s k c).strands = s.strands := rfl
@[simp] theorem setCore_present (s : State) (k : Nat) (c : Core) : (setCore s k c).present = s.present := rfl
@[simp] theorem setCore_uids (s : State) (k : Nat) (c : Core) : (setCore s k c).uids = s.uids := rfl
@[simp] theorem setCore_ops (s : State) (k : Nat) (c : Core) : (setCore s k c).ops = s.ops := rfl
@[simp] theorem setCore_recs (s : State) (k : Nat) (c : Core) : (setCore s k c).recs = s.recs := rfl
@[simp] theorem setCore_allocSeq (s : State) (k : Nat) (c : Core) : (setCore s k c).allocSeq = s.allocSeq := rfl
@[simp] theorem setCore_dying (s : State) (k : Nat) (c : Core) : (setCore s k c).dying = s.dying := rfl
@[simp] theorem setCore_lowDue (s : State) (k : Nat) (c : Core) : (setCore s k c).lowDue = s.lowDue := rfl
@[simp] theorem setCore_btinvs (s : State) (k : Nat) (c : Core) : (setCore s k c).btinvs = s.btinvs := rfl
@[simp] theorem setCore_jobs (s : State) (k : Nat) (c : Core) : (setCore s k c).jobs = s.jobs := rfl
@[simp] theorem setCore_queues (s : State) (k : Nat) (c : Core) : (setCore s k c).queues = s.queues := rfl
@[simp] theorem setCore_groups (s : State) (k : Nat) (c : Core) : (setCore s k c).groups = s.groups := rfl
@[simp] theorem setCore_routes (s : State) (k : Nat) (c : Core) : (setCore s k c).routes = s.routes := rfl
@[simp] theorem setCore_rings (s : State) (k : Nat) (c : Core) : (setCore s k c).rings = s.rings := rfl
@[simp] theorem setCore_fifos (s : State) (k : Nat) (c : Core) : (setCore s k c).fifos = s.fifos := rfl
@[simp] theorem setCore_deficit (s : State) (k : Nat) (c : Core) : (setCore s k c).deficit = s.deficit := rfl
@[simp] theorem setCore_rr (s : State) (k : Nat) (c : Core) : (setCore s k c).rr = s.rr := rfl
@[simp] theorem setCore_credit (s : State) (k : Nat) (c : Core) : (setCore s k c).credit = s.credit := rfl
@[simp] theorem setCore_homes (s : State) (k : Nat) (c : Core) : (setCore s k c).homes = s.homes := rfl
@[simp] theorem setCore_saved (s : State) (k : Nat) (c : Core) : (setCore s k c).saved = s.saved := rfl
@[simp] theorem setCore_insts (s : State) (k : Nat) (c : Core) : (setCore s k c).insts = s.insts := rfl
@[simp] theorem setCore_instSeq (s : State) (k : Nat) (c : Core) : (setCore s k c).instSeq = s.instSeq := rfl
@[simp] theorem setCore_plans (s : State) (k : Nat) (c : Core) : (setCore s k c).plans = s.plans := rfl
@[simp] theorem setCore_watches (s : State) (k : Nat) (c : Core) : (setCore s k c).watches = s.watches := rfl
@[simp] theorem setCore_records (s : State) (k : Nat) (c : Core) : (setCore s k c).records = s.records := rfl
@[simp] theorem setCore_vecCount (s : State) (k : Nat) (c : Core) : (setCore s k c).vecCount = s.vecCount := rfl
@[simp] theorem setCore_dueIrq (s : State) (k : Nat) (c : Core) : (setCore s k c).dueIrq = s.dueIrq := rfl
@[simp] theorem setCore_irqs (s : State) (k : Nat) (c : Core) : (setCore s k c).irqs = s.irqs := rfl
@[simp] theorem setCore_reds (s : State) (k : Nat) (c : Core) : (setCore s k c).reds = s.reds := rfl
@[simp] theorem setCore_portsLost (s : State) (k : Nat) (c : Core) : (setCore s k c).portsLost = s.portsLost := rfl
@[simp] theorem setCore_portsNarrow (s : State) (k : Nat) (c : Core) : (setCore s k c).portsNarrow = s.portsNarrow := rfl
@[simp] theorem setCore_mgmt (s : State) (k : Nat) (c : Core) : (setCore s k c).mgmt = s.mgmt := rfl
@[simp] theorem setCore_focus (s : State) (k : Nat) (c : Core) : (setCore s k c).focus = s.focus := rfl
@[simp] theorem setCore_agenda (s : State) (k : Nat) (c : Core) : (setCore s k c).agenda = s.agenda := rfl
@[simp] theorem setCore_free (s : State) (k : Nat) (c : Core) : (setCore s k c).free = s.free := rfl

@[simp] theorem setMe_mem (s : State) (t : Strand) : (setMe s t).mem = s.mem := rfl
@[simp] theorem setMe_sysLag (s : State) (t : Strand) : (setMe s t).sysLag = s.sysLag := rfl
@[simp] theorem setMe_sysUp (s : State) (t : Strand) : (setMe s t).sysUp = s.sysUp := rfl
@[simp] theorem setMe_dieUp (s : State) (t : Strand) : (setMe s t).dieUp = s.dieUp := rfl
@[simp] theorem setMe_dieLag (s : State) (t : Strand) : (setMe s t).dieLag = s.dieLag := rfl
@[simp] theorem setMe_dieBad (s : State) (t : Strand) : (setMe s t).dieBad = s.dieBad := rfl
@[simp] theorem setMe_poisoned (s : State) (t : Strand) : (setMe s t).poisoned = s.poisoned := rfl
@[simp] theorem setMe_consts (s : State) (t : Strand) : (setMe s t).consts = s.consts := rfl
@[simp] theorem setMe_lines (s : State) (t : Strand) : (setMe s t).lines = s.lines := rfl
@[simp] theorem setMe_cores (s : State) (t : Strand) : (setMe s t).cores = s.cores := rfl
@[simp] theorem setMe_cords (s : State) (t : Strand) : (setMe s t).cords = s.cords := rfl
@[simp] theorem setMe_present (s : State) (t : Strand) : (setMe s t).present = s.present := rfl
@[simp] theorem setMe_uids (s : State) (t : Strand) : (setMe s t).uids = s.uids := rfl
@[simp] theorem setMe_ops (s : State) (t : Strand) : (setMe s t).ops = s.ops := rfl
@[simp] theorem setMe_recs (s : State) (t : Strand) : (setMe s t).recs = s.recs := rfl
@[simp] theorem setMe_allocSeq (s : State) (t : Strand) : (setMe s t).allocSeq = s.allocSeq := rfl
@[simp] theorem setMe_dying (s : State) (t : Strand) : (setMe s t).dying = s.dying := rfl
@[simp] theorem setMe_lowDue (s : State) (t : Strand) : (setMe s t).lowDue = s.lowDue := rfl
@[simp] theorem setMe_btinvs (s : State) (t : Strand) : (setMe s t).btinvs = s.btinvs := rfl
@[simp] theorem setMe_jobs (s : State) (t : Strand) : (setMe s t).jobs = s.jobs := rfl
@[simp] theorem setMe_queues (s : State) (t : Strand) : (setMe s t).queues = s.queues := rfl
@[simp] theorem setMe_groups (s : State) (t : Strand) : (setMe s t).groups = s.groups := rfl
@[simp] theorem setMe_routes (s : State) (t : Strand) : (setMe s t).routes = s.routes := rfl
@[simp] theorem setMe_rings (s : State) (t : Strand) : (setMe s t).rings = s.rings := rfl
@[simp] theorem setMe_fifos (s : State) (t : Strand) : (setMe s t).fifos = s.fifos := rfl
@[simp] theorem setMe_deficit (s : State) (t : Strand) : (setMe s t).deficit = s.deficit := rfl
@[simp] theorem setMe_rr (s : State) (t : Strand) : (setMe s t).rr = s.rr := rfl
@[simp] theorem setMe_credit (s : State) (t : Strand) : (setMe s t).credit = s.credit := rfl
@[simp] theorem setMe_homes (s : State) (t : Strand) : (setMe s t).homes = s.homes := rfl
@[simp] theorem setMe_saved (s : State) (t : Strand) : (setMe s t).saved = s.saved := rfl
@[simp] theorem setMe_insts (s : State) (t : Strand) : (setMe s t).insts = s.insts := rfl
@[simp] theorem setMe_instSeq (s : State) (t : Strand) : (setMe s t).instSeq = s.instSeq := rfl
@[simp] theorem setMe_plans (s : State) (t : Strand) : (setMe s t).plans = s.plans := rfl
@[simp] theorem setMe_watches (s : State) (t : Strand) : (setMe s t).watches = s.watches := rfl
@[simp] theorem setMe_records (s : State) (t : Strand) : (setMe s t).records = s.records := rfl
@[simp] theorem setMe_vecCount (s : State) (t : Strand) : (setMe s t).vecCount = s.vecCount := rfl
@[simp] theorem setMe_dueIrq (s : State) (t : Strand) : (setMe s t).dueIrq = s.dueIrq := rfl
@[simp] theorem setMe_irqs (s : State) (t : Strand) : (setMe s t).irqs = s.irqs := rfl
@[simp] theorem setMe_reds (s : State) (t : Strand) : (setMe s t).reds = s.reds := rfl
@[simp] theorem setMe_portsLost (s : State) (t : Strand) : (setMe s t).portsLost = s.portsLost := rfl
@[simp] theorem setMe_portsNarrow (s : State) (t : Strand) : (setMe s t).portsNarrow = s.portsNarrow := rfl
@[simp] theorem setMe_mgmt (s : State) (t : Strand) : (setMe s t).mgmt = s.mgmt := rfl
@[simp] theorem setMe_focus (s : State) (t : Strand) : (setMe s t).focus = s.focus := rfl
@[simp] theorem setMe_agenda (s : State) (t : Strand) : (setMe s t).agenda = s.agenda := rfl
@[simp] theorem setMe_free (s : State) (t : Strand) : (setMe s t).free = s.free := rfl

@[simp] theorem setMyCord_mem (s : State) (c : Cord) : (setMyCord s c).mem = s.mem := rfl
@[simp] theorem setMyCord_sysLag (s : State) (c : Cord) : (setMyCord s c).sysLag = s.sysLag := rfl
@[simp] theorem setMyCord_sysUp (s : State) (c : Cord) : (setMyCord s c).sysUp = s.sysUp := rfl
@[simp] theorem setMyCord_dieUp (s : State) (c : Cord) : (setMyCord s c).dieUp = s.dieUp := rfl
@[simp] theorem setMyCord_dieLag (s : State) (c : Cord) : (setMyCord s c).dieLag = s.dieLag := rfl
@[simp] theorem setMyCord_dieBad (s : State) (c : Cord) : (setMyCord s c).dieBad = s.dieBad := rfl
@[simp] theorem setMyCord_poisoned (s : State) (c : Cord) : (setMyCord s c).poisoned = s.poisoned := rfl
@[simp] theorem setMyCord_consts (s : State) (c : Cord) : (setMyCord s c).consts = s.consts := rfl
@[simp] theorem setMyCord_lines (s : State) (c : Cord) : (setMyCord s c).lines = s.lines := rfl
@[simp] theorem setMyCord_cores (s : State) (c : Cord) : (setMyCord s c).cores = s.cores := rfl
@[simp] theorem setMyCord_strands (s : State) (c : Cord) : (setMyCord s c).strands = s.strands := rfl
@[simp] theorem setMyCord_present (s : State) (c : Cord) : (setMyCord s c).present = s.present := rfl
@[simp] theorem setMyCord_uids (s : State) (c : Cord) : (setMyCord s c).uids = s.uids := rfl
@[simp] theorem setMyCord_ops (s : State) (c : Cord) : (setMyCord s c).ops = s.ops := rfl
@[simp] theorem setMyCord_recs (s : State) (c : Cord) : (setMyCord s c).recs = s.recs := rfl
@[simp] theorem setMyCord_allocSeq (s : State) (c : Cord) : (setMyCord s c).allocSeq = s.allocSeq := rfl
@[simp] theorem setMyCord_dying (s : State) (c : Cord) : (setMyCord s c).dying = s.dying := rfl
@[simp] theorem setMyCord_lowDue (s : State) (c : Cord) : (setMyCord s c).lowDue = s.lowDue := rfl
@[simp] theorem setMyCord_btinvs (s : State) (c : Cord) : (setMyCord s c).btinvs = s.btinvs := rfl
@[simp] theorem setMyCord_jobs (s : State) (c : Cord) : (setMyCord s c).jobs = s.jobs := rfl
@[simp] theorem setMyCord_queues (s : State) (c : Cord) : (setMyCord s c).queues = s.queues := rfl
@[simp] theorem setMyCord_groups (s : State) (c : Cord) : (setMyCord s c).groups = s.groups := rfl
@[simp] theorem setMyCord_routes (s : State) (c : Cord) : (setMyCord s c).routes = s.routes := rfl
@[simp] theorem setMyCord_rings (s : State) (c : Cord) : (setMyCord s c).rings = s.rings := rfl
@[simp] theorem setMyCord_fifos (s : State) (c : Cord) : (setMyCord s c).fifos = s.fifos := rfl
@[simp] theorem setMyCord_deficit (s : State) (c : Cord) : (setMyCord s c).deficit = s.deficit := rfl
@[simp] theorem setMyCord_rr (s : State) (c : Cord) : (setMyCord s c).rr = s.rr := rfl
@[simp] theorem setMyCord_credit (s : State) (c : Cord) : (setMyCord s c).credit = s.credit := rfl
@[simp] theorem setMyCord_homes (s : State) (c : Cord) : (setMyCord s c).homes = s.homes := rfl
@[simp] theorem setMyCord_saved (s : State) (c : Cord) : (setMyCord s c).saved = s.saved := rfl
@[simp] theorem setMyCord_insts (s : State) (c : Cord) : (setMyCord s c).insts = s.insts := rfl
@[simp] theorem setMyCord_instSeq (s : State) (c : Cord) : (setMyCord s c).instSeq = s.instSeq := rfl
@[simp] theorem setMyCord_plans (s : State) (c : Cord) : (setMyCord s c).plans = s.plans := rfl
@[simp] theorem setMyCord_watches (s : State) (c : Cord) : (setMyCord s c).watches = s.watches := rfl
@[simp] theorem setMyCord_records (s : State) (c : Cord) : (setMyCord s c).records = s.records := rfl
@[simp] theorem setMyCord_vecCount (s : State) (c : Cord) : (setMyCord s c).vecCount = s.vecCount := rfl
@[simp] theorem setMyCord_dueIrq (s : State) (c : Cord) : (setMyCord s c).dueIrq = s.dueIrq := rfl
@[simp] theorem setMyCord_irqs (s : State) (c : Cord) : (setMyCord s c).irqs = s.irqs := rfl
@[simp] theorem setMyCord_reds (s : State) (c : Cord) : (setMyCord s c).reds = s.reds := rfl
@[simp] theorem setMyCord_portsLost (s : State) (c : Cord) : (setMyCord s c).portsLost = s.portsLost := rfl
@[simp] theorem setMyCord_portsNarrow (s : State) (c : Cord) : (setMyCord s c).portsNarrow = s.portsNarrow := rfl
@[simp] theorem setMyCord_mgmt (s : State) (c : Cord) : (setMyCord s c).mgmt = s.mgmt := rfl
@[simp] theorem setMyCord_focus (s : State) (c : Cord) : (setMyCord s c).focus = s.focus := rfl
@[simp] theorem setMyCord_agenda (s : State) (c : Cord) : (setMyCord s c).agenda = s.agenda := rfl
@[simp] theorem setMyCord_free (s : State) (c : Cord) : (setMyCord s c).free = s.free := rfl

@[simp] theorem setMyCore_mem (s : State) (c : Core) : (setMyCore s c).mem = s.mem := rfl
@[simp] theorem setMyCore_sysLag (s : State) (c : Core) : (setMyCore s c).sysLag = s.sysLag := rfl
@[simp] theorem setMyCore_sysUp (s : State) (c : Core) : (setMyCore s c).sysUp = s.sysUp := rfl
@[simp] theorem setMyCore_dieUp (s : State) (c : Core) : (setMyCore s c).dieUp = s.dieUp := rfl
@[simp] theorem setMyCore_dieLag (s : State) (c : Core) : (setMyCore s c).dieLag = s.dieLag := rfl
@[simp] theorem setMyCore_dieBad (s : State) (c : Core) : (setMyCore s c).dieBad = s.dieBad := rfl
@[simp] theorem setMyCore_poisoned (s : State) (c : Core) : (setMyCore s c).poisoned = s.poisoned := rfl
@[simp] theorem setMyCore_consts (s : State) (c : Core) : (setMyCore s c).consts = s.consts := rfl
@[simp] theorem setMyCore_lines (s : State) (c : Core) : (setMyCore s c).lines = s.lines := rfl
@[simp] theorem setMyCore_cords (s : State) (c : Core) : (setMyCore s c).cords = s.cords := rfl
@[simp] theorem setMyCore_strands (s : State) (c : Core) : (setMyCore s c).strands = s.strands := rfl
@[simp] theorem setMyCore_present (s : State) (c : Core) : (setMyCore s c).present = s.present := rfl
@[simp] theorem setMyCore_uids (s : State) (c : Core) : (setMyCore s c).uids = s.uids := rfl
@[simp] theorem setMyCore_ops (s : State) (c : Core) : (setMyCore s c).ops = s.ops := rfl
@[simp] theorem setMyCore_recs (s : State) (c : Core) : (setMyCore s c).recs = s.recs := rfl
@[simp] theorem setMyCore_allocSeq (s : State) (c : Core) : (setMyCore s c).allocSeq = s.allocSeq := rfl
@[simp] theorem setMyCore_dying (s : State) (c : Core) : (setMyCore s c).dying = s.dying := rfl
@[simp] theorem setMyCore_lowDue (s : State) (c : Core) : (setMyCore s c).lowDue = s.lowDue := rfl
@[simp] theorem setMyCore_btinvs (s : State) (c : Core) : (setMyCore s c).btinvs = s.btinvs := rfl
@[simp] theorem setMyCore_jobs (s : State) (c : Core) : (setMyCore s c).jobs = s.jobs := rfl
@[simp] theorem setMyCore_queues (s : State) (c : Core) : (setMyCore s c).queues = s.queues := rfl
@[simp] theorem setMyCore_groups (s : State) (c : Core) : (setMyCore s c).groups = s.groups := rfl
@[simp] theorem setMyCore_routes (s : State) (c : Core) : (setMyCore s c).routes = s.routes := rfl
@[simp] theorem setMyCore_rings (s : State) (c : Core) : (setMyCore s c).rings = s.rings := rfl
@[simp] theorem setMyCore_fifos (s : State) (c : Core) : (setMyCore s c).fifos = s.fifos := rfl
@[simp] theorem setMyCore_deficit (s : State) (c : Core) : (setMyCore s c).deficit = s.deficit := rfl
@[simp] theorem setMyCore_rr (s : State) (c : Core) : (setMyCore s c).rr = s.rr := rfl
@[simp] theorem setMyCore_credit (s : State) (c : Core) : (setMyCore s c).credit = s.credit := rfl
@[simp] theorem setMyCore_homes (s : State) (c : Core) : (setMyCore s c).homes = s.homes := rfl
@[simp] theorem setMyCore_saved (s : State) (c : Core) : (setMyCore s c).saved = s.saved := rfl
@[simp] theorem setMyCore_insts (s : State) (c : Core) : (setMyCore s c).insts = s.insts := rfl
@[simp] theorem setMyCore_instSeq (s : State) (c : Core) : (setMyCore s c).instSeq = s.instSeq := rfl
@[simp] theorem setMyCore_plans (s : State) (c : Core) : (setMyCore s c).plans = s.plans := rfl
@[simp] theorem setMyCore_watches (s : State) (c : Core) : (setMyCore s c).watches = s.watches := rfl
@[simp] theorem setMyCore_records (s : State) (c : Core) : (setMyCore s c).records = s.records := rfl
@[simp] theorem setMyCore_vecCount (s : State) (c : Core) : (setMyCore s c).vecCount = s.vecCount := rfl
@[simp] theorem setMyCore_dueIrq (s : State) (c : Core) : (setMyCore s c).dueIrq = s.dueIrq := rfl
@[simp] theorem setMyCore_irqs (s : State) (c : Core) : (setMyCore s c).irqs = s.irqs := rfl
@[simp] theorem setMyCore_reds (s : State) (c : Core) : (setMyCore s c).reds = s.reds := rfl
@[simp] theorem setMyCore_portsLost (s : State) (c : Core) : (setMyCore s c).portsLost = s.portsLost := rfl
@[simp] theorem setMyCore_portsNarrow (s : State) (c : Core) : (setMyCore s c).portsNarrow = s.portsNarrow := rfl
@[simp] theorem setMyCore_mgmt (s : State) (c : Core) : (setMyCore s c).mgmt = s.mgmt := rfl
@[simp] theorem setMyCore_focus (s : State) (c : Core) : (setMyCore s c).focus = s.focus := rfl
@[simp] theorem setMyCore_agenda (s : State) (c : Core) : (setMyCore s c).agenda = s.agenda := rfl
@[simp] theorem setMyCore_free (s : State) (c : Core) : (setMyCore s c).free = s.free := rfl

/-! ### Reading back -/

@[simp] theorem getStrand_setStrand (s : State) (k j : Nat) (t : Strand) :
    getStrand (setStrand s k t) j = if j = k then t else getStrand s j := aGet_aSet ..
@[simp] theorem getCord_setCord (s : State) (k j : Nat) (c : Cord) :
    getCord (setCord s k c) j = if j = k then c else getCord s j := aGet_aSet ..
@[simp] theorem getCore_setCore (s : State) (k j : Nat) (c : Core) :
    getCore (setCore s k c) j = if j = k then c else getCore s j := aGet_aSet ..
@[simp] theorem getStrand_setMe (s : State) (j : Nat) (t : Strand) :
    getStrand (setMe s t) j = if j = focusStrand s then t else getStrand s j := aGet_aSet ..
@[simp] theorem getCord_setMyCord (s : State) (j : Nat) (c : Cord) :
    getCord (setMyCord s c) j = if j = focusCord s then c else getCord s j := aGet_aSet ..
@[simp] theorem getCore_setMyCore (s : State) (j : Nat) (c : Core) :
    getCore (setMyCore s c) j = if j = s.focus.core then c else getCore s j := aGet_aSet ..

@[simp] theorem setStrand_getCord (s : State) (k : Nat) (t : Strand) (j : Nat) : getCord (setStrand s k t) j = getCord s j := rfl
@[simp] theorem setStrand_myCord (s : State) (k : Nat) (t : Strand) : myCord (setStrand s k t) = myCord s := rfl
@[simp] theorem setStrand_getCore (s : State) (k : Nat) (t : Strand) (j : Nat) : getCore (setStrand s k t) j = getCore s j := rfl
@[simp] theorem setStrand_myCore (s : State) (k : Nat) (t : Strand) : myCore (setStrand s k t) = myCore s := rfl
@[simp] theorem setStrand_focusStrand (s : State) (k : Nat) (t : Strand) : focusStrand (setStrand s k t) = focusStrand s := rfl
@[simp] theorem setStrand_focusCord (s : State) (k : Nat) (t : Strand) : focusCord (setStrand s k t) = focusCord s := rfl
@[simp] theorem setCord_getStrand (s : State) (k : Nat) (c : Cord) (j : Nat) : getStrand (setCord s k c) j = getStrand s j := rfl
@[simp] theorem setCord_me (s : State) (k : Nat) (c : Cord) : me (setCord s k c) = me s := rfl
@[simp] theorem setCord_getCore (s : State) (k : Nat) (c : Cord) (j : Nat) : getCore (setCord s k c) j = getCore s j := rfl
@[simp] theorem setCord_myCore (s : State) (k : Nat) (c : Cord) : myCore (setCord s k c) = myCore s := rfl
@[simp] theorem setCord_focusStrand (s : State) (k : Nat) (c : Cord) : focusStrand (setCord s k c) = focusStrand s := rfl
@[simp] theorem setCord_focusCord (s : State) (k : Nat) (c : Cord) : focusCord (setCord s k c) = focusCord s := rfl
@[simp] theorem setCore_getStrand (s : State) (k : Nat) (c : Core) (j : Nat) : getStrand (setCore s k c) j = getStrand s j := rfl
@[simp] theorem setCore_me (s : State) (k : Nat) (c : Core) : me (setCore s k c) = me s := rfl
@[simp] theorem setCore_getCord (s : State) (k : Nat) (c : Core) (j : Nat) : getCord (setCore s k c) j = getCord s j := rfl
@[simp] theorem setCore_myCord (s : State) (k : Nat) (c : Core) : myCord (setCore s k c) = myCord s := rfl
@[simp] theorem setCore_focusStrand (s : State) (k : Nat) (c : Core) : focusStrand (setCore s k c) = focusStrand s := rfl
@[simp] theorem setCore_focusCord (s : State) (k : Nat) (c : Core) : focusCord (setCore s k c) = focusCord s := rfl
@[simp] theorem setMe_getCord (s : State) (t : Strand) (j : Nat) : getCord (setMe s t) j = getCord s j := rfl
@[simp] theorem setMe_myCord (s : State) (t : Strand) : myCord (setMe s t) = myCord s := rfl
@[simp] theorem setMe_getCore (s : State) (t : Strand) (j : Nat) : getCore (setMe s t) j = getCore s j := rfl
@[simp] theorem setMe_myCore (s : State) (t : Strand) : myCore (setMe s t) = myCore s := rfl
@[simp] theorem setMe_focusStrand (s : State) (t : Strand) : focusStrand (setMe s t) = focusStrand s := rfl
@[simp] theorem setMe_focusCord (s : State) (t : Strand) : focusCord (setMe s t) = focusCord s := rfl
@[simp] theorem setMyCord_getStrand (s : State) (c : Cord) (j : Nat) : getStrand (setMyCord s c) j = getStrand s j := rfl
@[simp] theorem setMyCord_me (s : State) (c : Cord) : me (setMyCord s c) = me s := rfl
@[simp] theorem setMyCord_getCore (s : State) (c : Cord) (j : Nat) : getCore (setMyCord s c) j = getCore s j := rfl
@[simp] theorem setMyCord_myCore (s : State) (c : Cord) : myCore (setMyCord s c) = myCore s := rfl
@[simp] theorem setMyCord_focusStrand (s : State) (c : Cord) : focusStrand (setMyCord s c) = focusStrand s := rfl
@[simp] theorem setMyCord_focusCord (s : State) (c : Cord) : focusCord (setMyCord s c) = focusCord s := rfl
@[simp] theorem setMyCore_getStrand (s : State) (c : Core) (j : Nat) : getStrand (setMyCore s c) j = getStrand s j := rfl
@[simp] theorem setMyCore_me (s : State) (c : Core) : me (setMyCore s c) = me s := rfl
@[simp] theorem setMyCore_getCord (s : State) (c : Core) (j : Nat) : getCord (setMyCore s c) j = getCord s j := rfl
@[simp] theorem setMyCore_myCord (s : State) (c : Core) : myCord (setMyCore s c) = myCord s := rfl
@[simp] theorem setMyCore_focusStrand (s : State) (c : Core) : focusStrand (setMyCore s c) = focusStrand s := rfl
@[simp] theorem setMyCore_focusCord (s : State) (c : Core) : focusCord (setMyCore s c) = focusCord s := rfl

@[simp] theorem me_setMe (s : State) (t : Strand) : me (setMe s t) = t := by simp [me]
@[simp] theorem myCord_setMyCord (s : State) (c : Cord) : myCord (setMyCord s c) = c := by simp [myCord]
@[simp] theorem myCore_setMyCore (s : State) (c : Core) : myCore (setMyCore s c) = c := by simp [myCore]
@[simp] theorem setMe_setMe (s : State) (t u : Strand) : setMe (setMe s t) u = setMe s u := by
  simp [setMe, setStrand, focusStrand, aSet_aSet]

end Sys2Proof.Machine
end

