-- ==== Sys2Proof/Laws/Words.lean ====
section
/-! SUPPORT. The frame of a strand word: what issuing, writing registers, going on and finishing can do. -/

namespace Sys2Proof.Machine

/-! ### Nothing but the focus moves -/

/-- Outside the strand in focus, the flags of cords, the core's view and the open choices, nothing has changed. -/
def outsideKept (s t : State) : Prop :=
  t = { s with strands := t.strands, cords := t.cords, cores := t.cores, dieLag := t.dieLag, free := t.free } ∧
  (∀ k, k ≠ focusStrand s → getStrand t k = getStrand s k) ∧
  (∀ k, getCore t k = { getCore s k with view := (getCore t k).view })

theorem outsideKept_refl (s : State) : outsideKept s s := ⟨rfl, fun _ _ => rfl, fun _ => rfl⟩

theorem outsideKept_focus {s t : State} (h : outsideKept s t) : t.focus = s.focus := by rw [h.1]

theorem outsideKept_trans {s t u : State} (h : outsideKept s t) (g : outsideKept t u) : outsideKept s u := by
  have hf := outsideKept_focus h
  refine ⟨?_, ?_, ?_⟩
  · rw [g.1, h.1]
  · intro k hk
    rw [g.2.1 k (by simpa [focusStrand, hf] using hk), h.2.1 k hk]
  · intro k
    rw [g.2.2 k, h.2.2 k]

theorem outsideKept_setMe (s : State) (t : Strand) : outsideKept s (setMe s t) :=
  ⟨rfl, fun k hk => by simp [hk], fun _ => rfl⟩

theorem outsideKept_setMyCord (s : State) (c : Cord) : outsideKept s (setMyCord s c) := ⟨rfl, fun _ _ => rfl, fun _ => rfl⟩

theorem outsideKept_orFlags (s : State) (f : Flags) : outsideKept s (orFlags s f) := by
  unfold orFlags; split
  · exact outsideKept_refl s
  · exact outsideKept_setMyCord ..

theorem outsideKept_free (s : State) (n : Nat) : outsideKept s { s with free := n } := ⟨rfl, fun _ _ => rfl, fun _ => rfl⟩

theorem outsideKept_setView (s : State) (core : Nat) : outsideKept s (setCore s core { getCore s core with view := [] }) := by
  refine ⟨rfl, fun _ _ => rfl, fun k => ?_⟩
  rw [getCore_setCore]
  by_cases hk : k = core
  · subst hk; simp
  · simp [hk]

theorem outsideKept_dieLag (s : State) (d : AMap (AMap (Byte × Nat))) : outsideKept s { s with dieLag := d } :=
  ⟨rfl, fun _ _ => rfl, fun _ => rfl⟩

theorem outsideKept_refresh (s : State) (core sc : Nat) : outsideKept s (refresh s core sc) := by
  unfold refresh
  have h : outsideKept s (if (getCore s core).view.isEmpty then s else setCore s core { getCore s core with view := [] }) := by
    split
    · exact outsideKept_refl s
    · exact outsideKept_setView ..
  split
  · exact outsideKept_refl s
  · dsimp only
    split
    · exact h
    · exact outsideKept_trans h (outsideKept_dieLag ..)

@[simp] theorem refresh_getCord (s : State) (core sc k : Nat) : getCord (refresh s core sc) k = getCord s k := by
  simp only [refresh]; repeat' split
  all_goals rfl

@[simp] theorem refresh_me (s : State) (core sc : Nat) : me (refresh s core sc) = me s := by
  simp only [refresh]; repeat' split
  all_goals rfl

@[simp] theorem refresh_free (s : State) (core sc : Nat) : (refresh s core sc).free = s.free := by
  simp only [refresh]; repeat' split
  all_goals rfl

/-! ### Joining tokens -/

theorem joinTokens_outside (s : State) (rs : List Nat) : outsideKept s (joinTokens s rs) := by
  simp only [joinTokens]; split
  · exact outsideKept_refl s
  · exact outsideKept_trans (outsideKept_setMe ..) (outsideKept_refresh ..)

@[simp] theorem joinTokens_getCord (s : State) (rs : List Nat) (k : Nat) : getCord (joinTokens s rs) k = getCord s k := by
  simp only [joinTokens]; split <;> simp

@[simp] theorem joinTokens_free (s : State) (rs : List Nat) : (joinTokens s rs).free = s.free := by
  simp only [joinTokens]; split <;> simp

theorem joinTokens_me (s : State) (rs : List Nat) : me (joinTokens s rs) = { me s with joins := (me (joinTokens s rs)).joins } := by
  simp only [joinTokens]; split <;> simp

theorem issued_outside (i : Instr) (s : State) : outsideKept s (issued i s) := by
  simp only [issued]; repeat' split
  · exact outsideKept_refl s
  · exact outsideKept_refl s
  · exact joinTokens_outside ..

@[simp] theorem issued_getCord (i : Instr) (s : State) (k : Nat) : getCord (issued i s) k = getCord s k := by
  simp only [issued]; repeat' split
  all_goals simp

@[simp] theorem issued_free (i : Instr) (s : State) : (issued i s).free = s.free := by
  simp only [issued]; repeat' split
  all_goals simp

theorem issued_me (i : Instr) (s : State) : me (issued i s) = { me s with joins := (me (issued i s)).joins } := by
  simp only [issued]; repeat' split
  · rfl
  · rfl
  · exact joinTokens_me ..

@[simp] theorem issued_focus (i : Instr) (s : State) : (issued i s).focus = s.focus := outsideKept_focus (issued_outside i s)

@[simp] theorem issued_myCord (i : Instr) (s : State) : myCord (issued i s) = myCord s := by
  simp [myCord, focusCord]

@[simp] theorem issued_v (i : Instr) (s : State) : (me (issued i s)).v = (me s).v := by rw [issued_me]
@[simp] theorem issued_s (i : Instr) (s : State) : (me (issued i s)).s = (me s).s := by rw [issued_me]
@[simp] theorem issued_p (i : Instr) (s : State) : (me (issued i s)).p = (me s).p := by rw [issued_me]
@[simp] theorem issued_pend (i : Instr) (s : State) : (me (issued i s)).pend = (me s).pend := by rw [issued_me]
@[simp] theorem issued_handler (i : Instr) (s : State) : (me (issued i s)).handler = (me s).handler := by rw [issued_me]
@[simp] theorem issued_clause (i : Instr) (s : State) : (me (issued i s)).clause = (me s).clause := by rw [issued_me]
@[simp] theorem issued_threads (i : Instr) (s : State) : (me (issued i s)).threads = (me s).threads := by rw [issued_me]

@[simp] theorem issued_curClause? (i : Instr) (s : State) : curClause? (issued i s) = curClause? s := by simp [curClause?]
@[simp] theorem issued_act (i : Instr) (s : State) : act (issued i s) = act s := by simp [act, curClause]
@[simp] theorem issued_readP (i : Instr) (s : State) (k : Nat) (l : Lane) : readP (issued i s) k l = readP s k l := by
  have hs : ∀ (ps : List PendWrite) (d : Dest) (n j : Nat) (x : Word), settleRead (issued i s) n d x ps j = settleRead s n d x ps j := by
    intro ps
    induction ps with
    | nil => intros; rfl
    | cons w t ih => intros; simp only [settleRead, issued_free, ih]
  simp [readP, hs, predBits, pendWrites]
@[simp] theorem issued_enabled (i : Instr) (s : State) (w : SWord) : enabled (issued i s) w = enabled s w := by simp [enabled]
@[simp] theorem issued_computeLanes (i : Instr) (s : State) (w : SWord) : computeLanes (issued i s) w = computeLanes s w := by
  simp [computeLanes, onceLane]

/-! ### Going on after a word -/

theorem curClause?_me (s : State) : curClause? s = match (me s).handler with
  | some h => h.clause
  | none => (me s).clause := rfl

/-- A strand of which the next word is due. -/
def advanced (a : Strand) : Strand :=
  let past (c : Clause) : Bool := c.act == 0 || decide (c.nm1 ≤ c.word)
  let following (c : Clause) : VAddr := c.hdr + 8 + BitVec.ofNat 56 (8 * (c.nm1 + 1))
  match a.handler with
  | some h => match h.clause with
    | none => a
    | some c => { a with handler := some (if past c then { h with clause := none, pc := if inMask c.act 0 then following c else h.pc }
        else { h with clause := some { c with word := c.word + 1 } }) }
  | none => match a.clause with
    | none => a
    | some c => if past c then { a with clause := none, threads := Lanes.tab (fun l =>
          let x := a.threads.get l
          let y := if inMask c.act l then { x with pc := following c, place := none } else x
          if inMask c.group l && y.isReady then { y with stamp := a.sel } else y) }
      else { a with clause := some { c with word := c.word + 1 } }

/-- Going on from a word is a change of the strand in focus. -/
theorem advance_setMe (s : State) (m : Strand) : advance (setMe s m) = setMe s (advanced m) := by
  have h0 : ∀ l, inMask (0#32) l = false := inMask_zero
  unfold advance advanced
  simp only [curClause?_me, me_setMe]
  cases hh : m.handler with
  | some h =>
    dsimp only
    cases hc : h.clause with
    | none => rfl
    | some c =>
      dsimp only
      by_cases ha : c.act = 0#32
      · simp [endClause, curClause?_me, hh, hc, ha, h0]
      · by_cases hw : c.nm1 ≤ c.word
        · cases hx : inMask c.act 0 <;>
          simp [transfer, leaveClause, setClause, endClause, curClause?_me, hh, hc, hx, ha, hw, nextHeader, curClause]
        · simp [setClause, hh, ha, hw]
  | none =>
    dsimp only
    cases hc : m.clause with
    | none => rfl
    | some c =>
      dsimp only
      by_cases ha : c.act = 0#32
      · simp [endClause, curClause?_me, hh, hc, ha, h0, ite_and, Strand.modThreads]
      · by_cases hw : c.nm1 ≤ c.word
        · simp [transfer, leaveClause, setClause, endClause, curClause?_me, hh, hc, ha, hw, nextHeader, curClause, ite_and, Strand.modThreads]
        · simp [setClause, hh, ha, hw]

/-- What finishing a word leaves. -/
theorem finishWord_eq (sw : Bool) (u : State) : finishWord sw u = goneOn sw u := by
  unfold finishWord goneOn
  generalize (if sw = true then settleAll u else u) = v
  dsimp only
  refine (advance_setMe { v with free := v.free + 1 } _).trans ?_
  refine congrArg (setMe { v with free := v.free + 1 }) ?_
  unfold wentOn advanced Strand.unblock
  cases hh : (me v).handler with
  | some h =>
    dsimp only <;> cases hc : h.clause <;> rfl
  | none =>
    dsimp only <;> cases hc : (me v).clause <;> rfl

/-! ### Running a word -/

theorem issues_split {i : Instr} {w : SWord} {f : Form} {s : State} (hf : strandForm i = some (w, f)) (hi : issues i s = true) :
    wordTrap f w s = none ∧ (if enabled s w = 0 then none else tokenRead f w s) = none ∧
      issued i s = if enabled s w = 0 then s else joinTokens s (f.reads w) := by
  unfold issues at hi
  unfold issued
  rw [hf] at hi ⊢
  dsimp only at hi ⊢
  rw [Bool.and_eq_true, Bool.or_eq_true, Option.isNone_iff_eq_none, Option.isNone_iff_eq_none, beq_iff_eq] at hi
  refine ⟨hi.1, ?_, rfl⟩
  split
  · rfl
  · rename_i h; exact hi.2.resolve_left h

/-- A word that issues runs its body, from the state in which it is issued. -/
theorem runForm_issues {i : Instr} {w : SWord} {f : Form} {s : State} (body : State → Res) (hf : strandForm i = some (w, f))
    (hi : issues i s = true) :
    runForm f w body s = match body (issued i s) with
      | .done t => goneOn w.sw t
      | .trap c aux => preciseTrap s c aux
      | .wait st t => stallAt st t := by
  obtain ⟨h1, h2, h3⟩ := issues_split hf hi
  unfold runForm
  rw [h1, h2, h3]
  simp only [finishWord_eq] <;> rfl

/-- A word that issues, whose effect can be made, finishes. -/
theorem runForm_done {i : Instr} {w : SWord} {f : Form} {body : State → Res} {s u : State} (hf : strandForm i = some (w, f))
    (hi : issues i s = true) (hb : body (issued i s) = .done u) : runForm f w body s = goneOn w.sw u := by
  rw [runForm_issues body hf hi, hb]

/-- A word that issues, and traps. -/
theorem runForm_trap {i : Instr} {w : SWord} {f : Form} {body : State → Res} {s : State} {c : TrapCode} {x : DWord}
    (hf : strandForm i = some (w, f)) (hi : issues i s = true) (hb : body (issued i s) = .trap c x) :
    runForm f w body s = preciseTrap s c x := by
  rw [runForm_issues body hf hi, hb]

/-- A word that issues, and waits. -/
theorem runForm_wait {i : Instr} {w : SWord} {f : Form} {body : State → Res} {s u : State} {st : Stall}
    (hf : strandForm i = some (w, f)) (hi : issues i s = true) (hb : body (issued i s) = .wait st u) :
    runForm f w body s = stallAt st u := by
  rw [runForm_issues body hf hi, hb]

/-- A strand instruction runs by its form. -/
theorem runWord_eq {i : Instr} {w : SWord} {f : Form} (body : SWord → State → Res) (s : State) (hf : strandForm i = some (w, f)) :
    runWord i body s = runForm f w (body w) s := by
  unfold runWord; rw [hf]

end Sys2Proof.Machine
end

