-- ==== Sys2Proof/Laws/Results.lean ====
section
/-! SUPPORT. What writing a register leaves, what finishing a word leaves, and what a word that computes in lanes leaves. -/

namespace Sys2Proof.Machine

/-! ### Keeping the strand -/

theorem strandKept_refl (a : Strand) : strandKept a a := ⟨rfl, rfl⟩

theorem strandKept_trans {a b c : Strand} (h : strandKept a b) (g : strandKept b c) : strandKept a c := by
  refine ⟨?_, g.2.trans h.2⟩
  rw [g.1, h.1]

theorem regsKept_refl (a : Strand) : regsKept a a := ⟨rfl, rfl, rfl, rfl⟩

theorem regsKept_trans {a b c : Strand} (h : regsKept a b) (g : regsKept b c) : regsKept a c :=
  ⟨g.1.trans h.1, g.2.1.trans h.2.1, g.2.2.1.trans h.2.2.1, g.2.2.2.trans h.2.2.2⟩

theorem wrote_kept {w : SWord} {n : Nat} {en : LaneMask} {val : Lane → DWord} {a b c : Strand} (h : wrote w n en val a b)
    (g : regsKept b c) : wrote w n en val a c := by
  obtain ⟨h1, h2, h3, h4⟩ := h
  obtain ⟨g1, g2, g3, g4⟩ := g
  refine ⟨?_, ?_, g3.trans h3, g4.trans h4⟩
  · intro r l
    rw [← h1 r l]; simp only [vLane, g1]
  · intro r
    rw [g2]; exact h2 r

/-! ### Register writes -/

@[simp] theorem vLane_putV (t : Strand) (r j : Nat) (en : LaneMask) (f : Lane → Word) (l : Lane) :
    vLane (putV t r en f) j l = if j = r ∧ inMask en l = true then f l else vLane t j l := by
  simp only [vLane, putV, aGet_aSet]
  by_cases hj : j = r
  · subst hj; simp
  · simp [hj]

@[simp] theorem vLane_putS (t : Strand) (r j : Nat) (x : Word) (l : Lane) : vLane (putS t r x) j l = vLane t j l := rfl
@[simp] theorem putV_s (t : Strand) (r : Nat) (en : LaneMask) (f : Lane → Word) : (putV t r en f).s = t.s := rfl
@[simp] theorem putS_s (t : Strand) (r j : Nat) (x : Word) : aGet 0 (putS t r x).s j = if j = r then x else aGet 0 t.s j := by
  simp [putS, aGet_aSet]
@[simp] theorem putS_v (t : Strand) (r : Nat) (x : Word) : (putS t r x).v = t.v := rfl

theorem scalar_not_vector {d : BitVec 8} (h : isScalar d = true) : isVector d = false := by
  simp only [isScalar, isVector, Bool.and_eq_true, decide_eq_true_eq, decide_eq_false_iff_not] at *; omega

/-- What a register write leaves. -/
theorem putReg_wrote (t : Strand) (w : SWord) (n : Nat) (en : LaneMask) (val : Lane → DWord) :
    wrote w n en val t (putReg t w.d n en val) := by
  unfold putReg
  cases hv : isVector w.d
  · simp only [Bool.false_eq_true, if_false]
    cases hs : isScalar w.d
    · simp only [Bool.false_eq_true, if_false]
      exact ⟨fun r l => by simp [hv], fun r => by simp [hs], rfl, rfl⟩
    · simp only [if_true]
      cases hl : lowestLane en with
      | none => exact ⟨fun r l => by simp [hv], fun r => by simp [hs, hl], rfl, rfl⟩
      | some l =>
        refine ⟨fun r l => ?_, fun r => ?_, ?_, ?_⟩
        · simp only [hv, Bool.false_and, Bool.false_eq_true, if_false]; split <;> rfl
        · simp only [hs, hl, if_true]
          by_cases hn : n = 2
          · simp only [hn, if_true, putS_s, true_and]
            by_cases h1 : r = w.d.toNat - 192 + 1
            · subst h1; simp
            · simp [h1]
          · simp only [hn, if_false, false_and]; exact putS_s ..
        · dsimp only; split <;> rfl
        · dsimp only; split <;> rfl
  · have hs : isScalar w.d = false := by
      cases h : isScalar w.d
      · rfl
      · rw [scalar_not_vector h] at hv; exact absurd hv (by simp)
    simp only [if_true]
    refine ⟨fun r l => ?_, fun r => ?_, ?_, ?_⟩
    · by_cases hn : n = 2
      · simp only [hn, if_true, vLane_putV, hv]
        by_cases h1 : r = w.d.toNat <;> by_cases h2 : r = w.d.toNat + 1 <;> by_cases h3 : inMask en l = true <;> simp_all
      · simp only [hn, if_false, vLane_putV, hv]
        by_cases h1 : r = w.d.toNat <;> by_cases h3 : inMask en l = true <;> simp_all
    · simp only [hs, Bool.false_eq_true, if_false]; split <;> rfl
    · split <;> rfl
    · split <;> rfl

theorem putReg_strandKept (t : Strand) (d : BitVec 8) (n : Nat) (en : LaneMask) (val : Lane → DWord) :
    strandKept t (putReg t d n en val) := by
  unfold putReg
  repeat' split
  all_goals exact ⟨rfl, rfl⟩

theorem race_isEmpty (p : List Pending) (hit : Dest → Bool) : (race p hit).isEmpty = p.isEmpty := by cases p <;> rfl

theorem race_race (p : List Pending) (f g : Dest → Bool) : race (race p f) g = race p (fun d => f d || g d) := by
  simp only [race, List.map_map]
  apply List.map_congr_left
  intro e _
  simp only [Function.comp, List.map_map]
  congr 1
  apply List.map_congr_left
  intro w _
  simp only [Function.comp]
  by_cases hf : f w.dest = true <;> by_cases hg : g w.dest = true <;> simp [hf, hg]

theorem race_none (p : List Pending) {f : Dest → Bool} (h : ∀ d, f d = false) : race p f = p := by
  simp [race, h]

theorem race_congr (p : List Pending) {f g : Dest → Bool} (h : ∀ d, f d = g d) : race p f = race p g := by
  rw [show f = g from funext h]

/-- Which outstanding results a register write races with. -/
theorem putReg_pend (t : Strand) (d : BitVec 8) (n : Nat) (en : LaneMask) (val : Lane → DWord) :
    (putReg t d n en val).pend = race t.pend (writtenIn d n en) := by
  unfold putReg
  cases hv : isVector d
  · simp only [Bool.false_eq_true, if_false]
    cases hs : isScalar d
    · simp only [Bool.false_eq_true, if_false]
      exact (race_none _ (fun x => by cases x <;> simp [writtenIn, hv, hs])).symm
    · simp only [if_true]
      cases hl : lowestLane en with
      | none => exact (race_none _ (fun x => by cases x <;> simp [writtenIn, hv, lowestLane_none hl])).symm
      | some l =>
        have hen : (en != 0) = true := by
          simp only [bne_iff_ne, ne_eq]; intro e; rw [e, lowestLane_zero] at hl; cases hl
        have hsc : ∀ r, writtenIn d n en (.s r) = (r == d.toNat - 0xC0 || n == 2 && r == d.toNat - 0xC0 + 1) := by
          intro r; simp only [writtenIn, hs, hen, Bool.true_and]
        by_cases hn : n = 2
        · simp only [hn, if_true, putS]
          rw [race_race]
          apply race_congr; intro x
          cases x with
          | s r => subst hn; rw [hsc]; simp
          | v r l => simp [writtenIn, hv]
          | p r l => rfl
        · simp only [hn, if_false, putS]
          apply race_congr; intro x
          cases x with
          | s r => rw [hsc]; simp [hn]
          | v r l => simp [writtenIn, hv]
          | p r l => rfl
  · have hs : isScalar d = false := by
      cases h : isScalar d
      · rfl
      · rw [scalar_not_vector h] at hv; exact absurd hv (by simp)
    simp only [if_true]
    by_cases hn : n = 2
    · simp only [hn, if_true, putV]
      rw [race_race]
      apply race_congr; intro x
      cases x with
      | v r l => cases hm : inMask en l <;> simp [writtenIn, hv, hm]
      | s r => simp [writtenIn, hs]
      | p r l => rfl
    · simp only [hn, if_false, putV]
      apply race_congr; intro x
      cases x with
      | v r l => cases hm : inMask en l <;> simp [writtenIn, hv, hm, hn]
      | s r => simp [writtenIn, hs]
      | p r l => rfl

/-! ### Going on after a word -/

@[simp] theorem modThreads_get (t : Strand) (m : LaneMask) (f : Lane → Thread → Thread) (l : Lane) :
    (t.modThreads m f).threads.get l = if inMask m l then f l (t.threads.get l) else t.threads.get l := by
  simp [Strand.modThreads]

theorem modThreads_eq (t : Strand) (m : LaneMask) (f : Lane → Thread → Thread) : t.modThreads m f = { t with threads := (t.modThreads m f).threads } := by
  unfold Strand.modThreads; dsimp only
@[simp] theorem modThreads_pend (t : Strand) (m : LaneMask) (f : Lane → Thread → Thread) : (t.modThreads m f).pend = t.pend := by
  rw [modThreads_eq]

theorem settleAll_empty {s : State} (h : (me s).pend.isEmpty = true) : settleAll s = s := by
  unfold settleAll; rw [if_pos h]

/-! ### A word whose effect is to write its destination -/

@[simp] theorem orFlags_me (s : State) (f : Flags) : me (orFlags s f) = me s := by unfold orFlags; split <;> simp
@[simp] theorem orFlags_free (s : State) (f : Flags) : (orFlags s f).free = s.free := by unfold orFlags; split <;> rfl
@[simp] theorem orFlags_focus (s : State) (f : Flags) : (orFlags s f).focus = s.focus := by unfold orFlags; split <;> rfl
theorem orFlags_getCord (s : State) (f : Flags) (k : Nat) :
    getCord (orFlags s f) k = if k = focusCord s then (if f = 0 then getCord s k else (getCord s k).orFlags f) else getCord s k := by
  unfold orFlags
  by_cases h : f = 0
  · simp [h]
  · simp only [h, if_false, getCord_setMyCord]
    split
    · rename_i hk; rw [hk]; rfl
    · rfl

theorem restKept_of {fl : Flags} {s t : State} (h : outsideKept s t) (hf : t.free = s.free)
    (hc : ∀ k, getCord t k = if k = focusCord s then (if fl = 0 then getCord s k else (getCord s k).orFlags fl) else getCord s k) :
    restKept fl s t := ⟨by have := h.1; rw [hf] at this; exact this, h.2.1, hc, h.2.2⟩

theorem focus_keys {s t : State} (h : t.focus = s.focus) : focusStrand t = focusStrand s ∧ focusCord t = focusCord s := by
  simp [focusStrand, focusCord, h]

/-- An effect on the strand in focus and on its flags, from the state in which the word is issued, leaves the rest. -/
theorem effect_rest (i : Instr) (s : State) (m : Strand) (fl : Flags) : restKept fl s (orFlags (setMe (issued i s) m) fl) :=
  restKept_of (outsideKept_trans (issued_outside i s) (outsideKept_trans (outsideKept_setMe _ _) (outsideKept_orFlags _ _))) (by simp)
    (fun k => by rw [orFlags_getCord]; simp [(focus_keys (issued_focus i s)).2])

theorem issued_strandKept (i : Instr) (s : State) : strandKept (me s) (me (issued i s)) := by
  rw [issued_me]; exact ⟨rfl, rfl⟩

theorem issued_regsKept (i : Instr) (s : State) : regsKept (me s) (me (issued i s)) := by
  rw [issued_me]; exact ⟨rfl, rfl, rfl, rfl⟩

/-- What writing n registers from D up in the lanes of en leaves of the strand, from the state in which the word is issued. -/
theorem issued_wrote (i : Instr) (s : State) (w : SWord) (n : Nat) (en : LaneMask) (val : Lane → DWord) :
    let m := putReg (me (issued i s)) w.d n en val
    wrote w n en val (me s) m ∧ m.pend = race (me s).pend (writtenIn w.d n en) ∧ strandKept (me s) m := by
  obtain ⟨h1, h2, h3, h4⟩ := putReg_wrote (me (issued i s)) w n en val
  obtain ⟨g1, g2, g3, g4⟩ := issued_regsKept i s
  refine ⟨⟨fun r l => ?_, fun r => ?_, h3.trans g3, h4.trans g4⟩, by rw [putReg_pend, issued_pend],
    strandKept_trans (issued_strandKept i s) (putReg_strandKept ..)⟩
  · rw [h1]; simp only [vLane, g1]
  · rw [h2 r, g2]

/-- A word that computes a register result at once in each lane. -/
theorem lanes_wrote {i : Instr} {w : SWord} {f : Form} {s : State} (n : SWord → Nat) (g : SWord → State → Lane → DWord × Flags)
    (hf : strandForm i = some (w, f)) (hi : issues i s = true) :
    ∃ u, runWord i (lanes .fixed n g) s = goneOn w.sw u ∧ wordWrote w (n w) (g w (issued i s)) s u := by
  obtain ⟨h1, h2, h3⟩ := issued_wrote i s w (n w) (computeLanes s w) (fun l => (g w (issued i s) l).1)
  refine ⟨orFlags (setMe (issued i s) (putReg (me (issued i s)) w.d (n w) (computeLanes s w) (fun l => (g w (issued i s) l).1)))
    (flagsOf (computeLanes s w) (fun l => (g w (issued i s) l).2)), ?_, ?_⟩
  · rw [runWord_eq _ _ hf]
    exact runForm_done hf hi (by simp only [lanes, result, Cls.lat, issued_computeLanes])
  · refine ⟨by simpa using h1, by simpa using h2, by simpa using h3, effect_rest ..⟩

/-- An instruction whose body computes a register result at once in each lane. -/
theorem writes_lanes {mk : SWord → Instr} {f : SWord → Form} (n : SWord → Nat) (g : SWord → State → Lane → DWord × Flags)
    (hf : ∀ w, strandForm (mk w) = some (w, f w)) (he : ∀ w s, exec (mk w) s = .next (runWord (mk w) (lanes .fixed n g) s)) :
    writes mk n g := by
  intro w s hi
  obtain ⟨u, h1, h2⟩ := lanes_wrote n g (hf w) hi
  exact ⟨u, by rw [he, h1], h2⟩

/-- The same where a condition makes the body such a one. -/
theorem writesIf_lanes {mk : SWord → Instr} {f : SWord → Form} {cond : SWord → State → Bool} {body : SWord → State → Res} (n : SWord → Nat)
    (g : SWord → State → Lane → DWord × Flags) (hf : ∀ w, strandForm (mk w) = some (w, f w))
    (he : ∀ w s, exec (mk w) s = .next (runWord (mk w) body s)) (hb : ∀ w s, cond w s = true → body w s = lanes .fixed n g w s) :
    writesIf mk cond n g := by
  intro w s hi hc
  obtain ⟨u, h1, h2⟩ := lanes_wrote n g (hf w) hi
  refine ⟨u, ?_, h2⟩
  rw [← h1, he, runWord_eq _ _ (hf w), runWord_eq _ _ (hf w), runForm_issues _ (hf w) hi, runForm_issues _ (hf w) hi, hb w _ hc]

/-- An instruction whose body traps where a condition holds. -/
theorem trapsIf_of {mk : SWord → Instr} {f : SWord → Form} {cond : SWord → State → Bool} {body : SWord → State → Res} {c : TrapCode}
    {x : SWord → DWord} (hf : ∀ w, strandForm (mk w) = some (w, f w)) (he : ∀ w s, exec (mk w) s = .next (runWord (mk w) body s))
    (hb : ∀ w s, cond w s = true → body w s = .trap c (x w)) : trapsIf mk cond c x := by
  intro w s hi hc
  rw [he, runWord_eq _ _ (hf w), runForm_trap (hf w) hi (hb w _ hc)]

/-- An instruction whose body always makes its effect. -/
theorem does_of {mk : SWord → Instr} {f : SWord → Form} {body : SWord → State → Res} {effect : SWord → State → State}
    (hf : ∀ w, strandForm (mk w) = some (w, f w)) (he : ∀ w s, exec (mk w) s = .next (runWord (mk w) body s))
    (hb : ∀ w s, body w s = .done (effect w s)) : does mk effect := by
  intro w s hi
  rw [he, runWord_eq _ _ (hf w), runForm_done (hf w) hi (hb w _)]

/-- An instruction whose body makes its effect where a condition holds. -/
theorem doesIf_of {mk : SWord → Instr} {f : SWord → Form} {cond : SWord → State → Bool} {body : SWord → State → Res}
    {effect : SWord → State → State} (hf : ∀ w, strandForm (mk w) = some (w, f w))
    (he : ∀ w s, exec (mk w) s = .next (runWord (mk w) body s)) (hb : ∀ w s, cond w s = true → body w s = .done (effect w s)) :
    doesIf mk cond effect := by
  intro w s hi hc
  rw [he, runWord_eq _ _ (hf w), runForm_done (hf w) hi (hb w _ hc)]

/-- An instruction whose body waits where a condition holds. -/
theorem waitsIf_of {mk : SWord → Instr} {f : SWord → Form} {cond : SWord → State → Bool} {body : SWord → State → Res}
    {st : SWord → State → Stall} {effect : SWord → State → State} (hf : ∀ w, strandForm (mk w) = some (w, f w))
    (he : ∀ w s, exec (mk w) s = .next (runWord (mk w) body s))
    (hb : ∀ w s, cond w s = true → body w s = .wait (st w s) (effect w s)) : waitsIf mk cond st effect := by
  intro w s hi hc
  rw [he, runWord_eq _ _ (hf w), runForm_wait (hf w) hi (hb w _ hc)]

/-- The value that an instruction writes, in other words. -/
theorem writes_congr {mk : SWord → Instr} {n : SWord → Nat} {g h : SWord → State → Lane → DWord × Flags} (e : ∀ w s l, g w s l = h w s l)
    (k : writes mk n g) : writes mk n h := by
  have : g = h := by funext w s l; exact e w s l
  exact this ▸ k

/-- The state in which a word is issued is as before but for the tokens that have been joined. -/
theorem issued_kept (i : Instr) (s : State) : regsKept (me s) (me (issued i s)) ∧ (me (issued i s)).pend = (me s).pend ∧
    strandKept (me s) (me (issued i s)) ∧ restKept 0 s (issued i s) :=
  ⟨issued_regsKept i s, issued_pend i s, issued_strandKept i s, restKept_of (issued_outside i s) (by simp) (fun k => by simp)⟩

@[simp] theorem orFlags_zero (s : State) : orFlags s 0#32 = s := by unfold orFlags; exact if_pos rfl

end Sys2Proof.Machine
end

