-- ==== Sys2Proof/Laws/Preds.lean ====
section
/-! SUPPORT. What writing a predicate leaves, and what a word that decides a predicate leaves. -/

namespace Sys2Proof.Machine

theorem predBits_eq (s : State) (i : Nat) : predBits s i = predOf (me s) i := rfl

theorem predOf_kept {a b : Strand} (h : predsKept a b) (j : Nat) : predOf b j = predOf a j := by
  obtain ⟨h1, h2⟩ := h
  simp only [predOf]
  split
  · rfl
  · cases ha : a.handler <;> cases hb : b.handler <;> simp_all

theorem putP_strandKept (t : Strand) (i : Nat) (en : LaneMask) (f : Lane → Bool) : strandKept t (putP t i en f) := by
  unfold putP
  split
  · exact strandKept_refl t
  · dsimp only
    split
    · rename_i h hh
      split
      · exact ⟨rfl, by simp [hh]⟩
      · exact strandKept_refl t
    · exact ⟨rfl, rfl⟩

theorem putP_regs (t : Strand) (i : Nat) (en : LaneMask) (f : Lane → Bool) :
    (putP t i en f).v = t.v ∧ (putP t i en f).s = t.s := by
  unfold putP
  split
  · exact ⟨rfl, rfl⟩
  · dsimp only
    split
    · split <;> exact ⟨rfl, rfl⟩
    · exact ⟨rfl, rfl⟩

/-- Which outstanding results a predicate write races with. -/
theorem putP_pend (t : Strand) (i : Nat) (en : LaneMask) (f : Lane → Bool) : (putP t i en f).pend = race t.pend (decidedIn t i en) := by
  unfold putP
  split
  · rename_i h7
    exact (race_none _ (fun x => by cases x <;> simp [decidedIn, h7])).symm
  · rename_i h7
    dsimp only
    split
    · rename_i h hh
      split
      · rename_i he
        dsimp only; apply race_congr; intro x
        have : (i != 7) = true := by simpa using h7
        cases x <;> simp [decidedIn, this, hh, he]
      · rename_i he
        exact (race_none _ (fun x => by cases x <;> simp [decidedIn, hh, he])).symm
    · rename_i hh
      dsimp only; apply race_congr; intro x
      have : (i != 7) = true := by simpa using h7
      cases x <;> simp [decidedIn, this, hh]

theorem preds_bit (p : BitVec 8) (i j : Nat) (hi : i < 8) (b : Bool) :
    (if b then p ||| BitVec.twoPow 8 i else p &&& ~~~BitVec.twoPow 8 i).getLsbD j = if j = i then b else p.getLsbD j := by
  cases b
  · by_cases h : j = i
    · subst h; simp [hi]
    · by_cases hj : j < 8
      · simp [h, hj]
      · simp [h, BitVec.getLsbD_of_ge _ _ (Nat.le_of_not_lt hj)]
  · by_cases h : j = i
    · subst h; simp [hi]
    · simp [h, BitVec.getLsbD_twoPow]; intro _ e; exact absurd e.symm h

/-- What a predicate write leaves. -/
theorem putP_after (t : Strand) (i : Nat) (hi : i < 8) (en : LaneMask) (f : Lane → Bool) : predsAfter i en f t (putP t i en f) := by
  unfold putP
  split
  · rename_i h7
    exact ⟨fun j l _ _ => by simp [h7], fun _ => rfl⟩
  · rename_i h7
    dsimp only
    split
    · rename_i h hh
      split
      · rename_i he
        refine ⟨fun j l hj hl => ?_, fun _ => rfl⟩
        have hl0 : l = 0 := by simpa [hh] using hl
        subst hl0
        simp only [predOf, hh, preds_bit _ _ _ hi]
        by_cases hji : j = i
        · subst hji; simp [h7, he]; cases f 0 <;> decide
        · simp [hji]
      · rename_i he
        refine ⟨fun j l hj hl => ?_, fun _ => rfl⟩
        have hl0 : l = 0 := by simpa [hh] using hl
        subst hl0
        simp [he]
    · rename_i hh
      refine ⟨fun j l hj _ => ?_, fun h => absurd hh h⟩
      simp only [predOf, hh, aGet_aSet]
      by_cases h77 : j = 7
      · subst h77; simp; intro e; exact absurd e.symm h7
      · by_cases hji : j = i
        · subst hji; simp [h7]
        · simp [h77, hji]

/-- What writing predicate k in the lanes of en leaves of the strand, from the state in which the word is issued. -/
theorem issued_decided (i : Instr) (s : State) {k : Nat} (hk : k < 8) (en : LaneMask) (val : Lane → Bool) :
    let m := putP (me (issued i s)) k en val
    predsAfter k en val (me s) m ∧ m.v = (me s).v ∧ m.s = (me s).s ∧ m.pend = race (me s).pend (decidedIn (me s) k en) ∧
      strandKept (me s) m := by
  have h := putP_after (me (issued i s)) k hk en val
  have hr := putP_regs (me (issued i s)) k en val
  obtain ⟨g1, g2, g3⟩ := issued_regsKept i s
  refine ⟨⟨fun j l hj hl => ?_, fun hh => ?_⟩, hr.1.trans g1, hr.2.trans g2, ?_,
    strandKept_trans (issued_strandKept i s) (putP_strandKept ..)⟩
  · rw [h.1 j l hj (by simpa using hl), predOf_kept g3]
  · rw [h.2 (by simpa using hh)]; exact g3.1
  · rw [putP_pend, issued_pend]; exact race_congr _ (fun x => by cases x <;> simp [decidedIn])

/-- The operand fields of a word that issues are well formed. -/
theorem issues_wf {i : Instr} {w : SWord} {f : Form} {s : State} (hf : strandForm i = some (w, f)) (hi : issues i s = true) :
    f.wf w = true := by
  have h := (issues_split hf hi).1
  unfold wordTrap at h
  cases hw : f.wf w
  · simp [hw] at h
  · rfl

/-- A word that decides a predicate at once in each enabled lane. -/
theorem predResult_decided {i : Instr} {w : SWord} {f : Form} {s : State} (g : SWord → State → Lane → Bool × Flags)
    (hf : strandForm i = some (w, f)) (hd : f.d = pfld) (hi : issues i s = true) :
    ∃ u, runWord i (predResult g) s = goneOn w.sw u ∧ wordDecided w w.d.toNat (g w (issued i s)) s u := by
  have hk : w.d.toNat < 8 := by
    have h := issues_wf hf hi
    unfold Form.wf at h
    simp only [Bool.and_eq_true] at h
    have hw : f.d.wf w.d = true := by simp_all
    rw [hd] at hw
    simp only [pfld, Fld.wf, decide_eq_true_eq] at hw
    omega
  obtain ⟨h1, h2, h3, h4, h5⟩ := issued_decided i s hk (enabled s w) (fun l => (g w (issued i s) l).1)
  refine ⟨orFlags (setMe (issued i s) (putP (me (issued i s)) w.d.toNat (enabled s w) (fun l => (g w (issued i s) l).1)))
    (flagsOf (enabled s w) (fun l => (g w (issued i s) l).2)), ?_, ?_⟩
  · rw [runWord_eq _ _ hf]
    exact runForm_done hf hi (by simp only [predResult, issued_enabled])
  · unfold wordDecided
    rw [orFlags_me, me_setMe]
    exact ⟨h1, h2, h3, h4, h5, effect_rest ..⟩

/-- An instruction whose body decides a predicate at once in each enabled lane. -/
theorem decides_pred {mk : SWord → Instr} {f : SWord → Form} (g : SWord → State → Lane → Bool × Flags)
    (hf : ∀ w, strandForm (mk w) = some (w, f w)) (hd : ∀ w, (f w).d = pfld)
    (he : ∀ w s, exec (mk w) s = .next (runWord (mk w) (predResult g) s)) : decides mk g := by
  intro w s hi
  obtain ⟨u, h1, h2⟩ := predResult_decided g (hf w) (hd w) hi
  exact ⟨u, by rw [he, h1], h2⟩

theorem decides_congr {mk : SWord → Instr} {g h : SWord → State → Lane → Bool × Flags} (e : ∀ w s l, g w s l = h w s l)
    (k : decides mk g) : decides mk h := by
  have : g = h := by funext w s l; exact e w s l
  exact this ▸ k

end Sys2Proof.Machine
end

