-- ==== Sys2Proof/Laws/Later.lean ====
section
/-! SUPPORT. Results that come later: what making outstanding writes leaves, and what a word with such results leaves. -/

namespace Sys2Proof.Machine

/-! ### Making writes one after another -/

theorem foldl_putV_lanes (d n : Nat) (val : Lane → DWord) (ls : List Lane) (t : Strand) :
    let u := (ls.flatMap (fun l => (⟨.v d l, loW (val l), false⟩ : PendWrite) ::
      (if n = 2 then [⟨.v (d + 1) l, hiW (val l), false⟩] else []))).foldl makeWrite t
    (∀ r l, vLane u r l = if l ∈ ls ∧ r = d then loW (val l) else if l ∈ ls ∧ n = 2 ∧ r = d + 1 then hiW (val l) else vLane t r l) ∧
      u.s = t.s ∧ predsKept t u ∧ strandKept t u ∧ (t.pend = [] → u.pend = []) := by
  induction ls generalizing t with
  | nil => exact ⟨fun r l => by simp, rfl, ⟨rfl, rfl⟩, strandKept_refl t, fun h => h⟩
  | cons k ks ih =>
    simp only [List.flatMap_cons, List.foldl_append, List.foldl_cons]
    generalize hu : (if n = 2 then [(⟨.v (d + 1) k, hiW (val k), false⟩ : PendWrite)] else []).foldl makeWrite
      (makeWrite t ⟨.v d k, loW (val k), false⟩) = u
    have h1 : ∀ r l, vLane u r l = if l = k ∧ r = d then loW (val l) else if l = k ∧ n = 2 ∧ r = d + 1 then hiW (val l) else vLane t r l := by
      intro r l
      subst hu
      by_cases hn : n = 2
      · simp only [hn, if_true, List.foldl_cons, List.foldl_nil, makeWrite, vLane_putV, inMask_laneBit, decide_eq_true_eq]
        by_cases hl : l = k
        · subst hl
          by_cases hr : r = d
          · subst hr; simp
          · by_cases hr2 : r = d + 1 <;> simp [hr, hr2]
        · simp [hl]
      · simp only [hn, if_false, List.foldl_nil, makeWrite, vLane_putV, inMask_laneBit, decide_eq_true_eq]
        by_cases hl : l = k
        · subst hl; simp
        · simp [hl]
    have h2 : u.s = t.s ∧ predsKept t u ∧ strandKept t u ∧ (t.pend = [] → u.pend = []) := by
      subst hu
      by_cases hn : n = 2
      · simp only [hn, if_true, List.foldl_cons, List.foldl_nil, makeWrite]
        exact ⟨rfl, ⟨rfl, rfl⟩, ⟨rfl, rfl⟩, fun h => by simp [putV, race, h]⟩
      · simp only [hn, if_false, List.foldl_nil, makeWrite]
        exact ⟨rfl, ⟨rfl, rfl⟩, ⟨rfl, rfl⟩, fun h => by simp [putV, race, h]⟩
    obtain ⟨i1, i2, i3, i4, i5⟩ := ih u
    refine ⟨fun r l => ?_, i2.trans h2.1, ⟨i3.1.trans h2.2.1.1, i3.2.trans h2.2.1.2⟩, strandKept_trans h2.2.2.1 i4, fun h => i5 (h2.2.2.2 h)⟩
    rw [i1, h1]
    by_cases hl : l = k
    · subst hl; simp only [List.mem_cons, true_or, true_and]
      by_cases hr : r = d
      · subst hr; simp
      · by_cases hr2 : n = 2 ∧ r = d + 1 <;> simp [hr, hr2]
    · simp [hl]

/-- Making the writes of a register result leaves it written. -/
theorem foldl_regWrites (w : SWord) (n : Nat) (en : LaneMask) (val : Lane → DWord) (t : Strand) :
    let u := (regWrites w.d n en val).foldl makeWrite t
    wrote w n en val t u ∧ strandKept t u ∧ (t.pend = [] → u.pend = []) := by
  unfold regWrites
  cases hv : isVector w.d
  · simp only [Bool.false_eq_true, if_false]
    cases hs : isScalar w.d
    · simp only [Bool.false_eq_true, if_false]
      exact ⟨⟨fun r l => by simp [hv], fun r => by simp [hs], rfl, rfl⟩, strandKept_refl t, fun h => h⟩
    · simp only [if_true]
      cases hl : lowestLane en with
      | none => exact ⟨⟨fun r l => by simp [hv], fun r => by simp [hs, hl], rfl, rfl⟩, strandKept_refl t, fun h => h⟩
      | some l =>
        have hp := putReg_wrote t w n en val
        have hk := putReg_strandKept t w.d n en val
        have e : (let r := w.d.toNat - 0xC0
            (⟨.s r, loW (val l), false⟩ : PendWrite) :: (if n = 2 then [⟨.s (r + 1), hiW (val l), false⟩] else [])).foldl makeWrite t =
            putReg t w.d n en val := by
          simp only [putReg, hv, hs, hl, Bool.false_eq_true, if_false, if_true, List.foldl_cons, makeWrite]
          split <;> rfl
        dsimp only at e ⊢
        rw [e]
        refine ⟨hp, hk, fun h => ?_⟩
        rw [putReg_pend, h]; rfl
  · have hs : isScalar w.d = false := by
      cases h : isScalar w.d
      · rfl
      · rw [scalar_not_vector h] at hv; exact absurd hv (by simp)
    simp only [if_true]
    obtain ⟨h1, h2, h3, h4, h5⟩ := foldl_putV_lanes w.d.toNat n val (lanesOf en) t
    refine ⟨⟨fun r l => ?_, fun r => by simp [hs, h2], h3⟩, h4, h5⟩
    rw [h1]
    simp only [mem_lanesOf, hv]
    by_cases a : inMask en l = true <;> by_cases b : r = w.d.toNat <;> by_cases c : n = 2 <;> by_cases d : r = w.d.toNat + 1 <;>
      simp_all

/-- Making the writes of a predicate leaves it decided. -/
theorem foldl_predWrites (i : Nat) (hi : i < 8) (en : LaneMask) (f : Lane → Bool) (t : Strand) :
    let u := (predWrites i en f).foldl makeWrite t
    predsAfter i en f t u ∧ u.v = t.v ∧ u.s = t.s ∧ strandKept t u ∧ (t.pend = [] → u.pend = []) := by
  unfold predWrites
  split
  · rename_i h7
    exact ⟨⟨fun j l _ _ => by simp [h7], fun _ => rfl⟩, rfl, rfl, strandKept_refl t, fun h => h⟩
  · rename_i h7
    have key : ∀ (ls : List Lane) (t : Strand),
        let u := (ls.map (fun l => (⟨.p i l, if f l then 1 else 0, false⟩ : PendWrite))).foldl makeWrite t
        ((∀ j l, j < 8 → t.handler = none ∨ l = 0 → inMask (predOf u j) l =
          if j = i ∧ l ∈ ls then f l else inMask (predOf t j) l) ∧ (t.handler ≠ none → u.p = t.p)) ∧
        u.v = t.v ∧ u.s = t.s ∧ strandKept t u ∧ (t.pend = [] → u.pend = []) ∧ (u.handler = none ↔ t.handler = none) := by
      intro ls
      induction ls with
      | nil => intro t; exact ⟨⟨fun j l _ _ => by simp, fun _ => rfl⟩, rfl, rfl, strandKept_refl t, fun h => h, Iff.rfl⟩
      | cons k ks ih =>
        intro t
        simp only [List.map_cons, List.foldl_cons]
        have hm : makeWrite t ⟨.p i k, if f k then 1 else 0, false⟩ = putP t i (laneBit k) f := by
          simp only [makeWrite]
          unfold putP
          rw [if_neg h7, if_neg h7]
          dsimp only
          split
          · rename_i h hh
            by_cases hk : inMask (laneBit k) 0 = true
            · have : (0 : Lane) = k := by simpa using hk
              subst this
              simp only [hk, if_true]
              cases f 0 <;> simp
            · simp [hk]
          · have : (fun l => if inMask (laneBit k) l then ((if f k then 1 else 0 : Word) != 0) else inMask (aGet 0 t.p i) l) =
                (fun l => if inMask (laneBit k) l then f l else inMask (aGet 0 t.p i) l) := by
              funext l
              by_cases hl : l = k
              · subst hl; cases f l <;> simp
              · simp [hl]
            rw [this]
        rw [hm]
        have h1 := putP_after t i hi (laneBit k) f
        have h2 := putP_regs t i (laneBit k) f
        have h3 := putP_strandKept t i (laneBit k) f
        have h4 : (putP t i (laneBit k) f).handler = none ↔ t.handler = none := by
          have := h3.2
          cases ha : t.handler <;> cases hb : (putP t i (laneBit k) f).handler <;> simp_all
        have h5 : t.pend = [] → (putP t i (laneBit k) f).pend = [] := by
          intro h
          rw [putP_pend, h]; rfl
        obtain ⟨⟨i1, i1'⟩, i2, i3, i4, i5, i6⟩ := ih (putP t i (laneBit k) f)
        refine ⟨⟨fun j l hj hl => ?_, fun h => ?_⟩, i2.trans h2.1, i3.trans h2.2, strandKept_trans h3 i4, fun h => i5 (h5 h),
          i6.trans h4⟩
        · rw [i1 j l hj (hl.imp h4.mpr id), h1.1 j l hj hl]
          by_cases hji : j = i
          · subst hji
            by_cases hk : l = k
            · subst hk; simp [h7]
            · simp [hk]
          · simp [hji]
        · rw [i1' (fun e => h (h4.mp e)), h1.2 h]
    obtain ⟨⟨k1, k1'⟩, k2, k3, k4, k5, _⟩ := key (lanesOf en) t
    refine ⟨⟨fun j l hj hl => ?_, k1'⟩, k2, k3, k4, k5⟩
    rw [k1 j l hj hl]
    simp [h7]

/-! ### Settling -/

theorem landWrites_unraced (s : State) (t : Strand) (ws : List PendWrite) (h : ∀ w ∈ ws, w.raced = false) :
    landWrites s t ws = ws.foldl makeWrite t := by
  unfold landWrites
  have hf : ws.zipIdx.filter (fun x => landWrite s x.2 x.1) = ws.zipIdx := by
    apply List.filter_eq_self.mpr
    intro x hx
    have := List.fst_mem_of_mem_zipIdx hx
    simp [landWrite, h x.1 this]
  rw [hf]
  have : ws.foldl makeWrite t = (ws.zipIdx.map Prod.fst).foldl makeWrite t := by rw [List.zipIdx_map_fst]
  rw [this, List.foldl_map]

/-- Settling one outstanding result without race or error makes its writes. -/
theorem settleAll_one {s : State} {e : Pending} (h : (me s).pend = [e]) (hw : ∀ w ∈ e.writes, w.raced = false) (hp : e.poison = []) :
    settleAll s = setMe s (e.writes.foldl makeWrite { me s with pend := [] }) := by
  unfold settleAll settle
  rw [h]
  have h1 : e.writes.filter (!·.raced) = e.writes := by
    apply List.filter_eq_self.mpr
    intro x hx; simp [hw x hx]
  have h2 : e.writes.filter (·.raced) = [] := by
    apply List.filter_eq_nil_iff.mpr
    intro x hx; simp [hw x hx]
  simp only [List.isEmpty_cons, Bool.false_eq_true, if_false, List.flatMap_cons, List.flatMap_nil, List.append_nil, h1, h2,
    List.foldl_cons, List.foldl_nil, hp, List.map_nil]
  rw [landWrites_unraced _ _ _ hw]
  unfold faultLanes
  rfl

theorem regWrites_unraced {d : BitVec 8} {n : Nat} {en : LaneMask} {val : Lane → DWord} : ∀ w ∈ regWrites d n en val, w.raced = false := by
  intro w hw
  unfold regWrites at hw
  split at hw
  · simp only [List.mem_flatMap, List.mem_cons] at hw
    obtain ⟨l, _, h | h⟩ := hw
    · rw [h]
    · split at h
      · simp only [List.mem_singleton] at h; rw [h]
      · exact absurd h (by simp)
  · split at hw
    · split at hw
      · exact absurd hw (by simp)
      · simp only [List.mem_cons] at hw
        rcases hw with h | h
        · rw [h]
        · split at h
          · simp only [List.mem_singleton] at h; rw [h]
          · exact absurd h (by simp)
    · exact absurd hw (by simp)

theorem predWrites_unraced {i : Nat} {en : LaneMask} {f : Lane → Bool} : ∀ w ∈ predWrites i en f, w.raced = false := by
  intro w hw
  unfold predWrites at hw
  split at hw
  · exact absurd hw (by simp)
  · simp only [List.mem_map] at hw
    obtain ⟨l, _, h⟩ := hw
    rw [← h]

/-- A strand that goes on keeps its registers, its predicates and what it has outstanding. -/
theorem wentOn_regs (a : Strand) : regsKept a (wentOn a) ∧ (wentOn a).pend = a.pend := by
  unfold wentOn
  dsimp only
  cases hh : a.handler with
  | some h =>
    refine ⟨⟨rfl, rfl, rfl, ?_⟩, rfl⟩
    dsimp only; rw [hh]
    cases hc : h.clause with
    | none => rfl
    | some c => dsimp only; split <;> rfl
  | none =>
    dsimp only
    cases hc : a.clause with
    | none => exact ⟨⟨rfl, rfl, rfl, by simp [hh]⟩, rfl⟩
    | some c => dsimp only; split <;> exact ⟨⟨rfl, rfl, rfl, by simp [hh]⟩, rfl⟩

@[simp] theorem me_goneOn (sw : Bool) (u : State) : me (goneOn sw u) = wentOn (me (if sw then settleAll u else u)) := me_setMe _ _

/-- A word whose body makes writes outstanding, and adds flags. -/
theorem word_later {i : Instr} {w : SWord} {f : Form} {body : State → Res} {s : State} {c : LatClass} {ws : List PendWrite}
    {made : Strand → Strand → Prop} {fl : Flags} (hf : strandForm i = some (w, f)) (hi : issues i s = true)
    (hw : ∀ w ∈ ws, w.raced = false) (hm : ∀ t, made t (ws.foldl makeWrite t) ∧ (t.pend = [] → (ws.foldl makeWrite t).pend = []))
    (hmade : ∀ a a' b b', regsKept a a' → regsKept b b' → made a' b → made a b')
    (hb : body (issued i s) =
      .done (orFlags (setMe (issued i s) (pushPend (me (issued i s)) c ws [] (curClause s).hdr (curClause s).word)) fl)) :
    ∃ u, runForm f w body s = goneOn w.sw u ∧ wordLater c ws fl s u ∧ madeBy w.sw made s u := by
  refine ⟨_, runForm_done hf hi hb, ?_, ?_⟩
  · refine ⟨?_, ?_, ?_, effect_rest ..⟩
    · rw [orFlags_me, me_setMe]
      refine regsKept_trans (issued_regsKept i s) ?_
      unfold pushPend; split <;> exact ⟨rfl, rfl, rfl, rfl⟩
    · rw [orFlags_me, me_setMe]
      unfold pushPend
      cases ws with
      | nil => simp
      | cons a t => simp
    · rw [orFlags_me, me_setMe]
      refine strandKept_trans (issued_strandKept i s) ?_
      unfold pushPend; split <;> exact ⟨rfl, rfl⟩
  · intro hsw hq
    have hp : (me (issued i s)).pend = [] := by rw [issued_pend, hq]
    rw [me_goneOn, if_pos hsw]
    generalize hu : orFlags (setMe (issued i s) (pushPend (me (issued i s)) c ws [] (curClause s).hdr (curClause s).word)) fl = u
    have key : ∃ t, me (settleAll u) = ws.foldl makeWrite t ∧ regsKept (me s) t ∧ t.pend = [] := by
      unfold pushPend at hu
      by_cases he : ws = []
      · subst he
        have hm : me u = me (issued i s) := by rw [← hu]; simp
        refine ⟨me (issued i s), ?_, issued_regsKept i s, hp⟩
        rw [settleAll_empty (by rw [hm, hp]; rfl), hm]; rfl
      · have he' : ws.isEmpty = false := by cases ws <;> simp_all
        simp only [he', Bool.false_and, Bool.false_eq_true, if_false, hp, race, List.map_nil, List.nil_append] at hu
        have hup : (me u).pend = [{ cls := c, writes := ws, poison := [], pc := (curClause s).hdr, word := (curClause s).word }] := by
          rw [← hu]; simp
        refine ⟨{ me u with pend := [] }, ?_, ?_, rfl⟩
        · rw [settleAll_one hup hw rfl]; simp
        · rw [← hu]; simp only [orFlags_me, me_setMe]
          exact regsKept_trans (issued_regsKept i s) ⟨rfl, rfl, rfl, rfl⟩
    obtain ⟨t, k1, k2, k3⟩ := key
    have g := wentOn_regs (me (settleAll u))
    rw [g.2, k1]
    refine ⟨hmade _ _ _ _ k2 ?_ (hm t).1, (hm t).2 k3⟩
    rw [← k1]; exact g.1

/-- A word whose register result comes later. -/
theorem word_later_reg {i : Instr} {w : SWord} {f : Form} {body : State → Res} {s : State} {cl : Cls} {c : LatClass}
    (hc : cl.lat = some c) {n : Nat} {val : Lane → DWord × Flags} (hf : strandForm i = some (w, f)) (hi : issues i s = true)
    (hb : body (issued i s) = .done (result w cl n val (issued i s))) :
    let en := computeLanes s w
    ∃ u, runForm f w body s = goneOn w.sw u ∧ wordLater c (regWrites w.d n en (fun l => (val l).1)) (flagsOf en (fun l => (val l).2)) s u ∧
      madeBy w.sw (wrote w n en (fun l => (val l).1)) s u := by
  refine word_later hf hi regWrites_unraced (fun t => ?_) ?_ ?_
  · obtain ⟨h1, _, h3⟩ := foldl_regWrites w n (computeLanes s w) (fun l => (val l).1) t
    exact ⟨h1, h3⟩
  · intro a a' b b' ha hb h
    obtain ⟨h1, h2, h3⟩ := wrote_kept h hb
    obtain ⟨g1, g2, g3, g4⟩ := ha
    exact ⟨fun r l => by rw [h1]; simp only [vLane, g1], fun r => by rw [h2 r, g2], h3.1.trans g3, h3.2.trans g4⟩
  · rw [hb]; simp only [result, hc, issued_computeLanes, curClause, issued_curClause?]

/-- A write of a predicate between strands with the same registers. -/
theorem predsAfter_kept {i : Nat} {en : LaneMask} {f : Lane → Bool} {a a' b b' : Strand} (ha : regsKept a a') (hb : regsKept b b')
    (h : predsAfter i en f a' b) : predsAfter i en f a b' := by
  have hn : a'.handler = none ↔ a.handler = none := by
    have := ha.2.2.2
    cases x : a.handler <;> cases y : a'.handler <;> simp_all
  refine ⟨fun j l hj hl => ?_, fun e => ?_⟩
  · rw [predOf_kept hb.2.2, h.1 j l hj (hl.imp hn.mpr id), predOf_kept ha.2.2]
  · rw [hb.2.2.1, h.2 (fun x => e (hn.mp x)), ha.2.2.1]

/-- A word whose predicate comes later. -/
theorem word_later_pred {i : Instr} {w : SWord} {f : Form} {body : State → Res} {s : State} {c : LatClass} {k : Nat} (hk : k < 8)
    {en : LaneMask} {val : Lane → Bool} (hf : strandForm i = some (w, f)) (hi : issues i s = true)
    (hb : body (issued i s) =
      .done (setMe (issued i s) (pushPend (me (issued i s)) c (predWrites k en val) [] (curClause s).hdr (curClause s).word))) :
    ∃ u, runForm f w body s = goneOn w.sw u ∧ wordLater c (predWrites k en val) 0 s u ∧
      madeBy w.sw (fun x y => predsAfter k en val x y ∧ y.v = x.v ∧ y.s = x.s) s u := by
  refine word_later hf hi predWrites_unraced (fun t => ?_) ?_ ?_
  · obtain ⟨h1, h2, h3, h4, h5⟩ := foldl_predWrites k hk en val t
    exact ⟨⟨h1, h2, h3⟩, h5⟩
  · rintro a a' b b' ha hb ⟨h1, h2, h3⟩
    exact ⟨predsAfter_kept ha hb h1, hb.1.trans (h2.trans ha.1), hb.2.1.trans (h3.trans ha.2.1)⟩
  · rw [hb]; exact congrArg Res.done (orFlags_zero _).symm

/-- An instruction whose body computes register results that come later. -/
theorem writesLater_lanes {mk : SWord → Instr} {f : SWord → Form} {cl : Cls} {c : LatClass} (hc : cl.lat = some c) (n : SWord → Nat)
    (g : SWord → State → Lane → DWord × Flags) (hf : ∀ w, strandForm (mk w) = some (w, f w))
    (he : ∀ w s, exec (mk w) s = .next (runWord (mk w) (lanes cl n g) s)) : writesLater mk c n g := by
  intro w s hi
  obtain ⟨u, h1, h2⟩ := word_later_reg (body := lanes cl n g w) (val := g w (issued (mk w) s)) (n := n w) hc (hf w) hi rfl
  exact ⟨u, by rw [he, runWord_eq _ _ (hf w), h1], h2⟩

theorem writesLater_congr {mk : SWord → Instr} {c : LatClass} {n : SWord → Nat} {g h : SWord → State → Lane → DWord × Flags}
    (e : ∀ w s l, g w s l = h w s l) (k : writesLater mk c n g) : writesLater mk c n h := by
  have : g = h := by funext w s l; exact e w s l
  exact this ▸ k

end Sys2Proof.Machine
end

