-- ==== Sys2Proof/Laws/Once.lean ====
section
/-! SUPPORT. Words that act once for the strand. -/

namespace Sys2Proof.Machine

/-- Where no active lane is enabled, the state in which the word is issued is the state. -/
theorem issued_idle {mk : SWord → Instr} {f : SWord → Form} (hf : ∀ w, strandForm (mk w) = some (w, f w)) {w : SWord} {s : State}
    (h : enabled s w = 0) : issued (mk w) s = s := by
  unfold issued; rw [hf]; exact if_pos h

theorem doesOnce_body {mk : SWord → Instr} {f : SWord → Form} {body : SWord → State → Res} {cond : SWord → Lane → State → Bool}
    {effect : SWord → Lane → State → State} (hf : ∀ w, strandForm (mk w) = some (w, f w))
    (he : ∀ w s, exec (mk w) s = .next (runWord (mk w) body s))
    (hb : ∀ w l s, lowestLane (enabled s w) = some l → cond w l s = true → body w s = .done (effect w l s)) :
    doesOnce mk cond effect := by
  intro w s l hi hl hc
  rw [he, runWord_eq _ _ (hf w), runForm_done (hf w) hi (hb w l _ (by rw [issued_enabled]; exact hl) hc)]

theorem waitsOnce_body {mk : SWord → Instr} {f : SWord → Form} {body : SWord → State → Res} {cond : SWord → Lane → State → Bool}
    {st : SWord → Lane → State → Stall} {effect : SWord → Lane → State → State} (hf : ∀ w, strandForm (mk w) = some (w, f w))
    (he : ∀ w s, exec (mk w) s = .next (runWord (mk w) body s))
    (hb : ∀ w l s, lowestLane (enabled s w) = some l → cond w l s = true → body w s = .wait (st w l s) (effect w l s)) :
    waitsOnce mk cond st effect := by
  intro w s l hi hl hc
  rw [he, runWord_eq _ _ (hf w), runForm_wait (hf w) hi (hb w l _ (by rw [issued_enabled]; exact hl) hc)]

theorem trapsOnce_body {mk : SWord → Instr} {f : SWord → Form} {body : SWord → State → Res} {cond : SWord → Lane → State → Bool}
    {c : TrapCode} (hf : ∀ w, strandForm (mk w) = some (w, f w)) (he : ∀ w s, exec (mk w) s = .next (runWord (mk w) body s))
    (hb : ∀ w l s, lowestLane (enabled s w) = some l → cond w l s = true → body w s = .trap c 0) : trapsOnce mk cond c := by
  intro w s l hi hl hc
  rw [he, runWord_eq _ _ (hf w), runForm_trap (hf w) hi (hb w l _ (by rw [issued_enabled]; exact hl) hc)]

/-- A word whose body does nothing where no active lane is enabled. -/
theorem idle_body {mk : SWord → Instr} {f : SWord → Form} {body : SWord → State → Res} (hf : ∀ w, strandForm (mk w) = some (w, f w))
    (he : ∀ w s, exec (mk w) s = .next (runWord (mk w) body s)) (hb : ∀ w s, enabled s w = 0 → body w s = .done s) : idle mk := by
  intro w s hi h0
  rw [he, runWord_eq _ _ (hf w), runForm_done (hf w) hi (hb w _ (by rw [issued_enabled]; exact h0)), issued_idle hf h0]

/-- A body that runs once. -/
theorem once_some {g : SWord → Lane → State → Res} {w : SWord} {s : State} {l : Lane} (h : lowestLane (enabled s w) = some l) :
    once g w s = g w l s := by
  unfold once onceLane; rw [h]

theorem once_none {g : SWord → Lane → State → Res} {w : SWord} {s : State} (h : enabled s w = 0) : once g w s = .done s := by
  unfold once onceLane; rw [h, lowestLane_zero]

theorem idle_once {mk : SWord → Instr} {f : SWord → Form} {g : SWord → Lane → State → Res} (hf : ∀ w, strandForm (mk w) = some (w, f w))
    (he : ∀ w s, exec (mk w) s = .next (runWord (mk w) (once g) s)) : idle mk :=
  idle_body hf he (fun _ _ h => once_none h)

theorem doesOnce_once {mk : SWord → Instr} {f : SWord → Form} {g : SWord → Lane → State → Res} {cond : SWord → Lane → State → Bool}
    {effect : SWord → Lane → State → State} (hf : ∀ w, strandForm (mk w) = some (w, f w))
    (he : ∀ w s, exec (mk w) s = .next (runWord (mk w) (once g) s))
    (hb : ∀ w l s, cond w l s = true → g w l s = .done (effect w l s)) : doesOnce mk cond effect :=
  doesOnce_body hf he (fun w l s h c => by rw [once_some h, hb w l s c])

theorem waitsOnce_once {mk : SWord → Instr} {f : SWord → Form} {g : SWord → Lane → State → Res} {cond : SWord → Lane → State → Bool}
    {st : SWord → Lane → State → Stall} {effect : SWord → Lane → State → State} (hf : ∀ w, strandForm (mk w) = some (w, f w))
    (he : ∀ w s, exec (mk w) s = .next (runWord (mk w) (once g) s))
    (hb : ∀ w l s, cond w l s = true → g w l s = .wait (st w l s) (effect w l s)) : waitsOnce mk cond st effect :=
  waitsOnce_body hf he (fun w l s h c => by rw [once_some h, hb w l s c])

theorem trapsOnce_once {mk : SWord → Instr} {f : SWord → Form} {g : SWord → Lane → State → Res} {cond : SWord → Lane → State → Bool}
    {c : TrapCode} (hf : ∀ w, strandForm (mk w) = some (w, f w))
    (he : ∀ w s, exec (mk w) s = .next (runWord (mk w) (once g) s))
    (hb : ∀ w l s, cond w l s = true → g w l s = .trap c 0) : trapsOnce mk cond c :=
  trapsOnce_body hf he (fun w l s h k => by rw [once_some h, hb w l s k])

end Sys2Proof.Machine
end

