-- ==== Sys2Proof/Laws/Moves.lean ====
section
/-! SUPPORT. Where the lanes of a strand stand after a transfer and after a word. -/

namespace Sys2Proof.Machine

theorem transfer_plain {s : State} (h : (me s).handler = none) (m : LaneMask) (target : Lane → VAddr) :
    transfer s m target = leaveClause (setMe s ((me s).modThreads m (fun l x => { x with pc := target l, place := none }))) m := by
  unfold transfer; dsimp only; rw [h]

theorem modThreads_handler (t : Strand) (m : LaneMask) (f : Lane → Thread → Thread) : (t.modThreads m f).handler = t.handler := by
  rw [modThreads_eq]
theorem modThreads_clause (t : Strand) (m : LaneMask) (f : Lane → Thread → Thread) : (t.modThreads m f).clause = t.clause := by
  rw [modThreads_eq]

theorem setClause_plain {s : State} (h : (me s).handler = none) (c : Option Clause) :
    setClause s c = setMe s { me s with clause := c } := by
  unfold setClause; dsimp only; rw [h]

theorem curClause?_plain {s : State} (h : (me s).handler = none) : curClause? s = (me s).clause := by
  unfold curClause?; rw [h]

/-- Where a transfer leaves the strand. -/
theorem transfer_me {s : State} {c : Clause} (h : (me s).handler = none) (hc : (me s).clause = some c) (m : LaneMask) (target : Lane → VAddr) :
    me (transfer s m target) =
      { (me s).modThreads m (fun l x => { x with pc := target l, place := none }) with clause := some { c with act := c.act &&& ~~~m } } := by
  rw [transfer_plain h]
  unfold leaveClause
  rw [curClause?_plain (by rw [me_setMe]; rw [modThreads_handler]; exact h), me_setMe, modThreads_clause, hc]
  dsimp only
  rw [setClause_plain (by rw [me_setMe, modThreads_handler]; exact h), me_setMe, me_setMe]

end Sys2Proof.Machine
end

