-- ==== Sys2Proof/Laws/Fetch.lean ====
section
/-! SUPPORT. What a fetch of code changes: a cache of translations, and nothing else. -/

namespace Sys2Proof.Machine

theorem cacheTlb_only (s : State) (core : Nat) (t : Tlb) : ∃ c, cacheTlb s core t = { s with cores := c } := by
  unfold cacheTlb; dsimp only
  split
  · exact ⟨s.cores, rfl⟩
  · exact ⟨_, rfl⟩

/-- A fetch changes the core's cache of translations only. -/
theorem fetchAt_only {s t : State} {core job : Nat} {a : VAddr} {r : DWord} (h : fetchAt s core job a = .word r t) :
    ∃ c, t = { s with cores := c } := by
  unfold fetchAt at h
  split at h
  · cases h
  · split at h
    · cases h
    · split at h
      · cases h
      · split at h
        · split at h
          · cases h; exact cacheTlb_only ..
          · cases h; exact ⟨s.cores, rfl⟩
        · cases h

/-- The strand in focus is as it was after a fetch of its code. -/
theorem strandFetch_me {s t : State} {a : VAddr} {r : DWord} (h : strandFetch s a = .word r t) : me t = me s := by
  obtain ⟨c, rfl⟩ := fetchAt_only h
  rfl

end Sys2Proof.Machine
end

