-- ==== Sys2Proof/Laws/Access.lean ====
section
/-! SUPPORT. Loads, stores and atomics whose accesses pass their checks. -/

namespace Sys2Proof.Machine

theorem onceFor_dab (w : SWord) : onceFor [w.d, w.a, w.b] = onceDAB w := by simp [onceFor, onceDAB, Bool.and_assoc]

theorem goodOf_placed {ls : List Lane} {t : Lane → DWord × Except TrapCode Place} (h : ∀ l ∈ ls, ∃ p, (t l).2 = .ok p) :
    goodOf (ls.map (fun l => (l, t l))) = ls.map (accessOf t) := by
  induction ls with
  | nil => rfl
  | cons l r ih =>
    obtain ⟨p, hp⟩ := h l (List.mem_cons_self ..)
    have ih := ih (fun k hk => h k (List.mem_cons_of_mem _ hk))
    unfold goodOf at ih ⊢
    rw [List.map_cons, List.filterMap_cons]
    simp only [hp, List.map_cons, ih]
    simp [accessOf, placeOf, hp]

theorem faultsOf_placed {one : Bool} {en : LaneMask} {ls : List Lane} {t : Lane → DWord × Except TrapCode Place}
    (h : ∀ l ∈ ls, ∃ p, (t l).2 = .ok p) : faultsOf one en (ls.map (fun l => (l, t l))) = [] := by
  unfold faultsOf
  rw [List.flatMap_eq_nil_iff]
  intro x hx
  obtain ⟨l, hl, rfl⟩ := List.mem_map.mp hx
  obtain ⟨p, hp⟩ := h l hl
  simp [hp]

theorem faultHere_nil (s : State) (c : Clause) : faultHere s c [] = s := by
  unfold faultHere faultLanes
  split <;> first | rfl | simp_all

theorem filter_sound {p : Acc → Bool} {l : List Acc} (h : ∀ a ∈ l, p a = false) :
    l.filter p = [] ∧ l.filter (fun a => !p a) = l := by
  constructor
  · rw [List.filter_eq_nil_iff]; intro a ha; simp [h a ha]
  · rw [List.filter_eq_self]; intro a ha; simp [h a ha]

theorem map_lane (t : Lane → DWord × Except TrapCode Place) (ls : List Lane) : (ls.map (accessOf t)).map (·.lane) = ls := by
  rw [List.map_map]
  exact (List.map_congr_left (fun _ _ => rfl)).trans (List.map_id _)

theorem lowestLane_lanesOf {m : LaneMask} {l : Lane} (h : lowestLane m = some l) : ∃ t, lanesOf m = l :: t := by
  unfold lowestLane at h
  cases hm : lanesOf m with
  | nil => rw [hm] at h; cases h
  | cons a t => rw [hm] at h; cases h; exact ⟨t, rfl⟩

/-- The lanes that a word which accesses memory serves: all its enabled ones. -/
theorem maskFor_lanes (one : Bool) (w : SWord) (s : State) : maskFor one (enabled s w) (accessLanes one w s) = enabled s w := by
  unfold maskFor accessLanes onceLane
  cases one
  · apply mask_ext; intro l
    simp
  · simp only [if_true]
    cases h : lowestLane (enabled s w) with
    | none => simp [lowestLane_none h]
    | some l => simp

/-- The value that serves a lane. -/
theorem byLane_served {α : Type} (one : Bool) (d : α) (w : SWord) (s : State) (f : Lane → α) (l : Lane) (h : inMask (enabled s w) l = true) :
    byLane one d ((accessLanes one w s).map (fun k => (k, f k))) l = f (servedBy one w s l) := by
  unfold byLane accessLanes onceLane servedBy
  cases one
  · simp only [Bool.false_eq_true, if_false]
    have key : ∀ ls : List Lane, l ∈ ls → ((ls.map (fun k => (k, f k))).find? (fun v => v.1 == l)).map (·.2) = some (f l) := by
      intro ls
      induction ls with
      | nil => intro h; cases h
      | cons a t ih =>
        intro hm
        rw [List.map_cons, List.find?_cons]
        by_cases e : a = l
        · subst e; simp
        · have : (a == l) = false := by simpa using e
          simp only [this]
          exact ih ((List.mem_cons.mp hm).resolve_left (fun h => e h.symm))
    rw [key _ (by simpa using h)]; rfl
  · simp only [if_true]
    cases hl : lowestLane (enabled s w) with
    | none => rw [lowestLane_none hl, inMask_zero] at h; cases h
    | some k => simp

theorem lowestLane_in {m : LaneMask} {l : Lane} (h : lowestLane m = some l) : inMask m l = true := lowestLane_mem h

/-- The outstanding writes of a destination depend only on the values of the enabled lanes. -/
theorem regWrites_congr {d : BitVec 8} {n : Nat} {en : LaneMask} {f g : Lane → DWord} (h : ∀ l, inMask en l = true → f l = g l) :
    regWrites d n en f = regWrites d n en g := by
  have hl : ∀ l ∈ lanesOf en, f l = g l := fun l hl => h l (by simpa using hl)
  unfold regWrites
  split
  · unfold List.flatMap; congr 1
    apply List.map_congr_left
    intro l hm
    simp only [hl l hm]
  · split
    · cases hk : lowestLane en with
      | none => rfl
      | some k => simp only [h k (lowestLane_mem hk)]
    · rfl

theorem groupWrites_congr {d : BitVec 8} {n : Nat} {en : LaneMask} {f g : Lane → Nat} (h : ∀ l, inMask en l = true → f l = g l) :
    groupWrites d n en f = groupWrites d n en g := by
  unfold groupWrites List.flatMap; congr 1
  apply List.map_congr_left
  intro i _
  exact regWrites_congr (fun l hl => by rw [h l hl])

theorem predWrites_congr {i : Nat} {en : LaneMask} {f g : Lane → Bool} (h : ∀ l, inMask en l = true → f l = g l) :
    predWrites i en f = predWrites i en g := by
  unfold predWrites
  split
  · rfl
  · apply List.map_congr_left
    intro l hl
    rw [h l (by simpa using hl)]

/-- A load whose accesses pass the checks. -/
theorem loadWith_placed {flawed : State → Acc → Bool} {z : Nat} {one : Bool} {w v : SWord} {s : State} {t : Lane → DWord × Except TrapCode Place}
    {rd : State → Acc → List Byte} {extra : LaneMask → (Lane → Nat) → List PendWrite} (hv : enabled s v = enabled s w)
    (hx : ∀ en f g, (∀ l, inMask en l = true → f l = g l) → extra en f = extra en g) (hp : placed one t w s)
    (hs : sound flawed one t w s) :
    loadWith flawed z one ((accessLanes one w s).map (fun l => (l, t l))) rd extra v s =
      let val := fun l => loadValue v z (leNat (rd s (accessOf t (servedBy one w s l))))
      .done (cachePlaces (setMe s (pushPend (me s) .ld (groupWrites v.d v.dataRegs (enabled s w) val ++ extra (enabled s w) val) []
        (curClause s).hdr (curClause s).word)) (accesses one t w s)) := by
  unfold loadWith
  rw [goodOf_placed hp]
  have h : ∀ a ∈ (accessLanes one w s).map (accessOf t), flawed s a = false := by
    intro a ha
    obtain ⟨l, hl, rfl⟩ := List.mem_map.mp ha
    exact hs l hl
  obtain ⟨h1, h2⟩ := filter_sound h
  dsimp only
  rw [h1, h2, faultsOf_placed hp, faultHere_nil, map_lane, hv, maskFor_lanes]
  have e : ((accessLanes one w s).map (accessOf t)).map (fun a => (a.lane, loadValue v z (leNat (rd s a)))) =
      (accessLanes one w s).map (fun k => (k, loadValue v z (leNat (rd s (accessOf t k))))) := by
    rw [List.map_map]; rfl
  rw [e]
  have hl : ∀ l, inMask (enabled s w) l = true → byLane one 0 ((accessLanes one w s).map (fun k => (k, loadValue v z (leNat (rd s (accessOf t k)))))) l =
      loadValue v z (leNat (rd s (accessOf t (servedBy one w s l)))) := fun l hl => byLane_served one 0 w s _ l hl
  rw [groupWrites_congr hl, hx _ _ _ hl]
  rfl

/-- A store whose accesses pass the checks. -/
theorem storeWith_placed {scratch : Bool} {rel : Scope} {one : Bool} {w v : SWord} {s : State} {t : Lane → DWord × Except TrapCode Place}
    {data : Lane → List Byte} (hp : placed one t w s) :
    storeWith scratch rel one ((accessLanes one w s).map (fun l => (l, t l))) data v s =
      .done (cachePlaces (enqueue s scratch rel data (accesses one t w s)) (accesses one t w s)) := by
  unfold storeWith
  rw [goodOf_placed hp]
  dsimp only
  rw [faultsOf_placed hp, faultHere_nil]
  rfl

theorem map_sound {scratch : Bool} {sc : Scope} {s : State} {z : Nat} {ls : List Lane} {t : Lane → DWord × Except TrapCode Place}
    (hs : ∀ l ∈ ls, badData scratch sc s (placeOf (t l)) z = false) :
    (ls.map (fun l => (l, t l))).map (withPoison scratch sc s z) = ls.map (fun l => (l, t l)) := by
  rw [List.map_map]
  apply List.map_congr_left
  intro l hl
  have h := hs l hl
  unfold withPoison
  dsimp only [Function.comp]
  split
  · rename_i p hp
    unfold placeOf at h; rw [hp] at h
    simp [h]
  · rfl

/-- An atomic whose accesses pass the checks. -/
theorem atomicWith_placed {scratch reads : Bool} {z : Nat} {sc : Scope} {rel acq : Bool} {w : SWord} {s : State}
    {upd : List Byte → Lane → Option (List Byte)} {extra : LaneMask → (Lane → Nat) → List PendWrite} (hen : enabled s w ≠ 0) :
    let one := !isVector w.d && !isVector w.a && !isVector w.b && !isVector w.c
    let t (need : Need) (l : Lane) : DWord × Except TrapCode Place := if scratch then scratchTarget s w z 0 l else memTarget s w z 0 need l
    (reads = true → placed one (t .rd) w s) → placed one (t .wr) w s →
    (∀ l ∈ accessLanes one w s, badData scratch sc (drain s (focusStrand s)) (placeOf (t .wr l)) z = false) →
    atomicWith scratch reads z sc rel acq upd extra w s =
      let acc := accesses one (t .wr) w s
      let go (s : State) (a : Acc) : List Byte × State :=
        if scratch then atomicScratch s a.place.key z (fun o => upd o a.lane)
        else
          let r := atomicAt s s.focus.core sc a.place z (fun o => upd o a.lane)
          (r.1, if (upd r.1 a.lane).isSome then noteWrite (.strand (focusStrand s)) a.place.key z r.2 else r.2)
      let before := (if rel then fun s => release s sc else id) (cachePlaces (drain s (focusStrand s)) acc)
      let r := serveAtomics go (serveOrder s.free 32 acc) before
      let after := if acq then acquire r.2 sc else r.2
      let val := byLane one 0 r.1
      .done (setMe after (pushPend (me after) .ld (groupWrites w.d (if z = 8 then 2 else 1) (enabled s w) val ++ extra (enabled s w) val) []
        (curClause s).hdr (curClause s).word)) := by
  intro one t hp hw hs
  have h1 : onceFor [w.d, w.a, w.b, w.c] = one := by simp [onceFor, one, Bool.and_assoc]
  have hraw : (if scratch = true then scratchTargets one w z 0 s else (accessLanes one w s).map (fun l => (l, updateTarget reads s w z l))) =
      (accessLanes one w s).map (fun l => (l, t .wr l)) := by
    cases scratch
    · simp only [Bool.false_eq_true, if_false]
      apply List.map_congr_left
      intro l hl
      simp only [t, Bool.false_eq_true, if_false] at hp ⊢
      unfold updateTarget
      cases reads
      · rfl
      · obtain ⟨p, hp⟩ := hp rfl l hl
        simp only [hp]
    · rfl
  unfold atomicWith
  rw [h1]
  dsimp only
  rw [if_neg hen, hraw, map_sound hs, goodOf_placed hw, faultsOf_placed hw, faultHere_nil, map_lane, maskFor_lanes]
  unfold accesses
  cases rel <;> rfl

theorem loads_of {mk : SWord → Instr} {f : SWord → Form} {body : SWord → State → Res} {cond : SWord → Bool} {flawed : SWord → State → Acc → Bool} {v : SWord → SWord}
    {t : SWord → State → Lane → DWord × Except TrapCode Place} {rd : SWord → State → Acc → List Byte}
    {extra : SWord → LaneMask → (Lane → Nat) → List PendWrite} {post : SWord → State → State → State}
    (hf : ∀ w, strandForm (mk w) = some (w, f w)) (he : ∀ w s, exec (mk w) s = .next (runWord (mk w) body s))
    (hv : ∀ w s, enabled s (v w) = enabled s w) (hd : ∀ w, (v w).d = w.d)
    (hx : ∀ w en f g, (∀ l, inMask en l = true → f l = g l) → extra w en f = extra w en g)
    (hb : ∀ w s, cond w = true → ∀ r, loadWith (flawed w) (v w).size (onceDAB w) ((accessLanes (onceDAB w) w s).map (fun l => (l, t w s l))) (rd w) (extra w) (v w) s = .done r →
      body w s = .done (post w s r)) : loads mk cond flawed v t rd extra post := by
  intro w s hi hc
  dsimp only
  intro hp hs
  rw [he, runWord_eq _ _ (hf w)]
  have k := hb w _ hc _ (loadWith_placed (rd := rd w) (extra := extra w) (hv w _) (hx w) hp hs)
  rw [runForm_done (hf w) hi k]
  rw [hd]

theorem stores_of {mk : SWord → Instr} {f : SWord → Form} {body : SWord → State → Res} {cond : SWord → Bool} {scratch : Bool} {v : SWord → SWord} {rel : SWord → Scope}
    {t : SWord → State → Lane → DWord × Except TrapCode Place}
    (hf : ∀ w, strandForm (mk w) = some (w, f w)) (he : ∀ w s, exec (mk w) s = .next (runWord (mk w) body s))
    (hb : ∀ w s, cond w = true → ∀ r, storeWith scratch (rel w) (onceDAB w) ((accessLanes (onceDAB w) w s).map (fun l => (l, t w s l))) (storeBytes s (v w) (v w).size) (v w) s = .done r →
      body w s = .done r) : storesAt mk cond scratch rel v t := by
  intro w s hi hc
  dsimp only
  intro hp
  rw [he, runWord_eq _ _ (hf w)]
  have k := hb w _ hc _ (storeWith_placed (v := v w) hp)
  rw [runForm_done (hf w) hi k, enqueue]

theorem updates_of {mk : SWord → Instr} {f : SWord → Form} {body : SWord → State → Res} {scratch reads : Bool} {z : SWord → Nat} {rel acq : SWord → Bool}
    {upd : SWord → State → List Byte → Lane → Option (List Byte)} {extra : SWord → State → LaneMask → (Lane → Nat) → List PendWrite}
    (hf : ∀ w, strandForm (mk w) = some (w, f w)) (he : ∀ w s, exec (mk w) s = .next (runWord (mk w) body s))
    (hb : ∀ w s, body w s = atomicWith scratch reads (z w) (scopeOf w) (rel w) (acq w) (upd w s) (extra w s) w s) :
    updates mk scratch reads z rel acq upd extra (fun _ _ _ => 0) := by
  intro w s hi hen
  dsimp only
  intro hp hw hs
  have hen' : enabled (issued (mk w) s) w ≠ 0 := by rw [issued_enabled]; exact hen
  have k := atomicWith_placed (sc := scopeOf w) (rel := rel w) (acq := acq w) (upd := upd w (issued (mk w) s)) (extra := extra w (issued (mk w) s)) hen' hp hw hs
  rw [← hb] at k
  rw [he, runWord_eq _ _ (hf w), runForm_done (hf w) hi k]
  rw [show (0 : Flags) = 0#32 from rfl, orFlags_zero]

theorem idle_atomic {mk : SWord → Instr} {f : SWord → Form} {body : SWord → State → Res} {scratch reads : Bool} {z : SWord → Nat} {rel acq : SWord → Bool}
    {upd : SWord → State → List Byte → Lane → Option (List Byte)} {extra : SWord → State → LaneMask → (Lane → Nat) → List PendWrite}
    (hf : ∀ w, strandForm (mk w) = some (w, f w)) (he : ∀ w s, exec (mk w) s = .next (runWord (mk w) body s))
    (hb : ∀ w s, body w s = atomicWith scratch reads (z w) (scopeOf w) (rel w) (acq w) (upd w s) (extra w s) w s) : idle mk :=
  idle_body hf he (fun w s h => by rw [hb]; unfold atomicWith; dsimp only; rw [if_pos h])

/-! ### Accesses whatever the checks say (R116) -/

theorem goodOf_passing (one : Bool) (t : Lane → DWord × Except TrapCode Place) (w : SWord) (u : State) :
    goodOf ((accessLanes one w u).map (fun l => (l, t l))) = passing one t w u := by
  unfold passing
  induction accessLanes one w u with
  | nil => rfl
  | cons l r ih =>
    unfold goodOf at ih ⊢
    rw [List.map_cons, List.filterMap_cons, List.filter_cons]
    cases h : (t l).2 with
    | error c => simpa [h, Except.toOption] using ih
    | ok p => simpa [h, Except.toOption, accessOf, placeOf] using ih

theorem faultsOf_failing (one : Bool) (t : Lane → DWord × Except TrapCode Place) (w : SWord) (u : State) :
    faultsOf one (enabled u w) ((accessLanes one w u).map (fun l => (l, t l))) = failing one t w u := by
  unfold faultsOf failing
  rw [List.flatMap_map]; rfl

theorem maskFor_served (one : Bool) (w : SWord) (u : State) (acc : List Acc) :
    maskFor one (enabled u w) (acc.map (·.lane)) = servedMask one w u acc := by
  unfold maskFor servedMask
  cases one
  · rfl
  · simp

/-- The value that serves a lane, where only some accesses have one. -/
theorem byLane_some {α : Type} (one : Bool) (d : α) (t : Lane → DWord × Except TrapCode Place) (w : SWord) (s : State) (p : Lane → Bool)
    (f : Lane → α) (l : Lane)
    (h : inMask (servedMask one w s (((accessLanes one w s).filter p).map (accessOf t))) l = true) :
    byLane one d (((accessLanes one w s).filter p).map (fun k => (k, f k))) l = f (servedBy one w s l) := by
  unfold byLane servedBy
  unfold servedMask at h
  unfold accessLanes onceLane at h ⊢
  cases one
  · simp only [Bool.false_eq_true, if_false] at h ⊢
    have hm : l ∈ (lanesOf (enabled s w)).filter p := by simpa [List.map_map, accessOf, Function.comp_def] using h
    have key : ∀ ls : List Lane, l ∈ ls → ((ls.map (fun k => (k, f k))).find? (fun v => v.1 == l)).map (·.2) = some (f l) := by
      intro ls
      induction ls with
      | nil => intro h; cases h
      | cons a t ih =>
        intro hm
        rw [List.map_cons, List.find?_cons]
        by_cases e : a = l
        · subst e; simp
        · have : (a == l) = false := by simpa using e
          simp only [this]
          exact ih ((List.mem_cons.mp hm).resolve_left (fun h => e h.symm))
    rw [key _ hm]; rfl
  · simp only [if_true] at h ⊢
    cases hl : lowestLane (enabled s w) with
    | none => rw [hl] at h; simp at h; exact absurd ((inMask_zero l).symm.trans h) (by decide)
    | some k =>
      rw [hl] at h
      by_cases hp : p k = true
      · simp [hp]
      · simp [hp] at h; exact absurd ((inMask_zero l).symm.trans h) (by decide)

theorem passing_filter (one : Bool) (t : Lane → DWord × Except TrapCode Place) (w : SWord) (u : State) (q : Acc → Bool) :
    (passing one t w u).filter q =
      ((accessLanes one w u).filter (fun l => (t l).2.toOption.isSome && q (accessOf t l))).map (accessOf t) := by
  unfold passing
  rw [List.filter_map, List.filter_filter]
  congr 1
  apply List.filter_congr
  intro l _
  simp [Bool.and_comm]

theorem loadsSplit_of {mk : SWord → Instr} {f : SWord → Form} {body : SWord → State → Res} {cond : SWord → Bool} {flawed : SWord → State → Acc → Bool} {v : SWord → SWord}
    {t : SWord → State → Lane → DWord × Except TrapCode Place} {rd : SWord → State → Acc → List Byte}
    {extra : SWord → LaneMask → (Lane → Nat) → List PendWrite} {post : SWord → State → State → State}
    (hf : ∀ w, strandForm (mk w) = some (w, f w)) (he : ∀ w s, exec (mk w) s = .next (runWord (mk w) body s))
    (hv : ∀ w s, enabled s (v w) = enabled s w) (hd : ∀ w, (v w).d = w.d)
    (hx : ∀ w en f g, (∀ l, inMask en l = true → f l = g l) → extra w en f = extra w en g)
    (hb : ∀ w s, cond w = true → ∀ r, loadWith (flawed w) (v w).size (onceDAB w) ((accessLanes (onceDAB w) w s).map (fun l => (l, t w s l))) (rd w) (extra w) (v w) s = .done r →
      body w s = .done (post w s r)) : loadsSplit mk cond flawed v t rd extra post := by
  intro w s hi hc
  dsimp only
  rw [he, runWord_eq _ _ (hf w)]
  refine congrArg _ (runForm_done (hf w) hi (hb w _ hc _ ?_))
  unfold loadWith
  rw [goodOf_passing, hv]
  dsimp only
  rw [faultsOf_failing, maskFor_served, hd]
  generalize hone : onceDAB w = one
  generalize issued (mk w) s = u
  rw [passing_filter one (t w u) w u (fun a => !flawed w u a)]
  have e : ∀ ks : List Lane, (ks.map (accessOf (t w u))).map (fun a => (a.lane, loadValue (v w) (v w).size (leNat (rd w u a)))) =
      ks.map (fun k => (k, loadValue (v w) (v w).size (leNat (rd w u (accessOf (t w u) k))))) := by
    intro ks; rw [List.map_map]; rfl
  rw [e]
  have hl := byLane_some one 0 (t w u) w u (fun l => (t w u l).2.toOption.isSome && !flawed w u (accessOf (t w u) l))
    (fun k => loadValue (v w) (v w).size (leNat (rd w u (accessOf (t w u) k))))
  rw [groupWrites_congr hl, hx _ _ _ _ hl]
  rfl

theorem storesSplit_of {mk : SWord → Instr} {f : SWord → Form} {body : SWord → State → Res} {cond : SWord → Bool} {scratch : Bool} {v : SWord → SWord} {rel : SWord → Scope}
    {t : SWord → State → Lane → DWord × Except TrapCode Place}
    (hf : ∀ w, strandForm (mk w) = some (w, f w)) (he : ∀ w s, exec (mk w) s = .next (runWord (mk w) body s))
    (hv : ∀ w s, enabled s (v w) = enabled s w)
    (hb : ∀ w s, cond w = true → ∀ r, storeWith scratch (rel w) (onceDAB w) ((accessLanes (onceDAB w) w s).map (fun l => (l, t w s l))) (storeBytes s (v w) (v w).size) (v w) s = .done r →
      body w s = .done r) : storesSplit mk cond scratch rel v t := by
  intro w s hi hc
  dsimp only
  rw [he, runWord_eq _ _ (hf w)]
  refine congrArg _ (runForm_done (hf w) hi (hb w _ hc _ ?_))
  unfold storeWith
  rw [goodOf_passing, hv, faultsOf_failing]
  rfl

theorem atomicWith_split {scratch reads : Bool} {z : Nat} {sc : Scope} {rel acq : Bool} {w : SWord} {s : State}
    {upd : List Byte → Lane → Option (List Byte)} {extra : LaneMask → (Lane → Nat) → List PendWrite} (hen : enabled s w ≠ 0)
    (hsc : sc = scopeOf w) :
    let one := !isVector w.d && !isVector w.a && !isVector w.b && !isVector w.c
    let t := updateChecked scratch reads z w s
    let acc := passing one t w s
    let go (s : State) (a : Acc) : List Byte × State :=
      if scratch then atomicScratch s a.place.key z (fun o => upd o a.lane)
      else
        let r := atomicAt s s.focus.core sc a.place z (fun o => upd o a.lane)
        (r.1, if (upd r.1 a.lane).isSome then noteWrite (.strand (focusStrand s)) a.place.key z r.2 else r.2)
    let before := (if rel then fun s => release s sc else id) (cachePlaces (drain s (focusStrand s)) acc)
    let r := serveAtomics go (serveOrder s.free 32 acc) before
    let after := if acq then acquire r.2 sc else r.2
    let val := byLane one 0 r.1
    let en := servedMask one w s acc
    atomicWith scratch reads z sc rel acq upd extra w s =
      .done (faultLanes (setMe after (pushPend (me after) .ld (groupWrites w.d (if z = 8 then 2 else 1) en val ++ extra en val) []
        (curClause s).hdr (curClause s).word)) (curClause s).hdr (some (curClause s).word) (failing one t w s)) := by
  intro one t
  have h1 : onceFor [w.d, w.a, w.b, w.c] = one := by simp [onceFor, one, Bool.and_assoc]
  have hts : (if scratch = true then scratchTargets one w z 0 s else (accessLanes one w s).map (fun l => (l, updateTarget reads s w z l))).map
      (withPoison scratch sc (drain s (focusStrand s)) z) = (accessLanes one w s).map (fun l => (l, t l)) := by
    cases scratch
    · simp only [Bool.false_eq_true, if_false, List.map_map]
      apply List.map_congr_left
      intro l _
      simp only [Function.comp, withPoison, t, updateChecked, updateTarget, Bool.false_eq_true, if_false]
      cases hwr : (memTarget s w z 0 .wr l).2 with
      | error c => cases reads <;> cases (memTarget s w z 0 .rd l).2 <;> simp [hwr] <;> (rw [← hwr])
      | ok p =>
        cases hrd : (memTarget s w z 0 .rd l).2 with
        | error c => cases reads <;> simp [hwr]; split <;> simp_all; rw [← hwr]
        | ok q => cases reads <;> simp [hwr] <;> split <;> simp_all <;> rw [← hwr]
    · simp only [if_true, scratchTargets, List.map_map]
      apply List.map_congr_left
      intro l _
      simp only [Function.comp, withPoison, t, updateChecked, if_true]
      cases h : (scratchTarget s w z 0 l).2 with
      | error c => simp [← h]
      | ok p => simp; split <;> simp_all; rw [← h]
  unfold atomicWith
  rw [h1]
  dsimp only
  rw [if_neg hen, hts, goodOf_passing, faultsOf_failing, maskFor_served]
  cases rel <;> rfl

theorem updatesSplit_of {mk : SWord → Instr} {f : SWord → Form} {body : SWord → State → Res} {scratch reads : Bool} {z : SWord → Nat} {rel acq : SWord → Bool}
    {upd : SWord → State → List Byte → Lane → Option (List Byte)} {extra : SWord → State → LaneMask → (Lane → Nat) → List PendWrite}
    (hf : ∀ w, strandForm (mk w) = some (w, f w)) (he : ∀ w s, exec (mk w) s = .next (runWord (mk w) body s))
    (hb : ∀ w s, body w s = atomicWith scratch reads (z w) (scopeOf w) (rel w) (acq w) (upd w s) (extra w s) w s) :
    updatesSplit mk scratch reads z rel acq upd extra (fun _ _ _ => 0) := by
  intro w s hi hen
  dsimp only
  have hen' : enabled (issued (mk w) s) w ≠ 0 := by rw [issued_enabled]; exact hen
  have k := atomicWith_split (scratch := scratch) (reads := reads) (z := z w) (sc := scopeOf w) (rel := rel w) (acq := acq w)
    (upd := upd w (issued (mk w) s)) (extra := extra w (issued (mk w) s)) hen' rfl
  rw [← hb] at k
  rw [he, runWord_eq _ _ (hf w), runForm_done (hf w) hi k]
  rw [show (0 : Flags) = 0#32 from rfl, orFlags_zero]

/-! ### What queueing a store leaves -/

/-- Moving the views of some bytes changes only the cores and what the die caches hold. -/
theorem seeDevice_only (s : State) (k a n : Nat) : ∃ c d, seeDevice s k a n = { s with cores := c, dieLag := d } := by
  unfold seeDevice setCore
  dsimp only
  split <;> split <;> exact ⟨_, _, rfl⟩

/-- Keeping the translation of an access, and moving the views that it overtakes, does so too. -/
theorem cachePlace_only (s : State) (p : Place) : ∃ c d, cachePlace s p = { s with cores := c, dieLag := d } := by
  have fin : ∀ c, ∃ e d, (if p.nc = true then seeDevice { s with cores := c } s.focus.core (p.key / 16 * 16) 16 else { s with cores := c }) =
      { s with cores := e, dieLag := d } := by
    intro c
    split
    · exact seeDevice_only ..
    · exact ⟨c, s.dieLag, rfl⟩
  unfold cachePlace
  cases p.tlb with
  | none => exact fin s.cores
  | some t =>
    obtain ⟨c, h⟩ := cacheTlb_only s s.focus.core t
    dsimp only
    rw [h]
    exact fin c

theorem cachePlaces_only (ps : List Acc) (s : State) : ∃ c d, cachePlaces s ps = { s with cores := c, dieLag := d } := by
  unfold cachePlaces
  induction ps generalizing s with
  | nil => exact ⟨s.cores, s.dieLag, rfl⟩
  | cons a ps ih =>
    rw [List.foldl_cons]
    obtain ⟨c, d, h⟩ := cachePlace_only s a.place
    rw [h]
    exact ih _

/-- Stores queued later leave the bytes outside them. -/
theorem queueRd_append (q r : List QStore) (pad : Bool) (key : Nat)
    (h : ∀ c ∈ r, pad = c.scratch → key < c.key ∨ c.key + c.bytes.length ≤ key) : queueRd (q ++ r) pad key = queueRd q pad key := by
  unfold queueRd
  rw [List.reverse_append, List.find?_append]
  have : r.reverse.find? (fun c => c.scratch == pad && c.key ≤ key && key < c.key + c.bytes.length) = none := by
    rw [List.find?_eq_none]
    intro c hc
    have := h c (List.mem_reverse.mp hc)
    simp only [Bool.and_eq_true, beq_iff_eq, decide_eq_true_eq]
    intro hh
    have := this hh.1.1.symm
    omega
  rw [this]; rfl

end Sys2Proof.Machine
end

