-- ==== Sys2Proof/Laws/Answers.lean ====
section
/-! SUPPORT. Every instruction and every step answers a next state: the spec gives each an effect. -/

set_option Elab.async false

namespace Sys2Proof.Machine

/-- Every instruction answers a next state, whatever the state. -/
theorem exec_answers (i : Instr) (s : State) : ∃ t, exec i s = .next t := by
  cases i
  all_goals first
    | exact ⟨_, rfl⟩
    | (simp only [exec, execTirralPortFailure, execUnassignedCapstanOpcode, execClauseHeader,
      execLongLatencyResult, execSleepExpiry, execSigrWake, execTspnRoom, execSnagSearch, execCopyAccept,
      execCallAccept, execCallStart, execCapstanClauseHeader, execCldResult, execCwaitWake, execCallComplete,
      execMreset, execClayParityFailure, execBtinvComplete, execPassCountPromotion, execTaskEnd, execRun, execPost,
      execWatch, execBadentry, execWatchFire, execWaitNodeSatisfied, execEndNode, execGraphFailure, execFabricAccept,
      execFabricComplete, execCordSave, execCommandComplete]
       repeat' split
       all_goals exact ⟨_, rfl⟩)

/-- A turn answers a next state, where every instruction does. -/
theorem runTurn_answers {run : Instr → State → Out} (h : ∀ i s, ∃ t, run i s = .next t) (x : Turn) (s : State) :
    ∃ t, runTurn run x s = .next t := by
  have hw : ∀ s, ∃ t, wordTurn run s = .next t := by
    intro s
    unfold wordTurn
    repeat' split
    all_goals first | exact ⟨_, rfl⟩ | exact h _ _
  have hs : ∀ s, ∃ t, strandTurn run s = .next t := by
    intro s
    unfold strandTurn
    repeat' split
    all_goals first | exact ⟨_, rfl⟩ | exact h _ _ | exact hw _
  have hc : ∀ s, ∃ t, capstanTurn run s = .next t := by
    intro s
    unfold capstanTurn
    dsimp only
    repeat' split
    all_goals first | exact ⟨_, rfl⟩ | exact h _ _
  unfold runTurn
  split
  all_goals first | exact ⟨_, rfl⟩ | exact h _ _ | exact hs _ | exact hc _

/-- Every step answers a next state. -/
theorem step_answers (s : State) : ∃ t, step s = .next t := by
  unfold step nextTurn
  split
  · exact runTurn_answers exec_answers _ _
  · split
    · exact ⟨_, rfl⟩
    · exact runTurn_answers exec_answers _ _

end Sys2Proof.Machine
end

