-- ==== Sys2Proof/Laws/Calls.lean ====
section
/-! SUPPORT. The frame of a capstan word. -/

namespace Sys2Proof.Machine

theorem setRun_setRun (s : State) (a b : RunCall) : setRun (setRun s a) b = setRun s b := by
  simp [setRun, setMyCore, setCore, myCore, getCore, aSet_aSet, aGet_aSet]

theorem setRun_run (s : State) (r : RunCall) : (myCore (setRun s r)).run = some r := by
  simp [setRun, setMyCore, setCore, myCore, getCore, aGet_aSet]

theorem setRun_free (s : State) (r : RunCall) (n : Nat) : setRun { s with free := n } r = { setRun s r with free := n } := rfl

theorem myRun_setRun {s : State} {r : RunCall} (h : r.ended = none) : myRun (setRun s r) = r := by
  simp [myRun, myRun?, setRun_run, h]

/-- A running call is the core's, and has not ended. -/
theorem run_of {s : State} {r : RunCall} (h : myRun? s = some r) : (myCore s).run = some r ∧ myRun s = r ∧ r.ended = none := by
  have h' := h
  unfold myRun? at h
  split at h
  · split at h
    · next q hq he =>
      cases h
      exact ⟨hq, by simp [myRun, h'], by simpa using he⟩
    · cases h
  · cases h

/-- What a capstan word that issues does is what its body does. -/
theorem runCap_eq {i : Instr} {w : CWord} {f : CForm} {body : CWord → State → CRes} {s : State} (hf : capstanForm i = some (w, f))
    (hi : capIssues i s = true) : runCap i body s = match body w s with
      | .done n t => capGoes w n t
      | .jump n a t =>
        let u : State := { spend (if w.sw then settleCap t else t) n with free := t.free + 1 }
        setRun u { myRun u with clause := none, pc := a }
      | .stop n e t => capEnds n e t
      | .again n t => { spend t n with free := t.free + 1 }
      | .wait t => setRun t { myRun t with waiting := true } := by
  unfold capIssues at hi
  rw [hf] at hi
  cases hr : myRun? s with
  | none => rw [hr] at hi; cases hi
  | some r =>
    rw [hr] at hi
    simp only [Bool.and_eq_true] at hi
    unfold runCap
    rw [hf, hr]
    simp only [hi.2, Bool.not_true, Bool.false_eq_true, if_false]
    rw [if_neg (by cases hc : r.clause <;> simp [hc] at hi ⊢)]
    cases body w s <;> rfl

theorem capRun_of {i : Instr} {s : State} (h : capIssues i s = true) : ∃ r, myRun? s = some r ∧ r.clause.isSome = true := by
  unfold capIssues at h
  split at h
  · next r _ hr => simp only [Bool.and_eq_true] at h; exact ⟨r, hr, h.1⟩
  · cases h

@[simp] theorem capLeft_ended (w : CWord) (r : RunCall) (s : State) : (capLeft w r s).ended = r.ended := by unfold capLeft; split <;> rfl
@[simp] theorem capLeft_spent (w : CWord) (r : RunCall) (s : State) : (capLeft w r s).spent = r.spent := by unfold capLeft; split <;> rfl
@[simp] theorem capLeft_clause (w : CWord) (r : RunCall) (s : State) : (capLeft w r s).clause = r.clause := by unfold capLeft; split <;> rfl
@[simp] theorem capLeft_pc (w : CWord) (r : RunCall) (s : State) : (capLeft w r s).pc = r.pc := by unfold capLeft; split <;> rfl

/-- What a word leaves of the running call: it has spent its cost. -/
theorem spend_of {w : CWord} {n : Nat} {t : State} {r : RunCall} (hr : (myCore t).run = some r) :
    spend (if w.sw then settleCap t else t) n = setRun t { capLeft w r t with spent := r.spent + n, waiting := false, seen := [] } := by
  rcases Bool.eq_false_or_eq_true w.sw with h | h
  · rw [if_pos h]
    unfold spend settleCap capLeft
    rw [hr]
    dsimp only
    rw [setRun_run]
    dsimp only
    rw [setRun_setRun, if_pos h]
    rfl
  · rw [if_neg (by rw [h]; exact Bool.false_ne_true)]
    unfold spend capLeft
    rw [hr, if_neg (by rw [h]; exact Bool.false_ne_true)]

theorem capGoes_of {w : CWord} {n : Nat} {t : State} {r : RunCall} (hr : (myCore t).run = some r) (he : r.ended = none) :
    capGoes w n t = capRan w n r t := by
  unfold capGoes capRan
  rw [spend_of hr]
  have hm : myRun { setRun t { capLeft w r t with spent := r.spent + n, waiting := false, seen := [] } with free := t.free + 1 } =
      { capLeft w r t with spent := r.spent + n, waiting := false, seen := [] } := myRun_setRun (s := t) (by simpa using he)
  unfold capAdvance
  rw [hm]
  simp only [capLeft_clause, capNext]
  cases hc : r.clause with
  | none =>
    dsimp only
    rw [← capLeft_clause w r t] at hc
    rw [← hc, ← capLeft_pc w r t]
  | some c =>
    dsimp only
    rw [setRun_free, setRun_setRun]
    rw [← capLeft_clause w r t] at hc
    by_cases h : c.nm1 ≤ c.word
    · simp only [if_pos h]
    · simp only [if_neg h, capLeft_pc]

theorem capWent_of {w : CWord} {n : Nat} {a : VAddr} {t : State} {r : RunCall} (hr : (myCore t).run = some r) (he : r.ended = none) :
    (let u : State := { spend (if w.sw then settleCap t else t) n with free := t.free + 1 }
     setRun u { myRun u with clause := none, pc := a }) = capWent w n a r t := by
  dsimp only
  rw [spend_of hr]
  have hm : myRun { setRun t { capLeft w r t with spent := r.spent + n, waiting := false, seen := [] } with free := t.free + 1 } =
      { capLeft w r t with spent := r.spent + n, waiting := false, seen := [] } := myRun_setRun (s := t) (by simpa using he)
  rw [hm, setRun_free, setRun_setRun]
  rfl

theorem capRan_setRun (w : CWord) (n : Nat) (a r : RunCall) (s : State) : capRan w n r (setRun s a) = capRan w n r s := by
  unfold capRan; rw [setRun_setRun]; rfl

theorem capWent_setRun (w : CWord) (n : Nat) (p : VAddr) (a r : RunCall) (s : State) : capWent w n p r (setRun s a) = capWent w n p r s := by
  unfold capWent; rw [setRun_setRun]; rfl

theorem put_ended (m : RunCall) (r : BitVec 5) (v : DWord) : (m.put r v).ended = m.ended := by
  unfold RunCall.put; split <;> rfl

/-- The call of a word that issues, in the form that the lemmas above ask for. -/
theorem capRun_here {i : Instr} {s : State} (hi : capIssues i s = true) :
    (myCore s).run = some (myRun s) ∧ (myRun s).ended = none := by
  obtain ⟨r, hr, -⟩ := capRun_of hi
  obtain ⟨h1, h2, h3⟩ := run_of hr
  rw [h2]
  exact ⟨h1, h3⟩

theorem runCap_done {i : Instr} {w : CWord} {f : CForm} {body : CWord → State → CRes} {s t : State} {n : Nat}
    (hf : capstanForm i = some (w, f)) (hi : capIssues i s = true) (hb : body w s = .done n t) : runCap i body s = capGoes w n t := by
  rw [runCap_eq hf hi, hb]

theorem runCap_stop {i : Instr} {w : CWord} {f : CForm} {body : CWord → State → CRes} {s t : State} {n : Nat} {e : CallEnd}
    (hf : capstanForm i = some (w, f)) (hi : capIssues i s = true) (hb : body w s = .stop n e t) : runCap i body s = capEnds n e t := by
  rw [runCap_eq hf hi, hb]

theorem runCap_wait {i : Instr} {w : CWord} {f : CForm} {body : CWord → State → CRes} {s t : State}
    (hf : capstanForm i = some (w, f)) (hi : capIssues i s = true) (hb : body w s = .wait t) :
    runCap i body s = setRun t { myRun t with waiting := true } := by
  rw [runCap_eq hf hi, hb]

/-- A word whose body goes on with another running call. -/
theorem runCap_ran {i : Instr} {w : CWord} {f : CForm} {body : CWord → State → CRes} {s : State} {n : Nat} {r : RunCall}
    (hf : capstanForm i = some (w, f)) (hi : capIssues i s = true)
    (hr : r.ended = (myRun s).ended) (hb : body w s = .done n (setRun s r)) :
    runCap i body s = capRan w n r s := by
  obtain ⟨h1, h2⟩ := capRun_here hi
  rw [runCap_done hf hi hb, capGoes_of (setRun_run _ _) (hr.trans h2), capRan_setRun]

theorem runCap_stays {i : Instr} {w : CWord} {f : CForm} {body : CWord → State → CRes} {s : State} {n : Nat}
    (hf : capstanForm i = some (w, f)) (hi : capIssues i s = true) (hb : body w s = .done n s) :
    runCap i body s = capRan w n (myRun s) s := by
  obtain ⟨h1, h2⟩ := capRun_here hi
  rw [runCap_done hf hi hb, capGoes_of h1 h2]

theorem runCap_goes {i : Instr} {w : CWord} {f : CForm} {body : CWord → State → CRes} {s : State} {n : Nat} {a : VAddr}
    (hf : capstanForm i = some (w, f)) (hi : capIssues i s = true) (hb : body w s = .jump n a s) :
    runCap i body s = capWent w n a (myRun s) s := by
  obtain ⟨h1, h2⟩ := capRun_here hi
  rw [runCap_eq hf hi, hb]
  exact capWent_of h1 h2

theorem runCap_went {i : Instr} {w : CWord} {f : CForm} {body : CWord → State → CRes} {s : State} {n : Nat} {a : VAddr} {r : RunCall}
    (hf : capstanForm i = some (w, f)) (hi : capIssues i s = true)
    (hr : r.ended = (myRun s).ended) (hb : body w s = .jump n a (setRun s r)) :
    runCap i body s = capWent w n a r s := by
  obtain ⟨h1, h2⟩ := capRun_here hi
  rw [runCap_eq hf hi, hb]
  exact (capWent_of (setRun_run _ _) (hr.trans h2)).trans (capWent_setRun ..)

theorem capWrites_body {mk : CWord → Instr} {f : CWord → CForm} {body : CWord → State → CRes} {n : Nat} {val : CWord → State → DWord}
    (hf : ∀ w, capstanForm (mk w) = some (w, f w)) (he : ∀ w s, exec (mk w) s = .next (runCap (mk w) body s))
    (hb : ∀ w s, body w s = .done n (putC s w.d (val w s))) : capWrites mk n val := by
  intro w s hi
  rw [he, runCap_ran (hf w) hi (put_ended ..) (hb w s)]

theorem capDoes_body {mk : CWord → Instr} {f : CWord → CForm} {body : CWord → State → CRes} {cond : CWord → State → Bool}
    {n : CWord → State → Nat} {effect : CWord → State → State} (hf : ∀ w, capstanForm (mk w) = some (w, f w))
    (he : ∀ w s, exec (mk w) s = .next (runCap (mk w) body s))
    (hb : ∀ w s, cond w s = true → body w s = .done (n w s) (effect w s)) : capDoes mk cond n effect := by
  intro w s hi hc
  rw [he, runCap_eq (hf w) hi, hb w s hc]

theorem capStops_body {mk : CWord → Instr} {f : CWord → CForm} {body : CWord → State → CRes} {cond : CWord → State → Bool}
    {n : CWord → State → Nat} {e : CWord → State → CallEnd} {effect : CWord → State → State}
    (hf : ∀ w, capstanForm (mk w) = some (w, f w)) (he : ∀ w s, exec (mk w) s = .next (runCap (mk w) body s))
    (hb : ∀ w s, cond w s = true → body w s = .stop (n w s) (e w s) (effect w s)) : capStops mk cond n e effect := by
  intro w s hi hc
  rw [he, runCap_eq (hf w) hi, hb w s hc]

end Sys2Proof.Machine
end

