-- ==== Sys2Proof/Laws/Encoding.lean ====
section
/-! SUPPORT. The fields of words (R17, R61), the opcode maps (R65, R67) and the bytes of a word (R4). -/

namespace Sys2Proof

theorem ETy.ofCode_code (t : ETy) : ETy.ofCode t.code = t := by cases t <;> rfl

theorem ETy.code_ofCode (c : BitVec 3) : (ETy.ofCode c).code = c := by revert c; decide

/-- A field above the seam of two joined words. -/
theorem extract_high {n m s k : Nat} (x : BitVec n) (y : BitVec m) (h : m ≤ s) : (x ++ y).extractLsb' s k = x.extractLsb' (s - m) k := by
  apply BitVec.eq_of_getLsbD_eq
  intro i hi
  simp only [BitVec.getLsbD_extractLsb', BitVec.getLsbD_append, hi, decide_true, Bool.true_and]
  rw [if_neg (by omega)]
  congr 1
  omega

/-- A field below the seam. -/
theorem extract_low {n m s k : Nat} (x : BitVec n) (y : BitVec m) (h : s + k ≤ m) : (x ++ y).extractLsb' s k = y.extractLsb' s k := by
  apply BitVec.eq_of_getLsbD_eq
  intro i hi
  simp only [BitVec.getLsbD_extractLsb', BitVec.getLsbD_append, hi, decide_true, Bool.true_and]
  rw [if_pos (by omega)]

theorem extract_all {n : Nat} (x : BitVec n) : x.extractLsb' 0 n = x := by
  apply BitVec.eq_of_getLsbD_eq
  intro i hi
  simp [hi]

theorem getLsbD_extract {n : Nat} (x : BitVec n) (i : Nat) : x.getLsbD i = (x.extractLsb' i 1).getLsbD 0 := by
  simp

/-- A word keeps every field of the strand word it was made of. -/
theorem SWord.ofRaw_toRaw (op : BitVec 8) (w : SWord) : SWord.ofRaw (w.toRaw op) = w := by
  obtain ⟨sw, gp, gi, ty, d, a, b, c, imm⟩ := w
  unfold SWord.ofRaw SWord.toRaw
  rw [getLsbD_extract _ 8, getLsbD_extract _ 12]
  simp (disch := decide) only [extract_high, extract_low]
  simp [ETy.ofCode_code]

theorem opOf_toRaw (op : BitVec 8) (w : SWord) : opOf (w.toRaw op) = op.toNat := by
  unfold opOf SWord.toRaw
  simp (disch := decide) only [extract_low]
  rw [extract_all]

theorem CWord.ofRaw_toRaw (op : BitVec 8) (w : CWord) : CWord.ofRaw (w.toRaw op) = w := by
  obtain ⟨sw, cond, d, a, b, c, imm⟩ := w
  unfold CWord.ofRaw CWord.toRaw
  rw [getLsbD_extract _ 8]
  simp (disch := decide) only [extract_high, extract_low]
  simp

theorem opOf_toRawC (op : BitVec 8) (w : CWord) : opOf (w.toRaw op) = op.toNat := by
  unfold opOf CWord.toRaw
  simp (disch := decide) only [extract_low]
  rw [extract_all]

theorem reserved_toRaw (op : BitVec 8) (w : CWord) : capstanReserved (w.toRaw op) = true := by
  unfold capstanReserved CWord.toRaw
  simp (disch := decide) only [extract_high, extract_low]
  simp

/-- Two adjoining fields join. -/
theorem extract_join {n : Nat} (x : BitVec n) (s k j : Nat) : x.extractLsb' (s + j) k ++ x.extractLsb' s j = x.extractLsb' s (k + j) := by
  apply BitVec.eq_of_getLsbD_eq
  intro i hi
  simp only [BitVec.getLsbD_extractLsb', BitVec.getLsbD_append]
  split
  · rename_i h; simp [h, hi]
  · simp [hi, show i - j < k by omega, show s + j + (i - j) = s + i by omega]

theorem extract_bit {n : Nat} (x : BitVec n) (i : Nat) : BitVec.ofBool (x.getLsbD i) = x.extractLsb' i 1 := by
  apply BitVec.eq_of_getLsbD_eq
  intro j hj
  obtain rfl : j = 0 := by omega
  simp

/-- A word is made of its opcode and its fields. -/
theorem SWord.toRaw_ofRaw (r : DWord) : (SWord.ofRaw r).toRaw (r.extractLsb' 0 8) = r := by
  simp only [SWord.ofRaw, SWord.toRaw, ETy.code_ofCode, extract_bit]
  rw [extract_join r 40 16 8]
  rw [extract_join r 32 24 8, extract_join r 24 32 8, extract_join r 16 40 8, extract_join r 13 48 3, extract_join r 12 51 1,
    extract_join r 9 52 3, extract_join r 8 55 1, extract_join r 0 56 8, extract_all]

/-- A capstan word whose reserved bits are 0 is made of its opcode and its fields. -/
theorem CWord.toRaw_ofRaw {r : DWord} (h : capstanReserved r = true) : (CWord.ofRaw r).toRaw (r.extractLsb' 0 8) = r := by
  unfold capstanReserved at h
  simp only [Bool.and_eq_true, beq_iff_eq] at h
  simp only [CWord.ofRaw, CWord.toRaw, extract_bit]
  rw [← h.1, ← h.2]
  rw [extract_join r 36 16 12]
  rw [extract_join r 31 28 5, extract_join r 26 33 5, extract_join r 21 38 5, extract_join r 16 43 5,
    extract_join r 12 48 4, extract_join r 9 52 3, extract_join r 8 55 1, extract_join r 0 56 8, extract_all]

/-- An opcode that the strand map does not assign has no entry (R65, R68). -/
theorem strandMap_none {op : Nat} (h : strandAssigned op = false) : strandMap.lookup op = none := by
  rw [List.lookup_eq_none_iff]
  intro p hp
  have : ∀ q ∈ strandMap.map (·.1), strandAssigned q = true := by
    intro q hq
    simp only [strandMap, List.map_append, List.mem_append] at hq
    have part : ∀ m : List (Nat × (SWord → Instr)), (m.map (·.1)).all strandAssigned = true → q ∈ m.map (·.1) → strandAssigned q = true :=
      fun m h hm => List.all_eq_true.mp h q hm
    rcases hq with (((((((((h | h) | h) | h) | h) | h) | h) | h) | h) | h) | h
    all_goals exact part _ (by decide) h
  have := this p.1 (List.mem_map_of_mem hp)
  grind

/-- An opcode that the capstan map does not assign has no entry (R67, R68). -/
theorem capstanMap_none {op : Nat} (h : capstanAssigned op = false) : capstanMap.lookup op = none := by
  rw [List.lookup_eq_none_iff]
  intro p hp
  have : ∀ q ∈ capstanMap.map (·.1), capstanAssigned q = true := by decide
  have := this p.1 (List.mem_map_of_mem hp)
  grind

/-- The bytes of a word are its bytes, lowest address first, whatever follows them. -/
theorem wordOfBytes_bytesOfWord (r : DWord) (rest : List Byte) : wordOfBytes (bytesOfWord r ++ rest) = some (r, rest) := by
  simp only [bytesOfWord, List.cons_append, List.nil_append, wordOfBytes]
  rw [extract_join r 48 8 8]
  rw [extract_join r 40 16 8, extract_join r 32 24 8, extract_join r 24 32 8, extract_join r 16 40 8, extract_join r 8 48 8, extract_join r 0 56 8,
    extract_all]

end Sys2Proof
end

