-- ==== Sys2Proof/Laws/Memory.lean ====
section
/-! SUPPORT. Memories: a read after a write, and the canonical form, which every write keeps. -/

namespace Sys2Proof.Machine

/-- An address lies above a bound. -/
def aboveLow (lo : Option Nat) (a : Nat) : Prop := ∀ l, lo = some l → l < a

theorem memWf_cons {lo : Option Nat} {a : Nat} {b : Byte} {t : List Host.Cell} :
    memWfFrom lo ((a, b) :: t) = true ↔ aboveLow lo a ∧ b ≠ unlisted ∧ memWfFrom (some a) t = true := by
  cases lo <;> simp [memWfFrom, aboveLow, and_assoc]

/-- Below its first address a canonical memory lists nothing. -/
theorem memRd_low {m : List Host.Cell} {lo : Nat} (h : memWfFrom (some lo) m = true) {x : Nat} (hx : x ≤ lo) : memRd m x = unlisted := by
  induction m generalizing lo with
  | nil => rfl
  | cons e t ih =>
    obtain ⟨a, b⟩ := e
    obtain ⟨h1, -, h3⟩ := memWf_cons.mp h
    have := h1 lo rfl
    unfold memRd
    rw [if_neg (by omega)]
    exact ih h3 (by omega)

theorem memWf_weaken {m : List Host.Cell} {a : Nat} {lo : Option Nat} (h : memWfFrom (some a) m = true) (hl : aboveLow lo a) :
    memWfFrom lo m = true := by
  cases m with
  | nil => rfl
  | cons e t =>
    obtain ⟨h1, h2, h3⟩ := memWf_cons.mp h
    exact memWf_cons.mpr ⟨fun l hh => Nat.lt_trans (hl l hh) (h1 a rfl), h2, h3⟩

theorem memWr_wfFrom {m : List Host.Cell} {lo : Option Nat} (h : memWfFrom lo m = true) {a : Nat} (ha : aboveLow lo a) (b : Byte) :
    memWfFrom lo (memWr m a b) = true := by
  induction m generalizing lo with
  | nil =>
    unfold memWr
    split
    · rfl
    · next hb => exact memWf_cons.mpr ⟨ha, hb, rfl⟩
  | cons e t ih =>
    obtain ⟨a', b'⟩ := e
    obtain ⟨h1, h2, h3⟩ := memWf_cons.mp h
    unfold memWr
    split
    · next hlt =>
      split
      · exact h
      · next hb => exact memWf_cons.mpr ⟨ha, hb, memWf_cons.mpr ⟨fun l hl => by cases hl; exact hlt, h2, h3⟩⟩
    · split
      · next he =>
        subst he
        split
        · exact memWf_weaken h3 h1
        · next hb => exact memWf_cons.mpr ⟨h1, hb, h3⟩
      · next hn hne => exact memWf_cons.mpr ⟨h1, h2, ih h3 (fun l hl => by cases hl; omega)⟩

/-- A write keeps the canonical form. -/
theorem memWr_wf {m : List Host.Cell} (h : Memory.wf m = true) (a : Nat) (b : Byte) : Memory.wf (memWr m a b) = true :=
  memWr_wfFrom h (fun _ hl => by cases hl) b

theorem memWrN_wf (bs : List Byte) {m : List Host.Cell} (h : Memory.wf m = true) (a : Nat) : Memory.wf (memWrN m a bs) = true := by
  induction bs generalizing m a with
  | nil => exact h
  | cons b bs ih => exact ih (memWr_wf h a b) (a + 1)

theorem memRd_memWr_from {m : List Host.Cell} {lo : Option Nat} (h : memWfFrom lo m = true) (a x : Nat) (b : Byte) :
    memRd (memWr m a b) x = if x = a then b else memRd m x := by
  induction m generalizing lo with
  | nil =>
    unfold memWr
    split
    · next hb => subst hb; split <;> rfl
    · simp [memRd]
  | cons e t ih =>
    obtain ⟨a', b'⟩ := e
    obtain ⟨h1, h2, h3⟩ := memWf_cons.mp h
    unfold memWr
    split
    · next hlt =>
      split
      · next hb =>
        subst hb
        split
        · next hx =>
          subst hx
          unfold memRd
          rw [if_neg (by omega)]
          exact memRd_low h3 (by omega)
        · rfl
      · rfl
    · split
      · next he =>
        subst he
        split
        · next hb =>
          subst hb
          split
          · next hx => subst hx; exact memRd_low h3 (Nat.le_refl _)
          · next hx => conv => rhs; unfold memRd
                       rw [if_neg hx]
        · simp only [memRd]
          split <;> rfl
      · next hn hne =>
        simp only [memRd]
        rw [ih h3]
        by_cases hx : x = a'
        · rw [if_pos hx, if_neg (by omega), if_pos hx]
        · rw [if_neg hx, if_neg hx]

/-- A read after a write gives the byte written, and every other byte as it was. -/
theorem memRd_memWr {m : List Host.Cell} (h : Memory.wf m = true) (a x : Nat) (b : Byte) :
    memRd (memWr m a b) x = if x = a then b else memRd m x := memRd_memWr_from h a x b

theorem memRd_memWrN (bs : List Byte) {m : List Host.Cell} (h : Memory.wf m = true) (a x : Nat) :
    memRd (memWrN m a bs) x = if a ≤ x ∧ x < a + bs.length then bs.getD (x - a) 0 else memRd m x := by
  induction bs generalizing m a with
  | nil => rw [if_neg (by simp only [List.length_nil]; omega)]; rfl
  | cons b bs ih =>
    unfold memWrN
    rw [ih (memWr_wf h a b), memRd_memWr h]
    simp only [List.length_cons]
    by_cases hx : x = a
    · subst hx
      rw [if_neg (by omega), if_pos rfl, if_pos (by omega), Nat.sub_self]
      rfl
    · rw [if_neg hx]
      by_cases hr : a + 1 ≤ x ∧ x < a + 1 + bs.length
      · rw [if_pos hr, if_pos (by omega), show x - a = (x - (a + 1)) + 1 by omega]
        rfl
      · rw [if_neg hr, if_neg (by omega)]

theorem memWf_ext_from {m n : List Host.Cell} {lo : Option Nat} (hm : memWfFrom lo m = true) (hn : memWfFrom lo n = true)
    (h : ∀ x, memRd m x = memRd n x) : m = n := by
  induction m generalizing n lo with
  | nil =>
    cases n with
    | nil => rfl
    | cons e t =>
      obtain ⟨-, h2, -⟩ := memWf_cons.mp hn
      have := h e.1
      simp only [memRd, if_true] at this
      exact absurd this.symm h2
  | cons e t ih =>
    obtain ⟨a, b⟩ := e
    obtain ⟨m1, m2, m3⟩ := memWf_cons.mp hm
    cases n with
    | nil =>
      have := h a
      simp only [memRd, if_true] at this
      exact absurd this m2
    | cons e' t' =>
      obtain ⟨a', b'⟩ := e'
      obtain ⟨n1, n2, n3⟩ := memWf_cons.mp hn
      have ha : a = a' := by
        rcases Nat.lt_trichotomy a a' with g | g | g
        · have := h a
          simp only [memRd, if_true, if_neg (show ¬ a = a' by omega)] at this
          rw [memRd_low n3 (by omega)] at this
          exact absurd this m2
        · exact g
        · have := h a'
          simp only [memRd, if_true, if_neg (show ¬ a' = a by omega)] at this
          rw [memRd_low m3 (by omega)] at this
          exact absurd this.symm n2
      subst ha
      have hb : b = b' := by have := h a; simpa only [memRd, if_true] using this
      subst hb
      rw [ih m3 n3 (fun x => by
        by_cases hx : x ≤ a
        · rw [memRd_low m3 hx, memRd_low n3 hx]
        · have := h x
          simpa only [memRd, if_neg (show ¬ x = a by omega)] using this)]

/-- Equal memories are equal data. -/
theorem memWf_ext {m n : List Host.Cell} (hm : Memory.wf m = true) (hn : Memory.wf n = true) (h : ∀ x, memRd m x = memRd n x) : m = n :=
  memWf_ext_from hm hn h

/-- Leaving out entries keeps the canonical form. -/
theorem memFilter_wfFrom {m : List Host.Cell} {lo : Option Nat} (h : memWfFrom lo m = true) (p : Host.Cell → Bool) :
    memWfFrom lo (m.filter p) = true := by
  induction m generalizing lo with
  | nil => rfl
  | cons e t ih =>
    obtain ⟨h1, h2, h3⟩ := memWf_cons.mp h
    rw [List.filter_cons]
    split
    · exact memWf_cons.mpr ⟨h1, h2, ih h3⟩
    · exact ih (memWf_weaken h3 h1)

theorem memFilter_wf {m : List Host.Cell} (h : Memory.wf m = true) (p : Host.Cell → Bool) : Memory.wf (m.filter p) = true :=
  memFilter_wfFrom h p

/-- The memory of the machine right after reset is in its canonical form. -/
theorem reset_memoryOk : State.memoryOk State.reset = true := by decide

/-! ### Little-endian numbers -/

theorem leNat_lt (bs : List Byte) : leNat bs < 256 ^ bs.length := by
  induction bs with
  | nil => decide
  | cons b bs ih =>
    have hb := b.isLt
    simp only [leNat, List.length_cons, Nat.pow_succ]
    omega

@[simp] theorem leBytes_length (n v : Nat) : (leBytes n v).length = n := by
  induction n generalizing v with
  | zero => rfl
  | succ n ih => simp [leBytes, ih]

/-- The bytes of a number hold it, modulo their width. -/
theorem leNat_leBytes (n v : Nat) : leNat (leBytes n v) = v % 256 ^ n := by
  induction n generalizing v with
  | zero => simp [leBytes, leNat, Nat.mod_one]
  | succ n ih =>
    rw [leBytes, leNat, ih, BitVec.toNat_ofNat, show 256 ^ (n + 1) = 256 * 256 ^ n from Nat.mul_comm _ _, Nat.mod_mul]

@[simp] theorem memRdN_length (m : List Host.Cell) (a n : Nat) : (memRdN m a n).length = n := by simp [memRdN]

end Sys2Proof.Machine
end

