-- ==== Sys2Proof/Laws/PerInstr.lean ====
section
/-! SUPPORT. The word of an instruction decodes to that instruction, constructor by constructor (R17, R61, R65, R67, R68). -/

set_option Elab.async false

namespace Sys2Proof.Laws

/-- A well-formed instruction that has an encoding is what the decoder of its stream reads from its word. -/
def RoundTrip.Statement (i : Instr) : Prop :=
  ∀ r, i.raw = some r → i.wf = true → (if i.isCapstan then decodeCapstan r else decodeStrand r) = .instr i

theorem strandTrip (op : BitVec 8) (mk : SWord → Instr) (hraw : ∀ w, (mk w).raw = some (w.toRaw op)) (hs : ∀ w, (mk w).isCapstan = false)
    (hmap : strandMap.lookup op.toNat = some mk) (w : SWord) : RoundTrip.Statement (mk w) := by
  intro r hr hw
  rw [hraw] at hr
  cases hr
  rw [hs, if_neg (by decide)]
  unfold decodeStrand strandOf
  rw [opOf_toRaw, SWord.ofRaw_toRaw, hmap]
  simp [hw]

theorem capstanTrip (op : BitVec 8) (mk : CWord → Instr) (hraw : ∀ w, (mk w).raw = some (w.toRaw op)) (hs : ∀ w, (mk w).isCapstan = true)
    (hmap : capstanMap.lookup op.toNat = some mk) (w : CWord) : RoundTrip.Statement (mk w) := by
  intro r hr hw
  rw [hraw] at hr
  cases hr
  rw [hs, if_pos rfl]
  unfold decodeCapstan capstanOf
  rw [opOf_toRawC, CWord.ofRaw_toRaw, hmap, reserved_toRaw]
  simp [hw]

theorem noTrip {i : Instr} (h : i.raw = none) : RoundTrip.Statement i := by
  intro r hr
  rw [h] at hr
  cases hr

theorem RoundTrip.unassignedOpcode (raw : DWord) : RoundTrip.Statement (.unassignedOpcode raw) := by
  intro r hr hw
  cases hr
  have hn : strandAssigned (opOf raw) = false := by
    simpa [Instr.wf, Machine.strandForm, Machine.capstanForm, opOf, BitVec.extractLsb'] using hw
  show decodeStrand raw = _
  unfold decodeStrand strandOf
  rw [strandMap_none hn]
  rfl

theorem RoundTrip.unassignedCapstanOpcode (raw : DWord) : RoundTrip.Statement (.unassignedCapstanOpcode raw) := by
  intro r hr hw
  cases hr
  have hn : capstanAssigned (opOf raw) = false := by
    simpa [Instr.wf, Machine.strandForm, Machine.capstanForm, opOf, BitVec.extractLsb'] using hw
  show decodeCapstan raw = _
  unfold decodeCapstan capstanOf
  rw [capstanMap_none hn]
  rfl

theorem RoundTrip.nop (w : SWord) : RoundTrip.Statement (.nop w) := strandTrip 0x00 .nop (fun _ => rfl) (fun _ => rfl) rfl w
theorem RoundTrip.mov (w : SWord) : RoundTrip.Statement (.mov w) := strandTrip 0x01 .mov (fun _ => rfl) (fun _ => rfl) rfl w
theorem RoundTrip.movi (w : SWord) : RoundTrip.Statement (.movi w) := strandTrip 0x02 .movi (fun _ => rfl) (fun _ => rfl) rfl w
theorem RoundTrip.movh (w : SWord) : RoundTrip.Statement (.movh w) := strandTrip 0x03 .movh (fun _ => rfl) (fun _ => rfl) rfl w
theorem RoundTrip.sel (w : SWord) : RoundTrip.Statement (.sel w) := strandTrip 0x04 .sel (fun _ => rfl) (fun _ => rfl) rfl w
theorem RoundTrip.lea (w : SWord) : RoundTrip.Statement (.lea w) := strandTrip 0x05 .lea (fun _ => rfl) (fun _ => rfl) rfl w
theorem RoundTrip.srd (w : SWord) : RoundTrip.Statement (.srd w) := strandTrip 0x06 .srd (fun _ => rfl) (fun _ => rfl) rfl w
theorem RoundTrip.swr (w : SWord) : RoundTrip.Statement (.swr w) := strandTrip 0x07 .swr (fun _ => rfl) (fun _ => rfl) rfl w
theorem RoundTrip.iadd (w : SWord) : RoundTrip.Statement (.iadd w) := strandTrip 0x08 .iadd (fun _ => rfl) (fun _ => rfl) rfl w
theorem RoundTrip.isub (w : SWord) : RoundTrip.Statement (.isub w) := strandTrip 0x09 .isub (fun _ => rfl) (fun _ => rfl) rfl w
theorem RoundTrip.iaddc (w : SWord) : RoundTrip.Statement (.iaddc w) := strandTrip 0x0A .iaddc (fun _ => rfl) (fun _ => rfl) rfl w
theorem RoundTrip.imul (w : SWord) : RoundTrip.Statement (.imul w) := strandTrip 0x0B .imul (fun _ => rfl) (fun _ => rfl) rfl w
theorem RoundTrip.imulh (w : SWord) : RoundTrip.Statement (.imulh w) := strandTrip 0x0C .imulh (fun _ => rfl) (fun _ => rfl) rfl w
theorem RoundTrip.imad (w : SWord) : RoundTrip.Statement (.imad w) := strandTrip 0x0D .imad (fun _ => rfl) (fun _ => rfl) rfl w
theorem RoundTrip.imadw (w : SWord) : RoundTrip.Statement (.imadw w) := strandTrip 0x0E .imadw (fun _ => rfl) (fun _ => rfl) rfl w
theorem RoundTrip.idiv (w : SWord) : RoundTrip.Statement (.idiv w) := strandTrip 0x0F .idiv (fun _ => rfl) (fun _ => rfl) rfl w
theorem RoundTrip.irem (w : SWord) : RoundTrip.Statement (.irem w) := strandTrip 0x10 .irem (fun _ => rfl) (fun _ => rfl) rfl w
theorem RoundTrip.imin (w : SWord) : RoundTrip.Statement (.imin w) := strandTrip 0x11 .imin (fun _ => rfl) (fun _ => rfl) rfl w
theorem RoundTrip.imax (w : SWord) : RoundTrip.Statement (.imax w) := strandTrip 0x12 .imax (fun _ => rfl) (fun _ => rfl) rfl w
theorem RoundTrip.iabs (w : SWord) : RoundTrip.Statement (.iabs w) := strandTrip 0x13 .iabs (fun _ => rfl) (fun _ => rfl) rfl w
theorem RoundTrip.ineg (w : SWord) : RoundTrip.Statement (.ineg w) := strandTrip 0x14 .ineg (fun _ => rfl) (fun _ => rfl) rfl w
theorem RoundTrip.isat (w : SWord) : RoundTrip.Statement (.isat w) := strandTrip 0x15 .isat (fun _ => rfl) (fun _ => rfl) rfl w
theorem RoundTrip.and (w : SWord) : RoundTrip.Statement (.and w) := strandTrip 0x16 .and (fun _ => rfl) (fun _ => rfl) rfl w
theorem RoundTrip.or (w : SWord) : RoundTrip.Statement (.or w) := strandTrip 0x17 .or (fun _ => rfl) (fun _ => rfl) rfl w
theorem RoundTrip.xor (w : SWord) : RoundTrip.Statement (.xor w) := strandTrip 0x18 .xor (fun _ => rfl) (fun _ => rfl) rfl w
theorem RoundTrip.andn (w : SWord) : RoundTrip.Statement (.andn w) := strandTrip 0x19 .andn (fun _ => rfl) (fun _ => rfl) rfl w
theorem RoundTrip.not (w : SWord) : RoundTrip.Statement (.not w) := strandTrip 0x1A .not (fun _ => rfl) (fun _ => rfl) rfl w
theorem RoundTrip.shl (w : SWord) : RoundTrip.Statement (.shl w) := strandTrip 0x1B .shl (fun _ => rfl) (fun _ => rfl) rfl w
theorem RoundTrip.shr (w : SWord) : RoundTrip.Statement (.shr w) := strandTrip 0x1C .shr (fun _ => rfl) (fun _ => rfl) rfl w
theorem RoundTrip.sar (w : SWord) : RoundTrip.Statement (.sar w) := strandTrip 0x1D .sar (fun _ => rfl) (fun _ => rfl) rfl w
theorem RoundTrip.rotl (w : SWord) : RoundTrip.Statement (.rotl w) := strandTrip 0x1E .rotl (fun _ => rfl) (fun _ => rfl) rfl w
theorem RoundTrip.bfx (w : SWord) : RoundTrip.Statement (.bfx w) := strandTrip 0x1F .bfx (fun _ => rfl) (fun _ => rfl) rfl w
theorem RoundTrip.bfi (w : SWord) : RoundTrip.Statement (.bfi w) := strandTrip 0x20 .bfi (fun _ => rfl) (fun _ => rfl) rfl w
theorem RoundTrip.popc (w : SWord) : RoundTrip.Statement (.popc w) := strandTrip 0x21 .popc (fun _ => rfl) (fun _ => rfl) rfl w
theorem RoundTrip.clz (w : SWord) : RoundTrip.Statement (.clz w) := strandTrip 0x22 .clz (fun _ => rfl) (fun _ => rfl) rfl w
theorem RoundTrip.ctz (w : SWord) : RoundTrip.Statement (.ctz w) := strandTrip 0x23 .ctz (fun _ => rfl) (fun _ => rfl) rfl w
theorem RoundTrip.brev (w : SWord) : RoundTrip.Statement (.brev w) := strandTrip 0x24 .brev (fun _ => rfl) (fun _ => rfl) rfl w
theorem RoundTrip.bprm (w : SWord) : RoundTrip.Statement (.bprm w) := strandTrip 0x25 .bprm (fun _ => rfl) (fun _ => rfl) rfl w
theorem RoundTrip.icmp (w : SWord) : RoundTrip.Statement (.icmp w) := strandTrip 0x26 .icmp (fun _ => rfl) (fun _ => rfl) rfl w
theorem RoundTrip.iset (w : SWord) : RoundTrip.Statement (.iset w) := strandTrip 0x27 .iset (fun _ => rfl) (fun _ => rfl) rfl w
theorem RoundTrip.plog (w : SWord) : RoundTrip.Statement (.plog w) := strandTrip 0x28 .plog (fun _ => rfl) (fun _ => rfl) rfl w
theorem RoundTrip.pmov (w : SWord) : RoundTrip.Statement (.pmov w) := strandTrip 0x29 .pmov (fun _ => rfl) (fun _ => rfl) rfl w
theorem RoundTrip.idot4 (w : SWord) : RoundTrip.Statement (.idot4 w) := strandTrip 0x2A .idot4 (fun _ => rfl) (fun _ => rfl) rfl w
theorem RoundTrip.idot2 (w : SWord) : RoundTrip.Statement (.idot2 w) := strandTrip 0x2B .idot2 (fun _ => rfl) (fun _ => rfl) rfl w
theorem RoundTrip.iadd3 (w : SWord) : RoundTrip.Statement (.iadd3 w) := strandTrip 0x2C .iadd3 (fun _ => rfl) (fun _ => rfl) rfl w
theorem RoundTrip.blut (w : SWord) : RoundTrip.Statement (.blut w) := strandTrip 0x2D .blut (fun _ => rfl) (fun _ => rfl) rfl w
theorem RoundTrip.rhash (w : SWord) : RoundTrip.Statement (.rhash w) := strandTrip 0x2E .rhash (fun _ => rfl) (fun _ => rfl) rfl w
theorem RoundTrip.fshf (w : SWord) : RoundTrip.Statement (.fshf w) := strandTrip 0x2F .fshf (fun _ => rfl) (fun _ => rfl) rfl w
theorem RoundTrip.fadd (w : SWord) : RoundTrip.Statement (.fadd w) := strandTrip 0x30 .fadd (fun _ => rfl) (fun _ => rfl) rfl w
theorem RoundTrip.fsub (w : SWord) : RoundTrip.Statement (.fsub w) := strandTrip 0x31 .fsub (fun _ => rfl) (fun _ => rfl) rfl w
theorem RoundTrip.fmul (w : SWord) : RoundTrip.Statement (.fmul w) := strandTrip 0x32 .fmul (fun _ => rfl) (fun _ => rfl) rfl w
theorem RoundTrip.ffma (w : SWord) : RoundTrip.Statement (.ffma w) := strandTrip 0x33 .ffma (fun _ => rfl) (fun _ => rfl) rfl w
theorem RoundTrip.fmin (w : SWord) : RoundTrip.Statement (.fmin w) := strandTrip 0x34 .fmin (fun _ => rfl) (fun _ => rfl) rfl w
theorem RoundTrip.fmax (w : SWord) : RoundTrip.Statement (.fmax w) := strandTrip 0x35 .fmax (fun _ => rfl) (fun _ => rfl) rfl w
theorem RoundTrip.fminp (w : SWord) : RoundTrip.Statement (.fminp w) := strandTrip 0x36 .fminp (fun _ => rfl) (fun _ => rfl) rfl w
theorem RoundTrip.fmaxp (w : SWord) : RoundTrip.Statement (.fmaxp w) := strandTrip 0x37 .fmaxp (fun _ => rfl) (fun _ => rfl) rfl w
theorem RoundTrip.fabs (w : SWord) : RoundTrip.Statement (.fabs w) := strandTrip 0x38 .fabs (fun _ => rfl) (fun _ => rfl) rfl w
theorem RoundTrip.fneg (w : SWord) : RoundTrip.Statement (.fneg w) := strandTrip 0x39 .fneg (fun _ => rfl) (fun _ => rfl) rfl w
theorem RoundTrip.fcmp (w : SWord) : RoundTrip.Statement (.fcmp w) := strandTrip 0x3A .fcmp (fun _ => rfl) (fun _ => rfl) rfl w
theorem RoundTrip.fset (w : SWord) : RoundTrip.Statement (.fset w) := strandTrip 0x3B .fset (fun _ => rfl) (fun _ => rfl) rfl w
theorem RoundTrip.fcls (w : SWord) : RoundTrip.Statement (.fcls w) := strandTrip 0x3C .fcls (fun _ => rfl) (fun _ => rfl) rfl w
theorem RoundTrip.frnd (w : SWord) : RoundTrip.Statement (.frnd w) := strandTrip 0x3D .frnd (fun _ => rfl) (fun _ => rfl) rfl w
theorem RoundTrip.fscl (w : SWord) : RoundTrip.Statement (.fscl w) := strandTrip 0x3E .fscl (fun _ => rfl) (fun _ => rfl) rfl w
theorem RoundTrip.fexpn (w : SWord) : RoundTrip.Statement (.fexpn w) := strandTrip 0x3F .fexpn (fun _ => rfl) (fun _ => rfl) rfl w
theorem RoundTrip.fdot2 (w : SWord) : RoundTrip.Statement (.fdot2 w) := strandTrip 0x40 .fdot2 (fun _ => rfl) (fun _ => rfl) rfl w
theorem RoundTrip.fdot4 (w : SWord) : RoundTrip.Statement (.fdot4 w) := strandTrip 0x41 .fdot4 (fun _ => rfl) (fun _ => rfl) rfl w
theorem RoundTrip.fcps (w : SWord) : RoundTrip.Statement (.fcps w) := strandTrip 0x42 .fcps (fun _ => rfl) (fun _ => rfl) rfl w
theorem RoundTrip.fmed3 (w : SWord) : RoundTrip.Statement (.fmed3 w) := strandTrip 0x43 .fmed3 (fun _ => rfl) (fun _ => rfl) rfl w
theorem RoundTrip.exp2 (w : SWord) : RoundTrip.Statement (.exp2 w) := strandTrip 0x44 .exp2 (fun _ => rfl) (fun _ => rfl) rfl w
theorem RoundTrip.log2 (w : SWord) : RoundTrip.Statement (.log2 w) := strandTrip 0x45 .log2 (fun _ => rfl) (fun _ => rfl) rfl w
theorem RoundTrip.rcp (w : SWord) : RoundTrip.Statement (.rcp w) := strandTrip 0x46 .rcp (fun _ => rfl) (fun _ => rfl) rfl w
theorem RoundTrip.rsq (w : SWord) : RoundTrip.Statement (.rsq w) := strandTrip 0x47 .rsq (fun _ => rfl) (fun _ => rfl) rfl w
theorem RoundTrip.sqrt (w : SWord) : RoundTrip.Statement (.sqrt w) := strandTrip 0x48 .sqrt (fun _ => rfl) (fun _ => rfl) rfl w
theorem RoundTrip.sinp (w : SWord) : RoundTrip.Statement (.sinp w) := strandTrip 0x49 .sinp (fun _ => rfl) (fun _ => rfl) rfl w
theorem RoundTrip.cosp (w : SWord) : RoundTrip.Statement (.cosp w) := strandTrip 0x4A .cosp (fun _ => rfl) (fun _ => rfl) rfl w
theorem RoundTrip.tanh (w : SWord) : RoundTrip.Statement (.tanh w) := strandTrip 0x4B .tanh (fun _ => rfl) (fun _ => rfl) rfl w
theorem RoundTrip.fdiv (w : SWord) : RoundTrip.Statement (.fdiv w) := strandTrip 0x4C .fdiv (fun _ => rfl) (fun _ => rfl) rfl w
theorem RoundTrip.fadd3 (w : SWord) : RoundTrip.Statement (.fadd3 w) := strandTrip 0x4D .fadd3 (fun _ => rfl) (fun _ => rfl) rfl w
theorem RoundTrip.cvtf (w : SWord) : RoundTrip.Statement (.cvtf w) := strandTrip 0x50 .cvtf (fun _ => rfl) (fun _ => rfl) rfl w
theorem RoundTrip.cvne (w : SWord) : RoundTrip.Statement (.cvne w) := strandTrip 0x51 .cvne (fun _ => rfl) (fun _ => rfl) rfl w
theorem RoundTrip.cvnd (w : SWord) : RoundTrip.Statement (.cvnd w) := strandTrip 0x52 .cvnd (fun _ => rfl) (fun _ => rfl) rfl w
theorem RoundTrip.i2f (w : SWord) : RoundTrip.Statement (.i2f w) := strandTrip 0x53 .i2f (fun _ => rfl) (fun _ => rfl) rfl w
theorem RoundTrip.f2i (w : SWord) : RoundTrip.Statement (.f2i w) := strandTrip 0x54 .f2i (fun _ => rfl) (fun _ => rfl) rfl w
theorem RoundTrip.pack (w : SWord) : RoundTrip.Statement (.pack w) := strandTrip 0x55 .pack (fun _ => rfl) (fun _ => rfl) rfl w
theorem RoundTrip.unpk (w : SWord) : RoundTrip.Statement (.unpk w) := strandTrip 0x56 .unpk (fun _ => rfl) (fun _ => rfl) rfl w
theorem RoundTrip.fxq (w : SWord) : RoundTrip.Statement (.fxq w) := strandTrip 0x57 .fxq (fun _ => rfl) (fun _ => rfl) rfl w
theorem RoundTrip.fxd (w : SWord) : RoundTrip.Statement (.fxd w) := strandTrip 0x58 .fxd (fun _ => rfl) (fun _ => rfl) rfl w
theorem RoundTrip.bscl (w : SWord) : RoundTrip.Statement (.bscl w) := strandTrip 0x59 .bscl (fun _ => rfl) (fun _ => rfl) rfl w
theorem RoundTrip.shfl (w : SWord) : RoundTrip.Statement (.shfl w) := strandTrip 0x60 .shfl (fun _ => rfl) (fun _ => rfl) rfl w
theorem RoundTrip.bxch (w : SWord) : RoundTrip.Statement (.bxch w) := strandTrip 0x61 .bxch (fun _ => rfl) (fun _ => rfl) rfl w
theorem RoundTrip.rxch (w : SWord) : RoundTrip.Statement (.rxch w) := strandTrip 0x62 .rxch (fun _ => rfl) (fun _ => rfl) rfl w
theorem RoundTrip.vote (w : SWord) : RoundTrip.Statement (.vote w) := strandTrip 0x63 .vote (fun _ => rfl) (fun _ => rfl) rfl w
theorem RoundTrip.matchLanes (w : SWord) : RoundTrip.Statement (.matchLanes w) := strandTrip 0x64 .matchLanes (fun _ => rfl) (fun _ => rfl) rfl w
theorem RoundTrip.lmov (w : SWord) : RoundTrip.Statement (.lmov w) := strandTrip 0x65 .lmov (fun _ => rfl) (fun _ => rfl) rfl w
theorem RoundTrip.lput (w : SWord) : RoundTrip.Statement (.lput w) := strandTrip 0x66 .lput (fun _ => rfl) (fun _ => rfl) rfl w
theorem RoundTrip.redl (w : SWord) : RoundTrip.Statement (.redl w) := strandTrip 0x67 .redl (fun _ => rfl) (fun _ => rfl) rfl w
theorem RoundTrip.scanl (w : SWord) : RoundTrip.Statement (.scanl w) := strandTrip 0x68 .scanl (fun _ => rfl) (fun _ => rfl) rfl w
theorem RoundTrip.lfnd (w : SWord) : RoundTrip.Statement (.lfnd w) := strandTrip 0x69 .lfnd (fun _ => rfl) (fun _ => rfl) rfl w
theorem RoundTrip.lrot (w : SWord) : RoundTrip.Statement (.lrot w) := strandTrip 0x6A .lrot (fun _ => rfl) (fun _ => rfl) rfl w
theorem RoundTrip.bra (w : SWord) : RoundTrip.Statement (.bra w) := strandTrip 0x70 .bra (fun _ => rfl) (fun _ => rfl) rfl w
theorem RoundTrip.brx (w : SWord) : RoundTrip.Statement (.brx w) := strandTrip 0x71 .brx (fun _ => rfl) (fun _ => rfl) rfl w
theorem RoundTrip.call (w : SWord) : RoundTrip.Statement (.call w) := strandTrip 0x72 .call (fun _ => rfl) (fun _ => rfl) rfl w
theorem RoundTrip.callx (w : SWord) : RoundTrip.Statement (.callx w) := strandTrip 0x73 .callx (fun _ => rfl) (fun _ => rfl) rfl w
theorem RoundTrip.ret (w : SWord) : RoundTrip.Statement (.ret w) := strandTrip 0x74 .ret (fun _ => rfl) (fun _ => rfl) rfl w
theorem RoundTrip.join (w : SWord) : RoundTrip.Statement (.join w) := strandTrip 0x75 .join (fun _ => rfl) (fun _ => rfl) rfl w
theorem RoundTrip.meet (w : SWord) : RoundTrip.Statement (.meet w) := strandTrip 0x76 .meet (fun _ => rfl) (fun _ => rfl) rfl w
theorem RoundTrip.exit (w : SWord) : RoundTrip.Statement (.exit w) := strandTrip 0x77 .exit (fun _ => rfl) (fun _ => rfl) rfl w
theorem RoundTrip.trap (w : SWord) : RoundTrip.Statement (.trap w) := strandTrip 0x78 .trap (fun _ => rfl) (fun _ => rfl) rfl w
theorem RoundTrip.yield (w : SWord) : RoundTrip.Statement (.yield w) := strandTrip 0x79 .yield (fun _ => rfl) (fun _ => rfl) rfl w
theorem RoundTrip.ptok (w : SWord) : RoundTrip.Statement (.ptok w) := strandTrip 0x7A .ptok (fun _ => rfl) (fun _ => rfl) rfl w
theorem RoundTrip.brk (w : SWord) : RoundTrip.Statement (.brk w) := strandTrip 0x7B .brk (fun _ => rfl) (fun _ => rfl) rfl w
theorem RoundTrip.bdec (w : SWord) : RoundTrip.Statement (.bdec w) := strandTrip 0x7C .bdec (fun _ => rfl) (fun _ => rfl) rfl w
theorem RoundTrip.ld (w : SWord) : RoundTrip.Statement (.ld w) := strandTrip 0x80 .ld (fun _ => rfl) (fun _ => rfl) rfl w
theorem RoundTrip.st (w : SWord) : RoundTrip.Statement (.st w) := strandTrip 0x81 .st (fun _ => rfl) (fun _ => rfl) rfl w
theorem RoundTrip.lds (w : SWord) : RoundTrip.Statement (.lds w) := strandTrip 0x82 .lds (fun _ => rfl) (fun _ => rfl) rfl w
theorem RoundTrip.sts (w : SWord) : RoundTrip.Statement (.sts w) := strandTrip 0x83 .sts (fun _ => rfl) (fun _ => rfl) rfl w
theorem RoundTrip.ldc (w : SWord) : RoundTrip.Statement (.ldc w) := strandTrip 0x84 .ldc (fun _ => rfl) (fun _ => rfl) rfl w
theorem RoundTrip.ldaq (w : SWord) : RoundTrip.Statement (.ldaq w) := strandTrip 0x85 .ldaq (fun _ => rfl) (fun _ => rfl) rfl w
theorem RoundTrip.strl (w : SWord) : RoundTrip.Statement (.strl w) := strandTrip 0x86 .strl (fun _ => rfl) (fun _ => rfl) rfl w
theorem RoundTrip.stnt (w : SWord) : RoundTrip.Statement (.stnt w) := strandTrip 0x87 .stnt (fun _ => rfl) (fun _ => rfl) rfl w
theorem RoundTrip.atom (w : SWord) : RoundTrip.Statement (.atom w) := strandTrip 0x88 .atom (fun _ => rfl) (fun _ => rfl) rfl w
theorem RoundTrip.cas (w : SWord) : RoundTrip.Statement (.cas w) := strandTrip 0x89 .cas (fun _ => rfl) (fun _ => rfl) rfl w
theorem RoundTrip.fxadd (w : SWord) : RoundTrip.Statement (.fxadd w) := strandTrip 0x8A .fxadd (fun _ => rfl) (fun _ => rfl) rfl w
theorem RoundTrip.atoms (w : SWord) : RoundTrip.Statement (.atoms w) := strandTrip 0x8B .atoms (fun _ => rfl) (fun _ => rfl) rfl w
theorem RoundTrip.fence (w : SWord) : RoundTrip.Statement (.fence w) := strandTrip 0x8C .fence (fun _ => rfl) (fun _ => rfl) rfl w
theorem RoundTrip.pref (w : SWord) : RoundTrip.Statement (.pref w) := strandTrip 0x8D .pref (fun _ => rfl) (fun _ => rfl) rfl w
theorem RoundTrip.ldl (w : SWord) : RoundTrip.Statement (.ldl w) := strandTrip 0x8E .ldl (fun _ => rfl) (fun _ => rfl) rfl w
theorem RoundTrip.stlb (w : SWord) : RoundTrip.Statement (.stlb w) := strandTrip 0x8F .stlb (fun _ => rfl) (fun _ => rfl) rfl w
theorem RoundTrip.ldw (w : SWord) : RoundTrip.Statement (.ldw w) := strandTrip 0x90 .ldw (fun _ => rfl) (fun _ => rfl) rfl w
theorem RoundTrip.oupg (w : SWord) : RoundTrip.Statement (.oupg w) := strandTrip 0x91 .oupg (fun _ => rfl) (fun _ => rfl) rfl w
theorem RoundTrip.orel (w : SWord) : RoundTrip.Statement (.orel w) := strandTrip 0x92 .orel (fun _ => rfl) (fun _ => rfl) rfl w
theorem RoundTrip.owk (w : SWord) : RoundTrip.Statement (.owk w) := strandTrip 0x93 .owk (fun _ => rfl) (fun _ => rfl) rfl w
theorem RoundTrip.owd (w : SWord) : RoundTrip.Statement (.owd w) := strandTrip 0x94 .owd (fun _ => rfl) (fun _ => rfl) rfl w
theorem RoundTrip.onew (w : SWord) : RoundTrip.Statement (.onew w) := strandTrip 0x95 .onew (fun _ => rfl) (fun _ => rfl) rfl w
theorem RoundTrip.opri (w : SWord) : RoundTrip.Statement (.opri w) := strandTrip 0x96 .opri (fun _ => rfl) (fun _ => rfl) rfl w
theorem RoundTrip.oapp (w : SWord) : RoundTrip.Statement (.oapp w) := strandTrip 0x97 .oapp (fun _ => rfl) (fun _ => rfl) rfl w
theorem RoundTrip.btinv (w : SWord) : RoundTrip.Statement (.btinv w) := strandTrip 0x98 .btinv (fun _ => rfl) (fun _ => rfl) rfl w
theorem RoundTrip.btld (w : SWord) : RoundTrip.Statement (.btld w) := strandTrip 0x99 .btld (fun _ => rfl) (fun _ => rfl) rfl w
theorem RoundTrip.cpy (w : SWord) : RoundTrip.Statement (.cpy w) := strandTrip 0xA0 .cpy (fun _ => rfl) (fun _ => rfl) rfl w
theorem RoundTrip.cpyg (w : SWord) : RoundTrip.Statement (.cpyg w) := strandTrip 0xA1 .cpyg (fun _ => rfl) (fun _ => rfl) rfl w
theorem RoundTrip.cpys (w : SWord) : RoundTrip.Statement (.cpys w) := strandTrip 0xA2 .cpys (fun _ => rfl) (fun _ => rfl) rfl w
theorem RoundTrip.chan (w : SWord) : RoundTrip.Statement (.chan w) := strandTrip 0xA3 .chan (fun _ => rfl) (fun _ => rfl) rfl w
theorem RoundTrip.tail (w : SWord) : RoundTrip.Statement (.tail w) := strandTrip 0xA4 .tail (fun _ => rfl) (fun _ => rfl) rfl w
theorem RoundTrip.mcall (w : SWord) : RoundTrip.Statement (.mcall w) := strandTrip 0xA5 .mcall (fun _ => rfl) (fun _ => rfl) rfl w
theorem RoundTrip.sigd (w : SWord) : RoundTrip.Statement (.sigd w) := strandTrip 0xA6 .sigd (fun _ => rfl) (fun _ => rfl) rfl w
theorem RoundTrip.sigr (w : SWord) : RoundTrip.Statement (.sigr w) := strandTrip 0xA7 .sigr (fun _ => rfl) (fun _ => rfl) rfl w
theorem RoundTrip.mpost (w : SWord) : RoundTrip.Statement (.mpost w) := strandTrip 0xA8 .mpost (fun _ => rfl) (fun _ => rfl) rfl w
theorem RoundTrip.mtake (w : SWord) : RoundTrip.Statement (.mtake w) := strandTrip 0xA9 .mtake (fun _ => rfl) (fun _ => rfl) rfl w
theorem RoundTrip.xred (w : SWord) : RoundTrip.Statement (.xred w) := strandTrip 0xAA .xred (fun _ => rfl) (fun _ => rfl) rfl w
theorem RoundTrip.xput (w : SWord) : RoundTrip.Statement (.xput w) := strandTrip 0xAB .xput (fun _ => rfl) (fun _ => rfl) rfl w
theorem RoundTrip.xget (w : SWord) : RoundTrip.Statement (.xget w) := strandTrip 0xAC .xget (fun _ => rfl) (fun _ => rfl) rfl w
theorem RoundTrip.bar (w : SWord) : RoundTrip.Statement (.bar w) := strandTrip 0xB0 .bar (fun _ => rfl) (fun _ => rfl) rfl w
theorem RoundTrip.bara (w : SWord) : RoundTrip.Statement (.bara w) := strandTrip 0xB1 .bara (fun _ => rfl) (fun _ => rfl) rfl w
theorem RoundTrip.barw (w : SWord) : RoundTrip.Statement (.barw w) := strandTrip 0xB2 .barw (fun _ => rfl) (fun _ => rfl) rfl w
theorem RoundTrip.barx (w : SWord) : RoundTrip.Statement (.barx w) := strandTrip 0xB3 .barx (fun _ => rfl) (fun _ => rfl) rfl w
theorem RoundTrip.wany (w : SWord) : RoundTrip.Statement (.wany w) := strandTrip 0xB4 .wany (fun _ => rfl) (fun _ => rfl) rfl w
theorem RoundTrip.evb (w : SWord) : RoundTrip.Statement (.evb w) := strandTrip 0xB5 .evb (fun _ => rfl) (fun _ => rfl) rfl w
theorem RoundTrip.evm (w : SWord) : RoundTrip.Statement (.evm w) := strandTrip 0xB6 .evm (fun _ => rfl) (fun _ => rfl) rfl w
theorem RoundTrip.evp (w : SWord) : RoundTrip.Statement (.evp w) := strandTrip 0xB7 .evp (fun _ => rfl) (fun _ => rfl) rfl w
theorem RoundTrip.evc (w : SWord) : RoundTrip.Statement (.evc w) := strandTrip 0xB8 .evc (fun _ => rfl) (fun _ => rfl) rfl w
theorem RoundTrip.sflg (w : SWord) : RoundTrip.Statement (.sflg w) := strandTrip 0xB9 .sflg (fun _ => rfl) (fun _ => rfl) rfl w
theorem RoundTrip.mcnt (w : SWord) : RoundTrip.Statement (.mcnt w) := strandTrip 0xBA .mcnt (fun _ => rfl) (fun _ => rfl) rfl w
theorem RoundTrip.tspn (w : SWord) : RoundTrip.Statement (.tspn w) := strandTrip 0xC0 .tspn (fun _ => rfl) (fun _ => rfl) rfl w
theorem RoundTrip.tstl (w : SWord) : RoundTrip.Statement (.tstl w) := strandTrip 0xC1 .tstl (fun _ => rfl) (fun _ => rfl) rfl w
theorem RoundTrip.tdec (w : SWord) : RoundTrip.Statement (.tdec w) := strandTrip 0xC2 .tdec (fun _ => rfl) (fun _ => rfl) rfl w
theorem RoundTrip.tend (w : SWord) : RoundTrip.Statement (.tend w) := strandTrip 0xC3 .tend (fun _ => rfl) (fun _ => rfl) rfl w
theorem RoundTrip.xacq (w : SWord) : RoundTrip.Statement (.xacq w) := strandTrip 0xC4 .xacq (fun _ => rfl) (fun _ => rfl) rfl w
theorem RoundTrip.xrel (w : SWord) : RoundTrip.Statement (.xrel w) := strandTrip 0xC5 .xrel (fun _ => rfl) (fun _ => rfl) rfl w
theorem RoundTrip.enrd (w : SWord) : RoundTrip.Statement (.enrd w) := strandTrip 0xC6 .enrd (fun _ => rfl) (fun _ => rfl) rfl w
theorem RoundTrip.gcnd (w : SWord) : RoundTrip.Statement (.gcnd w) := strandTrip 0xC7 .gcnd (fun _ => rfl) (fun _ => rfl) rfl w
theorem RoundTrip.sleep (w : SWord) : RoundTrip.Statement (.sleep w) := strandTrip 0xC8 .sleep (fun _ => rfl) (fun _ => rfl) rfl w
theorem RoundTrip.trdl (w : SWord) : RoundTrip.Statement (.trdl w) := strandTrip 0xD0 .trdl (fun _ => rfl) (fun _ => rfl) rfl w
theorem RoundTrip.twrl (w : SWord) : RoundTrip.Statement (.twrl w) := strandTrip 0xD1 .twrl (fun _ => rfl) (fun _ => rfl) rfl w
theorem RoundTrip.tret (w : SWord) : RoundTrip.Statement (.tret w) := strandTrip 0xD2 .tret (fun _ => rfl) (fun _ => rfl) rfl w
theorem RoundTrip.tinf (w : SWord) : RoundTrip.Statement (.tinf w) := strandTrip 0xD3 .tinf (fun _ => rfl) (fun _ => rfl) rfl w
theorem RoundTrip.tmsk (w : SWord) : RoundTrip.Statement (.tmsk w) := strandTrip 0xD4 .tmsk (fun _ => rfl) (fun _ => rfl) rfl w
theorem RoundTrip.cnop (w : CWord) : RoundTrip.Statement (.cnop w) := capstanTrip 0x00 .cnop (fun _ => rfl) (fun _ => rfl) rfl w
theorem RoundTrip.cmov (w : CWord) : RoundTrip.Statement (.cmov w) := capstanTrip 0x01 .cmov (fun _ => rfl) (fun _ => rfl) rfl w
theorem RoundTrip.cmovi (w : CWord) : RoundTrip.Statement (.cmovi w) := capstanTrip 0x02 .cmovi (fun _ => rfl) (fun _ => rfl) rfl w
theorem RoundTrip.cadd (w : CWord) : RoundTrip.Statement (.cadd w) := capstanTrip 0x03 .cadd (fun _ => rfl) (fun _ => rfl) rfl w
theorem RoundTrip.csub (w : CWord) : RoundTrip.Statement (.csub w) := capstanTrip 0x04 .csub (fun _ => rfl) (fun _ => rfl) rfl w
theorem RoundTrip.cmul (w : CWord) : RoundTrip.Statement (.cmul w) := capstanTrip 0x05 .cmul (fun _ => rfl) (fun _ => rfl) rfl w
theorem RoundTrip.cand (w : CWord) : RoundTrip.Statement (.cand w) := capstanTrip 0x06 .cand (fun _ => rfl) (fun _ => rfl) rfl w
theorem RoundTrip.cor (w : CWord) : RoundTrip.Statement (.cor w) := capstanTrip 0x07 .cor (fun _ => rfl) (fun _ => rfl) rfl w
theorem RoundTrip.cshl (w : CWord) : RoundTrip.Statement (.cshl w) := capstanTrip 0x08 .cshl (fun _ => rfl) (fun _ => rfl) rfl w
theorem RoundTrip.cshr (w : CWord) : RoundTrip.Statement (.cshr w) := capstanTrip 0x09 .cshr (fun _ => rfl) (fun _ => rfl) rfl w
theorem RoundTrip.ccmp (w : CWord) : RoundTrip.Statement (.ccmp w) := capstanTrip 0x0A .ccmp (fun _ => rfl) (fun _ => rfl) rfl w
theorem RoundTrip.cbr (w : CWord) : RoundTrip.Statement (.cbr w) := capstanTrip 0x0B .cbr (fun _ => rfl) (fun _ => rfl) rfl w
theorem RoundTrip.cbra (w : CWord) : RoundTrip.Statement (.cbra w) := capstanTrip 0x0C .cbra (fun _ => rfl) (fun _ => rfl) rfl w
theorem RoundTrip.cloop (w : CWord) : RoundTrip.Statement (.cloop w) := capstanTrip 0x0D .cloop (fun _ => rfl) (fun _ => rfl) rfl w
theorem RoundTrip.cld (w : CWord) : RoundTrip.Statement (.cld w) := capstanTrip 0x0E .cld (fun _ => rfl) (fun _ => rfl) rfl w
theorem RoundTrip.cst (w : CWord) : RoundTrip.Statement (.cst w) := capstanTrip 0x0F .cst (fun _ => rfl) (fun _ => rfl) rfl w
theorem RoundTrip.cret (w : CWord) : RoundTrip.Statement (.cret w) := capstanTrip 0x10 .cret (fun _ => rfl) (fun _ => rfl) rfl w
theorem RoundTrip.carg (w : CWord) : RoundTrip.Statement (.carg w) := capstanTrip 0x11 .carg (fun _ => rfl) (fun _ => rfl) rfl w
theorem RoundTrip.cwait (w : CWord) : RoundTrip.Statement (.cwait w) := capstanTrip 0x12 .cwait (fun _ => rfl) (fun _ => rfl) rfl w
theorem RoundTrip.cfence (w : CWord) : RoundTrip.Statement (.cfence w) := capstanTrip 0x13 .cfence (fun _ => rfl) (fun _ => rfl) rfl w
theorem RoundTrip.mload (w : CWord) : RoundTrip.Statement (.mload w) := capstanTrip 0x14 .mload (fun _ => rfl) (fun _ => rfl) rfl w
theorem RoundTrip.mloadh (w : CWord) : RoundTrip.Statement (.mloadh w) := capstanTrip 0x15 .mloadh (fun _ => rfl) (fun _ => rfl) rfl w
theorem RoundTrip.mma (w : CWord) : RoundTrip.Statement (.mma w) := capstanTrip 0x16 .mma (fun _ => rfl) (fun _ => rfl) rfl w
theorem RoundTrip.mmar (w : CWord) : RoundTrip.Statement (.mmar w) := capstanTrip 0x17 .mmar (fun _ => rfl) (fun _ => rfl) rfl w
theorem RoundTrip.mgrp (w : CWord) : RoundTrip.Statement (.mgrp w) := capstanTrip 0x18 .mgrp (fun _ => rfl) (fun _ => rfl) rfl w
theorem RoundTrip.mzero (w : CWord) : RoundTrip.Statement (.mzero w) := capstanTrip 0x19 .mzero (fun _ => rfl) (fun _ => rfl) rfl w
theorem RoundTrip.manc (w : CWord) : RoundTrip.Statement (.manc w) := capstanTrip 0x1A .manc (fun _ => rfl) (fun _ => rfl) rfl w
theorem RoundTrip.mdrn (w : CWord) : RoundTrip.Statement (.mdrn w) := capstanTrip 0x1B .mdrn (fun _ => rfl) (fun _ => rfl) rfl w
theorem RoundTrip.mdacc (w : CWord) : RoundTrip.Statement (.mdacc w) := capstanTrip 0x1C .mdacc (fun _ => rfl) (fun _ => rfl) rfl w
theorem RoundTrip.mknot (w : CWord) : RoundTrip.Statement (.mknot w) := capstanTrip 0x1D .mknot (fun _ => rfl) (fun _ => rfl) rfl w
theorem RoundTrip.mlab (w : CWord) : RoundTrip.Statement (.mlab w) := capstanTrip 0x1E .mlab (fun _ => rfl) (fun _ => rfl) rfl w
theorem RoundTrip.msumq (w : CWord) : RoundTrip.Statement (.msumq w) := capstanTrip 0x1F .msumq (fun _ => rfl) (fun _ => rfl) rfl w
theorem RoundTrip.mrow (w : CWord) : RoundTrip.Statement (.mrow w) := capstanTrip 0x20 .mrow (fun _ => rfl) (fun _ => rfl) rfl w
theorem RoundTrip.mtrn (w : CWord) : RoundTrip.Statement (.mtrn w) := capstanTrip 0x21 .mtrn (fun _ => rfl) (fun _ => rfl) rfl w
theorem RoundTrip.msadd (w : CWord) : RoundTrip.Statement (.msadd w) := capstanTrip 0x22 .msadd (fun _ => rfl) (fun _ => rfl) rfl w
theorem RoundTrip.msto (w : CWord) : RoundTrip.Statement (.msto w) := capstanTrip 0x23 .msto (fun _ => rfl) (fun _ => rfl) rfl w
theorem RoundTrip.msld (w : CWord) : RoundTrip.Statement (.msld w) := capstanTrip 0x24 .msld (fun _ => rfl) (fun _ => rfl) rfl w
theorem RoundTrip.vproj (w : CWord) : RoundTrip.Statement (.vproj w) := capstanTrip 0x25 .vproj (fun _ => rfl) (fun _ => rfl) rfl w
theorem RoundTrip.vprjb (w : CWord) : RoundTrip.Statement (.vprjb w) := capstanTrip 0x26 .vprjb (fun _ => rfl) (fun _ => rfl) rfl w
theorem RoundTrip.vmrg (w : CWord) : RoundTrip.Statement (.vmrg w) := capstanTrip 0x27 .vmrg (fun _ => rfl) (fun _ => rfl) rfl w
theorem RoundTrip.vres (w : CWord) : RoundTrip.Statement (.vres w) := capstanTrip 0x28 .vres (fun _ => rfl) (fun _ => rfl) rfl w
theorem RoundTrip.vclr (w : CWord) : RoundTrip.Statement (.vclr w) := capstanTrip 0x29 .vclr (fun _ => rfl) (fun _ => rfl) rfl w
theorem RoundTrip.vheap (w : CWord) : RoundTrip.Statement (.vheap w) := capstanTrip 0x2A .vheap (fun _ => rfl) (fun _ => rfl) rfl w
theorem RoundTrip.vnorm (w : CWord) : RoundTrip.Statement (.vnorm w) := capstanTrip 0x2B .vnorm (fun _ => rfl) (fun _ => rfl) rfl w
theorem RoundTrip.vstat (w : CWord) : RoundTrip.Statement (.vstat w) := capstanTrip 0x2C .vstat (fun _ => rfl) (fun _ => rfl) rfl w
theorem RoundTrip.cpri (w : CWord) : RoundTrip.Statement (.cpri w) := capstanTrip 0x2D .cpri (fun _ => rfl) (fun _ => rfl) rfl w
theorem RoundTrip.cseq (w : CWord) : RoundTrip.Statement (.cseq w) := capstanTrip 0x2E .cseq (fun _ => rfl) (fun _ => rfl) rfl w
theorem RoundTrip.ctrap (w : CWord) : RoundTrip.Statement (.ctrap w) := capstanTrip 0x2F .ctrap (fun _ => rfl) (fun _ => rfl) rfl w
theorem RoundTrip.clauseHeader : RoundTrip.Statement (.clauseHeader) := noTrip rfl
theorem RoundTrip.longLatencyResult : RoundTrip.Statement (.longLatencyResult) := noTrip rfl
theorem RoundTrip.storeCommit : RoundTrip.Statement (.storeCommit) := noTrip rfl
theorem RoundTrip.writePropagation (h : Hop) : RoundTrip.Statement (.writePropagation h) := noTrip rfl
theorem RoundTrip.interruptThreshold (vec : Nat) : RoundTrip.Statement (.interruptThreshold vec) := noTrip rfl
theorem RoundTrip.deferredQuiesce : RoundTrip.Statement (.deferredQuiesce) := noTrip rfl
theorem RoundTrip.sleepExpiry : RoundTrip.Statement (.sleepExpiry) := noTrip rfl
theorem RoundTrip.sigrWake : RoundTrip.Statement (.sigrWake) := noTrip rfl
theorem RoundTrip.tspnRoom : RoundTrip.Statement (.tspnRoom) := noTrip rfl
theorem RoundTrip.snagSearch : RoundTrip.Statement (.snagSearch) := noTrip rfl
theorem RoundTrip.copyAccept : RoundTrip.Statement (.copyAccept) := noTrip rfl
theorem RoundTrip.copyPageIn : RoundTrip.Statement (.copyPageIn) := noTrip rfl
theorem RoundTrip.copyComplete : RoundTrip.Statement (.copyComplete) := noTrip rfl
theorem RoundTrip.callAccept : RoundTrip.Statement (.callAccept) := noTrip rfl
theorem RoundTrip.callStart : RoundTrip.Statement (.callStart) := noTrip rfl
theorem RoundTrip.capstanClauseHeader : RoundTrip.Statement (.capstanClauseHeader) := noTrip rfl
theorem RoundTrip.cldResult : RoundTrip.Statement (.cldResult) := noTrip rfl
theorem RoundTrip.cwaitWake : RoundTrip.Statement (.cwaitWake) := noTrip rfl
theorem RoundTrip.callComplete : RoundTrip.Statement (.callComplete) := noTrip rfl
theorem RoundTrip.mreset : RoundTrip.Statement (.mreset) := noTrip rfl
theorem RoundTrip.clayParityFailure : RoundTrip.Statement (.clayParityFailure) := noTrip rfl
theorem RoundTrip.reclaim : RoundTrip.Statement (.reclaim) := noTrip rfl
theorem RoundTrip.objectMemoryReturn : RoundTrip.Statement (.objectMemoryReturn) := noTrip rfl
theorem RoundTrip.btinvComplete : RoundTrip.Statement (.btinvComplete) := noTrip rfl
theorem RoundTrip.dispatchDecision : RoundTrip.Statement (.dispatchDecision) := noTrip rfl
theorem RoundTrip.passCountPromotion : RoundTrip.Statement (.passCountPromotion) := noTrip rfl
theorem RoundTrip.taskEnd : RoundTrip.Statement (.taskEnd) := noTrip rfl
theorem RoundTrip.run : RoundTrip.Statement (.run) := noTrip rfl
theorem RoundTrip.post : RoundTrip.Statement (.post) := noTrip rfl
theorem RoundTrip.watch : RoundTrip.Statement (.watch) := noTrip rfl
theorem RoundTrip.badentry : RoundTrip.Statement (.badentry) := noTrip rfl
theorem RoundTrip.watchFire : RoundTrip.Statement (.watchFire) := noTrip rfl
theorem RoundTrip.kernelNode : RoundTrip.Statement (.kernelNode) := noTrip rfl
theorem RoundTrip.copyNode : RoundTrip.Statement (.copyNode) := noTrip rfl
theorem RoundTrip.signalNode : RoundTrip.Statement (.signalNode) := noTrip rfl
theorem RoundTrip.waitNode : RoundTrip.Statement (.waitNode) := noTrip rfl
theorem RoundTrip.waitNodeSatisfied : RoundTrip.Statement (.waitNodeSatisfied) := noTrip rfl
theorem RoundTrip.condNode : RoundTrip.Statement (.condNode) := noTrip rfl
theorem RoundTrip.notifyNode : RoundTrip.Statement (.notifyNode) := noTrip rfl
theorem RoundTrip.endNode : RoundTrip.Statement (.endNode) := noTrip rfl
theorem RoundTrip.graphFailure : RoundTrip.Statement (.graphFailure) := noTrip rfl
theorem RoundTrip.fabricAccept : RoundTrip.Statement (.fabricAccept) := noTrip rfl
theorem RoundTrip.fabricComplete : RoundTrip.Statement (.fabricComplete) := noTrip rfl
theorem RoundTrip.xredCombine : RoundTrip.Statement (.xredCombine) := noTrip rfl
theorem RoundTrip.flitRetransmit (port : Nat) : RoundTrip.Statement (.flitRetransmit port) := noTrip rfl
theorem RoundTrip.tirralPortFailure (port : Nat) (lost : Bool) : RoundTrip.Statement (.tirralPortFailure port lost) := noTrip rfl
theorem RoundTrip.cordSave : RoundTrip.Statement (.cordSave) := noTrip rfl
theorem RoundTrip.eccCorrected (key : Nat) (spare : Bool) : RoundTrip.Statement (.eccCorrected key spare) := noTrip rfl
theorem RoundTrip.uncorrectableError (key : Nat) : RoundTrip.Statement (.uncorrectableError key) := noTrip rfl
theorem RoundTrip.nearStoreScrub (line : Nat) : RoundTrip.Statement (.nearStoreScrub line) := noTrip rfl
theorem RoundTrip.clayMacroSpare : RoundTrip.Statement (.clayMacroSpare) := noTrip rfl
theorem RoundTrip.energyPeriod (milliwatts : Nat) : RoundTrip.Statement (.energyPeriod milliwatts) := noTrip rfl
theorem RoundTrip.deviceReset : RoundTrip.Statement (.deviceReset) := noTrip rfl
theorem RoundTrip.inval : RoundTrip.Statement (.inval) := noTrip rfl
theorem RoundTrip.reload : RoundTrip.Statement (.reload) := noTrip rfl
theorem RoundTrip.jobstart : RoundTrip.Statement (.jobstart) := noTrip rfl
theorem RoundTrip.jobend : RoundTrip.Statement (.jobend) := noTrip rfl
theorem RoundTrip.vacate : RoundTrip.Statement (.vacate) := noTrip rfl
theorem RoundTrip.withdraw : RoundTrip.Statement (.withdraw) := noTrip rfl
theorem RoundTrip.coreoff : RoundTrip.Statement (.coreoff) := noTrip rfl
theorem RoundTrip.coreon : RoundTrip.Statement (.coreon) := noTrip rfl
theorem RoundTrip.portrem : RoundTrip.Statement (.portrem) := noTrip rfl
theorem RoundTrip.portadd : RoundTrip.Statement (.portadd) := noTrip rfl
theorem RoundTrip.attest : RoundTrip.Statement (.attest) := noTrip rfl
theorem RoundTrip.fwstage : RoundTrip.Statement (.fwstage) := noTrip rfl
theorem RoundTrip.fwswap : RoundTrip.Statement (.fwswap) := noTrip rfl
theorem RoundTrip.commandComplete : RoundTrip.Statement (.commandComplete) := noTrip rfl
theorem RoundTrip.srtail (v : DWord) : RoundTrip.Statement (.srtail v) := noTrip rfl
theorem RoundTrip.crhead (v : DWord) : RoundTrip.Statement (.crhead v) := noTrip rfl
theorem RoundTrip.srbase (v : DWord) : RoundTrip.Statement (.srbase v) := noTrip rfl
theorem RoundTrip.srsize (v : DWord) : RoundTrip.Statement (.srsize v) := noTrip rfl
theorem RoundTrip.crbase (v : DWord) : RoundTrip.Statement (.crbase v) := noTrip rfl
theorem RoundTrip.crsize (v : DWord) : RoundTrip.Statement (.crsize v) := noTrip rfl
theorem RoundTrip.powercap (v : DWord) : RoundTrip.Statement (.powercap v) := noTrip rfl
theorem RoundTrip.tableBaseWrite (table : Nat) (v : DWord) : RoundTrip.Statement (.tableBaseWrite table v) := noTrip rfl
theorem RoundTrip.registerWrite (off : Nat) (v : DWord) : RoundTrip.Statement (.registerWrite off v) := noTrip rfl
theorem RoundTrip.tirralFlit (f : Flit) : RoundTrip.Statement (.tirralFlit f) := noTrip rfl

end Sys2Proof.Laws
end

