-- ==== Sys2Proof/Tests/Base.lean ====
section
/-! SUPPORT. Small states and words for the tests. -/

set_option Elab.async false

namespace Sys2Proof.Tests

open Machine

/-- A strand word of type S32 whose guard is p7, with every field 0. -/
def x0 : SWord := { sw := false, gp := 7, gi := false, ty := .s32, d := 0, a := 0, b := 0, c := 0, imm := 0 }

/-- A capstan word with every field 0. -/
def y0 : CWord := { sw := false, cond := 0, d := 0, a := 0, b := 0, c := 0, imm := 0 }

/-- Strand 0 of core 0 stands at the word of a clause of one word, with all its lanes; the page of 64 KiB at 0x100000 of its job lies at
the same physical address, and may be read, written and executed. -/
def st : State := placeWord State.reset 64 0

/-- The strand changed. -/
def withMe (f : Strand → Strand) (s : State) : State := setMe s (f (me s))

/-- The cord changed. -/
def withCord (f : Cord → Cord) (s : State) : State := setMyCord s (f (myCord s))

/-- The core changed. -/
def withCore (f : Core → Core) (s : State) : State := setMyCore s (f (myCore s))

/-- Vector register r holds f. -/
def withV (r : Nat) (f : Lane → Word) : State → State := withMe (fun t => { t with v := aSet t.v r (Lanes.tab f) })

/-- Scalar register r holds v. -/
def withS (r : Nat) (v : Word) : State → State := withMe (fun t => { t with s := aSet t.s r v })

/-- Predicate r holds a mask. -/
def withP (r : Nat) (m : LaneMask) : State → State := withMe (fun t => { t with p := aSet t.p r m })

/-- A scalar pair holds v. -/
def withS2 (r : Nat) (v : DWord) (s : State) : State := withS (r + 1) (v.extractLsb' 32 32) (withS r (v.extractLsb' 0 32) s)

/-- The strand stands at word n of a clause of four words. -/
def atWord (n : Nat) : State → State := withMe (fun t => { t with clause := t.clause.map (fun c => { c with nm1 := 3, word := n }) })

/-- The strand in handler mode, at the word of a clause, for a trap of lane 0. -/
def inside : State :=
  withMe (fun t => { t with handler := some { trap := { code := .swtrap, cls := .precise, park := 1, set := 1 }, pc := 0x100000,
                                              clause := t.clause.map (fun c => { c with act := 1, group := 1 }) } }) st

/-- The cord has a scratchpad of 64 KiB, and memory stands in it. -/
def withPad (bytes : List Byte) : State → State :=
  withCord (fun c => { c with hdr := { c.hdr with scratch := 65536, silt := 64 }, scratch := memWrN [] 0 bytes })

/-- Bytes stand at an address of the page. -/
def withMem (a : Nat) (bytes : List Byte) (s : State) : State := { s with mem := memWrN s.mem a bytes }

/-- The state after an instruction. -/
def after (i : Instr) (s : State) : State := match exec i s with
  | .next t => t
  | .fault _ => s
  | .refused _ => s

/-- Register r of a lane. -/
def vOf (s : State) (r : Nat) (l : Lane) : Word := vLane (me s) r l

/-- Scalar register r. -/
def sOf (s : State) (r : Nat) : Word := aGet 0 (me s).s r

/-- Predicate r. -/
def pOf (s : State) (r : Nat) : LaneMask := aGet 0 (me s).p r

/-- A call stands at the word of a clause of one word. -/
def cs : State := placeWord State.reset 128 0xC500000000000010

/-- Capstan register r holds v. -/
def withC (r : Nat) (v : DWord) (s : State) : State := setRun s { myRun s with c := aSet (myRun s).c r v }

/-- Capstan register r. -/
def cOf (s : State) (r : Nat) : DWord := aGet 0 (myRun s).c r

/-- The lanes of a word have their places (R116). -/
theorem placed_of {one : Bool} {t : Lane → DWord × Except TrapCode Place} {w : SWord} {u : State}
    (h : (accessLanes one w u).all (fun l => (t l).2.toOption.isSome) = true) : placed one t w u := by
  intro l hl
  have := List.all_eq_true.mp h l hl
  cases e : (t l).2 with
  | error c => rw [e] at this; cases this
  | ok p => exact ⟨p, rfl⟩

/-- The accesses of a word read no bad data. -/
theorem sound_of {flawed : State → Acc → Bool} {one : Bool} {t : Lane → DWord × Except TrapCode Place} {w : SWord} {u : State}
    (h : (accessLanes one w u).all (fun l => !flawed u (accessOf t l)) = true) : sound flawed one t w u := by
  intro l hl
  simpa using List.all_eq_true.mp h l hl

end Sys2Proof.Tests
end

