-- ==== Sys2Proof/Tests/Calls.lean ====
section
/-! SUPPORT. Witnesses for the clauses of the statements about capstan words: a state and operands that meet the hypotheses of each. -/

set_option Elab.async false

namespace Sys2Proof.Tests

open Machine

/-! ### Calls -/

/-- The call with a scratchpad of 64 KiB and 64 silt rows; c1, c2 and c3 are 0. -/
def csp : State := withPad [] cs

/-- A word with D = c1, A = c2, B = c3 and C = c4. -/
def y1 : CWord := { y0 with d := 1, a := 2, b := 3, c := 4 }

theorem test_witness_CapstanScalarComplete : ([.cnop y0, .cmov { y0 with d := 1, a := 2 }, .cmovi { y0 with d := 1, a := 1, b := 3, imm := 9 },
    .cadd { y1 with c := 0 }, .csub { y1 with c := 0 }, .cmul { y1 with c := 0 }, .cand { y1 with c := 0 }, .cor { y1 with c := 0 },
    .cshl { y1 with c := 0 }, .cshr { y1 with c := 0 }, .ccmp { y0 with a := 2, b := 3 }, .cbr { y0 with cond := 1, imm := 3 },
    .cbr { y0 with cond := 0, imm := 3 }, .cbra { y0 with imm := 3 }, .cloop { y0 with d := 1, imm := 3 }] : List Instr).all
      (fun i => capIssues i cs) = true ∧
    (let t := setRun cs { myRun cs with pend := [{ reg := 1, val := 5, raced := true }, { reg := 1, val := 6 }] }
     capIssues (.cadd { y1 with c := 0, sw := true }) t = true ∧ (myRun t).pend ≠ []) ∧ capD cs y1 - 1 ≠ 0 ∧ capD (withC 1 1 cs) y1 - 1 = 0 := by decide +kernel

theorem test_witness_CapstanMemoryComplete :
    let mem : CWord := { y0 with d := 1, a := 2, b := 3, imm := 0x3000 }
    let pad : CWord := { mem with imm := 0xB000 }
    let t := withC 2 0x100100 csp
    let ok (need : Need) (w : CWord) (s : State) : Bool := (capPlace s w need).toOption.isSome
    capIssues (.cld { mem with b := 0 }) t = true ∧ capIssues (.cst { mem with d := 0 }) t = true ∧ capSp mem = false ∧ capSp pad = true ∧
    ok .rd mem t = true ∧ ok .wr mem t = true ∧ ok .rd pad csp = true ∧ ok .rd pad (withC 2 65529 csp) = false ∧
    ok .rd mem (withC 2 0x100101 csp) = false ∧ ok .rd mem (withC 2 0x900000 csp) = false ∧
    (capPlace t mem .rd).toOption.map (fun p => poisonHit { t with poisoned := [p.key] } p.key (capSize mem)) = some true ∧
    capIssues (.cwait { y0 with a := 2, b := 3 }) t = true ∧
    (placeAt t (some t.focus.core) (getCord t (capCord t)).job (capA t mem) 0 8 .rd).toOption.map (fun p => poisonHit t p.key 8) = some false ∧
    ([.cfence { y0 with imm := 0x14 }, .cret y0, .carg { y0 with d := 1, imm := 7 }, .cpri { y0 with d := 1 }, .cseq { y0 with a := 2 },
      .ctrap { y0 with imm := 5 }] : List Instr).all (fun i => capIssues i t) = true ∧
    (capA t mem).toNat % 8 = 0 ∧ (capA (withC 2 4 csp) mem).toNat % 8 ≠ 0 := by decide +kernel

/-! ### Matrix words -/

/-- A shape of one row, one K-segment and one N-segment; with 16-bit B; and with a reserved bit. -/
def shape1 : DWord := 0x101000001
def shape2 : DWord := 0x4000101000001
def shapeX : DWord := 0x101000201

/-- The call owns slot 0 of clay, relation 0, and both banks. -/
def matSt : State := withCore (fun c =>
  { c with clay := [(0, { tag := some ⟨0, 0, 0, 0⟩ })], knots := [(0, { owner := some 0 })], rowBank := { owner := some 0 },
           colBank := { owner := some 0 } }) (withC 3 shape1 csp)

theorem test_witness_loads : let w : CWord := { y0 with a := 2, b := 3, imm := 5 }
    let t := withC 3 shape2 csp
    ([.mload w, .mloadh w, .mtrn w] : List Instr).all (fun i => capIssues i csp) = true ∧
    (shapeOf (capB matSt w) false).map (fun sh => (sh.b16, decide (sh.sourceLen .rows ≤ 65536), decide (sh.sourceLen .trans ≤ 65536))) =
      some (false, true, true) ∧
    (shapeOf (capB t w) false).map (fun sh => (sh.b16, decide (sh.sourceLen .planes ≤ 65536))) = some (true, true) ∧
    (shapeOf (capB (withC 3 shapeX csp) w) false).isNone = true ∧ capPad (capA (withC 2 65000 csp) w) = 65000 := by decide +kernel

theorem test_witness_passes : let w : CWord := { y0 with a := 2, b := 3, imm := 0 }
    ([.mma w, .mmar w] : List Instr).all (fun i => capIssues i matSt) = true ∧
    (shapeOf (capB matSt w) true).map (fun sh => ownsSlots matSt sh && decide (sh.sb + sh.ar ≤ 64) &&
      decide ((sh.ar - 1) * sh.pitchA + 129 * sh.ks.length ≤ 65536) && sh.slots.all (fun p => !(aGet {} (myCore matSt).clay (slotKey p.1 p.2)).bad)) =
      some true ∧ (relationOf matSt 0).isSome = true ∧ (shapeOf (capB (withC 3 shapeX matSt) w) true).isNone = true := by decide +kernel

/-- How a step of MGRP ends, from its start or in the middle: 0 all groups made, 1 failed, 2 a group left, 3 operands refused. -/
def groupEnding (s : State) : Nat :=
  let x := match (myRun s).progress with | some (.groups x) => some x | _ => groupStart { y0 with a := 2, b := 3, c := 4 } s
  match x with
  | none => 3
  | some x => match groupStep 0 x s with
    | .done _ _ => 0
    | .again _ _ => 2
    | _ => 1

/-- A call of two rows whose table, at 0x8000, has k groups of one row each; the bytes b stand at its front. -/
def grpSt (k : Nat) (b : List Byte) : State :=
  let e : List Byte := leBytes 2 1 ++ leBytes 2 2 ++ List.replicate 12 0
  withC 3 0x101000002 (withC 2 0x8000 (withCord (fun c => { c with scratch := memWrN [] 0x8000 (b ++ (List.replicate k e).flatten) }) matSt))

theorem test_witness_groups : let mid (q : Nat) : State := setProgress (grpSt 2 []) (.groups { tab := 0x8000, shape := 0x101000002, aoff := 0, q := q, a := 1 })
    capIssues (.mgrp { y0 with a := 2, b := 3, c := 4 }) (grpSt 2 []) = true ∧ groupEnding (grpSt 0 []) = 0 ∧ groupEnding (grpSt 1 []) = 0 ∧
    groupEnding (grpSt 2 []) = 2 ∧ groupEnding (mid 1) = 0 ∧ groupEnding (mid 2) = 0 ∧ groupEnding (grpSt 0 (List.replicate 16 0xFF)) = 1 ∧
    groupEnding (withC 2 8 matSt) = 3 := by decide +kernel

theorem test_witness_rows : let w : CWord := { y0 with a := 2, b := 3, c := 4 }
    capIssues (.mzero { w with c := 0 }) matSt = true ∧ capIssues (.manc { w with imm := 3 }) matSt = true ∧ rowsOk csp 63 1 = true ∧
    rowsOk csp 64 1 = false ∧ (capC csp w + (3 : BitVec 16).signExtend 64).toInt = 3 ∧
    (capC (withC 4 512 csp) w + (0 : BitVec 16).signExtend 64).toInt = 512 := by decide +kernel

/-- A range of one row and one column group. -/
def range1 : DWord := 0x10000100

theorem test_witness_drains : let w : CWord := { y0 with a := 2, b := 3, c := 4 }
    let s := withC 4 256 (withC 3 range1 csp)
    let r := rangeOf (capB s w) true
    ([.mdrn w, .mdacc w, .msto { w with c := 0 }, .msld { w with c := 0 }] : List Instr).all (fun i => capIssues i s) = true ∧ r.isSome = true ∧
    (rangeOf (capB s w) false).isSome = true ∧ r.map (fun r => decide (64 * r.ng * r.size ≤ (capC s w).toNat)) = some true ∧
    r.map (fun r => decide (64 * r.ng * r.size ≤ (capC (withC 4 128 s) w).toNat)) = some false ∧
    capPad (capA (withC 2 8 s) w) % 16 ≠ 0 ∧ (∀ k, k < 64 → leNat (memRdN (getCord s (capCord s)).scratch (16 * k + 9) 7) < 4) := by
  decide +kernel

theorem test_witness_labels : let w : CWord := { y0 with a := 2, b := 3, c := 4, imm := 1 }
    let s := withC 3 2048 csp
    let bad := withPad (List.replicate 72 0xFF) cs
    ([.mknot { y0 with a := 2, imm := 3 }, .mlab w, .msumq { y0 with imm := 1 }] : List Instr).all (fun i => capIssues i s) = true ∧
    capPad (capA s w) % 8 = 0 ∧ leAt (memRdN (getCord s (capCord s)).scratch 0 72) 0 8 < 16 ∧
    ¬ leAt (memRdN (getCord bad (capCord bad)).scratch 0 72) 0 8 < 16 ∧ (capB s w).toNat / 2 ^ 11 % 2 ^ 11 = 1 ∧ (capB s w).toNat % 2 ^ 11 = 0 ∧
    capPad (capC s w) % 64 = 0 ∧ (bankOf w (myCore matSt)).owner = some (capCord matSt) ∧ (bankOf w (myCore csp)).owner ≠ some (capCord csp) := by
  decide +kernel

theorem test_witness_reads : let w : CWord := { y0 with d := 1, a := 2 }
    ((List.range 5).map (fun i => Instr.mrow { w with imm := BitVec.ofNat 16 i })).all (fun i => capIssues i csp) = true ∧
    rowsOk csp (capA csp w).toNat 1 = true ∧ (capA csp w).toNat ≤ 3 := by decide +kernel

theorem test_witness_adds : let w : CWord := { y0 with a := 2, b := 3 }
    let s := withC 3 1 (withC 2 range1 csp)
    capIssues (.msadd w) s = true ∧ (rangeOf (capA s w) false).map (fun r => (r.fr, r.nr)) = some (0, 1) ∧ (capB s w).toNat = 1 ∧
    (capB (withC 3 0 s) w).toNat = 0 := by decide +kernel

/-! ### Vocab words -/

/-- The block of a call of one row, one heap entry, one block of weights and n ids: modes m, with k named ids. -/
def vcb (m k n : Nat) : List Byte :=
  leBytes 4 (1 + 2 ^ 8 + m * 2 ^ 16 + k * 2 ^ 24) ++ leBytes 4 64 ++ leBytes 4 0 ++ leBytes 4 n ++ leBytes 4 0x400 ++ leBytes 4 0 ++
  leBytes 4 0x3F800000 ++ leBytes 4 0 ++ leBytes 8 0x100400 ++ leBytes 8 0 ++ leBytes 4 0 ++ leBytes 4 0x300 ++ leBytes 4 0x200 ++
  leBytes 4 0x1000 ++ leBytes 4 0 ++ leBytes 4 1 ++ leBytes 8 0x100800 ++ List.replicate 48 0

/-- A descriptor of two rows of 64 binary32 elements at an address. -/
def desc1 (at' : Nat) : List Byte :=
  leBytes 8 at' ++ leBytes 2 64 ++ leBytes 2 2 ++ leBytes 2 1 ++ leBytes 2 1 ++ leBytes 8 256 ++ leBytes 8 256 ++ leBytes 8 256 ++
  [0x12, 0] ++ List.replicate 22 0

/-- The call with a block and its weights; with a row state whose bytes are b. -/
def vocSt (block b : List Byte) : State :=
  withMem 0x100400 (desc1 0x100500) (withCord (fun c =>
    { c with hdr := { c.hdr with scratch := 0x20000, silt := 64 }, scratch := memWrN (memWrN [] 0 block) 0x200 b }) cs)

/-- The block and the context of a call. -/
def vGet (s : State) : Option Vcb := (readVcb s 0).toOption
def vCtx (s : State) : Option TileRun := (vGet s).bind (fun v => (biasOf s v).toOption.bind (fun b => (vocabCtx s (vcbBytes s 0) 0 b).toOption))

/-- How the next tile of a call from one row's state ends: 0 made, 1 failed, 2 spilled. -/
def ending (s : State) (r : VRow) : Option Nat := (vCtx s).map (fun x => match oneTile { x with rows := [r] } s with
  | .ok _ _ => 0
  | .bad _ _ => 1
  | .spill _ _ _ => 2)

theorem test_witness_vproj : let w : CWord := { y0 with a := 2, b := 3 }
    let s := vocSt (vcb 0 0 1) []
    capIssues (.vproj w) s = true ∧ (vGet s).map (fun v => decide (v.rows * v.heapk ≤ 4096)) = some true ∧ (vCtx s).isSome = true ∧
    ending s {} = some 0 ∧ ending (withMem 0x100400 (desc1 0x900000) s) {} = some 1 ∧ ending (vocSt (vcb 1 0 2) []) { thr := true } = some 2 ∧
    (vGet (vocSt (vcb 8 0 1) [])).map (fun v => (readRows (vocSt (vcb 8 0 1) []) v v.state).toOption.isSome) = some true ∧
    (vGet (vocSt ([0x41, 0x40] ++ (vcb 0 0 1).drop 2) [])).map (fun v => decide (4096 < v.rows * v.heapk)) = some true := by decide +kernel

/-- The call with a vocabulary of two tiles, every row of whose weights stands at one address. -/
def twoTiles : State :=
  let d := desc1 0x100500
  withMem 0x100400 (d.take 10 ++ leBytes 2 2000 ++ (d.drop 12).take 4 ++ leBytes 8 0 ++ d.drop 24) (vocSt (vcb 0 0 1025) [])

theorem test_witness_tiles : (vCtx twoTiles).map (fun x =>
    let mid : State := setProgress twoTiles (.tiles { x with tile := 1, rows := [{}] })
    decide (x.tile + 1 < x.ctx.v.tiles) && (match oneTile { x with rows := [{}] } twoTiles with | .ok _ _ => true | _ => false) &&
      (match (myRun (drainCap mid)).progress with
        | some (.tiles y) => decide (y.ctx.v.tiles ≤ y.tile + 1) && (match oneTile y mid with | .ok _ _ => true | _ => false)
        | _ => false)) = some true := by decide +kernel

theorem test_witness_spill : let s := vocSt (vcb 1 0 2) []
    let far := withCord (fun c => { c with scratch := memWrN c.scratch 72 (leBytes 8 0x900000) }) s
    (vGet s).map (fun v => (writeResume s v (vcb 1 0 2) 0 [{ thr := true }]).toOption.isSome) = some true ∧
    (vGet far).map (fun v => (writeResume far v (vcb 1 0 2) 0 [{ thr := true }]).toOption.isSome) = some false := by decide +kernel

theorem test_witness_vres : let w : CWord := { y0 with a := 2, b := 3, c := 4 }
    let s := withMem 0x100800 (vcb 0 0 1) (withC 2 0x100800 (vocSt (vcb 0 0 1) []))
    let b := (capMem s (capA s w) 0 132).toOption.getD []
    let sb := (capMem s (capA s w) 144 32).toOption.getD []
    capIssues (.vres w) s = true ∧ (capA s w).toNat % 64 = 0 ∧ sameVcb b (scratchRd (getCord s (capCord s)) 0 128) = true ∧
    (Vcb.ofBytes b).stride = 32 ∧ (rowsFrom 1 0 32 sb 1).isSome = true ∧ leAt b 128 4 = 0 ∧ (vCtx s).isSome = true ∧
    (vGet s).map (fun v => ((rowsFrom 1 0 32 sb 1).bind (rethreshold v)).isSome) = some true := by decide +kernel

theorem test_witness_vprjb : let w : CWord := { y0 with a := 2, b := 3, c := 4 }
    let s := withC 4 0xC000 (vocSt (vcb 4 1 1) [])
    capIssues (.vprjb w) s = true ∧ (vCtx s).map (fun x => let v := x.ctx.v
      v.isNamed && v.named != 0 && (readRows s v v.state).toOption.isSome && (runTile s x.ctx 0).toOption.isSome && decide (0 < v.tiles) &&
      decide (0xC000 + 129 * ((v.width 0 + 63) / 64) ≤ 65536)) = some true ∧
    fFinite 0 = true := by decide +kernel

theorem test_witness_vmrg : let w : CWord := { y0 with a := 2, b := 3 }
    let s := withC 3 0x500 (vocSt (vcb 0 0 1) [])
    capIssues (.vmrg w) s = true ∧ (vGet s).map (fun v => v.ok && decide (v.state + v.rows * v.stride ≤ 0x500) &&
      ((readRows s v 0x500).toOption.bind (fun rs => foldShards v [] (rs, 0))).isSome) = some true := by decide +kernel

theorem test_witness_states : let w : CWord := { y0 with a := 2, b := 3, imm := 1 }
    let s := withC 3 0x500 (vocSt (vcb 0 0 1) [])
    ([.vclr { w with b := 0, imm := 0 }, .vheap w, .vnorm { w with imm := 0 }, .vstat { y0 with d := 1 }] : List Instr).all
      (fun i => capIssues i s) = true ∧ (vGet s).map Vcb.ok = some true ∧
    (vGet (vocSt (0 :: (vcb 0 0 1).drop 1) [])).map Vcb.ok = some false ∧
    (vGet s).map (fun v => (readRows s v v.state).toOption.isSome) = some true := by decide +kernel

end Sys2Proof.Tests
end

