-- ==== Sys2Proof/Tests/Clauses.lean ====
section
/-! SUPPORT. Witnesses for the clauses of the statements about strand words: a state and operands that meet the hypotheses of each. -/

set_option Elab.async false

namespace Sys2Proof.Tests

open Machine

/-! ### Words of narrow formats, predicates, traps -/

/-- nf2 holds E4M3, and every other one is invalid. -/
def nfSt : State := withCord (fun c => { c with nf := [(2, 0x000D0739)] }) st

theorem test_witness_NarrowFormatsComplete :
    (nfValid (nfReg nfSt (fdot4Nf { x0 with imm := 0x0040 })) && !nfValid (nfReg nfSt (fdot4Nf x0)) &&
      nfValid (nfReg nfSt (SWord.bits { x0 with imm := 0x0120 } 7 4)) && !nfValid (nfReg nfSt (SWord.bits x0 7 4)) &&
      (SWord.bits { x0 with imm := 0x0000 } 5 1 == 0) && nfValid (nfReg nfSt (SWord.bits { x0 with imm := 0x0220 } 8 4)) &&
      !nfValid (nfReg nfSt (SWord.bits { x0 with imm := 0x0020 } 8 4)) && (SWord.bits { x0 with imm := 0x0020 } 5 1 == 1)) = true ∧
    ([.fdot4 { x0 with ty := .n8x4, d := 4, a := 2, b := 6, c := 8, imm := 0x0040 },
      .fdot4 { x0 with ty := .n8x4, d := 4, a := 2, b := 6, c := 8 },
      .cvne { x0 with ty := .n8x4, d := 4, a := 2, imm := 0x0120 }, .cvne { x0 with ty := .n8x4, d := 4, a := 2 },
      .cvnd { x0 with ty := .n8x4, d := 4, a := 2, imm := 0x0120 }, .cvnd { x0 with ty := .n8x4, d := 4, a := 2 },
      .bscl { x0 with ty := .f32, d := 4, a := 2, b := 6 }, .bscl { x0 with ty := .f32, d := 4, a := 2, imm := 0x0220 },
      .bscl { x0 with ty := .f32, d := 4, a := 2, imm := 0x0020 }] : List Instr).all (fun i => issues i nfSt) = true := by decide +kernel

theorem test_witness_PredicateMovesComplete : ([.pmov { x0 with d := 4 }, .pmov { x0 with a := 4, imm := 0xFF01 },
    .pmov { x0 with d := 0xC4, imm := 0x0102 }, .pmov { x0 with a := 0xC4, imm := 0x0103 }] : List Instr).all (fun i => issues i st) = true := by
  decide +kernel

theorem test_witness_BranchMoves : issues (.bra { x0 with imm := 4 }) st = true ∧ quiet { x0 with imm := 4 } st = true ∧ (me st).handler = none ∧
    (me st).clause.isSome = true := by decide +kernel

theorem test_witness_ReconvergenceComplete : (curClause st).word = 0 ∧ (curClause (atWord 1 st)).word ≠ 0 ∧
    issues (.meet { x0 with a := 4 }) st = true ∧ issues (.meet { x0 with a := 4 }) (atWord 1 st) = true ∧
    lowestLane (enabled st x0) = some 0 ∧ issues (.ptok x0) st = true ∧
    (let p := withCord (fun c => { c with token := true, partner := some 1 }) st
     issues (.ptok x0) p = true ∧ ((myCord p).token && (myCord p).partner.isSome) = true) ∧
    ((myCord st).token && (myCord st).partner.isSome) = false := by decide +kernel

theorem test_witness_SoftwareTrapsTaken : (enabled st x0 != 0) = true ∧ issues (.trap { x0 with imm := 9 }) st = true ∧
    issues (.brk { x0 with imm := 9 }) st = true := by decide +kernel

/-- Words whose guard enables no lane. -/
theorem test_witness_idle : enabled st { x0 with gp := 0 } = 0 ∧ enabled inside { x0 with gp := 0 } = 0 ∧
    ([.ptok { x0 with gp := 0 }, .trap { x0 with gp := 0 }, .brk { x0 with gp := 0 }, .atom { x0 with gp := 0, d := 4, a := 2, b := 0xF0, c := 8, imm := 2 },
      .swr { x0 with gp := 0, ty := .w32, a := 0xC4, imm := 8 }, .fence { x0 with gp := 0 }, .bara { x0 with gp := 0, d := 0xC4 },
      .xrel { x0 with gp := 0 }, .tend { x0 with gp := 0 }] : List Instr).all (fun i => issues i st) = true ∧
    ([.trdl { x0 with gp := 0, ty := .w32, d := 0xC4, a := 2, b := 0xC6 }, .tret { x0 with gp := 0 }] : List Instr).all
      (fun i => issues i inside) = true := by decide +kernel

/-! ### Memory -/

/-- s0 and s1 hold the page's address, and a scratchpad holds three bytes. -/
def memSt : State := withS 0 0x100000 (withPad [7, 8, 9] st)

theorem test_witness_LoadsComplete : let w : SWord := { x0 with ty := .w32, d := 4, a := 0xC0, b := 0xF0, imm := 2 }
    issues (.ld w) memSt = true ∧ issues (.ldaq w) memSt = true ∧ issues (.ldc w) memSt = true ∧
    placed (onceDAB w) (memTarget memSt w 4 0 .rd) w memSt ∧ sound (badLoad false 4) (onceDAB w) (memTarget memSt w 4 0 .rd) w memSt ∧
    sound (badAcquire 4 4) (onceDAB w) (memTarget memSt w 4 0 .rd) w memSt ∧ sound (badConst 4) (onceDAB w) (memTarget memSt w 4 0 .rd) w memSt ∧
    issues (.lds { w with a := 0xC4 }) memSt = true ∧
    placed (onceDAB w) (scratchTarget memSt { w with a := 0xC4 } 4 0) { w with a := 0xC4 } memSt ∧
    sound (badLoad true 4) (onceDAB w) (scratchTarget memSt { w with a := 0xC4 } 4 0) { w with a := 0xC4 } memSt ∧
    issues (.ldl { x0 with d := 4, a := 0xC0, b := 0xF0, c := 7 }) memSt = true ∧
    issues (.ldl { x0 with d := 4, a := 0xC4, b := 0xF0, c := 7, imm := 1 }) memSt = true := by
  refine ⟨by decide +kernel, by decide +kernel, by decide +kernel, placed_of (by decide +kernel), sound_of (by decide +kernel), sound_of (by decide +kernel),
    sound_of (by decide +kernel), by decide +kernel, placed_of (by decide +kernel), sound_of (by decide +kernel), by decide +kernel,
    by decide +kernel⟩

theorem test_witness_StoresComplete : let w : SWord := { x0 with ty := .w32, d := 4, a := 0xC0, b := 0xF0, imm := 2 }
    issues (.st w) memSt = true ∧ issues (.strl w) memSt = true ∧ issues (.stnt w) memSt = true ∧
    placed (onceDAB w) (memTarget memSt w 4 0 .wr) w memSt ∧ issues (.sts { w with a := 0xC4 }) memSt = true ∧
    placed (onceDAB w) (scratchTarget memSt { w with a := 0xC4 } 4 0) { w with a := 0xC4 } memSt ∧
    issues (.stlb { x0 with d := 4, a := 0xC0, b := 0xF0 }) memSt = true ∧
    issues (.stlb { x0 with d := 4, a := 0xC4, b := 0xF0, imm := 1 }) memSt = true := by
  refine ⟨by decide +kernel, by decide +kernel, by decide +kernel, placed_of (by decide +kernel), by decide +kernel,
    placed_of (by decide +kernel), by decide +kernel, by decide +kernel⟩

theorem test_witness_AtomicsComplete : let w : SWord := { x0 with ty := .w32, d := 4, a := 0xC0, b := 0xF0, c := 8, imm := 2 }
    issues (.atom w) memSt = true ∧ enabled memSt w ≠ 0 ∧ placed false (memTarget memSt w 4 0 .rd) w memSt ∧
    placed false (memTarget memSt w 4 0 .wr) w memSt ∧ sound (badLoad false 4) false (memTarget memSt w 4 0 .rd) w memSt ∧
    issues (.cas { w with imm := 0x0702 }) memSt = true ∧ issues (.fxadd { w with ty := .f32, imm := 3 }) memSt = true ∧
    issues (.atoms { w with a := 0xC4 }) memSt = true ∧ placed false (scratchTarget memSt { w with a := 0xC4 } 4 0) { w with a := 0xC4 } memSt ∧
    sound (badLoad true 4) false (scratchTarget memSt { w with a := 0xC4 } 4 0) { w with a := 0xC4 } memSt := by
  refine ⟨by decide +kernel, by decide +kernel, placed_of (by decide +kernel), placed_of (by decide +kernel), sound_of (by decide +kernel),
    by decide +kernel, by decide +kernel, by decide +kernel, placed_of (by decide +kernel), sound_of (by decide +kernel)⟩

theorem test_witness_FencesComplete : issues (.fence { x0 with imm := 4 }) st = true ∧ (enabled st { x0 with imm := 4 } != 0) = true := by
  decide +kernel

/-! ### Special registers, hitches, barriers, mailboxes and blocks -/

theorem test_witness_SpecialRegistersComplete :
    ([0x08, 0x09, 0x0B, 0x40, 0x4F, 0x50] : List (BitVec 16)).all (fun i => issues (.swr { x0 with ty := .w32, a := 0xC4, imm := i }) st) = true ∧
    ([0x08, 0x09, 0x0B, 0x40, 0x4F, 0x50] : List Nat).all (fun i => !swrBad i 0) = true ∧
    ([0x08, 0x09, 0x0B, 0x40, 0x4F] : List Nat).all (fun i => swrBad i 0xFFFFFFFF) = true ∧ lowestLane (enabled st x0) = some 0 ∧
    ([0, 0x100, 0x200] : List (BitVec 16)).all (fun i => issues (.sflg { x0 with imm := i + 1 }) st) = true := by decide +kernel

/-- Hitch 3 is bound to a barrier, and its bit is pending. -/
def hitchSt (pev : BitVec 16) : State :=
  withMe (fun t => { t with pev := pev, hitches := [(3, { kind := .barrier, obj := 0, ph := false, handler := 0x100000 })] }) st

theorem test_witness_HitchesComplete : let w : SWord := { x0 with d := 0xC4, imm := 8 }
    issues (.wany w) st = true ∧ (w.imm &&& (me st).validMask == 0) = true ∧
    issues (.wany w) (hitchSt 8) = true ∧ (w.imm &&& (me (hitchSt 8)).validMask == 0) = false ∧
    (bits16 (w.imm &&& ((me (hitchSt 8)).validMask &&& ~~~(me (hitchSt 8)).evmask &&& (me (hitchSt 8)).pev))).head? = some 3 ∧
    issues (.wany w) (hitchSt 0) = true ∧
    (bits16 (w.imm &&& ((me (hitchSt 0)).validMask &&& ~~~(me (hitchSt 0)).evmask &&& (me (hitchSt 0)).pev))).head? = none ∧
    issues (.evm { x0 with imm := 8 }) st = true ∧ issues (.evm { x0 with c := 1, imm := 8 }) st = true ∧
    ([0, 1, 2] : List (BitVec 8)).all (fun k => issues (.evb { x0 with d := 3, a := k, imm := 2 }) st) = true := by decide +kernel

/-- A cord of n strands whose barrier 0 has phase ph, and a stall. -/
def barSt (n : Nat) (ph : Bool) (stall : Option Stall) : State :=
  withMe (fun t => { t with stall := stall }) (withCord (fun c => { c with nstr := n, bars := [(0, { getBar c 0 with ph := ph, exp := n })] }) st)

theorem test_witness_BarriersComplete :
    myStall (barSt 2 false (some .released)) = some .released ∧ myStall (barSt 1 false none) = none ∧
    enabled (barSt 1 false none) { x0 with gp := 0 } = 0 ∧
    (let s := barSt 1 false none
     (getBar (myCord (arriveStrand (release s 1) 0 0 0 true)) 0).ph = true ∧ (getBar (myCord s) 0).ph = false ∧
     (me (arriveStrand (release s 1) 0 0 0 true)).stickyHeld = false) ∧
    (let s := withCord (fun c => { c with sticky := 1 }) (barSt 1 false none)
     (getBar (myCord (arriveStrand (release s 1) 0 0 0 true)) 0).ph = true ∧ (me (arriveStrand (release s 1) 0 0 0 true)).stickyHeld = true) ∧
    (let s := barSt 2 false none
     (getBar (myCord (arriveStrand (release s 1) 0 0 0 true)) 0).ph = false) ∧
    (let s := withS 4 0 (barSt 2 false none)
     issues (.barw { x0 with a := 0xC4 }) s = true ∧ (getBar (myCord s) 0).ph = (opA1 s { x0 with a := 0xC4 } 0).getLsbD 0) ∧
    (let s := withS 4 1 (barSt 2 false none)
     (getBar (myCord s) 0).ph ≠ (opA1 s { x0 with a := 0xC4 } 0).getLsbD 0) := by decide +kernel

theorem test_witness_MailComplete : let w : SWord := { x0 with d := 1, a := 0xC4, b := 0xFF }
    let u := release st 2
    issues (.mpost w) st = true ∧ (myCord u).nstr ≤ (opB1 u { w with imm := 31 } 0).toNat ∧ ¬ (myCord u).nstr ≤ (opB1 u w 0).toNat ∧
    (getStrand u 0).ended = false ∧ (emptySlot (getStrand u 0)).isSome = true ∧
    issues (.mtake { x0 with d := 0xC4, c := 1, imm := 15 }) st = true ∧ (oldestMail (me st).mail).isNone = true ∧
    (oldestMail (me (withMe (fun t => { t with mail := [(0, { msg := 5, stamp := 0 })] }) st)).mail).isSome = true := by decide +kernel

/-- The kernel of the cord may use the extended block. -/
def extSt : State := withCord (fun c => { c with hdr := { c.hdr with flags := 1 } }) st

/-- Eight other strands of the quadrant hold the extended block. -/
def fullSt : State :=
  let t : Strand := { base := 64, live := true, ext := true, threads := Lanes.tab (fun _ => { st := .ready }) }
  [4, 8, 12, 16, 20, 24, 28, 36].foldl (fun s k => setStrand s k t) (withCord (fun c => { c with nstr := 16 }) extSt)

theorem test_witness_BlocksComplete : ((myCord st).hdr.flags.getLsbD 0) = false ∧ ((myCord extSt).hdr.flags.getLsbD 0) = true ∧
    issues (.xacq x0) extSt = true ∧ issues (.xacq { x0 with imm := 1, d := 1 }) extSt = true ∧ (me extSt).ext = false ∧
    (me (withMe (fun t => { t with ext := true }) extSt)).ext = true ∧
    128 ≤ freeRegs extSt 0 0 ∧ ¬ 128 ≤ freeRegs fullSt 0 0 ∧ (xacqQueue extSt 0 0).head? = none ∧
    (withS 6 0 st |> fun s => opB1 s { x0 with b := 0xC6 } 0 == 0) = true ∧ (withS 6 9 st |> fun s => opB1 s { x0 with b := 0xC6 } 0 != 0) = true ∧
    (me (withS 6 9 st)).due = 0 ∧ issues (.sleep { x0 with ty := .w32, b := 0xC6 }) st = true := by decide +kernel
/-! ### Objects and lists -/

/-- Token register s4 is outstanding. -/
def busySt (s : State) : State := withMe (fun t => { t with tokens := [4] }) s

theorem test_witness_ObjectsComplete : let w : SWord := { x0 with d := 0xC4, a := 0xC0, b := 0xC6, c := 0xC8 }
    issues (.btinv w) st = true ∧ lowestLane (enabled st w) = some 0 ∧ tokenBusy st w = false ∧ tokenBusy (busySt st) w = true := by
  decide +kernel

theorem test_witness_ObjectListsComplete : let w : SWord := { x0 with ty := .w32, d := 4, a := 0xC0, b := 0xF0, imm := 2 }
    let a : SWord := { x0 with d := 0xC4, a := 0xC0, b := 0xC6 }
    issues (.ldw w) st = true ∧ (∀ l ∈ accessLanes (onceDAB w) w st, ldwLane w st l = .ok none) ∧
    groupWrites w.d w.dataRegs (enabled st w) (fun _ => 0) ++ predWrites w.c.toNat (enabled st w) (fun _ => true) ≠ [] ∧
    issues (.oapp a) st = true ∧ lowestLane (enabled st a) = some 0 ∧
    appFrom (opA2 st a 0) (opB1 st a 0).toNat 0 (drain st 0) = .served 0 (drain st 0) := by
  refine ⟨by decide +kernel, ?_, by decide +kernel, by decide +kernel, by decide +kernel, rfl⟩
  intro l _
  have : opA2 st { x0 with ty := .w32, d := 4, a := 0xC0, b := 0xF0, imm := 2 } l = 0 := by revert l; decide +kernel
  unfold ldwLane
  rw [this]
  rfl

/-! ### Copies, calls, the fabric and signals -/

/-- A copy, a call and a fabric operation of another strand. -/
def copyOp : CopyOp := { id := 0, cord := 0, strand := 1, src := .cpy 0 }
def call1 : Call := { id := 0, cord := 0, strand := 1 }

/-- Every slot for copies is in use. -/
def slotsSt : State := withCore (fun c => { c with copies := List.replicate 1030 copyOp }) (withPad [] st)

/-- The capstan has 64 calls. -/
def callsSt : State := withCore (fun c => { c with chain := List.replicate 64 call1 }) (withPad [] st)

/-- Channel 0 of the cord. -/
def chanSt (h : Channel) : State := withCord (fun c => { c with chans := [(0, h)] }) (withPad [] st)

theorem test_witness_CopyIssueCompletes : let w : SWord := { x0 with d := 0xC4, a := 0xC6 }
    let s := withPad [] st
    issues (.cpy w) s = true ∧ lowestLane (enabled s w) = some 0 ∧ tokenBusy (busySt s) w = true ∧ tokenBusy s w = false ∧
    slotFree s (focusCord s) = true ∧ slotFree slotsSt (focusCord slotsSt) = false ∧
    ((opA1 s w 0).toNat % 64 != 0 || !scratchIn (myCord (release s 2)) (opA1 s w 0).toNat 64) = false ∧
    (opA1 (withS 6 1 s) w 0).toNat % 64 ≠ 0 ∧ issues (.cpyg { w with b := 2 }) s = true ∧ issues (.cpys { w with b := 2 }) s = true ∧
    (aGet {} (myCord (chanSt { nextHd := some (0, 0) })).chans 0).nextHd.isSome = true ∧ (aGet {} (myCord s).chans 0).nextHd.isSome = false ∧
    issues (.chan { x0 with a := 0xC2 }) s = true ∧ issues (.tail { x0 with d := 0xC4, a := 0xC2 }) s = true ∧
    (aGet {} (myCord (chanSt { cursor := some 64 })).chans 0).cursor = some 64 ∧
    (opA2 (startToken (release (chanSt { cursor := some 64 }) 2) w) { w with a := 0xC2 } 0).toNat % 64 = 0 := by decide +kernel

theorem test_witness_CallAndFabricIssueComplete : let w : SWord := { x0 with d := 0xC4, a := 0xC6 }
    let s := withPad [] st
    let full (u : State) : Bool := decide (64 ≤ (myCore u).issuedCl.length + (myCore u).chain.length + (if (myCore u).run.isSome then 1 else 0))
    issues (.mcall w) s = true ∧ issues (.xput w) s = true ∧ issues (.xget w) s = true ∧ issues (.xred w) s = true ∧
    lowestLane (enabled s w) = some 0 ∧ tokenBusy (busySt s) w = true ∧ tokenBusy s w = false ∧
    scratchIn (myCord s) (opA1 s w 0).toNat 64 = true ∧ (opA1 s w 0).toNat % 64 = 0 ∧ full callsSt = true ∧ full s = false ∧
    (opA1 (withS 6 1 s) w 0).toNat % 64 ≠ 0 ∧ slotFree slotsSt (focusCord slotsSt) = false ∧ slotFree s (focusCord s) = true := by decide +kernel

/-- s2 and s3 hold the address of a word of memory that holds 5. -/
def sigSt : State := withMem 0x100100 [5] (withS 2 0x100100 st)

theorem test_witness_SignalsComplete : let w : SWord := { x0 with d := 0xC4, a := 0xC2, b := 0xC8 }
    issues (.sigd w) sigSt = true ∧ lowestLane (enabled sigSt w) = some 0 ∧ tokenBusy sigSt w = false ∧ tokenBusy (busySt sigSt) w = true ∧
    (signalPlace (startToken (release sigSt 4) w) (opA2 sigSt w 0) .rd).isSome = true ∧
    (signalPlace (startToken (release sigSt 4) w) (opA2 sigSt w 0) .wr).isSome = true ∧
    (signalPlace (withS 2 1 st) (opA2 (withS 2 1 st) w 0) .rd).isNone = true ∧
    issues (.sigr { w with b := 0 }) sigSt ∧ issues (.sigr { w with imm := 1 }) sigSt = true ∧ (signalPlace sigSt (opA2 sigSt w 0) .rd).isSome = true ∧
    SWord.bits { w with imm := 1 } 0 1 = 1 ∧
    (opB2 sigSt w 0).slt (BitVec.ofNat 64 (leNat (forwardRd sigSt false (fun k => scopeRd sigSt 0 4 k false) 0x100100 8))) = true := by decide +kernel

/-! ### Tasks and the words of the handler -/

/-- Queue 0 is the job's, with room for n records; a record for it stands at offset 0 of the scratchpad. -/
def taskSt (n : Nat) : State := { withPad [] st with queues := [(0, { job := 0, valid := true, capacity := n })] }

theorem test_witness_TasksComplete : let w : SWord := { x0 with a := 0xC6 }
    let s := taskSt 4
    issues (.tspn w) s = true ∧ (accessLanes true w s).isEmpty = false ∧ (accessLanes true { w with gp := 0 } s).isEmpty = true ∧
    (spawnLanes false (fun l => (opA1 s w l).toNat) [0] (release s 4) {}).2.stop.isNone = true ∧
    (spawnLanes false (fun l => (opA1 (taskSt 0) w l).toNat) [0] (release (taskSt 0) 4) {}).2.stop.isSome = true ∧
    lowestLane (enabled s w) = some 0 ∧ issues (.tend x0) s = true ∧ issues (.enrd { x0 with ty := .w64, d := 0xC4 }) s = true ∧
    issues (.gcnd { x0 with ty := .w32, a := 0xC2, b := 0xC6 }) sigSt = true := by decide +kernel

theorem test_witness_GcndPlace : ∃ p, placeAt sigSt (some sigSt.focus.core) (myCord sigSt).job (opA2 sigSt { x0 with a := 0xC2, b := 0xC6 } 0) 0 4 .wr = .ok p := by
  have h : (placeAt sigSt (some sigSt.focus.core) (myCord sigSt).job (opA2 sigSt { x0 with a := 0xC2, b := 0xC6 } 0) 0 4 .wr).toOption.isSome = true := by
    decide +kernel
  cases e : placeAt sigSt (some sigSt.focus.core) (myCord sigSt).job (opA2 sigSt { x0 with a := 0xC2, b := 0xC6 } 0) 0 4 .wr with
  | error c => rw [e] at h; cases h
  | ok p => exact ⟨p, rfl⟩

theorem test_witness_HandlerWordsComplete : let w : SWord := { x0 with ty := .w32, d := 0xC4, a := 2, b := 0xC6 }
    let v : SWord := { x0 with ty := .w32, d := 4, a := 0xC2, b := 0xC6 }
    issues (.trdl w) inside = true ∧ lowestLane (enabled inside w) = some 0 ∧ issues (.twrl v) inside = true ∧
    31 < (opB1 (withS 6 32 inside) v 0).toNat ∧ ¬ 31 < (opB1 inside v 0).toNat ∧ ((me inside).threads.get 0).isExited = false ∧
    issues (.twrl { x0 with ty := .w32, d := 1, a := 0xC2, b := 0xC6, c := 1 }) inside = true ∧
    inMask (handledTrap inside).park 0 = true ∧ inMask (handledTrap inside).park 1 = false ∧
    issues (.twrl { x0 with ty := .w64, a := 0xC2, b := 0xC6, c := 2 }) inside = true ∧ issues (.tinf { x0 with d := 0xC4 }) inside = true ∧
    issues (.tmsk { x0 with ty := .w32, d := 0xC4, b := 0xC6 }) inside = true ∧ issues (.tret x0) inside = true ∧ enabled inside x0 ≠ 0 := by
  decide +kernel

end Sys2Proof.Tests
end

