-- ==== Sys2Proof/Tests/Events.lean ====
section
/-! SUPPORT. Witnesses for the clauses of the statements about device steps, refusals, traps and steps. -/

set_option Elab.async false

namespace Sys2Proof.Tests

open Machine

/-! ### Strands -/

/-- The word that a fetch gives. -/
def got : Fetched → Option DWord
  | .word r _ => some r
  | .fault => none
  | .poison => none

/-- The strand stands before a header, which is h, at word w of its clause where that is given. -/
def hdrSt (h : DWord) (w : Option Nat) : State :=
  withMem 0x100000 (bytesOfWord h) (withMe (fun t =>
    { t with clause := none, threads := Lanes.tab (fun _ => { pc := 0x100000, st := .ready, place := w }) }) st)

theorem test_witness_headers :
    let t (s : State) : State := setMe s { me s with sel := (me s).sel + 1 }
    let good := hdrSt 0xC500000000000000 none
    let bad := hdrSt 0xC500000000000010 none
    let mid := hdrSt 0xC500000000000001 (some 1)
    let runs (s : State) : Bool := betweenClauses s && !(myCord s).tend && !(myCord s).stopping && !(me s).stickyHeld
    (runs good && runs bad && runs mid) = true ∧ (me good).select = some 0 ∧ (me bad).select = some 0 ∧ (me mid).select = some 0 ∧
    ((me good).waitHdr.isNone && (me good).handler.isNone && (takeDue good).isNone && (takeDue bad).isNone && (takeDue mid).isNone) = true ∧
    ((me good).threads.get 0).place = none ∧ ((me mid).threads.get 0).place = some 1 ∧
    (got (strandFetch (t good) 0x100000)).map strandHeaderOk = some true ∧ (got (strandFetch (t bad) 0x100000)).map strandHeaderOk = some false ∧
    (got (strandFetch (t mid) 0x100000)).isSome = true ∧ (myCord (withCord (fun c => { c with tend := true }) good)).tend = true ∧
    (me (withMe (fun x => { x with waitHdr := some 1 }) good)).waitHdr = some 1 := by decide +kernel

/-- A result of register 4 of lane 0 is outstanding. -/
def pendSt : State :=
  withMe (fun t => { t with pend := [{ cls := .ld, writes := [], pc := 0x100000, word := 0 }] }) st

theorem test_witness_StrandEventsComplete :
    let wait (x : Stall) (i : Instr) : State :=
      withMem 0x100008 (bytesOfWord (((encode i).map (fun b => BitVec.ofNat 64 (leNat b))).getD 0)) (withMe (fun t => { t with stall := some x }) sigSt)
    let sigw : Instr := .sigr { x0 with d := 0xC4, a := 0xC2 }
    let spn : Instr := .tspn { x0 with a := 0xC6 }
    let here (s : State) : Option Instr := (wordHere s).map (·.1)
    let due := withMe (fun t =>
      { t with clause := none, split := some 65536,
               threads := Lanes.tab (fun l => if l = 0 then { pc := 0x100000, st := .parked (.fault .memfault 0 0 0) } else { st := .exited }) }) st
    let slept := withMe (fun t => { t with clause := none, threads := Lanes.tab (fun _ => { pc := 0x100000, st := .parked (.sleep 0) }) }) st
    let blocked := withMe (fun t => { t with stall := some .sigr, blocked := 2 ^ 20 }) st
    ((me pendSt).pend[pendSt.focus.ix]?).isSome = true ∧ st.focus.strand < 32 ∧
    (deferredDue due && !inHandler due && !(me due).ended) = true ∧
    ((me slept).threads.get (laneOfNat slept.focus.ix)).st = .parked (.sleep 0) ∧
    myStall (wait .sigr sigw) = some .sigr ∧ mayGoOn (wait .sigr sigw) = true ∧ here (wait .sigr sigw) = some sigw ∧
    myStall (wait (.tspn 1) spn) = some (.tspn 1) ∧ here (wait (.tspn 1) spn) = some spn ∧
    (me blocked).isBlocked = true ∧ 2 ^ 20 * ((me blocked).searched + 1) ≤ (me blocked).blocked ∧ (curClause? st).isSome = true := by
  decide +kernel

theorem test_witness_storeCommit : let q : QStore := { scratch := false, key := 0x100100, bytes := [1], nc := false }
    let s := { setRun cs { myRun cs with stores := [q] } with focus := { cs.focus with strand := 32 } }
    32 ≤ s.focus.strand ∧ (myCore s).run.map (·.stores) = some [q] := by decide +kernel

/-! ### Copies and calls -/

/-- A call that has ended, one that waits, and the call of the state. -/
def ended1 : RunCall := { call := call1, ended := some { status := 0 } }

theorem test_witness_CopyAndCallEventsComplete : let s := withPad [] st
    let chain : CopyOp := { copyOp with src := .chain 0 0x100100 }
    let issued (o : CopyOp) : State := withCore (fun c => { c with issuedCp := [o] }) s
    let flying (o : CopyOp) : State := withCore (fun c => { c with copies := [o] }) s
    let queued := withCore (fun c => { c with issuedCl := [call1], chain := [call1] }) s
    let at' (h : DWord) : State := withMem 0x100000 (bytesOfWord h) (setRun cs { myRun cs with clause := none, pc := 0x100000 })
    let past := setRun cs { myRun cs with spent := 2 ^ 32 + 1 }
    ((myCore (issued chain)).issuedCp[s.focus.ix]?).map (·.src) = some (.chain 0 0x100100) ∧
    ((myCore (issued copyOp)).issuedCp[s.focus.ix]?).map (·.src) = some (.cpy 0) ∧
    ((myCore (flying { copyOp with status := some 3 })).copies[s.focus.ix]?).map (·.status) = some (some 3) ∧
    ((myCore (flying copyOp)).copies[s.focus.ix]?).map (fun o => decide (o.rows ≤ o.moved.length)) = some true ∧
    (myCore queued).issuedCl = [call1] ∧ (myCore queued).run = none ∧ (myCore queued).chain[(nextCall queued (myCore queued)).1]? = some call1 ∧
    (myCore queued).resumed = [] ∧ (got (capFetch (at' 0xC500000000000010) 0x100000)).map capstanHeaderOk = some true ∧
    (got (capFetch (at' 0xC500000000000000) 0x100000)).map capstanHeaderOk = some false ∧ (myRun? (at' 0xC500000000000010)).isSome = true ∧
    (myRun? (setRun cs { myRun cs with pend := [{ reg := 3, val := 5 }] })).map (fun r => (r.pend[cs.focus.ix]?).map (·.raced)) = some (some false) ∧
    (myCore (withCore (fun c => { c with run := some ended1 }) s)).run.map (·.ended) = some (some { status := 0 }) ∧
    (myRun? past).map (fun r => decide (callBudget past r.call.cord < r.spent)) = some true ∧
    (aGet? (myCore matSt).clay 0).map (fun x => x.tag.isSome) = some true ∧ (myRun? matSt).map (fun r => r.clause.isSome) = some true := by
  decide +kernel

theorem test_witness_cwaitWake : let i : Instr := .cwait { y0 with a := 2, b := 3 }
    let s := withMem 0x100008 (bytesOfWord (((encode i).map (fun b => BitVec.ofNat 64 (leNat b))).getD 0)) (setRun cs { myRun cs with waiting := true })
    (myRun? s).map (·.waiting) = some true ∧ (capWord s).map (·.1) = some i := by decide +kernel

/-! ### Objects and tasks -/

/-- Job 0 is valid with a live key, queue 0 is its own, and its object table has n entries; its near-store region is one of 2 MiB, whose
free frames are below HIGH. -/
def devSt (n : Nat) : State :=
  { withPad [] st with
    jobs := [(0, { valid := true, tbase := 0x200000, tlen := n, nsbase := 0x400000, nslen := 1, high0 := 33 })],
    queues := [(0, { job := 0, valid := true, capacity := 4, erate := 5, ecap := 7 })],
    mgmt := { st.mgmt with keys := [0] } }

/-- An alive object of 64 KiB, with wc weak counts and sc strong ones. -/
def obj1 (at' sc wc : Nat) : Obj := { addr := at', tier := 0, cls := 10, pri := 0, st := 1, sc := sc, wc := wc, gen := 0, age := 0, spec := 0 }

theorem test_witness_objects : let s := setObj (devSt 2) 0 0 (obj1 0x400000 0 1)
    let dead := { setObj (devSt 2) 0 0 { obj1 0x400000 0 1 with st := 2 } with dying := [(0, 0)] }
    let inv (ops : List Nat) : State := { s with btinvs := [{ cord := 0, strand := 0, token := none, ops := ops }] }
    let pinned := withCore (fun c => { c with copies := [{ copyOp with pins := [(0, { handle := 0, table := 0, live := true })] }] }) (inv [0])
    freeFrames (returnAll s 0) 0 0 < highMark (returnAll s 0) 0 0 ∧ (candidateOf (returnAll s 0) 0 0).map (·.1) = some 0 ∧
    (aGet {} s.jobs 0).tlen = 1 + 1 ∧ (candidateOf (devSt 2) 0 0).isNone = true ∧ mayReturn dead 0 0 = true ∧
    ((inv []).btinvs[(inv []).focus.ix]?).isSome = true ∧ stillPins pinned 0 = true := by decide +kernel

/-- A record of queue 0 at level 3 with a kernel header at an address. -/
def rec1 (khdr : DWord) : QRec := { item := .task { khdr := khdr, ctl := mkCtl 3 0 false false } false }

/-- The handles of objects 0 and 64. -/
def h0 : DWord := mkHandle false 10 0 0
def h64 : DWord := mkHandle false 10 0 64

/-- Object 0 holds a kernel header, whose FLAGS are f, and object 64 holds bytes. -/
def tableSt (f : Nat) (b : List Byte) : State :=
  let s := setObj (setObj (devSt 65) 0 0 (obj1 0x400000 1 0)) 0 64 (obj1 0x410000 1 0)
  withMem 0x410000 b (withMem 0x400008 [1, 32, BitVec.ofNat 8 f] s)

/-- The device with records in the FIFO of queue 0 and level 3. -/
def queuedSt (f : Nat) (l : List QRec) : State := setFifo (tableSt f []) 0 3 l

/-- What a decision finds: refused 0, one task 1, two tasks 2, none 3. -/
def decision (s : State) : Option Nat := (choose s 0 16).map (fun x => match headVerdict x.2.2 0 x.2.1 x.1 with
  | .refused _ => 0
  | .alone _ => 1
  | .pair _ _ => 2
  | .held => 3)

theorem test_witness_decisions :
    decision (queuedSt 0 [rec1 h0]) = some 1 ∧ decision (queuedSt 0 [rec1 0]) = some 0 ∧ decision (queuedSt 2 [rec1 h0, rec1 h0]) = some 2 ∧
    (choose (queuedSt 0 [rec1 h0]) 0 16).map (fun x => match headVerdict x.2.2 0 x.2.1 x.1 with
      | .alone y => (placeTask (popHeads x.2.2 x.2.1 x.1 1) 0 x.2.1 x.1 (rec1 h0).item (itemTask x.2.2 x.2.1 x.1 (rec1 h0).item) y).isSome
      | _ => false) = some true ∧
    (choose (queuedSt 2 [rec1 h0, rec1 h0]) 0 16).map (fun x => match headVerdict x.2.2 0 x.2.1 x.1 with
      | .pair y z =>
        let r := itemTask x.2.2 x.2.1 x.1 (rec1 h0).item
        ((placeTask (popHeads x.2.2 x.2.1 x.1 2) 0 x.2.1 x.1 (rec1 h0).item r y).bind (fun p => placeTask p.2 0 x.2.1 x.1 (rec1 h0).item r z)).isSome
      | _ => false) = some true := by decide +kernel

theorem test_witness_tasks : let old := setFifo (devSt 2) 0 3 [{ rec1 0 with passes := 4096 }]
    let gone := withMe (fun t => { t with threads := Lanes.tab (fun _ => { st := .exited }) }) (devSt 2)
    let stopped := withCord (fun c => { c with stopping := true }) (withMe (fun t => { t with clause := none }) (devSt 2))
    ((getFifo old 0 3)[0]?).map (fun r => (decide (4096 ≤ r.passes), decide ((3 : Nat) < 15))) = some (true, true) ∧
    endReady gone (focusCord gone) = true ∧ saveReady stopped (focusCord stopped) = true ∧ ((devSt 2).queues.map (·.1)).Nodup := by
  decide +kernel

/-! ### Graphs -/

/-- The device with an entry in the submission ring. -/
def ringSt (e : List Byte) (s : State) : State :=
  { withMem (hostKey 0) e s with mgmt := { s.mgmt with srsize := 4, srtail := 1 } }

/-- An entry of a kind and a strand, with a target. -/
def entry1 (k : Nat) (target : DWord) (i : Nat) : List Byte :=
  leBytes 8 k ++ leBytes 8 target.toNat ++ leBytes 8 0x100100 ++ leBytes 8 0 ++ leBytes 8 i ++ List.replicate 24 0

/-- A task of the job runs under the record address 64. -/
def taskedSt : State := withCord (fun c => { c with recAddr := 64 }) (tableSt 0 [])

theorem test_witness_entries : let s (k : Nat) (t : DWord) (i : Nat) : State := ringSt (entry1 k t i) taskedSt
    let e (k : Nat) (t : DWord) (i : Nat) : Option Nat := (nextEntry (s k t i)).map (fun b => (Entry.ofBytes b).kind)
    e 0 h64 0 = some 0 ∧ e 1 64 0 = some 1 ∧ e 2 64 0 = some 2 ∧ e 3 64 0 = some 3 ∧ jobLive taskedSt 0 = true ∧ queueBound taskedSt 0 0 = true ∧
    taskedSt.insts = [] ∧ queueBound st 0 0 = false ∧ taskedSt.watches.length < 256 ∧ targetThere taskedSt 0 64 0 = true ∧
    targetThere taskedSt 0 64 1 = false := by decide +kernel

/-- An instance in object 64 with node 0 of a kind ready; the node's bytes from the eighth on. -/
def inst1 : GInst := { addr := h64, job := 0, queue := 0, level := 3, csig := 0, tag := 0, seq := 0, ready := [0] }
def nodeSt (k : Nat) (b : List Byte) : State :=
  { tableSt 0 (List.replicate 64 0 ++ leBytes 8 k ++ leBytes 8 0 ++ b ++ List.replicate (48 - b.length) 0) with insts := [(0, inst1)] }

/-- The node starts: its kind, and the instance after its buffers are allocated. -/
def startsAs (s : State) : Option Nat :=
  let u := allocFirst (setInst s s.focus.ix { inst1 with ready := [], started := [0] }) 0 0
  match aGet? u.insts 0 with
  | some g => if g.failed.isNone then gRd s inst1 64 1 else none
  | none => none

theorem test_witness_nodes : let words (a b : DWord) : List Byte := leBytes 8 a.toNat ++ leBytes 8 b.toNat
    let w (s : State) (need : Need) : Bool := (graphWord s inst1 h0 8 need).isSome
    ((List.range 7).map (fun k => startsAs (nodeSt k (words h0 0)))) = (List.range 7).map some ∧
    w (nodeSt 2 (words h0 1)) .rd = true ∧ w (nodeSt 2 (words h0 1)) .wr = true ∧
    gRd (nodeSt 5 (words 3 0)) inst1 80 2 = some 3 ∧ gRd (nodeSt 4 (words h0 0)) inst1 94 2 = some 0 ∧
    (gList (nodeSt 4 (words h0 0)) inst1 0 0).isSome = true ∧
    (List.range 6).mapM (fun k => gRd (nodeSt 0 (words h0 0 ++ (List.replicate 6 (leBytes 4 1)).flatten)) inst1 (96 + 4 * k) 4) =
      some [1, 1, 1, 1, 1, 1] ∧
    (((aGet? (nodeSt 3 []).insts 0).map (fun g => g.ready))) = some [0] := by decide +kernel

theorem test_witness_graph_ends : let waits : State := { nodeSt 3 [] with insts := [(0, { inst1 with waits := [{ node := 0, addr := h0, bound := 0 }] })] }
    let bad : State := { nodeSt 3 [] with insts := [(0, { inst1 with failed := some (4, 0, 0) })] }
    let watch : State := { taskedSt with watches := [{ job := 0, target := 64, strand := 0, signal := 0x8A00000000000000, bound := 0, tag := 0, seq := 0 }] }
    ((aGet? waits.insts 0).map (fun g => (g.waits.find? (fun w => w.node == 0)).isSome)) = some true ∧
    ((aGet? bad.insts 0).map (fun g => (g.failed, g.started))) = some (some (4, 0, 0), []) ∧ (watch.watches[watch.focus.ix]?).isSome = true ∧
    (unitPlace watch 0 0x8A00000000000000 8 .rd).isSome = true := by decide +kernel

/-! ### Paging in, propagation, the fabric and errors -/

/-- Job 0 has a page table, one node of which serves every level, that maps the page of 64 KiB at 0x100000 to itself; no core holds it. -/
def mappedSt (s : State) : State :=
  withCore (fun c => { c with tlb := [] }) (withMem 0x600000 (leBytes 8 0x600001) (withMem 0x600080 (leBytes 8 0x10000F)
    { s with jobs := aSet s.jobs 0 { aGet {} s.jobs 0 with root := 0x600000 } }))

/-- A copy that pages in row 0 of a paged source: entry 0 of its table, at 0x100500, holds the handle of an object in tier 1. -/
def pagedSt : State :=
  let s := mappedSt (setObj (devSt 2) 0 0 { obj1 0x400000 1 0 with tier := 1 })
  let d : TDesc := { aux := 0x100500, flags := 8, d3 := 1, s1 := 64 }
  withCore (fun c => { c with copies := [{ copyOp with image := List.replicate 32 0 ++ [1, 0, 1, 0, 32] ++ List.replicate 27 0, sdesc := some d }] })
    (withMem 0x100500 (leBytes 8 h0.toNat) s)

theorem test_witness_copyPageIn : ((myCore pagedSt).copies[pagedSt.focus.ix]?).map (fun op => op.status.isNone && decide (0 < op.rows) &&
    (match pinRow pagedSt op 0 with | .ok (t, o) => (pageDue t o 0).isSome | .error _ => false)) = some true := by decide +kernel

/-- An operation of the fabric with a block of 64 bytes of which LOC is 0x100100, FAR 0x100200 and LEN 8. -/
def fab1 (k : FabKind) : FabOp :=
  { id := 0, cord := 0, strand := 0, kind := k, off := 0,
    block := leBytes 8 0x100100 ++ leBytes 8 0x100200 ++ leBytes 4 8 ++ List.replicate 44 0 }
def fabSt (op : FabOp) : State := withCore (fun c => { c with fabric := [op] }) (withPad [] st)

theorem test_witness_FabricAndErrorsComplete : let up : List Committed := [{ key := 0x100100, bytes := [1] }]
    let x := fab1 .xput
    let at' (op : FabOp) : Bool := ((myCore (fabSt op)).fabric[(fabSt op).focus.ix]?).isSome
    let red : Reduction := { group := 0, seq := 0, op := 0, len := 1, parts := [[1]] }
    let grouped : State := { st with reds := [red], groups := [(0, { n := 1 })] }
    ((getCore (withCore (fun c => { c with up := up }) st) 0).up[0]?).isSome = true ∧
    ((aGet [] { st with dieUp := [(0, up)] }.dieUp 0)[0]?).isSome = true ∧ ({ st with sysUp := up }.sysUp[0]?).isSome = true ∧
    at' x = true ∧ x.accepted = false ∧ x.block ≠ [] ∧ padPoison (fabSt x) 0 0 64 = false ∧ fabOut (fabSt x) x = false ∧ x.badFields = false ∧
    { x with block := leBytes 8 0x100100 ++ List.replicate 56 1 }.badFields = true ∧ at' { x with accepted := true } = true ∧
    findRed grouped 0 0 = some 0 ∧ (aGet {} grouped.groups 0).n = [[(1 : DWord)]].length ∧ (contribute st 0 0 0 [1]).1 = none ∧
    st.portsLost = [] ∧ st.portsNarrow = [] ∧ tierOf 0x100100 ≠ padTier ∧ tierOf (2 ^ 72 * padTier) = padTier ∧
    (aGet? (withPad [] st).cords 0).isSome = true ∧ (getCord (withPad [] st) 0).bad = [] := by decide +kernel

/-! ### Commands and the registers of the host -/

/-- The device before its reset, ready, and with a command that runs. -/
def busyDev (n : Nat) : State := { st with mgmt := { st.mgmt with busy := true, running := some (n, 0, 3) } }

theorem test_witness_CommandsComplete : (busyDev 1).mgmt.busy = true ∧ State.reset.mgmt.busy = false ∧ State.reset.mgmt.state ≠ 2 ∧
    st.mgmt.busy = false ∧ st.mgmt.state = 2 ∧ (aGet 0 st.mgmt.args 0).toNat = 0 ∧
    (aGet 0 { st.mgmt with args := [(0, 1024)] }.args 0).toNat = 1024 ∧ (busyDev 1).mgmt.running = some (1, 0, 3) ∧
    (busyDev 5).mgmt.running = some (5, 0, 3) ∧ (busyDev 7).mgmt.running = some (7, 0, 3) ∧ st.mgmt.otherOk = false ∧
    { st.mgmt with otherOk := true }.otherOk = true := by decide +kernel

theorem test_witness_HostRegistersComplete : let s := ringSt [] st
    (st.mgmt.srhead = st.mgmt.srtail ∧ st.insts = [] ∧ st.watches = [] ∧ st.records = []) ∧
    s.mgmt.srhead ≠ s.mgmt.srtail ∧ st.mgmt.crhead = st.mgmt.crtail ∧ st.mgmt.srsize = 0 ∧ s.mgmt.srsize ≠ 0 ∧
    noTask State.reset = true ∧ noTask st = false := by decide +kernel

/-! ### Refusals, traps and steps -/

theorem test_witness_IllFormedWordsTrap : let bad : SWord := { x0 with ty := .f32, d := 4 }
    let high : SWord := { x0 with d := 90, a := 2, b := 6 }
    Instr.wf (.iadd bad) = false ∧ inHandler inside = true ∧ (strandForm (.xacq x0)).map (fun f => f.2.inHandler f.1) = some false ∧
    Instr.wf (.iadd high) = true ∧ inHandler st = false ∧ regInRange (me st).base (me st).ext 90 = false ∧
    (strandForm (.iadd high)).map (fun f => (f.2.names f.1).contains 90) = some true ∧
    (strandForm (.tret x0)).map (fun f => f.2.priv) = some .handler ∧ Instr.wf (.tret x0) = true ∧
    Instr.wf (.cadd { y0 with imm := 1, sw := true, cond := 1 }) = false ∧ (myRun? cs).map (fun r => r.clause.isSome) = some true := by
  decide +kernel

theorem test_witness_SpecialRegisterTraps : let w (ix : BitVec 16) : SWord := { x0 with ty := .w32, d := 0xC4, imm := ix }
    let passes (i : Instr) (s : State) : Bool := match strandForm i with
      | none => false
      | some (w, f) => i.wf && (!inHandler s || f.inHandler w) && (f.names w).all (regInRange (me s).base (me s).ext)
    passes (.srd (w 0x20)) st = true ∧ passes (.srd { w 0x50 with ty := .w64 }) st = true ∧
    passes (.swr { x0 with ty := .w32, a := 0xC4, imm := 0x50 }) st = true ∧
    (myCord (withCord (fun c => { c with job := 1 }) st)).job ≠ 0 ∧ isScalar (w 0x0D).d = true := by decide +kernel

theorem test_witness_TrapEntry : let s := withCord (fun c => { c with hdr := { c.hdr with handler := 0x100200 } }) st
    (me s).handler = none ∧ (me s).clause.isSome = true ∧ (me s).pend = [] ∧ (myCord s).tend = false ∧ (myCord s).hdr.handler ≠ 0 ∧
    (myCord st).hdr.handler = 0 ∧ trapsOf st (focusCord st) = [] ∧ (myCord st).failure = none ∧ (me inside).handler.isSome = true ∧
    (me inside).pend = [] := by decide +kernel

theorem test_witness_HandlerReturn : (me inside).handler.map (fun h => (h.trap.cls, h.trap.code == .sticky, h.trap.park &&& ~~~h.trap.set)) =
    some (.precise, false, 0) ∧ (me inside).pev = 0 := by decide +kernel

theorem test_witness_StepRunsWord : let s := placeWord State.reset 64 0x0000040605044333
    let u := { s with agenda := [], focus := { s.focus with core := 0, slot := 0, strand := 0 } }
    s.agenda = [.strand 0 0 0] ∧ (me u).live = true ∧ (me u).ended = false ∧ betweenClauses u = false ∧ (takeDue u).isNone = true ∧
    (myCord u).stopping = false ∧ (myCord u).tend = false ∧ (me u).stickyHeld = false ∧
    got (strandFetch u (wordAddr u)) = some 0x0000040605044333 ∧ cs.agenda = [.capstan 0] ∧ (myRun? cs).isSome = true ∧
    betweenClauses (hdrSt 0 none) = true := by decide +kernel

theorem test_witness_stores : let q : QStore := { scratch := false, key := 0x100100, bytes := [1, 2], nc := false }
    q.rel ≤ 2 ∧ Memory.wf st.mem = true ∧ Memory.wf (getCord (withPad [1] st) 0).scratch = true ∧ (curClause? st).isSome = true := by
  decide +kernel

theorem test_witness_IllegalHeadersTrap :
    let at' (h : DWord) : State :=
      withMem 0x100000 (bytesOfWord h) (withMe (fun t => { t with handler := t.handler.map (fun x => { x with clause := none }) }) inside)
    betweenClauses (at' 0) = true ∧ (myCord (at' 0)).tend = false ∧ (myCord (at' 0)).stopping = false ∧ inHandler (at' 0) = true ∧
    (me (at' 0)).waitHdr = none ∧ (me (at' 0)).handler.map (·.pc) = some 0x100000 ∧
    got (strandFetch (at' 0xC500000000000010) 0x100000) = some 0xC500000000000010 ∧
    got (strandFetch (at' 0xC500000000000000) 0x100000) = some 0xC500000000000000 := by decide +kernel

theorem test_witness_MemoryStaysCanonical : Memory.wf st.mem = true ∧ ∃ t, step st = .next t := ⟨by decide +kernel, step_answers st⟩

end Sys2Proof.Tests
end

