-- ==== Sys2Proof/Tests/Corners.lean ====
section
/-! SUPPORT. Witnesses for the clauses about accesses that fail, words that wait, and the corners of the events. -/

set_option Elab.async false

namespace Sys2Proof.Tests

open Machine

/-! ### Strand words -/

/-- Results of register 4 and of s4 are outstanding, the first of them superseded. -/
def lateSt : State :=
  let e (l : List PendWrite) : Pending := { cls := .ld, writes := l, pc := 0x100000, word := 0 }
  withMe (fun t => { t with pend := [e [⟨.v 4 0, 5, false⟩], e [⟨.v 4 0, 6, false⟩, ⟨.s 4, 7, false⟩]] }) st

theorem test_witness_outstanding : (me lateSt).pend ≠ [] ∧
    ((me lateSt).pend.all (fun e => e.poison.isEmpty && e.writes.all (fun w => !w.raced))) = true ∧
    issues (.idiv { x0 with sw := true, d := 5, a := 2, b := 6 }) lateSt = true ∧ quiet { x0 with sw := true } lateSt = false := by decide +kernel

theorem test_witness_handlerBranch : issues (.bra { x0 with imm := 4 }) inside = true ∧
    (me inside).handler.map (fun h => h.clause.isSome) = some true ∧ inMask (enabled inside { x0 with imm := 4 }) 0 = true := by decide +kernel

/-- What a lane's access answers: its trap's number, or 0. -/
def answer (x : DWord × Except TrapCode Place) : Nat := match x.2 with
  | .ok _ => 0
  | .error c => c.num

/-- s0 and s1 hold a base. -/
def baseSt (a : DWord) (s : State) : State := withS 1 (a.extractLsb' 32 32) (withS 0 (a.extractLsb' 0 32) s)

/-- Handles of object 0: strong, weak, of another class, of another generation; it is alive. -/
theorem test_witness_accessFaults : let w : SWord := { x0 with ty := .w32, d := 4, a := 0xC0, b := 0xF0, imm := 2 }
    let s := mappedSt (tableSt 0 [])
    let t (a : DWord) (off : Int) : Nat := answer (memTarget (baseSt a s) w 4 off .rd 0)
    let form (h : DWord) : Bool := decide (hClass h ≤ 25) && decide (hIndex h < (aGet {} s.jobs (myCord s).job).tlen) &&
      (getObj s (myCord s).job (hIndex h)).cls == hClass h
    opA2 (baseSt 0x100001 s) w 0 = 0x100001 ∧ isHandle 0x100001 = false ∧ t 0x100001 0 = TrapCode.align.num ∧
    t 0 0 = TrapCode.memfault.num ∧ w.a ≠ 0xF0 ∧ (findTlb s s.focus.core (myCord s).job 0x900000 1).isNone = true ∧
    vaOk 0x1000000000000000 = false ∧ t 0x100000 0 = 0 ∧ isHandle h0 = true ∧ form h0 = true ∧ hWeak h0 = false ∧
    form (mkHandle false 9 0 0) = false ∧ form (mkHandle true 10 0 0) = true ∧ hWeak (mkHandle true 10 0 0) = true ∧
    form (mkHandle false 10 1 0) = true ∧ (getObj s (myCord s).job 0).gen ≠ hGen (mkHandle false 10 1 0) ∧ (getObj s (myCord s).job 0).st = 1 ∧
    t h0 1 = 0 ∧ t h0 0x4000 = TrapCode.memfault.num ∧ t h0 (-1) = TrapCode.memfault.num ∧
    answer (scratchTarget s { w with a := 0xC4 } 4 16384 0) = TrapCode.memfault.num := by decide +kernel

theorem test_witness_lanesFault : (me st).handler = none ∧ (me st).clause.isSome = true ∧
    (([(0, TrapCode.align, 1, 0), (3, .memfault, 8, 0)] : List (Lane × TrapCode × DWord × DWord)).map (·.1)).Nodup ∧ st.consts = [] := by
  decide +kernel

/-- A word whose data carries an error, and a page that may only be written. -/
theorem test_witness_badData : let w : SWord := { x0 with ty := .w32, d := 4, a := 0xC0, b := 0xF0, c := 8, imm := 2 }
    let bad := { memSt with poisoned := [0x100000] }
    let only := withCore (fun c => { c with tlb := c.tlb.map (fun t => { t with rd := false }) }) memSt
    badData false (scopeOf w) bad (placeOf (memTarget bad w 4 0 .rd 0)) 4 = true ∧ issues (.atom w) bad = true ∧ enabled bad w ≠ 0 ∧
    answer (updateChecked false true 4 w bad 0) = TrapCode.poison.num ∧ answer (updateChecked false true 4 w only 0) = TrapCode.memfault.num ∧
    answer (updateChecked false false 4 w only 0) = 0 := by decide +kernel

theorem test_witness_fullMail :
    let full := withMe (fun t => { t with mail := (List.range 8).map (fun i => (i, ({ msg := 1, stamp := i } : Mail))) }) st
    (emptySlot (getStrand full 0)).isNone = true ∧ (getStrand full 0).ended = false := by decide +kernel

/-- An OAPP entry at 0x100100, for slots of the table at 0x100200: n pages of tier 0 from slot 0 up, of a list of n slots. -/
def appSt (n : Nat) (b : List Byte) : State :=
  withMem 0x100100 (leBytes 8 0x100200 ++ leBytes 3 0 ++ leBytes 1 n ++ leBytes 3 n ++ leBytes 1 0) (withMem 0x100200 b (mappedSt (devSt 65)))

theorem test_witness_oapp : let s := appSt 1 []
    let at' (a : DWord) (n : Nat) (need : Need) : Option Place := (placeAt s (some s.focus.core) (myCord s).job a 0 n need).toOption
    let pages (u : State) (n : Nat) : Bool := (allocPages u 0 0 n).isSome
    (at' 0x100100 16 .rd).map (·.key) = some 0x100100 ∧ (at' 0x900000 16 .rd).isNone = true ∧ poisonHit s 0x100100 16 = false ∧
    (at' 0x100200 8 .rd).isSome = true ∧ (at' 0x100200 8 .wr).isSome = true ∧
    leNat ((List.range 8).map (fun i => scopeRd s 0 4 (0x100200 + i) false)) = 0 ∧
    leNat ((List.range 8).map (fun i => scopeRd (appSt 1 [1]) 0 4 (0x100200 + i) false)) ≠ 0 ∧
    1 ≤ freeIndices (returnAll s 0) 0 ∧ pages (returnAll s 0) 1 = true ∧ freeIndices (returnAll { s with jobs := [] } 0) 0 < 1 ∧
    pages (returnAll { s with jobs := [(0, { valid := true, tbase := 0x200000, tlen := 65 })] } 0) 1 = false := by decide +kernel

theorem test_witness_tail : let w : SWord := { x0 with d := 0xC4, a := 0xC2 }
    let s := chanSt { cursor := some 64, walks := [{ pos := 64, token := some 4, strand := 0, owner := 0, tail := 128 }] }
    issues (.tail w) s = true ∧ (aGet {} (myCord s).chans (w.bits 0 3)).walking.isSome = true ∧ tokenBusy s w = false ∧
    (aGet {} (myCord (chanSt {})).chans 0).cursor = none := by decide +kernel

theorem test_witness_leaveSaved : let c : Clause := { hdr := 0x100000, nm1 := 0, word := 0, act := 3, group := 3 }
    let t := withMe (fun t => { t with handler := t.handler.map (fun h => { h with saved := some (c, none) }) }) inside
    ((me t).handler.bind (·.saved)).map (fun x => (x.1.act &&& ~~~1, x.1.act &&& ~~~3)) = some (2, 0) := by decide +kernel

/-! ### Events of strands, copies and calls -/

/-- The strand waits at a word, which stands in memory. -/
def waitSt (x : Stall) (i : Instr) (s : State) : State :=
  withMem 0x100008 (bytesOfWord (((encode i).map (fun b => BitVec.ofNat 64 (leNat b))).getD 0)) (withMe (fun t => { t with stall := some x }) s)

/-- The strand after the fetch of the word at which it waits. -/
def atHere (s : State) : State := ((wordHere s).map (·.2)).getD s

theorem test_witness_sigrWake : let w : SWord := { x0 with d := 0xC4, a := 0xC2, b := 0xC8, imm := 1 }
    let low := waitSt .sigr (.sigr w) (withS 8 9 sigSt)
    let high := waitSt .sigr (.sigr w) sigSt
    let gone := waitSt .sigr (.sigr w) (withS 2 0x900000 st)
    let ok (s : State) : Bool := myStall s == some .sigr && mayGoOn s && (wordHere s).map (·.1) == some (.sigr w) && issues (.sigr w) (atHere s) &&
      lowestLane (enabled (atHere s) w) == some 0
    let u (s : State) : State := issued (.sigr w) (atHere s)
    (ok low && ok high && ok gone) = true ∧ (signalAt w 0 (u low)).isSome = true ∧ aboveBound w 0 (u low) = false ∧
    (signalAt w 0 (u high)).isSome = true ∧ aboveBound w 0 (u high) = true ∧ (signalAt w 0 (u gone)).isNone = true := by decide +kernel

theorem test_witness_tspnRoom : let w : SWord := { x0 with a := 0xC6 }
    let s (n : Nat) : State := waitSt (.tspn 0) (.tspn w) (taskSt n)
    let ok (s : State) : Bool := myStall s == some (.tspn 0) && mayGoOn s && (wordHere s).map (·.1) == some (.tspn w) && issues (.tspn w) (atHere s)
    let u (n : Nat) : State := issued (.tspn w) (atHere (s n))
    (ok (s 4) && ok (s 0)) = true ∧ spawning w (u 4) ≠ [] ∧ (spawned w (u 4)).2.stop = none ∧ (spawned w (u 0)).2.stop = some 0 := by decide +kernel

theorem test_witness_betweenWords :
    (curClause? st).map (·.act) = some (BitVec.allOnes 32) ∧ (me st).split ≠ some 0 ∧
    (curClause? (setClause st (some { hdr := 0x100000, nm1 := 0, word := 0, act := 0, group := 0 }))).map (·.act) = some 0 ∧
    (let s := withMe (fun t => { t with stickyHeld := true }) (hdrSt 0xC500000000000000 none)
     betweenClauses s = true ∧ (me s).stickyHeld = true ∧ inHandler s = false) ∧
    (let s := withMe (fun t => { t with traps := [{ code := .memfault, cls := .engine }] }) (hdrSt 0xC500000000000000 none)
     (takeDue s).isSome = true ∧ (me s).waitHdr = none) ∧
    (let s := withCore (fun c => { c with issuedCp := [{ copyOp with strand := 0 }] }) st
     issuesAccepted s (focusStrand s) = false) := by decide +kernel

/-- A call that was restored, and a call that waits in CWAIT within its budget. -/
theorem test_witness_restoredCall :
    let s := withCore (fun c => { c with chain := [call1], resumed := [{ run := { call := call1 }, clay := [] }] }) (withPad [] st)
    let i : Instr := .cwait { y0 with a := 2, b := 3 }
    let t := withMem 0x100008 (bytesOfWord (((encode i).map (fun b => BitVec.ofNat 64 (leNat b))).getD 0)) (setRun cs { myRun cs with waiting := true })
    ((myCore s).resumed.find? (fun e => e.run.call.id == call1.id)).isSome = true ∧ (myCore s).run = none ∧
    (myRun? t).map (fun r => decide (r.spent ≤ callBudget t r.call.cord)) = some true ∧
    (capWord t).map (fun x => capIssues x.1 x.2) = some true := by decide +kernel

/-- A pass of the call reads slot (0, 0), whose parity fails. -/
theorem test_witness_clayParity : let i : Instr := .mma { y0 with a := 2, b := 3, imm := 0 }
    let s := withMem 0x100008 (bytesOfWord (((encode i).map (fun b => BitVec.ofNat 64 (leNat b))).getD 0)) matSt
    (aGet? (myCore s).clay 0).bind (fun x => x.tag.map (·.cord)) = some (capCord s) ∧ (capWord s).map (·.1) = some i ∧
    (passOf i 0 0 s).map (fun p => (decide ((0, 0) ∈ p.slots), decide ((1, 0) ∈ p.slots))) = some (true, false) := by decide +kernel

/-- A CLD through a base register that holds 0. -/
theorem test_witness_nullBase : let w : CWord := { y0 with d := 1, a := 2, imm := 0x3000 }
    capIssues (.cld w) csp = true ∧ capA csp w = 0 ∧ w.a ≠ 31 ∧ isHandle (capA csp w) = false ∧ (capPlace csp w .rd).toOption.isNone = true := by
  decide +kernel

/-! ### Objects, tasks and the graph unit -/

theorem test_witness_reclaim : let s := { setObj (devSt 2) 0 0 (obj1 0x400000 0 1) with lowDue := [(0, 0)] }
    (s.focus.ix, s.focus.row) ∈ s.lowDue ∧ (devSt 2).lowDue = [] ∧ (getObj (devSt 2) 0 0).st = 0 := by decide +kernel

theorem test_witness_decides : let s := queuedSt 0 [rec1 h0]
    let full := { s with cords := (List.range 16).map (fun i => (i, ({} : Cord))) }
    s.present.getLsbD s.focus.core = true ∧ s.focus.core ∉ s.mgmt.off ∧ aGet? s.cords 1 = none ∧
    (List.range 16).all (fun i => (aGet? full.cords i).isSome) = true := by decide +kernel

theorem test_witness_advances :
    ({ st with dueIrq := [3], rings := [(3, { tail := 0, n := 1 })] } : State).dueIrq = [3] ∧ st.dueIrq = [] ∧
    (aGet {} ({ st with rings := [(3, { tail := 0, n := 1 })] } : State).rings 3).n = 1 := by decide +kernel

/-! ### The fabric, errors, commands -/

theorem test_witness_reductions : let red : Reduction := { group := 0, seq := 0, op := 0, len := 1, parts := [[1]] }
    let s : State := { st with reds := [red], groups := [(0, { n := 2 })] }
    let x : FabOp := { fab1 .xred with accepted := true, status := some 2 }
    findRed s 0 0 = some 0 ∧ red.parts.length < (aGet {} s.groups 0).n ∧ findRed s 0 1 = none ∧ (red.op = 0 ∧ red.len = [(1 : DWord)].length) ∧
    ¬ (red.op = 1 ∧ red.len = [(1 : DWord)].length) ∧ ((myCore (fabSt x)).fabric[(fabSt x).focus.ix]?).map (·.status) = some (some 2) ∧
    (fab1 .xget).kind = .xget ∧ isHandle (fab1 .xput).fb.far = false ∧
    ((fabWrite (fabSt (fab1 .xred)) (fab1 .xred) true 0x100200 0 [1]).toOption.isSome) = true ∧
    ((fabWrite (fabSt (fab1 .xred)) (fab1 .xred) true 0x900000 0 [1]).toOption.isSome) = false := by decide +kernel

theorem test_witness_runningCommands :
    let run (n st' : Nat) (r : Word) : State := { st with mgmt := { st.mgmt with busy := true, running := some (n, st', r), runArgs := [(0, 3)] } }
    (run 1 0 0).mgmt.running = some (1, 0, 0) ∧ (run 7 3 0).mgmt.running = some (7, 3, 0) ∧ (run 9 0 0).mgmt.running = some (9, 0, 0) ∧
    coreCords (run 7 0 5) 5 = [] ∧ coreCords (run 7 0 0) 0 ≠ [] ∧ portQuiet (run 9 0 0) = true ∧
    ({ State.reset with mgmt := { State.reset.mgmt with state := 1 } } : State).mgmt.state = 1 := by decide +kernel

/-- SHA-512 of the bytes "abc", as its standard gives it (R403 names the function). -/
theorem test_sha512 : leNat (sha512 [0x61, 0x62, 0x63]).reverse = 0xddaf35a193617abacc417349ae20413112e6fa4e89a97ea20a9eeee64b55d39a2192992a274fc1a836ba3c23a3feebbd454d4423643ce80e2a9ac94fa54ca49f := by
  decide +kernel

/-! ### Traps, returns and commits -/

/-- The strand in handler mode for an engine trap, with an interrupted clause that stalled or not. -/
def engineSt (st' : Option Stall) : State :=
  withMe (fun t => { t with handler := t.handler.map (fun h =>
    { h with trap := { code := .memfault, cls := .engine }, saved := some ({ hdr := 0x100000, nm1 := 0, word := 0, act := 1, group := 1 }, st') }) }) inside

theorem test_witness_returns :
    (me (engineSt none)).handler.map (fun h => (h.trap.cls, h.saved.bind (·.2))) = some (.engine, none) ∧
    (me (engineSt (some .sigr))).handler.map (fun h => (h.trap.cls, h.saved.bind (·.2))) = some (.engine, some .sigr) ∧
    (myCord inside).failure = none ∧ lowestLane (6 : LaneMask) = some 1 ∧
    (let t := withMe (fun t => { t with threads := Lanes.tab (fun _ => { pc := 0x100000, st := .parked (.fault .align 1 0 7) }) }) st
     ((me t).threads.get 1).st = .parked (.fault .align 1 0 7)) ∧
    (me inside).handler.map (fun h => h.trap.seq) = some inside.ops := by decide +kernel

theorem test_witness_failure : ({} : Cord).failure = none ∧
    (Cord.failure { ({} : Cord) with failure := some { code := .align, cls := .precise, seq := 3 } }).isSome = true := by decide +kernel

theorem test_witness_bypass : let q : QStore := { scratch := false, key := 2 ^ 72 + 0x100100, bytes := [1, 2], nc := true, rel := 4 }
    let u := flush st 0 q.rel
    Memory.wf u.mem = true ∧ (getCore u 0).up = [] ∧ aGet [] u.dieUp (dieOf 0) = [] ∧ tierOf q.key = 1 ∧
    paOf q.key + q.bytes.length ≤ 2 ^ 48 ∧ u.mgmt.keys = [] := by decide +kernel

theorem test_witness_capTurns : let past := setRun cs { myRun cs with spent := 2 ^ 32 + 1 }
    cs.agenda = [.capstan 0] ∧ (myRun? past).map (fun r => decide (callBudget past r.call.cord < r.spent)) = some true ∧
    (myRun? cs).map (fun r => decide (r.spent ≤ callBudget cs r.call.cord)) = some true := by decide +kernel

end Sys2Proof.Tests
end

