-- ==== Sys2Proof/Tests/Checks.lean ====
section
/-! SUPPORT. Witnesses for the clauses about checks that fail, and about errors that an access meets. -/

set_option Elab.async false

namespace Sys2Proof.Tests

open Machine

/-! ### Checks of matrix words -/

/-- The call changed: register 3 holds a shape or a range, register 2 an offset. -/
def ranged (a b : DWord) (s : State) : State := withC 3 b (withC 2 a s)

/-- Which checks of a pass over relation 0 a call meets: its slots, its silt rows, its range of A, its knot and banks, its labels. -/
def passChecks (lab : Nat) (s : State) : Option (List Bool) := (shapeOf (capB s { y0 with b := 3 }) true).map (fun sh =>
  [ownsSlots s sh, rowsOk s sh.sb sh.ar, capPadOk s (capPad (capA s { y0 with a := 2 })) ((sh.ar - 1) * sh.pitchA + 129 * sh.ks.length),
   (relationOf s 0).isSome, decide (lab + sh.ar ≤ 256)])

/-- Each check of MMA and MMAR fails alone. -/
theorem test_witness_passChecks :
    let tall := withCord (fun c => { c with hdr := { c.hdr with silt := 256 } }) matSt
    passChecks 0 matSt = some [true, true, true, true, true] ∧
    passChecks 0 (withCore (fun c => { c with clay := [(0, { tag := some ⟨1, 0, 0, 0⟩ })] }) matSt) = some [false, true, true, true, true] ∧
    passChecks 0 (withC 3 0x101400001 matSt) = some [true, false, true, true, true] ∧
    passChecks 0 (withC 2 65500 matSt) = some [true, true, false, true, true] ∧
    passChecks 0 (withCore (fun c => { c with knots := [] }) matSt) = some [true, true, true, false, true] ∧
    passChecks 0 (withCore (fun c => { c with rowBank := { owner := some 1 } }) matSt) = some [true, true, true, false, true] ∧
    passChecks 0 (withCore (fun c => { c with colBank := {} }) matSt) = some [true, true, true, false, true] ∧
    passChecks 192 (withC 3 0x101000041 tall) = some [true, true, true, true, false] := by decide +kernel

/-- A slot whose parity fails and whose source no longer lies below SPSIZE, and one that its source restores. -/
def farSlot : ClaySlot := { tag := some ⟨0, 70000, 0, 0⟩, bad := true, how := (shape1, 0) }
def nearSlot : ClaySlot :=
  let d := slotData (getCord csp 0).scratch 0 ((shapeOf shape1 false).getD ⟨0, 0, [], [], 0, false⟩) (LoadKind.ofNum 0) 0 0
  { tag := some ⟨0, 0, 0, slotCheck d.1 d.2⟩, bad := true, how := (shape1, 0) }

theorem test_witness_slotLost : repairSlots matSt [(0, 0)] [(0, farSlot)] = none := by decide +kernel

theorem test_witness_slotRestored : (repairSlots csp [(0, 0)] [(0, nearSlot)]).isSome = true := by
  obtain ⟨sh, h⟩ : ∃ sh, shapeOf shape1 false = some sh := Option.isSome_iff_exists.mp (by decide +kernel)
  have inside : (shapeOf shape1 false).map (fun sh => scratchIn (getCord csp 0) 0 (sh.sourceLen (LoadKind.ofNum 0))) = some true := by
    decide +kernel
  simp only [h, Option.map_some, Option.some.injEq] at inside
  have r : (reloadSlot csp (slotKey 0 0) nearSlot).isSome = true := by
    have zero : slotKey 0 0 / 16 = 0 ∧ slotKey 0 0 % 16 = 0 := ⟨rfl, rfl⟩
    simp [reloadSlot, nearSlot, h, inside, zero]
  obtain ⟨y, hy⟩ := Option.isSome_iff_exists.mp r
  have g : aGet ({} : ClaySlot) [(0, nearSlot)] (slotKey 0 0) = nearSlot := rfl
  have b : nearSlot.bad = true := rfl
  unfold repairSlots
  rw [g]
  simp [b, hy, repairSlots]

/-- Which checks of a drain a call meets: the rows, the pitch's size, its multiple, the scratchpad. -/
def drainChecks (s : State) : Option (List Bool) := (rangeOf (capB s { y0 with b := 3 }) true).map (fun r =>
  let pitch := (capC s { y0 with c := 4 }).toNat
  [rowsOk s r.fr r.nr, decide (64 * r.ng * r.size ≤ pitch), decide (pitch % r.size = 0),
   capPadOk s (capPad (capA s { y0 with a := 2 })) ((r.nr - 1) * pitch + 64 * r.ng * r.size)])

theorem test_witness_drainChecks : let s (a b p : DWord) : State := withC 4 p (ranged a b csp)
    drainChecks (s 0 range1 256) = some [true, true, true, true] ∧ drainChecks (s 0 0 256) = none ∧
    drainChecks (s 0 (range1 + 64) 256) = some [false, true, true, true] ∧ drainChecks (s 0 range1 128) = some [true, false, true, true] ∧
    drainChecks (s 0 range1 257) = some [true, true, false, true] ∧ drainChecks (s 65500 range1 256) = some [true, true, true, false] := by
  decide +kernel

/-- Ranges that MSTO, MSLD and MSADD refuse: a malformed one, rows that are not there, a block that is not there, numbers out of range. -/
theorem test_witness_rangeChecks : let bad := withPad (List.replicate 16 0xFF) cs
    (rangeOf 0 false).isNone = true ∧ (rangeOf range1 false).map (fun r => (rowsOk csp r.fr r.nr, capPadOk csp 65000 (1024 * r.ng * r.nr))) =
      some (true, false) ∧ (rangeOf (range1 + 64) false).map (fun r => rowsOk csp r.fr r.nr) = some false ∧
    ¬ leNat (memRdN (getCord bad (capCord bad)).scratch 9 7) < 4 ∧ rowsOk csp 64 1 = false ∧
    (rangeOf range1 false).map (fun r => decide (r.fr + r.nr ≤ 0 ∨ 0 + r.nr ≤ r.fr)) = some false := by decide +kernel

/-- Blocks that MKNOT and MLAB refuse, and rows that MROW refuses. -/
theorem test_witness_blockChecks : let fits (v a c size : Nat) : List Bool :=
      [v % 2 ^ 11 % 64 == 0, decide (1 ≤ v / 2 ^ 11 % 2 ^ 11), decide (v / 2 ^ 11 % 2 ^ 11 ≤ 1024),
       decide (v % 2 ^ 11 + v / 2 ^ 11 % 2 ^ 11 ≤ size), c % 64 == 0, capPadOk csp a (8 + 8 * (v / 2 ^ 11 % 2 ^ 11)), capPadOk csp c 64]
    capPad 4 % 8 ≠ 0 ∧ capPadOk csp 65480 72 = false ∧ fits 2048 0 0 1024 = [true, true, true, true, true, true, true] ∧
    fits 2049 0 0 1024 = [false, true, true, true, true, true, true] ∧ fits 0 0 0 1024 = [true, false, true, true, true, true, true] ∧
    fits (1025 * 2048) 0 0 2048 = [true, true, false, true, true, true, true] ∧
    fits (2048 + 1024) 0 0 1024 = [true, true, true, false, true, true, true] ∧
    fits 2048 0 8 1024 = [true, true, true, true, false, true, true] ∧ fits 2048 65528 0 1024 = [true, true, true, true, true, false, true] ∧
    fits 2048 0 65536 1024 = [true, true, true, true, true, true, false] ∧ bankSize { y0 with imm := 1 } = 1024 ∧
    rowsOk csp 64 1 = false ∧ ¬ (4 : DWord).toNat ≤ 3 := by decide +kernel

/-- A table of one entry: its count, flags, offset of B, row, knot and reserved bytes. -/
def rowSt (n f b r k x : Nat) : State := grpSt 0 (leBytes 2 n ++ leBytes 2 f ++ leBytes 4 b ++ leBytes 4 r ++ leBytes 1 k ++ leBytes 3 x)

/-- Each field of an entry of MGRP's table that is out of range fails the call. -/
theorem test_witness_entryChecks : groupEnding (rowSt 1 0 0 0 0 0) = 0 ∧
    ([(257, 0, 0, 0, 0, 0), (1, 4, 0, 0, 0, 0), (1, 0, 0, 0, 4, 0), (1, 0, 0, 0, 0, 1), (1, 0, 0, 64, 0, 0), (1, 1, 0, 0, 1, 0),
      (1, 0, 65500, 0, 0, 0)] : List (Nat × Nat × Nat × Nat × Nat × Nat)).all
      (fun e => groupEnding (rowSt e.1 e.2.1 e.2.2.1 e.2.2.2.1 e.2.2.2.2.1 e.2.2.2.2.2) == 1) = true := by decide +kernel

/-! ### Checks of vocab words -/

/-- A block with some of its bytes replaced. -/
def patched (at' : Nat) (b block : List Byte) : List Byte := block.take at' ++ b ++ block.drop (at' + b.length)

/-- The status with which a call's next tile fails before it starts, by its first check that fails; none where every check passes. -/
def refusal (s : State) : Option Nat := match readVcb s 0 with
  | .error e => some e.status
  | .ok v => match biasOf s v with
    | .error e => some e.status
    | .ok bias => match vocabCtx s (vcbBytes s 0) 0 bias with
      | .error e => some e.status
      | .ok _ => match readRows s v v.state with
        | .error e => some e.status
        | .ok _ => none

/-- A field out of range and an area past SPSIZE, a bias list that does not read, a descriptor that is malformed or not there, and states
that are malformed. -/
theorem test_witness_blockFields : let b := vcb 0 0 1
    refusal (vocSt b []) = none ∧
    ([(0, [0]), (0, [65]), (1, [0]), (2, [64]), (4, [65, 0]), (12, [0, 0, 0, 0]), (20, [0, 2]), (24, leBytes 4 0x7F800000),
      (28, leBytes 4 0xBF800000), (56, [4]), (60, [0, 0, 2]), (64, [1, 0, 0, 0]), (68, [0]), (72, [8])] : List (Nat × List Byte)).all
      (fun e => refusal (vocSt (patched e.1 e.2 b) []) == some 1) = true ∧
    refusal (withMem 0x100400 (patched 40 [0x1F] (desc1 0x100500)) (vocSt b [])) = some 10 ∧
    refusal (vocSt (patched 32 (leBytes 8 0x900000) b) []) = some 8 ∧
    refusal (vocSt (patched 40 (leBytes 8 0x900000) (patched 48 [1] (patched 2 [2] b))) []) = some 8 ∧
    refusal (vocSt b (List.replicate 32 0xFF)) = some 1 := by decide +kernel

/-- What VPRJB asks of B, of its block and of the offset of the gradients. -/
def gradChecks (b : Nat) (block : List Byte) (out : Nat) : Option (List Bool) := (vGet (vocSt block [])).map (fun v =>
  let t := b / 2 ^ 8 % 2 ^ 16
  let k := (v.width t + 63) / 64
  [b / 2 ^ 24 % 2 ^ 8 == 0, v.isNamed, v.named != 0, fFinite (b / 2 ^ 32 % 2 ^ 32), decide (t < v.tiles),
   capPadOk (vocSt block []) out ((v.rows - 1) * pitchOf (129 * k) + 129 * k)])

theorem test_witness_gradChecks : gradChecks 0 (vcb 4 1 1) 0xC000 = some [true, true, true, true, true, true] ∧
    gradChecks (2 ^ 24) (vcb 4 1 1) 0xC000 = some [false, true, true, true, true, true] ∧
    gradChecks 0 (vcb 0 0 1) 0xC000 = some [true, false, false, true, true, true] ∧
    gradChecks (0x7F800000 * 2 ^ 32) (vcb 4 1 1) 0xC000 = some [true, true, true, false, true, true] ∧
    gradChecks (2 ^ 8) (vcb 4 1 1) 0xC000 = some [true, true, true, true, false, true] ∧
    gradChecks 0 (vcb 4 1 1) 0x1FFFF = some [true, true, true, true, true, false] ∧
    (vCtx (withMem 0x100400 (desc1 0x900000) (vocSt (vcb 4 1 1) []))).map (fun x =>
      (runTile (withMem 0x100400 (desc1 0x900000) (vocSt (vcb 4 1 1) [])) x.ctx 0).toOption.isSome) = some false := by decide +kernel

/-- VRES of an area that is not there, that is not aligned, whose block differs, that holds more heap entries, or too many; of a malformed
state; of a tile past the last. -/
theorem test_witness_resumeChecks : let s := vocSt (vcb 0 0 1) []
    let n := Vcb.ofBytes (vcb 0 0 1)
    (capMem s 0x900000 0 132).toOption.isNone = true ∧ (0x100808 : DWord).toNat % 64 ≠ 0 ∧ sameVcb (vcb 0 0 2) (vcb 0 0 1) = false ∧
    sameVcb (patched 28 [1, 2, 3, 4] (patched 1 [9] (vcb 0 0 1))) (vcb 0 0 1) = true ∧
    ¬ (Vcb.ofBytes (patched 1 [2] (vcb 0 0 1))).heapk ≤ n.heapk ∧
    ¬ (let v := Vcb.ofBytes (patched 0 [64] (patched 1 [65] (vcb 0 0 1)))
       v.rows * v.heapk ≤ 4096) ∧
    (rowsFrom 1 0 32 (List.replicate 32 0xFF) 1).isNone = true ∧ n.tiles ≤ 1 := by decide +kernel

/-- VMRG of states that overlap STATE, of a malformed shard, and of shards whose rows hold more entries above THR than the heap. -/
theorem test_witness_mergeChecks : let two := patched 68 [2] (vcb 1 0 1)
    let s := vocSt two []
    let full (id : Nat) : VRow := { thr := true, heap := [(0x3F800000, id)], valid := 1, m := 0x3F800000, s := 0x3F800000 }
    (vGet s).map (fun v => decide (0x210 = v.state ∨ 0x210 + v.scount * (v.rows * v.stride) ≤ v.state ∨ v.state + v.rows * v.stride ≤ 0x210)) =
      some false ∧
    ((vGet s).map (fun v => ((List.range v.scount).mapM (fun i => readRows s v (0x1FFE8 + i * v.stride))).toOption.isSome)) = some false ∧
    (vGet s).map (fun v => (foldShards v [[full 1]] ([full 2], 0)).isSome) = some false := by decide +kernel

/-- A utility at a block that does not stand at a multiple of 128, and one whose states are malformed. -/
theorem test_witness_utilityChecks : capPad 64 % 128 ≠ 0 ∧ (vGet (vocSt (vcb 0 0 1) (List.replicate 32 0xFF))).map (fun v =>
    (readRows (vocSt (vcb 0 0 1) (List.replicate 32 0xFF)) v v.state).toOption.isSome) = some false := by decide +kernel

/-! ### Passes, the chain of calls, and errors -/

/-- The passes in which a word reads slots: MMA behind its checks, one that R255 refuses, MGRP behind its load, a tile's chunk. -/
theorem test_witness_passes_of : let w : CWord := { y0 with a := 2, b := 3 }
    let g : CWord := { w with c := 4 }
    (passOf (.mma w) 0 0 matSt).isSome = true ∧ (passOf (.mma w) 0 0 (withC 2 65500 matSt)).isNone = true ∧
    (passOf (.mmar w) 0 0 matSt).isSome = true ∧ (passOf (.mmar w) 0 0 (withCore (fun c => { c with knots := [] }) matSt)).isNone = true ∧
    (passOf (.mgrp g) 0 0 (grpSt 1 [])).isSome = true ∧ (passOf (.vproj w) 0 0 (vocSt (vcb 0 0 1) [])).isSome = true ∧
    (passOf (.vprjb g) 0 0 (withC 4 0xC000 (vocSt (vcb 4 1 1) []))).isSome = true := by decide +kernel

/-- The chain of calls is full, and a call was issued. -/
theorem test_witness_fullChain : let s := withCore (fun c => { c with chain := List.replicate 64 call1, issuedCl := [call1] }) (withPad [] st)
    (myCore s).issuedCl = [call1] ∧ ¬ (myCore s).chain.length + (if (myCore s).run.isSome then 1 else 0) < 64 := by decide +kernel

/-- The word of memory at an address carries an uncorrectable error. -/
def spoil (key : Nat) (s : State) : State := { s with poisoned := key :: s.poisoned }

/-- OAPP of an entry, and of a slot, that carries an error, and of a slot that is not there; SIGR of such a signal. -/
theorem test_witness_spoilt : let s := appSt 1 []
    let w : SWord := { x0 with d := 0xC4, a := 0xC2, b := 0xC8, imm := 1 }
    poisonSeen (spoil 0x100100 s) s.focus.core 0x100100 16 false = true ∧ poisonAt (spoil 0x100200 s) s.focus.core 4 0x100200 8 false = true ∧
    (placeAt s (some s.focus.core) (myCord s).job 0x900000 0 8 .rd).toOption.isNone = true ∧
    (signalAt w 0 sigSt).isSome = true ∧ signalSpoilt w 0 (spoil (((signalAt w 0 sigSt).getD { key := 0 }).key / 8 * 8) sigSt) = true := by
  decide +kernel

/-- GCND through a base that is 0, through RZ, and of a place that is not there. -/
theorem test_witness_gcnd : let w : SWord := { x0 with ty := .w32, a := 0xC2, b := 0xC8 }
    issues (.gcnd w) st = true ∧ opA2 st w 0 = 0 ∧ w.a ≠ 0xF0 ∧
    (placeAt (withS 2 0x900000 st) (some st.focus.core) (myCord st).job (opA2 (withS 2 0x900000 st) w 0) 0 4 .wr).toOption.isNone = true := by
  decide +kernel

/-- An instance whose CSIG names a word of object 64, and one whose CSIG is 0. -/
theorem test_witness_csig : let g : GInst := { inst1 with csig := h64 }
    let s := nodeSt 3 []
    inst1.csig = 0 ∧ g.csig ≠ 0 ∧ (placeAt s none g.job g.csig 0 8 .wr).toOption.isSome = true ∧ (graphWord s g g.csig 8 .rd).isSome = true ∧
    (graphWord s g g.csig 8 .wr).isSome = true ∧
    ((aGet? ({ s with insts := [(0, { inst1 with failed := some (4, 0, 0) })] } : State).insts 0).bind (·.failed)) = some (4, 0, 0) := by
  decide +kernel

/-! ### The fabric and errors -/

/-- An operation whose block carried an error, one whose range of the scratchpad is out of it, a write of a peer that lands and one that does
not, and the device in recovery. -/
theorem test_witness_fabricChecks : let far : FabOp := { fab1 .xput with block := leBytes 8 0x8000000000020000 ++ leBytes 8 0x100200 ++ leBytes 4 8 ++ List.replicate 44 0 }
    let lands (s : State) (key : Nat) : Bool := (List.range 8).all (fun i => decide (tierOf (key + i) ≤ 1) && backed s (tierOf (key + i)) (paOf (key + i)) &&
      (tierOf (key + i) != 1 || s.mgmt.keys.contains ((key + i) / 2 ^ 48 % 2 ^ 24)))
    { fab1 .xput with bad := true }.bad = true ∧ fabOut (fabSt far) far = true ∧ far.badFields = false ∧ lands st 0x100100 = true ∧
    lands st (2 ^ 72 * 2) = false ∧ st.mgmt.state ≠ 3 ∧ { st.mgmt with state := 3 }.state = 3 := by decide +kernel

/-- A silt row of the cord, and a word that a die cache holds. -/
theorem test_witness_errorUnits : let w : Nat := 2 ^ 72 + 0x100100
    let s := { st with dieUp := [(0, [{ key := w, bytes := List.replicate 8 1 }])] }
    tierOf (2 ^ 72 * siltTier) = siltTier ∧ (aGet? csp.cords 0).isSome = true ∧ 0 < (getCord csp 0).hdr.silt ∧ tierOf w = 1 ∧ w / 8 * 8 = w ∧
    dieHolds s 0 w 8 = true ∧ w ∉ dieBadWords s 0 ∧ fromBadDie { s with dieBad := [(0, [w])] } 0 2 w false = true := by decide +kernel

/-! ### Failures and deferred traps -/

/-- The cord's record already holds a failure; lanes 1 and 2 of the strand stand parked, the higher with the earlier fault. -/
theorem test_witness_failures : let f : Failure := { code := .align, cls := .precise, seq := 3 }
    let s := withCord (fun c => { c with failure := some f }) inside
    let parked (l : Lane) : ThreadState := match l.val with
      | 1 => .parked (.fault .align 1 0 7)
      | 2 => .parked (.fault .memfault 2 0 5)
      | _ => .ready
    let t : Strand := { me st with threads := Lanes.tab (fun l => { pc := 0x100000, st := parked l }) }
    (myCord s).failure = some f ∧ (me s).handler.isSome = true ∧ (me s).pend = [] ∧ lowestLane (6 : LaneMask) = some 1 ∧
    (t.threads.get 1).st = .parked (.fault .align 1 0 7) ∧ inMask 6 2 = true ∧ (t.threads.get 2).st = .parked (.fault .memfault 2 0 5) := by
  decide +kernel

end Sys2Proof.Tests
end

