-- ==== Sys2Proof/Tests/Issue.lean ====
section
/-! SUPPORT. Each strand instruction issues in some state (the hypothesis of its completion statement). -/

set_option Elab.async false

namespace Sys2Proof.Tests

open Machine

/-- Every word of MovesComplete issues with nothing outstanding. -/
theorem test_issue_MovesComplete : ([
    .nop x0, .mov { x0 with d := 4, a := 2 }, .movi { x0 with d := 4, b := 0xff }, .movh { x0 with d := 4, b := 0xff },
    .sel { x0 with d := 4, a := 2, b := 6 }, .lea { x0 with ty := .s64, d := 4, a := 2, b := 6 }] : List Instr).all (fun i => issues i st) = true ∧ (me st).pend = [] := by decide +kernel

/-- Every word of IntegersComplete issues with nothing outstanding. -/
theorem test_issue_IntegersComplete : ([
    .iadd { x0 with d := 4, a := 2, b := 6 }, .isub { x0 with d := 4, a := 2, b := 6 }, .imul { x0 with d := 4, a := 2, b := 6 },
    .imulh { x0 with d := 4, a := 2, b := 6 }, .imad { x0 with d := 4, a := 2, b := 6, c := 8 },
    .imadw { x0 with d := 4, a := 2, b := 6, c := 8 }, .imin { x0 with d := 4, a := 2, b := 6 }, .imax { x0 with d := 4, a := 2, b := 6 },
    .iabs { x0 with d := 4, a := 2 }, .ineg { x0 with d := 4, a := 2 }, .idot4 { x0 with d := 4, a := 2, b := 6, c := 8 },
    .idot2 { x0 with d := 4, a := 2, b := 6, c := 8 }, .iadd3 { x0 with d := 4, a := 2, b := 6, c := 8 }] : List Instr).all (fun i => issues i st) = true ∧ (me st).pend = [] := by decide +kernel

/-- Every word of LogicComplete issues with nothing outstanding. -/
theorem test_issue_LogicComplete : ([
    .and { x0 with d := 4, a := 2, b := 6 }, .or { x0 with d := 4, a := 2, b := 6 }, .xor { x0 with d := 4, a := 2, b := 6 },
    .andn { x0 with d := 4, a := 2, b := 6 }, .not { x0 with d := 4, a := 2 }, .shl { x0 with d := 4, a := 2, b := 6 },
    .shr { x0 with d := 4, a := 2, b := 6 }, .sar { x0 with d := 4, a := 2, b := 6 }, .rotl { x0 with d := 4, a := 2, b := 6 },
    .bfx { x0 with d := 4, a := 2, b := 6 }, .bfi { x0 with d := 4, a := 2, b := 6, c := 8 }, .popc { x0 with ty := .w32, d := 4, a := 2 },
    .clz { x0 with ty := .w32, d := 4, a := 2 }, .ctz { x0 with ty := .w32, d := 4, a := 2 }, .brev { x0 with ty := .w32, d := 4, a := 2 },
    .bprm { x0 with ty := .w32, d := 4, a := 2, b := 6, c := 8 }, .iset { x0 with d := 4, a := 2, b := 6 },
    .blut { x0 with d := 4, a := 2, b := 6, c := 8 }, .rhash { x0 with ty := .w32, d := 4, a := 2, b := 6 },
    .fshf { x0 with ty := .w32, d := 4, a := 2, b := 6, c := 8 }] : List Instr).all (fun i => issues i st) = true ∧ (me st).pend = [] := by decide +kernel

/-- Every word of DivisionsComplete issues with nothing outstanding. -/
theorem test_issue_DivisionsComplete : ([
    .idiv { x0 with d := 4, a := 2, b := 6 }, .irem { x0 with d := 4, a := 2, b := 6 }, .isat { x0 with d := 4, a := 2, b := 6 }] : List Instr).all (fun i => issues i st) = true ∧ (me st).pend = [] := by decide +kernel

/-- Every word of CarryCompletes issues with nothing outstanding. -/
theorem test_issue_CarryCompletes : ([
    .iaddc { x0 with d := 4, a := 2, b := 6 }] : List Instr).all (fun i => issues i st) = true ∧ (me st).pend = [] := by decide +kernel

/-- Every word of PredicatesComplete issues with nothing outstanding. -/
theorem test_issue_PredicatesComplete : ([
    .icmp { x0 with d := 4, a := 2, b := 6 }, .plog { x0 with d := 4, a := 2, b := 6 },
    .fcmp { x0 with ty := .f32, d := 4, a := 2, b := 6 }, .fcls { x0 with ty := .f32, d := 4, a := 2 }] : List Instr).all (fun i => issues i st) = true ∧ (me st).pend = [] := by decide +kernel

/-- Every word of PredicateMovesComplete issues with nothing outstanding. -/
theorem test_issue_PredicateMovesComplete : ([
    .pmov { x0 with d := 4 }] : List Instr).all (fun i => issues i st) = true ∧ (me st).pend = [] := by decide +kernel

/-- Every word of FloatsComplete issues with nothing outstanding. -/
theorem test_issue_FloatsComplete : ([
    .fadd { x0 with ty := .f32, d := 4, a := 2, b := 6 }, .fsub { x0 with ty := .f32, d := 4, a := 2, b := 6 },
    .fmul { x0 with ty := .f32, d := 4, a := 2, b := 6 }, .ffma { x0 with ty := .f32, d := 4, a := 2, b := 6, c := 8 },
    .fmin { x0 with ty := .f32, d := 4, a := 2, b := 6 }, .fmax { x0 with ty := .f32, d := 4, a := 2, b := 6 },
    .fminp { x0 with ty := .f32, d := 4, a := 2, b := 6 }, .fmaxp { x0 with ty := .f32, d := 4, a := 2, b := 6 },
    .fabs { x0 with ty := .f32, d := 4, a := 2 }, .fneg { x0 with ty := .f32, d := 4, a := 2 },
    .fset { x0 with ty := .f32, d := 4, a := 2, b := 6 }, .frnd { x0 with ty := .f32, d := 4, a := 2 },
    .fscl { x0 with ty := .f32, d := 4, a := 2, b := 6 }, .fexpn { x0 with ty := .f32, d := 4, a := 2 },
    .fdot2 { x0 with ty := .bf16x2, d := 4, a := 2, b := 6, c := 8 }, .fcps { x0 with ty := .f32, d := 4, a := 2, b := 6 },
    .fmed3 { x0 with ty := .f32, d := 4, a := 2, b := 6, c := 8 }, .fadd3 { x0 with ty := .f32, d := 4, a := 2, b := 6, c := 8 }] : List Instr).all (fun i => issues i st) = true ∧ (me st).pend = [] := by decide +kernel

/-- Every word of NarrowFormatsComplete issues with nothing outstanding. -/
theorem test_issue_NarrowFormatsComplete : ([
    .fdot4 { x0 with ty := .n8x4, d := 4, a := 2, b := 6, c := 8 }, .cvne { x0 with ty := .n8x4, d := 4, a := 2 },
    .cvnd { x0 with ty := .n8x4, d := 4, a := 2 }, .bscl { x0 with ty := .f32, d := 4, a := 2, b := 6 }] : List Instr).all (fun i => issues i st) = true ∧ (me st).pend = [] := by decide +kernel

/-- Every word of ConversionsComplete issues with nothing outstanding. -/
theorem test_issue_ConversionsComplete : ([
    .cvtf { x0 with ty := .bf16x2, d := 4, a := 2, b := 6 }, .i2f { x0 with ty := .f32, d := 4, a := 2 }, .f2i { x0 with d := 4, a := 2 },
    .pack { x0 with d := 4, a := 2, b := 6 }, .unpk { x0 with d := 4, a := 2 }, .fxq { x0 with ty := .s64, d := 4, a := 2 },
    .fxd { x0 with ty := .s64, d := 4, a := 2 }] : List Instr).all (fun i => issues i st) = true ∧ (me st).pend = [] := by decide +kernel

/-- Every word of TranscendentalsComplete issues with nothing outstanding. -/
theorem test_issue_TranscendentalsComplete : ([
    .exp2 { x0 with ty := .f32, d := 4, a := 2 }, .log2 { x0 with ty := .f32, d := 4, a := 2 },
    .rcp { x0 with ty := .f32, d := 4, a := 2 }, .rsq { x0 with ty := .f32, d := 4, a := 2 }, .sqrt { x0 with ty := .f32, d := 4, a := 2 },
    .sinp { x0 with ty := .f32, d := 4, a := 2 }, .cosp { x0 with ty := .f32, d := 4, a := 2 },
    .tanh { x0 with ty := .f32, d := 4, a := 2 }, .fdiv { x0 with ty := .f32, d := 4, a := 2, b := 6 }] : List Instr).all (fun i => issues i st) = true ∧ (me st).pend = [] := by decide +kernel

/-- Every word of LaneMovesComplete issues with nothing outstanding. -/
theorem test_issue_LaneMovesComplete : ([
    .shfl { x0 with d := 4, a := 2, b := 6 }, .bxch { x0 with d := 4, a := 2, b := 6 }, .rxch { x0 with d := 4, a := 2 },
    .matchLanes { x0 with d := 4, a := 2 }, .lmov { x0 with d := 4, a := 2, b := 0xc6 }, .lput { x0 with d := 4, a := 0xc2, b := 0xc6 },
    .lfnd { x0 with d := 4, a := 2, b := 6 }, .lrot { x0 with d := 4, a := 2, b := 0xc6 }] : List Instr).all (fun i => issues i st) = true ∧ (me st).pend = [] := by decide +kernel

/-- Every word of CollectivesComplete issues with nothing outstanding. -/
theorem test_issue_CollectivesComplete : ([
    .vote { x0 with d := 4, a := 2 }, .redl { x0 with d := 4, a := 2 }, .scanl { x0 with d := 4, a := 2 }] : List Instr).all (fun i => issues i st) = true ∧ (me st).pend = [] := by decide +kernel

/-- Every word of TransfersComplete issues with nothing outstanding. -/
theorem test_issue_TransfersComplete : ([
    .bra x0, .brx { x0 with a := 2 }, .call { x0 with d := 4 }, .callx { x0 with d := 4, a := 2 }, .ret { x0 with a := 2 }, .yield x0,
    .bdec { x0 with d := 4 }] : List Instr).all (fun i => issues i st) = true ∧ (me st).pend = [] := by decide +kernel

/-- Every word of ReconvergenceComplete issues with nothing outstanding. -/
theorem test_issue_ReconvergenceComplete : ([
    .join { x0 with d := 4 }, .meet { x0 with a := 2 }, .exit x0, .ptok x0] : List Instr).all (fun i => issues i st) = true ∧ (me st).pend = [] := by decide +kernel

/-- Every word of SoftwareTrapsTaken issues with nothing outstanding. -/
theorem test_issue_SoftwareTrapsTaken : ([
    .trap x0, .brk x0] : List Instr).all (fun i => issues i st) = true ∧ (me st).pend = [] := by decide +kernel

/-- Every word of LoadsComplete issues with nothing outstanding. -/
theorem test_issue_LoadsComplete : ([
    .ld { x0 with d := 4, a := 2, b := 6 }, .lds { x0 with d := 4, a := 2, b := 6 }, .ldc { x0 with d := 4, a := 2, b := 6, imm := 2 },
    .ldaq { x0 with d := 4, a := 2, b := 6, imm := 2 }, .ldl { x0 with d := 4, a := 2, b := 6 }] : List Instr).all (fun i => issues i st) = true ∧ (me st).pend = [] := by decide +kernel

/-- Every word of StoresComplete issues with nothing outstanding. -/
theorem test_issue_StoresComplete : ([
    .st { x0 with d := 4, a := 2, b := 6 }, .sts { x0 with d := 4, a := 2, b := 6 }, .strl { x0 with d := 4, a := 2, b := 6, imm := 2 },
    .stnt { x0 with d := 4, a := 2, b := 6 }, .stlb { x0 with d := 4, a := 2, b := 6 }] : List Instr).all (fun i => issues i st) = true ∧ (me st).pend = [] := by decide +kernel

/-- Every word of AtomicsComplete issues with nothing outstanding. -/
theorem test_issue_AtomicsComplete : ([
    .atom { x0 with d := 4, a := 2, b := 6, c := 8, imm := 2 }, .cas { x0 with d := 4, a := 2, b := 6, c := 8, imm := 2 },
    .fxadd { x0 with ty := .f32, d := 4, a := 2, b := 6, c := 8, imm := 3 }, .atoms { x0 with d := 4, a := 2, b := 6, c := 8, imm := 2 }] : List Instr).all (fun i => issues i st) = true ∧ (me st).pend = [] := by decide +kernel

/-- Every word of FencesComplete issues with nothing outstanding. -/
theorem test_issue_FencesComplete : ([
    .fence x0, .pref { x0 with a := 2, b := 6 }] : List Instr).all (fun i => issues i st) = true ∧ (me st).pend = [] := by decide +kernel

/-- Every word of SpecialRegistersComplete issues with nothing outstanding. -/
theorem test_issue_SpecialRegistersComplete : ([
    .srd { x0 with ty := .w32, d := 4 }, .swr { x0 with ty := .w32, a := 0xc4, imm := 8 }, .sflg x0] : List Instr).all (fun i => issues i st) = true ∧ (me st).pend = [] := by decide +kernel

/-- Every word of HitchesComplete issues with nothing outstanding. -/
theorem test_issue_HitchesComplete : ([
    .wany { x0 with d := 0xc4 }, .evb { x0 with d := 4, a := 2, b := 6 }, .evm x0, .evp { x0 with d := 4 }, .evc x0] : List Instr).all (fun i => issues i st) = true ∧ (me st).pend = [] := by decide +kernel

/-- Every word of BarriersComplete issues with nothing outstanding. -/
theorem test_issue_BarriersComplete : ([
    .bar x0, .bara { x0 with d := 4 }, .barw { x0 with a := 0xc2 }, .barx { x0 with a := 0xc2 }] : List Instr).all (fun i => issues i st) = true ∧ (me st).pend = [] := by decide +kernel

/-- Every word of MailComplete issues with nothing outstanding. -/
theorem test_issue_MailComplete : ([
    .mpost { x0 with d := 4, a := 0xc2, b := 0xc6 }, .mtake { x0 with d := 0xc4 }, .mcnt { x0 with d := 4 }] : List Instr).all (fun i => issues i st) = true ∧ (me st).pend = [] := by decide +kernel

/-- Every word of BlocksComplete issues with nothing outstanding. -/
theorem test_issue_BlocksComplete : ([
    .xacq x0, .xrel x0, .sleep { x0 with ty := .w32, b := 0xc6 }] : List Instr).all (fun i => issues i st) = true ∧ (me st).pend = [] := by decide +kernel

/-- Every word of ObjectsComplete issues with nothing outstanding. -/
theorem test_issue_ObjectsComplete : ([
    .oupg { x0 with d := 4, a := 2 }, .orel { x0 with a := 2 }, .owk { x0 with d := 4, a := 2 }, .owd { x0 with a := 2 },
    .onew { x0 with d := 4 }, .opri { x0 with a := 2, b := 6 }, .btinv { x0 with d := 0xc4, a := 0xc2, b := 0xc6, c := 0xc8 },
    .btld { x0 with d := 4, a := 0xc2, b := 6, c := 0xc8 }] : List Instr).all (fun i => issues i st) = true ∧ (me st).pend = [] := by decide +kernel

/-- Every word of ObjectListsComplete issues with nothing outstanding. -/
theorem test_issue_ObjectListsComplete : ([
    .ldw { x0 with d := 4, a := 2, b := 6, imm := 2 }, .oapp { x0 with d := 0xc4, a := 0xc2, b := 0xc6 }] : List Instr).all (fun i => issues i st) = true ∧ (me st).pend = [] := by decide +kernel

/-- Every word of CopyIssueCompletes issues with nothing outstanding. -/
theorem test_issue_CopyIssueCompletes : ([
    .cpy { x0 with d := 0xc4, a := 0xc2 }, .cpyg { x0 with d := 0xc4, a := 0xc2, b := 6 }, .cpys { x0 with d := 0xc4, a := 0xc2, b := 6 },
    .chan { x0 with a := 0xc2 }, .tail { x0 with d := 0xc4, a := 0xc2 }] : List Instr).all (fun i => issues i st) = true ∧ (me st).pend = [] := by decide +kernel

/-- Every word of CallAndFabricIssueComplete issues with nothing outstanding. -/
theorem test_issue_CallAndFabricIssueComplete : ([
    .mcall { x0 with d := 0xc4, a := 0xc2 }, .xred { x0 with d := 0xc4, a := 0xc2 }, .xput { x0 with d := 0xc4, a := 0xc2 },
    .xget { x0 with d := 0xc4, a := 0xc2 }] : List Instr).all (fun i => issues i st) = true ∧ (me st).pend = [] := by decide +kernel

/-- Every word of SignalsComplete issues with nothing outstanding. -/
theorem test_issue_SignalsComplete : ([
    .sigd { x0 with d := 0xc4, a := 0xc2, b := 0xc6 }, .sigr { x0 with d := 0xc4, a := 0xc2 }] : List Instr).all (fun i => issues i st) = true ∧ (me st).pend = [] := by decide +kernel

/-- Every word of TasksComplete issues with nothing outstanding. -/
theorem test_issue_TasksComplete : ([
    .tspn { x0 with a := 2 }, .tstl { x0 with d := 4, a := 2, b := 6 }, .tdec { x0 with d := 4, a := 2 }, .tend x0,
    .enrd { x0 with ty := .w64, d := 4 }, .gcnd { x0 with ty := .w32, a := 0xc2, b := 0xc6 }] : List Instr).all (fun i => issues i st) = true ∧ (me st).pend = [] := by decide +kernel

/-- Every word of HandlerWordsComplete issues with nothing outstanding. -/
theorem test_issue_HandlerWordsComplete : ([
    .trdl { x0 with ty := .w32, d := 0xc4, a := 2, b := 0xc6 }, .twrl { x0 with ty := .w32, d := 4, a := 0xc2, b := 0xc6 }, .tret x0,
    .tinf { x0 with d := 0xc4 }, .tmsk { x0 with ty := .w32, d := 0xc4, b := 0xc6 }] : List Instr).all (fun i => issues i inside) = true ∧ (me inside).pend = [] := by decide +kernel

end Sys2Proof.Tests
end

