-- ==== Sys2Proof/Tests/Slice0.lean ====
section
/-! SUPPORT. Tests: ill-formed words for each check, words of the spec with what they decode to, and single steps with expected values
from the spec's worked examples or worked out by hand. -/

set_option Elab.async false

namespace Sys2Proof.Tests

open Machine

/-! ### Refusals of ill-formed words (R14, R27, R64, R69) -/

/-- One ill-formed word for each check of R27: an inverted p7; a type that the entry does not name; a reserved or a vector specifier where a
scalar is due; a vector source beside a scalar destination (R19); an odd pair; an undefined bit of IMM16; a field of the entry out of
range; and a word whose opcode is assigned under the name of an unassigned one. -/
theorem test_wf_strand :
    Instr.wf (.iadd { x0 with d := 2, a := 1, b := 2 }) = true ∧ Instr.wf (.iadd { x0 with gi := true, d := 2, a := 1, b := 2 }) = false ∧
    Instr.wf (.iadd { x0 with ty := .f32, d := 2, a := 1, b := 2 }) = false ∧ Instr.wf (.iadd { x0 with d := 0xF5, a := 1, b := 2 }) = false ∧
    Instr.wf (.iadd { x0 with d := 2, a := 0xFF, b := 2 }) = false ∧ Instr.wf (.sigr { x0 with d := 4, a := 0xC2 }) = false ∧
    Instr.wf (.iadd { x0 with d := 0xC4, a := 1, b := 2 }) = false ∧ Instr.wf (.iadd { x0 with ty := .s64, d := 3, a := 4, b := 6 }) = false ∧
    Instr.wf (.mov { x0 with d := 2, a := 1, imm := 1 }) = false ∧ Instr.wf (.fmin { x0 with ty := .f32, d := 3, a := 1, b := 2, imm := 1 }) = false ∧
    Instr.wf (.sel { x0 with d := 2, a := 1, b := 2, c := 8 }) = false ∧ Instr.wf (.evb { x0 with d := 16 }) = false ∧
    Instr.wf (.unassignedOpcode 0x0E08) = false ∧ Instr.wf (.unassignedOpcode 0x0E4E) = true := by decide +kernel

/-- The same for the capstan's checks (R64): an unused register, IMM16 or condition field that is not 0, and a field out of range. -/
theorem test_wf_capstan :
    Instr.wf (.cadd { y0 with d := 3, a := 1, b := 2 }) = true ∧ Instr.wf (.cmov { y0 with d := 3, a := 1, b := 2 }) = false ∧
    Instr.wf (.cadd { y0 with d := 3, a := 1, b := 2, c := 1 }) = false ∧ Instr.wf (.cret { y0 with d := 1 }) = false ∧
    Instr.wf (.cret { y0 with a := 1 }) = false ∧ Instr.wf (.cret { y0 with imm := 1 }) = false ∧ Instr.wf (.cadd { y0 with cond := 2 }) = false ∧
    Instr.wf (.cbr { y0 with cond := 2 }) = true ∧ Instr.wf (.mrow { y0 with d := 1, imm := 5 }) = false ∧
    Instr.wf (.unassignedCapstanOpcode 3) = false := by decide +kernel

/-- The error words of chapter 3, and a capstan word with a reserved bit. -/
theorem test_decode_refused :
    decodeStrand 0x0000000000000E4E = .instr (.unassignedOpcode 0x0000000000000E4E) ∧
    decodeStrand 0x0000000000001F4F = .instr (.unassignedOpcode 0x0000000000001F4F) ∧
    decodeStrand 0x0000000001021E08 = .reject .illop ∧ decodeStrand 0x000000060403CE08 = .reject .illop ∧
    decodeStrand 0x0001000201034E34 = .reject .illop ∧ decodeStrand 0x0001000001020E01 = .reject .illop ∧
    decodeStrand 0x0000000201280E08 = .instr (.iadd { x0 with d := 40, a := 1, b := 2 }) ∧ decodeStrand 0x0000000201F50E08 = .reject .illop ∧
    decodeCapstan 0x0000000008230403 = .reject .capstanIllop ∧
    decodeCapstan 0x0000001008230003 = .reject .capstanIllop ∧ decodeCapstan 0x0000000008231003 = .reject .capstanIllop := by decide +kernel

/-- Headers (R13, R14, R59): signature, class and reserved bits. -/
theorem test_headers :
    strandHeaderOk 0xC500000000000101 = true ∧ strandHeaderOk 0xC400000000000000 = false ∧ strandHeaderOk 0xC500000000000010 = false ∧
    strandHeaderOk 0xC500000000004000 = false ∧ strandHeaderOk 0xC500000000000800 = false ∧ capstanHeaderOk 0xC50000000000001C = true ∧
    capstanHeaderOk 0xC500000000000001 = false := by decide +kernel

/-! ### Words of the worked examples, and one word for each opcode of R65 and R67 -/

/-- Words of the worked examples of chapters 1, 3 and 4 (R17, R61), bit by bit. -/
theorem test_decode_arithmetic :
    decodeStrand 0x000300FF01020E0B = .instr (.imul { x0 with d := 2, a := 1, b := 0xFF, imm := 3 }) ∧
    decodeStrand 0xFFFB00FF02020E08 = .instr (.iadd { x0 with d := 2, a := 2, b := 0xFF, imm := 0xFFFB }) ∧
    decodeStrand 0x404000FFF0034E30 = .instr (.fadd { x0 with ty := .f32, d := 3, a := 0xF0, b := 0xFF, imm := 0x4040 }) ∧
    decodeStrand 0x0000000003044E44 = .instr (.exp2 { x0 with ty := .f32, d := 4, a := 3 }) ∧
    decodeStrand 0x0000000404054E32 = .instr (.fmul { x0 with ty := .f32, d := 5, a := 4, b := 4 }) ∧
    decodeStrand 0x0000000000000E77 = .instr (.exit x0) ∧
    decodeStrand 0x0004000000000E70 = .instr (.bra { x0 with imm := 4 }) ∧
    decodeStrand 0x0000040605044333 = .instr (.ffma { x0 with sw := true, gp := 1, ty := .f32, d := 4, a := 5, b := 6, c := 4 }) ∧
    decodeStrand 0x000D000201034E30 = .instr (.fadd { x0 with ty := .f32, d := 3, a := 1, b := 2, imm := 0xD }) ∧
    decodeStrand 0x000500FF01021408 = .instr (.iadd { x0 with gp := 2, gi := true, d := 2, a := 1, b := 0xFF, imm := 5 }) ∧
    decodeStrand 0x000000080604CE08 = .instr (.iadd { x0 with ty := .s64, d := 4, a := 6, b := 8 }) ∧
    decodeStrand 0x0FDB00FF00C42E02 = .instr (.movi { x0 with ty := .w32, d := 0xC4, b := 0xFF, imm := 0xFDB }) ∧
    decodeStrand 0x404900FF00C40E03 = .instr (.movh { x0 with d := 0xC4, b := 0xFF, imm := 0x4049 }) ∧
    decodeStrand 0x01200000C4C5AE51 = .instr (.cvne { x0 with ty := .n8x4, d := 0xC5, a := 0xC4, imm := 0x120 }) ∧
    decodeStrand 0x01200000C5C6AE52 = .instr (.cvnd { x0 with ty := .n8x4, d := 0xC6, a := 0xC5, imm := 0x120 }) ∧
    decodeStrand 0x00010000C4C70E54 = .instr (.f2i { x0 with d := 0xC7, a := 0xC4, imm := 1 }) := by decide +kernel

/-- Words of the worked examples of chapters 5 and 7. -/
theorem test_decode_memory_control :
    decodeStrand 0x04020001C2084F80 = .instr (.ld { x0 with sw := true, ty := .f32, d := 8, a := 0xC2, b := 1, imm := 0x402 }) ∧
    decodeStrand 0x20020001C0022E81 = .instr (.st { x0 with ty := .w32, d := 2, a := 0xC0, b := 1, imm := 0x2002 }) ∧
    decodeStrand 0x408200F0C0C52E86 = .instr (.strl { x0 with ty := .w32, d := 0xC5, a := 0xC0, b := 0xF0, imm := 0x4082 }) ∧
    decodeStrand 0xFFFD000000C40E7C = .instr (.bdec { x0 with d := 0xC4, imm := 0xFFFD }) ∧
    decodeStrand 0x000002C601002E26 = .instr (.icmp { x0 with ty := .w32, a := 1, b := 0xC6, c := 2 }) ∧
    decodeStrand 0x000000C906034E3A = .instr (.fcmp { x0 with ty := .f32, d := 3, a := 6, b := 0xC9 }) ∧
    decodeStrand 0x00000306F0074E04 = .instr (.sel { x0 with ty := .f32, d := 7, a := 0xF0, b := 6, c := 3 }) ∧
    decodeStrand 0x0000000304064E35 = .instr (.fmax { x0 with ty := .f32, d := 6, a := 4, b := 3 }) ∧
    decodeStrand 0x0000000704084E31 = .instr (.fsub { x0 with ty := .f32, d := 8, a := 4, b := 7 }) ∧
    decodeStrand 0x000000050A0B454C = .instr (.fdiv { x0 with sw := true, gp := 2, ty := .f32, d := 0xB, a := 0xA, b := 5 }) := by decide +kernel

/-- Words of the worked examples of chapters 8 to 10. -/
theorem test_decode_lanes_groups :
    decodeStrand 0x0000100005032068 = .instr (.scanl { x0 with gp := 0, ty := .w32, d := 3, a := 5, c := 0x10 }) ∧
    decodeStrand 0x000102FF02052E60 = .instr (.shfl { x0 with ty := .w32, d := 5, a := 2, b := 0xFF, c := 2, imm := 1 }) ∧
    decodeStrand 0x000000FF03C72F65 = .instr (.lmov { x0 with sw := true, ty := .w32, d := 0xC7, a := 3, b := 0xFF }) ∧
    decodeStrand 0x001F00FFC7052F66 = .instr (.lput { x0 with sw := true, ty := .w32, d := 5, a := 0xC7, b := 0xFF, imm := 0x1F }) ∧
    decodeStrand 0x0088070403030E28 = .instr (.plog { x0 with d := 3, a := 3, b := 4, c := 7, imm := 0x88 }) ∧
    decodeStrand 0x0000020003050F63 = .instr (.vote { x0 with sw := true, d := 5, a := 3, c := 2 }) ∧
    decodeStrand 0x001002FF02022E61 = .instr (.bxch { x0 with ty := .w32, d := 2, a := 2, b := 0xFF, c := 2, imm := 0x10 }) ∧
    decodeStrand 0x0000060003022F62 = .instr (.rxch { x0 with sw := true, ty := .w32, d := 2, a := 3, c := 6 }) ∧
    decodeStrand 0x0009000000040E75 = .instr (.join { x0 with d := 4, imm := 9 }) ∧
    decodeStrand 0x0000000004000E76 = .instr (.meet { x0 with a := 4 }) ∧
    decodeStrand 0x0003000000C40EB1 = .instr (.bara { x0 with d := 0xC4, imm := 3 }) ∧
    decodeStrand 0x00010000CF000EB3 = .instr (.barx { x0 with a := 0xCF, imm := 1 }) ∧
    decodeStrand 0x0001000000020EC4 = .instr (.xacq { x0 with d := 2, imm := 1 }) := by decide +kernel

/-- Words of the worked examples of chapters 9, 12, 13, 15 to 19. -/
theorem test_decode_objects_engines :
    decodeStrand 0x000202F0C6C92F90 = .instr (.ldw { x0 with sw := true, ty := .w32, d := 0xC9, a := 0xC6, b := 0xF0, c := 2, imm := 2 }) ∧
    decodeStrand 0x0006010000C40E95 = .instr (.onew { x0 with d := 0xC4, c := 1, imm := 6 }) ∧
    decodeStrand 0x00000000C4C60E93 = .instr (.owk { x0 with d := 0xC6, a := 0xC4 }) ∧
    decodeStrand 0x00000000C4000E92 = .instr (.orel { x0 with a := 0xC4 }) ∧
    decodeStrand 0x00000300C6CC0E91 = .instr (.oupg { x0 with d := 0xCC, a := 0xC6, c := 3 }) ∧
    decodeStrand 0x00000000C6000E94 = .instr (.owd { x0 with a := 0xC6 }) ∧
    decodeStrand 0x00000000F0CA0EA0 = .instr (.cpy { x0 with d := 0xCA, a := 0xF0 }) ∧
    decodeStrand 0x00000006C5CD02A2 = .instr (.cpys { x0 with gp := 1, d := 0xCD, a := 0xC5, b := 6 }) ∧
    decodeStrand 0x00000007CAF008A1 = .instr (.cpyg { x0 with gp := 4, d := 0xF0, a := 0xCA, b := 7 }) ∧
    decodeStrand 0x00130000C4CA0EA5 = .instr (.mcall { x0 with d := 0xCA, a := 0xC4, imm := 0x13 }) ∧
    decodeStrand 0x0003000000C40EB4 = .instr (.wany { x0 with d := 0xC4, imm := 3 }) ∧
    decodeStrand 0x0005000F02000EB5 = .instr (.evb { x0 with a := 2, b := 0xF, imm := 5 }) ∧
    decodeStrand 0x000F020000CA0EA9 = .instr (.mtake { x0 with d := 0xCA, c := 2, imm := 0xF }) ∧
    decodeStrand 0x000000FFC6010EA8 = .instr (.mpost { x0 with d := 1, a := 0xC6, b := 0xFF }) ∧
    decodeStrand 0x00010000C4010EC0 = .instr (.tspn { x0 with d := 1, a := 0xC4, imm := 1 }) := by decide +kernel

/-- Words of the worked examples of chapters 3, 15 and 16 (R61). -/
theorem test_decode_capstan :
    decodeCapstan 0x0000000008230003 = .instr (.cadd { y0 with d := 3, a := 1, b := 2 }) ∧
    decodeCapstan 0x000000001480000A = .instr (.ccmp { y0 with a := 4, b := 5 }) ∧
    decodeCapstan 0x000300000000020B = .instr (.cbr { y0 with cond := 1, imm := 3 }) ∧
    decodeCapstan 0x0000000000000010 = .instr (.cret y0) ∧
    decodeCapstan 0x0001000000010011 = .instr (.carg { y0 with d := 1, imm := 1 }) ∧
    decodeCapstan 0x0002000000050002 = .instr (.cmovi { y0 with d := 5, imm := 2 }) ∧
    decodeCapstan 0x0001000008600014 = .instr (.mload { y0 with a := 3, b := 2, imm := 1 }) ∧
    decodeCapstan 0x0000000017E00019 = .instr (.mzero { y0 with a := 0x1F, b := 5 }) ∧
    decodeCapstan 0xFFF8000F97E0001A = .instr (.manc { y0 with a := 0x1F, b := 5, c := 0x1F, imm := 0xFFF8 }) ∧
    decodeCapstan 0x0000000008200016 = .instr (.mma { y0 with a := 1, b := 2 }) ∧
    decodeCapstan 0x000000039880001B = .instr (.mdrn { y0 with a := 4, b := 6, c := 7 }) ∧
    decodeCapstan 0x000100073580001E = .instr (.mlab { y0 with a := 0xC, b := 0xD, c := 0xE, imm := 1 }) ∧
    decodeCapstan 0x0000000001E0001D = .instr (.mknot { y0 with a := 0xF }) ∧
    decodeCapstan 0x0000000008200017 = .instr (.mmar { y0 with a := 1, b := 2 }) ∧
    decodeCapstan 0x0002000003E90020 = .instr (.mrow { y0 with d := 9, a := 0x1F, imm := 2 }) ∧
    decodeCapstan 0xB00800002560000F = .instr (.cst { y0 with a := 0xB, b := 9, imm := 0xB008 }) ∧
    decodeCapstan 0x00040000040D0002 = .instr (.cmovi { y0 with d := 0xD, b := 1, imm := 4 }) := by decide +kernel

/-- Opcodes 0x00 to 0x0F of R65, each with fields its entry allows. -/
theorem test_decode_row_0 :
    decodeStrand 0x0000000000000E00 = .instr (.nop x0) ∧
    decodeStrand 0x0000000002040E01 = .instr (.mov { x0 with d := 4, a := 2 }) ∧
    decodeStrand 0x000000FF00040E02 = .instr (.movi { x0 with d := 4, b := 0xff }) ∧
    decodeStrand 0x000000FF00040E03 = .instr (.movh { x0 with d := 4, b := 0xff }) ∧
    decodeStrand 0x0000000602040E04 = .instr (.sel { x0 with d := 4, a := 2, b := 6 }) ∧
    decodeStrand 0x000000060204CE05 = .instr (.lea { x0 with ty := .s64, d := 4, a := 2, b := 6 }) ∧
    decodeStrand 0x0000000000042E06 = .instr (.srd { x0 with ty := .w32, d := 4 }) ∧
    decodeStrand 0x00080000C4002E07 = .instr (.swr { x0 with ty := .w32, a := 0xc4, imm := 8 }) ∧
    decodeStrand 0x0000000602040E08 = .instr (.iadd { x0 with d := 4, a := 2, b := 6 }) ∧
    decodeStrand 0x0000000602040E09 = .instr (.isub { x0 with d := 4, a := 2, b := 6 }) ∧
    decodeStrand 0x0000000602040E0A = .instr (.iaddc { x0 with d := 4, a := 2, b := 6 }) ∧
    decodeStrand 0x0000000602040E0B = .instr (.imul { x0 with d := 4, a := 2, b := 6 }) ∧
    decodeStrand 0x0000000602040E0C = .instr (.imulh { x0 with d := 4, a := 2, b := 6 }) ∧
    decodeStrand 0x0000080602040E0D = .instr (.imad { x0 with d := 4, a := 2, b := 6, c := 8 }) ∧
    decodeStrand 0x0000080602040E0E = .instr (.imadw { x0 with d := 4, a := 2, b := 6, c := 8 }) ∧
    decodeStrand 0x0000000602040E0F = .instr (.idiv { x0 with d := 4, a := 2, b := 6 }) := by decide +kernel

/-- Opcodes 0x10 to 0x1F of R65, each with fields its entry allows. -/
theorem test_decode_row_1 :
    decodeStrand 0x0000000602040E10 = .instr (.irem { x0 with d := 4, a := 2, b := 6 }) ∧
    decodeStrand 0x0000000602040E11 = .instr (.imin { x0 with d := 4, a := 2, b := 6 }) ∧
    decodeStrand 0x0000000602040E12 = .instr (.imax { x0 with d := 4, a := 2, b := 6 }) ∧
    decodeStrand 0x0000000002040E13 = .instr (.iabs { x0 with d := 4, a := 2 }) ∧
    decodeStrand 0x0000000002040E14 = .instr (.ineg { x0 with d := 4, a := 2 }) ∧
    decodeStrand 0x0000000602040E15 = .instr (.isat { x0 with d := 4, a := 2, b := 6 }) ∧
    decodeStrand 0x0000000602040E16 = .instr (.and { x0 with d := 4, a := 2, b := 6 }) ∧
    decodeStrand 0x0000000602040E17 = .instr (.or { x0 with d := 4, a := 2, b := 6 }) ∧
    decodeStrand 0x0000000602040E18 = .instr (.xor { x0 with d := 4, a := 2, b := 6 }) ∧
    decodeStrand 0x0000000602040E19 = .instr (.andn { x0 with d := 4, a := 2, b := 6 }) ∧
    decodeStrand 0x0000000002040E1A = .instr (.not { x0 with d := 4, a := 2 }) ∧
    decodeStrand 0x0000000602040E1B = .instr (.shl { x0 with d := 4, a := 2, b := 6 }) ∧
    decodeStrand 0x0000000602040E1C = .instr (.shr { x0 with d := 4, a := 2, b := 6 }) ∧
    decodeStrand 0x0000000602040E1D = .instr (.sar { x0 with d := 4, a := 2, b := 6 }) ∧
    decodeStrand 0x0000000602040E1E = .instr (.rotl { x0 with d := 4, a := 2, b := 6 }) ∧
    decodeStrand 0x0000000602040E1F = .instr (.bfx { x0 with d := 4, a := 2, b := 6 }) := by decide +kernel

/-- Opcodes 0x20 to 0x2F of R65, each with fields its entry allows. -/
theorem test_decode_row_2 :
    decodeStrand 0x0000080602040E20 = .instr (.bfi { x0 with d := 4, a := 2, b := 6, c := 8 }) ∧
    decodeStrand 0x0000000002042E21 = .instr (.popc { x0 with ty := .w32, d := 4, a := 2 }) ∧
    decodeStrand 0x0000000002042E22 = .instr (.clz { x0 with ty := .w32, d := 4, a := 2 }) ∧
    decodeStrand 0x0000000002042E23 = .instr (.ctz { x0 with ty := .w32, d := 4, a := 2 }) ∧
    decodeStrand 0x0000000002042E24 = .instr (.brev { x0 with ty := .w32, d := 4, a := 2 }) ∧
    decodeStrand 0x0000080602042E25 = .instr (.bprm { x0 with ty := .w32, d := 4, a := 2, b := 6, c := 8 }) ∧
    decodeStrand 0x0000000602040E26 = .instr (.icmp { x0 with d := 4, a := 2, b := 6 }) ∧
    decodeStrand 0x0000000602040E27 = .instr (.iset { x0 with d := 4, a := 2, b := 6 }) ∧
    decodeStrand 0x0000000602040E28 = .instr (.plog { x0 with d := 4, a := 2, b := 6 }) ∧
    decodeStrand 0x0000000000040E29 = .instr (.pmov { x0 with d := 4 }) ∧
    decodeStrand 0x0000080602040E2A = .instr (.idot4 { x0 with d := 4, a := 2, b := 6, c := 8 }) ∧
    decodeStrand 0x0000080602040E2B = .instr (.idot2 { x0 with d := 4, a := 2, b := 6, c := 8 }) ∧
    decodeStrand 0x0000080602040E2C = .instr (.iadd3 { x0 with d := 4, a := 2, b := 6, c := 8 }) ∧
    decodeStrand 0x0000080602040E2D = .instr (.blut { x0 with d := 4, a := 2, b := 6, c := 8 }) ∧
    decodeStrand 0x0000000602042E2E = .instr (.rhash { x0 with ty := .w32, d := 4, a := 2, b := 6 }) ∧
    decodeStrand 0x0000080602042E2F = .instr (.fshf { x0 with ty := .w32, d := 4, a := 2, b := 6, c := 8 }) := by decide +kernel

/-- Opcodes 0x30 to 0x3F of R65, each with fields its entry allows. -/
theorem test_decode_row_3 :
    decodeStrand 0x0000000602044E30 = .instr (.fadd { x0 with ty := .f32, d := 4, a := 2, b := 6 }) ∧
    decodeStrand 0x0000000602044E31 = .instr (.fsub { x0 with ty := .f32, d := 4, a := 2, b := 6 }) ∧
    decodeStrand 0x0000000602044E32 = .instr (.fmul { x0 with ty := .f32, d := 4, a := 2, b := 6 }) ∧
    decodeStrand 0x0000080602044E33 = .instr (.ffma { x0 with ty := .f32, d := 4, a := 2, b := 6, c := 8 }) ∧
    decodeStrand 0x0000000602044E34 = .instr (.fmin { x0 with ty := .f32, d := 4, a := 2, b := 6 }) ∧
    decodeStrand 0x0000000602044E35 = .instr (.fmax { x0 with ty := .f32, d := 4, a := 2, b := 6 }) ∧
    decodeStrand 0x0000000602044E36 = .instr (.fminp { x0 with ty := .f32, d := 4, a := 2, b := 6 }) ∧
    decodeStrand 0x0000000602044E37 = .instr (.fmaxp { x0 with ty := .f32, d := 4, a := 2, b := 6 }) ∧
    decodeStrand 0x0000000002044E38 = .instr (.fabs { x0 with ty := .f32, d := 4, a := 2 }) ∧
    decodeStrand 0x0000000002044E39 = .instr (.fneg { x0 with ty := .f32, d := 4, a := 2 }) ∧
    decodeStrand 0x0000000602044E3A = .instr (.fcmp { x0 with ty := .f32, d := 4, a := 2, b := 6 }) ∧
    decodeStrand 0x0000000602044E3B = .instr (.fset { x0 with ty := .f32, d := 4, a := 2, b := 6 }) ∧
    decodeStrand 0x0000000002044E3C = .instr (.fcls { x0 with ty := .f32, d := 4, a := 2 }) ∧
    decodeStrand 0x0000000002044E3D = .instr (.frnd { x0 with ty := .f32, d := 4, a := 2 }) ∧
    decodeStrand 0x0000000602044E3E = .instr (.fscl { x0 with ty := .f32, d := 4, a := 2, b := 6 }) ∧
    decodeStrand 0x0000000002044E3F = .instr (.fexpn { x0 with ty := .f32, d := 4, a := 2 }) := by decide +kernel

/-- Opcodes 0x40 to 0x4F of R65, each with fields its entry allows. -/
theorem test_decode_row_4 :
    decodeStrand 0x0000080602046E40 = .instr (.fdot2 { x0 with ty := .bf16x2, d := 4, a := 2, b := 6, c := 8 }) ∧
    decodeStrand 0x000008060204AE41 = .instr (.fdot4 { x0 with ty := .n8x4, d := 4, a := 2, b := 6, c := 8 }) ∧
    decodeStrand 0x0000000602044E42 = .instr (.fcps { x0 with ty := .f32, d := 4, a := 2, b := 6 }) ∧
    decodeStrand 0x0000080602044E43 = .instr (.fmed3 { x0 with ty := .f32, d := 4, a := 2, b := 6, c := 8 }) ∧
    decodeStrand 0x0000000002044E44 = .instr (.exp2 { x0 with ty := .f32, d := 4, a := 2 }) ∧
    decodeStrand 0x0000000002044E45 = .instr (.log2 { x0 with ty := .f32, d := 4, a := 2 }) ∧
    decodeStrand 0x0000000002044E46 = .instr (.rcp { x0 with ty := .f32, d := 4, a := 2 }) ∧
    decodeStrand 0x0000000002044E47 = .instr (.rsq { x0 with ty := .f32, d := 4, a := 2 }) ∧
    decodeStrand 0x0000000002044E48 = .instr (.sqrt { x0 with ty := .f32, d := 4, a := 2 }) ∧
    decodeStrand 0x0000000002044E49 = .instr (.sinp { x0 with ty := .f32, d := 4, a := 2 }) ∧
    decodeStrand 0x0000000002044E4A = .instr (.cosp { x0 with ty := .f32, d := 4, a := 2 }) ∧
    decodeStrand 0x0000000002044E4B = .instr (.tanh { x0 with ty := .f32, d := 4, a := 2 }) ∧
    decodeStrand 0x0000000602044E4C = .instr (.fdiv { x0 with ty := .f32, d := 4, a := 2, b := 6 }) ∧
    decodeStrand 0x0000080602044E4D = .instr (.fadd3 { x0 with ty := .f32, d := 4, a := 2, b := 6, c := 8 }) := by decide +kernel

/-- Opcodes 0x50 to 0x5F of R65, each with fields its entry allows. -/
theorem test_decode_row_5 :
    decodeStrand 0x0000000602046E50 = .instr (.cvtf { x0 with ty := .bf16x2, d := 4, a := 2, b := 6 }) ∧
    decodeStrand 0x000000000204AE51 = .instr (.cvne { x0 with ty := .n8x4, d := 4, a := 2 }) ∧
    decodeStrand 0x000000000204AE52 = .instr (.cvnd { x0 with ty := .n8x4, d := 4, a := 2 }) ∧
    decodeStrand 0x0000000002044E53 = .instr (.i2f { x0 with ty := .f32, d := 4, a := 2 }) ∧
    decodeStrand 0x0000000002040E54 = .instr (.f2i { x0 with d := 4, a := 2 }) ∧
    decodeStrand 0x0000000602040E55 = .instr (.pack { x0 with d := 4, a := 2, b := 6 }) ∧
    decodeStrand 0x0000000002040E56 = .instr (.unpk { x0 with d := 4, a := 2 }) ∧
    decodeStrand 0x000000000204CE57 = .instr (.fxq { x0 with ty := .s64, d := 4, a := 2 }) ∧
    decodeStrand 0x000000000204CE58 = .instr (.fxd { x0 with ty := .s64, d := 4, a := 2 }) ∧
    decodeStrand 0x0000000602044E59 = .instr (.bscl { x0 with ty := .f32, d := 4, a := 2, b := 6 }) := by decide +kernel

/-- Opcodes 0x60 to 0x6F of R65, each with fields its entry allows. -/
theorem test_decode_row_6 :
    decodeStrand 0x0000000602040E60 = .instr (.shfl { x0 with d := 4, a := 2, b := 6 }) ∧
    decodeStrand 0x0000000602040E61 = .instr (.bxch { x0 with d := 4, a := 2, b := 6 }) ∧
    decodeStrand 0x0000000002040E62 = .instr (.rxch { x0 with d := 4, a := 2 }) ∧
    decodeStrand 0x0000000002040E63 = .instr (.vote { x0 with d := 4, a := 2 }) ∧
    decodeStrand 0x0000000002040E64 = .instr (.matchLanes { x0 with d := 4, a := 2 }) ∧
    decodeStrand 0x000000C602040E65 = .instr (.lmov { x0 with d := 4, a := 2, b := 0xc6 }) ∧
    decodeStrand 0x000000C6C2040E66 = .instr (.lput { x0 with d := 4, a := 0xc2, b := 0xc6 }) ∧
    decodeStrand 0x0000000002040E67 = .instr (.redl { x0 with d := 4, a := 2 }) ∧
    decodeStrand 0x0000000002040E68 = .instr (.scanl { x0 with d := 4, a := 2 }) ∧
    decodeStrand 0x0000000602040E69 = .instr (.lfnd { x0 with d := 4, a := 2, b := 6 }) ∧
    decodeStrand 0x000000C602040E6A = .instr (.lrot { x0 with d := 4, a := 2, b := 0xc6 }) := by decide +kernel

/-- Opcodes 0x70 to 0x7F of R65, each with fields its entry allows. -/
theorem test_decode_row_7 :
    decodeStrand 0x0000000000000E70 = .instr (.bra x0) ∧
    decodeStrand 0x0000000002000E71 = .instr (.brx { x0 with a := 2 }) ∧
    decodeStrand 0x0000000000040E72 = .instr (.call { x0 with d := 4 }) ∧
    decodeStrand 0x0000000002040E73 = .instr (.callx { x0 with d := 4, a := 2 }) ∧
    decodeStrand 0x0000000002000E74 = .instr (.ret { x0 with a := 2 }) ∧
    decodeStrand 0x0000000000040E75 = .instr (.join { x0 with d := 4 }) ∧
    decodeStrand 0x0000000002000E76 = .instr (.meet { x0 with a := 2 }) ∧
    decodeStrand 0x0000000000000E77 = .instr (.exit x0) ∧
    decodeStrand 0x0000000000000E78 = .instr (.trap x0) ∧
    decodeStrand 0x0000000000000E79 = .instr (.yield x0) ∧
    decodeStrand 0x0000000000000E7A = .instr (.ptok x0) ∧
    decodeStrand 0x0000000000000E7B = .instr (.brk x0) ∧
    decodeStrand 0x0000000000040E7C = .instr (.bdec { x0 with d := 4 }) := by decide +kernel

/-- Opcodes 0x80 to 0x8F of R65, each with fields its entry allows. -/
theorem test_decode_row_8 :
    decodeStrand 0x0000000602040E80 = .instr (.ld { x0 with d := 4, a := 2, b := 6 }) ∧
    decodeStrand 0x0000000602040E81 = .instr (.st { x0 with d := 4, a := 2, b := 6 }) ∧
    decodeStrand 0x0000000602040E82 = .instr (.lds { x0 with d := 4, a := 2, b := 6 }) ∧
    decodeStrand 0x0000000602040E83 = .instr (.sts { x0 with d := 4, a := 2, b := 6 }) ∧
    decodeStrand 0x0002000602040E84 = .instr (.ldc { x0 with d := 4, a := 2, b := 6, imm := 2 }) ∧
    decodeStrand 0x0002000602040E85 = .instr (.ldaq { x0 with d := 4, a := 2, b := 6, imm := 2 }) ∧
    decodeStrand 0x0002000602040E86 = .instr (.strl { x0 with d := 4, a := 2, b := 6, imm := 2 }) ∧
    decodeStrand 0x0000000602040E87 = .instr (.stnt { x0 with d := 4, a := 2, b := 6 }) ∧
    decodeStrand 0x0002080602040E88 = .instr (.atom { x0 with d := 4, a := 2, b := 6, c := 8, imm := 2 }) ∧
    decodeStrand 0x0002080602040E89 = .instr (.cas { x0 with d := 4, a := 2, b := 6, c := 8, imm := 2 }) ∧
    decodeStrand 0x0003080602044E8A = .instr (.fxadd { x0 with ty := .f32, d := 4, a := 2, b := 6, c := 8, imm := 3 }) ∧
    decodeStrand 0x0002080602040E8B = .instr (.atoms { x0 with d := 4, a := 2, b := 6, c := 8, imm := 2 }) ∧
    decodeStrand 0x0000000000000E8C = .instr (.fence x0) ∧
    decodeStrand 0x0000000602000E8D = .instr (.pref { x0 with a := 2, b := 6 }) ∧
    decodeStrand 0x0000000602040E8E = .instr (.ldl { x0 with d := 4, a := 2, b := 6 }) ∧
    decodeStrand 0x0000000602040E8F = .instr (.stlb { x0 with d := 4, a := 2, b := 6 }) := by decide +kernel

/-- Opcodes 0x90 to 0x9F of R65, each with fields its entry allows. -/
theorem test_decode_row_9 :
    decodeStrand 0x0002000602040E90 = .instr (.ldw { x0 with d := 4, a := 2, b := 6, imm := 2 }) ∧
    decodeStrand 0x0000000002040E91 = .instr (.oupg { x0 with d := 4, a := 2 }) ∧
    decodeStrand 0x0000000002000E92 = .instr (.orel { x0 with a := 2 }) ∧
    decodeStrand 0x0000000002040E93 = .instr (.owk { x0 with d := 4, a := 2 }) ∧
    decodeStrand 0x0000000002000E94 = .instr (.owd { x0 with a := 2 }) ∧
    decodeStrand 0x0000000000040E95 = .instr (.onew { x0 with d := 4 }) ∧
    decodeStrand 0x0000000602000E96 = .instr (.opri { x0 with a := 2, b := 6 }) ∧
    decodeStrand 0x000000C6C2C40E97 = .instr (.oapp { x0 with d := 0xc4, a := 0xc2, b := 0xc6 }) ∧
    decodeStrand 0x0000C8C6C2C40E98 = .instr (.btinv { x0 with d := 0xc4, a := 0xc2, b := 0xc6, c := 0xc8 }) ∧
    decodeStrand 0x0000C806C2040E99 = .instr (.btld { x0 with d := 4, a := 0xc2, b := 6, c := 0xc8 }) := by decide +kernel

/-- Opcodes 0xA0 to 0xAF of R65, each with fields its entry allows. -/
theorem test_decode_row_A :
    decodeStrand 0x00000000C2C40EA0 = .instr (.cpy { x0 with d := 0xc4, a := 0xc2 }) ∧
    decodeStrand 0x00000006C2C40EA1 = .instr (.cpyg { x0 with d := 0xc4, a := 0xc2, b := 6 }) ∧
    decodeStrand 0x00000006C2C40EA2 = .instr (.cpys { x0 with d := 0xc4, a := 0xc2, b := 6 }) ∧
    decodeStrand 0x00000000C2000EA3 = .instr (.chan { x0 with a := 0xc2 }) ∧
    decodeStrand 0x00000000C2C40EA4 = .instr (.tail { x0 with d := 0xc4, a := 0xc2 }) ∧
    decodeStrand 0x00000000C2C40EA5 = .instr (.mcall { x0 with d := 0xc4, a := 0xc2 }) ∧
    decodeStrand 0x000000C6C2C40EA6 = .instr (.sigd { x0 with d := 0xc4, a := 0xc2, b := 0xc6 }) ∧
    decodeStrand 0x00000000C2C40EA7 = .instr (.sigr { x0 with d := 0xc4, a := 0xc2 }) ∧
    decodeStrand 0x000000C6C2040EA8 = .instr (.mpost { x0 with d := 4, a := 0xc2, b := 0xc6 }) ∧
    decodeStrand 0x0000000000C40EA9 = .instr (.mtake { x0 with d := 0xc4 }) ∧
    decodeStrand 0x00000000C2C40EAA = .instr (.xred { x0 with d := 0xc4, a := 0xc2 }) ∧
    decodeStrand 0x00000000C2C40EAB = .instr (.xput { x0 with d := 0xc4, a := 0xc2 }) ∧
    decodeStrand 0x00000000C2C40EAC = .instr (.xget { x0 with d := 0xc4, a := 0xc2 }) := by decide +kernel

/-- Opcodes 0xB0 to 0xBF of R65, each with fields its entry allows. -/
theorem test_decode_row_B :
    decodeStrand 0x0000000000000EB0 = .instr (.bar x0) ∧
    decodeStrand 0x0000000000040EB1 = .instr (.bara { x0 with d := 4 }) ∧
    decodeStrand 0x00000000C2000EB2 = .instr (.barw { x0 with a := 0xc2 }) ∧
    decodeStrand 0x00000000C2000EB3 = .instr (.barx { x0 with a := 0xc2 }) ∧
    decodeStrand 0x0000000000C40EB4 = .instr (.wany { x0 with d := 0xc4 }) ∧
    decodeStrand 0x0000000602040EB5 = .instr (.evb { x0 with d := 4, a := 2, b := 6 }) ∧
    decodeStrand 0x0000000000000EB6 = .instr (.evm x0) ∧
    decodeStrand 0x0000000000040EB7 = .instr (.evp { x0 with d := 4 }) ∧
    decodeStrand 0x0000000000000EB8 = .instr (.evc x0) ∧
    decodeStrand 0x0000000000000EB9 = .instr (.sflg x0) ∧
    decodeStrand 0x0000000000040EBA = .instr (.mcnt { x0 with d := 4 }) := by decide +kernel

/-- Opcodes 0xC0 to 0xCF of R65, each with fields its entry allows. -/
theorem test_decode_row_C :
    decodeStrand 0x0000000002000EC0 = .instr (.tspn { x0 with a := 2 }) ∧
    decodeStrand 0x0000000602040EC1 = .instr (.tstl { x0 with d := 4, a := 2, b := 6 }) ∧
    decodeStrand 0x0000000002040EC2 = .instr (.tdec { x0 with d := 4, a := 2 }) ∧
    decodeStrand 0x0000000000000EC3 = .instr (.tend x0) ∧
    decodeStrand 0x0000000000000EC4 = .instr (.xacq x0) ∧
    decodeStrand 0x0000000000000EC5 = .instr (.xrel x0) ∧
    decodeStrand 0x000000000004EEC6 = .instr (.enrd { x0 with ty := .w64, d := 4 }) ∧
    decodeStrand 0x000000C6C2002EC7 = .instr (.gcnd { x0 with ty := .w32, a := 0xc2, b := 0xc6 }) ∧
    decodeStrand 0x000000C600002EC8 = .instr (.sleep { x0 with ty := .w32, b := 0xc6 }) := by decide +kernel

/-- Opcodes 0xD0 to 0xDF of R65, each with fields its entry allows. -/
theorem test_decode_row_D :
    decodeStrand 0x000000C602C42ED0 = .instr (.trdl { x0 with ty := .w32, d := 0xc4, a := 2, b := 0xc6 }) ∧
    decodeStrand 0x000000C6C2042ED1 = .instr (.twrl { x0 with ty := .w32, d := 4, a := 0xc2, b := 0xc6 }) ∧
    decodeStrand 0x0000000000000ED2 = .instr (.tret x0) ∧
    decodeStrand 0x0000000000C40ED3 = .instr (.tinf { x0 with d := 0xc4 }) ∧
    decodeStrand 0x000000C600C42ED4 = .instr (.tmsk { x0 with ty := .w32, d := 0xc4, b := 0xc6 }) := by decide +kernel

/-- Capstan opcodes 0x00 to 0x0F of R67. -/
theorem test_decode_capstan_row_0 :
    decodeCapstan 0x0000000000000000 = .instr (.cnop y0) ∧
    decodeCapstan 0x0000000000410001 = .instr (.cmov { y0 with d := 1, a := 2 }) ∧
    decodeCapstan 0x000000000C010002 = .instr (.cmovi { y0 with d := 1, b := 3 }) ∧
    decodeCapstan 0x000000000C410003 = .instr (.cadd { y0 with d := 1, a := 2, b := 3 }) ∧
    decodeCapstan 0x000000000C410004 = .instr (.csub { y0 with d := 1, a := 2, b := 3 }) ∧
    decodeCapstan 0x000000000C410005 = .instr (.cmul { y0 with d := 1, a := 2, b := 3 }) ∧
    decodeCapstan 0x000000000C410006 = .instr (.cand { y0 with d := 1, a := 2, b := 3 }) ∧
    decodeCapstan 0x000000000C410007 = .instr (.cor { y0 with d := 1, a := 2, b := 3 }) ∧
    decodeCapstan 0x000000000C410008 = .instr (.cshl { y0 with d := 1, a := 2, b := 3 }) ∧
    decodeCapstan 0x000000000C410009 = .instr (.cshr { y0 with d := 1, a := 2, b := 3 }) ∧
    decodeCapstan 0x000000000C40000A = .instr (.ccmp { y0 with a := 2, b := 3 }) ∧
    decodeCapstan 0x000000000000000B = .instr (.cbr y0) ∧
    decodeCapstan 0x000000000000000C = .instr (.cbra y0) ∧
    decodeCapstan 0x000000000001000D = .instr (.cloop { y0 with d := 1 }) ∧
    decodeCapstan 0x000000000041000E = .instr (.cld { y0 with d := 1, a := 2 }) ∧
    decodeCapstan 0x000000000C40000F = .instr (.cst { y0 with a := 2, b := 3 }) := by decide +kernel

/-- Capstan opcodes 0x10 to 0x1F of R67. -/
theorem test_decode_capstan_row_1 :
    decodeCapstan 0x0000000000000010 = .instr (.cret y0) ∧
    decodeCapstan 0x0000000000010011 = .instr (.carg { y0 with d := 1 }) ∧
    decodeCapstan 0x000000000C400012 = .instr (.cwait { y0 with a := 2, b := 3 }) ∧
    decodeCapstan 0x0000000000000013 = .instr (.cfence y0) ∧
    decodeCapstan 0x000000000C400014 = .instr (.mload { y0 with a := 2, b := 3 }) ∧
    decodeCapstan 0x000000000C400015 = .instr (.mloadh { y0 with a := 2, b := 3 }) ∧
    decodeCapstan 0x000000000C400016 = .instr (.mma { y0 with a := 2, b := 3 }) ∧
    decodeCapstan 0x000000000C400017 = .instr (.mmar { y0 with a := 2, b := 3 }) ∧
    decodeCapstan 0x000000020C400018 = .instr (.mgrp { y0 with a := 2, b := 3, c := 4 }) ∧
    decodeCapstan 0x000000000C400019 = .instr (.mzero { y0 with a := 2, b := 3 }) ∧
    decodeCapstan 0x000000020C40001A = .instr (.manc { y0 with a := 2, b := 3, c := 4 }) ∧
    decodeCapstan 0x000000020C40001B = .instr (.mdrn { y0 with a := 2, b := 3, c := 4 }) ∧
    decodeCapstan 0x000000020C40001C = .instr (.mdacc { y0 with a := 2, b := 3, c := 4 }) ∧
    decodeCapstan 0x000000000040001D = .instr (.mknot { y0 with a := 2 }) ∧
    decodeCapstan 0x000000020C40001E = .instr (.mlab { y0 with a := 2, b := 3, c := 4 }) ∧
    decodeCapstan 0x000000000000001F = .instr (.msumq y0) := by decide +kernel

/-- Capstan opcodes 0x20 to 0x2F of R67. -/
theorem test_decode_capstan_row_2 :
    decodeCapstan 0x0000000000410020 = .instr (.mrow { y0 with d := 1, a := 2 }) ∧
    decodeCapstan 0x000000000C400021 = .instr (.mtrn { y0 with a := 2, b := 3 }) ∧
    decodeCapstan 0x000000000C400022 = .instr (.msadd { y0 with a := 2, b := 3 }) ∧
    decodeCapstan 0x000000000C400023 = .instr (.msto { y0 with a := 2, b := 3 }) ∧
    decodeCapstan 0x000000000C400024 = .instr (.msld { y0 with a := 2, b := 3 }) ∧
    decodeCapstan 0x000000000C400025 = .instr (.vproj { y0 with a := 2, b := 3 }) ∧
    decodeCapstan 0x000000020C400026 = .instr (.vprjb { y0 with a := 2, b := 3, c := 4 }) ∧
    decodeCapstan 0x000000000C400027 = .instr (.vmrg { y0 with a := 2, b := 3 }) ∧
    decodeCapstan 0x000000020C400028 = .instr (.vres { y0 with a := 2, b := 3, c := 4 }) ∧
    decodeCapstan 0x0000000000400029 = .instr (.vclr { y0 with a := 2 }) ∧
    decodeCapstan 0x000000000C40002A = .instr (.vheap { y0 with a := 2, b := 3 }) ∧
    decodeCapstan 0x000000000C40002B = .instr (.vnorm { y0 with a := 2, b := 3 }) ∧
    decodeCapstan 0x000000000001002C = .instr (.vstat { y0 with d := 1 }) ∧
    decodeCapstan 0x000000000001002D = .instr (.cpri { y0 with d := 1 }) ∧
    decodeCapstan 0x000000000040002E = .instr (.cseq { y0 with a := 2 }) ∧
    decodeCapstan 0x000000000000002F = .instr (.ctrap y0) := by decide +kernel

/-! ### One step of a word: expected values from the worked examples, or by hand -/

/-- The lane's number in v1. -/
def lanes1 : State := withV 1 (fun l => BitVec.ofNat 32 l.val) st

/-- Chapter 1: v2 = 3l, then 3l - 5; MOVI, MOVH and the 64-bit sum's carry between its halves. -/
theorem test_moves_and_sums :
    vOf (after (.imul { x0 with d := 2, a := 1, b := 0xFF, imm := 3 }) lanes1) 2 31 = 93 ∧
    vOf (after (.iadd { x0 with d := 1, a := 1, b := 0xFF, imm := 0xFFFB }) lanes1) 1 0 = 0xFFFFFFFB ∧
    sOf (after (.movi { x0 with ty := .w32, d := 0xC4, b := 0xFF, imm := 0x8FDB }) st) 4 = 0x8FDB ∧
    sOf (after (.movi { x0 with d := 0xC4, b := 0xFF, imm := 0x8FDB }) st) 4 = 0xFFFF8FDB ∧
    sOf (after (.movh { x0 with d := 0xC4, b := 0xFF, imm := 0x4049 }) (withS 4 0x0FDB st)) 4 = 0x40490FDB ∧
    sOf (after (.iadd { x0 with ty := .w64, d := 0xC4, a := 0xC6, b := 0xC8 }) (withS 6 0xFFFFFFFF (withS 8 1 st))) 5 = 1 := by decide +kernel

theorem test_integers : let s := withS 4 0x80000000 (withS 5 3 st)
    sOf (after (.isub { x0 with d := 0xC6, a := 0xC4, b := 0xC5 }) s) 6 = 0x7FFFFFFD ∧
    sOf (after (.imulh { x0 with d := 0xC6, a := 0xC4, b := 0xC5 }) s) 6 = 0xFFFFFFFE ∧
    sOf (after (.imulh { x0 with ty := .w32, d := 0xC6, a := 0xC4, b := 0xC5 }) s) 6 = 1 ∧
    sOf (after (.imad { x0 with d := 0xC6, a := 0xC5, b := 0xC5, c := 0xC5 }) s) 6 = 12 ∧
    sOf (after (.imin { x0 with d := 0xC6, a := 0xC4, b := 0xC5 }) s) 6 = 0x80000000 ∧
    sOf (after (.imin { x0 with ty := .w32, d := 0xC6, a := 0xC4, b := 0xC5 }) s) 6 = 3 ∧
    sOf (after (.iabs { x0 with d := 0xC6, a := 0xC4 }) s) 6 = 0x80000000 ∧ sOf (after (.ineg { x0 with d := 0xC6, a := 0xC5 }) s) 6 = 0xFFFFFFFD := by
  decide +kernel

/-- IADDC and ISAT: the carry and the flag SAT; IDIV and IREM of -7 by 2 and by 0 (R81), with their results written at once (S = 1). -/
theorem test_flags_and_divisions : let s := withS 4 0xFFFFFFF9 (withS 5 2 st)
    let z := withS 4 7 st
    sOf (after (.iaddc { x0 with ty := .w32, d := 0xC6, a := 0xC4, b := 0xC4, c := 1 }) (withP 1 (BitVec.allOnes 32) s)) 6 = 0xFFFFFFF3 ∧
    pOf (after (.iaddc { x0 with ty := .w32, d := 0xC6, a := 0xC4, b := 0xC4, c := 1 }) s) 1 = BitVec.allOnes 32 ∧
    sOf (after (.isat { x0 with d := 0xC6, a := 0xC4, b := 0xFF, imm := 3 }) s) 6 = 0xFFFFFFFC ∧
    (myCord (after (.isat { x0 with d := 0xC6, a := 0xC4, b := 0xFF, imm := 3 }) s)).sflags = fSAT ∧
    sOf (after (.idiv { x0 with sw := true, d := 0xC6, a := 0xC4, b := 0xC5 }) s) 6 = 0xFFFFFFFD ∧
    sOf (after (.irem { x0 with sw := true, d := 0xC6, a := 0xC4, b := 0xC5 }) s) 6 = 0xFFFFFFFF ∧
    sOf (after (.idiv { x0 with sw := true, d := 0xC6, a := 0xC4, b := 0xC5 }) z) 6 = 0xFFFFFFFF ∧
    sOf (after (.irem { x0 with sw := true, d := 0xC6, a := 0xC4, b := 0xC5 }) z) 6 = 7 ∧
    (myCord (after (.idiv { x0 with d := 0xC6, a := 0xC4, b := 0xC5 }) z)).sflags = fDZ := by decide +kernel

theorem test_logic : let s := withS 4 0x80000001 (withS 5 33 st)
    sOf (after (.shl { x0 with d := 0xC6, a := 0xC4, b := 0xC5 }) s) 6 = 0 ∧ sOf (after (.sar { x0 with d := 0xC6, a := 0xC4, b := 0xC5 }) s) 6 = 0xFFFFFFFF ∧
    sOf (after (.shr { x0 with d := 0xC6, a := 0xC4, b := 0xFF, imm := 31 }) s) 6 = 1 ∧
    sOf (after (.rotl { x0 with d := 0xC6, a := 0xC4, b := 0xC5 }) s) 6 = 3 ∧ sOf (after (.popc { x0 with ty := .w32, d := 0xC6, a := 0xC4 }) s) 6 = 2 ∧
    sOf (after (.clz { x0 with ty := .w32, d := 0xC6, a := 0xC5 }) s) 6 = 26 ∧ sOf (after (.ctz { x0 with ty := .w32, d := 0xC6, a := 0xC0 }) s) 6 = 32 ∧
    sOf (after (.brev { x0 with ty := .w32, d := 0xC6, a := 0xC5 }) s) 6 = 0x84000000 ∧
    sOf (after (.andn { x0 with d := 0xC6, a := 0xC4, b := 0xC5 }) s) 6 = 0x80000000 := by decide +kernel

/-- Comparisons and predicates: v1 < 5 holds in lanes 0 to 4; CCMP's order of operands. -/
theorem test_predicates : let w : SWord := { x0 with d := 1, a := 1, b := 0xFF, c := 2, imm := 5 }
    pOf (after (.icmp w) lanes1) 1 = 0x1F ∧ pOf (after (.icmp { w with d := 7 }) lanes1) 7 = 0 ∧
    pOf (after (.plog { x0 with d := 3, a := 3, b := 4, c := 7, imm := 0x88 }) (withP 3 0xC (withP 4 0xA st))) 3 = 8 ∧
    vOf (after (.iset { x0 with d := 2, a := 1, b := 0xFF, c := 2, imm := 5 }) lanes1) 2 5 = 0 := by decide +kernel

/-- 0 + 3.0, 2^3 exactly, 8.0 * 8.0 (chapter 1); a NaN operand gives the canonical NaN; 1 / 0 with DZ. -/
theorem test_floats : let s := withS 4 0x40400000 (withS 5 0x41000000 st)
    sOf (after (.fadd { x0 with ty := .f32, d := 0xC6, a := 0xF0, b := 0xFF, imm := 0x4040 }) s) 6 = 0x40400000 ∧
    sOf (after (.exp2 { x0 with sw := true, ty := .f32, d := 0xC6, a := 0xC4 }) s) 6 = 0x41000000 ∧
    sOf (after (.fmul { x0 with ty := .f32, d := 0xC6, a := 0xC5, b := 0xC5 }) s) 6 = 0x42800000 ∧
    sOf (after (.fdiv { x0 with sw := true, ty := .f32, d := 0xC6, a := 0xC4, b := 0xF0 }) s) 6 = 0x7F800000 ∧
    (myCord (after (.fdiv { x0 with ty := .f32, d := 0xC6, a := 0xC4, b := 0xF0 }) s)).sflags = fDZ ∧
    sOf (after (.ffma { x0 with ty := .f32, d := 0xC6, a := 0xC4, b := 0xC4, c := 0xC5 }) s) 6 = 0x41880000 ∧
    sOf (after (.fneg { x0 with ty := .f32, d := 0xC6, a := 0xC4 }) s) 6 = 0xC0400000 := by decide +kernel

/-- The worked fragment of chapter 4: 3.25 is the nearest E4M3 value to pi, and F2I.rz gives 3; nf2 holds E4M3. -/
theorem test_conversions : let s := withCord (fun c => { c with nf := [(2, 0x000D0739)] }) (withS 4 0x40490FDB st)
    sOf (after (.cvne { x0 with ty := .n8x4, d := 0xC5, a := 0xC4, imm := 0x120 }) s) 5 = 0x4500 ∧
    sOf (after (.cvnd { x0 with ty := .n8x4, d := 0xC6, a := 0xC5, imm := 0x120 }) (withS 5 0x4500 s)) 6 = 0x40500000 ∧
    sOf (after (.f2i { x0 with d := 0xC7, a := 0xC4, imm := 1 }) s) 7 = 3 ∧
    sOf (after (.i2f { x0 with ty := .f32, d := 0xC7, a := 0xC4 }) (withS 4 3 s)) 7 = 0x40400000 := by decide +kernel

theorem test_lanes : let w : SWord := { x0 with sw := true, ty := .w32, d := 2, a := 1, b := 0xFF, imm := 4 }
    vOf (after (.shfl { w with c := 1 }) lanes1) 2 1 = 5 ∧ sOf (after (.lmov { w with d := 0xC4 }) lanes1) 4 = 4 ∧
    vOf (after (.lput { x0 with sw := true, ty := .w32, d := 1, a := 0xC4, b := 0xFF, imm := 31 }) (withS 4 9 lanes1)) 1 31 = 9 ∧
    sOf (after (.redl { x0 with sw := true, ty := .w32, d := 0xC4, a := 1 }) lanes1) 4 = 496 ∧
    vOf (after (.scanl { x0 with sw := true, ty := .w32, d := 2, a := 1 }) lanes1) 2 3 = 6 ∧
    pOf (after (.vote { x0 with sw := true, d := 5, a := 3, c := 2, imm := 2 }) (withP 3 3 st)) 5 = BitVec.allOnes 32 ∧
    pOf (after (.vote { x0 with sw := true, d := 5, a := 3, c := 2 }) (withP 3 3 st)) 5 = 0 := by decide +kernel

/-- Control: BRA by four words from 0x100008, EXIT, BDEC's last turn, CALL's link, TRAP's code. -/
theorem test_control :
    ((me (after (.bra { x0 with imm := 4 }) st)).threads.get 0).pc = 0x100028 ∧
    (me (after (.exit x0) st)).ended = true ∧ sOf (after (.bdec { x0 with d := 0xC4, imm := 0xFFFD }) (withS 4 1 st)) 4 = 0 ∧
    ((me (after (.bdec { x0 with d := 0xC4, imm := 0xFFFD }) (withS 4 1 st))).threads.get 0).pc = 0x100010 ∧
    ((me (after (.bdec { x0 with d := 0xC4, imm := 0xFFFD }) (withS 4 2 st))).threads.get 0).pc = 0x0FFFF0 ∧
    (me (after (.trap { x0 with imm := 9 }) (withCord (fun c => { c with hdr := { c.hdr with handler := 0x100200 } }) st))).handler.map
      (fun h => (h.pc, h.trap.code, h.trap.pc)) = some (0x100200, .swtrap, 0x100008) := by decide +kernel

/-- Memory: a load of four bytes, little-endian (S = 1 settles it); a store waits in the queue; an access to address 0 faults its lane. -/
theorem test_memory : let s := withMem 0x100100 [1, 2, 3, 4] (withS 2 0x100100 st)
    sOf (after (.ld { x0 with sw := true, ty := .w32, d := 0xC4, a := 0xC2, b := 0xF0, imm := 2 }) s) 4 = 0x04030201 ∧
    sOf (after (.ld { x0 with sw := true, d := 0xC4, a := 0xC2, b := 0xF0, imm := 0x301 }) s) 4 = 0 ∧
    (me (after (.st { x0 with ty := .w32, d := 0xC4, a := 0xC2, b := 0xF0, imm := 2 }) s)).stores.map (fun q => (q.key, q.bytes)) =
      [(0x100100, [0, 0, 0, 0])] ∧
    memRd (after (.st { x0 with ty := .w32, d := 0xC4, a := 0xC2, b := 0xF0, imm := 2 }) s).mem 0x100100 = 1 ∧
    memRd (after (.atom { x0 with ty := .w32, d := 0xC4, a := 0xC2, b := 0xF0, c := 0xC6 }) (withS 6 1 s)).mem 0x100103 = 4 ∧
    ((me (after (.ld { x0 with ty := .w32, d := 0xC4, a := 0xF0, b := 0xF0, imm := 2 }) s)).threads.get 0).isFaulted = true := by decide +kernel

theorem test_special : let s := withCord (fun c => { c with sflags := 5 }) st
    sOf (after (.srd { x0 with ty := .w32, d := 0xC4, imm := 0x08 }) s) 4 = 5 ∧ sOf (after (.srd { x0 with ty := .w32, d := 0xC4, imm := 0x10 }) s) 4 = 1 ∧
    (me (after (.swr { x0 with ty := .w32, a := 0xC4, imm := 0x0B }) (withS 4 6 s))).evmask = 6 ∧
    (curClause? (after (.srd { x0 with ty := .w32, d := 0xC4, imm := 0x14 }) s)).isNone = true := by decide +kernel

/-- Barriers, events and mailboxes: BARA's phase and count; EVC clears a hitch; MCNT of an empty mailbox. -/
theorem test_barriers_events :
    sOf (after (.bara { x0 with d := 0xC4, imm := 3 }) (withCord (fun c => { c with bars := [(3, { exp := 2 })] }) st)) 4 = 0 ∧
    (getBar (myCord (after (.bara { x0 with d := 0xC4, imm := 3 }) (withCord (fun c => { c with bars := [(3, { exp := 2 })] }) st))) 3).cnt = 1 ∧
    sOf (after (.evp { x0 with d := 0xC4, imm := 1 }) (withMe (fun t => { t with pev := 3 }) st)) 4 = 3 ∧
    (me (after (.evp { x0 with d := 0xC4, imm := 1 }) (withMe (fun t => { t with pev := 3 }) st))).pev = 2 ∧
    (me (after (.evm { x0 with imm := 6 }) st)).evmask = 6 ∧ sOf (after (.mcnt { x0 with d := 0xC4 }) st) 4 = 0 := by decide +kernel

/-- The handler: TINF reads the code and the position; TRET.skip goes on behind the trapping word. -/
theorem test_handler :
    (me (after (.tret { x0 with imm := 1 }) inside)).handler = none ∧
    sOf (after (.trdl { x0 with ty := .w32, d := 0xC4, a := 1, b := 0xFF, imm := 7 }) (withV 1 (fun l => BitVec.ofNat 32 l.val) inside)) 4 = 7 ∧
    vOf (after (.twrl { x0 with ty := .w32, d := 1, a := 0xC4, b := 0xFF, imm := 7 }) (withS 4 9 inside)) 1 7 = 9 := by decide +kernel

/-- The capstan: values, branches, CLOOP's last turn, a CST into the scratchpad and a CLD out of it. -/
theorem test_capstan : let s := withC 2 7 (withC 3 5 cs)
    cOf (after (.cadd { y0 with d := 1, a := 2, b := 3, imm := 1 }) s) 1 = 13 ∧ cOf (after (.csub { y0 with d := 1, a := 3, b := 2 }) s) 1 = -2 ∧
    cOf (after (.cmovi { y0 with d := 1, a := 1, b := 1, imm := 4 }) (withC 1 0xFFFFFFFF cs)) 1 = 0x4FFFF ∧
    (myRun (after (.ccmp { y0 with a := 3, b := 2 }) s)).fn = true ∧
    (myRun (after (.cbr { y0 with cond := 1, imm := 3 }) cs)).pc = 0x100020 ∧ cOf (after (.cloop { y0 with d := 1, imm := 3 }) (withC 1 1 cs)) 1 = 0 ∧
    (myRun (after (.cst { y0 with a := 31, b := 2, imm := 0xB008 }) (withPad [] s))).stores.map (fun q => (q.scratch, q.key, q.bytes.length)) =
      [(true, 8, 8)] ∧
    cOf (after (.cld { y0 with sw := true, d := 1, a := 31, imm := 0x9002 }) (withPad [0, 1, 2, 3] s)) 1 = 0x302 := by decide +kernel

/-- The matrix: MANC sets the anchor, MZERO clears a row's cells, MROW reads the count. -/
theorem test_matrix : let w : CWord := { y0 with a := 31, b := 5, c := 31, imm := 0xFFF8 }
    let t := withC 5 2 (withPad [] cs)
    let s := setRun t { myRun t with clause := (myRun t).clause.map (fun c => { c with nm1 := 3 }) }
    (getSilt (getCord (after (.manc w) s) 0) 1).q = -8 ∧ (getSilt (getCord (after (.manc w) s) 0) 2).q = 0 ∧
    (getSilt (getCord (after (.mzero { y0 with a := 31, b := 5 }) (after (.manc w) s)) 0) 1).q = -8 ∧
    cOf (after (.mrow { y0 with d := 1, a := 31, imm := 4 }) (after (.manc w) s)) 1 = -8 := by decide +kernel

/-- The device: a reset leaves STATE 2 or 3; a command while BUSY is discarded; POWERCAP is held at 600. -/
theorem test_device :
    (after (.registerWrite 0xB0 100) st).mgmt.powercap = 600 ∧ (after .withdraw st).mgmt.busy = true ∧
    (after (.registerWrite 0x048 17) st).mgmt.wrej = true ∧ (after .coreon State.reset).mgmt.status = 2 := by decide +kernel

end Sys2Proof.Tests
end

section
/-! O59: every step keeps the canonical form of device memory (log 14).

The proof follows the model's text. For each of its functions that answers a state there is one lemma of the function's name, which says
that the answer keeps the form: `MemOk.f` where f answers a state, `ResOk.f`, `OutOk.f` and so on where it answers a result that carries
one. A proof term such as `.setMe (.frame h)` then reads as the function's own body does. Only the functions that write memory itself
(`devWr`, `zeroRange`, `garble`, the host's bytes and the resets) need the facts about `Memory.wf`. -/

namespace Sys2Proof.Machine

set_option autoImplicit false
set_option Elab.async false

/-! ### States -/

/-- Device memory is in its canonical form (log 14). -/
def MemOk (s : State) : Prop := Memory.wf s.mem = true

theorem MemOk.of_wf {s : State} (h : Memory.wf s.mem = true) : MemOk s := h

/-- A change beside memory: by `rfl` where the model's text shows it. -/
theorem MemOk.frame {s t : State} (h : MemOk s) (e : t.mem = s.mem := by rfl) : MemOk t := (congrArg Memory.wf e).trans h

protected theorem MemOk.ite {c : Prop} [Decidable c] {s t : State} (h : MemOk s) (g : MemOk t) : MemOk (if c then s else t) := by
  split
  · exact h
  · exact g

/-- A change where a condition holds. -/
theorem MemOk.when {c : Prop} [Decidable c] {s t : State} (h : MemOk s) (ht : MemOk s → MemOk t) : MemOk (if c then t else s) :=
  .ite (ht h) h

/-- A change where a condition fails. -/
theorem MemOk.unless {c : Prop} [Decidable c] {s t : State} (h : MemOk s) (ht : MemOk s → MemOk t) : MemOk (if c then s else t) :=
  .ite h (ht h)

/-- A walk whose every step keeps the form. -/
protected theorem MemOk.foldl {α : Type} {f : State → α → State} {l : List α} {s : State} (h : MemOk s)
    (step : ∀ s a, MemOk s → MemOk (f s a)) : MemOk (l.foldl f s) :=
  List.foldlRecOn (motive := MemOk) l f h fun s hs a _ => step s a hs

theorem MemOk.of_snd_eq {α : Type} {p : α × State} (h : MemOk p.2) {a : α} {t : State} (e : p = (a, t)) : MemOk t := by
  subst e
  exact h

/-! ### States that may be missing -/

/-- The state, if there is one, that `g` finds in an answer. -/
def SomeOk {α : Type} (g : α → State) (o : Option α) : Prop := ∀ x, o = some x → MemOk (g x)

/-- The state that `g` finds in an answer, if there is no error. -/
def ExceptOk {ε α : Type} (g : α → State) (o : Except ε α) : Prop := ∀ x, o = .ok x → MemOk (g x)

protected theorem SomeOk.none {α : Type} {g : α → State} : SomeOk g .none := fun _ e => nomatch e
protected theorem SomeOk.some {α : Type} {g : α → State} {x : α} (h : MemOk (g x)) : SomeOk g (.some x) := fun _ e => by cases e; exact h
theorem SomeOk.of_eq {α : Type} {g : α → State} {o : Option α} (h : SomeOk g o) {x : α} (e : o = some x) : MemOk (g x) := h x e

theorem ExceptOk.error {ε α : Type} {g : α → State} {x : ε} : ExceptOk g (.error x) := fun _ e => nomatch e

theorem ExceptOk.ok {ε α : Type} {g : α → State} {x : α} (h : MemOk (g x)) : ExceptOk (ε := ε) g (.ok x) :=
  fun _ e => by cases e; exact h

theorem ExceptOk.of_eq {ε α : Type} {g : α → State} {o : Except ε α} (h : ExceptOk g o) {x : α} (e : o = .ok x) : MemOk (g x) :=
  h x e

theorem SomeOk.map {α β : Type} {g : α → State} {k : β → State} {o : Option α} {f : α → β} (h : SomeOk g o)
    (hf : ∀ x, MemOk (g x) → MemOk (k (f x))) : SomeOk k (o.map f) := by
  cases o with
  | none => exact .none
  | some x => exact .some (hf x (h x rfl))

theorem SomeOk.mapAny {α β : Type} {k : β → State} {o : Option α} {f : α → β} (hf : ∀ x, MemOk (k (f x))) : SomeOk k (o.map f) := by
  cases o with
  | none => exact .none
  | some x => exact .some (hf x)

theorem SomeOk.getD {o : Option State} {s : State} (h : SomeOk id o) (g : MemOk s) : MemOk (o.getD s) := by
  cases o with
  | none => exact g
  | some t => exact h t rfl

protected theorem SomeOk.ite {α : Type} {c : Prop} [Decidable c] {g : α → State} {o p : Option α} (ho : SomeOk g o)
    (hp : SomeOk g p) : SomeOk g (if c then o else p) := by
  split
  · exact ho
  · exact hp

/-! ### Results that carry a state -/

/-- Every state that a strand word's body answers. -/
def ResOk : Res → Prop
  | .done s => MemOk s
  | .trap _ _ => True
  | .wait _ s => MemOk s

theorem ResOk.done {s : State} (h : MemOk s) : ResOk (.done s) := h
theorem ResOk.wait {st : Stall} {s : State} (h : MemOk s) : ResOk (.wait st s) := h
theorem ResOk.trap {c : TrapCode} {x : DWord} : ResOk (.trap c x) := trivial
theorem ResOk.of_eq {x y : Res} (h : ResOk x) (e : x = y) : ResOk y := e ▸ h

/-- Every state that a capstan word's body answers. -/
def CResOk : CRes → Prop
  | .done _ s => MemOk s
  | .jump _ _ s => MemOk s
  | .stop _ _ s => MemOk s
  | .again _ s => MemOk s
  | .wait s => MemOk s

theorem CResOk.done {n : Nat} {s : State} (h : MemOk s) : CResOk (.done n s) := h
theorem CResOk.jump {n : Nat} {a : VAddr} {s : State} (h : MemOk s) : CResOk (.jump n a s) := h
theorem CResOk.stop {n : Nat} {e : CallEnd} {s : State} (h : MemOk s) : CResOk (.stop n e s) := h
theorem CResOk.again {n : Nat} {s : State} (h : MemOk s) : CResOk (.again n s) := h
theorem CResOk.wait {s : State} (h : MemOk s) : CResOk (.wait s) := h
theorem CResOk.of_eq {x y : CRes} (h : CResOk x) (e : x = y) : CResOk y := e ▸ h

protected theorem CResOk.ite {c : Prop} [Decidable c] {x y : CRes} (hx : CResOk x) (hy : CResOk y) : CResOk (if c then x else y) := by
  split
  · exact hx
  · exact hy

/-- The state that an instruction answers. -/
def OutOk : Out → Prop
  | .next s => MemOk s
  | .fault _ => True
  | .refused _ => True

theorem OutOk.next {s : State} (h : MemOk s) : OutOk (.next s) := h
theorem OutOk.of_eq {x y : Out} (h : OutOk x) (e : x = y) : OutOk y := e ▸ h

protected theorem OutOk.ite {c : Prop} [Decidable c] {x y : Out} (hx : OutOk x) (hy : OutOk y) : OutOk (if c then x else y) := by
  split
  · exact hx
  · exact hy

/-- The state that a fetch answers. -/
def FetchedOk : Fetched → Prop
  | .word _ s => MemOk s
  | .fault => True
  | .poison => True

theorem FetchedOk.word {r : DWord} {s : State} (h : MemOk s) : FetchedOk (.word r s) := h
theorem FetchedOk.fault : FetchedOk .fault := trivial
theorem FetchedOk.poison : FetchedOk .poison := trivial
theorem FetchedOk.of_eq {x y : Fetched} (h : FetchedOk x) (e : x = y) : FetchedOk y := e ▸ h

/-- The state that serving a lane of an object instruction answers. -/
def LaneResOk : LaneRes → Prop
  | .done _ _ s => MemOk s
  | .fault _ _ _ s => MemOk s

theorem LaneResOk.done {v : DWord} {p : Bool} {s : State} (h : MemOk s) : LaneResOk (.done v p s) := h
theorem LaneResOk.fault {c : TrapCode} {a : DWord} {x : DWord} {s : State} (h : MemOk s) : LaneResOk (.fault c a x s) := h

/-- The state that serving OAPP's list answers. -/
def AppEndOk : AppEnd → Prop
  | .served _ s => MemOk s
  | .fault _ _ _ _ s => MemOk s

theorem AppEndOk.served {n : Nat} {s : State} (h : MemOk s) : AppEndOk (.served n s) := h
theorem AppEndOk.fault {c : TrapCode} {a : DWord} {n : Nat} {wr : Bool} {s : State} (h : MemOk s) : AppEndOk (.fault c a n wr s) := h
theorem AppEndOk.of_eq {x y : AppEnd} (h : AppEndOk x) (e : x = y) : AppEndOk y := e ▸ h

/-- The state that a pass answers. -/
def PassResOk : PassRes → Prop
  | .ok _ s => MemOk s
  | .bad _ s => MemOk s

theorem PassResOk.ok {n : Nat} {s : State} (h : MemOk s) : PassResOk (.ok n s) := h
theorem PassResOk.bad {e : CallEnd} {s : State} (h : MemOk s) : PassResOk (.bad e s) := h
theorem PassResOk.of_eq {x y : PassRes} (h : PassResOk x) (e : x = y) : PassResOk y := e ▸ h

/-- The state that a tile answers. -/
def VEndOk : VEnd → Prop
  | .ok _ s => MemOk s
  | .bad _ s => MemOk s
  | .spill _ _ s => MemOk s

theorem VEndOk.ok {rs : List VRow} {s : State} (h : MemOk s) : VEndOk (.ok rs s) := h
theorem VEndOk.bad {e : CallEnd} {s : State} (h : MemOk s) : VEndOk (.bad e s) := h
theorem VEndOk.spill {rs : List VRow} {n : Nat} {s : State} (h : MemOk s) : VEndOk (.spill rs n s) := h

/-! ### The functions of Machine/Ops -/

protected theorem MemOk.setStrand {s : State} (h : MemOk s) {k : Nat} {t : Strand} : MemOk (setStrand s k t) := .frame h

protected theorem MemOk.setCord {s : State} (h : MemOk s) {k : Nat} {c : Cord} : MemOk (setCord s k c) := .frame h

protected theorem MemOk.setCore {s : State} (h : MemOk s) {k : Nat} {c : Core} : MemOk (setCore s k c) := .frame h

protected theorem MemOk.setMe {s : State} (h : MemOk s) {t : Strand} : MemOk (setMe s t) := .setStrand h

protected theorem MemOk.setMyCord {s : State} (h : MemOk s) {c : Cord} : MemOk (setMyCord s c) := .setCord h

protected theorem MemOk.setMyCore {s : State} (h : MemOk s) {c : Core} : MemOk (setMyCore s c) := .setCore h

protected theorem MemOk.focusOn {s : State} (h : MemOk s) {k : Nat} : MemOk (focusOn s k) := .frame h

protected theorem MemOk.onStrand {s : State} (h : MemOk s) {k : Nat} {f : State → State} (hf : ∀ t, MemOk t → MemOk (f t)) :
    MemOk (onStrand s k f) :=
  .frame (hf _ (.focusOn h))

protected theorem MemOk.setClause {s : State} (h : MemOk s) {c : Option Clause} : MemOk (setClause s c) := by
  unfold setClause
  dsimp only
  split <;> exact .setMe h

protected theorem MemOk.orFlags {s : State} (h : MemOk s) {f : Flags} : MemOk (orFlags s f) := .ite h (.setMyCord h)

protected theorem MemOk.orFlagsOf {s : State} (h : MemOk s) {cord : Nat} {f : Flags} : MemOk (orFlagsOf s cord f) := .ite h (.setCord h)

protected theorem MemOk.passSticky {s : State} (h : MemOk s) {k : Nat} : MemOk (passSticky s k) := by
  unfold passSticky
  dsimp only
  split
  · exact h
  · split
    · exact h
    · exact .setStrand (.setStrand h)

protected theorem MemOk.failEnded {s : State} (h : MemOk s) {k : Nat} : MemOk (failEnded s k) := .ite h (.setCord (.setStrand h))

protected theorem MemOk.exitThreads {s : State} (h : MemOk s) {m : LaneMask} : MemOk (exitThreads s m) :=
  .failEnded (.passSticky (.setMe h))

protected theorem MemOk.leaveClause {s : State} (h : MemOk s) {m : LaneMask} : MemOk (leaveClause s m) := by
  unfold leaveClause
  split
  · exact h
  · exact .setClause h

protected theorem MemOk.parkClause {s : State} (h : MemOk s) {m : LaneMask} : MemOk (parkClause s m) := by
  unfold parkClause
  split
  · exact h
  · exact .setClause h

protected theorem MemOk.transfer {s : State} (h : MemOk s) {m : LaneMask} {target : Lane → VAddr} : MemOk (transfer s m target) := by
  unfold transfer
  dsimp only
  split
  · exact .ite (.leaveClause (.setMe h)) h
  · exact .leaveClause (.setMe h)

protected theorem MemOk.nextSeq {s : State} (h : MemOk s) : MemOk (nextSeq s).2 := .frame h

protected theorem MemOk.splitLane {s : State} (h : MemOk s) {l : Lane} {code : TrapCode} {addr aux : DWord} {pc : VAddr}
    {place : Option Nat} : MemOk (splitLane s l code addr aux pc place) :=
  .parkClause (.setMe (.frame h))

protected theorem MemOk.splitLanes {s : State} (h : MemOk s) {pc : VAddr} {place : Option Nat}
    {fs : List (Lane × TrapCode × DWord × DWord)} : MemOk (splitLanes s pc place fs) := by
  induction fs generalizing s with
  | nil => exact h
  | cons f fs ih => exact ih (.splitLane h)

protected theorem MemOk.escalate {s : State} (h : MemOk s) {cord : Nat} {handled : Option TrapInfo} {t : TrapInfo} :
    MemOk (escalate s cord handled t) :=
  .foldl (.setCord h) fun _ _ h => .setStrand h

protected theorem MemOk.faultLanes {s : State} (h : MemOk s) {pc : VAddr} {place : Option Nat}
    {fs : List (Lane × TrapCode × DWord × DWord)} : MemOk (faultLanes s pc place fs) := by
  unfold faultLanes
  split
  · exact h
  · exact .ite (.setMe (.frame h)) (.escalate (.frame h))
  · exact .splitLanes h

protected theorem MemOk.settle {s : State} (h : MemOk s) {es keep : List Pending} : MemOk (settle s es keep) :=
  .foldl (.setMe h) fun _ _ h => .faultLanes h

protected theorem MemOk.settleAll {s : State} (h : MemOk s) : MemOk (settleAll s) := .ite h (.settle h)

protected theorem MemOk.settleClass {s : State} (h : MemOk s) {c : LatClass} : MemOk (settleClass s c) := .ite (.frame (.settle h)) h

protected theorem MemOk.endClause {s : State} (h : MemOk s) : MemOk (endClause s) := by
  unfold endClause
  dsimp only
  split
  · exact h
  · split <;> exact .setMe h

protected theorem MemOk.countSplit {s : State} (h : MemOk s) : MemOk (countSplit s) := .ite (.setMe h) h

protected theorem MemOk.betweenWords {s : State} (h : MemOk s) : MemOk (betweenWords s) := by
  unfold betweenWords
  dsimp only
  split
  · exact .countSplit h
  · exact .when (.countSplit h) fun h => .endClause (.setMe h)

protected theorem MemOk.takeTrap {s : State} (h : MemOk s) {t : TrapInfo} : MemOk (takeTrap s t) := by
  unfold takeTrap
  dsimp only
  split
  · split
    · exact .setMe h
    · split
      · exact .escalate h
      · exact .ite (.escalate h) (.setMe h)
  · split
    · exact .setMe (.betweenWords (.settleAll h))
    · split
      · exact .escalate (.betweenWords (.settleAll h))
      · exact .ite (.escalate (.betweenWords (.settleAll h))) (.setMe (.betweenWords (.settleAll h)))

protected theorem MemOk.preciseTrap {s : State} (h : MemOk s) {code : TrapCode} {aux : DWord} : MemOk (preciseTrap s code aux) :=
  .ite (.takeTrap (.frame (.settleAll h))) (.takeTrap (.setMe (.frame (.settleAll h))))

protected theorem MemOk.takeDeferred {s : State} (h : MemOk s) : MemOk (takeDeferred s) := by
  unfold takeDeferred
  split
  · exact h
  · exact .takeTrap (.setMe h)

protected theorem MemOk.recordTrap {s : State} (h : MemOk s) {k : Nat} {t : TrapInfo} : MemOk (recordTrap s k t) :=
  .ite (.frame h) (.ite (.setCord (.frame h)) (.setStrand (.frame h)))

protected theorem MemOk.advance {s : State} (h : MemOk s) : MemOk (advance s) := by
  unfold advance
  split
  · exact h
  · exact .ite (.endClause h) (.ite (.endClause (.transfer h)) (.setClause h))

protected theorem MemOk.finishWord {s : State} (h : MemOk s) {sw : Bool} : MemOk (finishWord sw s) :=
  .advance (.frame (.ite (.settleAll h) h))

protected theorem MemOk.stallAt {s : State} (h : MemOk s) {st : Stall} : MemOk (stallAt st s) := by
  unfold stallAt
  dsimp only
  split <;> exact .setMe h

protected theorem MemOk.refresh {s : State} (h : MemOk s) {core sc : Nat} : MemOk (refresh s core sc) :=
  .ite h (.unless (.ite h (.setCore h)) fun h => .frame h)

protected theorem MemOk.joinTokens {s : State} (h : MemOk s) {regs : List Nat} : MemOk (joinTokens s regs) := .ite h (.refresh (.setMe h))

protected theorem MemOk.runForm {s : State} (h : MemOk s) {f : Form} {w : SWord} {body : State → Res} (hb : ∀ t, MemOk t → ResOk (body t)) :
    MemOk (runForm f w body s) := by
  unfold runForm
  split
  · exact .preciseTrap h
  · split
    · exact .stallAt h
    · have hr := hb _ (MemOk.ite (c := enabled s w = 0) h (.joinTokens (regs := f.reads w) h))
      split
      · next e => rw [e] at hr; exact .finishWord hr
      · exact .preciseTrap h
      · next e => rw [e] at hr; exact .stallAt hr

protected theorem MemOk.runWord {s : State} (h : MemOk s) {i : Instr} {body : SWord → State → Res}
    (hb : ∀ w t, MemOk t → ResOk (body w t)) : MemOk (runWord i body s) := by
  unfold runWord
  split
  · exact h
  · exact .runForm h (hb _)

/-! ### The functions of Machine/Mem -/

protected theorem MemOk.cacheTlb {s : State} (h : MemOk s) {core : Nat} {t : Tlb} : MemOk (cacheTlb s core t) := .ite h (.setCore h)

protected theorem MemOk.noteWrite {s : State} (h : MemOk s) {w : Writer} {key n : Nat} : MemOk (noteWrite w key n s) := .ite h (.frame h)

protected theorem MemOk.garble {s : State} (h : MemOk s) {k pa n : Nat} : MemOk (garble s k pa n) :=
  List.foldlRecOn (motive := fun m => Memory.wf m = true) _ _ h fun _ hm _ _ => memWr_wf hm _ _

protected theorem MemOk.poolWritten {s : State} (h : MemOk s) {key n : Nat} : MemOk (poolWritten s key n) :=
  .ite (.foldl (.ite h (.frame h)) fun _ _ h => .garble h) h

protected theorem MemOk.devWr {s : State} (h : MemOk s) {key : Nat} {bs : List Byte} : MemOk (devWr s key bs) :=
  .noteWrite (.poolWritten (.of_wf (memWrN_wf bs h key)))

protected theorem MemOk.countAdvance {s : State} (h : MemOk s) {vec : Nat} : MemOk (countAdvance s vec) := .ite (.frame h) (.frame h)

protected theorem MemOk.noteTails {s : State} (h : MemOk s) {key n : Nat} : MemOk (noteTails s key n) :=
  .ite h (.foldl h fun _ _ h => .ite (.countAdvance h) h)

protected theorem MemOk.reachSys {s : State} (h : MemOk s) {w : Committed} {rest : List Committed} : MemOk (reachSys s w rest) :=
  .noteTails (.frame h)

protected theorem MemOk.flushSysN {n : Nat} {s : State} (h : MemOk s) : MemOk (flushSysN n s) := by
  induction n generalizing s with
  | zero => exact h
  | succ n ih =>
    unfold flushSysN
    split
    · exact h
    · exact ih (.reachSys h)

protected theorem MemOk.flushSys {s : State} (h : MemOk s) : MemOk (flushSys s) := .flushSysN h

protected theorem MemOk.settleSys {s : State} (h : MemOk s) {key n : Nat} : MemOk (settleSys s key n) := .flushSysN h

protected theorem MemOk.countErrors {s : State} (h : MemOk s) {ce ue : DWord} : MemOk (countErrors s ce ue) := .frame h

protected theorem MemOk.seeDevice {s : State} (h : MemOk s) {core key n : Nat} : MemOk (seeDevice s core key n) :=
  .unless (.ite h (.setCore h)) fun h => .frame h

protected theorem MemOk.reachDie {s : State} (h : MemOk s) {die : Nat} {w : Committed} : MemOk (reachDie s die w) :=
  .ite (.devWr h) (.frame h)

protected theorem MemOk.settleUp {s : State} (h : MemOk s) {core key n : Nat} : MemOk (settleUp s core key n) :=
  .foldl (.setCore h) fun _ _ h => .reachDie h

protected theorem MemOk.markBad {s : State} (h : MemOk s) {ps : List Nat} : MemOk (markBad s ps) := .ite h (.frame h)

protected theorem MemOk.leaveDie {s : State} (h : MemOk s) {bad : List Nat} {ws : List Committed} : MemOk (leaveDie s bad ws) :=
  .markBad (.foldl h fun _ _ h => .devWr h)

protected theorem MemOk.settleDie {s : State} (h : MemOk s) {die key n : Nat} : MemOk (settleDie s die key n) := .leaveDie (.frame h)

protected theorem MemOk.commit {s : State} (h : MemOk s) {core key : Nat} {bs : List Byte} {nc : Bool} : MemOk (commit s core key bs nc) :=
  .ite (.devWr (.settleDie (.settleUp h))) (.setCore h)

protected theorem MemOk.moveToDie {s : State} (h : MemOk s) {core i : Nat} : MemOk (moveToDie s core i) := by
  unfold moveToDie
  dsimp only
  split
  · exact h
  · exact .ite (.reachDie (.setCore h)) h

protected theorem MemOk.moveToDevice {s : State} (h : MemOk s) {die i : Nat} : MemOk (moveToDevice s die i) := by
  unfold moveToDevice
  dsimp only
  split
  · exact h
  · exact .ite (.leaveDie (.frame h)) h

protected theorem MemOk.moveToSystem {s : State} (h : MemOk s) {i : Nat} : MemOk (moveToSystem s i) := by
  unfold moveToSystem
  split
  · exact h
  · exact .ite (.reachSys h) h

protected theorem MemOk.flushDie {s : State} (h : MemOk s) {core : Nat} : MemOk (flushDie s core) :=
  .foldl (.setCore h) fun _ _ h => .reachDie h

protected theorem MemOk.flushDevice {s : State} (h : MemOk s) {die : Nat} : MemOk (flushDevice s die) := .leaveDie (.frame h)

protected theorem MemOk.flush {s : State} (h : MemOk s) {core : Nat} {sc : Scope} : MemOk (flush s core sc) :=
  .ite h (.ite (.flushDie h) (.unless (.flushDevice (.flushDie h)) fun h => .flushSys h))

protected theorem MemOk.dropConsts {s : State} (h : MemOk s) {k : Nat} {sc : Scope} : MemOk (dropConsts s k sc) :=
  .unless (.ite h (.setStrand h)) fun h => .frame h

protected theorem MemOk.dropHeld {s : State} (h : MemOk s) {cord key n : Nat} : MemOk (dropHeld s cord key n) := .ite h (.frame h)

protected theorem MemOk.commitStore {s : State} (h : MemOk s) {core cord : Nat} {who : Writer} {q : QStore} :
    MemOk (commitStore s core cord who q) :=
  .ite (.setCord h) (.when (.noteWrite (.commit (.flush h))) fun h => .dropHeld h)

protected theorem MemOk.commitFirst {s : State} (h : MemOk s) {k : Nat} : MemOk (commitFirst s k) :=
  .foldl (.setStrand h) fun _ _ h => .commitStore h

protected theorem MemOk.drain {s : State} (h : MemOk s) {k : Nat} : MemOk (drain s k) :=
  .ite h (.foldl (.setStrand h) fun _ _ h => .commitStore h)

protected theorem MemOk.release {s : State} (h : MemOk s) {sc : Scope} : MemOk (release s sc) := .ite h (.flush (.drain h))

protected theorem MemOk.acquire {s : State} (h : MemOk s) {sc : Scope} : MemOk (acquire s sc) := .refresh h

protected theorem MemOk.setObj {s : State} (h : MemOk s) {job i : Nat} {o : Obj} : MemOk (setObj s job i o) := .devWr h

protected theorem MemOk.scratchWr {s : State} (h : MemOk s) {cord off : Nat} {bs : List Byte} : MemOk (scratchWr s cord off bs) :=
  .setCord h

/-! ### The functions of Machine/Operands -/

protected theorem MemOk.result {s : State} (h : MemOk s) {w : SWord} {cls : Cls} {n : Nat} {f : Lane → DWord × Flags} :
    MemOk (result w cls n f s) :=
  .orFlags (.setMe h)

protected theorem ResOk.lanes {s : State} (h : MemOk s) {cls : Cls} {n : SWord → Nat} {f : SWord → State → Lane → DWord × Flags}
    {w : SWord} : ResOk (lanes cls n f w s) :=
  .done (.result h)

protected theorem ResOk.predResult {s : State} (h : MemOk s) {f : SWord → State → Lane → Bool × Flags} {w : SWord} :
    ResOk (predResult f w s) :=
  .done (.orFlags (.setMe h))

protected theorem MemOk.putPred {s : State} (h : MemOk s) {w : SWord} {i : Nat} {v : Bool} : MemOk (putPred s w i v) := .setMe h

protected theorem MemOk.putD {s : State} (h : MemOk s) {w : SWord} {n : Nat} {v : DWord} : MemOk (putD s w n v) := .setMe h

protected theorem ResOk.once {f : SWord → Lane → State → Res} {w : SWord} {s : State} (h : MemOk s)
    (hf : ∀ w l s, MemOk s → ResOk (f w l s)) : ResOk (once f w s) := by
  unfold once
  split
  · exact .done h
  · exact hf _ _ _ h

protected theorem ResOk.int1 {s : State} (h : MemOk s) {f : SWord → (n : Nat) → BitVec n → BitVec n} {w : SWord} : ResOk (int1 f w s) :=
  .lanes h

protected theorem ResOk.int2 {s : State} (h : MemOk s) {f : SWord → (n : Nat) → BitVec n → BitVec n → BitVec n} {w : SWord} :
    ResOk (int2 f w s) :=
  .lanes h

protected theorem ResOk.int3 {s : State} (h : MemOk s) {f : SWord → (n : Nat) → BitVec n → BitVec n → BitVec n → BitVec n} {w : SWord} :
    ResOk (int3 f w s) :=
  .lanes h

protected theorem ResOk.word3 {s : State} (h : MemOk s) {f : SWord → Word → Word → Word → Word} {w : SWord} : ResOk (word3 f w s) :=
  .lanes h

/-! ### The functions of Machine/Alu -/

protected theorem ResOk.iaddcBody {s : State} (h : MemOk s) {w : SWord} : ResOk (iaddcBody w s) := .done (.setMe h)

protected theorem ResOk.shift {s : State} (h : MemOk s) {f : (n : Nat) → BitVec n → BitVec n → BitVec n} {w : SWord} :
    ResOk (shift f w s) :=
  .lanes h

protected theorem ResOk.bitCount {s : State} (h : MemOk s) {f : (n : Nat) → BitVec n → Nat} {w : SWord} : ResOk (bitCount f w s) := .lanes h

protected theorem ResOk.pmovBody {s : State} (h : MemOk s) {w : SWord} : ResOk (pmovBody w s) := by
  unfold pmovBody
  split <;> exact .done (.setMe h)

/-! ### The functions of Machine/Float -/

protected theorem ResOk.flWord {s : State} (h : MemOk s) {cls : Cls} {g : SWord → Fmt → Nat → Nat → Nat → Nat × Flags} {w : SWord} :
    ResOk (flWord cls g w s) :=
  .lanes h

protected theorem ResOk.fdot4Body {s : State} (h : MemOk s) {w : SWord} : ResOk (fdot4Body w s) := by
  unfold fdot4Body
  dsimp only
  split
  · exact .trap
  · exact .lanes h

protected theorem ResOk.xuWord {s : State} (h : MemOk s) {g : Word → Word × Flags} {w : SWord} : ResOk (xuWord g w s) := .lanes h

/-! ### The functions of Machine/Convert -/

protected theorem ResOk.cvneBody {s : State} (h : MemOk s) {w : SWord} : ResOk (cvneBody w s) := by
  unfold cvneBody
  dsimp only
  split
  · exact .trap
  · exact .lanes h

protected theorem ResOk.cvndBody {s : State} (h : MemOk s) {w : SWord} : ResOk (cvndBody w s) := by
  unfold cvndBody
  dsimp only
  split
  · exact .trap
  · exact .lanes h

protected theorem ResOk.bsclBody {s : State} (h : MemOk s) {w : SWord} : ResOk (bsclBody w s) := by
  unfold bsclBody
  dsimp only
  split
  · exact .lanes h
  · split
    · exact .trap
    · exact .lanes h

/-! ### The functions of Machine/CrossLane -/

protected theorem ResOk.crossLane {s : State} (h : MemOk s) {f : SWord → State → Lane → DWord} {n : SWord → Nat} {w : SWord} :
    ResOk (crossLane f n w s) :=
  .done (.result h)

protected theorem ResOk.rxchBody {s : State} (h : MemOk s) {w : SWord} : ResOk (rxchBody w s) := .done (.setMe h)

protected theorem ResOk.lputBody {s : State} (h : MemOk s) {w : SWord} : ResOk (lputBody w s) := .done (.setMe h)

protected theorem ResOk.voteBody {s : State} (h : MemOk s) {w : SWord} : ResOk (voteBody w s) := by
  unfold voteBody
  split
  · exact .done (.result h)
  · exact .done (.result h)
  · exact .done (.setMe h)
  · exact .done (.setMe h)

protected theorem ResOk.redlBody {s : State} (h : MemOk s) {w : SWord} : ResOk (redlBody w s) := .done (.result h)

protected theorem ResOk.scanlBody {s : State} (h : MemOk s) {w : SWord} : ResOk (scanlBody w s) := .done (.result h)

/-! ### The functions of Machine/Control -/

protected theorem ResOk.jumpTo {s : State} (h : MemOk s) {link : Bool} {w : SWord} : ResOk (jumpTo link w s) :=
  .done (.faultLanes (.transfer (.ite (.setMe h) h)))

protected theorem ResOk.braBody {s : State} (h : MemOk s) {w : SWord} : ResOk (braBody w s) := .done (.transfer h)

protected theorem ResOk.callBody {s : State} (h : MemOk s) {w : SWord} : ResOk (callBody w s) := .done (.transfer (.setMe h))

protected theorem ResOk.joinBody {s : State} (h : MemOk s) {w : SWord} : ResOk (joinBody w s) := .done (.setMe h)

protected theorem ResOk.meetBody {s : State} (h : MemOk s) {w : SWord} : ResOk (meetBody w s) := by
  unfold meetBody
  dsimp only
  split
  · exact .trap
  · exact .done (.setClause (.setMe (.parkClause (.setMe h))))

protected theorem ResOk.exitBody {s : State} (h : MemOk s) {w : SWord} : ResOk (exitBody w s) := .done (.exitThreads (.leaveClause h))

protected theorem ResOk.trapBody {s : State} (h : MemOk s) {code : TrapCode} {w : SWord} : ResOk (trapBody code w s) := by
  unfold trapBody
  split
  · exact .done h
  · exact .trap

protected theorem ResOk.yieldBody {s : State} (h : MemOk s) {w : SWord} : ResOk (yieldBody w s) := .done (.transfer h)

protected theorem MemOk.passToken {s : State} (h : MemOk s) : MemOk (passToken s) := by
  unfold passToken
  dsimp only
  split
  · exact .setCord (.setMyCord h)
  · exact h

protected theorem ResOk.bdecBody {s : State} (h : MemOk s) {w : SWord} : ResOk (bdecBody w s) := .done (.transfer (.setMe h))

/-! ### The functions of Machine/Hitch -/

protected theorem MemOk.modWake {s : State} (h : MemOk s) {k : Nat} {f : Strand → Strand} : MemOk (modWake s k f) := .setStrand h

/-! ### The functions of Machine/Special -/

protected theorem MemOk.writeSpecial {s : State} (h : MemOk s) {i : Nat} {v : Word} : MemOk (writeSpecial i v s) := by
  unfold writeSpecial
  split
  · exact .setMyCord h
  · exact .setMyCord h
  · exact .setMe h
  · exact .frame h
  · exact .setMyCord h

protected theorem ResOk.swrBody {s : State} (h : MemOk s) {w : SWord} : ResOk (swrBody w s) := by
  unfold swrBody
  refine .once h fun w l s h => ?_
  dsimp only
  split
  · exact .trap
  · exact .done (.writeSpecial h)

protected theorem ResOk.sflgBody {s : State} (h : MemOk s) {w : SWord} : ResOk (sflgBody w s) := by
  unfold sflgBody
  refine .once h fun w l s h => ?_
  split <;> exact .done (.setMyCord h)

/-! ### The functions of Machine/Memory -/

protected theorem MemOk.cachePlace {s : State} (h : MemOk s) {p : Place} : MemOk (cachePlace s p) := by
  unfold cachePlace
  dsimp only
  split
  · split
    · exact .seeDevice (.cacheTlb h)
    · exact .seeDevice h
  · split
    · exact .cacheTlb h
    · exact h

protected theorem MemOk.cachePlaces {s : State} (h : MemOk s) {ps : List Acc} : MemOk (cachePlaces s ps) :=
  .foldl h fun _ _ h => .cachePlace h

protected theorem MemOk.faultHere {s : State} (h : MemOk s) {c : Clause} {fs : List (Lane × TrapCode × DWord × DWord)} :
    MemOk (faultHere s c fs) :=
  .faultLanes h

protected theorem ResOk.loadWith {s : State} (h : MemOk s) {flawed : State → Acc → Bool} {z : Nat} {one : Bool}
    {ts : List (Lane × DWord × Except TrapCode Place)} {rd : State → Acc → List Byte} {extra : LaneMask → (Lane → Nat) → List PendWrite}
    {w : SWord} : ResOk (loadWith flawed z one ts rd extra w s) :=
  .done (.faultHere (.cachePlaces (.setMe h)))

protected theorem ResOk.ldBody {s : State} (h : MemOk s) {w : SWord} : ResOk (ldBody w s) := .loadWith h

protected theorem ResOk.ldsWith {s : State} (h : MemOk s) {z : Nat} {extra : LaneMask → (Lane → Nat) → List PendWrite} {w : SWord} :
    ResOk (ldsWith z extra w s) :=
  .loadWith h

protected theorem ResOk.ldcBody {s : State} (h : MemOk s) {w : SWord} : ResOk (ldcBody w s) := .loadWith h

protected theorem ResOk.ldaqBody {s : State} (h : MemOk s) {w : SWord} : ResOk (ldaqBody w s) :=
  .done (.unless (.faultHere (.cachePlaces (.setMe h))) fun h => .refresh h)

protected theorem MemOk.enqueue {s : State} (h : MemOk s) {scratch : Bool} {rel : Scope} {data : Lane → List Byte} {good : List Acc} :
    MemOk (enqueue s scratch rel data good) :=
  .setMe h

protected theorem ResOk.storeWith {s : State} (h : MemOk s) {scratch : Bool} {rel : Scope} {one : Bool}
    {ts : List (Lane × DWord × Except TrapCode Place)} {data : Lane → List Byte} {w : SWord} :
    ResOk (storeWith scratch rel one ts data w s) :=
  .done (.faultHere (.cachePlaces (.enqueue h)))

protected theorem ResOk.stBody {s : State} (h : MemOk s) {rel : SWord → Scope} {w : SWord} : ResOk (stBody rel w s) := .storeWith h

protected theorem ResOk.stsBody {s : State} (h : MemOk s) {w : SWord} : ResOk (stsBody w s) := .storeWith h

protected theorem ResOk.ldlBody {s : State} (h : MemOk s) {w : SWord} : ResOk (ldlBody w s) := by
  unfold ldlBody
  split
  · exact .ldsWith h
  · exact .loadWith h

protected theorem ResOk.stlbBody {s : State} (h : MemOk s) {w : SWord} : ResOk (stlbBody w s) := by
  unfold stlbBody
  split <;> exact .storeWith h

protected theorem MemOk.atomicAt {s : State} (h : MemOk s) {core : Nat} {sc : Scope} {p : Place} {n : Nat}
    {f : List Byte → Option (List Byte)} : MemOk (atomicAt s core sc p n f).2 := by
  unfold atomicAt
  dsimp only
  split
  · split
    · exact .commit h
    · exact h
  · split
    · split
      · exact .reachDie (.settleUp h)
      · exact .settleUp h
    · split
      · split
        · exact .settleSys (.devWr (.settleDie (.settleUp h)))
        · exact .settleSys (.settleDie (.settleUp h))
      · split
        · exact .devWr (.settleDie (.settleUp h))
        · exact .settleDie (.settleUp h)

protected theorem MemOk.atomicScratch {s : State} (h : MemOk s) {off n : Nat} {f : List Byte → Option (List Byte)} :
    MemOk (atomicScratch s off n f).2 := by
  unfold atomicScratch
  dsimp only
  split
  · exact .scratchWr h
  · exact h

protected theorem MemOk.serveAtomics {upd : State → Acc → List Byte × State} {as : List Acc} {s : State} (h : MemOk s)
    (hu : ∀ s a, MemOk s → MemOk (upd s a).2) : MemOk (serveAtomics upd as s).2 := by
  induction as generalizing s with
  | nil => exact h
  | cons a as ih => exact ih (hu s a h)

protected theorem ResOk.atomicWith {s : State} (h : MemOk s) {scratch reads : Bool} {z : Nat} {sc : Scope} {rel acq : Bool}
    {upd : List Byte → Lane → Option (List Byte)} {extra : LaneMask → (Lane → Nat) → List PendWrite} {w : SWord} :
    ResOk (atomicWith scratch reads z sc rel acq upd extra w s) := by
  unfold atomicWith
  dsimp only
  split
  · exact .done h
  · refine .done (.faultHere (.setMe (.when (.serveAtomics (.when (.cachePlaces (.drain h)) fun h => .release h) fun t a ht => ?_)
      fun h => .acquire h)))
    split
    · exact .atomicScratch ht
    · exact .when (.atomicAt ht) fun h => .noteWrite h

protected theorem ResOk.atomBody {s : State} (h : MemOk s) {w : SWord} : ResOk (atomBody w s) := .atomicWith h

protected theorem ResOk.casBody {s : State} (h : MemOk s) {w : SWord} : ResOk (casBody w s) := .atomicWith h

protected theorem ResOk.atomsBody {s : State} (h : MemOk s) {w : SWord} : ResOk (atomsBody w s) := .atomicWith h

protected theorem ResOk.fxaddBody {s : State} (h : MemOk s) {w : SWord} : ResOk (fxaddBody w s) := by
  unfold fxaddBody
  dsimp only
  split
  · next e => exact .done (.orFlags ((ResOk.atomicWith h).of_eq e))
  · exact .atomicWith h

protected theorem ResOk.fenceBody {s : State} (h : MemOk s) {w : SWord} : ResOk (fenceBody w s) := by
  unfold fenceBody
  split
  · exact .done h
  · exact .done (.dropConsts (.unless (.ite h (.release h)) fun h => .acquire h))

/-! ### The functions of Machine/Events -/

protected theorem MemOk.raiseSticky {s : State} (h : MemOk s) {cord k : Nat} {passing : List Nat} :
    MemOk (raiseSticky s cord k passing) := by
  unfold raiseSticky
  dsimp only
  split
  · exact h
  · split
    · exact h
    · exact .recordTrap (.foldl (.setCord h) fun _ _ h => .setStrand h)

protected theorem MemOk.completePhase {s : State} (h : MemOk s) {cord k : Nat} {passer : Option Nat} :
    MemOk (completePhase s cord k passer) :=
  .raiseSticky (.foldl (.setCord h) fun _ _ h => .setStrand h)

protected theorem MemOk.checkPhase {s : State} (h : MemOk s) {cord k : Nat} {passer : Option Nat} : MemOk (checkPhase s cord k passer) :=
  .ite (.completePhase h) h

protected theorem MemOk.arriveStrand {s : State} (h : MemOk s) {cord k i : Nat} {passes : Bool} : MemOk (arriveStrand s cord k i passes) :=
  .ite h (.checkPhase (.setCord h))

protected theorem MemOk.engineNames {s : State} (h : MemOk s) {cord k : Nat} : MemOk (engineNames s cord k) := .setCord h

protected theorem MemOk.arriveEngine {s : State} (h : MemOk s) {cord k : Nat} : MemOk (arriveEngine s cord k) := .checkPhase (.setCord h)

protected theorem ResOk.barBody {s : State} (h : MemOk s) {w : SWord} : ResOk (barBody w s) := by
  unfold barBody
  dsimp only
  split
  · exact .done h
  · exact .wait h
  · refine .once h fun w l s h => ?_
    split
    · split
      · exact .wait (.arriveStrand (.release h))
      · exact .done (.arriveStrand (.release h))
    · exact .wait (.arriveStrand (.release h))

protected theorem ResOk.baraBody {s : State} (h : MemOk s) {w : SWord} : ResOk (baraBody w s) :=
  .once h fun _ _ _ h => .done (.arriveStrand (.release (.putD h)))

protected theorem ResOk.barwBody {s : State} (h : MemOk s) {w : SWord} : ResOk (barwBody w s) := by
  unfold barwBody
  dsimp only
  split
  · exact .done h
  · refine .once h fun w l s h => ?_
    split
    · exact .wait h
    · exact .done h

protected theorem ResOk.barxBody {s : State} (h : MemOk s) {w : SWord} : ResOk (barxBody w s) :=
  .once h fun _ _ _ h => .done (.checkPhase (.setMyCord h))

protected theorem MemOk.takeBlock {s : State} (h : MemOk s) : MemOk (takeBlock s) := .setMyCore (.setMe h)

protected theorem ResOk.xacqBody {s : State} (h : MemOk s) {w : SWord} : ResOk (xacqBody w s) := by
  unfold xacqBody
  dsimp only
  split
  · exact .trap
  · refine .once h fun w l s h => ?_
    split
    · exact .done (.ite (.putPred h) h)
    · split
      · exact .done (.when (.takeBlock h) fun h => .putPred h)
      · split
        · exact .done (.putPred h)
        · exact .wait (.ite h (.setMyCore h))

protected theorem ResOk.xrelBody {s : State} (h : MemOk s) {w : SWord} : ResOk (xrelBody w s) :=
  .once h fun _ _ _ h => .done (.setMe (.settleAll h))

protected theorem ResOk.wanyBody {s : State} (h : MemOk s) {w : SWord} : ResOk (wanyBody w s) := by
  unfold wanyBody
  refine .once h fun w l s h => ?_
  dsimp only
  split
  · exact .done (.setMe h)
  · split
    · exact .done (.leaveClause (.setMe h))
    · exact .done (.parkClause (.setMe h))

protected theorem ResOk.evbBody {s : State} (h : MemOk s) {w : SWord} : ResOk (evbBody w s) := .once h fun _ _ _ h => .done (.setMe h)

protected theorem ResOk.evmBody {s : State} (h : MemOk s) {w : SWord} : ResOk (evmBody w s) := .once h fun _ _ _ h => .done (.setMe h)

protected theorem ResOk.evpBody {s : State} (h : MemOk s) {w : SWord} : ResOk (evpBody w s) :=
  .once h fun _ _ _ h => .done (.setMe (.putD h))

protected theorem ResOk.evcBody {s : State} (h : MemOk s) {w : SWord} : ResOk (evcBody w s) := .once h fun _ _ _ h => .done (.setMe h)

protected theorem MemOk.postDevice {s : State} (h : MemOk s) {k : Nat} {m : DWord} : MemOk (postDevice s k m) := .modWake h

protected theorem ResOk.mpostBody {s : State} (h : MemOk s) {w : SWord} : ResOk (mpostBody w s) := by
  unfold mpostBody
  refine .once h fun w l s h => ?_
  dsimp only
  split
  · exact .done (.putPred (.release h))
  · split
    · exact .done (.putPred (.when (.release h) fun h => .modWake h))
    · exact .done (.putPred (.modWake (.when (.release h) fun h => .modWake h)))

protected theorem ResOk.mtakeBody {s : State} (h : MemOk s) {w : SWord} : ResOk (mtakeBody w s) := by
  unfold mtakeBody
  refine .once h fun w l s h => ?_
  dsimp only
  split
  · exact .done (.putPred (.putD h))
  · exact .done (.putPred (.putD (.setMe h)))

protected theorem ResOk.mcntBody {s : State} (h : MemOk s) {w : SWord} : ResOk (mcntBody w s) := .once h fun _ _ _ h => .done (.putD h)

protected theorem MemOk.writeToken {s : State} (h : MemOk s) {k : Nat} {tok : Option Nat} {v : Word} {scope : Nat} :
    MemOk (writeToken s k tok v scope) := by
  unfold writeToken
  split
  · exact h
  · exact .modWake h

protected theorem MemOk.startToken {s : State} (h : MemOk s) {w : SWord} : MemOk (startToken s w) := by
  unfold startToken
  split
  · exact .setMe h
  · exact h

protected theorem ResOk.sleepBody {s : State} (h : MemOk s) {w : SWord} : ResOk (sleepBody w s) := by
  unfold sleepBody
  refine .once h fun w l s h => ?_
  dsimp only
  split
  · exact .done h
  · exact .done (.parkClause (.setMe h))

protected theorem OutOk.execSleepExpiry {s : State} (h : MemOk s) : OutOk (execSleepExpiry s) := by
  unfold execSleepExpiry
  dsimp only
  split
  · exact .next (.setMe h)
  · exact .next h

protected theorem OutOk.execLongLatencyResult {s : State} (h : MemOk s) : OutOk (execLongLatencyResult s) := by
  unfold execLongLatencyResult
  dsimp only
  split
  · exact .next (.frame (.betweenWords (.settle h)))
  · exact .next h

protected theorem MemOk.commitCapstan {s : State} (h : MemOk s) {core : Nat} : MemOk (commitCapstan s core) := by
  unfold commitCapstan
  split
  · exact h
  · split
    · exact h
    · exact .commitStore (.setCore h)

/-! ### The functions of Machine/Tilth -/

protected theorem MemOk.endObject {s : State} (h : MemOk s) {job i : Nat} {o : Obj} : MemOk (endObject s job i o) := .frame (.setObj h)

protected theorem MemOk.linkFree {s : State} (h : MemOk s) {job i : Nat} : MemOk (linkFree s job i) := .ite (.setObj h) h

protected theorem MemOk.relink {s : State} (h : MemOk s) {job i : Nat} : MemOk (relink s job i) := .foldl h fun _ _ h => .linkFree h

protected theorem MemOk.returnObject {s : State} (h : MemOk s) {job i : Nat} : MemOk (returnObject s job i) :=
  .ite (.relink (.frame (.setObj h))) h

protected theorem MemOk.returnAll {s : State} (h : MemOk s) {job : Nat} : MemOk (returnAll s job) :=
  .foldl h fun _ _ h => .ite (.returnObject h) h

protected theorem MemOk.reclaimFrom {job tier n : Nat} {s : State} (h : MemOk s) : MemOk (reclaimFrom job tier n s) := by
  induction n generalizing s with
  | zero => exact h
  | succ n ih =>
    unfold reclaimFrom
    split
    · split
      · exact h
      · exact ih (.returnObject (.endObject h))
    · exact h

protected theorem MemOk.reclaim {s : State} (h : MemOk s) {job tier : Nat} : MemOk (reclaim s job tier) := .reclaimFrom (.returnAll h)

protected theorem MemOk.noteLow {s : State} (h : MemOk s) {free job tier : Nat} : MemOk (noteLow free s job tier) := .ite (.frame h) h

protected theorem SomeOk.changeCount {s : State} (h : MemOk s) {job i : Nat} {strong up : Bool} :
    SomeOk id (changeCount s job i strong up) := by
  unfold changeCount
  dsimp only
  split
  · split
    · split
      · exact .none
      · exact .some (.setObj h)
    · split
      · exact .none
      · exact .some (.setObj h)
  · split
    · split
      · exact .none
      · exact .some (.ite (.endObject h) (.setObj h))
    · split
      · exact .none
      · exact .some (.ite (.endObject h) (.setObj h))

protected theorem MemOk.zeroRange {s : State} (h : MemOk s) {key n : Nat} : MemOk (zeroRange s key n) := by
  unfold zeroRange
  have hs : MemOk (noteWrite .unit key n (settleSys s key n)) := .noteWrite (.settleSys h)
  exact .poolWritten (.of_wf (memFilter_wf hs _))

protected theorem MemOk.makeObject {s : State} (h : MemOk s) {job i tier cls pri addr : Nat} :
    MemOk (makeObject s job i tier cls pri addr).2 :=
  .noteLow (.relink (.frame (.setObj (.zeroRange h))))

protected theorem SomeOk.allocateNow {s : State} (h : MemOk s) {job tier cls pri : Nat} :
    SomeOk (·.2) (allocateNow s job tier cls pri) := by
  unfold allocateNow
  split
  · exact .some (.makeObject h)
  · exact .none

protected theorem SomeOk.allocate {s : State} (h : MemOk s) {job tier cls pri : Nat} : SomeOk (·.2) (allocate s job tier cls pri) := by
  unfold allocate
  dsimp only
  split
  · exact .none
  · exact .allocateNow (.when (.returnAll h) fun h => .reclaim h)

protected theorem MemOk.afterFailed {s : State} (h : MemOk s) {job tier : Nat} : MemOk (afterFailed s job tier) := by
  unfold afterFailed
  dsimp only
  split
  · exact .returnAll h
  · exact .reclaim (.returnAll h)

protected theorem MemOk.moveQueued {s : State} (h : MemOk s) {old new n : Nat} : MemOk (moveQueued s old new n) := .frame h

protected theorem SomeOk.changeTier {s : State} (h : MemOk s) {job i tier : Nat} : SomeOk id (changeTier s job i tier) := by
  unfold changeTier
  extract_lets o u v key free
  split
  · exact .none
  · split
    · exact .some h
    · have hu : MemOk u := .ite (.reclaim h) h
      clear_value u
      split
      · exact .none
      · next a _ =>
        extract_lets moved bad w x
        have hv : MemOk v := .foldl (.foldl hu fun _ _ h => .flushDie h) fun _ _ h => .flushDevice h
        have hx : MemOk x := .moveQueued (.foldl (.zeroRange hv) fun _ _ h => .devWr h)
        clear_value x
        exact .some (.noteLow (.setObj (.frame hx)))

protected theorem MemOk.btKeep {s : State} (h : MemOk s) {core job : Nat} {table : DWord} {i : Nat} {x : DWord} :
    MemOk (btKeep s core job table i x) :=
  .setCore h

protected theorem ExceptOk.btLookup {s : State} (h : MemOk s) {core job : Nat} {table : DWord} {i n : Nat} {sees : Bool} :
    ExceptOk (·.2) (btLookup s core job table i n sees) := by
  unfold btLookup
  dsimp only
  split
  · exact .error
  · split
    · split
      · exact .ok (.btKeep (.cacheTlb h))
      · exact .ok (.btKeep h)
    · split
      · split
        · exact .error
        · exact .ok (.btKeep (.when (.cacheTlb h) fun h => .seeDevice h))
      · split
        · exact .error
        · exact .ok (.btKeep (.ite (.seeDevice h) h))

protected theorem OutOk.execBtinvComplete {s : State} (h : MemOk s) : OutOk (execBtinvComplete s) := by
  unfold execBtinvComplete
  split
  · exact .next h
  · split
    · exact .next h
    · exact .next (.writeToken (.frame h))

/-! ### The functions of Machine/Objects -/

protected theorem MemOk.serveLanes {f : State → Lane → LaneRes} {ls : List Lane} {s : State} (h : MemOk s)
    (hf : ∀ s l, MemOk s → LaneResOk (f s l)) : MemOk (serveLanes f ls s).2.2 := by
  induction ls generalizing s with
  | nil => exact h
  | cons l ls ih =>
    unfold serveLanes
    have hl := hf s l h
    split
    · next e => rw [e] at hl; exact ih hl
    · next e => rw [e] at hl; exact ih hl

protected theorem ResOk.objectWord {s : State} (h : MemOk s) {one : Bool} {order : List Lane → List Lane} {regs : Nat} {pred : Option Nat}
    {f : State → Lane → LaneRes} {w : SWord} (hf : ∀ s l, MemOk s → LaneResOk (f s l)) : ResOk (objectWord one order regs pred f w s) :=
  .done (.faultHere (.setMe (.serveLanes h hf)))

protected theorem MemOk.ldwSee {s : State} (h : MemOk s) {x : LdwFound} : MemOk (ldwSee s x) := by
  unfold ldwSee
  split
  · exact .seeDevice h
  · exact h

protected theorem ResOk.ldwBody {s : State} (h : MemOk s) {w : SWord} : ResOk (ldwBody w s) :=
  .done (.faultHere (.setMe (.foldl h fun _ _ h => .ldwSee h)))

protected theorem LaneResOk.oupgLane {s : State} (h : MemOk s) {s0 : State} {w : SWord} {l : Lane} : LaneResOk (oupgLane w s0 s l) := by
  unfold oupgLane
  dsimp only
  split
  · exact .done h
  · exact .done h
  · exact .fault h
  · split
    · exact .fault h
    · next e1 => exact .done (.setObj (.frame ((SomeOk.changeCount h).of_eq e1)))

protected theorem ResOk.oupgBody {s : State} (h : MemOk s) {w : SWord} : ResOk (oupgBody w s) := by
  unfold oupgBody
  split
  · next e => exact .done (.unless ((ResOk.objectWord h fun _ _ h => .oupgLane h).of_eq e) fun h => .acquire h)
  · exact .objectWord h fun _ _ h => .oupgLane h

protected theorem LaneResOk.countLane {s : State} (h : MemOk s) {s0 : State} {r : WeakRule} {strong up quiet : Bool} {w : SWord}
    {l : Lane} : LaneResOk (countLane r strong up quiet w s0 s l) := by
  unfold countLane
  dsimp only
  split
  · exact .done h
  · split
    · exact .done h
    · exact .fault h
  · exact .fault h
  · split
    · exact .fault h
    · next e1 => exact .done ((SomeOk.changeCount h).of_eq e1)

protected theorem ResOk.orelBody {s : State} (h : MemOk s) {w : SWord} : ResOk (orelBody w s) := by
  unfold orelBody
  exact .objectWord (.ite h (.release h)) fun _ _ h => .countLane h

protected theorem ResOk.owkBody {s : State} (h : MemOk s) {w : SWord} : ResOk (owkBody w s) := .objectWord h fun _ _ h => .countLane h

protected theorem ResOk.owdBody {s : State} (h : MemOk s) {w : SWord} : ResOk (owdBody w s) := .objectWord h fun _ _ h => .countLane h

protected theorem LaneResOk.onewLane {s : State} (h : MemOk s) {w : SWord} {l : Lane} : LaneResOk (onewLane w s l) := by
  unfold onewLane
  dsimp only
  split
  · next e => exact .done ((SomeOk.allocate h).of_eq e)
  · exact .done (.afterFailed h)

protected theorem ResOk.onewBody {s : State} (h : MemOk s) {w : SWord} : ResOk (onewBody w s) := by
  unfold onewBody
  split
  · next e => exact .done (.unless ((ResOk.objectWord h fun _ _ h => .onewLane h).of_eq e) fun h => .acquire h)
  · exact .objectWord h fun _ _ h => .onewLane h

protected theorem LaneResOk.opriLane {s : State} (h : MemOk s) {s0 : State} {w : SWord} {l : Lane} : LaneResOk (opriLane w s0 s l) := by
  unfold opriLane
  dsimp only
  split
  · exact .done h
  · exact .done h
  · exact .fault h
  · exact .done (.setObj h)

protected theorem ResOk.opriBody {s : State} (h : MemOk s) {w : SWord} : ResOk (opriBody w s) := .objectWord h fun _ _ h => .opriLane h

protected theorem SomeOk.allocPages {tier pri n : Nat} {s : State} (h : MemOk s) : SomeOk (·.2) (allocPages s tier pri n) := by
  induction n generalizing s with
  | zero => exact .some h
  | succ n ih =>
    unfold allocPages
    split
    · exact .none
    · next e => exact .map (ih ((SomeOk.allocateNow h).of_eq e)) fun _ h => h

protected theorem MemOk.putHandles {ps : List Place} {hs : List DWord} {s : State} (h : MemOk s) : MemOk (putHandles s ps hs) := by
  induction ps generalizing s hs with
  | nil => exact h
  | cons p ps ih =>
    cases hs with
    | nil => exact h
    | cons x hs => exact ih (.noteWrite (.atomicAt h))

protected theorem AppEndOk.appFrom {base : DWord} {k n : Nat} {s : State} (h : MemOk s) : AppEndOk (appFrom base k n s) := by
  induction k generalizing n s with
  | zero => exact .served h
  | succ k ih =>
    unfold appFrom
    extract_lets a
    split
    · exact .fault h
    · split
      · exact .fault h
      · extract_lets u e v pressure t
        have hu : MemOk u := by
          unfold u
          split
          · exact .cacheTlb h
          · exact h
        have hv : MemOk v := .returnAll hu
        have ht : MemOk t := .ite hv (.reclaim hv)
        have hp : ∀ x, MemOk x → AppEndOk (pressure x) := fun _ hx => .served (.postDevice hx)
        clear_value u v pressure t
        split
        · exact .fault hu
        · exact .fault hu
        · split
          · exact .fault hu
          · split
            · exact .fault hu
            · split
              · exact hp _ hv
              · split
                · next ha => exact ih (.putHandles ((SomeOk.allocPages ht).of_eq ha))
                · exact hp _ ht

protected theorem ResOk.oappBody {s : State} (h : MemOk s) {w : SWord} : ResOk (oappBody w s) := by
  unfold oappBody
  refine .once h fun w l s h => ?_
  split
  · next e => exact .done (.putD ((AppEndOk.appFrom (.drain h)).of_eq e))
  · next e => exact .done (.faultHere (.when ((AppEndOk.appFrom (.drain h)).of_eq e) fun h => .putD h))

protected theorem ResOk.btinvBody {s : State} (h : MemOk s) {w : SWord} : ResOk (btinvBody w s) := by
  unfold btinvBody
  refine .once h fun w l s h => ?_
  split
  · exact .wait h
  · exact .done (.frame (.startToken (.release h)))

protected theorem LaneResOk.btldLane {s : State} (h : MemOk s) {s0 : State} {w : SWord} {l : Lane} : LaneResOk (btldLane w s0 s l) := by
  unfold btldLane
  dsimp only
  split
  · exact .fault h
  · split
    · exact .fault h
    · next e1 =>
      split
      · exact .done ((ExceptOk.btLookup h).of_eq e1)
      · split
        · exact .done ((ExceptOk.btLookup h).of_eq e1)
        · exact .fault ((ExceptOk.btLookup h).of_eq e1)

protected theorem ResOk.btldBody {s : State} (h : MemOk s) {w : SWord} : ResOk (btldBody w s) := .objectWord h fun _ _ h => .btldLane h

/-! ### The functions of Machine/CopyRow -/

protected theorem MemOk.agentWr {s : State} (h : MemOk s) {g : Agent} {p : Place} {bs : List Byte} : MemOk (Agent.wr g s p bs) := by
  unfold Agent.wr
  split
  · exact .noteWrite (.commit h)
  · exact .devWr h

protected theorem MemOk.agentKeep {s : State} (h : MemOk s) {g : Agent} {p : Place} : MemOk (Agent.keep g s p) := by
  unfold Agent.keep
  split
  · exact .cacheTlb h
  · exact h

protected theorem MemOk.agentWrAll {g : Agent} {ps : List (Place × Nat)} {bs : List Byte} {s : State} (h : MemOk s) :
    MemOk (g.wrAll s ps bs) := by
  induction ps generalizing s bs with
  | nil => exact h
  | cons p ps ih => exact ih (.agentKeep (.agentWr h))

protected theorem SomeOk.writeSlots {s : State} (h : MemOk s) {g : Agent} {d : TDesc} {e : Elem} {pin : Option Pin} {r c n v : Nat} :
    SomeOk id (writeSlots s g d e pin r c n v) := by
  unfold writeSlots
  dsimp only
  split
  · exact .some h
  · split
    · exact .some h
    · exact .none
    · exact .some (.agentWrAll h)

protected theorem SomeOk.writeScales {g : Agent} {d : TDesc} {pin : Option Pin} {r b : Nat} {ts : List Nat} {s : State} (h : MemOk s) :
    SomeOk id (writeScales g d pin r b ts s) := by
  induction ts generalizing s b with
  | nil => exact .some h
  | cons t ts ih =>
    unfold writeScales
    split
    · exact ih (.agentWrAll h)
    · exact .some h
    · exact .none

/-! ### The functions of Machine/Copy -/

protected theorem MemOk.takeCopy {s : State} (h : MemOk s) {op : CopyOp} : MemOk (takeCopy s op) :=
  .when (.setCore h) fun h => .engineNames h

protected theorem ExceptOk.pinPage {s : State} (h : MemOk s) {op : CopyOp} {side : Nat} {d : TDesc} {row : Nat} :
    ExceptOk (·.1) (pinPage s op side d row) := by
  unfold pinPage
  dsimp only
  split
  · exact .ok h
  · split
    · split
      · exact .error
      · next e2 => exact .ok ((ExceptOk.btLookup h).of_eq e2)
    · split
      · exact .error
      · split
        · exact .error
        · exact .ok h

protected theorem ExceptOk.pinRow {s : State} (h : MemOk s) {op : CopyOp} {i : Nat} : ExceptOk (·.1) (pinRow s op i) := by
  unfold pinRow
  split
  · exact .error
  · next u o e =>
    have hu : MemOk u := by
      split at e
      · exact (ExceptOk.pinPage h).of_eq e
      · cases e
        exact h
    split
    · exact .pinPage hu
    · exact .ok hu

protected theorem SomeOk.writeRow {s : State} (h : MemOk s) {op : CopyOp} {i : Nat} {x : RowData} : SomeOk (·.1) (writeRow s op i x) := by
  unfold writeRow
  dsimp only
  split
  · split
    · exact .some (.scratchWr h)
    · split
      · exact .some (.scratchWr h)
      · split
        · exact .some (.scratchWr (.scratchWr h))
        · exact .some (.scratchWr h)
  · split
    · exact .some h
    · split
      · exact .map (.writeSlots h) fun _ h => h
      · split
        · exact .none
        · next e2 => exact .map (.writeScales ((SomeOk.writeSlots h).of_eq e2)) fun _ h => h

protected theorem MemOk.pinnedRow {s : State} (h : MemOk s) {op : CopyOp} {i : Nat} : MemOk (pinnedRow s op i).1 := by
  unfold pinnedRow
  dsimp only
  split
  · exact h
  · next e =>
    split
    · exact (ExceptOk.pinRow h).of_eq e
    · split
      · exact (ExceptOk.pinRow h).of_eq e
      · split
        · split
          · exact (ExceptOk.pinRow h).of_eq e
          · next e4 => exact (SomeOk.writeRow ((ExceptOk.pinRow h).of_eq e)).of_eq e4
        · split
          · exact (ExceptOk.pinRow h).of_eq e
          · next e4 => exact (SomeOk.writeRow ((ExceptOk.pinRow h).of_eq e)).of_eq e4
      · split
        · split
          · exact (ExceptOk.pinRow h).of_eq e
          · next e4 => exact (SomeOk.writeRow ((ExceptOk.pinRow h).of_eq e)).of_eq e4
        · exact (ExceptOk.pinRow h).of_eq e

protected theorem MemOk.moveRow {s : State} (h : MemOk s) {op : CopyOp} {i : Nat} : MemOk (moveRow s op i).1 := .pinnedRow h

protected theorem MemOk.setCopy {s : State} (h : MemOk s) {core ix : Nat} {op : CopyOp} : MemOk (setCopy s core ix op) := .setCore h

protected theorem MemOk.moveCopyRow {s : State} (h : MemOk s) {core ix row : Nat} : MemOk (moveCopyRow s core ix row) := by
  unfold moveCopyRow
  split
  · exact h
  · exact .ite h (.frame (.orFlagsOf (.setCopy (.moveRow h))))

protected theorem SomeOk.putLabels {op : CopyOp} {d : TDesc} {k : Nat} {ls : List Nat} {s : State} (h : MemOk s) :
    SomeOk id (putLabels op d k ls s) := by
  induction ls generalizing k s with
  | nil => exact .some h
  | cons l ls ih =>
    unfold putLabels
    refine .ite (ih h) ?_
    split
    · exact .none
    · exact ih (.agentWrAll h)

protected theorem MemOk.moveLabels {s : State} (h : MemOk s) {op : CopyOp} : MemOk (moveLabels s op).1 := by
  unfold moveLabels
  split
  · exact h
  · split
    · exact h
    · split
      · exact .scratchWr (.scratchWr h)
      · split
        · next e3 => exact (SomeOk.putLabels h).of_eq e3
        · exact h

protected theorem MemOk.putRec {s : State} (h : MemOk s) {op : CopyOp} {o : Nat} {bs : List Byte} : MemOk (putRec s op o bs) := by
  unfold putRec
  dsimp only
  split
  · split
    · exact .agentWrAll h
    · exact h
  · split
    · exact .agentWrAll h
    · exact h
  · exact .scratchWr h
  · exact .scratchWr h
  · exact .scratchWr h

protected theorem MemOk.writeBack {s : State} (h : MemOk s) {op : CopyOp} {st : Nat} : MemOk (writeBack s op st) := .ite h (.putRec h)

protected theorem MemOk.writeSeq {s : State} (h : MemOk s) {op : CopyOp} : MemOk (writeSeq s op) :=
  .ite h (.putRec (.when (.setCord h) fun h => .flush h))

protected theorem MemOk.subSignal {s : State} (h : MemOk s) {core : Option Nat} {p : Place} {n : Nat} : MemOk (subSignal s core p n) := by
  unfold subSignal
  split
  · exact .atomicAt h
  · exact .devWr h

protected theorem MemOk.copyAction {s : State} (h : MemOk s) {op : CopyOp} : MemOk (copyAction s op) := by
  unfold copyAction
  split
  · exact h
  · split
    · split
      · exact .ite h (.ite (.subSignal h) (.subSignal (.flush h)))
      · exact h
    · exact .ite (.arriveEngine h) h

protected theorem MemOk.endWalks {s : State} (h : MemOk s) {cord ch : Nat} : MemOk (endWalks s cord ch) :=
  .foldl (.setCord h) fun _ _ h => .when (.writeToken h) fun h => .recordTrap h

protected theorem MemOk.noteTaken {s : State} (h : MemOk s) {op : CopyOp} {st : Nat} : MemOk (noteTaken s op st) := by
  unfold noteTaken
  split
  · exact .endWalks (.setCord h)
  · exact h

protected theorem MemOk.completeCopy {s : State} (h : MemOk s) {core ix : Nat} : MemOk (completeCopy s core ix) := by
  unfold completeCopy
  split
  · exact h
  · exact .ite h (.unless (.noteTaken (.setCore (.copyAction (.writeToken (.writeSeq (.writeBack (.moveLabels h))))))) fun h => .recordTrap h)

protected theorem MemOk.setChan {s : State} (h : MemOk s) {cord ch : Nat} {x : Channel} : MemOk (setChan s cord ch x) := .setCord h

protected theorem MemOk.reachRecord {s : State} (h : MemOk s) {core ix : Nat} {op : CopyOp} {ch : Nat} :
    MemOk (reachRecord s core ix op ch) := by
  unfold reachRecord
  dsimp only
  split
  · exact .setCore h
  · split
    · exact .ite (.unless (.setChan (.setCore (.nextSeq h))) fun h => .endWalks (.setCore h)) h
    · exact .ite (.unless (.setChan h) fun h => .endWalks (.setCore h))
        (.ite h (.unless (.setChan (.takeCopy (.nextSeq h))) fun h => .endWalks (.setCore h)))

protected theorem OutOk.execCopyAccept {s : State} (h : MemOk s) : OutOk (execCopyAccept s) := by
  unfold execCopyAccept
  dsimp only
  split
  · exact .next h
  · split
    · exact .next (.reachRecord h)
    · exact .next (.takeCopy (.setCore h))

protected theorem MemOk.pageIn {s : State} (h : MemOk s) {core ix row : Nat} : MemOk (pageIn s core ix row) := by
  unfold pageIn
  split
  · exact h
  · split
    · exact h
    · split
      · exact h
      · next e2 =>
        split
        · exact .setCopy ((ExceptOk.pinRow h).of_eq e2)
        · exact .frame (SomeOk.getD (.changeTier ((ExceptOk.pinRow h).of_eq e2)) (.reclaim ((ExceptOk.pinRow h).of_eq e2)))

protected theorem ResOk.issueCopy {s : State} (h : MemOk s) {mk : Nat → CopySrc} {w : SWord} {l : Lane} : ResOk (issueCopy mk w l s) := by
  unfold issueCopy
  dsimp only
  split
  · exact .wait h
  · split
    · exact .wait h
    · split
      · exact .done (.recordTrap (.writeToken (.startToken (.release h))))
      · exact .done (.setMyCore (.nextSeq (.startToken (.release h))))

protected theorem ResOk.cpyBody {s : State} (h : MemOk s) {w : SWord} : ResOk (cpyBody w s) := .once h fun _ _ _ h => .issueCopy h

protected theorem ResOk.cpygBody {s : State} (h : MemOk s) {w : SWord} : ResOk (cpygBody w s) := .once h fun _ _ _ h => .issueCopy h

protected theorem ResOk.cpysBody {s : State} (h : MemOk s) {w : SWord} : ResOk (cpysBody w s) := .once h fun _ _ _ h => .issueCopy h

protected theorem ResOk.chanBody {s : State} (h : MemOk s) {w : SWord} : ResOk (chanBody w s) := by
  unfold chanBody
  refine .once h fun w l s h => ?_
  dsimp only
  split
  · exact .wait h
  · exact .done (.setChan (.release h))

protected theorem ResOk.tailBody {s : State} (h : MemOk s) {w : SWord} : ResOk (tailBody w s) := by
  unfold tailBody
  refine .once h fun w l s h => ?_
  dsimp only
  split
  · exact .wait h
  · split
    · exact .wait h
    · split
      · exact .done (.recordTrap (.writeToken (.startToken (.release h))))
      · split
        · exact .done (.recordTrap (.writeToken (.startToken (.release h))))
        · split
          · exact .done (.recordTrap (.writeToken (.startToken (.release h))))
          · exact .done (.setMyCore (.nextSeq (.setChan (.startToken (.release h)))))

protected theorem ResOk.sigdBody {s : State} (h : MemOk s) {w : SWord} : ResOk (sigdBody w s) := by
  unfold sigdBody
  refine .once h fun w l s h => ?_
  dsimp only
  split
  · exact .wait h
  · split
    · exact .done (.writeToken (.subSignal (.startToken (.release h))))
    · exact .done (.recordTrap (.writeToken (.startToken (.release h))))

protected theorem ResOk.sigrBody {s : State} (h : MemOk s) {w : SWord} : ResOk (sigrBody w s) := by
  unfold sigrBody
  refine .once h fun w l s h => ?_
  dsimp only
  split
  · exact .done (.faultHere h)
  · split
    · exact .done (.faultHere h)
    · split
      · exact .wait h
      · exact .done (.acquire (.putD h))

protected theorem OutOk.execSigr {s : State} (h : MemOk s) {w : SWord} : OutOk (execSigr w s) := .next (.runWord h fun _ _ h => .sigrBody h)

/-! ### The functions of Machine/Capstan -/

protected theorem MemOk.setRun {s : State} (h : MemOk s) {r : RunCall} : MemOk (setRun s r) := .setMyCore h

protected theorem MemOk.endCall {s : State} (h : MemOk s) {e : CallEnd} : MemOk (endCall s e) := .setRun h

protected theorem MemOk.putC {s : State} (h : MemOk s) {r : BitVec 5} {v : DWord} : MemOk (putC s r v) := .setRun h

protected theorem MemOk.settleCap {s : State} (h : MemOk s) : MemOk (settleCap s) := by
  unfold settleCap
  split
  · exact h
  · exact .setRun h

protected theorem MemOk.drainCap {s : State} (h : MemOk s) : MemOk (drainCap s) := by
  unfold drainCap
  split
  · exact h
  · exact .foldl (.setRun h) fun _ _ h => .commitStore h

protected theorem MemOk.spend {s : State} (h : MemOk s) {n : Nat} : MemOk (spend s n) := by
  unfold spend
  split
  · exact .setRun h
  · exact h

protected theorem MemOk.capAdvance {s : State} (h : MemOk s) : MemOk (capAdvance s) := by
  unfold capAdvance
  dsimp only
  split
  · exact h
  · exact .setRun h

protected theorem MemOk.runCap {s : State} (h : MemOk s) {i : Instr} {body : CWord → State → CRes}
    (hb : ∀ w t, MemOk t → CResOk (body w t)) : MemOk (runCap i body s) := by
  unfold runCap
  split
  · next w _ _ _ _ =>
    have hr := hb w s h
    extract_lets fin
    have hf : ∀ t n, MemOk t → MemOk (fin t n) := fun _ _ ht => .frame (.spend (.ite (.settleCap ht) ht))
    split
    · exact h
    · split
      · exact .endCall h
      · split
        · next e => exact .capAdvance (hf _ _ (hr.of_eq e))
        · next e => exact .setRun (hf _ _ (hr.of_eq e))
        · next e => exact .endCall (.frame (.spend (hr.of_eq e)))
        · next e => exact .frame (.spend (hr.of_eq e))
        · next e => exact .setRun (hr.of_eq e)
  · exact h

protected theorem MemOk.setProgress {s : State} (h : MemOk s) {p : Progress} : MemOk (setProgress s p) := .setRun h

protected theorem MemOk.closeProgress {s : State} (h : MemOk s) : MemOk (closeProgress s) := by
  unfold closeProgress
  split
  · exact h
  · exact .setRun h

protected theorem CResOk.capAlu {s : State} (h : MemOk s) {cost : Nat} {f : DWord → DWord → DWord} {w : CWord} :
    CResOk (capAlu cost f w s) :=
  .done (.putC h)

protected theorem CResOk.ccmpBody {s : State} (h : MemOk s) {w : CWord} : CResOk (ccmpBody w s) := .done (.setRun h)

protected theorem CResOk.cbrBody {s : State} (h : MemOk s) {w : CWord} : CResOk (cbrBody w s) := by
  unfold cbrBody
  split
  · exact .jump h
  · exact .done h

protected theorem CResOk.cloopBody {s : State} (h : MemOk s) {w : CWord} : CResOk (cloopBody w s) := by
  unfold cloopBody
  dsimp only
  split
  · exact .done (.putC h)
  · exact .jump (.putC h)

protected theorem MemOk.capKeep {s : State} (h : MemOk s) {p : Place} : MemOk (capKeep s p) := by
  unfold capKeep
  split
  · exact .cacheTlb h
  · exact h

protected theorem CResOk.cldBody {s : State} (h : MemOk s) {w : CWord} : CResOk (cldBody w s) := by
  unfold cldBody
  split
  · exact .stop h
  · split
    · exact .stop h
    · exact .done (.setRun (.capKeep h))

protected theorem CResOk.cstBody {s : State} (h : MemOk s) {w : CWord} : CResOk (cstBody w s) := by
  unfold cstBody
  split
  · exact .stop h
  · exact .done (.setRun (.capKeep h))

protected theorem CResOk.cwaitBody {s : State} (h : MemOk s) {w : CWord} : CResOk (cwaitBody w s) := by
  unfold cwaitBody
  dsimp only
  split
  · exact .stop h
  · next p _ =>
    generalize capSignalValue s p = v
    split
    · exact .stop h
    · generalize (capB s w).slt v = b
      exact .ite (.wait h) (.done (.refresh h))

protected theorem CResOk.cfenceBody {s : State} (h : MemOk s) {w : CWord} : CResOk (cfenceBody w s) :=
  .done (.unless (.ite h (.flush (.drainCap h))) fun h => .refresh h)

protected theorem OutOk.execCwait {s : State} (h : MemOk s) {w : CWord} : OutOk (execCwait w s) :=
  .next (.runCap h fun _ _ h => .cwaitBody h)

protected theorem CResOk.cretBody {s : State} (h : MemOk s) {w : CWord} : CResOk (cretBody w s) := .stop (.drainCap (.settleCap h))

protected theorem CResOk.cargBody {s : State} (h : MemOk s) {w : CWord} : CResOk (cargBody w s) := .done (.putC h)

protected theorem CResOk.cseqBody {s : State} (h : MemOk s) {w : CWord} : CResOk (cseqBody w s) := by
  unfold cseqBody
  dsimp only
  split
  · exact .stop h
  · exact .done (.setRun h)

protected theorem CResOk.ctrapBody {s : State} (h : MemOk s) {w : CWord} : CResOk (ctrapBody w s) := .stop h

protected theorem MemOk.writeCseq {s : State} (h : MemOk s) {core cord : Nat} {seqAddr : Option DWord} :
    MemOk (writeCseq s core cord seqAddr).2 := by
  unfold writeCseq
  dsimp only
  split
  · exact h
  · split
    · exact .flush (.setCord h)
    · exact .noteWrite (.commit (.flush (.setCord h)))

protected theorem MemOk.finishCall {s : State} (h : MemOk s) {core : Nat} {c : Call} {seqAddr : Option DWord} {e : CallEnd} :
    MemOk (finishCall s core c seqAddr e) := by
  unfold finishCall
  dsimp only
  split
  · split
    · split
      · exact .arriveEngine (.writeToken (.writeCseq h))
      · exact .writeToken (.writeCseq h)
    · split
      · exact .recordTrap (.arriveEngine (.writeToken (.writeCseq h)))
      · exact .recordTrap (.writeToken (.writeCseq h))
  · split
    · split
      · exact .arriveEngine (.writeToken (.writeCseq h))
      · exact .writeToken (.writeCseq h)
    · split
      · exact .recordTrap (.arriveEngine (.writeToken (.writeCseq h)))
      · exact .recordTrap (.writeToken (.writeCseq h))

protected theorem OutOk.execCallComplete {s : State} (h : MemOk s) : OutOk (execCallComplete s) := by
  unfold execCallComplete
  split
  · exact .next h
  · split
    · exact .next h
    · exact .next (.finishCall (.setMyCore (.drainCap h)))

protected theorem ResOk.mcallBody {s : State} (h : MemOk s) {w : SWord} : ResOk (mcallBody w s) := by
  unfold mcallBody
  refine .once h fun w l s h => ?_
  dsimp only
  split
  · exact .wait h
  · split
    · split
      · exact .done (.finishCall (.engineNames (.startToken (.release h))))
      · exact .done (.finishCall (.startToken (.release h)))
    · split
      · exact .wait h
      · exact .done (.setMyCore (.nextSeq (.startToken (.release h))))

protected theorem OutOk.execCallAccept {s : State} (h : MemOk s) : OutOk (execCallAccept s) := by
  unfold execCallAccept
  dsimp only
  split
  · exact .next h
  · split
    · exact .next (.engineNames (.setMyCore h))
    · exact .next (.setMyCore h)

protected theorem FetchedOk.fetchAt {s : State} (h : MemOk s) {core job : Nat} {a : VAddr} : FetchedOk (fetchAt s core job a) := by
  unfold fetchAt
  split
  · exact .fault
  · split
    · exact .fault
    · split
      · exact .poison
      · split
        · split
          · exact .word (.cacheTlb h)
          · exact .word h
        · exact .fault

protected theorem FetchedOk.capFetch {s : State} (h : MemOk s) {a : VAddr} : FetchedOk (capFetch s a) := .fetchAt h

protected theorem OutOk.execCapstanClauseHeader {s : State} (h : MemOk s) : OutOk (execCapstanClauseHeader s) := by
  unfold execCapstanClauseHeader
  split
  · exact .next h
  · split
    · exact .next h
    · split
      · exact .next (.endCall h)
      · exact .next (.endCall h)
      · next e =>
        have ht : MemOk _ := (FetchedOk.capFetch h).of_eq e
        split
        · exact .next (.endCall ht)
        · exact .next (.setRun (.when (.when ht fun h => .settleCap h) fun h => .drainCap h))

protected theorem OutOk.execCldResult {s : State} (h : MemOk s) : OutOk (execCldResult s) := by
  unfold execCldResult
  split
  · exact .next h
  · split
    · exact .next h
    · exact .next (.frame h)

protected theorem SomeOk.capWord {s : State} (h : MemOk s) : SomeOk (·.2) (capWord s) := by
  unfold capWord
  split
  · next e => exact .mapAny fun _ => (FetchedOk.capFetch h).of_eq e
  · exact .none

protected theorem OutOk.execCwaitWake {s : State} (h : MemOk s) : OutOk (execCwaitWake s) := by
  unfold execCwaitWake
  split
  · exact .next h
  · split
    · exact .next h
    · split
      · next e2 => exact .execCwait ((SomeOk.capWord h).of_eq e2)
      · exact .next h

protected theorem OutOk.execUnassignedCapstanOpcode {s : State} (h : MemOk s) {raw : DWord} :
    OutOk (execUnassignedCapstanOpcode raw s) := by
  unfold execUnassignedCapstanOpcode
  split
  · exact .next h
  · split
    · exact .next h
    · exact .next (.endCall h)

/-! ### The functions of Machine/Matrix -/

protected theorem SomeOk.loadClay {s : State} (h : MemOk s) {off gen : Nat} {v : DWord} {k : LoadKind} :
    SomeOk (·.2) (loadClay s off gen v k) := by
  unfold loadClay
  split
  · exact .none
  · split
    · exact .none
    · exact .some (.setMyCore h)

protected theorem CResOk.loadBody {s : State} (h : MemOk s) {k : LoadKind} {per : Nat} {w : CWord} : CResOk (loadBody k per w s) := by
  unfold loadBody
  dsimp only
  split
  · exact .stop (.drainCap h)
  · next e => exact .done ((SomeOk.loadClay (.drainCap h)).of_eq e)

protected theorem MemOk.setSilt {s : State} (h : MemOk s) {cord r : Nat} {x : SiltRow} : MemOk (setSilt s cord r x) := .setCord h

protected theorem MemOk.modRows {s : State} (h : MemOk s) {cord r : Nat} {f : SiltRow → SiltRow} {n : Nat} :
    MemOk (modRows s cord r f n) := by
  induction n generalizing s with
  | zero => exact h
  | succ n ih =>
    unfold modRows
    exact .setSilt (ih h)

protected theorem MemOk.passRows {s : State} (h : MemOk s) {cord : Nat} {pad : List Host.Cell} {clay : AMap ClaySlot} {sh : Shape}
    {rel : Option Relation} {off sb lab n : Nat} : MemOk (passRows s cord pad clay sh rel off sb lab n) := by
  induction n generalizing s with
  | zero => exact h
  | succ n ih =>
    unfold passRows
    exact .orFlagsOf (.setSilt (ih h))

protected theorem MemOk.countTiles {s : State} (h : MemOk s) {cord : Nat} {sh : Shape} {rel : Option Relation} {lab n : Nat} :
    MemOk (countTiles s cord sh rel lab n) := by
  unfold countTiles
  split
  · exact h
  · exact .setCord h

protected theorem PassResOk.pass {s : State} (h : MemOk s) {sh : Shape} {knot : Option Nat} {off sb lab n : Nat} :
    PassResOk (pass s sh knot off sb lab n) := by
  unfold pass
  split
  · exact .bad h
  · split
    · exact .bad h
    · exact .ok (.passRows (.countTiles (.unless (.setMyCore h) fun h => .countErrors h)))

protected theorem CResOk.mmaBody {s : State} (h : MemOk s) {rel : Bool} {w : CWord} : CResOk (mmaBody rel w s) := by
  unfold mmaBody
  dsimp only
  split
  · exact .stop (.drainCap h)
  · split
    · next e1 => exact .done ((PassResOk.pass (.drainCap h)).of_eq e1)
    · next e1 => exact .stop ((PassResOk.pass (.drainCap h)).of_eq e1)

protected theorem SomeOk.groupLoad {s : State} (h : MemOk s) {v : DWord} {sh : Shape} {gen off a : Nat} {e : GroupRow} :
    SomeOk (·.2) (groupLoad s v sh gen off a e) := by
  unfold groupLoad
  dsimp only
  split
  · exact .none
  · exact .map (.loadClay h) fun _ h => .ite (.modRows h) h

protected theorem PassResOk.runGroup {s : State} (h : MemOk s) {v : DWord} {sh : Shape} {gen aoff a : Nat} {e : GroupRow} :
    PassResOk (runGroup s v sh gen aoff a e) := by
  unfold runGroup
  dsimp only
  split
  · exact .bad h
  · next e1 =>
    split
    · next e2 => exact .ok ((PassResOk.pass ((SomeOk.groupLoad h).of_eq e1)).of_eq e2)
    · next e2 => exact .bad ((PassResOk.pass ((SomeOk.groupLoad h).of_eq e1)).of_eq e2)

protected theorem CResOk.groupStep {s : State} (h : MemOk s) {gen : Nat} {x : GroupRun} : CResOk (groupStep gen x s) := by
  unfold groupStep
  dsimp only
  split
  · exact .stop h
  · split
    · exact .done (.closeProgress h)
    · split
      · next e2 => exact .stop ((PassResOk.runGroup h).of_eq e2)
      · next e2 =>
        split
        · exact .done (.closeProgress ((PassResOk.runGroup h).of_eq e2))
        · exact .again (.setProgress ((PassResOk.runGroup h).of_eq e2))

protected theorem CResOk.mgrpBody {s : State} (h : MemOk s) {w : CWord} : CResOk (mgrpBody w s) := by
  unfold mgrpBody
  dsimp only
  split
  · exact .stop (.drainCap h)
  · exact .groupStep (.drainCap h)

protected theorem CResOk.rowsBody {s : State} (h : MemOk s) {cost : Nat → Nat} {ok : Bool} {f : SiltRow → SiltRow} {w : CWord} :
    CResOk (rowsBody cost ok f w s) := by
  unfold rowsBody
  dsimp only
  split
  · exact .stop h
  · exact .done (.modRows h)

protected theorem CResOk.mzeroBody {s : State} (h : MemOk s) {w : CWord} : CResOk (mzeroBody w s) := .rowsBody h

protected theorem CResOk.mancBody {s : State} (h : MemOk s) {w : CWord} : CResOk (mancBody w s) := by
  unfold mancBody
  exact .rowsBody h

protected theorem MemOk.drainRows {s : State} (h : MemOk s) {cord : Nat} {read : List Host.Cell} {r : SiltRange} {dst pitch : Nat}
    {f : SiltRow → Nat → Nat → Option (Nat × Flags)} {n : Nat} : MemOk (drainRows s cord read r dst pitch f n) := by
  induction n generalizing s with
  | zero => exact h
  | succ n ih =>
    unfold drainRows
    exact .orFlagsOf (.scratchWr (ih h))

protected theorem CResOk.drainBody {s : State} (h : MemOk s) {per : SiltRange → Nat}
    {f : SiltRange → SiltRow → Nat → Nat → Option (Nat × Flags)} {w : CWord} : CResOk (drainBody per f w s) := by
  unfold drainBody
  dsimp only
  split
  · exact .stop (.drainCap h)
  · split
    · exact .stop (.drainCap h)
    · exact .done (.drainRows (.drainCap h))

protected theorem CResOk.mdrnBody {s : State} (h : MemOk s) {w : CWord} : CResOk (mdrnBody w s) := .drainBody h

protected theorem CResOk.mdaccBody {s : State} (h : MemOk s) {w : CWord} : CResOk (mdaccBody w s) := .drainBody h

protected theorem MemOk.saddRows {s : State} (h : MemOk s) {cord : Nat} {r : SiltRange} {db n : Nat} : MemOk (saddRows s cord r db n) := by
  induction n generalizing s with
  | zero => exact h
  | succ n ih =>
    unfold saddRows
    exact .orFlagsOf (.setSilt (ih h))

protected theorem CResOk.msaddBody {s : State} (h : MemOk s) {w : CWord} : CResOk (msaddBody w s) := by
  unfold msaddBody
  dsimp only
  split
  · exact .stop h
  · split
    · exact .stop h
    · exact .done (.saddRows h)

protected theorem CResOk.rawBody {s : State} (h : MemOk s) {f : State → SiltRange → Nat → Option State} {w : CWord}
    (hf : ∀ t r n, MemOk t → SomeOk id (f t r n)) : CResOk (rawBody f w s) := by
  unfold rawBody
  have hd : MemOk (drainCap s) := .drainCap h
  dsimp only
  split
  · exact .stop hd
  · split
    · exact .stop hd
    · split
      · next e => exact .done ((hf _ _ _ hd).of_eq e)
      · exact .stop hd

protected theorem MemOk.stoRows {s : State} (h : MemOk s) {cord : Nat} {r : SiltRange} {base n : Nat} :
    MemOk (stoRows s cord r base n) := by
  induction n generalizing s with
  | zero => exact h
  | succ n ih =>
    unfold stoRows
    exact .scratchWr (ih h)

protected theorem MemOk.sldRows {s : State} (h : MemOk s) {cord : Nat} {pad : List Host.Cell} {r : SiltRange} {base n : Nat} :
    MemOk (sldRows s cord pad r base n) := by
  induction n generalizing s with
  | zero => exact h
  | succ n ih =>
    unfold sldRows
    exact .setSilt (ih h)

protected theorem CResOk.mstoBody {s : State} (h : MemOk s) {w : CWord} : CResOk (mstoBody w s) :=
  .rawBody h fun _ _ _ ht => .some (.stoRows ht)

protected theorem CResOk.msldBody {s : State} (h : MemOk s) {w : CWord} : CResOk (msldBody w s) :=
  .rawBody h fun _ _ _ ht => .ite (.some (.sldRows ht)) .none

protected theorem CResOk.mrowBody {s : State} (h : MemOk s) {w : CWord} : CResOk (mrowBody w s) := by
  unfold mrowBody
  dsimp only
  split
  · split
    · exact .done (.putC h)
    · exact .stop h
  · split
    · exact .stop h
    · exact .done (.putC h)
  · exact .done (.putC h)
  · exact .done (.putC h)
  · split
    · exact .done (.putC h)
    · exact .stop h

protected theorem CResOk.mknotBody {s : State} (h : MemOk s) {w : CWord} : CResOk (mknotBody w s) := by
  unfold mknotBody
  have hd : MemOk (drainCap s) := .drainCap h
  refine .ite (.stop hd) ?_
  dsimp only
  generalize leAt (capBytes (drainCap s) (capPad (capA (drainCap s) w)) 72) 0 8 = n
  exact .ite (.stop hd) (.done (.setMyCore hd))

protected theorem CResOk.mlabBody {s : State} (h : MemOk s) {w : CWord} : CResOk (mlabBody w s) := by
  unfold mlabBody
  dsimp only
  split
  · exact .stop (.drainCap h)
  · exact .done (.setMyCore (.drainCap h))

protected theorem CResOk.msumqBody {s : State} (h : MemOk s) {w : CWord} : CResOk (msumqBody w s) := by
  unfold msumqBody
  dsimp only
  split
  · exact .stop h
  · exact .done (.setMyCore h)

protected theorem SomeOk.mmaPass {s : State} (h : MemOk s) {rel : Bool} {w : CWord} : SomeOk PassStart.left (mmaPass rel w s) := by
  unfold mmaPass
  dsimp only
  split
  · exact .none
  · exact .ite .none (.some (.drainCap h))

protected theorem SomeOk.groupPass {s : State} (h : MemOk s) {w : CWord} : SomeOk PassStart.left (groupPass w s) := by
  unfold groupPass
  have hd : MemOk (drainCap s) := .drainCap h
  dsimp only
  split
  · exact .none
  · split
    · exact .none
    · split
      · exact .none
      · split
        · exact .none
        · next e => exact .ite .none (.some ((SomeOk.groupLoad hd).of_eq e))

protected theorem MemOk.failSlot {s : State} (h : MemOk s) {p : PassStart} (hp : MemOk p.left) {key : Nat} : MemOk (failSlot s p key) := by
  unfold failSlot
  dsimp only
  split
  · exact .countErrors (.ite (.setMyCore h) h)
  · exact .endCall (.setMyCore hp)

protected theorem MemOk.reloadOthers {s : State} (h : MemOk s) {core : Nat} : MemOk (reloadOthers s core) := .setCore h

protected theorem MemOk.resetQueued {s : State} (h : MemOk s) {core : Nat} {again : List Resumed} {x : Call} :
    MemOk (resetQueued core again s x) := by
  unfold resetQueued
  split <;> exact .finishCall h

protected theorem OutOk.execMreset {s : State} (h : MemOk s) : OutOk (execMreset s) := by
  unfold execMreset
  split
  · exact .next h
  · split
    · exact .next h
    · refine .next (.foldl (.finishCall (.reloadOthers ?_)) fun _ _ h => .resetQueued h)
      exact .foldl (.setMyCore (.drainCap (.settleCap h))) fun _ _ h => .setCord h

protected theorem MemOk.reloadSaved {s : State} (h : MemOk s) {core : Nat} {l : List SavedSlot} : MemOk (reloadSaved core l s).2 := by
  induction l generalizing s with
  | nil => exact h
  | cons a l ih =>
    unfold reloadSaved
    dsimp only
    split <;> exact ih (.setCore h)

protected theorem MemOk.resumeCall {s : State} (h : MemOk s) {core : Nat} {r : RunCall} {clay : List SavedSlot} :
    MemOk (resumeCall s core r clay) :=
  .setCore (.reloadSaved h)

protected theorem OutOk.execCallStart {s : State} (h : MemOk s) : OutOk (execCallStart s) := by
  unfold execCallStart
  dsimp only
  split
  · exact .next h
  · split
    · exact .next h
    · split
      · exact .next (.resumeCall (.setMyCore h))
      · exact .next (.setMyCore h)

/-! ### The functions of Machine/Vocab -/

protected theorem MemOk.writeRows {s : State} (h : MemOk s) {v : Vcb} {rs : List VRow} : MemOk (writeRows s v rs) := .scratchWr h

protected theorem MemOk.putRows {s : State} (h : MemOk s) {cord base : Nat} {rows : List SiltRow} : MemOk (putRows s cord base rows) :=
  .foldl h fun _ _ h => .setSilt h

protected theorem MemOk.spoilStage {s : State} (h : MemOk s) {v : Vcb} : MemOk (spoilStage s v) := .frame h

protected theorem ExceptOk.runTile {s : State} (h : MemOk s) {c : VCtx} {t : Nat} : ExceptOk (·.2) (runTile s c t) := by
  unfold runTile
  dsimp only
  split
  · exact .error
  · exact .ok (.orFlagsOf (.spoilStage (.putRows (.setMyCore h))))

protected theorem MemOk.setVstat {s : State} (h : MemOk s) {tiles resume status : Nat} : MemOk (setVstat s tiles resume status) :=
  .setCord h

protected theorem VEndOk.oneTile {s : State} (h : MemOk s) {x : TileRun} : VEndOk (oneTile x s) := by
  unfold oneTile
  split
  · exact .bad h
  · next e =>
    have hu : MemOk _ := (ExceptOk.runTile h).of_eq e
    split
    · exact .spill hu
    · exact .ok (.orFlagsOf hu)

protected theorem ExceptOk.writeResume {s : State} (h : MemOk s) {v : Vcb} {vcb : List Byte} {t : Nat} {rs : List VRow} :
    ExceptOk id (writeResume s v vcb t rs) := by
  unfold writeResume
  dsimp only
  split
  · exact .ok (.agentWrAll h)
  · exact .error

protected theorem CResOk.endTile {x : TileRun} {r : VEnd} (h : VEndOk r) : CResOk (endTile x r) := by
  unfold endTile
  dsimp only
  split
  · split
    · exact .again (.setProgress h)
    · exact .done (.setVstat (.writeRows (.closeProgress h)))
  · exact .stop (.setVstat h)
  · split
    · exact .stop (.setVstat (.writeRows h))
    · next e => exact .stop (.setVstat ((ExceptOk.writeResume (.writeRows h)).of_eq e))

protected theorem CResOk.vocabFail {s : State} (h : MemOk s) {e : CallEnd} : CResOk (vocabFail s e) := .stop (.ite h (.setVstat h))

protected theorem CResOk.vprojBody {s : State} (h : MemOk s) {w : CWord} : CResOk (vprojBody w s) := by
  unfold vprojBody
  have hd : MemOk (drainCap s) := .drainCap h
  dsimp only
  split
  · exact .endTile (.oneTile hd)
  · split
    · exact .vocabFail hd
    · exact .endTile (.oneTile hd)

protected theorem CResOk.vresBody {s : State} (h : MemOk s) {w : CWord} : CResOk (vresBody w s) := by
  unfold vresBody
  have hd : MemOk (drainCap s) := .drainCap h
  dsimp only
  split
  · exact .endTile (.oneTile hd)
  · split
    · exact .vocabFail hd
    · split
      · exact .endTile (.spill hd)
      · exact .endTile (.oneTile hd)

protected theorem MemOk.putGrads {v : Vcb} {scale out pitch i : Nat} {ns : List (List Nat)} {rs : List VRow}
    {ys : List (List (Nat × Nat))} {s : State} (h : MemOk s) : MemOk (putGrads v scale out pitch i ns rs ys s) := by
  induction ns generalizing i rs ys s with
  | nil => exact h
  | cons n ns ih =>
    cases rs with
    | nil => exact h
    | cons r rs =>
      cases ys with
      | nil => exact h
      | cons y ys => exact ih (.orFlagsOf (.scratchWr h))

protected theorem CResOk.vprjbBody {s : State} (h : MemOk s) {w : CWord} : CResOk (vprjbBody w s) := by
  unfold vprjbBody
  have hd : MemOk (drainCap s) := .drainCap h
  dsimp only
  split
  · exact .vocabFail hd
  · split
    · exact .vocabFail hd
    · next e => exact .done (.setVstat (.putGrads ((ExceptOk.runTile hd).of_eq e)))

protected theorem SomeOk.tilePass {s : State} (h : MemOk s) {x : TileRun} {k m : Nat} : SomeOk PassStart.left (tilePass x k m s) := by
  unfold tilePass
  dsimp only
  split
  · exact .none
  · exact .ite .none (.some (.setVstat (.spoilStage (.orFlagsOf (.putRows (.setMyCore h))))))

protected theorem SomeOk.passOf {s : State} (h : MemOk s) {i : Instr} {k m : Nat} : SomeOk PassStart.left (passOf i k m s) := by
  unfold passOf
  have tile : ∀ o : Option TileRun, SomeOk PassStart.left (o.bind (fun x => tilePass x k m (drainCap s))) := by
    intro o
    cases o with
    | none => exact .none
    | some x => exact .tilePass (.drainCap h)
  split
  · exact .mmaPass h
  · exact .mmaPass h
  · exact .groupPass h
  · exact tile _
  · exact tile _
  · exact tile _
  · exact .none

protected theorem OutOk.execClayParityFailure {s : State} (h : MemOk s) : OutOk (execClayParityFailure s) := by
  unfold execClayParityFailure
  dsimp only
  split
  · split
    · exact .next h
    · split
      · next e => exact .next (.ite (.failSlot h ((SomeOk.passOf h).of_eq e)) h)
      · exact .next h
  · exact .next h

protected theorem CResOk.vmrgBody {s : State} (h : MemOk s) {w : CWord} : CResOk (vmrgBody w s) := by
  unfold vmrgBody
  dsimp only
  split
  · exact .stop (.drainCap h)
  · split
    · exact .stop (.drainCap h)
    · split
      · exact .stop (.drainCap h)
      · exact .stop (.drainCap h)
      · split
        · exact .stop (.drainCap h)
        · exact .done (.orFlagsOf (.writeRows (.drainCap h)))

protected theorem CResOk.vclrBody {s : State} (h : MemOk s) {w : CWord} : CResOk (vclrBody w s) := by
  unfold vclrBody
  dsimp only
  split
  · exact .stop (.drainCap h)
  · split
    · exact .stop (.drainCap h)
    · exact .done (.setCord (.writeRows (.drainCap h)))

protected theorem CResOk.vheapBody {s : State} (h : MemOk s) {w : CWord} : CResOk (vheapBody w s) := by
  unfold vheapBody
  dsimp only
  split
  · exact .stop (.drainCap h)
  · split
    · exact .stop (.drainCap h)
    · split
      · exact .stop (.drainCap h)
      · exact .done (.orFlagsOf (.scratchWr (.drainCap h)))

protected theorem CResOk.vnormBody {s : State} (h : MemOk s) {w : CWord} : CResOk (vnormBody w s) := by
  unfold vnormBody
  dsimp only
  split
  · exact .stop (.drainCap h)
  · split
    · exact .stop (.drainCap h)
    · split
      · exact .stop (.drainCap h)
      · exact .done (.scratchWr (.drainCap h))

protected theorem CResOk.vstatBody {s : State} (h : MemOk s) {w : CWord} : CResOk (vstatBody w s) := .done (.putC h)

/-! ### The functions of Machine/Fabric -/

protected theorem ExceptOk.fabWrite {s : State} (h : MemOk s) {op : FabOp} {loc : Bool} {a : DWord} {disp : Nat} {bs : List Byte} :
    ExceptOk (·.1) (fabWrite s op loc a disp bs) := by
  unfold fabWrite
  split
  · exact .ok (.scratchWr h)
  · split
    · exact .ok (.agentWrAll h)
    · exact .error

protected theorem MemOk.settleSent {s : State} (h : MemOk s) {core : Nat} {sent : List (Nat × Nat)} : MemOk (settleSent s core sent) :=
  .foldl h fun _ _ h => .settleSys (.settleDie (.settleUp h))

protected theorem MemOk.setFab {s : State} (h : MemOk s) {core ix : Nat} {op : FabOp} : MemOk (setFab s core ix op) := .setCore h

protected theorem MemOk.moveWord {s : State} (h : MemOk s) {op : FabOp} {i : Nat} : MemOk (moveWord s op i).1 := by
  unfold moveWord
  dsimp only
  split
  · exact h
  · split
    · exact h
    · next e1 => exact (ExceptOk.fabWrite h).of_eq e1

protected theorem MemOk.moveWords {s : State} (h : MemOk s) {ws : List Nat} {op : FabOp} : MemOk (moveWords ws s op).1 := by
  induction ws generalizing s op with
  | nil => exact h
  | cons a l ih =>
    unfold moveWords
    split
    · exact ih h
    · exact ih (.moveWord h)

protected theorem MemOk.moveFabricWord {s : State} (h : MemOk s) {core ix word : Nat} : MemOk (moveFabricWord s core ix word) := by
  unfold moveFabricWord
  split
  · exact h
  · exact .ite h (.setFab (.moveWords h))

protected theorem MemOk.contribute {s : State} (h : MemOk s) {group seq op : Nat} {xs : List DWord} :
    MemOk (contribute s group seq op xs).2 := by
  unfold contribute
  split
  · exact .frame h
  · split
    · exact h
    · split
      · exact h
      · split <;> exact .frame h

protected theorem MemOk.deliver {s : State} (h : MemOk s) {core ix : Nat} {res : List DWord × Bool} : MemOk (deliver s core ix res) := by
  unfold deliver
  dsimp only
  split
  · exact h
  · split
    · exact .setFab (.ite (.orFlagsOf h) h)
    · next e1 => exact .setFab ((ExceptOk.fabWrite (.ite (.orFlagsOf h) h)).of_eq e1)

protected theorem MemOk.dropOld {s : State} (h : MemOk s) {group : Nat} : MemOk (dropOld s group) := .frame h

protected theorem MemOk.failRed {s : State} (h : MemOk s) {group seq : Nat} : MemOk (failRed s group seq) := by
  unfold failRed
  refine .ite h (.foldl h fun s _ h => ?_)
  split
  · exact .setFab h
  · exact h

protected theorem MemOk.combineRed {s : State} (h : MemOk s) {group seq : Nat} : MemOk (combineRed s group seq) := by
  unfold combineRed
  split
  · exact h
  · split
    · exact h
    · exact .ite h (.foldl (.dropOld (.frame h)) fun _ _ h => .deliver h)

protected theorem ResOk.issueFabric {s : State} (h : MemOk s) {kind : FabKind} {w : SWord} : ResOk (issueFabric kind w s) := by
  unfold issueFabric
  refine .once h fun w l s h => ?_
  split
  · exact .wait h
  · split
    · exact .wait h
    · exact .done (.setMyCore (.nextSeq (.startToken (.release h))))

protected theorem MemOk.acceptRed {s : State} (h : MemOk s) {core ix : Nat} {op : FabOp} : MemOk (acceptRed s core ix op) := by
  unfold acceptRed
  extract_lets b stop wait g
  have hs : ∀ t st, MemOk t → MemOk (stop t st) := fun _ _ ht => .setFab ht
  have hw : ∀ t, MemOk t → MemOk (wait t) := fun _ ht => .setFab ht
  clear_value stop wait g
  split
  · split
    · exact hw _ h
    · split
      · exact hw _ h
      · split
        · exact .ite (.deliver (hw _ h)) (hs _ _ h)
        · exact .ite (hs _ _ h) (hw _ h)
  · split
    · exact hs _ _ h
    · refine .ite (hs _ _ h) ?_
      split
      · next e => exact .failRed (hs _ _ (MemOk.of_snd_eq (.contribute h) e))
      · next e => exact hw _ (MemOk.of_snd_eq (.contribute h) e)

protected theorem OutOk.execFabricAccept {s : State} (h : MemOk s) : OutOk (execFabricAccept s) := by
  unfold execFabricAccept
  dsimp only
  split
  · exact .next h
  · exact .next (.ite h (.ite (.setFab h) (.ite (.setFab h) (.ite (.setFab h) (.ite (.setFab h) (.ite (.acceptRed h) (.setFab h)))))))

protected theorem OutOk.execFabricComplete {s : State} (h : MemOk s) : OutOk (execFabricComplete s) := by
  unfold execFabricComplete
  split
  · exact .next h
  · split
    · exact .next h
    · split
      · exact .next (.unless (.writeToken (.setCore (.settleSent h))) fun h => .recordTrap h)
      · exact .next (.unless (.writeToken (.setCore (.settleSent (.moveWords h)))) fun h => .recordTrap h)

protected theorem OutOk.execTirralFlit {s : State} (h : MemOk s) {f : Flit} : OutOk (execTirralFlit f s) := by
  unfold execTirralFlit
  refine .next (.ite h ?_)
  split
  · exact .ite (.settleSys (.devWr h)) h
  · exact h
  · split
    · next e => exact .failRed (MemOk.of_snd_eq (.contribute h) e)
    · next e => exact MemOk.of_snd_eq (.contribute h) e
  · split
    · exact .ite (.setFab h) h
    · exact h

protected theorem OutOk.execTirralPortFailure {s : State} (h : MemOk s) {port : Nat} {lost : Bool} :
    OutOk (execTirralPortFailure port lost s) := by
  unfold execTirralPortFailure
  split
  · exact .next (.frame h)
  · split
    · exact .next (.frame h)
    · exact .next h

/-! ### The functions of Machine/Tasks -/

protected theorem MemOk.setFifo {s : State} (h : MemOk s) {q level : Nat} {l : List QRec} : MemOk (setFifo s q level l) := .frame h

protected theorem MemOk.pushItem {s : State} (h : MemOk s) {q level : Nat} {x : QItem} : MemOk (pushItem s q level x) := .setFifo h

protected theorem MemOk.pushTask {s : State} (h : MemOk s) {r : TaskRec} : MemOk (pushTask s r) := .pushItem h

protected theorem ExceptOk.decrement {s : State} (h : MemOk s) {core : Option Nat} {job : Nat} {a : DWord} :
    ExceptOk (·.2) (decrement s core job a) := by
  unfold decrement
  dsimp only
  split
  · exact .error
  · split
    · split
      · exact .error
      · split
        · split
          · exact .error
          · exact .ok (.when (.atomicAt (.cacheTlb h)) fun h => .pushTask h)
        · split
          · exact .error
          · split
            · split
              · exact .ok (.pushTask (.atomicAt h))
              · exact .ok (.pushTask (.devWr h))
            · split
              · exact .ok (.atomicAt h)
              · exact .ok (.devWr h)
    · exact .error
    · exact .error

protected theorem MemOk.spawnLanes {s : State} (h : MemOk s) {isTry : Bool} {off : Lane → Nat} {ls : List Lane} {r : Pushed} :
    MemOk (spawnLanes isTry off ls s r).1 := by
  induction ls generalizing isTry off s r with
  | nil => exact h
  | cons a l ih =>
    unfold spawnLanes
    split
    · exact ih h
    · split
      · exact ih h
      · exact h
    · exact ih (.pushTask h)

protected theorem ResOk.tspnBody {s : State} (h : MemOk s) {w : SWord} : ResOk (tspnBody w s) := by
  unfold tspnBody
  dsimp only
  split
  · split
    · exact .done h
    · split
      · exact .wait (.faultHere (.when (.spawnLanes (.release h)) fun h => .setMe h))
      · exact .done (.faultHere (.when (.spawnLanes (.release h)) fun h => .setMe h))
  · split
    · exact .done h
    · split
      · exact .wait (.faultHere (.when (.spawnLanes (.release h)) fun h => .setMe h))
      · exact .done (.faultHere (.when (.spawnLanes (.release h)) fun h => .setMe h))

protected theorem OutOk.execTspn {s : State} (h : MemOk s) {w : SWord} : OutOk (execTspn w s) := .next (.runWord h fun _ _ h => .tspnBody h)

protected theorem SomeOk.stealLevel {s : State} (h : MemOk s) {q n : Nat} : SomeOk (·.2) (stealLevel s q n) := by
  induction n generalizing s with
  | zero => exact .none
  | succ n ih =>
    unfold stealLevel
    split
    · exact .some (.setFifo h)
    · exact ih h

protected theorem LaneResOk.tstlLane {s : State} (h : MemOk s) {s0 : State} {w : SWord} {l : Lane} : LaneResOk (tstlLane w s0 s l) := by
  unfold tstlLane
  dsimp only
  split
  · exact .fault h
  · split
    · exact .fault h
    · split
      · exact .done h
      · next e2 => exact .done (.acquire (.scratchWr ((SomeOk.stealLevel h).of_eq e2)))

protected theorem ResOk.tstlBody {s : State} (h : MemOk s) {w : SWord} : ResOk (tstlBody w s) := by
  unfold tstlBody
  exact .objectWord (.ite h (.drain h)) fun _ _ h => .tstlLane h

protected theorem LaneResOk.tdecLane {s : State} (h : MemOk s) {s0 : State} {w : SWord} {l : Lane} : LaneResOk (tdecLane w s0 s l) := by
  unfold tdecLane
  dsimp only
  split
  · exact .fault h
  · next e => exact .done ((ExceptOk.decrement h).of_eq e)

protected theorem ResOk.tdecBody {s : State} (h : MemOk s) {w : SWord} : ResOk (tdecBody w s) := by
  unfold tdecBody
  exact .objectWord (.ite h (.release h)) fun _ _ h => .tdecLane h

protected theorem MemOk.endTask {s : State} (h : MemOk s) {cord : Nat} : MemOk (endTask s cord) :=
  .foldl (.setCord h) fun _ _ h => .setStrand h

protected theorem ResOk.tendBody {s : State} (h : MemOk s) {w : SWord} : ResOk (tendBody w s) := .once h fun _ _ _ h => .done (.endTask h)

protected theorem ResOk.enrdBody {s : State} (h : MemOk s) {w : SWord} : ResOk (enrdBody w s) :=
  .once h fun _ _ _ h => .done (.putD (.setMyCord h))

protected theorem ResOk.gcndBody {s : State} (h : MemOk s) {w : SWord} : ResOk (gcndBody w s) := .once h fun _ _ _ h => .storeWith h

/-! ### The functions of Machine/Preempt -/

protected theorem MemOk.chargeQueue {s : State} (h : MemOk s) {cord : Nat} : MemOk (chargeQueue s cord) := .frame h

protected theorem MemOk.reconcile {s : State} (h : MemOk s) {cord : Nat} : MemOk (reconcile s cord) := .frame h

protected theorem SomeOk.allocArea {s : State} (h : MemOk s) {cord : Nat} : SomeOk (·.2) (allocArea s cord) := by
  unfold allocArea
  dsimp only
  split
  · next e => exact .some ((SomeOk.allocate h).of_eq e)
  · exact .allocate (.afterFailed h)

protected theorem MemOk.dropHandle {s : State} (h : MemOk s) {job : Nat} {x : DWord} : MemOk (dropHandle s job x) := by
  unfold dropHandle
  split
  · exact SomeOk.getD (.changeCount h) h
  · exact h

protected theorem MemOk.stopCords {s : State} (h : MemOk s) {ks : List Nat} : MemOk (stopCords ks s).2 := by
  induction ks generalizing s with
  | nil => exact h
  | cons a l ih =>
    unfold stopCords
    dsimp only
    split
    · exact ih h
    · split
      · exact .afterFailed (.afterFailed h)
      · next e1 =>
        split
        · exact ih (.setCord ((SomeOk.allocArea h).of_eq e1))
        · exact .dropHandle (.setCord (ih (.setCord ((SomeOk.allocArea h).of_eq e1))))

protected theorem MemOk.vacate {s : State} (h : MemOk s) {core level : Nat} : MemOk (vacate s core level) := .frame h

protected theorem MemOk.chooseCores {level n k : Nat} {skip : List Nat} {s : State} (h : MemOk s) :
    MemOk (chooseCores level n k skip s).2 := by
  induction n generalizing k skip s with
  | zero => exact h
  | succ n ih =>
    cases k with
    | zero => exact h
    | succ k =>
      unfold chooseCores
      split
      · exact h
      · dsimp only
        split
        · exact ih (.vacate (.stopCords h))
        · exact ih (.stopCords h)

protected theorem MemOk.quiesceCord {s : State} (h : MemOk s) {cord : Nat} : MemOk (quiesceCord s cord) := by
  unfold quiesceCord
  dsimp only
  split
  · refine .flush (.ite (.frame ?_) (.foldl h fun _ _ h => .drain (.onStrand h fun _ h => .settleAll h)))
    refine .drainCap (.settleCap (.frame ?_))
    exact .foldl h fun _ _ h => .drain (.onStrand h fun _ h => .settleAll h)
  · exact .flush (.foldl h fun _ _ h => .drain (.onStrand h fun _ h => .settleAll h))

protected theorem MemOk.countWithdrawn {s : State} (h : MemOk s) {cord : Nat} : MemOk (countWithdrawn s cord) :=
  .foldl h fun _ _ h => .engineNames h

protected theorem MemOk.dropCord {s : State} (h : MemOk s) {cord : Nat} : MemOk (dropCord s cord) := .frame h

protected theorem MemOk.requeue {s : State} (h : MemOk s) {v : Saved} : MemOk (requeue s v) := .setFifo h

protected theorem MemOk.settleCord {s : State} (h : MemOk s) {cord : Nat} : MemOk (settleCord s cord) :=
  .countWithdrawn (.reconcile (.chargeQueue h))

protected theorem MemOk.writeArea {s : State} (h : MemOk s) {cord : Nat} : MemOk (writeArea s cord) := by
  unfold writeArea
  split
  · exact .devWr h
  · exact h

protected theorem OutOk.execCordSave {s : State} (h : MemOk s) : OutOk (execCordSave s) := by
  unfold execCordSave
  extract_lets k pair u vs t
  have hu : MemOk u := .foldl (.foldl (.foldl h fun _ _ h => .quiesceCord h) fun _ _ h => .settleCord h) fun _ _ h => .writeArea h
  have ht : MemOk t := .foldl hu fun _ _ h => .dropCord h
  clear_value t
  exact .ite (.next h) (.next (.foldl (.frame ht) fun _ _ h => .requeue h))

protected theorem MemOk.restoreCord {s : State} (h : MemOk s) {v : Saved} {new : Nat} : MemOk (restoreCord s v new) :=
  .dropHandle (.frame (.when (.setCore (.foldl (.setCord (.refresh h)) fun _ _ h => .setStrand h)) fun h => .reloadSaved h))

protected theorem SomeOk.postToTask {s : State} (h : MemOk s) {job : Nat} {target : DWord} {i : Nat} {m : DWord} :
    SomeOk id (postToTask s job target i m) := by
  unfold postToTask
  split
  · split
    · exact .some (.postDevice h)
    · exact .none
  · split
    · exact .none
    · split
      · exact .none
      · split
        · exact .some (.frame h)
        · exact .none

/-! ### The functions of Machine/Graph -/

protected theorem MemOk.raiseIrq {s : State} (h : MemOk s) {vec : Nat} : MemOk (raiseIrq s vec) := .frame h

protected theorem MemOk.flushRecords {s : State} (h : MemOk s) {n : Nat} : MemOk (flushRecords n s) := by
  induction n generalizing s with
  | zero => exact h
  | succ n ih =>
    unfold flushRecords
    split
    · exact h
    · refine .ite (ih (.frame h)) (.ite h (ih (.raiseIrq (.frame ?_))))
      exact .flushSys (.devWr (.frame h))

protected theorem MemOk.putRecord {s : State} (h : MemOk s) {seq kind status trap : Nat} {tag : DWord} {detail : Nat} :
    MemOk (putRecord s seq kind status trap tag detail) :=
  .flushRecords (.frame h)

protected theorem MemOk.setInst {s : State} (h : MemOk s) {i : Nat} {g : GInst} : MemOk (setInst s i g) := .frame h

protected theorem MemOk.failInst {s : State} (h : MemOk s) {i status trap node : Nat} : MemOk (failInst s i status trap node) := by
  unfold failInst
  split
  · exact h
  · exact .setInst h

protected theorem SomeOk.gWr {s : State} (h : MemOk s) {g : GInst} {off n v : Nat} : SomeOk id (gWr s g off n v) :=
  .mapAny fun _ => .agentWrAll h

protected theorem MemOk.orBad {s : State} (h : MemOk s) {i : Nat} {r : Option State} (hr : SomeOk id r) : MemOk (orBad s i r) :=
  SomeOk.getD hr (.failInst h)

protected theorem MemOk.decRem {s : State} (h : MemOk s) {i n : Nat} : MemOk (decRem i s n) := by
  unfold decRem
  split
  · exact h
  · split
    · exact .failInst h
    · exact .failInst h
    · split
      · exact .failInst h
      · next e2 => exact .when ((SomeOk.gWr h).of_eq e2) fun h => .setInst h

protected theorem MemOk.decList {s : State} (h : MemOk s) {i n offAt cntAt : Nat} : MemOk (decList s i n offAt cntAt) := by
  unfold decList
  split
  · exact h
  · split
    · split
      · exact .foldl h fun _ _ h => .decRem h
      · exact .failInst h
    · exact .failInst h

protected theorem SomeOk.writeFixups {s : State} (h : MemOk s) {g : GInst} {base : DWord} {fix : Nat} {x : DWord} {k : Nat} :
    SomeOk id (writeFixups g base fix x k s) := by
  induction k generalizing s with
  | zero => exact .some h
  | succ n ih =>
    unfold writeFixups
    split
    · split
      · exact ih (.agentWrAll h)
      · exact .none
    · exact .none

protected theorem MemOk.allocBuf {s : State} (h : MemOk s) {i n : Nat} {e : Nat × MEnt} : MemOk (allocBuf i n s e) := by
  unfold allocBuf
  dsimp only
  split
  · exact h
  · split
    · exact h
    · split
      · exact .failInst h
      · split
        · exact .failInst (.afterFailed h)
        · next e4 =>
          split
          · next e5 => exact (SomeOk.writeFixups (.setInst ((SomeOk.allocate h).of_eq e4))).of_eq e5
          · exact .failInst (.setInst ((SomeOk.allocate h).of_eq e4))

protected theorem MemOk.allocFirst {s : State} (h : MemOk s) {i n : Nat} : MemOk (allocFirst s i n) := by
  unfold allocFirst
  split
  · exact h
  · split
    · exact .failInst h
    · exact .foldl h fun _ _ h => .allocBuf h

protected theorem MemOk.dropLast {s : State} (h : MemOk s) {i n : Nat} : MemOk (dropLast s i n) := by
  unfold dropLast
  split
  · exact h
  · split
    · exact h
    · exact .foldl (.setInst h) fun _ _ h => .dropHandle h

protected theorem MemOk.completeNode {s : State} (h : MemOk s) {i n : Nat} : MemOk (completeNode s i n) := by
  unfold completeNode
  split
  · exact h
  · exact .dropLast (.decList (.setInst h))

protected theorem MemOk.dropNode {s : State} (h : MemOk s) {i n : Nat} : MemOk (dropNode s i n) := by
  unfold dropNode
  split
  · exact h
  · exact .setInst h

protected theorem MemOk.startNode {s : State} (h : MemOk s) {kind : Nat} {body : GInst → Nat → Nat → State → State}
    (hb : ∀ g i n t, MemOk t → MemOk (body g i n t)) : MemOk (startNode kind body s) := by
  unfold startNode
  dsimp only
  split
  · exact h
  · split
    · exact h
    · split
      · exact .failInst h
      · have ha : ∀ g i n, MemOk (allocFirst (setInst s i g) i n) := fun _ _ _ => .allocFirst (.setInst h)
        refine .ite (.failInst h) (.ite h ?_)
        split
        · exact ha ..
        · exact .ite (.dropNode (ha ..)) (hb _ _ _ _ (ha ..))

protected theorem MemOk.failNode {s : State} (h : MemOk s) {i n status trap : Nat} : MemOk (failNode s i n status trap) :=
  .dropNode (.failInst h)

protected theorem MemOk.badNode {s : State} (h : MemOk s) {i n : Nat} : MemOk (badNode s i n) := .dropNode (.failInst h)

protected theorem MemOk.kernelBody {s : State} (h : MemOk s) {g : GInst} {i n : Nat} : MemOk (kernelBody g i n s) := by
  unfold kernelBody
  split
  · exact .ite (.failNode h) (.pushItem (.setInst (.nextSeq h)))
  · exact .badNode h

protected theorem MemOk.nodeRows {rs : List Nat} {x : State × CopyOp} (h : MemOk x.1) : MemOk (nodeRows rs x).1 := by
  induction rs generalizing x with
  | nil => exact h
  | cons r rs ih =>
    obtain ⟨s, op⟩ := x
    unfold nodeRows
    split
    · exact h
    · refine ih (.moveRow ?_)
      split
      · exact h
      · next e =>
        have hp : MemOk _ := (ExceptOk.pinRow h).of_eq e
        split
        · exact hp
        · exact SomeOk.getD (.changeTier hp) (.reclaim hp)

protected theorem MemOk.nodeRecord {s : State} (h : MemOk s) {i n : Nat} {a : DWord} {x : Captured} : MemOk (nodeRecord s i n a x).2 := by
  unfold nodeRecord
  refine .copyAction (.writeBack (.frame ?_))
  exact .moveLabels (.nodeRows (.nextSeq h))

protected theorem MemOk.nodeWalk {g : GInst} {i n : Nat} {tail : DWord} {left : Nat} {pos : DWord} {st : Nat} {s : State} (h : MemOk s) :
    MemOk (nodeWalk g i n tail left pos st s).2 := by
  induction left generalizing pos st s with
  | zero => exact h
  | succ left ih =>
    unfold nodeWalk
    split
    · exact h
    · next x _ =>
      have hy : ∀ c : Bool, MemOk (if c then nodeRecord s i n pos x else (0, s)).2 := by
        intro c
        cases c
        · exact h
        · exact .nodeRecord h
      dsimp only
      split
      · exact hy _
      · split
        · exact hy _
        · exact ih (hy _)

protected theorem MemOk.copyNodeBody {s : State} (h : MemOk s) {g : GInst} {i n : Nat} : MemOk (copyNodeBody g i n s) := by
  unfold copyNodeBody
  split
  · split
    · exact .ite (.completeNode h) (.failNode h)
    · exact .ite (.completeNode (.nodeWalk h)) (.failNode (.nodeWalk h))
  · exact .badNode h

protected theorem MemOk.signalBody {s : State} (h : MemOk s) {g : GInst} {i n : Nat} : MemOk (signalBody g i n s) := by
  unfold signalBody
  dsimp only
  split
  · split
    · exact .completeNode (.subSignal h)
    · exact .failNode h
  · exact .badNode h

protected theorem MemOk.waitBody {s : State} (h : MemOk s) {g : GInst} {i n : Nat} : MemOk (waitBody g i n s) := by
  unfold waitBody
  split
  · exact .ite (.failNode h) (.setInst h)
  · exact .badNode h

protected theorem MemOk.rearm {s : State} (h : MemOk s) {i n : Nat} : MemOk (rearm i s n) := by
  unfold rearm
  split
  · exact h
  · split
    · exact .failInst h
    · exact .orBad h (.gWr h)

protected theorem MemOk.condBody {s : State} (h : MemOk s) {g : GInst} {i n : Nat} : MemOk (condBody g i n s) := by
  unfold condBody
  dsimp only
  split
  · split
    · exact .failNode h
    · split
      all_goals
        split
        · split
          · exact .badNode h
          · exact .dropLast (.dropNode (.decList (.foldl (.orBad h (.gWr h)) fun _ _ h => .rearm h)))
        · exact .completeNode (.orBad h (.gWr h))
  · exact .badNode h

protected theorem MemOk.raiseCovered {s : State} (h : MemOk s) {vec : Nat} : MemOk (raiseCovered s vec) := .raiseIrq (.flushSys h)

protected theorem MemOk.flushVector {s : State} (h : MemOk s) {vec : Nat} : MemOk (flushVector s vec) := .ite (.raiseCovered (.frame h)) h

protected theorem MemOk.notifyVector {s : State} (h : MemOk s) {vec : Nat} {flushes : Bool} : MemOk (notifyVector s vec flushes) :=
  .when (.countAdvance h) fun h => .flushVector h

protected theorem MemOk.notifyBody {s : State} (h : MemOk s) {g : GInst} {i n : Nat} : MemOk (notifyBody g i n s) := by
  unfold notifyBody
  split
  · exact .ite (.failNode h) (.completeNode (.notifyVector h))
  · exact .badNode h

protected theorem OutOk.execWaitNodeSatisfied {s : State} (h : MemOk s) : OutOk (execWaitNodeSatisfied s) := by
  unfold execWaitNodeSatisfied
  dsimp only
  split
  · exact .next h
  · split
    · exact .next h
    · have hi : ∀ g, MemOk (setInst s s.focus.ix g) := fun _ => .setInst h
      split
      · exact .next (.failNode (hi _))
      · next p _ =>
        generalize BitVec.ofNat 64 (leNat (devRdN s p.key 8)) = v
        exact .ite (.next h) (.next (.completeNode (hi _)))

protected theorem MemOk.writeCsig {s : State} (h : MemOk s) {g : GInst} {put : Option Nat} : MemOk (writeCsig s g put) := by
  unfold writeCsig
  split
  · exact h
  · split
    · split
      · exact .flushSys (.devWr (.flushSys h))
      · exact h
    · split
      · exact .flushSys (.devWr (.flushSys h))
      · exact h

protected theorem MemOk.finishInst {s : State} (h : MemOk s) {i status trap detail : Nat} {put : Option Nat} :
    MemOk (finishInst s i status trap detail put) := by
  unfold finishInst
  split
  · exact h
  · exact .putRecord (.frame (.writeCsig (.dropLast h)))

protected theorem OutOk.execEndNode {s : State} (h : MemOk s) : OutOk (execEndNode s) := by
  unfold execEndNode
  dsimp only
  split
  · exact .next h
  · split
    · exact .next h
    · split
      · split
        · exact .next (.dropLast (.allocFirst h))
        · exact .next (.finishInst (.dropLast (.allocFirst h)))
      · exact .next (.dropLast (.allocFirst h))

protected theorem OutOk.execGraphFailure {s : State} (h : MemOk s) : OutOk (execGraphFailure s) := by
  unfold execGraphFailure
  dsimp only
  split
  · exact .next h
  · split
    · exact .next h
    · split
      · exact .next h
      · exact .next (.finishInst h)

protected theorem MemOk.taskEnded {s : State} (h : MemOk s) {origin : Option (Nat × Nat)} {trap : Option TrapCode} :
    MemOk (taskEnded s origin trap) := by
  unfold taskEnded
  dsimp only
  split
  · exact h
  · split
    · split
      · exact .failInst h
      · exact h
    · split
      · split
        · exact .failInst h
        · exact h
      · split
        · split
          · exact .completeNode (.setInst (.failInst h))
          · exact .completeNode (.setInst h)
        · split
          · exact .setInst (.failInst h)
          · exact .setInst h

protected theorem SomeOk.takeEntry {s : State} (h : MemOk s) {p : Nat → Bool} : SomeOk (fun x => x.2.2) (takeEntry p s) := by
  unfold takeEntry
  dsimp only
  split
  · exact .none
  · split
    · exact .some (.frame h)
    · exact .none

protected theorem MemOk.presetNodes {s : State} (h : MemOk s) {i left n : Nat} : MemOk (presetNodes i left n s) := by
  induction left generalizing i n s with
  | zero => exact h
  | succ n ih =>
    unfold presetNodes
    split
    · exact h
    · split
      · split
        · exact .failInst h
        · split
          · exact .failInst h
          · next e4 => exact ih (.when ((SomeOk.gWr h).of_eq e4) fun h => .setInst h)
      · exact .failInst h

protected theorem MemOk.writePatches {s : State} (h : MemOk s) {g : GInst} {i : Nat} {values : DWord} {k : Nat} {ps : List (Nat × Nat)} :
    MemOk (writePatches g i values k ps s) := by
  induction ps generalizing g i values k s with
  | nil => exact h
  | cons a l ih =>
    unfold writePatches
    split
    · split
      · next e1 => exact ih ((SomeOk.gWr h).of_eq e1)
      · exact .failInst h
    · exact .failInst h

protected theorem MemOk.patchInst {s : State} (h : MemOk s) {i nodes : Nat} {values : DWord} : MemOk (patchInst s i nodes values) := by
  unfold patchInst
  split
  · exact h
  · split
    · exact h
    · split
      · exact .failInst h
      · exact .ite (.failInst h) (.writePatches h)

protected theorem MemOk.startInst {s : State} (h : MemOk s) {i : Nat} {values : DWord} : MemOk (startInst s i values) := by
  unfold startInst
  dsimp only
  split
  · exact h
  · split
    · exact .failInst h
    · split
      · exact .failInst h
      · split
        · exact .unless (.allocFirst (.patchInst h)) fun h => .presetNodes h
        · exact .allocFirst (.patchInst h)

protected theorem OutOk.execRun {s : State} (h : MemOk s) : OutOk (execRun s) := by
  unfold execRun
  split
  · exact .next h
  · next e =>
    split
    · exact .next (.putRecord ((SomeOk.takeEntry h).of_eq e))
    · split
      · exact .next (.putRecord ((SomeOk.takeEntry h).of_eq e))
      · exact .next (.startInst (.setInst (.frame ((SomeOk.takeEntry h).of_eq e))))

protected theorem OutOk.execPost {s : State} (h : MemOk s) : OutOk (execPost s) := by
  unfold execPost
  split
  · exact .next h
  · next e =>
    split
    · exact .next (.putRecord ((SomeOk.takeEntry h).of_eq e))
    · split
      · next e2 => exact .next (.putRecord ((SomeOk.postToTask ((SomeOk.takeEntry h).of_eq e)).of_eq e2))
      · exact .next (.putRecord ((SomeOk.takeEntry h).of_eq e))

protected theorem OutOk.execWatch {s : State} (h : MemOk s) : OutOk (execWatch s) := by
  unfold execWatch
  split
  · exact .next h
  · next e =>
    split
    · exact .next (.putRecord ((SomeOk.takeEntry h).of_eq e))
    · split
      · exact .next (.putRecord ((SomeOk.takeEntry h).of_eq e))
      · split
        · exact .next (.putRecord ((SomeOk.takeEntry h).of_eq e))
        · exact .next (.frame ((SomeOk.takeEntry h).of_eq e))

protected theorem OutOk.execBadentry {s : State} (h : MemOk s) : OutOk (execBadentry s) := by
  unfold execBadentry
  split
  · exact .next h
  · next e => exact .next (.putRecord ((SomeOk.takeEntry h).of_eq e))

protected theorem OutOk.execWatchFire {s : State} (h : MemOk s) : OutOk (execWatchFire s) := by
  unfold execWatchFire
  split
  · exact .next h
  · extract_lets t
    have ht : MemOk t := .frame h
    clear_value t
    split
    · exact .next (.putRecord ht)
    · split
      · exact .next (.putRecord ht)
      · next p _ =>
        generalize BitVec.ofNat 64 (leNat (devRdN s p.key 8)) = v
        refine .ite (.next h) ?_
        split
        · next e => exact .next (.putRecord ((SomeOk.postToTask ht).of_eq e))
        · exact .next (.putRecord ht)

/-! ### The functions of Machine/Scheduler -/

protected theorem MemOk.addRounds {s : State} (h : MemOk s) {qs : List Nat} : MemOk (addRounds s qs) :=
  .ite h (.foldl h fun _ _ h => .frame h)

protected theorem SomeOk.drr {s : State} (h : MemOk s) {level : Nat} {qs : List Nat} {n : Nat} : SomeOk (·.2) (drr level qs n s) := by
  induction n generalizing s with
  | zero => exact .none
  | succ n ih =>
    unfold drr
    split
    · exact .none
    · split
      · exact .some (.frame h)
      · exact ih (.frame h)

protected theorem SomeOk.choose {s : State} (h : MemOk s) {core l : Nat} : SomeOk (fun x => x.2.2) (choose s core l) := by
  induction l generalizing s with
  | zero => exact .none
  | succ n ih =>
    unfold choose
    dsimp only
    split
    · exact ih h
    · exact .map (.drr (.addRounds h)) fun _ h => h

protected theorem MemOk.countPasses {s : State} (h : MemOk s) : MemOk (countPasses s) := .frame h

protected theorem MemOk.popHeads {s : State} (h : MemOk s) {q level n : Nat} : MemOk (popHeads s q level n) :=
  .setFifo (.countPasses (.setFifo h))

protected theorem OutOk.execPassCountPromotion {s : State} (h : MemOk s) : OutOk (execPassCountPromotion s) := by
  unfold execPassCountPromotion
  dsimp only
  split
  · exact .next h
  · split
    · exact .next h
    · exact .next (.setFifo (.setFifo h))

protected theorem SomeOk.startCord {s : State} (h : MemOk s) {core job queue level : Nat} {origin : Option (Nat × Nat)} {r : TaskRec}
    {x : Ready} : SomeOk (·.2) (startCord s core job queue level origin r x) := by
  unfold startCord
  split
  · refine .some (.refresh (.foldl (.setCord (.frame ?_)) fun _ _ h => .setStrand h))
    exact .devWr (.frame h)
  · exact .none

protected theorem SomeOk.placeTask {s : State} (h : MemOk s) {core q level : Nat} {x : QItem} {r : TaskRec} {y : Ready} :
    SomeOk (·.2) (placeTask s core q level x r y) := by
  unfold placeTask
  dsimp only
  split
  · exact .startCord h
  · split
    · exact .some (.restoreCord (.frame h))
    · exact .none

protected theorem MemOk.noteHome {s : State} (h : MemOk s) {key : Option Nat} {core : Nat} : MemOk (noteHome s key core) := by
  unfold noteHome
  split
  · exact .ite h (.frame h)
  · exact h

protected theorem MemOk.reportEnd {s : State} (h : MemOk s) {job : Nat} {succ : DWord} {origin : Option (Nat × Nat)}
    {trap : Option TrapCode} : MemOk (reportEnd s job succ origin trap) := by
  unfold reportEnd
  split
  · exact .taskEnded h
  · split
    · next e1 => exact .taskEnded ((ExceptOk.decrement h).of_eq e1)
    · exact .taskEnded h

protected theorem MemOk.noteVacated {s : State} (h : MemOk s) {core level : Nat} : MemOk (noteVacated s core level) := by
  unfold noteVacated
  split
  · exact .ite (.frame h) h
  · exact h

protected theorem MemOk.makePartners {s : State} (h : MemOk s) {a b : Nat} {fresh : Bool} : MemOk (makePartners s a b fresh) :=
  .setCord (.setCord h)

protected theorem MemOk.holdAlone {s : State} (h : MemOk s) {cord : Nat} : MemOk (holdAlone s cord) := .setCord h

protected theorem MemOk.discardSaved {s : State} (h : MemOk s) {r : TaskRec} : MemOk (discardSaved s r) := by
  unfold discardSaved
  split
  · exact h
  · exact .dropHandle (.frame h)

protected theorem MemOk.decide' {s : State} (h : MemOk s) {core : Nat} : MemOk (decide' s core) := by
  unfold decide'
  dsimp only
  split
  · exact h
  · next e =>
    have ht : MemOk _ := (SomeOk.choose h).of_eq e
    split
    · exact ht
    · split
      · exact ht
      · exact .reportEnd (.discardSaved (.popHeads ht))
      · split
        · next e => exact .noteVacated (.noteHome (.holdAlone ((SomeOk.placeTask (.popHeads ht)).of_eq e)))
        · exact ht
      · split
        · exact ht
        · split
          · exact ht
          · next e =>
            have hu : MemOk _ := (SomeOk.placeTask (.popHeads ht)).of_eq e
            split
            · exact ht
            · next e => exact .noteVacated (.noteHome (.makePartners ((SomeOk.placeTask hu).of_eq e)))

protected theorem MemOk.promoteFirst {s : State} (h : MemOk s) : MemOk (promoteFirst s) := .frame h

protected theorem MemOk.leavePartner {s : State} (h : MemOk s) {cord : Nat} : MemOk (leavePartner s cord) := by
  unfold leavePartner
  split
  · exact .setCord h
  · exact h

protected theorem MemOk.dropArea {s : State} (h : MemOk s) {cord : Nat} : MemOk (dropArea s cord) := .ite h (.dropHandle h)

protected theorem OutOk.execTaskEnd {s : State} (h : MemOk s) : OutOk (execTaskEnd s) := by
  unfold execTaskEnd
  dsimp only
  split
  · exact .next h
  · exact .next (.reportEnd (.frame (.flush (.dropCord (.reconcile (.chargeQueue (.leavePartner (.dropArea h))))))))

/-! ### The functions of Machine/Traps -/

protected theorem MemOk.takeRecorded {s : State} (h : MemOk s) {t : TrapInfo} : MemOk (takeRecorded s t) := .takeTrap (.setMe h)

protected theorem SomeOk.takeDue {s : State} (h : MemOk s) : SomeOk id (takeDue s) := by
  unfold takeDue
  split
  · exact .none
  · split
    · exact .some (.takeDeferred h)
    · split
      · exact .mapAny fun _ => .takeRecorded h
      · exact .none

protected theorem MemOk.headerWait {s : State} (h : MemOk s) {m : BitVec 8} : MemOk (headerWait s m) := by
  refine .ite (.setMe h) (.when (.frame (.when (.countSplit ?_) fun h => .drain h)) fun h => .endClause h)
  exact .when (.when (.when (.setMe h) fun h => .settleClass h) fun h => .settleClass h) fun h => .settleClass h

protected theorem FetchedOk.strandFetch {s : State} (h : MemOk s) {a : VAddr} : FetchedOk (strandFetch s a) := .fetchAt h

protected theorem MemOk.fetchFault {s : State} (h : MemOk s) {c : TrapCode} {pc : VAddr} {place : Option Nat} {a : DWord} {m : LaneMask} :
    MemOk (fetchFault s c pc place a m) :=
  .countSplit (.faultLanes h)

protected theorem MemOk.illegalClause {s : State} (h : MemOk s) {pc : VAddr} {m : LaneMask} : MemOk (illegalClause s pc m) :=
  .takeTrap (.frame h)

protected theorem MemOk.handlerHeader {s : State} (h : MemOk s) {x : Handler} : MemOk (handlerHeader s x) := by
  unfold handlerHeader
  split
  · exact .fetchFault h
  · exact .fetchFault h
  · next e =>
    have ht : MemOk _ := (FetchedOk.strandFetch h).of_eq e
    exact .ite (.illegalClause ht) (.headerWait (.setClause ht))

protected theorem MemOk.groupHeader {s : State} (h : MemOk s) {l : Lane} : MemOk (groupHeader s l) := by
  unfold groupHeader
  dsimp only
  split
  · exact .fetchFault (.setMe h)
  · split
    · exact .fetchFault (.setMe h)
    · exact .fetchFault (.setMe h)
    · next e =>
      have ht : MemOk _ := (FetchedOk.strandFetch (.setMe h)).of_eq e
      split
      · exact .setClause ht
      · exact .ite (.illegalClause ht) (.headerWait (.setClause ht))

protected theorem OutOk.execClauseHeader {s : State} (h : MemOk s) : OutOk (execClauseHeader s) := by
  unfold execClauseHeader
  split
  · exact .next h
  · split
    · exact .next (.setMe h)
    · split
      · exact .next h
      · split
        · split
          · exact .next h
          · exact .next (SomeOk.getD (.takeDue h) h)
        · split
          · exact .next (.headerWait h)
          · split
            · exact .next (.handlerHeader h)
            · split
              · next e6 => exact .next ((SomeOk.takeDue h).of_eq e6)
              · split
                · exact .next (.groupHeader h)
                · exact .next h

protected theorem ResOk.trdlBody {s : State} (h : MemOk s) {w : SWord} : ResOk (trdlBody w s) := .once h fun _ _ _ h => .done (.putD h)

protected theorem ResOk.twrlBody {s : State} (h : MemOk s) {w : SWord} : ResOk (twrlBody w s) := by
  unfold twrlBody
  refine .once h fun w l s h => ?_
  dsimp only
  split
  · exact .done h
  · split
    · exact .done (.setMe h)
    · exact .done (.setMe h)
    · split
      · exact .trap
      · exact .done (.setMe h)

protected theorem ResOk.tinfBody {s : State} (h : MemOk s) {w : SWord} : ResOk (tinfBody w s) := .once h fun _ _ _ h => .done (.putD h)

protected theorem ResOk.tmskBody {s : State} (h : MemOk s) {w : SWord} : ResOk (tmskBody w s) :=
  .once h fun _ _ _ h => .done (.setMe (.putD h))

protected theorem MemOk.releaseHeld {s : State} (h : MemOk s) {cord : Nat} : MemOk (releaseHeld s cord) :=
  .foldl h fun _ _ h => .setStrand h

protected theorem MemOk.skipStall {s : State} (h : MemOk s) : MemOk (skipStall s) := by
  unfold skipStall
  split
  · exact h
  · exact .advance (.setMe h)

protected theorem MemOk.returnLanes {s : State} (h : MemOk s) {mode : Nat} {set : LaneMask} : MemOk (returnLanes s mode set) := by
  unfold returnLanes
  split
  · exact .setMe h
  · exact .setMe h
  · exact .exitThreads h

protected theorem MemOk.returnStrand {s : State} (h : MemOk s) {mode : Nat} : MemOk (returnStrand s mode) := by
  unfold returnStrand
  split
  · exact h
  · exact .skipStall h
  · exact .exitThreads (.setMe h)

protected theorem MemOk.returnFrom {s : State} (h : MemOk s) {mode : Nat} : MemOk (returnFrom mode s) := by
  unfold returnFrom
  dsimp only
  split
  · exact h
  · split
    · exact .escalate h
    · split
      · split
        · exact .ite (.takeTrap (.releaseHeld (.returnLanes (.setMe h)))) (.setMe (.releaseHeld (.returnLanes (.setMe h))))
        · exact .ite (.takeTrap (.releaseHeld (.returnLanes (.setMe h)))) (.setMe (.releaseHeld (.returnLanes (.setMe h))))
        · exact .ite (.takeTrap (.releaseHeld (.returnStrand (.setMe h)))) (.setMe (.releaseHeld (.returnStrand (.setMe h))))
        · exact .ite (.takeTrap (.releaseHeld (.returnStrand (.setMe h)))) (.setMe (.releaseHeld (.returnStrand (.setMe h))))
      · split
        · exact .ite (.takeTrap (.returnLanes (.setMe h))) (.setMe (.returnLanes (.setMe h)))
        · exact .ite (.takeTrap (.returnLanes (.setMe h))) (.setMe (.returnLanes (.setMe h)))
        · exact .ite (.takeTrap (.returnStrand (.setMe h))) (.setMe (.returnStrand (.setMe h)))
        · exact .ite (.takeTrap (.returnStrand (.setMe h))) (.setMe (.returnStrand (.setMe h)))

protected theorem MemOk.tretSettle {s : State} (h : MemOk s) {sw : Bool} : MemOk (tretSettle sw s) := .ite (.settleAll h) h

protected theorem MemOk.tretRun {s : State} (h : MemOk s) {w : SWord} : MemOk (tretRun w s) := by
  unfold tretRun
  split
  · exact h
  · split
    · exact .preciseTrap h
    · exact .ite (.finishWord h) (.returnFrom (.frame (.tretSettle h)))

protected theorem SomeOk.wordHere {s : State} (h : MemOk s) : SomeOk (·.2) (wordHere s) := by
  unfold wordHere
  split
  · exact .none
  · split
    · next e1 => exact .mapAny fun _ => (FetchedOk.strandFetch h).of_eq e1
    · exact .none

protected theorem OutOk.execSigrWake {s : State} (h : MemOk s) : OutOk (execSigrWake s) := by
  unfold execSigrWake
  split
  · split
    · next e1 => exact .execSigr ((SomeOk.wordHere h).of_eq e1)
    · exact .next h
  · exact .next h

protected theorem OutOk.execTspnRoom {s : State} (h : MemOk s) : OutOk (execTspnRoom s) := by
  unfold execTspnRoom
  split
  · split
    · split
      · next e2 => exact .execTspn ((SomeOk.wordHere h).of_eq e2)
      · exact .next h
    · exact .next h
  · exact .next h

protected theorem MemOk.reportSnag {s : State} (h : MemOk s) {c : List Nat} : MemOk (reportSnag s c) :=
  .recordTrap (.foldl h fun _ _ h => .setStrand h)

protected theorem OutOk.execSnagSearch {s : State} (h : MemOk s) : OutOk (execSnagSearch s) := by
  unfold execSnagSearch
  dsimp only
  split
  · exact .next h
  · split
    · exact .next (.setMe h)
    · exact .next (.unless (.setMe h) fun h => .reportSnag h)

/-! ### The functions of Machine/Commands -/

protected theorem MemOk.loadTable {s : State} (h : MemOk s) {t : Nat} : MemOk (loadTable s t) := by
  unfold loadTable
  split <;> exact .frame h

protected theorem MemOk.reloadEntry {s : State} (h : MemOk s) {t i : Nat} : MemOk (reloadEntry s t i) := by
  unfold reloadEntry
  split <;> exact .frame h

protected theorem MemOk.rejectWrite {s : State} (h : MemOk s) : MemOk (rejectWrite s) := .frame h

protected theorem MemOk.writeTableBase {s : State} (h : MemOk s) {t : Nat} {v : DWord} : MemOk (writeTableBase s t v) :=
  .ite h (.ite (.loadTable (.frame h)) (.rejectWrite h))

protected theorem MemOk.writeSrbase {s : State} (h : MemOk s) {v : DWord} : MemOk (writeSrbase s v) := .ite (.frame h) (.rejectWrite h)

protected theorem MemOk.writeSrsize {s : State} (h : MemOk s) {v : DWord} : MemOk (writeSrsize s v) := .ite (.frame h) (.rejectWrite h)

protected theorem MemOk.writeCrbase {s : State} (h : MemOk s) {v : DWord} : MemOk (writeCrbase s v) := .ite (.frame h) (.rejectWrite h)

protected theorem MemOk.writeCrsize {s : State} (h : MemOk s) {v : DWord} : MemOk (writeCrsize s v) := .ite (.frame h) (.rejectWrite h)

protected theorem MemOk.writeSrtail {s : State} (h : MemOk s) {v : DWord} : MemOk (writeSrtail s v) :=
  .ite h (.ite (.rejectWrite h) (.frame h))

protected theorem MemOk.writeCrhead {s : State} (h : MemOk s) {v : DWord} : MemOk (writeCrhead s v) :=
  .ite (.rejectWrite h) (.flushRecords (.frame h))

protected theorem MemOk.writePowercap {s : State} (h : MemOk s) {v : DWord} : MemOk (writePowercap s v) := .frame h

protected theorem MemOk.flushAll {s : State} (h : MemOk s) : MemOk (flushAll s) := .flushSys (.foldl h fun _ _ h => .flush h)

protected theorem MemOk.finishCommand {s : State} (h : MemOk s) {status : Nat} {result : Word} : MemOk (finishCommand s status result) :=
  .raiseIrq (.frame h)

protected theorem MemOk.dropRange {s : State} (h : MemOk s) {job va len : Nat} : MemOk (dropRange s job va len) := .frame h

protected theorem SomeOk.cmdInval {s : State} (h : MemOk s) : SomeOk (fun x => x.2.2) (cmdInval s) := by
  unfold cmdInval
  dsimp only
  split
  · exact .none
  · exact .some (.dropRange h)

protected theorem SomeOk.cmdReload {s : State} (h : MemOk s) : SomeOk (fun x => x.2.2) (cmdReload s) := by
  unfold cmdReload
  dsimp only
  split
  · exact .none
  · exact .some (.reloadEntry h)

protected theorem MemOk.clearTable {s : State} (h : MemOk s) {job : Nat} : MemOk (clearTable s job) :=
  .foldl (.frame h) fun _ _ h => .setObj h

protected theorem SomeOk.cmdJobstart {s : State} (h : MemOk s) : SomeOk (fun x => x.2.2) (cmdJobstart s) := by
  unfold cmdJobstart
  dsimp only
  split
  · exact .none
  · split
    · exact .some h
    · exact .some (.frame (.foldl (.clearTable (.reloadEntry h)) fun _ _ h => .garble h))

protected theorem MemOk.destroyKey {s : State} (h : MemOk s) {job : Nat} : MemOk (destroyKey s job) := by
  refine List.foldlRecOn (motive := fun m => Memory.wf m = true) _ _ h fun m hm e _ => ?_
  split
  · exact memWr_wf hm _ _
  · exact hm

protected theorem MemOk.zeroNear {s : State} (h : MemOk s) {base n : Nat} : MemOk (zeroNear s base n) := .of_wf (memFilter_wf h _)

protected theorem SomeOk.cmdJobend {s : State} (h : MemOk s) : SomeOk (fun x => x.2.2) (cmdJobend s) := by
  unfold cmdJobend
  dsimp only
  split
  · exact .none
  · split
    · exact .some h
    · split
      · exact .some (.flushSys (.subSignal (.zeroNear (.destroyKey (.flushAll h)))))
      · exact .some (.zeroNear (.destroyKey (.flushAll h)))

protected theorem SomeOk.cmdVacate {s : State} (h : MemOk s) : SomeOk (fun x => x.2.2) (cmdVacate s) := by
  unfold cmdVacate
  dsimp only
  split
  · exact .none
  · exact .some (.chooseCores h)

protected theorem SomeOk.cmdWithdraw {s : State} (h : MemOk s) : SomeOk (fun x => x.2.2) (cmdWithdraw s) := .some (.frame h)

protected theorem SomeOk.cmdCoreoff {s : State} (h : MemOk s) : SomeOk (fun x => x.2.2) (cmdCoreoff s) := by
  unfold cmdCoreoff
  dsimp only
  split
  · exact .none
  · split
    · exact .some (.frame (.stopCords h))
    · exact .some (.stopCords h)

protected theorem SomeOk.cmdCoreon {s : State} (h : MemOk s) : SomeOk (fun x => x.2.2) (cmdCoreon s) := by
  unfold cmdCoreon
  dsimp only
  split
  · exact .none
  · exact .some (.frame h)

protected theorem SomeOk.cmdPortrem {s : State} (h : MemOk s) : SomeOk (fun x => x.2.2) (cmdPortrem s) := by
  unfold cmdPortrem
  dsimp only
  split
  · exact .none
  · exact .some (.frame h)

protected theorem MemOk.trainPort {s : State} (h : MemOk s) {p : Nat} : MemOk (trainPort s p) := .frame h

protected theorem SomeOk.cmdPortadd {s : State} (h : MemOk s) : SomeOk (fun x => x.2.2) (cmdPortadd s) := by
  unfold cmdPortadd
  dsimp only
  split
  · exact .none
  · exact .some (.frame h)

protected theorem MemOk.hostWr {s : State} (h : MemOk s) {a : DWord} {bs : List Byte} : MemOk (hostWr s a bs) := .flushSys (.devWr h)

protected theorem SomeOk.cmdAttest {s : State} (h : MemOk s) : SomeOk (fun x => x.2.2) (cmdAttest s) := .some (.hostWr h)

protected theorem SomeOk.cmdFwstage {s : State} (h : MemOk s) : SomeOk (fun x => x.2.2) (cmdFwstage s) := by
  unfold cmdFwstage
  dsimp only
  split
  · exact .some (.frame h)
  · exact .some h

protected theorem SomeOk.cmdFwswap {s : State} (h : MemOk s) : SomeOk (fun x => x.2.2) (cmdFwswap s) := by
  unfold cmdFwswap
  dsimp only
  split
  · exact .some (.frame h)
  · exact .some h

protected theorem SomeOk.cmdRun {s : State} (h : MemOk s) {n : Nat} : SomeOk (fun x => x.2.2) (cmdRun n s) := by
  unfold cmdRun
  split
  · exact .cmdInval h
  · exact .cmdReload h
  · exact .cmdJobstart h
  · exact .cmdJobend h
  · exact .cmdVacate h
  · exact .cmdWithdraw h
  · exact .cmdCoreoff h
  · exact .cmdCoreon h
  · exact .cmdPortrem h
  · exact .cmdPortadd h
  · exact .cmdAttest h
  · exact .cmdFwstage h
  · exact .cmdFwswap h
  · exact .none

protected theorem MemOk.command {s : State} (h : MemOk s) {n : Nat} : MemOk (command n s) := by
  unfold command
  refine .ite h (.ite (.finishCommand (.frame h)) ?_)
  split
  · exact .finishCommand h
  · next e =>
    have ht : MemOk _ := (SomeOk.cmdRun h).of_eq e
    exact ht

protected theorem OutOk.execRegisterWrite {s : State} (h : MemOk s) {off : Nat} {v : DWord} : OutOk (execRegisterWrite off v s) := by
  unfold execRegisterWrite
  split
  · exact .next (.writeTableBase h)
  · exact .next (.writeTableBase h)
  · exact .next (.writeTableBase h)
  · exact .next (.writeTableBase h)
  · exact .next (.writeTableBase h)
  · exact .next (.writeSrbase h)
  · exact .next (.writeSrsize h)
  · exact .next (.writeSrtail h)
  · exact .next (.writeCrbase h)
  · exact .next (.writeCrsize h)
  · exact .next (.writeCrhead h)
  · exact .next (.command h)
  · exact .next (.frame h)
  · exact .next (.frame h)
  · exact .next (.frame h)
  · exact .next (.frame h)
  · exact .next (.writePowercap h)
  · exact .next h

protected theorem OutOk.execCommandComplete {s : State} (h : MemOk s) : OutOk (execCommandComplete s) := by
  unfold execCommandComplete
  split
  · exact .next h
  · split
    · exact .next h
    · split
      · exact .next (.finishCommand (.ite (.frame h) h))
      · split
        · exact .next (.finishCommand (.dropRange h))
        · exact .next (.finishCommand h)

protected theorem MemOk.afterReset {s : State} (h : MemOk s) : MemOk (afterReset s) := .of_wf (memFilter_wf h _)

protected theorem MemOk.destroyKeys {s : State} (h : MemOk s) : MemOk (destroyKeys s) := .foldl h fun _ _ h => .destroyKey h

protected theorem OutOk.execDeviceReset {s : State} (h : MemOk s) : OutOk (execDeviceReset s) := by
  unfold execDeviceReset
  split <;> exact .next (.frame (.afterReset (.destroyKeys (.flushAll h))))

protected theorem MemOk.bringUp {s : State} (h : MemOk s) : MemOk (bringUp s) := by
  unfold bringUp
  split
  · exact h
  · refine .frame (.foldl (s := _) ?_ fun _ _ h => .trainPort h)
    exact .of_wf (memFilter_wf h _)

/-! ### The functions of Machine/Service -/

protected theorem MemOk.refreshView {s : State} (h : MemOk s) {core key : Nat} : MemOk (refreshView s core key) := .setCore h

protected theorem MemOk.refreshDie {s : State} (h : MemOk s) {die key : Nat} : MemOk (refreshDie s die key) := .frame h

protected theorem OutOk.execWritePropagation {s : State} (h : MemOk s) {x : Hop} : OutOk (execWritePropagation x s) := by
  unfold execWritePropagation
  split
  · exact .next (.moveToDie h)
  · exact .next (.moveToDevice h)
  · exact .next (.moveToSystem h)
  · exact .next (.refreshView h)
  · exact .next (.refreshDie h)

protected theorem MemOk.keepView {s : State} (h : MemOk s) {core key : Nat} : MemOk (keepView s core key) := .ite h (.setCore h)

protected theorem MemOk.keepDie {s : State} (h : MemOk s) {die key : Nat} : MemOk (keepDie s die key) := .ite h (.frame h)

protected theorem MemOk.poisonDie {s : State} (h : MemOk s) {die key : Nat} : MemOk (poisonDie s die key) := .ite h (.frame (.keepDie h))

protected theorem MemOk.poisonWord {s : State} (h : MemOk s) {key : Nat} : MemOk (poisonWord s key) :=
  .ite (.poisonDie h) (.ite (.ite (.setSilt h) h) (.ite (.ite (.setCord h) h) (.ite h (.frame h))))

protected theorem MemOk.tickCore {s : State} (h : MemOk s) {core n : Nat} : MemOk (tickCore s core n) := .frame h

protected theorem MemOk.keepConst {s : State} (h : MemOk s) {cord key : Nat} : MemOk (keepConst s cord key) := .ite h (.frame h)

protected theorem MemOk.glimpse {s : State} (h : MemOk s) : MemOk (glimpse s) := by
  unfold glimpse
  split
  · exact h
  · exact .ite h (.setRun (.drainCap h))

protected theorem MemOk.dropTlb {s : State} (h : MemOk s) {core ix : Nat} : MemOk (dropTlb s core ix) := .setCore h

protected theorem MemOk.hostByte {s : State} (h : MemOk s) {addr : Nat} {b : Byte} : MemOk (hostByte s addr b) :=
  .noteWrite (.of_wf (memWr_wf (.settleSys h : MemOk (settleSys s (hostKey addr) 1)) _ _))

protected theorem MemOk.hostNear {s : State} (h : MemOk s) {addr : Nat} {b : Byte} : MemOk (hostNear s addr b) :=
  .ite h (.noteWrite (.of_wf (memWr_wf h _ _)))

/-! ### The functions of Machine/Dispatch -/

protected theorem OutOk.exec {s : State} (h : MemOk s) {i : Instr} : OutOk (exec i s) := by
  cases i with
  | nop _ => exact .next (.runWord h fun _ _ h => .done h)
  | mov _ => exact .next (.runWord h fun _ _ h => .lanes h)
  | movi _ => exact .next (.runWord h fun _ _ h => .lanes h)
  | movh _ => exact .next (.runWord h fun _ _ h => .lanes h)
  | sel _ => exact .next (.runWord h fun _ _ h => .lanes h)
  | lea _ => exact .next (.runWord h fun _ _ h => .lanes h)
  | srd _ => exact .next (.runWord h fun _ _ h => .lanes h)
  | swr _ => exact .next (.runWord h fun _ _ h => .swrBody h)
  | iadd _ => exact .next (.runWord h fun _ _ h => .int2 h)
  | isub _ => exact .next (.runWord h fun _ _ h => .int2 h)
  | iaddc _ => exact .next (.runWord h fun _ _ h => .iaddcBody h)
  | imul _ => exact .next (.runWord h fun _ _ h => .int2 h)
  | imulh _ => exact .next (.runWord h fun _ _ h => .int2 h)
  | imad _ => exact .next (.runWord h fun _ _ h => .int3 h)
  | imadw _ => exact .next (.runWord h fun _ _ h => .lanes h)
  | idiv _ => exact .next (.runWord h fun _ _ h => .lanes h)
  | irem _ => exact .next (.runWord h fun _ _ h => .lanes h)
  | imin _ => exact .next (.runWord h fun _ _ h => .int2 h)
  | imax _ => exact .next (.runWord h fun _ _ h => .int2 h)
  | iabs _ => exact .next (.runWord h fun _ _ h => .int1 h)
  | ineg _ => exact .next (.runWord h fun _ _ h => .int1 h)
  | isat _ => exact .next (.runWord h fun _ _ h => .lanes h)
  | and _ => exact .next (.runWord h fun _ _ h => .int2 h)
  | or _ => exact .next (.runWord h fun _ _ h => .int2 h)
  | xor _ => exact .next (.runWord h fun _ _ h => .int2 h)
  | andn _ => exact .next (.runWord h fun _ _ h => .int2 h)
  | not _ => exact .next (.runWord h fun _ _ h => .int1 h)
  | shl _ => exact .next (.runWord h fun _ _ h => .shift h)
  | shr _ => exact .next (.runWord h fun _ _ h => .shift h)
  | sar _ => exact .next (.runWord h fun _ _ h => .shift h)
  | rotl _ => exact .next (.runWord h fun _ _ h => .shift h)
  | bfx _ => exact .next (.runWord h fun _ _ h => .lanes h)
  | bfi _ => exact .next (.runWord h fun _ _ h => .word3 h)
  | popc _ => exact .next (.runWord h fun _ _ h => .bitCount h)
  | clz _ => exact .next (.runWord h fun _ _ h => .bitCount h)
  | ctz _ => exact .next (.runWord h fun _ _ h => .bitCount h)
  | brev _ => exact .next (.runWord h fun _ _ h => .int1 h)
  | bprm _ => exact .next (.runWord h fun _ _ h => .word3 h)
  | icmp _ => exact .next (.runWord h fun _ _ h => .predResult h)
  | iset _ => exact .next (.runWord h fun _ _ h => .lanes h)
  | plog _ => exact .next (.runWord h fun _ _ h => .predResult h)
  | pmov _ => exact .next (.runWord h fun _ _ h => .pmovBody h)
  | idot4 _ => exact .next (.runWord h fun _ _ h => .word3 h)
  | idot2 _ => exact .next (.runWord h fun _ _ h => .word3 h)
  | iadd3 _ => exact .next (.runWord h fun _ _ h => .int3 h)
  | blut _ => exact .next (.runWord h fun _ _ h => .int3 h)
  | rhash _ => exact .next (.runWord h fun _ _ h => .lanes h)
  | fshf _ => exact .next (.runWord h fun _ _ h => .word3 h)
  | fadd _ => exact .next (.runWord h fun _ _ h => .flWord h)
  | fsub _ => exact .next (.runWord h fun _ _ h => .flWord h)
  | fmul _ => exact .next (.runWord h fun _ _ h => .flWord h)
  | ffma _ => exact .next (.runWord h fun _ _ h => .flWord h)
  | fmin _ => exact .next (.runWord h fun _ _ h => .flWord h)
  | fmax _ => exact .next (.runWord h fun _ _ h => .flWord h)
  | fminp _ => exact .next (.runWord h fun _ _ h => .flWord h)
  | fmaxp _ => exact .next (.runWord h fun _ _ h => .flWord h)
  | fabs _ => exact .next (.runWord h fun _ _ h => .flWord h)
  | fneg _ => exact .next (.runWord h fun _ _ h => .flWord h)
  | fcmp _ => exact .next (.runWord h fun _ _ h => .predResult h)
  | fset _ => exact .next (.runWord h fun _ _ h => .flWord h)
  | fcls _ => exact .next (.runWord h fun _ _ h => .predResult h)
  | frnd _ => exact .next (.runWord h fun _ _ h => .flWord h)
  | fscl _ => exact .next (.runWord h fun _ _ h => .lanes h)
  | fexpn _ => exact .next (.runWord h fun _ _ h => .lanes h)
  | fdot2 _ => exact .next (.runWord h fun _ _ h => .lanes h)
  | fdot4 _ => exact .next (.runWord h fun _ _ h => .fdot4Body h)
  | fcps _ => exact .next (.runWord h fun _ _ h => .flWord h)
  | fmed3 _ => exact .next (.runWord h fun _ _ h => .flWord h)
  | exp2 _ => exact .next (.runWord h fun _ _ h => .xuWord h)
  | log2 _ => exact .next (.runWord h fun _ _ h => .xuWord h)
  | rcp _ => exact .next (.runWord h fun _ _ h => .xuWord h)
  | rsq _ => exact .next (.runWord h fun _ _ h => .xuWord h)
  | sqrt _ => exact .next (.runWord h fun _ _ h => .lanes h)
  | sinp _ => exact .next (.runWord h fun _ _ h => .xuWord h)
  | cosp _ => exact .next (.runWord h fun _ _ h => .xuWord h)
  | tanh _ => exact .next (.runWord h fun _ _ h => .xuWord h)
  | fdiv _ => exact .next (.runWord h fun _ _ h => .flWord h)
  | fadd3 _ => exact .next (.runWord h fun _ _ h => .flWord h)
  | cvtf _ => exact .next (.runWord h fun _ _ h => .lanes h)
  | cvne _ => exact .next (.runWord h fun _ _ h => .cvneBody h)
  | cvnd _ => exact .next (.runWord h fun _ _ h => .cvndBody h)
  | i2f _ => exact .next (.runWord h fun _ _ h => .lanes h)
  | f2i _ => exact .next (.runWord h fun _ _ h => .lanes h)
  | pack _ => exact .next (.runWord h fun _ _ h => .lanes h)
  | unpk _ => exact .next (.runWord h fun _ _ h => .lanes h)
  | fxq _ => exact .next (.runWord h fun _ _ h => .lanes h)
  | fxd _ => exact .next (.runWord h fun _ _ h => .lanes h)
  | bscl _ => exact .next (.runWord h fun _ _ h => .bsclBody h)
  | shfl _ => exact .next (.runWord h fun _ _ h => .crossLane h)
  | bxch _ => exact .next (.runWord h fun _ _ h => .crossLane h)
  | rxch _ => exact .next (.runWord h fun _ _ h => .rxchBody h)
  | vote _ => exact .next (.runWord h fun _ _ h => .voteBody h)
  | matchLanes _ => exact .next (.runWord h fun _ _ h => .crossLane h)
  | lmov _ => exact .next (.runWord h fun _ _ h => .crossLane h)
  | lput _ => exact .next (.runWord h fun _ _ h => .lputBody h)
  | redl _ => exact .next (.runWord h fun _ _ h => .redlBody h)
  | scanl _ => exact .next (.runWord h fun _ _ h => .scanlBody h)
  | lfnd _ => exact .next (.runWord h fun _ _ h => .crossLane h)
  | lrot _ => exact .next (.runWord h fun _ _ h => .crossLane h)
  | bra _ => exact .next (.runWord h fun _ _ h => .braBody h)
  | brx _ => exact .next (.runWord h fun _ _ h => .jumpTo h)
  | call _ => exact .next (.runWord h fun _ _ h => .callBody h)
  | callx _ => exact .next (.runWord h fun _ _ h => .jumpTo h)
  | ret _ => exact .next (.runWord h fun _ _ h => .jumpTo h)
  | join _ => exact .next (.runWord h fun _ _ h => .joinBody h)
  | meet _ => exact .next (.runWord h fun _ _ h => .meetBody h)
  | exit _ => exact .next (.runWord h fun _ _ h => .exitBody h)
  | trap _ => exact .next (.runWord h fun _ _ h => .trapBody h)
  | yield _ => exact .next (.runWord h fun _ _ h => .yieldBody h)
  | ptok _ => exact .next (.runWord h fun _ _ h => .once h fun _ _ _ h => .done (.passToken h))
  | brk _ => exact .next (.runWord h fun _ _ h => .trapBody h)
  | bdec _ => exact .next (.runWord h fun _ _ h => .bdecBody h)
  | ld _ => exact .next (.runWord h fun _ _ h => .ldBody h)
  | st _ => exact .next (.runWord h fun _ _ h => .stBody h)
  | lds _ => exact .next (.runWord h fun _ _ h => .ldsWith h)
  | sts _ => exact .next (.runWord h fun _ _ h => .stsBody h)
  | ldc _ => exact .next (.runWord h fun _ _ h => .ldcBody h)
  | ldaq _ => exact .next (.runWord h fun _ _ h => .ldaqBody h)
  | strl _ => exact .next (.runWord h fun _ _ h => .stBody h)
  | stnt _ => exact .next (.runWord h fun _ _ h => .stBody h)
  | atom _ => exact .next (.runWord h fun _ _ h => .atomBody h)
  | cas _ => exact .next (.runWord h fun _ _ h => .casBody h)
  | fxadd _ => exact .next (.runWord h fun _ _ h => .fxaddBody h)
  | atoms _ => exact .next (.runWord h fun _ _ h => .atomsBody h)
  | fence _ => exact .next (.runWord h fun _ _ h => .fenceBody h)
  | pref _ => exact .next (.runWord h fun _ _ h => .done h)
  | ldl _ => exact .next (.runWord h fun _ _ h => .ldlBody h)
  | stlb _ => exact .next (.runWord h fun _ _ h => .stlbBody h)
  | ldw _ => exact .next (.runWord h fun _ _ h => .ldwBody h)
  | oupg _ => exact .next (.runWord h fun _ _ h => .oupgBody h)
  | orel _ => exact .next (.runWord h fun _ _ h => .orelBody h)
  | owk _ => exact .next (.runWord h fun _ _ h => .owkBody h)
  | owd _ => exact .next (.runWord h fun _ _ h => .owdBody h)
  | onew _ => exact .next (.runWord h fun _ _ h => .onewBody h)
  | opri _ => exact .next (.runWord h fun _ _ h => .opriBody h)
  | oapp _ => exact .next (.runWord h fun _ _ h => .oappBody h)
  | btinv _ => exact .next (.runWord h fun _ _ h => .btinvBody h)
  | btld _ => exact .next (.runWord h fun _ _ h => .btldBody h)
  | cpy _ => exact .next (.runWord h fun _ _ h => .cpyBody h)
  | cpyg _ => exact .next (.runWord h fun _ _ h => .cpygBody h)
  | cpys _ => exact .next (.runWord h fun _ _ h => .cpysBody h)
  | chan _ => exact .next (.runWord h fun _ _ h => .chanBody h)
  | tail _ => exact .next (.runWord h fun _ _ h => .tailBody h)
  | mcall _ => exact .next (.runWord h fun _ _ h => .mcallBody h)
  | sigd _ => exact .next (.runWord h fun _ _ h => .sigdBody h)
  | sigr _ => exact .execSigr h
  | mpost _ => exact .next (.runWord h fun _ _ h => .mpostBody h)
  | mtake _ => exact .next (.runWord h fun _ _ h => .mtakeBody h)
  | xred _ => exact .next (.runWord h fun _ _ h => .issueFabric h)
  | xput _ => exact .next (.runWord h fun _ _ h => .issueFabric h)
  | xget _ => exact .next (.runWord h fun _ _ h => .issueFabric h)
  | bar _ => exact .next (.runWord h fun _ _ h => .barBody h)
  | bara _ => exact .next (.runWord h fun _ _ h => .baraBody h)
  | barw _ => exact .next (.runWord h fun _ _ h => .barwBody h)
  | barx _ => exact .next (.runWord h fun _ _ h => .barxBody h)
  | wany _ => exact .next (.runWord h fun _ _ h => .wanyBody h)
  | evb _ => exact .next (.runWord h fun _ _ h => .evbBody h)
  | evm _ => exact .next (.runWord h fun _ _ h => .evmBody h)
  | evp _ => exact .next (.runWord h fun _ _ h => .evpBody h)
  | evc _ => exact .next (.runWord h fun _ _ h => .evcBody h)
  | sflg _ => exact .next (.runWord h fun _ _ h => .sflgBody h)
  | mcnt _ => exact .next (.runWord h fun _ _ h => .mcntBody h)
  | tspn _ => exact .execTspn h
  | tstl _ => exact .next (.runWord h fun _ _ h => .tstlBody h)
  | tdec _ => exact .next (.runWord h fun _ _ h => .tdecBody h)
  | tend _ => exact .next (.runWord h fun _ _ h => .tendBody h)
  | xacq _ => exact .next (.runWord h fun _ _ h => .xacqBody h)
  | xrel _ => exact .next (.runWord h fun _ _ h => .xrelBody h)
  | enrd _ => exact .next (.runWord h fun _ _ h => .enrdBody h)
  | gcnd _ => exact .next (.runWord h fun _ _ h => .gcndBody h)
  | sleep _ => exact .next (.runWord h fun _ _ h => .sleepBody h)
  | trdl _ => exact .next (.runWord h fun _ _ h => .trdlBody h)
  | twrl _ => exact .next (.runWord h fun _ _ h => .twrlBody h)
  | tret _ => exact .next (.tretRun h)
  | tinf _ => exact .next (.runWord h fun _ _ h => .tinfBody h)
  | tmsk _ => exact .next (.runWord h fun _ _ h => .tmskBody h)
  | cnop _ => exact .next (.runCap h fun _ _ h => .done h)
  | cmov _ => exact .next (.runCap h fun _ _ h => .done (.putC h))
  | cmovi _ => exact .next (.runCap h fun _ _ h => .done (.putC h))
  | cadd _ => exact .next (.runCap h fun _ _ h => .capAlu h)
  | csub _ => exact .next (.runCap h fun _ _ h => .capAlu h)
  | cmul _ => exact .next (.runCap h fun _ _ h => .capAlu h)
  | cand _ => exact .next (.runCap h fun _ _ h => .capAlu h)
  | cor _ => exact .next (.runCap h fun _ _ h => .capAlu h)
  | cshl _ => exact .next (.runCap h fun _ _ h => .capAlu h)
  | cshr _ => exact .next (.runCap h fun _ _ h => .capAlu h)
  | ccmp _ => exact .next (.runCap h fun _ _ h => .ccmpBody h)
  | cbr _ => exact .next (.runCap h fun _ _ h => .cbrBody h)
  | cbra _ => exact .next (.runCap h fun _ _ h => .jump h)
  | cloop _ => exact .next (.runCap h fun _ _ h => .cloopBody h)
  | cld _ => exact .next (.runCap h fun _ _ h => .cldBody h)
  | cst _ => exact .next (.runCap h fun _ _ h => .cstBody h)
  | cret _ => exact .next (.runCap h fun _ _ h => .cretBody h)
  | carg _ => exact .next (.runCap h fun _ _ h => .cargBody h)
  | cwait _ => exact .execCwait h
  | cfence _ => exact .next (.runCap h fun _ _ h => .cfenceBody h)
  | mload _ => exact .next (.runCap h fun _ _ h => .loadBody h)
  | mloadh _ => exact .next (.runCap h fun _ _ h => .loadBody h)
  | mma _ => exact .next (.runCap h fun _ _ h => .mmaBody h)
  | mmar _ => exact .next (.runCap h fun _ _ h => .mmaBody h)
  | mgrp _ => exact .next (.runCap h fun _ _ h => .mgrpBody h)
  | mzero _ => exact .next (.runCap h fun _ _ h => .mzeroBody h)
  | manc _ => exact .next (.runCap h fun _ _ h => .mancBody h)
  | mdrn _ => exact .next (.runCap h fun _ _ h => .mdrnBody h)
  | mdacc _ => exact .next (.runCap h fun _ _ h => .mdaccBody h)
  | mknot _ => exact .next (.runCap h fun _ _ h => .mknotBody h)
  | mlab _ => exact .next (.runCap h fun _ _ h => .mlabBody h)
  | msumq _ => exact .next (.runCap h fun _ _ h => .msumqBody h)
  | mrow _ => exact .next (.runCap h fun _ _ h => .mrowBody h)
  | mtrn _ => exact .next (.runCap h fun _ _ h => .loadBody h)
  | msadd _ => exact .next (.runCap h fun _ _ h => .msaddBody h)
  | msto _ => exact .next (.runCap h fun _ _ h => .mstoBody h)
  | msld _ => exact .next (.runCap h fun _ _ h => .msldBody h)
  | vproj _ => exact .next (.runCap h fun _ _ h => .vprojBody h)
  | vprjb _ => exact .next (.runCap h fun _ _ h => .vprjbBody h)
  | vmrg _ => exact .next (.runCap h fun _ _ h => .vmrgBody h)
  | vres _ => exact .next (.runCap h fun _ _ h => .vresBody h)
  | vclr _ => exact .next (.runCap h fun _ _ h => .vclrBody h)
  | vheap _ => exact .next (.runCap h fun _ _ h => .vheapBody h)
  | vnorm _ => exact .next (.runCap h fun _ _ h => .vnormBody h)
  | vstat _ => exact .next (.runCap h fun _ _ h => .vstatBody h)
  | cpri _ => exact .next (.runCap h fun _ _ h => .done (.putC h))
  | cseq _ => exact .next (.runCap h fun _ _ h => .cseqBody h)
  | ctrap _ => exact .next (.runCap h fun _ _ h => .ctrapBody h)
  | writePropagation _ => exact .execWritePropagation h
  | interruptThreshold _ => exact .next (.ite (.raiseCovered (.frame h)) h)
  | flitRetransmit _ => exact .next (.countErrors h)
  | tirralPortFailure _ _ => exact .execTirralPortFailure h
  | eccCorrected _ _ => exact .next (.countErrors h)
  | uncorrectableError _ => exact .next (.poisonWord (.countErrors h))
  | nearStoreScrub _ => exact .next h
  | energyPeriod _ => exact .next (.frame h)
  | srtail _ => exact .next (.writeSrtail h)
  | crhead _ => exact .next (.writeCrhead h)
  | srbase _ => exact .next (.writeSrbase h)
  | srsize _ => exact .next (.writeSrsize h)
  | crbase _ => exact .next (.writeCrbase h)
  | crsize _ => exact .next (.writeCrsize h)
  | powercap _ => exact .next (.writePowercap h)
  | tableBaseWrite _ _ => exact .next (.writeTableBase h)
  | registerWrite _ _ => exact .execRegisterWrite h
  | unassignedOpcode _ => exact .next (.ite h (.preciseTrap h))
  | unassignedCapstanOpcode raw => exact .execUnassignedCapstanOpcode (raw := raw) h
  | tirralFlit _ => exact .execTirralFlit h
  | clauseHeader => exact .execClauseHeader h
  | longLatencyResult => exact .execLongLatencyResult h
  | storeCommit => exact .next (.ite (.commitCapstan h) (.commitFirst h))
  | deferredQuiesce => exact .next (.ite (.takeDeferred h) h)
  | sleepExpiry => exact .execSleepExpiry h
  | sigrWake => exact .execSigrWake h
  | tspnRoom => exact .execTspnRoom h
  | snagSearch => exact .execSnagSearch h
  | copyAccept => exact .execCopyAccept h
  | copyPageIn => exact .next (.pageIn h)
  | copyComplete => exact .next (.completeCopy h)
  | callAccept => exact .execCallAccept h
  | callStart => exact .execCallStart h
  | capstanClauseHeader => exact .execCapstanClauseHeader h
  | cldResult => exact .execCldResult h
  | cwaitWake => exact .execCwaitWake h
  | callComplete => exact .execCallComplete h
  | mreset => exact .execMreset h
  | clayParityFailure => exact .execClayParityFailure h
  | reclaim => exact .next (.ite (.reclaim (.frame h)) h)
  | objectMemoryReturn => exact .next (.returnObject h)
  | btinvComplete => exact .execBtinvComplete h
  | dispatchDecision => exact .next (.ite (.promoteFirst (.decide' h)) h)
  | passCountPromotion => exact .execPassCountPromotion h
  | taskEnd => exact .execTaskEnd h
  | run => exact .execRun h
  | post => exact .execPost h
  | watch => exact .execWatch h
  | badentry => exact .execBadentry h
  | watchFire => exact .execWatchFire h
  | kernelNode => exact .next (.startNode h fun _ _ _ _ h => .kernelBody h)
  | copyNode => exact .next (.startNode h fun _ _ _ _ h => .copyNodeBody h)
  | signalNode => exact .next (.startNode h fun _ _ _ _ h => .signalBody h)
  | waitNode => exact .next (.startNode h fun _ _ _ _ h => .waitBody h)
  | waitNodeSatisfied => exact .execWaitNodeSatisfied h
  | condNode => exact .next (.startNode h fun _ _ _ _ h => .condBody h)
  | notifyNode => exact .next (.startNode h fun _ _ _ _ h => .notifyBody h)
  | endNode => exact .execEndNode h
  | graphFailure => exact .execGraphFailure h
  | fabricAccept => exact .execFabricAccept h
  | fabricComplete => exact .execFabricComplete h
  | xredCombine => exact .next (.combineRed h)
  | cordSave => exact .execCordSave h
  | clayMacroSpare => exact .next (.ite h (.setMyCore h))
  | deviceReset => exact .execDeviceReset h
  | inval => exact .next (.command h)
  | reload => exact .next (.command h)
  | jobstart => exact .next (.command h)
  | jobend => exact .next (.command h)
  | vacate => exact .next (.command h)
  | withdraw => exact .next (.command h)
  | coreoff => exact .next (.command h)
  | coreon => exact .next (.command h)
  | portrem => exact .next (.command h)
  | portadd => exact .next (.command h)
  | attest => exact .next (.command h)
  | fwstage => exact .next (.command h)
  | fwswap => exact .next (.command h)
  | commandComplete => exact .execCommandComplete h

/-! ### The functions of Machine/Turns -/

protected theorem MemOk.wordFault {s : State} (h : MemOk s) {c : TrapCode} : MemOk (wordFault s c) := .advance (.fetchFault h)

protected theorem OutOk.wordTurn {run : Instr → State → Out} (hr : ∀ i s, MemOk s → OutOk (run i s)) {s : State} (h : MemOk s) :
    OutOk (wordTurn run s) := by
  unfold wordTurn
  split
  · exact .next (.wordFault h)
  · exact .next (.wordFault h)
  · next e =>
    have ht : MemOk _ := (FetchedOk.strandFetch h).of_eq e
    split
    · exact hr _ _ ht
    · exact .next (.preciseTrap ht)

protected theorem OutOk.strandTurn {run : Instr → State → Out} (hr : ∀ i s, MemOk s → OutOk (run i s)) {s : State} (h : MemOk s) :
    OutOk (strandTurn run s) := by
  unfold strandTurn
  split
  · exact .next h
  · split
    · exact hr _ _ h
    · split
      · exact .next (.setMe h)
      · split
        · exact .next h
        · have hd : SomeOk id (if (myCord s).stopping then none else takeDue s) := .ite .none (.takeDue h)
          split
          · next e => exact .next (hd.of_eq e)
          · split
            · exact .next h
            · exact .wordTurn hr h

protected theorem OutOk.capstanTurn {run : Instr → State → Out} (hr : ∀ i s, MemOk s → OutOk (run i s)) {s : State} (h : MemOk s) :
    OutOk (capstanTurn run s) := by
  unfold capstanTurn
  split
  · exact .next h
  · dsimp only
    split
    · exact hr _ _ h
    · split
      · exact .next h
      · split
        · exact hr _ _ h
        · split
          · exact .next (.endCall h)
          · exact .next (.endCall h)
          · next e =>
            have ht : MemOk _ := (FetchedOk.capFetch h).of_eq e
            split
            · exact hr _ _ ht
            · exact .next (.endCall ht)

protected theorem OutOk.runTurn {run : Instr → State → Out} (hr : ∀ i s, MemOk s → OutOk (run i s)) {t : Turn} {s : State} (h : MemOk s) :
    OutOk (runTurn run t s) := by
  unfold runTurn
  split
  · exact hr _ _ h
  · exact .strandTurn hr h
  · exact .capstanTurn hr h
  · exact .next (.tickCore h)
  · exact .next (.moveCopyRow h)
  · exact .next (.moveFabricWord h)
  · exact .next (.dropTlb h)
  · exact .next (.keepView h)
  · exact .next (.keepDie h)
  · exact .next (.keepConst h)
  · exact .next (.glimpse h)
  · exact .next (.hostByte h)
  · exact .next (.hostNear h)
  · exact .next (.bringUp h)
  · exact .next h

protected theorem OutOk.nextTurn {run : Instr → State → Out} (hr : ∀ i s, MemOk s → OutOk (run i s)) {s : State} (h : MemOk s) :
    OutOk (nextTurn run s) := by
  unfold nextTurn
  split
  · exact .runTurn hr h
  · split
    · exact .next h
    · exact .runTurn hr h

/-! ### The functions of Machine/Step -/

protected theorem OutOk.step {s : State} (h : MemOk s) : OutOk (step s) := .nextTurn (fun _ _ h => .exec h) h

/-- Settles O59: whatever turn the step makes, the state that it answers keeps the canonical form. -/
theorem memoryStaysCanonical : Obligations.MemoryStaysCanonical := by
  intro s t e h
  exact OutOk.of_eq (.step h) e

end Sys2Proof.Machine

end

section
/-! O60: what a committed store leaves for a reader. First the writes on their way and a core's view, then what reaching a point leaves
unchanged, then the two forms of a commit. -/

namespace Sys2Proof.Machine

set_option autoImplicit false
set_option Elab.async false

/-! ### The newest byte among committed writes -/

/-- The byte that one committed write holds at a key. -/
def Committed.byteAt (w : Committed) (key : Nat) : Option Byte :=
  if w.key ≤ key ∧ key < w.key + w.bytes.length then w.bytes[key - w.key]? else none

theorem Committed.byteAt_before {w : Committed} {key : Nat} (h : key < w.key) : w.byteAt key = none := if_neg (by omega)

theorem Committed.byteAt_nil (k key : Nat) : Committed.byteAt ⟨k, []⟩ key = none := if_neg (by simp only [List.length_nil]; omega)

theorem Committed.byteAt_cons (k : Nat) (b : Byte) (bs : List Byte) (key : Nat) :
    Committed.byteAt ⟨k, b :: bs⟩ key = if key = k then some b else Committed.byteAt ⟨k + 1, bs⟩ key := by
  simp only [Committed.byteAt, List.length_cons]
  split
  · next hk =>
    split
    · next he => rw [he, Nat.sub_self]; rfl
    · next he => rw [if_pos (by omega), show key - k = key - (k + 1) + 1 by omega, List.getElem?_cons_succ]
  · next hk => rw [if_neg (by omega), if_neg (by omega)]

theorem upRd_cons (w : Committed) (l : List Committed) (key : Nat) : upRd (w :: l) key = (upRd l key).or (w.byteAt key) := by
  unfold upRd Committed.byteAt
  rw [List.reverse_cons, List.find?_append]
  cases hf : l.reverse.find? (fun c => c.key ≤ key && key < c.key + c.bytes.length) with
  | none =>
    by_cases hw : w.key ≤ key ∧ key < w.key + w.bytes.length
    · simp [hw]
    · have hb : (decide (w.key ≤ key) && decide (key < w.key + w.bytes.length)) = false := by simpa using hw
      simp [hb, hw]
  | some c =>
    have hc := List.find?_some hf
    simp only [Bool.and_eq_true, decide_eq_true_eq] at hc
    have hlt : key - c.key < c.bytes.length := by omega
    simp [List.getElem?_eq_getElem hlt]

theorem upRd_append (l p : List Committed) (key : Nat) : upRd (l ++ p) key = (upRd p key).or (upRd l key) := by
  induction l with
  | nil => simp [upRd]
  | cons w l ih => rw [List.cons_append, upRd_cons, upRd_cons, ih, Option.or_assoc]

/-- The pieces of some bytes start at the first of them. -/
theorem pieces_head {u k : Nat} {bs : List Byte} {w : Committed} {ws : List Committed} (h : pieces u k bs = w :: ws) : w.key = k := by
  cases bs with
  | nil => cases h
  | cons b bs =>
    unfold pieces at h
    split at h
    · cases h; rfl
    · split at h <;> (cases h; rfl)

/-- The pieces of some bytes hold each of them in its place, and nothing else. -/
theorem upRd_pieces (u k : Nat) (bs : List Byte) (key : Nat) : upRd (pieces u k bs) key = Committed.byteAt ⟨k, bs⟩ key := by
  induction bs generalizing k with
  | nil => exact (Committed.byteAt_nil k key).symm
  | cons b bs ih =>
    have ih := ih (k + 1)
    have first : key = k → Committed.byteAt ⟨k + 1, bs⟩ key = none := fun hk => Committed.byteAt_before (by simp only; omega)
    rw [Committed.byteAt_cons]
    unfold pieces
    split
    · next e =>
      rw [e] at ih
      rw [upRd_cons, ih, Committed.byteAt_cons, Committed.byteAt_nil]
      split
      · next hk => rw [first hk]; rfl
      · simp
    · next w ws e =>
      rw [e, upRd_cons] at ih
      split
      · rw [upRd_cons, upRd_cons, ih, Committed.byteAt_cons, Committed.byteAt_nil]
        split
        · next hk => rw [first hk]; rfl
        · simp
      · have hw : w = ⟨k + 1, w.bytes⟩ := by rw [← pieces_head e]
        rw [upRd_cons, Committed.byteAt_cons]
        split
        · next hk =>
          rw [first hk, Option.or_eq_none_iff] at ih
          rw [ih.1, Option.none_or]
        · rw [← ih, ← hw]

/-! ### A core's view of a byte -/

theorem overlaps_iff {k n k' n' : Nat} : overlaps k n k' n' = true ↔ k < k' + n' ∧ k' < k + n := by simp [overlaps]

theorem aGet?_filterKey {α : Type} (m : AMap α) (p : Nat → Bool) (k : Nat) :
    aGet? (m.filter fun e => p e.1) k = if p k then aGet? m k else none := by
  induction m with
  | nil => simp [aGet?]
  | cons e t ih =>
    obtain ⟨i, v⟩ := e
    by_cases hi : k = i
    · subst hi
      by_cases hp : p k <;> simp_all [aGet?]
    · by_cases hp : p i <;> simp_all [aGet?]

/-- The view of a byte moves to the point above where the bytes touch its unit. -/
theorem aGet?_dropView (v : AMap (Byte × Nat)) (key n k : Nat) :
    aGet? (dropView v key n) k = if overlaps (unitBase k) (unitOf k) key n then none else aGet? v k := by
  refine (aGet?_filterKey v (fun i => !overlaps (unitBase i) (unitOf i) key n) k).trans ?_
  cases overlaps (unitBase k) (unitOf k) key n <;> rfl

/-- A byte that a write covers lies in a unit that it touches. -/
theorem overlaps_unit {key q n : Nat} (h : q ≤ key ∧ key < q + n) : overlaps (unitBase key) (unitOf key) q n = true := by
  have hu : 0 < unitOf key := by unfold unitOf; split <;> decide
  have hb : unitBase key ≤ key := Nat.div_mul_le_self ..
  have hl : key < unitBase key + unitOf key := Nat.lt_div_mul_add hu
  exact overlaps_iff.mpr (by omega)

/-! ### What reaching a point leaves unchanged -/

/-- A state that differs from another at the device point only: memory, what is on its way to the system point, errors, and the older
values of constant caches. -/
def DevicePart (s t : State) : Prop :=
  t = { s with mem := t.mem, sysLag := t.sysLag, sysUp := t.sysUp, poisoned := t.poisoned, lines := t.lines, consts := t.consts }

theorem DevicePart.refl (s : State) : DevicePart s s := rfl

theorem DevicePart.trans {s t u : State} (h : DevicePart s t) (g : DevicePart t u) : DevicePart s u := by
  unfold DevicePart at h g ⊢
  rw [h] at g
  exact g

theorem DevicePart.cores {s t : State} (h : DevicePart s t) : t.cores = s.cores := by rw [DevicePart] at h; rw [h]
theorem DevicePart.dieUp {s t : State} (h : DevicePart s t) : t.dieUp = s.dieUp := by rw [DevicePart] at h; rw [h]

theorem DevicePart.foldl {α : Type} {f : State → α → State} (hf : ∀ s a, DevicePart s (f s a)) (l : List α) (s : State) :
    DevicePart s (l.foldl f s) :=
  List.foldlRecOn l f (.refl s) fun t ht a _ => ht.trans (hf t a)

theorem devicePart_poolWritten (s : State) (key n : Nat) : DevicePart s (poolWritten s key n) := by
  unfold poolWritten
  split
  · refine .trans ?_ (.foldl (fun s k => (rfl : DevicePart s (garble s k _ _))) ..)
    split <;> rfl
  · rfl

theorem devicePart_noteWrite (s : State) (w : Writer) (key n : Nat) : DevicePart s (noteWrite w key n s) := by
  unfold noteWrite
  split <;> rfl

theorem devicePart_devWr (s : State) (key : Nat) (bs : List Byte) : DevicePart s (devWr s key bs) := by
  unfold devWr
  exact .trans (.trans (by rfl) (devicePart_poolWritten ..)) (devicePart_noteWrite ..)

theorem devicePart_markBad (s : State) (ps : List Nat) : DevicePart s (markBad s ps) := by
  unfold markBad
  split <;> rfl

theorem devicePart_leaveDie (s : State) (bad : List Nat) (ws : List Committed) : DevicePart s (leaveDie s bad ws) :=
  .trans (.foldl (fun s w => devicePart_devWr s w.key w.bytes) ws s) (devicePart_markBad ..)

/-- What every step of a walk keeps, the walk keeps. -/
theorem foldl_kept {α β : Type} (g : State → β) {f : State → α → State} (hf : ∀ s a, g (f s a) = g s) (l : List α) (s : State) :
    g (l.foldl f s) = g s :=
  List.foldlRecOn (motive := fun t => g t = g s) l f rfl fun t ht a _ => (hf t a).trans ht

theorem countAdvance_kept (s : State) (vec : Nat) :
    ∃ count irq, countAdvance s vec = { s with vecCount := count, dueIrq := irq } := by
  unfold countAdvance
  dsimp only
  split <;> exact ⟨_, _, rfl⟩

/-- What counting an advance keeps, a write's arrival at the system point keeps. -/
theorem noteTails_kept {β : Type} (g : State → β) (hg : ∀ s vec, g (countAdvance s vec) = g s) (s : State) (key n : Nat) :
    g (noteTails s key n) = g s := by
  unfold noteTails
  split
  · rfl
  · refine foldl_kept g (fun s e => ?_) s.rings s
    dsimp only
    split
    · exact hg s e.1
    · rfl

/-- What neither counting an advance nor the system point's own bytes change, a flush to the system point keeps. -/
theorem flushSysN_kept {β : Type} (g : State → β) (hg : ∀ s vec, g (countAdvance s vec) = g s)
    (hs : ∀ s lag up, g { s with sysLag := lag, sysUp := up } = g s) (n : Nat) (s : State) : g (flushSysN n s) = g s := by
  induction n generalizing s with
  | zero => rfl
  | succ n ih =>
    unfold flushSysN
    split
    · rfl
    · exact ((ih _).trans (noteTails_kept g hg ..)).trans (hs ..)

theorem countAdvance_sysUp (s : State) (vec : Nat) : (countAdvance s vec).sysUp = s.sysUp := by
  obtain ⟨_, _, h⟩ := countAdvance_kept s vec
  rw [h]

theorem countAdvance_cores (s : State) (vec : Nat) : (countAdvance s vec).cores = s.cores := by
  obtain ⟨_, _, h⟩ := countAdvance_kept s vec
  rw [h]

theorem countAdvance_dieUp (s : State) (vec : Nat) : (countAdvance s vec).dieUp = s.dieUp := by
  obtain ⟨_, _, h⟩ := countAdvance_kept s vec
  rw [h]

/-- The first n writes on their way to the system point are gone from there. -/
theorem flushSysN_sysUp (n : Nat) (s : State) : (flushSysN n s).sysUp = s.sysUp.drop n := by
  induction n generalizing s with
  | zero => rfl
  | succ n ih =>
    unfold flushSysN
    split
    · next e => rw [e]; rfl
    · next w ws e =>
      have hr : (reachSys s w ws).sysUp = ws := noteTails_kept State.sysUp countAdvance_sysUp ..
      rw [ih, hr, e, List.drop_succ_cons]

theorem flushSys_sysUp (s : State) : (flushSys s).sysUp = [] := (flushSysN_sysUp ..).trans List.drop_length
theorem flushSys_cores (s : State) : (flushSys s).cores = s.cores := flushSysN_kept State.cores countAdvance_cores (fun _ _ _ => rfl) ..
theorem flushSys_dieUp (s : State) : (flushSys s).dieUp = s.dieUp := flushSysN_kept State.dieUp countAdvance_dieUp (fun _ _ _ => rfl) ..

theorem reachDie_cores (s : State) (die : Nat) (w : Committed) : (reachDie s die w).cores = s.cores := by
  unfold reachDie
  split
  · exact (devicePart_devWr ..).cores
  · rfl

theorem getCore_of_cores {s t : State} (h : t.cores = s.cores) (core : Nat) : getCore t core = getCore s core := by
  rw [getCore, h]
  rfl

theorem flushDie_up (s : State) (core : Nat) : (getCore (flushDie s core) core).up = [] := by
  have hc := foldl_kept State.cores (fun s w => reachDie_cores s (dieOf core) w) (getCore s core).up
    (setCore s core { getCore s core with up := [] })
  unfold flushDie
  rw [getCore_of_cores hc, getCore_setCore, if_pos rfl]

theorem flushDevice_cores (s : State) (die : Nat) : (flushDevice s die).cores = s.cores := (devicePart_leaveDie ..).cores

theorem flushDevice_dieUp (s : State) (die : Nat) : aGet [] (flushDevice s die).dieUp die = [] := by
  unfold flushDevice
  rw [(devicePart_leaveDie ..).dieUp, aGet, aGet?_aDel, if_pos rfl]
  rfl

/-- A release at .dv or above lets the writes of the core, then those of its die, and at .sy all that are left, reach their points. -/
theorem flush_device (s : State) (core sc : Nat) (h : 4 ≤ sc) :
    flush s core sc =
      if sc = 4 then flushDevice (flushDie s core) (dieOf core) else flushSys (flushDevice (flushDie s core) (dieOf core)) := by
  have h2 : ¬ sc ≤ 2 := by omega
  have h3 : sc ≠ 3 := by omega
  exact (if_neg h2).trans (if_neg h3)

/-- A release at .di or above leaves nothing of the core on its way to the die point. -/
theorem flush_up (s : State) (core sc : Nat) (h : 3 ≤ sc) : (getCore (flush s core sc) core).up = [] := by
  obtain rfl | h4 := Nat.eq_or_lt_of_le h
  · exact flushDie_up s core
  · have hd : (getCore (flushDevice (flushDie s core) (dieOf core)) core).up = [] := by
      rw [getCore_of_cores (flushDevice_cores ..), flushDie_up]
    rw [flush_device s core sc h4]
    split
    · exact hd
    · rw [getCore_of_cores (flushSys_cores _), hd]

/-- A release at .dv or above leaves nothing of the die on its way to the device point. -/
theorem flush_dieUp (s : State) (core sc : Nat) (h : 4 ≤ sc) : aGet [] (flush s core sc).dieUp (dieOf core) = [] := by
  rw [flush_device s core sc h]
  split
  · exact flushDevice_dieUp ..
  · rw [flushSys_dieUp, flushDevice_dieUp]

/-- A release at .sy leaves nothing on its way to the system point. -/
theorem flush_sysUp (s : State) (core sc : Nat) (h : 5 ≤ sc) : (flush s core sc).sysUp = [] := by
  have h4 : sc ≠ 4 := by omega
  rw [flush_device s core sc (by omega), if_neg h4, flushSys_sysUp]

/-! ### Commits -/

theorem noteWrite_consts (w : Writer) (key n : Nat) (s : State) : ∃ l, noteWrite w key n s = { s with consts := l } := by
  unfold noteWrite
  split <;> exact ⟨_, rfl⟩

theorem dropHeld_consts (s : State) (cord key n : Nat) : ∃ l, dropHeld s cord key n = { s with consts := l } := by
  unfold dropHeld
  split <;> exact ⟨_, rfl⟩

/-- Beside its commit, a store to memory changes only what constant caches hold. -/
theorem commitStore_memory (s : State) (core cord : Nat) (who : Writer) (q : QStore) (h : q.scratch = false) :
    ∃ l, commitStore s core cord who q = { commit (flush s core q.rel) core q.key q.bytes q.nc with consts := l } := by
  unfold commitStore
  rw [if_neg (by simp [h])]
  generalize commit (flush s core q.rel) core q.key q.bytes q.nc = u
  obtain ⟨l, hl⟩ := noteWrite_consts who q.key q.bytes.length u
  dsimp only
  rw [hl]
  split
  · exact dropHeld_consts ..
  · exact ⟨l, rfl⟩

theorem commitStore_scratch (s : State) (core cord : Nat) (who : Writer) (q : QStore) (h : q.scratch = true) :
    commitStore s core cord who q = setCord s cord ((getCord s cord).padWr q.key q.bytes) := if_pos h

theorem commit_cached (s : State) (core key : Nat) (bs : List Byte) :
    commit s core key bs false = setCore s core { getCore s core with
      view := dropView (getCore s core).view key bs.length, up := (getCore s core).up ++ pieces (unitOf key) key bs } := rfl

/-- What a core sees of a byte: the newest of its writes on their way, then its view, then the die point. -/
theorem coreRd_cached (s : State) (core key : Nat) :
    coreRd s core key false =
      ((upRd (getCore s core).up key).or ((aGet? (getCore s core).view key).map Prod.fst)).getD (dieRd s (dieOf core) key) := by
  unfold coreRd
  rw [if_neg (by decide)]
  dsimp only
  cases upRd (getCore s core).up key with
  | some b => rfl
  | none => cases aGet? (getCore s core).view key <;> rfl

/-- After a commit, the core sees the bytes of the store before what was on its way, and no view of the units that the store touches. -/
theorem coreRd_commit (s : State) (core k : Nat) (bs : List Byte) (key : Nat) :
    coreRd (commit s core k bs false) core key false =
      ((Committed.byteAt ⟨k, bs⟩ key).or ((upRd (getCore s core).up key).or
        (if overlaps (unitBase key) (unitOf key) k bs.length then none else (aGet? (getCore s core).view key).map Prod.fst))).getD
        (dieRd s (dieOf core) key) := by
  have hd : dieRd (commit s core k bs false) (dieOf core) key = dieRd s (dieOf core) key := rfl
  rw [coreRd_cached, hd, commit_cached, getCore_setCore, if_pos rfl]
  dsimp only
  rw [upRd_append, upRd_pieces, aGet?_dropView, Option.or_assoc]
  split <;> rfl

theorem coreRd_commit_within {s : State} {core k : Nat} {bs : List Byte} {key : Nat} (h : k ≤ key ∧ key < k + bs.length) :
    coreRd (commit s core k bs false) core key false = bs.getD (key - k) 0 := by
  have hlt : key - k < bs.length := by omega
  have hb : Committed.byteAt ⟨k, bs⟩ key = some (bs.getD (key - k) 0) := (if_pos h).trans (by simp [hlt])
  rw [coreRd_commit, hb]
  rfl

theorem byteAt_of_not_within {k : Nat} {bs : List Byte} {key : Nat} (h : ¬ (k ≤ key ∧ key < k + bs.length)) :
    Committed.byteAt ⟨k, bs⟩ key = none := if_neg h

theorem coreRd_commit_touched {s : State} {core k : Nat} {bs : List Byte} {key : Nat} (h : ¬ (k ≤ key ∧ key < k + bs.length))
    (ht : overlaps (unitBase key) (unitOf key) k bs.length = true) :
    coreRd (commit s core k bs false) core key false = (upRd (getCore s core).up key).getD (dieRd s (dieOf core) key) := by
  rw [coreRd_commit, byteAt_of_not_within h, if_pos ht, Option.none_or, Option.or_none]

theorem coreRd_commit_frame {s : State} {core k : Nat} {bs : List Byte} {key : Nat}
    (ht : overlaps (unitBase key) (unitOf key) k bs.length = false) :
    coreRd (commit s core k bs false) core key false = coreRd s core key false := by
  have h : ¬ (k ≤ key ∧ key < k + bs.length) := fun h => by rw [overlaps_unit h] at ht; cases ht
  rw [coreRd_commit, byteAt_of_not_within h, if_neg (by simp [ht]), Option.none_or, coreRd_cached]

/-! ### A page that bypasses the caches -/

theorem carry_none {key n : Nat} {l : List Committed} (h : ∀ w ∈ l, w.touches key n = false) : carry key n l = ([], l) := by
  induction l with
  | nil => rfl
  | cons w l ih =>
    unfold carry
    rw [ih fun x hx => h x (List.mem_cons_of_mem w hx)]
    simp [h w List.mem_cons_self]

/-- Where no write of the core to some bytes is on its way, only its view of them moves. -/
theorem settleUp_none {s : State} {core key n : Nat} (h : ∀ w ∈ (getCore s core).up, w.touches key n = false) :
    ∃ cores, settleUp s core key n = { s with cores := cores } := by
  unfold settleUp
  dsimp only
  rw [carry_none h]
  exact ⟨_, rfl⟩

/-- Where no write of the die to some bytes is on its way, only the die point of them moves. -/
theorem settleDie_none {s : State} {die key n : Nat} (h : ∀ w ∈ aGet [] s.dieUp die, w.touches key n = false) :
    ∃ up lag, settleDie s die key n = { s with dieUp := up, dieLag := lag } := by
  unfold settleDie leaveDie
  rw [carry_none h]
  have hb : (dieBadWords s die).filter (fun p => ([] : List Committed).any (·.touches p 8)) = [] := by simp
  dsimp only [List.foldl_nil]
  rw [hb]
  exact ⟨_, _, rfl⟩

/-- Another key's lines turn to garble in that key's own part of memory. -/
theorem memRd_garble {s : State} (h : MemOk s) {k pa n key : Nat} (hn : pa + n ≤ 2 ^ 48) (hk : key / 2 ^ 48 ≠ 2 ^ 24 + k) :
    memRd (garble s k pa n).mem key = memRd s.mem key := by
  refine (List.foldlRecOn (motive := fun m => Memory.wf m = true ∧ memRd m key = memRd s.mem key) _ _ ⟨h, rfl⟩ ?_).2
  intro m hm i hi
  have hi := List.mem_range.mp hi
  have ne : key ≠ physKey 1 k (pa + i) := by
    unfold physKey
    omega
  exact ⟨memWr_wf hm.1 _ _, by rw [memRd_memWr hm.1, if_neg ne, hm.2]⟩

/-- A write to the pool under a key leaves every byte under that key as it is. -/
theorem memRd_poolWritten {s : State} (h : MemOk s) {q n key : Nat}
    (hk : tierOf q ≠ 1 ∨ (key / 2 ^ 48 = q / 2 ^ 48 ∧ paOf q + n ≤ 2 ^ 48)) : memRd (poolWritten s q n).mem key = memRd s.mem key := by
  unfold poolWritten
  split
  · next ht =>
    obtain ⟨he, hn⟩ := hk.resolve_left (fun hne => hne ht)
    refine (List.foldlRecOn (motive := fun t => MemOk t ∧ memRd t.mem key = memRd s.mem key) _ _ ⟨.ite h (.frame h), ?_⟩ ?_).2
    · split <;> rfl
    · intro t hm k hk
      have hne : k ≠ extOf q := by simpa using (List.mem_filter.mp hk).2
      have hother : key / 2 ^ 48 ≠ 2 ^ 24 + k := by
        unfold extOf at hne
        unfold tierOf at ht
        omega
      exact ⟨.garble hm.1, (memRd_garble hm.1 (by omega) hother).trans hm.2⟩
  · rfl

theorem noteWrite_mem (w : Writer) (key n : Nat) (s : State) : (noteWrite w key n s).mem = s.mem := by
  obtain ⟨l, hl⟩ := noteWrite_consts w key n s
  rw [hl]

/-- At the device point a write gives its bytes, and leaves every other byte under its key as it is. -/
theorem memRd_devWr {s : State} (h : MemOk s) {q : Nat} {bs : List Byte} {key : Nat}
    (hk : tierOf q ≠ 1 ∨ (key / 2 ^ 48 = q / 2 ^ 48 ∧ paOf q + bs.length ≤ 2 ^ 48)) :
    memRd (devWr s q bs).mem key = if q ≤ key ∧ key < q + bs.length then bs.getD (key - q) 0 else memRd s.mem key := by
  unfold devWr
  dsimp only
  rw [noteWrite_mem, memRd_poolWritten (.of_wf (memWrN_wf bs h q)) hk]
  exact memRd_memWrN bs h q key

/-- A store through a page that bypasses the caches, with no earlier write to its bytes on its way, is a write at the device point. -/
theorem commit_bypass {s : State} {core key : Nat} {bs : List Byte} (hup : ∀ w ∈ (getCore s core).up, w.touches key bs.length = false)
    (hdie : ∀ w ∈ aGet [] s.dieUp (dieOf core), w.touches key bs.length = false) :
    ∃ cores up lag, commit s core key bs true = devWr { s with cores := cores, dieUp := up, dieLag := lag } key bs := by
  obtain ⟨cores, hs⟩ := settleUp_none hup
  obtain ⟨up, lag, hd⟩ := settleDie_none (s := { s with cores := cores }) hdie
  exact ⟨cores, up, lag, by rw [commit, if_pos rfl, hs, hd]⟩

/-! ### The obligation -/

/-- Settles O60, by the form of the store: the scratchpad, a page of the caches, a page that bypasses them; and a release by its scope. -/
theorem commitMovesBytes : Obligations.CommitMovesBytes := by
  refine ⟨?scratch, ?cached, ?release, ?bypass⟩
  case scratch =>
    intro s core cord who q hq hw
    refine ⟨_, commitStore_scratch s core cord who q hq, rfl, fun k hk => by rw [getCord_setCord, if_neg hk], fun key => ?_⟩
    rw [getCord_setCord, if_pos rfl]
    have hr := memRd_memWrN q.bytes hw q.key key
    exact ⟨fun hin => hr.trans (if_pos hin), fun hout => hr.trans (if_neg hout)⟩
  case cached =>
    intro s core cord who q hq hnc u
    obtain ⟨l, hl⟩ := commitStore_memory s core cord who q hq
    rw [hnc] at hl
    refine ⟨_, hl, rfl, fun k hk => (getCore_setCore ..).trans (if_neg hk), fun key =>
      ⟨coreRd_commit_within, fun hout ht => ?_, fun ht => ?_⟩⟩
    · exact coreRd_commit_touched hout (overlaps_iff.mpr ht)
    · exact coreRd_commit_frame (Bool.eq_false_iff.mpr fun h => ht (overlaps_iff.mp h))
  case release =>
    exact fun s core sc => ⟨fun h => if_pos h, flush_up s core sc, flush_dieUp s core sc, flush_sysUp s core sc⟩
  case bypass =>
    intro s core cord who q hq hnc u hw hup hdie
    obtain ⟨l, hl⟩ := commitStore_memory s core cord who q hq
    obtain ⟨cores, up, lag, hc⟩ := commit_bypass hup hdie
    rw [hnc, hc] at hl
    refine ⟨_, hl, ?_, fun key hk => ?_⟩
    · rw [devicePart_devWr { u with cores := cores, dieUp := up, dieLag := lag } q.key q.bytes]
    · have hr := memRd_devWr (s := { u with cores := cores, dieUp := up, dieLag := lag }) (bs := q.bytes) hw
        (hk.imp_right fun h => ⟨h.1, h.2.1⟩)
      exact ⟨fun hin => hr.trans (if_pos hin), fun hout => hr.trans (if_neg hout)⟩

end Sys2Proof.Machine
end

section
/-! O48, O49, O50, O52: words and instructions. First what the opcode maps hold, then that encoding and decoding undo each other, then what a
word does that fails a check of R27 or R64. -/

namespace Sys2Proof.Laws.RoundTrip

set_option autoImplicit false
set_option Elab.async false

/-- Every instruction makes the round trip. -/
theorem ofInstr (i : Instr) : Statement i :=
  Instr.casesOn (motive := Statement) i
    nop mov movi movh sel lea srd swr iadd isub iaddc imul imulh imad imadw idiv irem imin imax iabs ineg isat and or xor andn not shl shr
    sar rotl bfx bfi popc clz ctz brev bprm icmp iset plog pmov idot4 idot2 iadd3 blut rhash fshf fadd fsub fmul ffma fmin fmax fminp
    fmaxp fabs fneg fcmp fset fcls frnd fscl fexpn fdot2 fdot4 fcps fmed3 exp2 log2 rcp rsq sqrt sinp cosp tanh fdiv fadd3 cvtf cvne cvnd
    i2f f2i pack unpk fxq fxd bscl shfl bxch rxch vote matchLanes lmov lput redl scanl lfnd lrot bra brx call callx ret join meet exit
    trap yield ptok brk bdec ld st lds sts ldc ldaq strl stnt atom cas fxadd atoms fence pref ldl stlb ldw oupg orel owk owd onew opri
    oapp btinv btld cpy cpyg cpys chan tail mcall sigd sigr mpost mtake xred xput xget bar bara barw barx wany evb evm evp evc sflg mcnt
    tspn tstl tdec tend xacq xrel enrd gcnd sleep trdl twrl tret tinf tmsk cnop cmov cmovi cadd csub cmul cand cor cshl cshr ccmp cbr cbra
    cloop cld cst cret carg cwait cfence mload mloadh mma mmar mgrp mzero manc mdrn mdacc mknot mlab msumq mrow mtrn msadd msto msld vproj
    vprjb vmrg vres vclr vheap vnorm vstat cpri cseq ctrap writePropagation interruptThreshold flitRetransmit tirralPortFailure
    eccCorrected uncorrectableError nearStoreScrub energyPeriod srtail crhead srbase srsize crbase crsize powercap tableBaseWrite
    registerWrite unassignedOpcode unassignedCapstanOpcode tirralFlit clauseHeader longLatencyResult storeCommit deferredQuiesce
    sleepExpiry sigrWake tspnRoom snagSearch copyAccept copyPageIn copyComplete callAccept callStart capstanClauseHeader cldResult
    cwaitWake callComplete mreset clayParityFailure reclaim objectMemoryReturn btinvComplete dispatchDecision passCountPromotion taskEnd
    run post watch badentry watchFire kernelNode copyNode signalNode waitNode waitNodeSatisfied condNode notifyNode endNode graphFailure
    fabricAccept fabricComplete xredCombine cordSave clayMacroSpare deviceReset inval reload jobstart jobend vacate withdraw coreoff
    coreon portrem portadd attest fwstage fwswap commandComplete

end Sys2Proof.Laws.RoundTrip

namespace Sys2Proof.Machine

set_option autoImplicit false
set_option Elab.async false

/-! ### What the opcode maps hold (R65, R67) -/

theorem strandMap_opcodes : strandMap.map (·.1) = (List.range 256).filter strandAssigned := by decide +kernel

theorem capstanMap_opcodes : capstanMap.map (·.1) = (List.range 256).filter capstanAssigned := by decide +kernel

/-- A map that lists every assigned opcode has no entry for the others only. -/
theorem unassigned_of_lookup {α : Type} {m : List (Nat × α)} {assigned : Nat → Bool} (h : m.map (·.1) = (List.range 256).filter assigned)
    {op : Nat} (hop : op < 256) (hn : m.lookup op = none) : assigned op = false := by
  rw [Bool.eq_false_iff]
  intro ha
  have hm : op ∈ m.map (·.1) := by rw [h]; simp [hop, ha]
  obtain ⟨p, hp, rfl⟩ := List.mem_map.mp hm
  simpa using List.lookup_eq_none_iff.mp hn p hp

theorem mem_of_lookup {α : Type} {m : List (Nat × α)} {op : Nat} {x : α} (h : m.lookup op = some x) : (op, x) ∈ m := by
  obtain ⟨l, r, rfl, -⟩ := List.lookup_eq_some_iff.mp h
  simp

/-- An entry of the strand map makes strand instructions, of its own opcode. -/
theorem strandMap_entry {p : Nat × (SWord → Instr)} (hp : p ∈ strandMap) (w : SWord) :
    (p.2 w).raw = some (w.toRaw (BitVec.ofNat 8 p.1)) ∧ (p.2 w).isCapstan = false := by
  have all : strandMap.map (fun p w => ((p.2 w).raw, (p.2 w).isCapstan)) =
      strandMap.map (fun p (w : SWord) => (some (w.toRaw (BitVec.ofNat 8 p.1)), false)) := rfl
  exact Prod.mk.inj (congrFun (List.map_inj_left.mp all p hp) w)

/-- An entry of the capstan map makes capstan instructions, of its own opcode. -/
theorem capstanMap_entry {p : Nat × (CWord → Instr)} (hp : p ∈ capstanMap) (w : CWord) :
    (p.2 w).raw = some (w.toRaw (BitVec.ofNat 8 p.1)) ∧ (p.2 w).isCapstan = true := by
  have all : capstanMap.map (fun p w => ((p.2 w).raw, (p.2 w).isCapstan)) =
      capstanMap.map (fun p (w : CWord) => (some (w.toRaw (BitVec.ofNat 8 p.1)), true)) := rfl
  exact Prod.mk.inj (congrFun (List.map_inj_left.mp all p hp) w)

theorem opOf_lt (r : DWord) : opOf r < 256 := (r.extractLsb' 0 8).isLt

theorem ofNat_opOf (r : DWord) : BitVec.ofNat 8 (opOf r) = r.extractLsb' 0 8 := by
  rw [opOf, BitVec.ofNat_toNat, BitVec.setWidth_eq]

theorem opOf_eq_mod (r : DWord) : opOf r = r.toNat % 256 := by simp [opOf, BitVec.extractLsb']

/-! ### From an instruction to its bytes and back -/

/-- The instructions that have a word: those of the two streams. -/
theorem raw_isSome (i : Instr) : i.raw.isSome = ((strandForm i).isSome || i.isCapstan || (i matches .unassignedOpcode _)) := by
  cases i <;> rfl

theorem isCapstan_of_capstanForm {i : Instr} (h : (capstanForm i).isSome = true) : i.isCapstan = true := by
  unfold Instr.isCapstan
  split
  · rfl
  · exact h

theorem decodeBytes_bytesOfWord (capstan : Bool) (r : DWord) (rest : List Byte) :
    decodeBytes capstan (bytesOfWord r ++ rest) = if capstan then decodeCapstan r else decodeStrand r := by
  unfold decodeBytes
  rw [wordOfBytes_bytesOfWord]

/-- Settles O48: an instruction of either stream has a word, and the decoder of the stream reads it from the word's bytes. -/
theorem decodeEncode : Obligations.DecodeEncode := by
  intro i hi
  have hr : i.raw.isSome = true := by
    rw [raw_isSome]
    obtain h | h | ⟨r, rfl⟩ | ⟨r, rfl⟩ := hi
    · simp [h]
    · simp [isCapstan_of_capstanForm h]
    · rfl
    · rfl
  obtain ⟨r, hr⟩ := Option.isSome_iff_exists.mp hr
  refine ⟨bytesOfWord r, by rw [encode, hr]; rfl, rfl, fun hw rest => ?_⟩
  rw [decodeBytes_bytesOfWord]
  exact Laws.RoundTrip.ofInstr i r hr hw

/-! ### From bytes to an instruction and back -/

theorem bytesOfWord_append (b0 b1 b2 b3 b4 b5 b6 b7 : Byte) :
    bytesOfWord (b7 ++ b6 ++ b5 ++ b4 ++ b3 ++ b2 ++ b1 ++ b0) = [b0, b1, b2, b3, b4, b5, b6, b7] := by
  unfold bytesOfWord
  simp (disch := decide) only [extract_high, extract_low, Nat.sub_self, Nat.reduceSub, extract_all]

/-- The bytes of a word that was read are the bytes that were there. -/
theorem eq_append_of_wordOfBytes {bs rest : List Byte} {r : DWord} (h : wordOfBytes bs = some (r, rest)) : bs = bytesOfWord r ++ rest := by
  unfold wordOfBytes at h
  split at h
  · cases h
    rw [bytesOfWord_append]
    rfl
  · cases h

/-- What the decoder of strand words reads. -/
theorem decodeStrand_instr {r : DWord} {i : Instr} (h : decodeStrand r = .instr i) : i.wf = true ∧ i.isCapstan = false ∧ i.raw = some r := by
  unfold decodeStrand strandOf at h
  cases hm : strandMap.lookup (opOf r) with
  | none =>
    rw [hm] at h
    cases h
    refine ⟨?_, rfl, rfl⟩
    have hu := unassigned_of_lookup strandMap_opcodes (opOf_lt r) hm
    rw [opOf_eq_mod] at hu
    show (!strandAssigned (r.toNat % 256)) = true
    rw [hu]; rfl
  | some mk =>
    rw [hm] at h
    simp only [Option.map_some] at h
    split at h
    · next hw =>
      cases h
      obtain ⟨hraw, hs⟩ := strandMap_entry (mem_of_lookup hm) (.ofRaw r)
      exact ⟨hw, hs, by rw [hraw, ofNat_opOf, SWord.toRaw_ofRaw]⟩
    · cases h

/-- What the decoder of capstan words reads. -/
theorem decodeCapstan_instr {r : DWord} {i : Instr} (h : decodeCapstan r = .instr i) : i.wf = true ∧ i.isCapstan = true ∧ i.raw = some r := by
  unfold decodeCapstan capstanOf at h
  cases hm : capstanMap.lookup (opOf r) with
  | none =>
    rw [hm] at h
    cases h
    refine ⟨?_, rfl, rfl⟩
    have hu := unassigned_of_lookup capstanMap_opcodes (opOf_lt r) hm
    rw [opOf_eq_mod] at hu
    show (!capstanAssigned (r.toNat % 256)) = true
    rw [hu]; rfl
  | some mk =>
    rw [hm] at h
    simp only [Option.map_some] at h
    split at h
    · next hw =>
      cases h
      rw [Bool.and_eq_true] at hw
      obtain ⟨hraw, hs⟩ := capstanMap_entry (mem_of_lookup hm) (.ofRaw r)
      exact ⟨hw.2, hs, by rw [hraw, ofNat_opOf, CWord.toRaw_ofRaw hw.1]⟩
    · cases h

/-- Settles O49: by the two decoders, each of which reads one entry of its map. -/
theorem encodeDecode : Obligations.EncodeDecode := by
  intro capstan bs i h
  unfold decodeBytes at h
  split at h
  · cases h
  · next r rest hb =>
    have key : i.wf = true ∧ i.isCapstan = capstan ∧ i.raw = some r := by
      cases capstan
      · exact decodeStrand_instr h
      · exact decodeCapstan_instr h
    obtain ⟨hw, hc, hr⟩ := key
    exact ⟨hw, hc, bytesOfWord r, rest, by rw [encode, hr]; rfl, eq_append_of_wordOfBytes hb⟩

/-- Settles O50: each word has the fields that stand for it (R17, R61), and is well formed but for the one that the spec rejects. -/
theorem decodedWords : Obligations.DecodedWords := by
  unfold Obligations.DecodedWords
  decide +kernel

/-! ### Words that fail a check (R27, R64, R69) -/

theorem wf_of_strandForm {i : Instr} {w : SWord} {f : Form} (hf : strandForm i = some (w, f)) : i.wf = f.wf w := by
  unfold Instr.wf; rw [hf]

theorem wf_of_capstanForm {i : Instr} {w : CWord} {f : CForm} (hf : capstanForm i = some (w, f)) : i.wf = f.wf w := by
  have hs : strandForm i = none := by cases i <;> cases hf <;> rfl
  unfold Instr.wf; rw [hs, hf]

/-- The meaning of a strand instruction: its form's checks before a body. TRET has its own run, since it does not go on to the next word. -/
theorem exec_strand {i : Instr} {w : SWord} {f : Form} (hf : strandForm i = some (w, f)) :
    i = .tret w ∨ ∃ body, ∀ s, exec i s = .next (runWord i body s) := by
  cases i with
  | tret _ => cases hf; exact .inl rfl
  | _ => cases hf <;> exact .inr ⟨_, fun _ => rfl⟩

/-- The meaning of a capstan instruction: its form's checks before a body. -/
theorem exec_capstan {i : Instr} {w : CWord} {f : CForm} (hf : capstanForm i = some (w, f)) :
    ∃ body, ∀ s, exec i s = .next (runCap i body s) := by
  cases i <;> cases hf <;> exact ⟨_, fun _ => rfl⟩

/-- A strand word that fails a check traps precisely, whatever its guard enables. -/
theorem exec_wordTrap {i : Instr} {w : SWord} {f : Form} {s : State} {c : TrapCode} (hf : strandForm i = some (w, f))
    (hc : wordTrap f w s = some c) : exec i s = .next (preciseTrap s c 0) := by
  obtain rfl | ⟨body, he⟩ := exec_strand hf
  · have ht : tretRun w s = preciseTrap s c 0 := by unfold tretRun; rw [hf]; dsimp only; rw [hc]
    exact congrArg Host.Outcome.next ht
  · have hr : runForm f w (body w) s = preciseTrap s c 0 := by unfold runForm; rw [hc]
    rw [he, runWord_eq _ _ hf, hr]

/-- Settles O52: the checks of a strand word in the order of `wordTrap`; a capstan word has one. -/
theorem illFormedWordsTrap : Obligations.IllFormedWordsTrap := by
  refine ⟨fun i w f s hf hw => ?_, fun i w f s hf hin hh => ?_, fun i w f s hf hw hh hr => ?_, fun i w f s hf hw hh hr hp => ?_,
    fun i w f s r hf hw hr hc => ?_⟩
  · rw [wf_of_strandForm hf] at hw
    exact exec_wordTrap hf (by simp [wordTrap, hw])
  · exact exec_wordTrap hf (by simp [wordTrap, hin, hh])
  · rw [wf_of_strandForm hf] at hw
    have hb : f.inRange w (me s).base (me s).ext = false := by
      obtain ⟨r, hm, h⟩ := hr
      simpa [Form.inRange] using ⟨r, hm, h⟩
    exact exec_wordTrap hf (by obtain h | h := hh <;> simp [wordTrap, hw, hb, h])
  · rw [wf_of_strandForm hf] at hw
    have hb : f.inRange w (me s).base (me s).ext = true := by simpa [Form.inRange] using hr
    have hm : mayRun f.priv s = false := by
      obtain ⟨h1, h2⟩ | ⟨h1, h2⟩ := hp
      · simp [mayRun, h1, h2]
      · simpa [mayRun, h1] using h2
    exact exec_wordTrap hf (by obtain h | h := hh <;> simp [wordTrap, hw, hb, h, hm])
  · rw [wf_of_capstanForm hf] at hw
    obtain ⟨body, he⟩ := exec_capstan hf
    have hn : r.clause.isNone = false := by simpa using hc
    rw [he]
    unfold runCap
    rw [hf, hr]
    simp [hn, hw, operandEnd, endWith, (run_of hr).2.1]

end Sys2Proof.Machine

end

section
/-! O15, O16: transfers of control. First what a transfer leaves, of the strand and of the rest, then the words that transfer. -/

namespace Sys2Proof.Machine

set_option autoImplicit false
set_option Elab.async false

/-! ### Register targets (R104) -/

/-- The enabled lanes whose register target is a multiple of 8 below 2^56. -/
def goodLanes (w : SWord) (u : State) : LaneMask :=
  maskOf (fun l => inMask (enabled u w) l && (opA2 u w l).toNat % 8 == 0 && decide ((opA2 u w l).toNat < 2 ^ 56))

/-- The lanes that a transfer to a register refuses are the enabled ones that are not good. -/
theorem refusedLanes_eq (w : SWord) (u : State) :
    maskOf (fun l => inMask (enabled u w) l && !targetOk (opA2 u w l)) = enabled u w &&& ~~~goodLanes w u := by
  apply mask_ext
  intro l
  simp only [goodLanes, targetOk, vaOk, inMask_maskOf, inMask_and, inMask_not]
  cases inMask (enabled u w) l <;> rfl

theorem goodLanes_eq (w : SWord) (u : State) : enabled u w &&& ~~~(enabled u w &&& ~~~goodLanes w u) = goodLanes w u := by
  apply mask_ext
  intro l
  simp only [goodLanes, inMask_maskOf, inMask_and, inMask_not]
  cases inMask (enabled u w) l <;> simp

/-- BRX, CALLX and RET: the good lanes transfer, behind the link where there is one, and the others fault at the word. -/
theorem jumpTo_eq (link : Bool) (w : SWord) (u : State) :
    let t := if link then setMe u (putReg (me u) w.d 2 (goodLanes w u) (fun _ => (nextHeader u).setWidth 64)) else u
    jumpTo link w u = .done (faultLanes (transfer t (goodLanes w u) (fun l => targetOf (opA2 u w l))) (curClause u).hdr (some (curClause u).word)
      ((lanesOf (enabled u w &&& ~~~goodLanes w u)).map (fun l => (l, .memfault, opA2 u w l, 0)))) := by
  unfold jumpTo
  simp only [refusedLanes_eq, goodLanes_eq]

/-- Settles O15: each word's body makes the effect that is stated. -/
theorem transfersComplete : Obligations.TransfersComplete := by
  refine ⟨?_, ?_, ?_, ?_, ?_, ?_, ?_⟩
  · exact does_of (body := braBody) (fun _ => rfl) (fun _ _ => rfl) (fun _ _ => rfl)
  · exact does_of (body := callBody) (fun _ => rfl) (fun _ _ => rfl) (fun _ _ => rfl)
  · exact does_of (body := jumpTo false) (fun _ => rfl) (fun _ _ => rfl) (jumpTo_eq false)
  · exact does_of (body := jumpTo false) (fun _ => rfl) (fun _ _ => rfl) (jumpTo_eq false)
  · exact does_of (body := jumpTo true) (fun _ => rfl) (fun _ _ => rfl) (jumpTo_eq true)
  · exact does_of (body := yieldBody) (fun _ => rfl) (fun _ _ => rfl) (fun _ _ => rfl)
  · exact does_of (body := bdecBody) (fun _ => rfl) (fun _ _ => rfl) (fun _ _ => rfl)

/-! ### What a transfer leaves (R103, R148) -/

/-- A change of the strand in focus alone. -/
def focusOnly (s t : State) : Prop := t = s ∨ ∃ m, t = setMe s m

theorem focusOnly_setMe {s t : State} (h : focusOnly s t) (m : Strand) : focusOnly s (setMe t m) := by
  obtain rfl | ⟨n, rfl⟩ := h
  · exact .inr ⟨m, rfl⟩
  · exact .inr ⟨m, setMe_setMe ..⟩

theorem focusOnly_setClause {s t : State} (h : focusOnly s t) (c : Option Clause) : focusOnly s (setClause t c) := by
  unfold setClause
  dsimp only
  split
  · exact focusOnly_setMe h _
  · exact focusOnly_setMe h _

theorem focusOnly_leaveClause {s t : State} (h : focusOnly s t) (m : LaneMask) : focusOnly s (leaveClause t m) := by
  unfold leaveClause
  split
  · exact h
  · exact focusOnly_setClause h _

theorem focusOnly_transfer (s : State) (m : LaneMask) (target : Lane → VAddr) : focusOnly s (transfer s m target) := by
  unfold transfer
  dsimp only
  split
  · split
    · exact focusOnly_leaveClause (focusOnly_setMe (.inl rfl) _) m
    · exact .inl rfl
  · exact focusOnly_leaveClause (focusOnly_setMe (.inl rfl) _) m

/-- Where a word changes the strand in focus alone, from the state in which it is issued, the rest stands. -/
theorem focusOnly_rest {i : Instr} {s t : State} (h : focusOnly (issued i s) t) : restKept 0 s t := by
  obtain rfl | ⟨m, rfl⟩ := h
  · exact (issued_kept i s).2.2.2
  · simpa using effect_rest i s m 0

/-- Where a transfer leaves a strand in handler mode: its handler has moved, and no thread. -/
theorem transfer_handler {s : State} {h : Handler} {c : Clause} (hh : (me s).handler = some h) (hc : h.clause = some c) {m : LaneMask}
    (hm : inMask m 0 = true) (target : Lane → VAddr) :
    me (transfer s m target) = { me s with handler := some { h with pc := target 0, clause := some { c with act := c.act &&& ~~~m } } } := by
  unfold transfer
  dsimp only
  rw [hh]
  dsimp only
  rw [if_pos hm]
  simp only [leaveClause, curClause?_me, me_setMe, hc, setClause]

/-- A transfer outside handler mode keeps the registers, what is outstanding, and the mode. -/
theorem transfer_kept {s : State} {c : Clause} (h : (me s).handler = none) (hc : (me s).clause = some c) (m : LaneMask)
    (target : Lane → VAddr) :
    regsKept (me s) (me (transfer s m target)) ∧ (me (transfer s m target)).pend = (me s).pend ∧ (me (transfer s m target)).handler = none := by
  rw [transfer_me h hc, modThreads_eq]
  exact ⟨⟨rfl, rfl, rfl, rfl⟩, rfl, h⟩

theorem issued_curClause (i : Instr) (s : State) : curClause (issued i s) = curClause s := by simp [curClause]

theorem branchTarget_issued (i : Instr) (s : State) (w : SWord) : branchTarget (issued i s) w = branchTarget s w := by
  simp only [branchTarget, wordAddr, issued_curClause]

/-- The state that a branch's effect makes of the one in which it is issued. -/
def branched (w : SWord) (s : State) : State := transfer (issued (.bra w) s) (enabled s w) (fun _ => branchTarget s w)

/-- What a branch that issues does. -/
theorem exec_bra {w : SWord} {s : State} (hi : issues (.bra w) s = true) : exec (.bra w) s = .next (goneOn w.sw (branched w s)) := by
  have h : does .bra (fun w u => transfer u (enabled u w) (fun _ => branchTarget u w)) := transfersComplete.1
  rw [h w s hi, branched]
  simp only [issued_enabled, branchTarget_issued]

theorem branched_rest (w : SWord) (s : State) : restKept 0 s (branched w s) := focusOnly_rest (focusOnly_transfer ..)

/-- Where a branch leaves a strand outside handler mode. -/
theorem branched_plain {w : SWord} {s : State} {c : Clause} (hh : (me s).handler = none) (hc : (me s).clause = some c) :
    let u := branched w s
    regsKept (me s) (me u) ∧ (me u).pend = (me s).pend ∧ (me u).handler = none ∧
    (me u).clause = some { c with act := c.act &&& ~~~enabled s w } ∧
    ∀ l, (me u).threads.get l = if inMask (enabled s w) l then
      { (me s).threads.get l with pc := branchTarget s w, place := none } else (me s).threads.get l := by
  have hh' : (me (issued (.bra w) s)).handler = none := (issued_handler ..).trans hh
  have hc' : (me (issued (.bra w) s)).clause = some c := (issued_clause ..).trans hc
  obtain ⟨hregs, hpend, hmode⟩ := transfer_kept hh' hc' (enabled s w) (fun _ => branchTarget s w)
  have hm := transfer_me hh' hc' (enabled s w) (fun _ => branchTarget s w)
  refine ⟨regsKept_trans (issued_regsKept ..) hregs, hpend.trans (issued_pend ..), hmode, ?_, fun l => ?_⟩
  · rw [branched, hm]
  · rw [branched, hm]
    simp only [modThreads_get, issued_threads]

/-- A word that asks for nothing, or has nothing to ask for, leaves the strand where it goes on. -/
theorem goneOn_quiet {w : SWord} {u : State} (h : quiet w u = true) : goneOn w.sw u = { setMe u (wentOn (me u)) with free := u.free + 1 } := by
  have hv : (if w.sw then settleAll u else u) = u := by
    split
    · next hs => exact settleAll_empty (by simpa [quiet, hs] using h)
    · rfl
  unfold goneOn
  rw [hv]

/-- Where a strand outside handler mode stands that goes on in a clause. -/
theorem wentOn_plain {a : Strand} {c : Clause} (hh : a.handler = none) (hc : a.clause = some c) :
    (wentOn a).clause = (if c.act = 0 ∨ c.nm1 ≤ c.word then none else some { c with word := c.word + 1 }) ∧
    ∀ l, let x := a.threads.get l
         let y := (wentOn a).threads.get l
      y.st = x.st ∧ y.mr = x.mr ∧
      if inMask c.act l = true ∧ c.nm1 ≤ c.word then y.pc = c.hdr + 8 + BitVec.ofNat 56 (8 * (c.nm1 + 1)) ∧ y.place = none
      else y.pc = x.pc ∧ y.place = x.place := by
  unfold wentOn
  dsimp only
  rw [hh, hc]
  dsimp only
  by_cases hp : c.act = 0 ∨ c.nm1 ≤ c.word
  · have hb : (c.act == 0 || decide (c.nm1 ≤ c.word)) = true := by simpa using hp
    rw [if_pos hb, if_pos hp]
    refine ⟨rfl, fun l => ?_⟩
    have hl : inMask c.act l = true → c.nm1 ≤ c.word := by
      intro hl
      refine hp.resolve_left (fun h0 => ?_)
      rw [h0, inMask_zero] at hl
      cases hl
    dsimp only
    rw [tab_get]
    cases hm : inMask c.act l
    · simp only [Bool.false_eq_true, if_false, false_and]
      split <;> exact ⟨rfl, rfl, rfl, rfl⟩
    · simp only [if_true, true_and, hl hm]
      split <;> exact ⟨rfl, rfl, rfl, rfl⟩
  · have hb : ¬ (c.act == 0 || decide (c.nm1 ≤ c.word)) = true := by simpa using hp
    rw [if_neg hb, if_neg hp]
    refine ⟨rfl, fun l => ⟨rfl, rfl, ?_⟩⟩
    rw [if_neg (fun h => hp (.inr h.2))]
    exact ⟨rfl, rfl⟩

/-- Where the lanes stand once a strand has gone on after a branch. -/
theorem branched_lanes {w : SWord} {s : State} {c : Clause} (hh : (me s).handler = none) (hc : (me s).clause = some c) (l : Lane) :
    let x := (me s).threads.get l
    let y := (wentOn (me (branched w s))).threads.get l
    y.st = x.st ∧ y.mr = x.mr ∧
    if inMask (enabled s w) l = true then y.pc = branchTarget s w ∧ y.place = none
    else if inMask c.act l = true ∧ c.nm1 ≤ c.word then y.pc = nextHeader s ∧ y.place = none
    else y.pc = x.pc ∧ y.place = x.place := by
  obtain ⟨-, -, hmode, hcl, hthr⟩ := branched_plain (w := w) hh hc
  have h := (wentOn_plain hmode hcl).2 l
  have hn : nextHeader s = c.hdr + 8 + BitVec.ofNat 56 (8 * (c.nm1 + 1)) := by
    rw [nextHeader, curClause, curClause?_plain hh, hc]
    rfl
  dsimp only at h ⊢
  rw [hthr l] at h
  rw [hn]
  cases hgo : inMask (enabled s w) l
  · simpa only [hgo, Bool.false_eq_true, if_false, inMask_and, inMask_not, Bool.not_false, Bool.and_true] using h
  · simpa only [hgo, if_true, inMask_and, inMask_not, Bool.not_true, Bool.and_false, Bool.false_eq_true, false_and, if_false] using h

/-- Settles O16: what the branch leaves, and then where the strand goes on; in handler mode it is the handler that moves. -/
theorem branchMoves : Obligations.BranchMoves := by
  refine ⟨fun w s c hi hh hc => ?_, fun w s h c hi hh hc hm => ?_⟩
  · obtain ⟨hregs, hpend, hmode, hcl, hthr⟩ := branched_plain (w := w) hh hc
    refine ⟨⟨_, exec_bra hi, hregs, hpend, branched_rest w s, hcl, hthr⟩, fun hq => ⟨_, exec_bra hi, ?_⟩⟩
    have hqu : quiet w (branched w s) = true := by
      unfold quiet at hq ⊢
      rw [hpend]
      exact hq
    have hg : me (goneOn w.sw (branched w s)) = wentOn (me (branched w s)) := by
      rw [goneOn_quiet hqu]
      exact me_setMe ..
    rw [hg]
    exact ⟨regsKept_trans hregs (wentOn_regs _).1, (wentOn_plain hmode hcl).1, branched_lanes hh hc⟩
  · have hu := transfer_handler ((issued_handler (.bra w) s).trans hh) hc hm (fun _ => branchTarget s w)
    obtain ⟨hv, hs, hp, -⟩ := issued_regsKept (.bra w) s
    refine ⟨_, exec_bra hi, ?_, branched_rest w s, ?_, ?_⟩
    · rw [branched, hu]
      exact ⟨hv, hs, hp, by rw [hh]; rfl⟩
    · rw [branched, hu]
      exact issued_threads ..
    · rw [branched, hu]
      rfl

end Sys2Proof.Machine

end

section
/-! O37: the scalar and control words of the capstan. First the arithmetic of their results, then the words. -/

namespace Sys2Proof.Machine

set_option autoImplicit false
set_option Elab.async false

/-! ### Results as numbers (R62, R63) -/

theorem signExtend_shiftLeft (x : BitVec 16) (h : Nat) : x.signExtend 64 <<< h = BitVec.ofInt 64 (x.toInt * 2 ^ h) := by
  have hp : BitVec.ofInt 64 (2 ^ h) = BitVec.twoPow 64 h := by
    apply BitVec.eq_of_toNat_eq
    rw [show (2 : Int) ^ h = ((2 ^ h : Nat) : Int) by simp, BitVec.ofInt_natCast, BitVec.toNat_ofNat, BitVec.toNat_twoPow]
  rw [BitVec.shiftLeft_eq_mul_twoPow, BitVec.ofInt_mul, hp]
  rfl

theorem add_eq_ofNat (a b : DWord) : a + b = BitVec.ofNat 64 (a.toNat + b.toNat) := by
  rw [BitVec.ofNat_add, BitVec.ofNat_toNat, BitVec.ofNat_toNat, BitVec.setWidth_eq, BitVec.setWidth_eq]

theorem sub_eq_ofInt (a b : DWord) : a - b = BitVec.ofInt 64 (a.toInt - b.toInt) := by
  apply BitVec.eq_of_toInt_eq
  rw [BitVec.toInt_sub, BitVec.toInt_ofInt]

theorem mul_eq_ofNat (a b : DWord) : a * b = BitVec.ofNat 64 (a.toNat * b.toNat) := by
  rw [BitVec.ofNat_mul, BitVec.ofNat_toNat, BitVec.ofNat_toNat, BitVec.setWidth_eq, BitVec.setWidth_eq]

theorem shl64_eq (a b : DWord) : shl64 a b = if b.toNat < 64 then BitVec.ofNat 64 (a.toNat * 2 ^ b.toNat) else 0 := by
  have h : a <<< b.toNat = BitVec.ofNat 64 (a.toNat * 2 ^ b.toNat) := by
    apply BitVec.eq_of_toNat_eq
    rw [BitVec.toNat_shiftLeft, BitVec.toNat_ofNat, Nat.shiftLeft_eq]
  rw [shl64, h]

theorem shr64_eq (a b : DWord) : shr64 a b = if b.toNat < 64 then BitVec.ofNat 64 (a.toNat / 2 ^ b.toNat) else 0 := by
  have h : a >>> b.toNat = BitVec.ofNat 64 (a.toNat / 2 ^ b.toNat) := by
    apply BitVec.eq_of_toNat_eq
    rw [BitVec.toNat_ushiftRight, BitVec.toNat_ofNat, Nat.shiftRight_eq_div_pow, Nat.mod_eq_of_lt]
    exact lt_of_le_of_lt (Nat.div_le_self ..) a.isLt
  rw [shr64, h]

/-- The conditions of CBR, by number. -/
theorem capCond_eq (w : CWord) (r : RunCall) : capCond w.cond.toNat r =
    [r.fz, !r.fz, r.fn, !r.fn, r.fc, !r.fc, r.fn || r.fz, !(r.fn || r.fz)].getD w.cond.toNat false := by
  have h : w.cond.toNat < 8 := w.cond.isLt
  generalize w.cond.toNat = n at h
  interval_cases n <;> rfl

/-! ### The words -/

/-- A word of one result in D, a function of A and of operand2. -/
theorem capWrites_alu {mk : CWord → Instr} {g : CWord → CForm} {n : Nat} {f h : DWord → DWord → DWord}
    (hf : ∀ w, capstanForm (mk w) = some (w, g w)) (he : ∀ w s, exec (mk w) s = .next (runCap (mk w) (capAlu n f) s))
    (e : ∀ a b, f a b = h a b) : capWrites mk n (fun w s => h (capA s w) (capB s w + w.imm.signExtend 64)) :=
  capWrites_body hf he (fun w s => by rw [← e]; rfl)

theorem cmoviValue_eq (w : CWord) (old : DWord) : cmoviValue w old =
    if w.a = 0 then BitVec.ofInt 64 (w.imm.toInt * 2 ^ (16 * w.b.toNat))
    else (old &&& ~~~((0xFFFF : DWord) <<< (16 * w.b.toNat))) ||| (w.imm.setWidth 64 <<< (16 * w.b.toNat)) := by
  unfold cmoviValue
  dsimp only
  rw [signExtend_shiftLeft]

/-- What an instruction does wherever it issues, by its body. -/
theorem exec_of_runCap {mk : CWord → Instr} {body : CWord → State → CRes} {t : CWord → State → State}
    (he : ∀ w s, exec (mk w) s = .next (runCap (mk w) body s)) (h : ∀ w s, capIssues (mk w) s = true → runCap (mk w) body s = t w s) :
    ∀ w s, capIssues (mk w) s = true → exec (mk w) s = .next (t w s) := by
  intro w s hi
  rw [he, h w s hi]

/-- Settles O37: each word's body leaves its result, its flags or its target. -/
theorem capstanScalarComplete : Obligations.CapstanScalarComplete := by
  unfold Obligations.CapstanScalarComplete
  intro dest op2 alu holds goes
  have hadd := capWrites_alu (mk := .cadd) (fun _ => rfl) (fun _ _ => rfl) add_eq_ofNat
  have hsub := capWrites_alu (mk := .csub) (fun _ => rfl) (fun _ _ => rfl) sub_eq_ofInt
  have hmul := capWrites_alu (mk := .cmul) (fun _ => rfl) (fun _ _ => rfl) mul_eq_ofNat
  have hand := capWrites_alu (mk := .cand) (h := (· &&& ·)) (fun _ => rfl) (fun _ _ => rfl) (fun _ _ => rfl)
  have hor := capWrites_alu (mk := .cor) (h := (· ||| ·)) (fun _ => rfl) (fun _ _ => rfl) (fun _ _ => rfl)
  have hshl := capWrites_alu (mk := .cshl) (fun _ => rfl) (fun _ _ => rfl) shl64_eq
  have hshr := capWrites_alu (mk := .cshr) (fun _ => rfl) (fun _ _ => rfl) shr64_eq
  refine ⟨?_, ?_, ?_, ?_, hadd, hsub, hmul, hand, hor, hshl, hshr, ?_, ?_, ?_, ?_⟩
  · exact exec_of_runCap (body := fun _ s => .done 1 s) (fun _ _ => rfl) (fun w s hi => runCap_done rfl hi rfl)
  · exact exec_of_runCap (body := fun _ s => .done 1 s) (fun _ _ => rfl) (fun w s hi => runCap_stays rfl hi rfl)
  · exact capWrites_body (fun _ => rfl) (fun _ _ => rfl) (fun _ _ => rfl)
  · exact capWrites_body (fun _ => rfl) (fun _ _ => rfl) (fun w s => by rw [cmoviValue_eq])
  · exact exec_of_runCap (body := ccmpBody) (fun _ _ => rfl) (fun w s hi => runCap_ran rfl hi rfl rfl)
  · refine exec_of_runCap (body := cbrBody) (fun _ _ => rfl) (fun w s hi => ?_)
    have hc : holds w (myRun s) = capCond w.cond.toNat (myRun s) := (capCond_eq w (myRun s)).symm
    rw [hc]
    split
    · next h => exact runCap_goes rfl hi (if_pos h)
    · next h => exact runCap_stays rfl hi (if_neg h)
  · exact exec_of_runCap (body := fun w s => .jump 1 (capTarget s w) s) (fun _ _ => rfl) (fun w s hi => runCap_goes rfl hi rfl)
  · refine exec_of_runCap (body := cloopBody) (fun _ _ => rfl) (fun w s hi => ?_)
    dsimp only
    split
    · next h => exact runCap_ran rfl hi (put_ended ..) (if_pos h)
    · next h => exact runCap_went rfl hi (put_ended ..) (if_neg h)

end Sys2Proof.Machine

end

section
/-! O57: the turn in which the host writes the near store, in a device that is in recovery. -/

namespace Sys2Proof.Machine

set_option autoImplicit false
set_option Elab.async false

/-- In recovery the near store takes no write (R403). -/
theorem hostNear_recovery {s : State} (h : s.mgmt.state = 3) (a : Nat) (b : Byte) : hostNear s a b = s := if_pos h

/-- A device in recovery, fresh from reset, to whose near store the host is about to write the byte 1 at address 0. -/
def recoveringDevice : State := { State.reset with mgmt := { State.reset.mgmt with state := 3 }, agenda := [.hostNear 0 1] }

theorem step_recoveringDevice : step recoveringDevice = .next { recoveringDevice with agenda := [], free := recoveringDevice.free + 1 } :=
  congrArg Host.Outcome.next (hostNear_recovery rfl 0 1)

/-- Refutes O57: its clause about the host's writes of the near store asks for the write in every state, but in recovery (STATE 3) nothing
works but BAR0 and FWSTAGE (R403), and the model discards the write. -/
theorem not_stepRunsWord : ¬ Obligations.StepRunsWord := by
  rintro ⟨-, -, -, -, -, -, -, -, hnear, -, -⟩
  obtain ⟨t, hstep, ht⟩ := hnear recoveringDevice 0 1 [] rfl
  rw [step_recoveringDevice] at hstep
  cases hstep
  have hmem : ([] : List Host.Cell) = memWr [] (physKey 0 0 (0 % 2 ^ 33)) 1 := congrArg State.mem ht
  exact absurd hmem (by decide)

end Sys2Proof.Machine

end

section
/-! O41, O54: the events of a strand. First what a clause header does, case by case, then the other events. -/

namespace Sys2Proof.Machine

set_option autoImplicit false
set_option Elab.async false

/-! ### Headers (R14 to R16, R148, R331) -/

/-- The strand in focus may come to a header: it stands between clauses, and neither TEND, nor a stop, nor STICKY holds it. -/
def comesToHeader (s : State) : Prop :=
  betweenClauses s = true ∧ (myCord s).tend = false ∧ (myCord s).stopping = false ∧ ((me s).stickyHeld = false ∨ inHandler s = true)

theorem comesToHeader_free {s : State} (h : (me s).stickyHeld = false ∨ inHandler s = true) :
    ((me s).stickyHeld && !inHandler s) = false := by
  obtain h | h := h <;> simp [h]

theorem exec_clauseHeader (s : State) : exec .clauseHeader s = execClauseHeader s := rfl

/-- A header that waits for its mask waits on. -/
theorem clauseHeader_waits {s : State} {m : BitVec 8} (h : comesToHeader s) (hw : (me s).waitHdr = some m) :
    exec .clauseHeader s = .next (headerWait s m) := by
  obtain ⟨hb, ht, hs, hh⟩ := h
  simp [exec_clauseHeader, execClauseHeader, hb, ht, hs, comesToHeader_free hh, hw]

/-- In handler mode the header is the handler's. -/
theorem clauseHeader_handler {s : State} {x : Handler} (h : comesToHeader s) (hw : (me s).waitHdr = none) (hx : (me s).handler = some x) :
    exec .clauseHeader s = .next (handlerHeader s x) := by
  obtain ⟨hb, ht, hs, hh⟩ := h
  simp [exec_clauseHeader, execClauseHeader, hb, ht, hs, comesToHeader_free hh, hw, hx]

/-- A trap that is due comes before the header. -/
theorem clauseHeader_due {s t : State} (h : comesToHeader s) (hw : (me s).waitHdr = none) (hx : (me s).handler = none)
    (hd : takeDue s = some t) : exec .clauseHeader s = .next t := by
  obtain ⟨hb, ht, hs, hh⟩ := h
  simp [exec_clauseHeader, execClauseHeader, hb, ht, hs, comesToHeader_free hh, hw, hx, hd]

/-- With no trap due the header is that of the selected group. -/
theorem clauseHeader_selects {s : State} {l : Lane} (h : comesToHeader s) (hw : (me s).waitHdr = none) (hx : (me s).handler = none)
    (hd : takeDue s = none) (hl : (me s).select = some l) : exec .clauseHeader s = .next (groupHeader s l) := by
  obtain ⟨hb, ht, hs, hh⟩ := h
  simp [exec_clauseHeader, execClauseHeader, hb, ht, hs, comesToHeader_free hh, hw, hx, hd, hl]

/-- TEND is seen first. -/
theorem clauseHeader_tend {s : State} (hb : betweenClauses s = true) (ht : (myCord s).tend = true) :
    exec .clauseHeader s = .next (setMe s (me s).tendStop) := by
  simp [exec_clauseHeader, execClauseHeader, hb, ht]

/-- A strand that STICKY holds takes a trap that is due, and no header. -/
theorem clauseHeader_held {s : State} (hb : betweenClauses s = true) (ht : (myCord s).tend = false) (hs : (myCord s).stopping = false)
    (hh : (me s).stickyHeld = true) (hx : inHandler s = false) :
    exec .clauseHeader s = .next (if (me s).waitHdr.isSome then s else (takeDue s).getD s) := by
  cases hw : (me s).waitHdr <;> simp [exec_clauseHeader, execClauseHeader, hw, hb, ht, hs, hh, hx]

/-- The strand once a selection has been counted. -/
def counted (s : State) : State := setMe s { me s with sel := (me s).sel + 1 }

/-- The clause of a header r at pc, of which a group stands at word w. -/
def clauseAt (r : DWord) (pc : VAddr) (w : Nat) (g : LaneMask) : Clause := { hdr := pc, nm1 := hdrNm1 r, word := w, act := g, group := g }

/-- A group that stands at a header checks it and begins its clause, or traps. -/
theorem groupHeader_fetched {s t : State} {l : Lane} {r : DWord} (hi : ((me s).threads.get l).hi = 0)
    (hp : ((me s).threads.get l).place = none) (hf : strandFetch (counted s) ((me s).threads.get l).pc = .word r t) :
    groupHeader s l = if strandHeaderOk r then
      headerWait (setClause t (some (clauseAt r ((me s).threads.get l).pc 0 (positionGroup (me s) l)))) (hdrWait r)
    else illegalClause t ((me s).threads.get l).pc (positionGroup (me s) l) := by
  unfold counted at hf
  unfold groupHeader clauseAt
  dsimp only
  rw [hi, hf]
  dsimp only
  rw [hp]
  cases strandHeaderOk r <;> rfl

/-- A group that stands at a word reads its header for N-1 alone (R356). -/
theorem groupHeader_resumes {s t : State} {l : Lane} {r : DWord} {w : Nat} (hi : ((me s).threads.get l).hi = 0)
    (hp : ((me s).threads.get l).place = some w) (hf : strandFetch (counted s) ((me s).threads.get l).pc = .word r t) :
    groupHeader s l = setClause t (some (clauseAt r ((me s).threads.get l).pc w (positionGroup (me s) l))) := by
  unfold counted at hf
  unfold groupHeader
  dsimp only
  rw [hi, hf]
  dsimp only
  rw [hp]
  rfl

/-- The handler checks its header and begins its clause, or traps. -/
theorem handlerHeader_fetched {s t : State} {h : Handler} {r : DWord} (hf : strandFetch s h.pc = .word r t) :
    handlerHeader s h = if strandHeaderOk r then headerWait (setClause t (some (clauseAt r h.pc 0 1))) (hdrWait r)
      else illegalClause t h.pc 1 := by
  unfold handlerHeader clauseAt
  rw [hf]
  dsimp only
  cases strandHeaderOk r <;> rfl

/-- A fetch keeps the strand's mode. -/
theorem fetched_handler {s t : State} {a : VAddr} {r : DWord} (hh : (me s).handler = none)
    (hf : strandFetch (counted s) a = .word r t) : (me t).handler = none := by
  rw [strandFetch_me hf, counted, me_setMe]
  exact hh

/-- The upper three bits of a wait mask stand at bits 13 to 11 of its header. -/
theorem hdrWait_upper (r : DWord) : (hdrWait r).extractLsb' 5 3 = r.extractLsb' 11 3 := by
  apply BitVec.eq_of_getLsbD_eq
  intro i hi
  have h : 5 + i < 8 := by omega
  simp only [hdrWait, BitVec.getLsbD_extractLsb', hi, h, decide_true, Bool.true_and]
  rw [← Nat.add_assoc]

/-- The headers that trap ILLCL (R14): signature, class, reserved bits, upper bits of the wait mask. -/
def illegalHeader (r : DWord) : Prop :=
  r.extractLsb' 56 8 ≠ 0xC5 ∨ r.extractLsb' 4 2 ≠ 0 ∨ r.extractLsb' 14 42 ≠ 0 ∨ r.extractLsb' 11 3 ≠ 0

theorem strandHeaderOk_false_iff (r : DWord) : strandHeaderOk r = false ↔ illegalHeader r := by
  unfold strandHeaderOk illegalHeader
  rw [hdrWait_upper]
  simp only [Bool.and_eq_false_iff, beq_eq_false_iff_ne, ne_eq, or_assoc]

/-- What follows a header's check. -/
theorem header_checked (r : DWord) (good bad : State) : (illegalHeader r → (if strandHeaderOk r then good else bad) = bad) ∧
    (¬ illegalHeader r → (if strandHeaderOk r then good else bad) = good) := by
  rw [← strandHeaderOk_false_iff]
  cases strandHeaderOk r <;> simp

/-- Settles O54: a header traps exactly where one of its checks fails, the group's and the handler's alike. -/
theorem illegalHeadersTrap : Obligations.IllegalHeadersTrap := by
  refine ⟨?_, ?_⟩
  · rintro s l x r t ⟨hb, ht, hs, hh, hw⟩ hx hd hl rfl hi hp hf
    rw [clauseHeader_selects ⟨hb, ht, hs, hh⟩ hw hx hd hl, groupHeader_fetched hi hp hf]
    obtain ⟨c, hc⟩ := fetchAt_only hf
    obtain ⟨hbad, hok⟩ := header_checked r _ _
    exact ⟨by rw [hc], fun h => congrArg Host.Outcome.next (hbad h), fun h => congrArg Host.Outcome.next (hok h)⟩
  · rintro s h r t ⟨hb, ht, hs, hh, hw⟩ hx hf
    rw [clauseHeader_handler ⟨hb, ht, hs, hh⟩ hw hx, handlerHeader_fetched hf]
    obtain ⟨c, hc⟩ := fetchAt_only hf
    obtain ⟨hbad, hok⟩ := header_checked r _ _
    exact ⟨by rw [hc], fun h => congrArg Host.Outcome.next (hbad h), fun h => congrArg Host.Outcome.next (hok h)⟩

end Sys2Proof.Machine

end

section
/-! O41: the events of a strand beside its headers. -/

namespace Sys2Proof.Machine

set_option autoImplicit false
set_option Elab.async false

/-! ### Results whose data carried an error (R22, R361) -/

/-- Making writes leaves the mode of a strand outside handler mode. -/
theorem makeWrite_handler {t : Strand} (h : t.handler = none) (w : PendWrite) : (makeWrite t w).handler = none := by
  unfold makeWrite
  split
  · exact h
  · exact h
  · unfold putP
    split
    · exact h
    · rw [h]

theorem landWrites_handler {s : State} {t : Strand} (h : t.handler = none) (ws : List PendWrite) : (landWrites s t ws).handler = none := by
  unfold landWrites
  generalize ws.zipIdx.filter (fun x => landWrite s x.2 x.1) = xs
  induction xs generalizing t with
  | nil => exact h
  | cons x xs ih => exact ih (makeWrite_handler h x.1)

@[simp] theorem parkClause_threads (s : State) (m : LaneMask) : (me (parkClause s m)).threads = (me s).threads := by
  unfold parkClause
  split
  · rfl
  · unfold setClause
    dsimp only
    split <;> rw [me_setMe]

/-- A lane that faults is parked where it faulted. -/
theorem splitLane_thread (s : State) (l : Lane) (code : TrapCode) (addr aux : DWord) (pc : VAddr) (place : Option Nat) :
    (me (splitLane s l code addr aux pc place)).threads.get l =
      { (me s).threads.get l with st := .parked (.fault code addr aux s.ops), pc := pc, place := place } := by
  unfold splitLane
  dsimp only [nextSeq]
  rw [parkClause_threads, me_setMe]
  simp only [Strand.modThread, tab_get, if_true]
  rfl

/-- A lane whose data carried an error is parked at the word of its result. -/
theorem settle_poisoned {s : State} {e : Pending} {l : Lane} {a : DWord} {keep : List Pending} (he : e.poison = [(l, a)])
    (hh : (me s).handler = none) :
    let x := (me (settle s [e] keep)).threads.get l
    x.st = .parked (.fault .poison a 0 s.ops) ∧ x.pc = e.pc ∧ x.place = some e.word := by
  unfold settle
  dsimp only
  generalize hm : landWrites s { me s with pend := keep } _ = m
  have hmh : m.handler = none := by rw [← hm]; exact landWrites_handler (t := { me s with pend := keep }) hh _
  rw [List.foldl_cons, List.foldl_nil, he]
  have hf : faultLanes (setMe s m) e.pc (some e.word) [(l, .poison, a, 0)] = splitLane (setMe s m) l .poison a 0 e.pc (some e.word) := by
    unfold faultLanes
    simp only [me_setMe, hmh, splitLanes]
  simp only [List.map_cons, List.map_nil]
  rw [hf, splitLane_thread]
  exact ⟨rfl, rfl, rfl⟩

/-! ### Between words (R148, R360) -/

@[simp] theorem countSplit_curClause? (s : State) : curClause? (countSplit s) = curClause? s := by
  unfold countSplit
  split
  · simp only [curClause?_me, me_setMe]
  · rfl

/-- A clause with a thread goes on, where no fault was found between words. -/
theorem betweenWords_goesOn {s : State} {c : Clause} (hc : curClause? s = some c) (ha : c.act ≠ 0) (hs : (me s).split ≠ some 0) :
    betweenWords s = s := by
  have h : countSplit s = s := if_neg hs
  unfold betweenWords
  dsimp only
  rw [h, hc]
  exact if_neg ha

theorem endClause_none (s : State) : curClause? (endClause s) = none := by
  unfold endClause
  split
  · next h => exact h
  · dsimp only
    split <;> simp [curClause?_me, modThreads_handler, *]

/-- A clause without a thread is over. -/
theorem betweenWords_ends {s : State} {c : Clause} (hc : curClause? s = some c) (ha : c.act = 0) : curClause? (betweenWords s) = none := by
  unfold betweenWords
  dsimp only
  rw [countSplit_curClause?, hc]
  dsimp only
  rw [if_pos ha]
  exact endClause_none _

/-! ### Sleep (R317) -/

/-- The lanes of a sleeping group whose time has run out are ready. -/
theorem sleepExpiry_wakes {s : State} (h : ((me s).threads.get (laneOfNat s.focus.ix)).st = .parked (.sleep 0)) :
    ∃ t : Strand, exec .sleepExpiry s = .next (setMe s t) ∧ t = { me s with threads := t.threads } ∧
      ∀ l, t.threads.get l = (let x := (me s).threads.get l
        let y := (me s).threads.get (laneOfNat s.focus.ix)
        if x.st = .parked (.sleep 0) ∧ x.pc = y.pc ∧ x.place = y.place then { x with st := .ready } else x) := by
  refine ⟨(me s).modThreads (sleepGroup (me s) (laneOfNat s.focus.ix)) (fun _ x => { x with st := .ready }), ?_, modThreads_eq .., fun l => ?_⟩
  · show execSleepExpiry s = _
    unfold execSleepExpiry
    dsimp only
    rw [h]
    rfl
  · simp only [modThreads_get, sleepGroup, Strand.threadsIn, inMask_maskOf, h, Bool.and_eq_true, beq_iff_eq, and_assoc]

/-! ### Signals (R251) -/

theorem badData_eq_spoilt {w : SWord} {l : Lane} {u : State} {p : Place} (h : signalAt w l u = some p) :
    badData false 4 u p 8 = signalSpoilt w l u := by
  unfold signalSpoilt badData
  rw [h]
  rfl

/-- What SIGR's body does in its lane. -/
theorem sigrBody_eq {w : SWord} {l : Lane} {u : State} (hl : lowestLane (enabled u w) = some l) :
    sigrBody w u = if signalGood w l u then (if aboveBound w l u then .wait .sigr u else .done (signalRead w l u))
      else .done (signalFaults w l u) := by
  unfold sigrBody
  rw [once_some hl]
  unfold signalGood signalFaults
  cases hp : signalAt w l u with
  | none =>
    have hs : signalSpoilt w l u = false := by unfold signalSpoilt; rw [hp]; rfl
    unfold signalAt at hp
    dsimp only
    rw [hp, hs]
    rfl
  | some p =>
    have hs := badData_eq_spoilt hp
    have hv : BitVec.ofNat 64 (leNat (forwardRd u false (fun k => scopeRd u u.focus.core 4 k p.nc) p.key 8)) = signalHere w l u := by
      unfold signalHere; rw [hp]; rfl
    unfold signalAt at hp
    dsimp only
    rw [hp]
    dsimp only
    rw [hs, hv]
    cases signalSpoilt w l u
    · rfl
    · rfl

/-- A waiting SIGR runs its word again. -/
theorem sigrWake_runs {s t : State} {w : SWord} (hs : myStall s = some .sigr) (hm : mayGoOn s = true)
    (hw : wordHere s = some (.sigr w, t)) : exec .sigrWake s = exec (.sigr w) t := by
  show execSigrWake s = execSigr w t
  unfold execSigrWake
  simp [hs, hm, hw]

/-! ### Task records (R328) -/

/-- TSPN's body where it has a record to push: it goes on, or waits at the lane that found its queue full. -/
theorem tspnBody_eq {w : SWord} {u : State} (h : spawning w u ≠ []) :
    tspnBody w u = ((spawned w u).2.stop.map (fun l => Res.wait (.tspn l.val) (afterSpawn w u))).getD (.done (afterSpawn w u)) := by
  have hone : onceFor [w.a] = !isVector w.a := by simp [onceFor]
  have he : (spawning w u).isEmpty = false := by simpa using h
  unfold tspnBody
  rw [hone]
  show (if (spawning w u).isEmpty then _ else _) = _
  rw [he, if_neg Bool.false_ne_true]
  show (match (spawned w u).2.stop with | some l => Res.wait (.tspn l.val) (afterSpawn w u) | none => .done (afterSpawn w u)) = _
  cases (spawned w u).2.stop <;> rfl

/-- A blocked TSPN runs its word again. -/
theorem tspnRoom_runs {s t : State} {w : SWord} {n : Nat} (hs : myStall s = some (.tspn n)) (hm : mayGoOn s = true)
    (hw : wordHere s = some (.tspn w, t)) : exec .tspnRoom s = exec (.tspn w) t := by
  show execTspnRoom s = execTspn w t
  unfold execTspnRoom
  simp [hs, hm, hw]

/-! ### The obligation -/

/-- The statement's way to write the clause that a group begins. -/
theorem setClause_begins {s t : State} {a : VAddr} {r : DWord} (hh : (me s).handler = none) (hf : strandFetch (counted s) a = .word r t)
    (w : Nat) (g : LaneMask) : setClause t (some (clauseAt r a w g)) = setMe t { me t with clause := some (clauseAt r a w g) } :=
  setClause_plain (fetched_handler hh hf) _

/-- A search reports a cycle that it finds, unless each member has noted it. -/
theorem snagSearch_finds {s : State} (hb : (me s).isBlocked = true) (hn : 2 ^ 20 * ((me s).searched + 1) ≤ (me s).blocked) :
    let t := setMe s { me s with searched := (me s).searched + 1 }
    exec .snagSearch s = .next (((snagFrom t (t.strands.length + 1) [] [] (focusStrand s)).1.map fromLeast).elim t (fun c =>
      if c.all (fun k => (getStrand t k).reported.contains c) then t else reportSnag t c)) := by
  have hc : (!(me s).isBlocked || decide ((me s).blocked < snagPeriod * ((me s).searched + 1))) = false := by
    rw [hb, Bool.not_true, Bool.false_or, decide_eq_false_iff_not, not_lt]
    exact hn
  show execSnagSearch s = _
  unfold execSnagSearch
  dsimp only
  rw [hc, if_neg Bool.false_ne_true]
  split
  · next h => rw [h]; rfl
  · next c h => rw [h]; rfl

/-- Settles O41: each event does what its meaning says where it is enabled. -/
theorem strandEventsComplete : Obligations.StrandEventsComplete := by
  refine ⟨?_, ?_, ?_, ?_, ?_, ?_, ?_, ?_, ?_, ?_, ?_, ?_, ?_, ?_, ?_, ?_, ?_, ?_, ?_, ?_⟩
  · rintro s l x r t ⟨hr, hw, hx, hd, hl, rfl, hi⟩ hp hf hok
    rw [clauseHeader_selects hr hw hx hd hl, groupHeader_fetched hi hp hf, hok, setClause_begins hx hf]
    rfl
  · rintro s l x r t w ⟨hr, hw, hx, hd, hl, rfl, hi⟩ hp hf
    rw [clauseHeader_selects hr hw hx hd hl, groupHeader_resumes hi hp hf, setClause_begins hx hf]
    rfl
  · rintro s l x r t ⟨hr, hw, hx, hd, hl, rfl, hi⟩ hp hf hok
    rw [clauseHeader_selects hr hw hx hd hl, groupHeader_fetched hi hp hf, hok]
    rfl
  · intro s hb ht
    exact clauseHeader_tend hb ht
  · intro s m hr hw
    exact clauseHeader_waits hr hw
  · intro s m hm ha
    exact if_pos (by rw [hm, ha]; rfl)
  · intro s t hr hw hx hd
    exact clauseHeader_due hr hw hx hd
  · intro s hb ht hs hh hx
    exact clauseHeader_held hb ht hs hh hx
  · intro s e he
    show execLongLatencyResult s = _
    unfold execLongLatencyResult
    dsimp only
    rw [he]
  · intro s e l a keep he hh
    exact settle_poisoned he hh
  · intro s c hc ha hs
    exact betweenWords_goesOn hc ha hs
  · intro s c hc ha
    exact betweenWords_ends hc ha
  · intro s h
    show Host.Outcome.next (if 32 ≤ s.focus.strand then _ else _) = _
    rw [if_neg (Nat.not_le.mpr h)]
    rfl
  · intro s r q qs h hr hq
    have hc : commitCapstan s s.focus.core =
        commitStore (setRun s { r with stores := qs }) s.focus.core r.call.cord (.engine r.call.cord) q := by
      have hr' : (getCore s s.focus.core).run = some r := hr
      unfold commitCapstan
      rw [hr']
      dsimp only
      rw [hq]
      rfl
    show Host.Outcome.next (if 32 ≤ s.focus.strand then _ else _) = _
    rw [if_pos h, hc]
  · intro s hh he hd
    show Host.Outcome.next (if !inHandler s && !(me s).ended && deferredDue s then _ else _) = _
    rw [hh, he, hd]
    rfl
  · intro s h
    exact sleepExpiry_wakes h
  · intro s w t l hs hm hw hi hl u
    have hx : exec .sigrWake s = .next (runForm (fSigr w) w (sigrBody w) t) := by
      rw [sigrWake_runs hs hm hw]
      exact congrArg Host.Outcome.next (runWord_eq sigrBody t rfl)
    have hb : sigrBody w u = _ := sigrBody_eq (by rw [issued_enabled]; exact hl)
    rw [hx]
    refine ⟨fun hg ha => ?_, fun hg ha => ?_, fun hg => ?_⟩
    · rw [hg, ha] at hb
      rw [runForm_done rfl hi hb]
    · rw [hg, ha] at hb
      rw [runForm_wait rfl hi hb]
    · rw [hg] at hb
      rw [runForm_done rfl hi hb]
  · intro s n w t hs hm hw hi u hne
    have hx : exec .tspnRoom s = .next (runWord (.tspn w) tspnBody t) := tspnRoom_runs hs hm hw
    have hb := tspnBody_eq hne
    rw [hx, runWord_eq _ _ rfl]
    refine ⟨fun hstop => ?_, fun l hstop => ?_⟩
    · rw [hstop] at hb
      rw [runForm_done rfl hi hb]
    · rw [hstop] at hb
      rw [runForm_wait rfl hi hb]
  · intro s hb hn
    rw [snagSearch_finds hb hn]
    dsimp only
    split
    · next h => simp only [h, Option.elim_some]
    · next h => simp only [h, Option.elim_none]
  · intro s raw h
    show Host.Outcome.next (if (curClause? s).isNone then s else preciseTrap s .undef 0) = _
    rw [Option.isNone_eq_false_iff.mpr h]
    rfl

end Sys2Proof.Machine

end

section
/-! O24: special registers and the arming of flags. First what SWR and SFLG make of the state, then the words. -/

namespace Sys2Proof.Machine

set_option autoImplicit false
set_option Elab.async false

/-! ### SWR (R35, R57, R110, R111) -/

/-- SWR with an enabled lane: a set reserved bit traps, and else the register is written. -/
theorem swrBody_eq {w : SWord} {l : Lane} {s : State} (hl : lowestLane (enabled s w) = some l) :
    swrBody w s = if swrBad (w.bits 0 8) (opA1 s w l) then .trap .illop 0 else .done (writeSpecial (w.bits 0 8) (opA1 s w l) s) :=
  once_some hl

/-- The indices from 0x40 to 0x4F are the narrow formats. -/
theorem writeSpecial_narrow {i : Nat} (hi : 0x40 ≤ i ∧ i ≤ 0x4F) (v : Word) (s : State) :
    writeSpecial i v s = setMyCord s { myCord s with nf := aSet (myCord s).nf (i - 0x40) v } := by
  unfold writeSpecial
  split
  · omega
  · omega
  · omega
  · omega
  · rfl

/-- SWR makes an effect where its condition leaves no reserved bit set and the effect is the register's write. -/
theorem swr_writes {cond : SWord → Lane → State → Bool} {effect : SWord → Lane → State → State}
    (h : ∀ w l u, cond w l u = true →
      swrBad (w.bits 0 8) (opA1 u w l) = false ∧ writeSpecial (w.bits 0 8) (opA1 u w l) u = effect w l u) :
    doesOnce .swr cond effect :=
  doesOnce_body (body := swrBody) (fun _ => rfl) (fun _ _ => rfl) fun w l u hl hc => by
    obtain ⟨hgood, hwrite⟩ := h w l u hc
    rw [swrBody_eq hl, hgood, hwrite, if_neg Bool.false_ne_true]

/-- SWR at one index. -/
theorem swr_writesAt (i : Nat) {effect : SWord → Lane → State → State}
    (h : ∀ w l u, writeSpecial i (opA1 u w l) u = effect w l u) :
    doesOnce .swr (fun w l u => w.bits 0 8 == i && !swrBad i (opA1 u w l)) effect :=
  swr_writes fun w l u hc => by
    rw [Bool.and_eq_true, beq_iff_eq, Bool.not_eq_true'] at hc
    obtain ⟨hix, hgood⟩ := hc
    rw [hix]
    exact ⟨hgood, h w l u⟩

/-! ### SFLG (R58, R192) -/

/-- What SFLG makes of a cord in each of its modes: it arms, disarms or clears the flags of a mask. -/
def Cord.changeFlags (mode : Nat) (m : Word) (c : Cord) : Cord :=
  match mode with
  | 0 => c.setArm (c.sarm ||| m)
  | 1 => { c with sarm := c.sarm &&& ~~~m }
  | _ => { c with sflags := c.sflags &&& ~~~m }

theorem sflgBody_eq {w : SWord} {l : Lane} {s : State} (hl : lowestLane (enabled s w) = some l) :
    sflgBody w s = .done (setMyCord s ((myCord s).changeFlags (w.bits 8 2) (BitVec.ofNat 32 (w.bits 0 7)))) := by
  refine (once_some hl).trans ?_
  generalize w.bits 8 2 = mode
  match mode with
  | 0 => rfl
  | 1 => rfl
  | _ + 2 => rfl

/-! ### The obligation -/

/-- Settles O24: SRD computes in lanes; SWR's write is read off at each index, and SFLG's change off its mode. -/
theorem specialRegistersComplete : Obligations.SpecialRegistersComplete := by
  refine ⟨?_, ?_, ?_, ?_, ?_, ?_, ?_, ?_, ?_, ?_⟩
  · exact writes_lanes (f := fSrd) byType (fun w s l => (specialValue s (w.bits 0 8) (w.bits 8 2) l, 0)) (fun _ => rfl) (fun _ _ => rfl)
  · exact idle_body (body := swrBody) (fun _ => rfl) (fun _ _ => rfl) (fun _ _ h => once_none h)
  · exact idle_body (body := sflgBody) (fun _ => rfl) (fun _ _ => rfl) (fun _ _ h => once_none h)
  · exact trapsOnce_body (body := swrBody) (fun _ => rfl) (fun _ _ => rfl)
      (fun _ _ _ hl hbad => (swrBody_eq hl).trans (if_pos hbad))
  · exact swr_writesAt 0x08 (fun _ _ _ => rfl)
  · exact swr_writesAt 0x09 (fun _ _ _ => rfl)
  · exact swr_writesAt 0x0B (fun _ _ _ => rfl)
  · refine swr_writes (fun w l u hc => ?_)
    rw [Bool.and_eq_true, decide_eq_true_iff, Bool.not_eq_true'] at hc
    obtain ⟨hix, hgood⟩ := hc
    exact ⟨hgood, writeSpecial_narrow hix _ u⟩
  · exact swr_writesAt 0x50 (fun _ _ _ => rfl)
  · exact doesOnce_body (body := sflgBody) (fun _ => rfl) (fun _ _ => rfl) (fun _ _ _ hl _ => sflgBody_eq hl)

end Sys2Proof.Machine

end

section
/-! O27: the barrier words. First what the body of each answers, by the strand's stall and the barrier's phase, then the words. -/

namespace Sys2Proof.Machine

set_option autoImplicit false
set_option Elab.async false

/-! ### Arrivals (R186, R188) -/

/-- The phase of the barrier that a word names. -/
def phaseOf (w : SWord) (s : State) : Bool := (getBar (myCord s) (barOf w)).ph

/-- The strand in focus has arrived, with a release at .cd, at the barrier that a word names. -/
def arrivedAt (w : SWord) (passes : Bool) (s : State) : State :=
  arriveStrand (release s 1) (focusCord s) (barOf w) s.focus.strand passes

/-- BAR makes its arrival: a strand that waits at a barrier, or that a flip has released, has made it already. -/
def barArrives (st : Option Stall) : Bool :=
  match st with
  | some .released => false
  | some (.bar ..) => false
  | _ => true

/-! ### BAR (R188) -/

theorem barBody_released {w : SWord} {s : State} (h : myStall s = some .released) : barBody w s = .done s := by
  unfold barBody
  rw [h]

/-- BAR's arrival, made once for the strand: it goes on where it has flipped the phase, unless STICKY holds it, and else waits. -/
theorem barBody_arrives {w : SWord} {s : State} (h : barArrives (myStall s) = true) :
    barBody w s = once (fun w _ s =>
      if phaseOf w (arrivedAt w true s) != phaseOf w s then
        if (me (arrivedAt w true s)).stickyHeld then .wait .released (arrivedAt w true s) else .done (arrivedAt w true s)
      else .wait (.bar (barOf w) (phaseOf w s)) (arrivedAt w true s)) w s := by
  unfold barBody
  split
  · next hs => rw [hs] at h; cases h
  · next hs => rw [hs] at h; cases h
  · rfl

/-- Where no active lane is enabled, a BAR that has not arrived goes on. -/
theorem barBody_idle {w : SWord} {s : State} (h : barArrives (myStall s) = true) (he : enabled s w = 0) : barBody w s = .done s := by
  rw [barBody_arrives h, once_none he]

/-- BAR's own arrival has flipped the phase, and the strand passes. -/
theorem barBody_passes {w : SWord} {l : Lane} {s : State} (hl : lowestLane (enabled s w) = some l) (h : barArrives (myStall s) = true)
    (hp : (phaseOf w (arrivedAt w true s) != phaseOf w s) = true) (hk : (me (arrivedAt w true s)).stickyHeld = false) :
    barBody w s = .done (arrivedAt w true s) := by
  rw [barBody_arrives h, once_some hl, if_pos hp, hk, if_neg Bool.false_ne_true]

/-- BAR's own arrival has flipped the phase, and STICKY holds the strand (R58). -/
theorem barBody_held {w : SWord} {l : Lane} {s : State} (hl : lowestLane (enabled s w) = some l) (h : barArrives (myStall s) = true)
    (hp : (phaseOf w (arrivedAt w true s) != phaseOf w s) = true) (hk : (me (arrivedAt w true s)).stickyHeld = true) :
    barBody w s = .wait .released (arrivedAt w true s) := by
  rw [barBody_arrives h, once_some hl, if_pos hp, if_pos hk]

/-- BAR's arrival has not flipped the phase, and the strand waits. -/
theorem barBody_waits {w : SWord} {l : Lane} {s : State} (hl : lowestLane (enabled s w) = some l) (h : barArrives (myStall s) = true)
    (hp : (phaseOf w (arrivedAt w true s) == phaseOf w s) = true) :
    barBody w s = .wait (.bar (barOf w) (phaseOf w s)) (arrivedAt w true s) := by
  have hn : ¬ (phaseOf w (arrivedAt w true s) != phaseOf w s) = true := by rw [bne, hp]; exact Bool.false_ne_true
  rw [barBody_arrives h, once_some hl, if_neg hn]

/-! ### BARW (R189) -/

theorem barwBody_released {w : SWord} {s : State} (h : myStall s = some .released) : barwBody w s = .done s := by
  unfold barwBody
  rw [h]

/-- A BARW that no flip has released compares the phase with bit 0 of its operand, once for the strand. -/
theorem barwBody_tests {w : SWord} {s : State} (h : (myStall s != some .released) = true) :
    barwBody w s = once (fun w l s => if phaseOf w s == (opA1 s w l).getLsbD 0 then .wait (.barw (barOf w)) s else .done s) w s := by
  unfold barwBody
  split
  · next hs => exact absurd hs (bne_iff_ne.mp h)
  · rfl

/-- BARW with an enabled lane. -/
theorem barwBody_eq {w : SWord} {l : Lane} {s : State} (hl : lowestLane (enabled s w) = some l) (h : (myStall s != some .released) = true) :
    barwBody w s = if phaseOf w s == (opA1 s w l).getLsbD 0 then .wait (.barw (barOf w)) s else .done s := by
  rw [barwBody_tests h, once_some hl]

/-! ### The obligation -/

/-- Settles O27: each word's body by the strand's stall, and then by whether the phase has flipped or is the awaited one. -/
theorem barriersComplete : Obligations.BarriersComplete := by
  refine ⟨?_, ?_, ?_, ?_, ?_, ?_, ?_, ?_, ?_, ?_, ?_, ?_, ?_⟩
  · exact idle_body (body := baraBody) (fun _ => rfl) (fun _ _ => rfl) (fun _ _ h => once_none h)
  · exact idle_body (body := barxBody) (fun _ => rfl) (fun _ _ => rfl) (fun _ _ h => once_none h)
  · exact doesIf_of (body := barBody) (fun _ => rfl) (fun _ _ => rfl) (fun _ _ h => barBody_released (beq_iff_eq.mp h))
  · exact doesIf_of (body := barwBody) (fun _ => rfl) (fun _ _ => rfl) (fun _ _ h => barwBody_released (beq_iff_eq.mp h))
  · refine doesIf_of (body := barBody) (fun _ => rfl) (fun _ _ => rfl) (fun w u hc => ?_)
    obtain ⟨hf, he⟩ := Bool.and_eq_true_iff.mp hc
    exact barBody_idle hf (beq_iff_eq.mp he)
  · refine doesIf_of (body := barwBody) (fun _ => rfl) (fun _ _ => rfl) (fun w u hc => ?_)
    obtain ⟨hr, he⟩ := Bool.and_eq_true_iff.mp hc
    rw [barwBody_tests hr, once_none (beq_iff_eq.mp he)]
  · refine doesOnce_body (body := barBody) (fun _ => rfl) (fun _ _ => rfl) (fun w l u hl hc => ?_)
    obtain ⟨hfp, hk⟩ := Bool.and_eq_true_iff.mp hc
    obtain ⟨hf, hp⟩ := Bool.and_eq_true_iff.mp hfp
    exact barBody_passes hl hf hp ((Bool.not_eq_true' _).mp hk)
  · refine waitsOnce_body (body := barBody) (fun _ => rfl) (fun _ _ => rfl) (fun w l u hl hc => ?_)
    obtain ⟨hfp, hk⟩ := Bool.and_eq_true_iff.mp hc
    obtain ⟨hf, hp⟩ := Bool.and_eq_true_iff.mp hfp
    exact barBody_held hl hf hp hk
  · refine waitsOnce_body (body := barBody) (fun _ => rfl) (fun _ _ => rfl) (fun w l u hl hc => ?_)
    obtain ⟨hf, hp⟩ := Bool.and_eq_true_iff.mp hc
    exact barBody_waits hl hf hp
  · exact doesOnce_body (body := baraBody) (fun _ => rfl) (fun _ _ => rfl) (fun _ _ _ hl _ => once_some hl)
  · refine waitsOnce_body (body := barwBody) (fun _ => rfl) (fun _ _ => rfl) (fun w l u hl hc => ?_)
    obtain ⟨hr, hp⟩ := Bool.and_eq_true_iff.mp hc
    exact (barwBody_eq hl hr).trans (if_pos hp)
  · refine doesOnce_body (body := barwBody) (fun _ => rfl) (fun _ _ => rfl) (fun w l u hl hc => ?_)
    obtain ⟨hr, hp⟩ := Bool.and_eq_true_iff.mp hc
    exact (barwBody_eq hl hr).trans (if_neg (fun h => bne_iff_ne.mp hp (beq_iff_eq.mp h)))
  · exact doesOnce_body (body := barxBody) (fun _ => rfl) (fun _ _ => rfl) (fun _ _ _ hl _ => once_some hl)

end Sys2Proof.Machine

end

section
/-! O51: words of unassigned opcodes. First which words the two decoders take for such, then what they do. -/

namespace Sys2Proof.Machine

set_option autoImplicit false
set_option Elab.async false

/-! ### Which words have an unassigned opcode (R65, R67, R68) -/

/-- The unassigned strand opcodes, as the ranges of R65 leave them. -/
def unassignedOp (op : Nat) : Prop :=
  (0x4E ≤ op ∧ op ≤ 0x4F) ∨ (0x5A ≤ op ∧ op ≤ 0x5F) ∨ (0x6B ≤ op ∧ op ≤ 0x6F) ∨ (0x7D ≤ op ∧ op ≤ 0x7F) ∨
    (0x9A ≤ op ∧ op ≤ 0x9F) ∨ (0xAD ≤ op ∧ op ≤ 0xAF) ∨ (0xBB ≤ op ∧ op ≤ 0xBF) ∨ (0xC9 ≤ op ∧ op ≤ 0xCF) ∨ 0xD5 ≤ op

theorem strandAssigned_false_iff (op : Nat) : strandAssigned op = false ↔ unassignedOp op := by
  unfold strandAssigned unassignedOp
  simp only [Bool.or_eq_false_iff, Bool.and_eq_false_iff, decide_eq_false_iff_not]
  omega

theorem capstanAssigned_false_iff (op : Nat) : capstanAssigned op = false ↔ 0x30 ≤ op := by
  unfold capstanAssigned
  simp only [decide_eq_false_iff_not]
  omega

/-- A strand word is decoded as unassigned exactly where its opcode is: no other bit is looked at. -/
theorem decodeStrand_unassigned_iff (r : DWord) : decodeStrand r = .instr (.unassignedOpcode r) ↔ strandAssigned (opOf r) = false := by
  constructor
  · intro h
    have hw : (!strandAssigned (r.toNat % 256)) = true := (decodeStrand_instr h).1
    rw [opOf_eq_mod]
    exact (Bool.not_eq_true' _).mp hw
  · intro h
    unfold decodeStrand strandOf
    rw [strandMap_none h]
    rfl

/-- A capstan word likewise. -/
theorem decodeCapstan_unassigned_iff (r : DWord) :
    decodeCapstan r = .instr (.unassignedCapstanOpcode r) ↔ capstanAssigned (opOf r) = false := by
  constructor
  · intro h
    have hw : (!capstanAssigned (r.toNat % 256)) = true := (decodeCapstan_instr h).1
    rw [opOf_eq_mod]
    exact (Bool.not_eq_true' _).mp hw
  · intro h
    unfold decodeCapstan capstanOf
    rw [capstanMap_none h]
    rfl

/-! ### What such a word does (R64, R68) -/

theorem unassignedOpcode_traps {s : State} (r : DWord) (h : (curClause? s).isSome = true) :
    exec (.unassignedOpcode r) s = .next (preciseTrap s .undef 0) := by
  show Host.Outcome.next (if (curClause? s).isNone then s else preciseTrap s .undef 0) = _
  rw [Option.isNone_eq_false_iff.mpr h]
  rfl

theorem unassignedCapstanOpcode_ends {s : State} {x : RunCall} (r : DWord) (hx : myRun? s = some x) (hc : x.clause.isSome = true) :
    exec (.unassignedCapstanOpcode r) s = .next (endCall s { status := 1, cause := 1, addr := (capAddr x).setWidth 64 }) := by
  show execUnassignedCapstanOpcode r s = _
  unfold execUnassignedCapstanOpcode
  rw [hx]
  dsimp only
  rw [Option.isNone_eq_false_iff.mpr hc]
  rfl

/-- Settles O51: the decoders have no entry for an unassigned opcode, whatever the word's other bits, and its meaning is the trap. -/
theorem unassignedOpcodesTrap : Obligations.UnassignedOpcodesTrap := by
  refine ⟨fun r => ?_, fun r s h => unassignedOpcode_traps r h, fun r => ?_, fun r s x hx hc => unassignedCapstanOpcode_ends r hx hc⟩
  · exact ((decodeStrand_unassigned_iff r).trans (strandAssigned_false_iff _)).symm
  · exact ((decodeCapstan_unassigned_iff r).trans (capstanAssigned_false_iff _)).symm

end Sys2Proof.Machine

end

section
/-! O9: float arithmetic and selections. -/

namespace Sys2Proof.Machine

set_option autoImplicit false
set_option Elab.async false

/-- A float word whose body applies an element function to its operands leaves that function's values and flags. -/
theorem writes_flWord {mk : SWord → Instr} {f : SWord → Form} (g : SWord → Fmt → Nat → Nat → Nat → Nat × Flags)
    (hf : ∀ w, strandForm (mk w) = some (w, f w)) (he : ∀ w s, exec (mk w) s = .next (runWord (mk w) (flWord .fixed g) s)) :
    writes mk (fun _ => 1) (fun w s l => eachElem w.ty (g w) (flA s w l) (flB s w l) (opC1 s w l)) :=
  writes_lanes (fun _ => 1) _ hf he

/-- Settles O9: each word's body computes in lanes, and its element function is the one stated. -/
theorem floatsComplete : Obligations.FloatsComplete := by
  refine ⟨?_, ?_, ?_, ?_, ?_, ?_, ?_, ?_, ?_, ?_, ?_, ?_, ?_, ?_, ?_, ?_, ?_, ?_⟩
  · exact writes_flWord (fun w => addElem w false false) (fun _ => rfl) (fun _ _ => rfl)
  · exact writes_flWord (fun w => addElem w true false) (fun _ => rfl) (fun _ _ => rfl)
  · exact writes_flWord (fun w => addElem w false true) (fun _ => rfl) (fun _ _ => rfl)
  · exact writes_flWord mulElem (fun _ => rfl) (fun _ _ => rfl)
  · exact writes_flWord fmaElem (fun _ => rfl) (fun _ _ => rfl)
  · exact writes_flWord _ (fun _ => rfl) (fun _ _ => rfl)
  · exact writes_flWord _ (fun _ => rfl) (fun _ _ => rfl)
  · exact writes_flWord _ (fun _ => rfl) (fun _ _ => rfl)
  · exact writes_flWord _ (fun _ => rfl) (fun _ _ => rfl)
  · exact writes_flWord (fun _ => med3Elem) (fun _ => rfl) (fun _ _ => rfl)
  · exact writes_flWord (fun _ => absElem) (fun _ => rfl) (fun _ _ => rfl)
  · exact writes_flWord (fun _ => negElem) (fun _ => rfl) (fun _ _ => rfl)
  · exact writes_flWord (fun _ => cpsElem) (fun _ => rfl) (fun _ _ => rfl)
  · exact writes_flWord (fun w => setElem w.c.toNat) (fun _ => rfl) (fun _ _ => rfl)
  · exact writes_flWord (fun w => rndElem (.ofBits (w.bits 0 2))) (fun _ => rfl) (fun _ _ => rfl)
  · exact writes_lanes _ _ (fun _ => rfl) (fun _ _ => rfl)
  · exact writes_lanes _ _ (fun _ => rfl) (fun _ _ => rfl)
  · exact writes_lanes _ _ (fun _ => rfl) (fun _ _ => rfl)

end Sys2Proof.Machine

end

section
/-! O42: the events of copies and calls. First those of the copy engine, then those of a call in the order of its life: its start, its
headers and results, its end, and the passes in which a clay slot fails. -/

namespace Sys2Proof.Machine

set_option autoImplicit false
set_option Elab.async false

/-! ### Copies (R242 to R245) -/

/-- A walking channel reaches its next record. -/
theorem copyAccept_chain {s : State} {op : CopyOp} {ch : Nat} {a : DWord} (ho : (myCore s).issuedCp[s.focus.ix]? = some op)
    (hc : op.src = .chain ch a) : exec .copyAccept s = .next (reachRecord s s.focus.core s.focus.ix op ch) := by
  have ho' : (getCore s s.focus.core).issuedCp[s.focus.ix]? = some op := ho
  show execCopyAccept s = _
  unfold execCopyAccept
  dsimp only
  rw [ho']
  dsimp only
  rw [hc]

/-- An issued record is taken by its engine. -/
theorem copyAccept_record {s : State} {op : CopyOp} (ho : (myCore s).issuedCp[s.focus.ix]? = some op) (hn : ∀ ch a, op.src ≠ .chain ch a) :
    exec .copyAccept s = .next (takeCopy (setMyCore s { myCore s with issuedCp := lDel (myCore s).issuedCp s.focus.ix }) op) := by
  have ho' : (getCore s s.focus.core).issuedCp[s.focus.ix]? = some op := ho
  show execCopyAccept s = _
  unfold execCopyAccept
  dsimp only
  rw [ho']
  dsimp only
  split
  · next ch a h => exact absurd h (hn ch a)
  · rfl

/-- A page of tier 1 is paged in, or Tilth is asked for room; the strand is told which. -/
theorem copyPageIn_due {s t : State} {op op' : CopyOp} {i : Nat} {x : Obj} (ho : (myCore s).copies[s.focus.ix]? = some op)
    (hs : op.status = none) (hr : s.focus.row < op.rows) (hp : pinRow s op s.focus.row = .ok (t, op'))
    (hd : pageDue t op' s.focus.row = some (i, x)) :
    let job := (opAgent t op').job
    let page := op'.srcRow s.focus.row / 64
    let there := changeTier t job i 0
    let u := setCopy (there.getD (reclaim t job 0)) s.focus.core s.focus.ix { op' with paged := op'.paged ++ [page] }
    exec .copyPageIn s = .next { postDevice u op'.strand (tierMiss there.isNone page op'.src.rtag) with free := u.free + 1 } := by
  have ho' : (getCore s s.focus.core).copies[s.focus.ix]? = some op := ho
  have hc : (op.status.isSome || decide (op.rows ≤ s.focus.row)) = false := by
    rw [hs, Option.isSome_none, Bool.false_or, decide_eq_false_iff_not]
    exact Nat.not_le.mpr hr
  show Host.Outcome.next (pageIn s s.focus.core s.focus.ix s.focus.row) = _
  unfold pageIn
  rw [ho']
  dsimp only
  rw [hc, if_neg Bool.false_ne_true, hp]
  dsimp only
  rw [hd]

/-- A copy that has moved its rows, or has failed, completes. -/
theorem copyComplete_due {s : State} {op : CopyOp} (ho : (myCore s).copies[s.focus.ix]? = some op)
    (hd : op.status.isSome = true ∨ op.rows ≤ op.moved.length) :
    let x := moveLabels s op
    let st := x.2.status.getD 0
    let t := copyAction (writeToken (writeSeq (writeBack x.1 x.2 st) x.2) x.2.strand x.2.token (BitVec.ofNat 32 st) 2) x.2
    let c := getCore t s.focus.core
    let u := noteTaken (setCore t s.focus.core { c with copies := lDel c.copies s.focus.ix }) x.2 st
    exec .copyComplete s = .next (if st = 0 then u else recordTrap u x.2.strand
      { code := copyTrap st, cls := .engine, addr := x.2.src.addr, aux := BitVec.ofNat 64 st }) := by
  have ho' : (getCore s s.focus.core).copies[s.focus.ix]? = some op := ho
  have hc : (op.status.isNone && decide (op.moved.length < op.rows)) = false := by
    obtain h | h := hd
    · rw [Option.isNone_eq_false_iff.mpr h, Bool.false_and]
    · rw [decide_eq_false (Nat.not_lt.mpr h), Bool.and_false]
  show Host.Outcome.next (completeCopy s s.focus.core s.focus.ix) = _
  unfold completeCopy
  rw [ho']
  dsimp only
  rw [hc, if_neg Bool.false_ne_true]

/-! ### The call chain (R253, R254, R374) -/

/-- The oldest issued call enters the chain where it has room. -/
theorem callAccept_oldest {s : State} {c : Call} {cs : List Call} (h : (myCore s).issuedCl = c :: cs) :
    let t := setMyCore s { myCore s with issuedCl := cs, chain := (myCore s).chain ++ [c] }
    exec .callAccept s = .next (
      if (myCore s).chain.length + (if (myCore s).run.isSome then 1 else 0) < 64 then (c.arr.map (engineNames t c.cord)).getD t else s) := by
  intro t
  show execCallAccept s = _
  unfold execCallAccept chainEntries
  dsimp only
  by_cases hr : (myCore s).chain.length + (if (myCore s).run.isSome = true then 1 else 0) < 64
  · rw [if_pos hr, if_pos hr, h]
    dsimp only
    cases c.arr <;> rfl
  · rw [if_neg hr, if_neg hr]

/-- The core without the call that starts next, and with the preference counted (R254). -/
def calledNext (s : State) : Core :=
  let x := nextCall s (myCore s)
  { myCore s with chain := lDel (myCore s).chain x.1, prefer := if x.2 = true ∧ 2 ≤ (myCore s).chain.length then (myCore s).prefer + 1 else 0 }

/-- A call at its entry; an address that is no code ends it at once. -/
def enteredCall (c : Call) : RunCall :=
  let entry := c.block.getD 0 0
  { call := c, pc := entry.extractLsb' 0 56,
    ended := if entry.toNat % 8 = 0 ∧ vaOk entry = true then none else some { status := 8, cause := 0, addr := entry } }

/-- The free capstan starts the call whose turn it is: a restored one where it stood, another one at its entry. -/
theorem callStart_next {s : State} {c : Call} (hr : (myCore s).run = none) (hc : (myCore s).chain[(nextCall s (myCore s)).1]? = some c) :
    exec .callStart s = .next (((myCore s).resumed.find? (fun e => e.run.call.id == c.id)).elim
      (setMyCore s { calledNext s with run := some (enteredCall c) })
      (fun p => resumeCall (setMyCore s (calledNext s)) s.focus.core p.run p.clay)) := by
  show execCallStart s = _
  unfold execCallStart calledNext enteredCall
  dsimp only
  rw [hr, Option.isSome_none, if_neg Bool.false_ne_true, hc]
  simp only [Bool.and_eq_true, decide_eq_true_eq]
  cases (myCore s).resumed.find? (fun e => e.run.call.id == c.id) <;> rfl

/-! ### Headers, results and waits (R60, R64, R284) -/

/-- The state once the conditions of a header's wait mask hold. -/
def headerWaited (r : DWord) (t : State) : State :=
  let u := if (hdrWait r).getLsbD 0 then settleCap t else t
  if (hdrWait r).getLsbD 1 then drainCap u else u

/-- A header that passes its checks begins a clause; another one ends the call. -/
theorem capstanHeader_fetched {s t : State} {x : RunCall} {r : DWord} (hx : myRun? s = some x) (hc : x.clause = none)
    (hf : capFetch s (myRun s).pc = .word r t) :
    exec .capstanClauseHeader s = .next (
      if capstanHeaderOk r then
        setRun (headerWaited r t) { myRun (headerWaited r t) with
          clause := some { hdr := (myRun s).pc, nm1 := hdrNm1 r, word := 0, act := 0, group := 0 } }
      else endCall t { status := 1, cause := 2, addr := (myRun s).pc.setWidth 64 }) := by
  obtain ⟨-, hm, -⟩ := run_of hx
  rw [hm] at hf ⊢
  show execCapstanClauseHeader s = _
  unfold execCapstanClauseHeader
  rw [hx]
  dsimp only
  rw [hc, Option.isSome_none, if_neg Bool.false_ne_true, hf]
  dsimp only
  cases capstanHeaderOk r <;> rfl

/-- An outstanding result is written unless a race has overtaken it. -/
theorem cldResult_lands {s : State} {r : RunCall} {p : CldResult} (hx : myRun? s = some r) (hp : r.pend[s.focus.ix]? = some p) :
    ∃ lands : Bool, (p.raced = false → lands = true) ∧ exec .cldResult s = .next
      { setRun s { r with c := if lands = false ∨ p.reg = 31 then r.c else aSet r.c p.reg p.val, pend := lDel r.pend s.focus.ix } with
        free := s.free + 1 } := by
  refine ⟨!p.raced || Config.unsettled s.free (6 + 8 * (16384 + p.reg)), fun h => by rw [h]; rfl, ?_⟩
  show execCldResult s = _
  unfold execCldResult
  rw [hx]
  dsimp only
  rw [hp]
  dsimp only
  generalize (!p.raced || Config.unsettled s.free (6 + 8 * (16384 + p.reg))) = lands
  have hc : (if (lands && p.reg != 31) = true then aSet r.c p.reg p.val else r.c) =
      if lands = false ∨ p.reg = 31 then r.c else aSet r.c p.reg p.val := by
    cases lands
    · simp
    · by_cases h : p.reg = 31 <;> simp [h]
  rw [hc]

theorem over_eq_false_iff {s : State} {r : RunCall} : r.over s = false ↔ r.spent ≤ callBudget s r.call.cord := by
  unfold RunCall.over
  rw [decide_eq_false_iff_not, Nat.not_lt]

theorem over_eq_true_iff {s : State} {r : RunCall} : r.over s = true ↔ callBudget s r.call.cord < r.spent := by
  unfold RunCall.over
  rw [decide_eq_true_iff]

/-- CWAIT tests its signal: the call goes on, waits, or ends. -/
theorem cwait_tests {w : CWord} {s : State} (hi : capIssues (.cwait w) s = true) : exec (.cwait w) s = .next (waitOrGo w s) := by
  show Host.Outcome.next (runCap (.cwait w) cwaitBody s) = _
  refine congrArg Host.Outcome.next ?_
  unfold waitOrGo
  cases hp : awaitedAt w s with
  | none =>
    have hb : cwaitBody w s = .stop 2 (endWith 8 0 (capA s w)) s := by
      have hs : capSignal s (capA s w) = none := hp
      unfold cwaitBody
      dsimp only
      rw [hs]
    exact runCap_stop rfl hi hb
  | some p =>
    have hs : capSignal s (capA s w) = some p := hp
    have hbody : cwaitBody w s = if spoiltFor s false 8 { p with nc := true } then .stop 2 (endWith 9 0 (capA s w)) s
        else if (capB s w).slt (awaitedHere s p) then .wait s else .done 2 (refresh s s.focus.core 4) := by
      unfold cwaitBody
      dsimp only
      rw [hs]
      rfl
    dsimp only
    by_cases hspoilt : spoiltFor s false 8 { p with nc := true } = true
    · rw [if_pos hspoilt] at hbody ⊢
      exact runCap_stop rfl hi hbody
    · rw [if_neg hspoilt] at hbody ⊢
      by_cases hle : (awaitedHere s p).toInt ≤ (capB s w).toInt
      · have hn : ¬ (capB s w).slt (awaitedHere s p) = true := by
          rw [BitVec.slt_iff_toInt_lt]
          exact Int.not_lt.mpr hle
        rw [if_neg hn] at hbody
        rw [if_pos hle]
        exact runCap_done rfl hi hbody
      · have hlt : (capB s w).slt (awaitedHere s p) = true := BitVec.slt_iff_toInt_lt.mpr (Int.not_le.mp hle)
        rw [if_pos hlt] at hbody
        rw [if_neg hle]
        exact runCap_wait rfl hi hbody

/-- A call that waits within its budget runs its word again. -/
theorem cwaitWake_runs {s t : State} {r : RunCall} {w : CWord} (hx : myRun? s = some r) (hw : r.waiting = true)
    (ho : r.spent ≤ callBudget s r.call.cord) (hc : capWord s = some (.cwait w, t)) : exec .cwaitWake s = exec (.cwait w) t := by
  show execCwaitWake s = _
  unfold execCwaitWake
  rw [hx]
  dsimp only
  rw [hw, over_eq_false_iff.mpr ho, Bool.not_true, Bool.false_or, if_neg Bool.false_ne_true, hc]
  rfl

/-! ### The end of a call (R256, R281) -/

/-- An ended call within its budget completes. -/
theorem callComplete_ended {s : State} {r : RunCall} {e : CallEnd} (hr : (myCore s).run = some r) (he : r.ended = some e)
    (ho : r.spent ≤ callBudget s r.call.cord) : exec .callComplete s = .next (
      finishCall (setMyCore (drainCap s) { myCore (drainCap s) with run := none }) s.focus.core r.call r.seqAddr e) := by
  show execCallComplete s = _
  unfold execCallComplete
  rw [hr]
  dsimp only
  rw [over_eq_false_iff.mpr ho, if_neg Bool.false_ne_true, he]

/-- A call over its budget does not complete so. -/
theorem callComplete_over {s : State} {r : RunCall} (hr : (myCore s).run = some r) (ho : callBudget s r.call.cord < r.spent) :
    exec .callComplete s = .next s := by
  show execCallComplete s = _
  unfold execCallComplete
  rw [hr]
  dsimp only
  rw [over_eq_true_iff.mpr ho, if_pos rfl]

/-- What a reset of a core's matrix complex leaves, before any call completes: no call, the matrix state of the cords cleared, and the
other cords' clay reloaded. -/
def matrixReset (t : State) (core : Nat) (cords : List Nat) : State :=
  let u := setMyCore t (cords.foldl unownMatrix { myCore t with run := none, chain := [], resumed := [] })
  reloadOthers (cords.foldl (fun t k => setCord t k (zeroSilt (getCord t k))) u) core

/-- A call over its budget is reset, and every queued one with it. -/
theorem mreset_over {s : State} {r : RunCall} (hr : (myCore s).run = some r) (ho : callBudget s r.call.cord < r.spent) :
    let t := drainCap (settleCap s)
    exec .mreset s = .next ((myCore t).chain.foldl (resetQueued s.focus.core (myCore t).resumed)
      (finishCall (matrixReset t s.focus.core (r.call.cord :: (myCore t).chain.map (·.cord))) s.focus.core r.call r.seqAddr
        { status := 2, cause := 0, addr := (capAddr r).setWidth 64 })) := by
  show execMreset s = _
  unfold execMreset
  dsimp only
  rw [hr]
  dsimp only
  rw [over_eq_true_iff.mpr ho, Bool.not_true, if_neg Bool.false_ne_true]
  rfl

/-! ### Passes (R260) -/

theorem mmaPass_eq {rel : Bool} {w : CWord} {s : State} {sh : Shape} (h : shapeOf (capB (drainCap s) w) true = some sh) :
    mmaPass rel w s = if passRefused (drainCap s) sh (mmaKnot rel w) (capPad (capA (drainCap s) w)) sh.sb (mmaLabel rel w) sh.ar then none
      else some ⟨drainCap s, sh.slots, drainCap s⟩ := by
  unfold mmaPass
  dsimp only
  rw [h]

/-- MGRP's pass over its next group, whose load has passed and whose checks do. -/
theorem groupPass_eq {w : CWord} {s t : State} {x : GroupRun} {sh : Shape} {q n : Nat} (hx : groupAt w (drainCap s) = some x)
    (hs : shapeOf x.shape true = some sh) (hq : nextGroup (capCells (drainCap s)) x.tab sh.ar x.q = some q) :
    let e := groupRow (capCells (drainCap s)) (x.tab + 16 * q)
    let o := x.aoff + x.a * sh.pitchA
    groupLoad (drainCap s) x.shape sh w.imm.toNat o x.a e = some (n, t) →
    passRefused t sh e.knotOf o e.srow (e.label x.a) e.count = false → groupPass w s = some ⟨t, sh.slots, t⟩ := by
  intro e o hl hn
  unfold groupPass
  dsimp only
  rw [hx]
  dsimp only
  rw [hs]
  dsimp only
  rw [hq]
  dsimp only
  rw [hl]
  dsimp only
  rw [hn, if_neg Bool.false_ne_true]

/-- The pass of a chunk of a tile reads the chunk's slots, where the tile's weights can be read. -/
theorem tilePass_slots {x : TileRun} {s : State} {r : List (List (Byte × List Byte)) × Flags} {k : Nat} (m : Nat)
    (hw : weightRows s x.ctx (1024 * x.tile) (x.ctx.v.width x.tile) = .ok r) (hk : k < x.ctx.v.chunks) :
    ∃ p, tilePass x k m s = some p ∧ p.slots = chunkKeys x.ctx k r.1.length := by
  unfold tilePass
  dsimp only
  rw [hw]
  dsimp only
  rw [if_neg (Nat.not_le.mpr hk)]
  exact ⟨_, rfl, rfl⟩

theorem failSlot_eq (s : State) (p : PassStart) (key : Nat) :
    let x := aGet {} (myCore p.read).clay key
    let put (s : State) (y : ClaySlot) : State := setMyCore s { myCore s with clay := aSet (myCore s).clay key y }
    failSlot s p key = (reloadSlot p.read key x).elim
      (endCall (put p.left { x with bad := true }) { status := 3, cause := 0, addr := (capAddr (myRun p.left)).setWidth 64 })
      (fun y => countErrors (if aGet? (myCore s).clay key = some x then put s y else s) 1 0) := by
  intro x put
  unfold failSlot
  dsimp only
  cases h : reloadSlot p.read key x <;> rfl

/-- A parity failure looks for the pass that the running call's word makes. -/
theorem clayParityFailure_eq {s t : State} {r : RunCall} {i : Instr} (hx : myRun? s = some r) (hc : r.clause.isSome = true)
    (ho : r.spent ≤ callBudget s r.call.cord) (hw : capWord s = some (i, t)) :
    exec .clayParityFailure s = .next ((passOf i (s.focus.ix / 8) (s.focus.row % 16) s).elim s (fun p =>
      if (s.focus.ix % 8, s.focus.row % 16) ∈ p.slots then failSlot s p (slotKey (s.focus.ix % 8) (s.focus.row % 16)) else s)) := by
  show execClayParityFailure s = _
  unfold execClayParityFailure
  dsimp only
  rw [hx, hw]
  dsimp only
  rw [Option.isNone_eq_false_iff.mpr hc, over_eq_false_iff.mpr ho, Bool.or_false, if_neg Bool.false_ne_true]
  cases passOf i (s.focus.ix / 8) (s.focus.row % 16) s with
  | none => rfl
  | some p =>
    dsimp only [Option.elim_some]
    simp only [List.contains_iff_mem]

/-! ### The obligation -/

/-- Settles O42: each event does what its meaning says where it is enabled. -/
theorem copyAndCallEventsComplete : Obligations.CopyAndCallEventsComplete := by
  refine ⟨?_, ?_, ?_, ?_, ?_, ?_, ?_, ?_, ?_, ?_, ?_, ?_, ?_, ?_, ?_, ?_, ?_, ?_, ?_⟩
  · intro s op ch a ho hc
    exact copyAccept_chain ho hc
  · intro s op ho hn
    exact copyAccept_record ho hn
  · intro s op t op' i x ho hs hr hp hd
    exact copyPageIn_due ho hs hr hp hd
  · intro s op ho hd
    exact copyComplete_due ho hd
  · intro s c cs h
    exact callAccept_oldest h
  · intro s c hr hc
    refine ⟨fun hn => ?_, fun p hp => ?_⟩
    · rw [callStart_next hr hc, hn]
      rfl
    · rw [callStart_next hr hc, hp]
      rfl
  · rintro s r t ⟨x, hx, hc⟩ hf hok
    rw [capstanHeader_fetched hx hc hf, hok]
    rfl
  · rintro s r t ⟨x, hx, hc⟩ hf hok
    rw [capstanHeader_fetched hx hc hf, hok]
    rfl
  · intro s r p hx hp
    exact cldResult_lands hx hp
  · intro s r w t hx hw ho hc hi
    rw [cwaitWake_runs hx hw ho hc, cwait_tests hi]
  · intro s r e hr he ho
    exact callComplete_ended hr he ho
  · intro s r hr ho
    exact callComplete_over hr ho
  · intro s r hr ho
    refine (mreset_over hr ho).trans ?_
    dsimp only
    congr 2
    funext y c
    unfold resetQueued
    cases (myCore (drainCap (settleCap s))).resumed.find? (fun e => e.run.call.id == c.id) <;> rfl
  · intro s w sh k m u hs
    exact ⟨mmaPass_eq hs, mmaPass_eq hs⟩
  · intro s w x sh q n t k m u hx hs hq e o hl hn
    exact groupPass_eq hx hs hq hl hn
  · intro s w x r k m u hw hk makes
    obtain ⟨p, hp, hslots⟩ := tilePass_slots m hw hk
    refine ⟨fun hn => ⟨p, ?_, hslots⟩, fun hn ht => ⟨p, ?_, hslots⟩, fun hn => ⟨p, ?_, hslots⟩⟩
    · show (nextTile (vprojStart w) u).bind (fun x => tilePass x k m u) = _
      rw [hn, Option.bind_some, hp]
    · show ((nextTile (vresStart w) u).filter (fun x => (rethreshold x.ctx.v x.rows).isSome)).bind (fun x => tilePass x k m u) = _
      rw [hn, Option.filter_some, if_pos ht, Option.bind_some, hp]
    · show (nextTile (vprjbStart w) u).bind (fun x => tilePass x k m u) = _
      rw [hn, Option.bind_some, hp]
  · intro s r i t hx hc ho hw slot key put
    rw [clayParityFailure_eq hx hc ho hw]
    refine ⟨fun p hp hm => ?_, fun hn => ?_⟩
    · rw [hp, Option.elim_some, if_pos hm]
      exact congrArg Host.Outcome.next (failSlot_eq s p key)
    · cases hp : passOf i (s.focus.ix / 8) (s.focus.row % 16) s with
      | none => rfl
      | some p => rw [Option.elim_some, if_neg (hn p hp)]
  · intro s
    rfl
  · intro s r raw hx hc
    exact unassignedCapstanOpcode_ends raw hx hc

end Sys2Proof.Machine

end

section
/-! O55: the entry of a precise trap. First where a strand stands that traps, then the two ways in which a trap is taken: into the handler, or
as the end of the cord. -/

namespace Sys2Proof.Machine

set_option autoImplicit false
set_option Elab.async false

/-! ### Where a strand stands that traps (R70, R149, R359) -/

/-- A strand that traps in clause c: the active threads stand at the word with the stamps that they have, the others of the group that are
ready take this selection's, and no clause is in progress. -/
def trappedAt (t : Strand) (c : Clause) : Strand :=
  { t with
    clause := none, stall := none,
    threads := Lanes.tab (fun l =>
      let x := t.threads.get l
      if inMask c.act l then { x with pc := c.hdr, place := some c.word }
      else if inMask c.group l && x.isReady then { x with stamp := t.sel } else x) }

@[simp] theorem trappedAt_v (t : Strand) (c : Clause) : (trappedAt t c).v = t.v := by simp only [trappedAt]
@[simp] theorem trappedAt_s (t : Strand) (c : Clause) : (trappedAt t c).s = t.s := by simp only [trappedAt]
@[simp] theorem trappedAt_p (t : Strand) (c : Clause) : (trappedAt t c).p = t.p := by simp only [trappedAt]
@[simp] theorem trappedAt_pend (t : Strand) (c : Clause) : (trappedAt t c).pend = t.pend := by simp only [trappedAt]
@[simp] theorem trappedAt_traps (t : Strand) (c : Clause) : (trappedAt t c).traps = t.traps := by simp only [trappedAt]
@[simp] theorem trappedAt_handler (t : Strand) (c : Clause) : (trappedAt t c).handler = t.handler := by simp only [trappedAt]
@[simp] theorem trappedAt_clause (t : Strand) (c : Clause) : (trappedAt t c).clause = none := by simp only [trappedAt]

theorem modThreads_sel (t : Strand) (m : LaneMask) (f : Lane → Thread → Thread) : (t.modThreads m f).sel = t.sel := by rw [modThreads_eq]

/-- The model's way to that strand: first the active threads, then the others of the group. -/
theorem modThreads_trappedAt (t : Strand) (c : Clause) :
    { (t.modThreads c.act (fun _ x => { x with pc := c.hdr, place := some c.word })).modThreads (c.group &&& ~~~c.act)
      (fun _ x => if x.isReady then { x with stamp := t.sel } else x) with clause := none, stall := none } = trappedAt t c := by
  unfold trappedAt
  rw [modThreads_eq, modThreads_eq]
  refine congrArg (fun th => ({ t with threads := th, clause := none, stall := none } : Strand)) (lanes_ext fun l => ?_)
  simp only [modThreads_get, tab_get, inMask_and, inMask_not]
  cases inMask c.act l <;> cases inMask c.group l <;> rfl

/-- Where each thread stands then. -/
theorem trappedAt_thread (t : Strand) (c : Clause) (l : Lane) :
    let x := t.threads.get l
    let y := (trappedAt t c).threads.get l
    y.st = x.st ∧ y.mr = x.mr ∧ if inMask c.act l then y.pc = c.hdr ∧ y.place = some c.word else y.pc = x.pc ∧ y.place = x.place := by
  simp only [trappedAt, tab_get]
  cases inMask c.act l
  · cases inMask c.group l && (t.threads.get l).isReady <;> exact ⟨rfl, rfl, rfl, rfl⟩
  · exact ⟨rfl, rfl, rfl, rfl⟩

/-- A precise trap that arises as number n at the word of clause c. -/
def preciseInfo (n : Nat) (c : Clause) (code : TrapCode) (aux : DWord) : TrapInfo :=
  { code := code, cls := .precise, pc := (c.hdr + 8 + BitVec.ofNat 56 (8 * c.word)).setWidth 64, aux := aux, park := c.act, seq := n }

theorem curClause_of {s : State} {c : Clause} (h : curClause? s = some c) : curClause s = c := by
  unfold curClause; rw [h]; rfl

theorem wordAddr_of {s : State} {c : Clause} (h : curClause s = c) : wordAddr s = c.hdr + 8 + BitVec.ofNat 56 (8 * c.word) := by
  unfold wordAddr; rw [h]

/-- The number of a trap changes nothing that the strand is. -/
theorem me_ops (s : State) (n : Nat) : me { s with ops := n } = me s := rfl

theorem wordAddr_ops (s : State) (n : Nat) : wordAddr { s with ops := n } = wordAddr s := rfl

/-- A precise trap outside handler mode with nothing outstanding. -/
theorem preciseTrap_plain {s : State} {c : Clause} (code : TrapCode) (aux : DWord) (hh : (me s).handler = none) (hc : (me s).clause = some c)
    (hp : (me s).pend = []) : preciseTrap s code aux =
      takeTrap (setMe { s with ops := s.ops + 1 } (trappedAt (me s) c)) (preciseInfo s.ops c code aux) := by
  have hcl : curClause s = c := curClause_of ((curClause?_plain hh).trans hc)
  have hin : inHandler { s with ops := s.ops + 1 } = false := by unfold inHandler; rw [me_ops, hh]; rfl
  unfold preciseTrap
  rw [settleAll_empty (by rw [hp]; rfl)]
  dsimp only [nextSeq]
  rw [hin, if_neg Bool.false_ne_true, me_ops, wordAddr_ops, wordAddr_of hcl, hcl]
  rw [← modThreads_trappedAt]
  simp only [modThreads_sel]
  rfl

/-- A precise trap in handler mode with nothing outstanding. -/
theorem preciseTrap_handler {s : State} {h : Handler} (code : TrapCode) (aux : DWord) (hh : (me s).handler = some h) (hp : (me s).pend = []) :
    preciseTrap s code aux = takeTrap { s with ops := s.ops + 1 } (preciseInfo s.ops (curClause s) code aux) := by
  have hin : inHandler { s with ops := s.ops + 1 } = true := by unfold inHandler; rw [me_ops, hh]; rfl
  unfold preciseTrap
  rw [settleAll_empty (by rw [hp]; rfl)]
  dsimp only [nextSeq]
  rw [if_pos hin, wordAddr_ops, wordAddr_of rfl]
  rfl

/-! ### Taking a trap (R357, R358, R369) -/

/-- A trap in handler mode, with nothing outstanding, ends the cord: the trap being handled goes first. -/
theorem takeTrap_handler {s : State} {h : Handler} (t : TrapInfo) (hp : (me s).pend = []) (ht : (myCord s).tend = false)
    (hh : (me s).handler = some h) : takeTrap s t = escalate s (focusCord s) (some h.trap) t := by
  unfold takeTrap
  simp [hp, ht, hh]

/-- A trap of a cord without a handler ends it. -/
theorem takeTrap_unhandled {s : State} (t : TrapInfo) (hp : (me s).pend = []) (ht : (myCord s).tend = false) (hh : (me s).handler = none)
    (h0 : (myCord s).hdr.handler = 0) : takeTrap s t = escalate s (focusCord s) none t := by
  unfold takeTrap
  simp [hp, ht, hh, h0]

/-- A strand that was in no clause, once it has entered the handler at an address with a trap. -/
def entered (m : Strand) (a : DWord) (t : TrapInfo) : Strand :=
  { m.unblock with handler := some { trap := { t with set := t.park }, pc := a.extractLsb' 0 56 }, clause := none, stall := none, waitHdr := none }

@[simp] theorem entered_v (m : Strand) (a : DWord) (t : TrapInfo) : (entered m a t).v = m.v := rfl
@[simp] theorem entered_s (m : Strand) (a : DWord) (t : TrapInfo) : (entered m a t).s = m.s := rfl
@[simp] theorem entered_p (m : Strand) (a : DWord) (t : TrapInfo) : (entered m a t).p = m.p := rfl
@[simp] theorem entered_threads (m : Strand) (a : DWord) (t : TrapInfo) : (entered m a t).threads = m.threads := rfl
@[simp] theorem entered_clause (m : Strand) (a : DWord) (t : TrapInfo) : (entered m a t).clause = none := rfl

/-- A trap of a strand in no clause enters the cord's handler. -/
theorem takeTrap_enters {s : State} (t : TrapInfo) (hp : (me s).pend = []) (ht : (myCord s).tend = false) (hh : (me s).handler = none)
    (hc : (me s).clause = none) (h0 : (myCord s).hdr.handler ≠ 0) :
    takeTrap s t = setMe s (entered (me s) (myCord s).hdr.handler t) := by
  have hu : (me s).unblock.clause = none := hc
  unfold takeTrap entered
  simp only [hp, List.isEmpty_nil, if_true, ht, Bool.false_eq_true, if_false, hh, if_neg h0, hu, Option.map_none]

/-- The handler's own predicates: p7 reads 1 and the others 0 (R358). -/
theorem predOf_entered (m : Strand) (a : DWord) (t : TrapInfo) {i : Nat} (hi : i < 8) (l : Lane) :
    inMask (predOf (entered m a t) i) l = (i == 7) := by
  have bits : ∀ i < 8, (0x80 : BitVec 8).getLsbD i = (i == 7) := by decide
  unfold predOf
  by_cases h7 : i = 7
  · subst h7
    show (BitVec.allOnes 32).getLsbD l.val = true
    rw [BitVec.getLsbD_allOnes, decide_eq_true l.isLt]
  · have hb : (i == 7) = false := beq_eq_false_iff_ne.mpr h7
    show inMask (if i = 7 then _ else if (0x80 : BitVec 8).getLsbD i then (1 : LaneMask) else 0) l = _
    rw [if_neg h7, bits i hi, hb, if_neg Bool.false_ne_true, inMask_zero]

/-! ### The end of a cord (R369) -/

/-- Stops strands one after another. -/
def stopAll (s : State) (ks : List Nat) : State := ks.foldl (fun s k => setStrand s k (getStrand s k).stop) s

theorem stop_ended (t : Strand) : t.stop.ended = true := by
  simp [Strand.ended, Strand.stop, Thread.isExited]

theorem stopAll_getCord (s : State) (ks : List Nat) (k : Nat) : getCord (stopAll s ks) k = getCord s k := by
  induction ks generalizing s with
  | nil => rfl
  | cons j ks ih => exact ih _

theorem stopAll_mem (s : State) (ks : List Nat) : (stopAll s ks).mem = s.mem := by
  induction ks generalizing s with
  | nil => rfl
  | cons j ks ih => exact ih _

/-- A strand that was stopped, or had ended before, has ended. -/
theorem stopAll_ended {s : State} {ks : List Nat} {k : Nat} (h : k ∈ ks ∨ (getStrand s k).ended = true) :
    (getStrand (stopAll s ks) k).ended = true := by
  induction ks generalizing s with
  | nil => exact h.resolve_left List.not_mem_nil
  | cons j ks ih =>
    refine ih ?_
    rw [getStrand_setStrand]
    by_cases hj : k = j
    · rw [if_pos hj]
      exact .inr (stop_ended _)
    · rw [if_neg hj]
      exact h.imp_left (fun hm => (List.mem_cons.mp hm).resolve_left hj)

/-- The failure record's other codes, of a trap t beside the first, f. -/
def otherCodes (s : State) (cord : Nat) (t f : TrapInfo) : List TrapCode :=
  ((t :: (trapsOf s cord).filter (fun u => u.seq != t.seq)).filter (fun u => u.seq != f.seq)).map (·.code)

/-- The cord that an escalation leaves. -/
def escalatedCord (s : State) (cord : Nat) (handled : Option TrapInfo) (t : TrapInfo) : Cord := match handled with
  | some h => { (getCord s cord).failFirst h (otherCodes s cord t h) with sticky := 0 }
  | none =>
    let f := earliest t (trapsOf s cord)
    { (getCord s cord).fail f (otherCodes s cord t f) with sticky := 0 }

/-- An escalation records the failure and stops every strand of the cord. -/
theorem escalate_eq (s : State) (cord : Nat) (handled : Option TrapInfo) (t : TrapInfo) :
    escalate s cord handled t = stopAll (setCord s cord (escalatedCord s cord handled t)) (strandKeys s cord) := by
  have hk : ∀ c : Cord, c.nstr = (getCord s cord).nstr → strandKeys (setCord s cord c) cord = strandKeys s cord := by
    intro c h
    unfold strandKeys
    rw [getCord_setCord, if_pos rfl, h]
  cases handled with
  | none =>
    rw [← hk (escalatedCord s cord none t) rfl]
    rfl
  | some h =>
    rw [← hk (escalatedCord s cord (some h) t) rfl]
    rfl

theorem escalate_getCord (s : State) (cord : Nat) (handled : Option TrapInfo) (t : TrapInfo) :
    getCord (escalate s cord handled t) cord = escalatedCord s cord handled t := by
  rw [escalate_eq, stopAll_getCord, getCord_setCord, if_pos rfl]

theorem escalate_mem (s : State) (cord : Nat) (handled : Option TrapInfo) (t : TrapInfo) : (escalate s cord handled t).mem = s.mem := by
  rw [escalate_eq, stopAll_mem, setCord_mem]

theorem escalate_ended {s : State} {cord k : Nat} (handled : Option TrapInfo) (t : TrapInfo) (h : k ∈ strandKeys s cord) :
    (getStrand (escalate s cord handled t) k).ended = true := by
  rw [escalate_eq]
  exact stopAll_ended (.inl h)

/-- A cord's first trap, with no other one standing, is its whole failure record. -/
theorem escalatedCord_alone {s : State} {cord : Nat} {t : TrapInfo} (ht : trapsOf s cord = []) (hf : (getCord s cord).failure = none) :
    (escalatedCord s cord none t).failure = some (t.failure []) := by
  unfold escalatedCord otherCodes Cord.fail
  dsimp only
  rw [hf, ht]
  simp [earliest]

/-- The record of a trap in handler mode: the trap being handled goes first; the new one and an older record are among the others. -/
theorem escalatedCord_handled (s : State) (cord : Nat) (h t : TrapInfo) : ∃ os, (escalatedCord s cord (some h) t).failure = some (h.failure os) ∧
    (h.seq ≠ t.seq → t.code ∈ os) ∧ ∀ r, (getCord s cord).failure = some r → r.code ∈ os := by
  have ho : h.seq ≠ t.seq → t.code ∈ otherCodes s cord t h := by
    intro hne
    have hb : (t.seq != h.seq) = true := bne_iff_ne.mpr hne.symm
    unfold otherCodes
    rw [List.filter_cons, hb]
    exact List.mem_cons_self
  unfold escalatedCord Cord.failFirst
  dsimp only
  cases hf : (getCord s cord).failure with
  | none => exact ⟨_, rfl, ho, fun r hr => by cases hr⟩
  | some r =>
    refine ⟨_, rfl, fun hne => List.mem_append_right _ (ho hne), fun r' hr => ?_⟩
    cases hr
    exact List.mem_append_left _ List.mem_cons_self

/-! ### Traps that stand in a cord (R360, R369) -/

/-- The traps of one strand that have arisen and have not been discarded. -/
def strandTraps (t : Strand) : List TrapInfo :=
  t.traps ++ (match t.handler with | some h => [h.trap] | none => []) ++
    (deferredTrap t (t.threadsIn Thread.isFaulted &&& ~~~handledLanes t)).toList

theorem trapsOf_eq_nil_iff (s : State) (cord : Nat) : trapsOf s cord = [] ↔ ∀ k ∈ strandKeys s cord, strandTraps (getStrand s k) = [] :=
  List.flatMap_eq_nil_iff

/-- Whether a thread stands faulted its state says. -/
theorem threadsIn_faulted_congr {t u : Strand} (h : ∀ l, (u.threads.get l).st = (t.threads.get l).st) :
    u.threadsIn Thread.isFaulted = t.threadsIn Thread.isFaulted := by
  apply mask_ext
  intro l
  simp only [Strand.threadsIn, inMask_maskOf, Thread.isFaulted, h l]

theorem deferredTrap_none_congr {t u : Strand} {m : LaneMask} (h : ∀ l, (u.threads.get l).st = (t.threads.get l).st)
    (hn : deferredTrap t m = none) : deferredTrap u m = none := by
  unfold deferredTrap at hn ⊢
  cases hl : lowestLane m with
  | none => rfl
  | some l =>
    rw [hl] at hn
    simp only [Option.bind_some, h l] at hn ⊢
    split at hn
    · cases hn
    · rfl

/-- A strand that traps outside handler mode has no more traps standing than before. -/
theorem strandTraps_trappedAt {t : Strand} (c : Clause) (hh : t.handler = none) (hn : strandTraps t = []) : strandTraps (trappedAt t c) = [] := by
  have hst : ∀ l, ((trappedAt t c).threads.get l).st = (t.threads.get l).st := fun l => (trappedAt_thread t c l).1
  unfold strandTraps at hn ⊢
  simp only [handledLanes, trappedAt_traps, trappedAt_handler, hh, List.append_nil, List.append_eq_nil_iff, Option.toList_eq_nil_iff,
    threadsIn_faulted_congr hst] at hn ⊢
  exact ⟨hn.1, deferredTrap_none_congr hst hn.2⟩

/-- Nor has its cord. -/
theorem trapsOf_trappedAt {s : State} {cord : Nat} (c : Clause) (n : Nat) (hh : (me s).handler = none) (hn : trapsOf s cord = []) :
    trapsOf (setMe { s with ops := n } (trappedAt (me s) c)) cord = [] := by
  rw [trapsOf_eq_nil_iff] at hn ⊢
  intro k hk
  rw [getStrand_setMe]
  split
  · next hf =>
    subst hf
    exact strandTraps_trappedAt c hh (hn _ hk)
  · exact hn k hk

/-! ### The obligation -/

/-- A precise trap enters the handler of its cord. -/
theorem preciseTrap_enters {s : State} {c : Clause} (code : TrapCode) (aux : DWord) (hh : (me s).handler = none) (hc : (me s).clause = some c)
    (hp : (me s).pend = []) (ht : (myCord s).tend = false) (h0 : (myCord s).hdr.handler ≠ 0) : preciseTrap s code aux =
      setMe { s with ops := s.ops + 1 } (entered (trappedAt (me s) c) (myCord s).hdr.handler (preciseInfo s.ops c code aux)) := by
  rw [preciseTrap_plain code aux hh hc hp]
  rw [takeTrap_enters (s := setMe { s with ops := s.ops + 1 } (trappedAt (me s) c)) _ (by rw [me_setMe, trappedAt_pend, hp]) ht
    (by rw [me_setMe, trappedAt_handler, hh]) (by rw [me_setMe, trappedAt_clause]) h0, me_setMe, setMe_setMe, setMe_myCord]
  rfl

/-- A precise trap of a cord without a handler ends it. -/
theorem preciseTrap_unhandled {s : State} {c : Clause} (code : TrapCode) (aux : DWord) (hh : (me s).handler = none)
    (hc : (me s).clause = some c) (hp : (me s).pend = []) (ht : (myCord s).tend = false) (h0 : (myCord s).hdr.handler = 0) :
    preciseTrap s code aux =
      escalate (setMe { s with ops := s.ops + 1 } (trappedAt (me s) c)) (focusCord s) none (preciseInfo s.ops c code aux) := by
  rw [preciseTrap_plain code aux hh hc hp]
  exact takeTrap_unhandled _ (by rw [me_setMe, trappedAt_pend, hp]) ht (by rw [me_setMe, trappedAt_handler, hh]) h0

/-- Settles O55: a precise trap enters the handler where the cord has one and the strand is outside handler mode; else it escalates. -/
theorem trapEntry : Obligations.TrapEntry := by
  refine ⟨?_, ?_, ?_, ?_, ?_⟩
  · intro s c code aux hh hc hp ht h0
    refine ⟨_, preciseTrap_enters code aux hh hc hp ht h0, rfl, fun k hk => ?_, ?_⟩
    · rw [getStrand_setMe]
      exact if_neg hk
    · rw [curClause?_me, me_setMe, entered_v, entered_s, entered_p, entered_clause, entered_threads, trappedAt_v, trappedAt_s, trappedAt_p]
      exact ⟨rfl, rfl, rfl, rfl, rfl, ⟨_, rfl, rfl, rfl, rfl, rfl, rfl, rfl, rfl, rfl, rfl⟩,
        fun i l hi => predOf_entered _ _ _ hi l, fun l => trappedAt_thread (me s) c l⟩
  · intro s c code aux hh hc hp ht h0 hn hf
    refine ⟨_, (preciseInfo s.ops c code aux).failure [], preciseTrap_unhandled code aux hh hc hp ht h0, ?_, rfl, rfl, rfl, rfl, rfl, ?_, ?_⟩
    · rw [escalate_getCord]
      exact escalatedCord_alone (trapsOf_trappedAt c _ hh hn) hf
    · rw [escalate_mem]
      rfl
    · intro k hk
      exact escalate_ended _ _ hk
  · intro c t others hf
    unfold Cord.fail
    rw [hf]
    rfl
  · intro c t others r hf
    unfold Cord.fail
    rw [hf]
    rfl
  · intro s h code aux hh hp ht
    obtain ⟨os, hf, hcode, hrec⟩ :=
      escalatedCord_handled { s with ops := s.ops + 1 } (focusCord s) h.trap (preciseInfo s.ops (curClause s) code aux)
    refine ⟨_, h.trap.failure os, (preciseTrap_handler code aux hh hp).trans (takeTrap_handler _ hp ht hh), ?_, rfl, rfl, rfl, rfl, rfl,
      hcode, hrec, ?_, ?_⟩
    · exact (congrArg Cord.failure (escalate_getCord ..)).trans hf
    · exact escalate_mem ..
    · intro k hk
      exact escalate_ended _ _ hk

end Sys2Proof.Machine

end

section
/-! O4: bit functions. First bits and positions of bits in a number, then the functions of words. -/

namespace Sys2Proof.Machine

set_option autoImplicit false
set_option Elab.async false

/-! ### Bits of a number -/

/-- A number needs at most k bits where it is below 2^k. -/
theorem bitLen_le_iff (n k : Nat) : bitLen n ≤ k ↔ n < 2 ^ k := by
  unfold bitLen
  split
  · next h => simp [h]
  · next h => exact Nat.log2_lt h

theorem bitLen_pos {n : Nat} (h : n ≠ 0) : 1 ≤ bitLen n := by
  unfold bitLen
  rw [if_neg h]
  omega

/-- The highest 1 bit of a number is the last of its bits. -/
theorem testBit_bitLen {n : Nat} (h : n ≠ 0) : n.testBit (bitLen n - 1) = true := by
  unfold bitLen
  rw [if_neg h, Nat.add_sub_cancel]
  exact Nat.testBit_log2 h

theorem popBelow_eq_length (v n : Nat) : popBelow v n = ((List.range n).filter v.testBit).length := by
  induction n with
  | zero => rfl
  | succ n ih =>
    have hb : v / 2 ^ n % 2 = (if v.testBit n then 1 else 0) := by
      rw [Nat.testBit_eq_decide_div_mod_eq]
      rcases Nat.mod_two_eq_zero_or_one (v / 2 ^ n) with h | h <;> simp [h]
    rw [popBelow, ih, hb, List.range_succ, List.filter_append, List.length_append]
    congr 1
    cases h : v.testBit n <;> simp [h]

/-- A search for a 1 bit among k bits from bit i up stops at the first, or past the last. -/
theorem ctzFrom_spec (v k i : Nat) : i ≤ ctzFrom v k i ∧ ctzFrom v k i ≤ i + k ∧
    (∀ j, i ≤ j → j < ctzFrom v k i → v.testBit j = false) ∧ (ctzFrom v k i < i + k → v.testBit (ctzFrom v k i) = true) := by
  induction k generalizing i with
  | zero => exact ⟨Nat.le_refl i, Nat.le_refl i, fun j h g => absurd g (by simp only [ctzFrom]; omega), fun h => absurd h (Nat.lt_irrefl i)⟩
  | succ k ih =>
    have hb : v.testBit i = decide (v / 2 ^ i % 2 = 1) := Nat.testBit_eq_decide_div_mod_eq
    unfold ctzFrom
    split
    · next h => exact ⟨Nat.le_refl i, by omega, fun j hj hk => absurd hk (by omega), fun _ => by rw [hb, h]; rfl⟩
    · next h =>
      obtain ⟨h1, h2, h3, h4⟩ := ih (i + 1)
      refine ⟨by omega, by omega, fun j hj hk => ?_, fun hk => h4 (by omega)⟩
      rcases Nat.eq_or_lt_of_le hj with rfl | hlt
      · rw [hb, decide_eq_false h]
      · exact h3 j hlt hk

theorem testBit_revFrom (v k acc i : Nat) : (revFrom v k acc).testBit i = if i < k then v.testBit (k - 1 - i) else acc.testBit (i - k) := by
  induction k generalizing v acc with
  | zero => simp [revFrom]
  | succ k ih =>
    rw [revFrom, ih]
    by_cases hi : i < k
    · rw [if_pos hi, if_pos (by omega), Nat.testBit_div_two]
      congr 1; omega
    · rw [if_neg hi]
      by_cases hk : i = k
      · subst hk
        rw [if_pos (by omega), Nat.sub_self, Nat.testBit_zero, show i + 1 - 1 - i = 0 by omega, Nat.testBit_zero]
        congr 2; omega
      · rw [if_neg (by omega), show i - k = i - (k + 1) + 1 by omega, Nat.testBit_succ]
        congr 1; omega

/-! ### Numbers read as signed -/

/-- A number of w bits read as two's complement is the signed value of its low bits. -/
theorem signedOf_eq_toInt (w v : Nat) : signedOf w v = (BitVec.ofNat w v).toInt := by
  unfold signedOf
  rw [BitVec.toInt_eq_toNat_cond, BitVec.toNat_ofNat]
  cases w with
  | zero => simp [Nat.mod_one]
  | succ w =>
    rw [Nat.add_sub_cancel]
    have h : 2 ^ (w + 1) = 2 * 2 ^ w := by rw [Nat.pow_succ, Nat.mul_comm]
    by_cases hl : v % 2 ^ (w + 1) < 2 ^ w
    · rw [if_pos hl, if_pos (by omega)]
    · rw [if_neg hl, if_neg (by omega)]
      push_cast
      rfl

/-- A field of a word, read as signed or as unsigned, is the extension of its bits. -/
theorem extend_field (signed : Bool) (w v : Nat) : (if signed then BitVec.ofInt 32 (signedOf w v) else BitVec.ofNat 32 (v % 2 ^ w)) =
    (if signed then (BitVec.ofNat w v).signExtend 32 else (BitVec.ofNat w v).setWidth 32 : Word) := by
  cases signed
  · rw [if_neg Bool.false_ne_true, if_neg Bool.false_ne_true]
    apply BitVec.eq_of_toNat_eq
    simp
  · rw [if_pos rfl, if_pos rfl, signedOf_eq_toInt]
    rfl

/-! ### Counts and the reversal (R83) -/

theorem popBits_eq_length (n : Nat) (a : BitVec n) : popBits n a = ((List.range n).filter a.getLsbD).length :=
  popBelow_eq_length a.toNat n

theorem clzBits_spec (n : Nat) (a : BitVec n) : clzBits n a ≤ n ∧ (∀ i, i < clzBits n a → a.getMsbD i = false) ∧
    (clzBits n a < n → a.getMsbD (clzBits n a) = true) := by
  have hl : bitLen a.toNat ≤ n := (bitLen_le_iff _ _).mpr a.isLt
  unfold clzBits
  refine ⟨by omega, fun i hi => ?_, fun h => ?_⟩
  · have : a.toNat < 2 ^ (n - 1 - i) := (bitLen_le_iff _ _).mp (by omega)
    rw [BitVec.getMsbD_eq_getLsbD, BitVec.getLsbD, Nat.testBit_lt_two_pow this, Bool.and_false]
  · have h0 : a.toNat ≠ 0 := by
      intro e
      rw [e] at h
      exact absurd h (by simp [bitLen])
    have hp := bitLen_pos h0
    rw [BitVec.getMsbD_eq_getLsbD, BitVec.getLsbD, show n - 1 - (n - bitLen a.toNat) = bitLen a.toNat - 1 by omega, testBit_bitLen h0,
      decide_eq_true h, Bool.true_and]

theorem ctzBits_spec (n : Nat) (a : BitVec n) : ctzBits n a ≤ n ∧ (∀ i, i < ctzBits n a → a.getLsbD i = false) ∧
    (ctzBits n a < n → a.getLsbD (ctzBits n a) = true) := by
  obtain ⟨-, h2, h3, h4⟩ := ctzFrom_spec a.toNat n 0
  rw [Nat.zero_add] at h2 h4
  exact ⟨h2, fun i hi => h3 i (Nat.zero_le i) hi, h4⟩

theorem getLsbD_brevBits (n : Nat) (a : BitVec n) (i : Nat) : (brevBits n a).getLsbD i = a.getMsbD i := by
  rw [brevBits, BitVec.getLsbD_ofNat, testBit_revFrom, BitVec.getMsbD_eq_getLsbD]
  by_cases h : i < n
  · simp [h, BitVec.getLsbD]
  · simp [h]

/-! ### Tables (R84) -/

theorem getLsbD_lutBits (tt : BitVec 8) (n : Nat) (a b c : BitVec n) (i : Nat) (h : i < n) : (lutBits tt n a b c).getLsbD i =
    tt.getLsbD ((a.getLsbD i).toNat + 2 * (b.getLsbD i).toNat + 4 * (c.getLsbD i).toNat) := by
  have pick (k : Nat) (x : BitVec n) : (if tt.getLsbD k then x else 0).getLsbD i = (tt.getLsbD k && x.getLsbD i) := by
    cases tt.getLsbD k <;> simp
  simp only [lutBits, BitVec.getLsbD_or, pick, BitVec.getLsbD_and, BitVec.getLsbD_not, h, decide_true, Bool.true_and]
  cases a.getLsbD i <;> cases b.getLsbD i <;> cases c.getLsbD i <;> simp

/-! ### Fields (R83) -/

/-- BFX extends the field. -/
theorem bfxBits_eq (signed : Bool) (a b : Word) : bfxBits signed a b =
    if signed then ((a >>> fieldPos b).setWidth (fieldLen b)).signExtend 32 else ((a >>> fieldPos b).setWidth (fieldLen b)).setWidth 32 := by
  have hf : (if fieldPos b < 32 then a.toNat / 2 ^ fieldPos b % 2 ^ fieldLen b else 0) = a.toNat / 2 ^ fieldPos b % 2 ^ fieldLen b := by
    split
    · rfl
    · next h =>
      have : a.toNat < 2 ^ fieldPos b := Nat.lt_of_lt_of_le a.isLt (Nat.pow_le_pow_right (by decide) (by omega))
      rw [Nat.div_eq_of_lt this, Nat.zero_mod]
  have hs : (a >>> fieldPos b).setWidth (fieldLen b) = BitVec.ofNat (fieldLen b) (a.toNat / 2 ^ fieldPos b % 2 ^ fieldLen b) := by
    apply BitVec.eq_of_toNat_eq
    simp [Nat.shiftRight_eq_div_pow]
  rw [hs, ← extend_field]
  unfold bfxBits
  dsimp only
  rw [hf, Nat.mod_mod]
  by_cases h0 : 1 ≤ fieldLen b
  · simp [h0]
  · have : fieldLen b = 0 := by omega
    cases signed <;> simp [this, Nat.mod_one, signedOf]

/-- BFI replaces the bits under the field's mask. -/
theorem bfiBits_eq (a b c : Word) : bfiBits a b c =
    let m : Word := (BitVec.allOnes (fieldLen b)).setWidth 32 <<< fieldPos b
    (c &&& ~~~m) ||| ((a <<< fieldPos b) &&& m) := by
  have h : (BitVec.ofNat 32 ((2 ^ fieldLen b - 1) * 2 ^ fieldPos b) : Word) = (BitVec.allOnes (fieldLen b)).setWidth 32 <<< fieldPos b := by
    apply BitVec.eq_of_toNat_eq
    simp [Nat.shiftLeft_eq]
  unfold bfiBits
  rw [h]

/-- A bit of BFX: of A in the field, and above the field of its highest bit where it is signed. -/
theorem getLsbD_bfxBits (signed : Bool) (a b : Word) (i : Nat) (h : i < 32) : (bfxBits signed a b).getLsbD i =
    if i < fieldLen b then a.getLsbD (fieldPos b + i) else signed && (decide (1 ≤ fieldLen b) && a.getLsbD (fieldPos b + fieldLen b - 1)) := by
  rw [bfxBits_eq]
  cases signed
  · by_cases hi : i < fieldLen b <;> simp [hi, h]
  · rw [if_pos rfl, BitVec.getLsbD_signExtend, BitVec.msb_eq_getLsbD_last]
    by_cases hi : i < fieldLen b
    · simp [hi, h]
    · by_cases h0 : 1 ≤ fieldLen b
      · rw [Nat.add_sub_assoc h0]
        have hpos : 0 < fieldLen b := h0
        simp [hi, h, h0, hpos]
      · simp [show fieldLen b = 0 by omega]

/-- A bit of BFI: of A in the field, and of C outside it. -/
theorem getLsbD_bfiBits (a b c : Word) (i : Nat) (h : i < 32) : (bfiBits a b c).getLsbD i =
    if fieldPos b ≤ i ∧ i < fieldPos b + fieldLen b then a.getLsbD (i - fieldPos b) else c.getLsbD i := by
  rw [bfiBits_eq]
  by_cases hp : fieldPos b ≤ i
  · by_cases hl : i - fieldPos b < fieldLen b
    · simp [h, hp, hl, show i < fieldPos b + fieldLen b by omega, show i - fieldPos b < 32 by omega, show ¬ i < fieldPos b by omega]
    · simp [h, hp, hl, show ¬ i < fieldPos b + fieldLen b by omega]
  · simp [h, hp, show i < fieldPos b by omega]

/-! ### The byte permutation (R83) -/

/-- The byte that selector i of C takes from B:A. -/
def selByte (ab : DWord) (c : Word) (i : Nat) : Byte :=
  let sel := c.extractLsb' (4 * i) 4
  let src := ab.extractLsb' (8 * (sel.toNat % 8)) 8
  if sel.msb then (if src.msb then 0xFF else 0) else src

theorem byteAt_eq_toNat (n : Nat) (x : BitVec n) (i : Nat) : byteAt x.toNat i = (x.extractLsb' (8 * i) 8).toNat := by
  simp [byteAt, Nat.shiftRight_eq_div_pow]

theorem bprmByte_eq_toNat (ab : DWord) (c : Word) (i : Nat) : bprmByte ab.toNat c.toNat i = (selByte ab c i).toNat := by
  have hsel : c.toNat / 2 ^ (4 * i) % 16 = (c.extractLsb' (4 * i) 4).toNat := by simp [Nat.shiftRight_eq_div_pow]
  unfold bprmByte selByte
  dsimp only
  rw [hsel, byteAt_eq_toNat, BitVec.msb_eq_decide, BitVec.msb_eq_decide]
  generalize c.extractLsb' (4 * i) 4 = sel
  generalize ab.extractLsb' (8 * (sel.toNat % 8)) 8 = src
  by_cases h8 : 8 ≤ sel.toNat
  · by_cases hs : 128 ≤ src.toNat <;> simp [h8, hs]
  · simp [h8]

theorem toNat_append_add {m n : Nat} (a : BitVec m) (b : BitVec n) : (b ++ a).toNat = a.toNat + 2 ^ m * b.toNat := by
  rw [BitVec.toNat_append, ← Nat.shiftLeft_add_eq_or_of_lt a.isLt, Nat.shiftLeft_eq, Nat.mul_comm, Nat.add_comm]

/-- BPRM puts the four bytes together. -/
theorem bprmBits_eq (a b c : Word) : bprmBits a b c =
    selByte (b ++ a) c 3 ++ selByte (b ++ a) c 2 ++ selByte (b ++ a) c 1 ++ selByte (b ++ a) c 0 := by
  unfold bprmBits
  rw [← toNat_append_add]
  simp only [bprmByte_eq_toNat]
  generalize selByte (b ++ a) c 0 = p0
  generalize selByte (b ++ a) c 1 = p1
  generalize selByte (b ++ a) c 2 = p2
  generalize selByte (b ++ a) c 3 = p3
  apply BitVec.eq_of_toNat_eq
  simp only [toNat_append_add, BitVec.toNat_ofNat]
  omega

/-- A bit of the byte that a selector takes. -/
theorem getLsbD_selByte (ab : DWord) (c : Word) (i j : Nat) (hj : j < 8) : (selByte ab c i).getLsbD j =
    ab.getLsbD (8 * (c.toNat / 2 ^ (4 * i) % 16 % 8) + if 8 ≤ c.toNat / 2 ^ (4 * i) % 16 then 7 else j) := by
  have hsel : (c.extractLsb' (4 * i) 4).toNat = c.toNat / 2 ^ (4 * i) % 16 := by simp [Nat.shiftRight_eq_div_pow]
  unfold selByte
  dsimp only
  rw [BitVec.msb_eq_decide, hsel, show 2 ^ (4 - 1) = 8 from rfl]
  by_cases h8 : 8 ≤ c.toNat / 2 ^ (4 * i) % 16
  · simp only [h8, decide_true, if_true, BitVec.msb_eq_getLsbD_last, BitVec.getLsbD_extractLsb']
    cases h : ab.getLsbD (8 * (c.toNat / 2 ^ (4 * i) % 16 % 8) + 7)
    · simp
    · have hff : (0xFF : Byte).getLsbD j = true := by
        rw [show (0xFF : Byte) = BitVec.allOnes 8 from rfl, BitVec.getLsbD_allOnes, decide_eq_true hj]
      simpa [h] using hff
  · simp [h8, hj]

/-- A bit of BPRM stands in the byte that its selector takes. -/
theorem getLsbD_bprmBits (a b c : Word) (i j : Nat) (hi : i < 4) (hj : j < 8) :
    (bprmBits a b c).getLsbD (8 * i + j) = (selByte (b ++ a) c i).getLsbD j := by
  rw [bprmBits_eq]
  simp only [BitVec.getLsbD_append]
  interval_cases i
  · simp [hj]
  · simp [show ¬ 8 + j < 8 by omega, hj]
  · simp [show ¬ 16 + j < 8 by omega, show 16 + j - 8 = 8 + j by omega, hj]
  · simp [show ¬ 24 + j < 8 by omega, show 24 + j - 8 = 16 + j by omega, show 16 + j - 8 = 8 + j by omega, show ¬ 16 + j < 8 by omega, hj]

/-! ### The obligation -/

/-- Settles O4: each function bit by bit. -/
theorem bitFunctions : Obligations.BitFunctions :=
  ⟨popBits_eq_length, clzBits_spec, ctzBits_spec, getLsbD_brevBits, getLsbD_lutBits, getLsbD_bfxBits, getLsbD_bfiBits,
    fun a b c i j hi hj => by rw [getLsbD_bprmBits a b c i j hi hj, getLsbD_selByte _ _ _ _ hj]⟩

end Sys2Proof.Machine

end

section
/-! O1, O2, O3, O7: moves, integer arithmetic, logic and predicates. First the values in other words, then the words. -/

namespace Sys2Proof.Machine

set_option autoImplicit false
set_option Elab.async false

theorem widen_congr {x y : Word} (h : x = y) : ((x.setWidth 64, 0) : DWord × Flags) = (y.setWidth 64, 0) := by rw [h]

/-- A word that computes in lanes, with the value in other words. -/
theorem writes_lanes_of {mk : SWord → Instr} {f : SWord → Form} {n : SWord → Nat} {h : SWord → State → Lane → DWord × Flags}
    (g : SWord → State → Lane → DWord × Flags) (hf : ∀ w, strandForm (mk w) = some (w, f w))
    (he : ∀ w s, exec (mk w) s = .next (runWord (mk w) (lanes .fixed n g) s)) (e : ∀ w s l, g w s l = h w s l) : writes mk n h :=
  writes_congr e (writes_lanes n g hf he)

/-! ### Integer arithmetic (R80) -/

theorem minBits_le (signed : Bool) (n : Nat) (a b : BitVec n) : minBits signed false n a b =
    if intOf signed n a ≤ intOf signed n b then a else b := by
  simp [minBits]

theorem maxBits_le (signed : Bool) (n : Nat) (a b : BitVec n) : minBits signed true n a b =
    if intOf signed n a ≤ intOf signed n b then b else a := by
  unfold minBits
  by_cases h : intOf signed n a ≤ intOf signed n b <;> simp [h]

/-- The element i of a dot product's operand. -/
theorem dotInt_eq_sum (signed : Bool) (k m : Nat) (a b : Word) : dotInt signed k m a.toNat b.toNat =
    ((List.range m).map (fun i => intOf signed k (a.extractLsb' (k * i) k) * intOf signed k (b.extractLsb' (k * i) k))).sum := by
  have elem (x : Word) (i : Nat) : (let v := x.toNat / 2 ^ (k * i) % 2 ^ k; if signed then signedOf k v else (v : Int)) =
      intOf signed k (x.extractLsb' (k * i) k) := by
    have hx : BitVec.ofNat k (x.toNat / 2 ^ (k * i) % 2 ^ k) = x.extractLsb' (k * i) k := by
      apply BitVec.eq_of_toNat_eq
      simp [Nat.shiftRight_eq_div_pow]
    cases signed
    · simp [intOf, Nat.shiftRight_eq_div_pow]
    · simp only [intOf, if_true, signedOf_eq_toInt, hx]
  induction m with
  | zero => rfl
  | succ m ih =>
    rw [dotInt, List.range_succ, List.map_append, List.sum_append, ← ih]
    dsimp only at elem ⊢
    rw [elem, elem]
    simp only [List.map_cons, List.map_nil, List.sum_singleton]
    omega

/-! ### Conditions (R79) -/

theorem not_decide_lt (x y : Int) : (!decide (x < y)) = decide (y ≤ x) := by
  rw [← decide_not]
  exact decide_eq_decide.mpr Int.not_lt

/-- The type's order is that of the integers that the operands stand for. -/
theorem lt_eq_intOf (signed : Bool) (n : Nat) (a b : BitVec n) : (if signed then a.slt b else a.ult b) =
    decide (intOf signed n a < intOf signed n b) := by
  cases signed
  · simp [intOf, BitVec.ult_eq_decide]
  · simp [intOf, BitVec.slt_eq_decide]

theorem intCondHolds_eq (cc : Nat) (signed : Bool) (n : Nat) (a b : BitVec n) : intCondHolds cc signed n a b =
    match cc with
    | 0 => a == b
    | 1 => a != b
    | 2 => decide (intOf signed n a < intOf signed n b)
    | 3 => decide (intOf signed n a ≤ intOf signed n b)
    | 4 => decide (intOf signed n b < intOf signed n a)
    | _ => decide (intOf signed n b ≤ intOf signed n a) := by
  match cc with
  | 0 => rfl
  | 1 => rfl
  | 2 => exact lt_eq_intOf ..
  | 3 => exact (congrArg not (lt_eq_intOf ..)).trans (not_decide_lt ..)
  | 4 => exact lt_eq_intOf ..
  | _ + 5 => exact (congrArg not (lt_eq_intOf ..)).trans (not_decide_lt ..)

theorem wordCond_eq (w : SWord) (s : State) (l : Lane) : wordCond w s l = integerHolds w s l := by
  unfold wordCond integerHolds
  simp only [intCondHolds_eq] <;> rfl

/-! ### Shifts (R83) -/

theorem loW_setWidth (b : Word) : loW (b.setWidth 64) = b := by
  unfold loW
  rw [BitVec.extractLsb'_setWidth_of_le (by decide), BitVec.extractLsb'_eq_self]

/-- B's low byte is the same at both widths. -/
theorem shCount_setWidth (b : Word) : shCount 64 (b.setWidth 64) = b.toNat % 256 ∧ shCount 32 (loW (b.setWidth 64)) = b.toNat % 256 := by
  rw [loW_setWidth]
  unfold shCount
  rw [BitVec.toNat_setWidth_of_le (by decide)]
  exact ⟨rfl, rfl⟩

/-- A shift by B's low byte, at the type's width. -/
theorem atWidth2_shift {w : SWord} {f : (n : Nat) → BitVec n → BitVec n → BitVec n} {g : (n : Nat) → BitVec n → Nat → BitVec n}
    (h : ∀ n a b, f n a b = g n a (shCount n b)) (a : DWord) (b : Word) :
    atWidth2 w f a (b.setWidth 64) = atWidth1 w (fun n a => g n a (b.toNat % 256)) a := by
  unfold atWidth2 atWidth1
  rw [h, h, (shCount_setWidth b).1, (shCount_setWidth b).2]

theorem shlBits_eq (n : Nat) (a b : BitVec n) : shlBits n a b = a <<< shCount n b := by
  unfold shlBits
  split
  · rfl
  · next h => exact (BitVec.shiftLeft_eq_zero (by omega)).symm

theorem shrBits_eq (n : Nat) (a b : BitVec n) : shrBits n a b = a >>> shCount n b := by
  unfold shrBits
  split
  · rfl
  · next h => exact (BitVec.ushiftRight_eq_zero (by omega)).symm

theorem fshfBits_eq (a b c : Word) : fshfBits a b c = ((b ++ a : DWord) >>> (c.toNat % 64)).setWidth 32 := by
  unfold fshfBits
  rw [← toNat_append_add]
  apply BitVec.eq_of_toNat_eq
  simp only [BitVec.toNat_ofNat, BitVec.toNat_setWidth, BitVec.toNat_ushiftRight, Nat.shiftRight_eq_div_pow]

theorem lutOf_eq (w : SWord) : lutOf w = w.imm.setWidth 8 := by
  apply BitVec.eq_of_toNat_eq
  simp [lutOf, SWord.bits]

/-! ### Predicates (R84, R90) -/

theorem bits_one_eq_getLsbD (w : SWord) (i : Nat) : (w.bits i 1 == 1) = w.imm.getLsbD i := by
  rw [BitVec.getLsbD, Nat.testBit_eq_decide_div_mod_eq]
  rfl

/-! ### The hash (R86) -/

theorem rhashOf_eq (key : DWord) (ctr : Word) : rhashOf key ctr =
    let x := ([0x5C4E1B27, 0xA3D96F01, 0x17B5C8E3, 0xE2F03A9D] : List Word).foldl rhashRound (ctr, key.setWidth 32, (key >>> 32).setWidth 32)
    let h := x.1 ^^^ x.2.1 ^^^ x.2.2
    let h := (h ^^^ (h >>> 16)) * 0x8B3A5C97
    h ^^^ (h >>> 15) := by
  unfold rhashOf
  rw [← BitVec.setWidth_eq_extractLsb' (by decide), ← BitVec.setWidth_ushiftRight_eq_extractLsb]

/-! ### The obligations -/

/-- Settles O1: each word's body computes in lanes, and NOP's does nothing. -/
theorem movesComplete : Obligations.MovesComplete := by
  refine ⟨?_, ?_, ?_, ?_, ?_, ?_⟩
  · intro w s hi
    have hd : does .nop (fun _ s => s) := does_of (fun _ => rfl) (fun _ _ => rfl) (fun _ _ => rfl)
    exact ⟨issued (.nop w) s, hd w s hi, issued_kept ..⟩
  · exact writes_lanes _ _ (fun _ => rfl) (fun _ _ => rfl)
  · exact writes_lanes _ _ (fun _ => rfl) (fun _ _ => rfl)
  · exact writes_lanes _ _ (fun _ => rfl) (fun _ _ => rfl)
  · exact writes_lanes _ _ (fun _ => rfl) (fun _ _ => rfl)
  · exact writes_lanes _ _ (fun _ => rfl) (fun _ _ => rfl)

/-- Settles O2: each word's body computes in lanes. -/
theorem integersComplete : Obligations.IntegersComplete := by
  refine ⟨?_, ?_, ?_, ?_, ?_, ?_, ?_, ?_, ?_, ?_, ?_, ?_, ?_⟩
  · exact writes_lanes _ _ (fun _ => rfl) (fun _ _ => rfl)
  · exact writes_lanes _ _ (fun _ => rfl) (fun _ _ => rfl)
  · exact writes_lanes _ _ (fun _ => rfl) (fun _ _ => rfl)
  · exact writes_lanes _ _ (fun _ => rfl) (fun _ _ => rfl)
  · exact writes_lanes _ _ (fun _ => rfl) (fun _ _ => rfl)
  · exact writes_lanes_of _ (fun _ => rfl) (fun _ _ => rfl) (fun w s l => by cases w.ty.signed <;> rfl)
  · exact writes_lanes_of _ (fun _ => rfl) (fun _ _ => rfl) (fun w s l => by simp only [minBits_le])
  · exact writes_lanes_of _ (fun _ => rfl) (fun _ _ => rfl) (fun w s l => by simp only [maxBits_le])
  · exact writes_lanes _ _ (fun _ => rfl) (fun _ _ => rfl)
  · exact writes_lanes _ _ (fun _ => rfl) (fun _ _ => rfl)
  · exact writes_lanes _ _ (fun _ => rfl) (fun _ _ => rfl)
  · exact writes_lanes_of _ (fun _ => rfl) (fun _ _ => rfl) (fun w s l => by simp only [dotInt_eq_sum])
  · exact writes_lanes_of _ (fun _ => rfl) (fun _ _ => rfl) (fun w s l => by simp only [dotInt_eq_sum])

/-- Settles O3: each word's body computes in lanes. -/
theorem logicComplete : Obligations.LogicComplete := by
  refine ⟨?_, ?_, ?_, ?_, ?_, ?_, ?_, ?_, ?_, ?_, ?_, ?_, ?_, ?_, ?_, ?_, ?_, ?_, ?_, ?_⟩
  · exact writes_lanes _ _ (fun _ => rfl) (fun _ _ => rfl)
  · exact writes_lanes _ _ (fun _ => rfl) (fun _ _ => rfl)
  · exact writes_lanes _ _ (fun _ => rfl) (fun _ _ => rfl)
  · exact writes_lanes _ _ (fun _ => rfl) (fun _ _ => rfl)
  · exact writes_lanes _ _ (fun _ => rfl) (fun _ _ => rfl)
  · exact writes_lanes_of _ (fun _ => rfl) (fun _ _ => rfl) (fun w s l => congrArg (·, 0) (atWidth2_shift shlBits_eq ..))
  · exact writes_lanes_of _ (fun _ => rfl) (fun _ _ => rfl) (fun w s l => congrArg (·, 0) (atWidth2_shift shrBits_eq ..))
  · exact writes_lanes_of _ (fun _ => rfl) (fun _ _ => rfl)
      (fun w s l => congrArg (·, 0) (atWidth2_shift (g := fun _ a k => a.sshiftRight k) (fun _ _ _ => rfl) ..))
  · exact writes_lanes_of _ (fun _ => rfl) (fun _ _ => rfl)
      (fun w s l => congrArg (·, 0) (atWidth2_shift (g := fun n a k => a.rotateLeft (k % n)) (fun _ _ _ => rfl) ..))
  · exact writes_lanes_of _ (fun _ => rfl) (fun _ _ => rfl) (fun w s l => widen_congr (bfxBits_eq ..))
  · exact writes_lanes_of _ (fun _ => rfl) (fun _ _ => rfl) (fun w s l => widen_congr (bfiBits_eq ..))
  · exact writes_lanes _ _ (fun _ => rfl) (fun _ _ => rfl)
  · exact writes_lanes _ _ (fun _ => rfl) (fun _ _ => rfl)
  · exact writes_lanes _ _ (fun _ => rfl) (fun _ _ => rfl)
  · exact writes_lanes _ _ (fun _ => rfl) (fun _ _ => rfl)
  · exact writes_lanes_of _ (fun _ => rfl) (fun _ _ => rfl) (fun w s l => widen_congr (bprmBits_eq ..))
  · exact writes_lanes_of _ (fun _ => rfl) (fun _ _ => rfl) (fun w s l => widen_congr (fshfBits_eq ..))
  · exact writes_lanes_of _ (fun _ => rfl) (fun _ _ => rfl) (fun w s l => by simp only [lutOf_eq])
  · exact writes_lanes_of _ (fun _ => rfl) (fun _ _ => rfl) (fun w s l => widen_congr (rhashOf_eq ..))
  · exact writes_lanes_of _ (fun _ => rfl) (fun _ _ => rfl) (fun w s l => by rw [wordCond_eq])

/-- Settles O7: each word's body decides a predicate in each enabled lane. -/
theorem predicatesComplete : Obligations.PredicatesComplete := by
  refine ⟨?_, ?_, ?_, ?_⟩
  · refine decides_congr (fun w s l => ?_) (decides_pred _ (fun _ => rfl) (fun _ => rfl) (fun _ _ => rfl))
    rw [wordCond_eq]
  · refine decides_congr (fun w s l => ?_) (decides_pred _ (fun _ => rfl) (fun _ => rfl) (fun _ _ => rfl))
    rw [lutOf_eq]
  · exact decides_pred _ (fun _ => rfl) (fun _ => rfl) (fun _ _ => rfl)
  · refine decides_congr (fun w s l => ?_) (decides_pred _ (fun _ => rfl) (fun _ => rfl) (fun _ _ => rfl))
    rw [bits_one_eq_getLsbD]

end Sys2Proof.Machine

end

section
/-! O6, O8: IADDC and PMOV. First what a predicate write leaves after another write, then the words. -/

namespace Sys2Proof.Machine

set_option autoImplicit false
set_option Elab.async false

/-! ### IADDC (R76, R80) -/

theorem addCarry_eq (n : Nat) (a b : BitVec n) (c : Bool) :
    addCarry n a b c = (a + b + BitVec.ofNat n c.toNat, decide (2 ^ n ≤ a.toNat + b.toNat + c.toNat)) := by
  unfold addCarry
  rw [Prod.mk.injEq]
  refine ⟨BitVec.eq_of_toNat_eq ?_, rfl⟩
  simp [Nat.add_mod]

theorem iaddcLane_eq (w : SWord) (s : State) (l : Lane) : iaddcLane w s l = carrySum w s l := by
  unfold iaddcLane carrySum
  simp only [addCarry_eq]

theorem handler_isNone_kept {a b : Strand} (h : predsKept a b) : b.handler.isNone = a.handler.isNone := by
  simpa using congrArg Option.isNone h.2

theorem decidedIn_congr {a b : Strand} (h : b.handler.isNone = a.handler.isNone) (i : Nat) (en : LaneMask) (d : Dest) :
    decidedIn b i en d = decidedIn a i en d := by
  unfold decidedIn
  rw [h]

/-- A write of a predicate from a strand with the same predicates. -/
theorem predsAfter_from {i : Nat} {en : LaneMask} {f : Lane → Bool} {a t b : Strand} (h : predsKept a t) (hb : predsAfter i en f t b) :
    predsAfter i en f a b := by
  have hn : t.handler = none ↔ a.handler = none := by
    rw [← Option.isNone_iff_eq_none, ← Option.isNone_iff_eq_none, handler_isNone_kept h]
  refine ⟨fun j l hj hl => ?_, fun e => ?_⟩
  · rw [hb.1 j l hj (hl.imp hn.mpr id), predOf_kept h]
  · rw [hb.2 (fun x => e (hn.mp x)), h.1]

/-- What writing a register and then a predicate leaves of the strand, from the state in which the word is issued. -/
theorem issued_wrote_decided (i : Instr) (s : State) (w : SWord) (n : Nat) {k : Nat} (hk : k < 8) (en : LaneMask) (val : Lane → DWord)
    (p : Lane → Bool) :
    let m := putP (putReg (me (issued i s)) w.d n en val) k en p
    vectorsAfter w n en val (me s) m ∧ scalarsAfter w n en val (me s) m ∧ predsAfter k en p (me s) m ∧
      m.pend = race (me s).pend (fun d => writtenIn w.d n en d || decidedIn (me s) k en d) ∧ strandKept (me s) m := by
  obtain ⟨⟨hv, hs, hp⟩, hq, ht⟩ := issued_wrote i s w n en val
  obtain ⟨gv, gs⟩ := putP_regs (putReg (me (issued i s)) w.d n en val) k en p
  refine ⟨fun r l => ?_, fun r => ?_, predsAfter_from hp (putP_after _ k hk en p), ?_, strandKept_trans ht (putP_strandKept ..)⟩
  · rw [← hv r l]
    simp only [vLane, gv]
  · rw [gs]
    exact hs r
  · rw [putP_pend, hq, race_race]
    exact race_congr _ (fun d => by rw [decidedIn_congr (handler_isNone_kept hp)])

/-- A word whose body changes the strand in focus alone. -/
theorem word_setMe {i : Instr} {w : SWord} {f : Form} {body : SWord → State → Res} {s : State} {m : Strand} (hf : strandForm i = some (w, f))
    (hi : issues i s = true) (hb : body w (issued i s) = .done (setMe (issued i s) m)) :
    runWord i body s = goneOn w.sw (setMe (issued i s) m) ∧ restKept 0 s (setMe (issued i s) m) := by
  refine ⟨(runWord_eq body s hf).trans (runForm_done hf hi hb), ?_⟩
  have h := effect_rest i s m 0
  rwa [show (0 : Flags) = 0#32 from rfl, orFlags_zero] at h

/-- A predicate number in C. -/
theorem pfld_lt {i : Instr} {w : SWord} {f : Form} {s : State} (hf : strandForm i = some (w, f)) (hc : f.c = pfld) (hi : issues i s = true) :
    w.c.toNat < 8 := by
  have h := issues_wf hf hi
  unfold Form.wf at h
  simp only [Bool.and_eq_true, hc] at h
  have hw : pfld.wf w.c = true := by simp_all
  simp only [pfld, Fld.wf, decide_eq_true_eq] at hw
  omega

/-- The sum that a lane takes: with a scalar destination the lowest enabled lane's. -/
theorem iaddcBody_eq (w : SWord) (s : State) : iaddcBody w s =
    let r := fun l => carrySum w s (if isScalar w.d then (lowestLane (enabled s w)).getD l else l)
    .done (setMe s (putP (putReg (me s) w.d w.ty.regs (enabled s w) (fun l => (r l).1)) w.c.toNat (enabled s w) (fun l => (r l).2))) := by
  unfold iaddcBody onceLane
  simp only [iaddcLane_eq]
  cases isScalar w.d <;> rfl

/-- Settles O6: what the register write and then the predicate write leave. -/
theorem carryCompletes : Obligations.CarryCompletes := by
  intro w s hi
  have hk : w.c.toNat < 8 := pfld_lt (i := .iaddc w) rfl rfl hi
  obtain ⟨h1, h2⟩ := word_setMe (i := .iaddc w) rfl hi (iaddcBody_eq w (issued (.iaddc w) s))
  refine ⟨_, congrArg Host.Outcome.next h1, ?_⟩
  rw [me_setMe, issued_enabled]
  obtain ⟨hv, hs, hp, hq, hr⟩ := issued_wrote_decided (.iaddc w) s w w.ty.regs hk (enabled s w)
    (fun l => (carrySum w (issued (.iaddc w) s) (if isScalar w.d then (lowestLane (enabled s w)).getD l else l)).1)
    (fun l => (carrySum w (issued (.iaddc w) s) (if isScalar w.d then (lowestLane (enabled s w)).getD l else l)).2)
  rw [issued_enabled] at h2
  exact ⟨hv, hs, hp, hq, hr, h2⟩

/-! ### Predicates of a mask (R85) -/

theorem handler_isNone_strandKept {a b : Strand} (h : strandKept a b) : b.handler.isNone = a.handler.isNone := by
  simpa using congrArg Option.isNone h.2

/-- Of the predicates 0 to n-1, those of a mask have been written in the lanes of en. -/
def maskDecided (n : Nat) (mask : Nat) (en : LaneMask) (f : Lane → Word) (a b : Strand) : Prop :=
  (∀ j l, j < 8 → a.handler = none ∨ l = 0 → inMask (predOf b j) l =
    if (j < n ∧ mask.testBit j = true) ∧ j ≠ 7 ∧ inMask en l = true then (f l).getLsbD j else inMask (predOf a j) l) ∧
  (a.handler ≠ none → b.p = a.p) ∧ b.v = a.v ∧ b.s = a.s ∧
  b.pend = race a.pend (fun d => (List.range n).any (fun j => mask.testBit j && decidedIn a j en d)) ∧ strandKept a b

theorem maskDecided_zero {a b : Strand} (hr : regsKept a b) (hk : strandKept a b) (hp : b.pend = a.pend) (mask : Nat) (en : LaneMask)
    (f : Lane → Word) : maskDecided 0 mask en f a b := by
  obtain ⟨hv, hs, hpr⟩ := hr
  refine ⟨fun j l _ _ => ?_, fun _ => hpr.1, hv, hs, hp.trans (race_none _ (fun _ => rfl)).symm, hk⟩
  simp [predOf_kept hpr]

/-- A predicate outside the mask stays. -/
theorem maskDecided_skip {n mask : Nat} {en : LaneMask} {f : Lane → Word} {a b : Strand} (h : maskDecided n mask en f a b)
    (hb : mask.testBit n = false) : maskDecided (n + 1) mask en f a b := by
  obtain ⟨h1, h2, h3, h4, h5, h6⟩ := h
  have hj (j : Nat) : (j < n + 1 ∧ mask.testBit j = true) ↔ (j < n ∧ mask.testBit j = true) := by
    rw [Nat.lt_succ_iff_lt_or_eq]
    constructor
    · rintro ⟨h | rfl, hm⟩
      · exact ⟨h, hm⟩
      · rw [hb] at hm; cases hm
    · exact fun h => ⟨.inl h.1, h.2⟩
  refine ⟨fun j l hl hh => ?_, h2, h3, h4, ?_, h6⟩
  · rw [h1 j l hl hh]
    simp only [hj]
  · simp [h5, List.range_succ, hb]

/-- A predicate of the mask is written. -/
theorem maskDecided_put {n mask : Nat} {en : LaneMask} {f : Lane → Word} {a b : Strand} (h : maskDecided n mask en f a b) (hn : n < 8)
    (hb : mask.testBit n = true) : maskDecided (n + 1) mask en f a (putP b n en (fun l => (f l).getLsbD n)) := by
  obtain ⟨h1, h2, h3, h4, h5, h6⟩ := h
  have hh : b.handler.isNone = a.handler.isNone := handler_isNone_strandKept h6
  have hnone : b.handler = none ↔ a.handler = none := by
    rw [← Option.isNone_iff_eq_none, ← Option.isNone_iff_eq_none, hh]
  obtain ⟨g1, g2⟩ := putP_after b n hn en (fun l => (f l).getLsbD n)
  obtain ⟨gv, gs⟩ := putP_regs b n en (fun l => (f l).getLsbD n)
  refine ⟨fun j l hj hl => ?_, fun e => (g2 (fun x => e (hnone.mp x))).trans (h2 e), gv.trans h3, gs.trans h4, ?_,
    strandKept_trans h6 (putP_strandKept ..)⟩
  · rw [g1 j l hj (hl.imp hnone.mpr id), h1 j l hj hl]
    by_cases hjn : j = n
    · subst hjn
      simp [hb]
    · have hlt : j < n + 1 ↔ j < n := by omega
      simp [hjn, hlt]
  · rw [putP_pend, h5, race_race]
    exact race_congr _ (fun d => by simp [List.range_succ, hb, decidedIn_congr hh])

theorem putPreds_succ (en : LaneMask) (mask : Nat) (f : Lane → Word) (n : Nat) (t : Strand) : putPreds en mask f (n + 1) t =
    if mask.testBit n then putP (putPreds en mask f n t) n en (fun l => (f l).getLsbD n) else putPreds en mask f n t := by
  rw [putPreds, Nat.testBit_eq_decide_div_mod_eq]
  simp only [decide_eq_true_eq]

/-- PMOV's write of predicates makes those of the mask, lowest first. -/
theorem putPreds_maskDecided {a t : Strand} (hr : regsKept a t) (hk : strandKept a t) (hp : t.pend = a.pend) (mask : Nat) (en : LaneMask)
    (f : Lane → Word) {n : Nat} (hn : n ≤ 8) : maskDecided n mask en f a (putPreds en mask f n t) := by
  induction n with
  | zero => exact maskDecided_zero hr hk hp mask en f
  | succ n ih =>
    rw [putPreds_succ]
    cases hb : mask.testBit n
    · exact maskDecided_skip (ih (by omega)) hb
    · exact maskDecided_put (ih (by omega)) hn hb

/-- The mask of PMOV stands in IMM16[15:8]. -/
theorem testBit_maskField (w : SWord) (j : Nat) : (w.bits 8 8).testBit j = (decide (j < 8) && w.imm.getLsbD (8 + j)) := by
  rw [SWord.bits, Nat.testBit_mod_two_pow, Nat.testBit_div_two_pow, BitVec.getLsbD, Nat.add_comm]

theorem foldl_add_eq_sum (g : Nat → Nat) (l : List Nat) : l.foldl (fun a i => a + g i) 0 = (l.map g).sum := by
  rw [List.sum_eq_foldl, List.foldl_map]

/-! ### PMOV (R85) -/

/-- The predicates of a lane, as the bits of a number. -/
def laneBits (s : State) (l : Lane) : DWord := BitVec.ofNat 64 (((List.range 8).map (fun i => (readP s i l).toNat * 2 ^ i)).sum)

theorem pmovBody_lane {w : SWord} (s : State) (h : w.bits 0 2 = 0) :
    pmovBody w s = .done (setMe s (putReg (me s) w.d 1 (enabled s w) (laneBits s))) := by
  unfold pmovBody
  rw [h]
  simp only [foldl_add_eq_sum]
  rfl

theorem pmovBody_mask {w : SWord} (s : State) (h : w.bits 0 2 = 1) :
    pmovBody w s = .done (setMe s (putPreds (enabled s w) (w.bits 8 8) (opA1 s w) 8 (me s))) := by
  unfold pmovBody
  rw [h]
  rfl

theorem pmovBody_gather {w : SWord} (s : State) (h : w.bits 0 2 = 2) : pmovBody w s = .done (setMe s (putReg (me s) w.d 1 (enabled s w)
    (fun _ => (maskOf (fun l => inMask (enabled s w) l && readP s (w.bits 8 3) l)).setWidth 64))) := by
  unfold pmovBody
  rw [h]
  rfl

theorem pmovBody_scatter {w : SWord} (s : State) {n : Nat} (h : w.bits 0 2 = n + 3) :
    pmovBody w s = .done (setMe s (putP (me s) (w.bits 8 3) (enabled s w) (fun l => (opA1 s w l).getLsbD l.val))) := by
  unfold pmovBody
  rw [h]
  rfl

/-- PMOV runs by its body's change of the strand. -/
theorem pmov_runs {w : SWord} {s : State} {m : Strand} (hi : issues (.pmov w) s = true)
    (hb : pmovBody w (issued (.pmov w) s) = .done (setMe (issued (.pmov w) s) m)) (hk : strandKept (me s) m) :
    exec (.pmov w) s = .next (goneOn w.sw (setMe (issued (.pmov w) s) m)) ∧
      strandKept (me s) (me (setMe (issued (.pmov w) s) m)) ∧ restKept 0 s (setMe (issued (.pmov w) s) m) := by
  obtain ⟨h1, h2⟩ := word_setMe (i := .pmov w) rfl hi hb
  rw [me_setMe]
  exact ⟨congrArg Host.Outcome.next h1, hk, h2⟩

/-- Settles O8: by the form that IMM16[1:0] names. -/
theorem predicateMovesComplete : Obligations.PredicateMovesComplete := by
  intro w s hi
  match hm : w.bits 0 2 with
  | 0 =>
    have hb := pmovBody_lane (issued (.pmov w) s) hm
    rw [issued_enabled] at hb
    obtain ⟨hw, hp, hk⟩ := issued_wrote (.pmov w) s w 1 (enabled s w) (laneBits (issued (.pmov w) s))
    obtain ⟨e, k, r⟩ := pmov_runs hi hb hk
    refine ⟨_, e, k, r, ?_⟩
    rw [me_setMe]
    exact ⟨hw, hp⟩
  | 1 =>
    have hb := pmovBody_mask (issued (.pmov w) s) hm
    rw [issued_enabled] at hb
    obtain ⟨h1, h2, hv, hs, hp, hk⟩ := putPreds_maskDecided (issued_regsKept (.pmov w) s) (issued_strandKept (.pmov w) s)
      (issued_pend (.pmov w) s) (w.bits 8 8) (enabled s w) (opA1 (issued (.pmov w) s) w) (Nat.le_refl 8)
    obtain ⟨e, k, r⟩ := pmov_runs hi hb hk
    refine ⟨_, e, k, r, ?_⟩
    rw [me_setMe]
    refine ⟨⟨hv, hs⟩, fun j l hj hl => ?_, h2, hp.trans (race_congr _ (fun d => ?_))⟩
    · rw [h1 j l hj hl]
      simp [testBit_maskField, hj]
    · rw [Bool.eq_iff_iff, List.any_eq_true, List.any_eq_true]
      exact exists_congr (fun j => and_congr_right (fun hj => by rw [testBit_maskField, decide_eq_true (List.mem_range.mp hj), Bool.true_and]))
  | 2 =>
    have hb := pmovBody_gather (issued (.pmov w) s) hm
    simp only [issued_enabled] at hb
    obtain ⟨hw, hp, hk⟩ := issued_wrote (.pmov w) s w 1 (enabled s w)
      (fun _ => (maskOf (fun l => inMask (enabled s w) l && readP (issued (.pmov w) s) (w.bits 8 3) l)).setWidth 64)
    obtain ⟨e, k, r⟩ := pmov_runs hi hb hk
    refine ⟨_, e, k, r, ?_⟩
    rw [me_setMe]
    exact ⟨hw, hp⟩
  | n + 3 =>
    have hb := pmovBody_scatter (issued (.pmov w) s) hm
    rw [issued_enabled] at hb
    obtain ⟨hd, hv, hs, hp, hk⟩ := issued_decided (.pmov w) s (k := w.bits 8 3) (Nat.mod_lt _ (by decide)) (enabled s w)
      (fun l => (opA1 (issued (.pmov w) s) w l).getLsbD l.val)
    obtain ⟨e, k, r⟩ := pmov_runs hi hb hk
    refine ⟨_, e, k, r, ?_⟩
    rw [me_setMe]
    exact ⟨⟨hv, hs⟩, hd, hp⟩

end Sys2Proof.Machine

end

section
/-! O10, O11: the conversions, and the other words that read a narrow format. -/

namespace Sys2Proof.Machine

set_option autoImplicit false
set_option Elab.async false

/-! ### Narrow formats (R35) -/

/-- A word that traps unless a condition holds, and else computes in lanes, completes under the condition. -/
theorem writesIf_checked {mk : SWord → Instr} {f : SWord → Form} {cond : SWord → State → Bool} {n : SWord → Nat} {c : TrapCode} {x : DWord}
    (g : SWord → State → Lane → DWord × Flags) (hf : ∀ w, strandForm (mk w) = some (w, f w))
    (he : ∀ w s, exec (mk w) s = .next (runWord (mk w) (fun w s => if !cond w s then .trap c x else lanes .fixed n g w s) s)) :
    writesIf mk cond n g :=
  writesIf_lanes n g hf he (fun w s h => by rw [h]; rfl)

/-- And else it traps. -/
theorem trapsIf_checked {mk : SWord → Instr} {f : SWord → Form} {cond : SWord → State → Bool} {c : TrapCode} {x : DWord}
    {body : SWord → State → Res} (hf : ∀ w, strandForm (mk w) = some (w, f w))
    (he : ∀ w s, exec (mk w) s = .next (runWord (mk w) (fun w s => if !cond w s then .trap c x else body w s) s)) :
    trapsIf mk (fun w s => !cond w s) c (fun _ => x) :=
  trapsIf_of hf he (fun _ _ h => if_pos h)

theorem bsclBody_apply {w : SWord} (s : State) (h : (w.bits 5 1 == 0) = true) : bsclBody w s = lanes .fixed oneReg (fun w s l =>
    let r := bsclApply (byteAt (opB1 s w l).toNat (w.bits 6 2)) (opA1 s w l)
    (r.1.setWidth 64, r.2)) w s := by
  unfold bsclBody
  rw [if_pos (beq_iff_eq.mp h)]

theorem bsclBody_derive {w : SWord} (s : State) (h : (!(w.bits 5 1 == 0)) = true) : bsclBody w s =
    if !nfValid (nfReg s (w.bits 8 4)) then .trap .illop 0 else lanes .fixed oneReg (fun w s l =>
      ((bsclDerive (nfReg s (w.bits 8 4)) (opA1 s w l)).setWidth 64, flagIf (f32.isSig (opA1 s w l).toNat) fINV)) w s := by
  unfold bsclBody
  rw [if_neg (by simpa using h)]
  rfl

/-- Settles O10: a valid format lets the body compute in lanes, and another one makes it trap. -/
theorem narrowFormatsComplete : Obligations.NarrowFormatsComplete := by
  refine ⟨?_, ?_, ?_, ?_, ?_, ?_, ?_, ?_, ?_⟩
  · exact writesIf_checked _ (fun _ => rfl) (fun _ _ => rfl)
  · exact trapsIf_checked (fun _ => rfl) (fun _ _ => rfl)
  · exact writesIf_checked _ (fun _ => rfl) (fun _ _ => rfl)
  · exact trapsIf_checked (fun _ => rfl) (fun _ _ => rfl)
  · exact writesIf_checked _ (fun _ => rfl) (fun _ _ => rfl)
  · exact trapsIf_checked (fun _ => rfl) (fun _ _ => rfl)
  · exact writesIf_lanes _ _ (fun _ => rfl) (fun _ _ => rfl) (fun w s h => bsclBody_apply s h)
  · refine writesIf_lanes _ _ (fun _ => rfl) (fun _ _ => rfl) (fun w s h => ?_)
    obtain ⟨hd, hv⟩ := Bool.and_eq_true_iff.mp h
    dsimp only at hv
    rw [bsclBody_derive s hd, hv]
    rfl
  · refine trapsIf_of (fun _ => rfl) (fun _ _ => rfl) (fun w s h => ?_)
    obtain ⟨hd, hv⟩ := Bool.and_eq_true_iff.mp h
    rw [bsclBody_derive s hd, if_pos hv]

/-! ### The other conversions -/

theorem unpkBits_eq (w : SWord) (a : Word) : unpkBits w a =
    let n := if w.bits 5 1 = 1 then 8 else 16
    let v := a.extractLsb' (n * w.bits 6 2) n
    if w.ty.signed then v.signExtend 32 else v.setWidth 32 := by
  unfold unpkBits
  dsimp only
  generalize (if w.bits 5 1 = 1 then 8 else 16) = n
  have hv : BitVec.ofNat n (a.toNat / 2 ^ (n * w.bits 6 2) % 2 ^ n) = a.extractLsb' (n * w.bits 6 2) n := by
    apply BitVec.eq_of_toNat_eq
    simp [Nat.shiftRight_eq_div_pow]
  rw [← hv, ← extend_field, Nat.mod_mod]

/-- Settles O11: each word's body computes in lanes. -/
theorem conversionsComplete : Obligations.ConversionsComplete := by
  refine ⟨?_, ?_, ?_, ?_, ?_, ?_, ?_⟩
  · exact writes_lanes _ _ (fun _ => rfl) (fun _ _ => rfl)
  · refine writes_lanes_of _ (fun _ => rfl) (fun _ _ => rfl) (fun w s l => ?_)
    unfold i2fLane
    match w.bits 5 2 with
    | 0 => rfl
    | 1 => rfl
    | 2 => rfl
    | n + 3 => rfl
  · exact writes_lanes _ _ (fun _ => rfl) (fun _ _ => rfl)
  · exact writes_lanes _ _ (fun _ => rfl) (fun _ _ => rfl)
  · exact writes_lanes_of _ (fun _ => rfl) (fun _ _ => rfl) (fun w s l => widen_congr (unpkBits_eq ..))
  · exact writes_lanes _ _ (fun _ => rfl) (fun _ _ => rfl)
  · exact writes_lanes _ _ (fun _ => rfl) (fun _ _ => rfl)

end Sys2Proof.Machine

end

section
/-! O5: ISAT, IDIV and IREM. First what settling outstanding results leaves, then the values in other words. -/

namespace Sys2Proof.Machine

set_option autoImplicit false
set_option Elab.async false

/-! ### What outstanding results leave once they are written (R22, R23) -/

/-- The newest value of a place among some writes, or an old one. -/
def newestOf (ws : List PendWrite) (d : Dest) (old : Word) : Word := ((ws.filter (fun w => w.dest == d)).getLast?.map (·.val)).getD old

theorem newestOf_cons (w : PendWrite) (ws : List PendWrite) (d : Dest) (old : Word) :
    newestOf (w :: ws) d old = newestOf ws d (if w.dest == d then w.val else old) := by
  unfold newestOf
  rw [List.filter_cons]
  cases w.dest == d
  · rfl
  · rw [if_pos rfl, if_pos rfl, List.getLast?_cons]
    cases (ws.filter (fun w => w.dest == d)).getLast? <;> rfl

theorem vLane_makeWrite (t : Strand) (w : PendWrite) (r : Nat) (l : Lane) :
    vLane (makeWrite t w) r l = if w.dest == .v r l then w.val else vLane t r l := by
  obtain ⟨dest, val, raced⟩ := w
  cases dest with
  | v r' l' => simp [makeWrite, eq_comm (a := r), eq_comm (a := l)]
  | s r' => simp [makeWrite]
  | p i l' => simp [makeWrite, vLane, (putP_regs ..).1]

theorem scalar_makeWrite (t : Strand) (w : PendWrite) (r : Nat) :
    aGet 0 (makeWrite t w).s r = if w.dest == .s r then w.val else aGet 0 t.s r := by
  obtain ⟨dest, val, raced⟩ := w
  cases dest with
  | v r' l' => simp [makeWrite]
  | s r' =>
    refine (putS_s t r' r val).trans ?_
    simp [eq_comm (a := r)]
  | p i l' => simp [makeWrite, (putP_regs ..).2]

theorem makeWrite_pend_nil {t : Strand} (h : t.pend = []) (w : PendWrite) : (makeWrite t w).pend = [] := by
  obtain ⟨dest, val, raced⟩ := w
  cases dest with
  | v r' l' => simp [makeWrite, putV, h, race]
  | s r' => simp [makeWrite, putS, h, race]
  | p i l' => simp [makeWrite, putP_pend, h, race]

/-- A write changes registers and predicates only, and which results race. -/
theorem makeWrite_only (t : Strand) (w : PendWrite) : makeWrite t w =
    { t with v := (makeWrite t w).v, s := (makeWrite t w).s, p := (makeWrite t w).p, pend := (makeWrite t w).pend,
             handler := (makeWrite t w).handler } := by
  obtain ⟨dest, val, raced⟩ := w
  cases dest with
  | v r' l' => rfl
  | s r' => rfl
  | p i l' =>
    unfold makeWrite putP
    dsimp only
    split
    · rfl
    · split
      · split <;> rfl
      · rfl

/-- Writes made one after another leave the newest value in each place. -/
theorem foldl_makeWrite_newest (ws : List PendWrite) (t : Strand) (h : t.pend = []) :
    let u := ws.foldl makeWrite t
    u.pend = [] ∧ (∀ r l, vLane u r l = newestOf ws (.v r l) (vLane t r l)) ∧ (∀ r, aGet 0 u.s r = newestOf ws (.s r) (aGet 0 t.s r)) ∧
      u = { t with v := u.v, s := u.s, p := u.p, pend := [], handler := u.handler } := by
  induction ws generalizing t with
  | nil =>
    refine ⟨h, fun _ _ => rfl, fun _ => rfl, ?_⟩
    rw [List.foldl_nil, ← h]
  | cons w ws ih =>
    obtain ⟨h1, h2, h3, h4⟩ := ih (makeWrite t w) (makeWrite_pend_nil h w)
    refine ⟨h1, fun r l => ?_, fun r => ?_, ?_⟩
    · rw [newestOf_cons, ← vLane_makeWrite]
      exact h2 r l
    · rw [newestOf_cons, ← scalar_makeWrite]
      exact h3 r
    · rw [List.foldl_cons]
      generalize List.foldl makeWrite (makeWrite t w) ws = u at h4 ⊢
      rw [h4, makeWrite_only t w]

/-- Settling results without race or error makes their writes. -/
theorem settleAll_clean {s : State} (hne : (me s).pend ≠ [])
    (h : ∀ e ∈ (me s).pend, e.poison = [] ∧ ∀ w ∈ e.writes, w.raced = false) :
    settleAll s = setMe s (((me s).pend.flatMap (·.writes)).foldl makeWrite { me s with pend := [] }) := by
  have hw : ∀ w ∈ (me s).pend.flatMap (·.writes), w.raced = false := by
    intro w hw
    obtain ⟨e, he, hwe⟩ := List.mem_flatMap.mp hw
    exact (h e he).2 w hwe
  have hfaults (t : State) (es : List Pending) (he : ∀ e ∈ es, e.poison = []) :
      es.foldl (fun s e => faultLanes s e.pc (some e.word) (e.poison.map (fun x => (x.1, .poison, x.2, 0)))) t = t := by
    induction es with
    | nil => rfl
    | cons e es ih =>
      rw [List.foldl_cons, he e List.mem_cons_self]
      exact ih (fun e' h' => he e' (List.mem_cons_of_mem _ h'))
  unfold settleAll settle
  rw [if_neg (by simpa using hne)]
  dsimp only
  rw [List.filter_eq_self.mpr (fun w k => by rw [hw w k]; rfl), List.filter_eq_nil_iff.mpr (fun w k => by rw [hw w k]; exact Bool.false_ne_true),
    List.append_nil, landWrites_unraced _ _ _ hw, hfaults _ _ (fun e he => (h e he).1)]

/-! ### Clamps and divisions (R81, R82) -/

theorem intRange_le (signed : Bool) (n : Nat) : (intRange signed n).1 ≤ (intRange signed n).2 := by
  have h1 : 0 < 2 ^ (n - 1) := Nat.two_pow_pos _
  have h2 : 0 < 2 ^ n := Nat.two_pow_pos _
  unfold intRange
  cases signed
  · simp only [Bool.false_eq_true, if_false]; omega
  · simp only [if_true]; omega

/-- A clamp, with SAT where it changes the value. -/
theorem clampSat_eq {lo hi : Int} (h : lo ≤ hi) (x : Int) :
    clampSat lo hi x = (max lo (min hi x), if x < lo ∨ hi < x then fSAT else 0) := by
  have hc : clampInt lo hi x = max lo (min hi x) := by
    unfold clampInt
    split
    · omega
    · split <;> omega
  have hx : (max lo (min hi x) != x) = decide (x < lo ∨ hi < x) := by
    rw [Bool.eq_iff_iff, bne_iff_ne, decide_eq_true_iff]
    omega
  unfold clampSat flagIf
  rw [hc, hx]
  simp only [decide_eq_true_eq]

theorem divBits_eq (signed : Bool) (n : Nat) (a b : BitVec n) :
    divBits signed n a b = if b = 0 then (BitVec.allOnes n, fDZ) else (if signed then a.sdiv b else a / b, 0) := by
  have h : BitVec.ofInt n ((intOf signed n a).tdiv (intOf signed n b)) = if signed then a.sdiv b else a / b := by
    cases signed
    · rw [intOf, intOf, if_neg Bool.false_ne_true, if_neg Bool.false_ne_true, if_neg Bool.false_ne_true, ← Int.ofNat_tdiv, BitVec.ofInt_natCast]
      exact (BitVec.udiv_def ..).symm
    · rw [intOf, intOf, if_pos rfl, if_pos rfl, if_pos rfl]
      apply BitVec.eq_of_toInt_eq
      rw [BitVec.toInt_ofInt, BitVec.toInt_sdiv]
  unfold divBits
  rw [h]

theorem remBits_eq (signed : Bool) (n : Nat) (a b : BitVec n) :
    remBits signed n a b = if b = 0 then (a, fDZ) else (if signed then a.srem b else a % b, 0) := by
  have h : BitVec.ofInt n ((intOf signed n a).tmod (intOf signed n b)) = if signed then a.srem b else a % b := by
    cases signed
    · rw [intOf, intOf, if_neg Bool.false_ne_true, if_neg Bool.false_ne_true, if_neg Bool.false_ne_true, ← Int.ofNat_tmod, BitVec.ofInt_natCast]
      exact (BitVec.umod_def ..).symm
    · rw [intOf, intOf, if_pos rfl, if_pos rfl, if_pos rfl, ← BitVec.toInt_srem, BitVec.ofInt_toInt]
  unfold remBits
  rw [h]

/-- Settles O5: what settling leaves, then the words by their values in other words. -/
theorem divisionsComplete : Obligations.DivisionsComplete := by
  refine ⟨fun s h => settleAll_empty (by rw [h]; rfl), fun s hne hp => ?_, ?_, ?_, ?_⟩
  · obtain ⟨h1, h2, h3, h4⟩ := foldl_makeWrite_newest ((me s).pend.flatMap (·.writes)) { me s with pend := [] } rfl
    exact ⟨_, settleAll_clean hne hp, h1, h2, h3, h4⟩
  · refine writes_lanes_of _ (fun _ => rfl) (fun _ _ => rfl) (fun w s l => ?_)
    simp only [isatBits, clampSat_eq (intRange_le _ _)]
  · refine writesLater_congr (fun w s l => ?_) (writesLater_lanes (cl := .xu) rfl _ _ (fun _ => rfl) (fun _ _ => rfl))
    simp only [divBits_eq, atWidthF]
  · refine writesLater_congr (fun w s l => ?_) (writesLater_lanes (cl := .xu) rfl _ _ (fun _ => rfl) (fun _ _ => rfl))
    simp only [remBits_eq, atWidthF]

end Sys2Proof.Machine

end

section
/-! O12: the value of an FP32 code, and the one rounding of a value however it is written. -/

namespace Sys2Proof.Machine

set_option autoImplicit false
set_option Elab.async false

/-! ### FP32 codes (R31, R33) -/

/-- The value of an FP32 code. -/
theorem unpack_f32 (b : Nat) : f32.unpack b =
    let neg := b / 2 ^ 31 % 2 == 1
    let sg : Int := if neg then -1 else 1
    if b / 2 ^ 23 % 2 ^ 8 = 255 then (if b % 2 ^ 23 = 0 then .inf neg else .nan (decide (b % 2 ^ 23 < 2 ^ 22)))
    else if b / 2 ^ 23 % 2 ^ 8 = 0 then (if b % 2 ^ 23 = 0 then .zero neg else .fin (sg * (b % 2 ^ 23 : Nat)) (-149))
    else .fin (sg * ((2 ^ 23 + b % 2 ^ 23 : Nat) : Int)) ((b / 2 ^ 23 % 2 ^ 8 : Nat) - 127 - 23) := rfl

/-- A finite nonzero FP32 value has at most 24 significant bits and stands on the grid of 2^-149. -/
theorem unpack_fin_bounds {b : Nat} {m e : Int} (h : f32.unpack b = .fin m e) : m ≠ 0 ∧ m.natAbs < 2 ^ 24 ∧ -149 ≤ e := by
  rw [unpack_f32] at h
  dsimp only at h
  have hm : b % 2 ^ 23 < 2 ^ 23 := Nat.mod_lt _ (by decide)
  have hs : ((if (b / 2 ^ 31 % 2 == 1) = true then -1 else 1 : Int)).natAbs = 1 := by split <;> rfl
  have bounds {x : Nat} {y : Int} (hx : x ≠ 0) (hl : x < 2 ^ 24) (hy : -149 ≤ y)
      (h : FV.fin ((if (b / 2 ^ 31 % 2 == 1) = true then -1 else 1) * (x : Int)) y = .fin m e) : m ≠ 0 ∧ m.natAbs < 2 ^ 24 ∧ -149 ≤ e := by
    obtain ⟨rfl, rfl⟩ := FV.fin.inj h
    have : ((if (b / 2 ^ 31 % 2 == 1) = true then -1 else 1 : Int) * (x : Int)).natAbs = x := by
      rw [Int.natAbs_mul, hs, Nat.one_mul, Int.natAbs_natCast]
    exact ⟨fun e => hx (by rw [← this, e]; rfl), by rwa [this], hy⟩
  split at h
  · split at h <;> cases h
  · next h255 =>
    split at h
    · next h0 =>
      split at h
      · cases h
      · next hz => exact bounds hz (by omega) (by omega) h
    · next h0 => exact bounds (by omega) (by omega) (by omega) h

theorem unpack_nan {a : Word} (h : a.extractLsb' 23 8 = 0xFF ∧ a.extractLsb' 0 23 ≠ 0) : f32.unpack a.toNat = .nan (!a.getLsbD 22) := by
  obtain ⟨he, hm⟩ := h
  have he' : a.toNat / 2 ^ 23 % 2 ^ 8 = 255 := by simpa [Nat.shiftRight_eq_div_pow] using congrArg BitVec.toNat he
  have hm' : a.toNat % 2 ^ 23 ≠ 0 := fun e => hm (BitVec.eq_of_toNat_eq (by simpa using e))
  have hq : decide (a.toNat % 2 ^ 23 < 2 ^ 22) = !a.getLsbD 22 := by
    rw [BitVec.getLsbD, Nat.testBit_eq_decide_div_mod_eq, ← decide_not, decide_eq_decide]
    omega
  rw [unpack_f32]
  dsimp only
  rw [if_pos he', if_neg hm', hq]

theorem unpack_negative {a : Word} (h : a.msb = true) (hn : ¬ (a.extractLsb' 23 8 = 0xFF ∧ a.extractLsb' 0 23 ≠ 0)) (hz : a ≠ 0x80000000) :
    f32.unpack a.toNat = .inf true ∨ ∃ m e, f32.unpack a.toNat = .fin m e ∧ m < 0 := by
  have hs : (a.toNat / 2 ^ 31 % 2 == 1) = true := by
    rw [BitVec.msb_eq_getLsbD_last, BitVec.getLsbD, Nat.testBit_eq_decide_div_mod_eq] at h
    simpa using h
  have hlt := a.isLt
  rw [unpack_f32]
  dsimp only
  rw [hs]
  by_cases he : a.toNat / 2 ^ 23 % 2 ^ 8 = 255
  · have hm : a.toNat % 2 ^ 23 = 0 := by
      refine Classical.byContradiction fun hm => hn ⟨BitVec.eq_of_toNat_eq ?_, fun e => hm ?_⟩
      · simpa [Nat.shiftRight_eq_div_pow] using he
      · simpa using congrArg BitVec.toNat e
    rw [if_pos he, if_pos hm]
    exact .inl rfl
  · rw [if_neg he]
    right
    by_cases h0 : a.toNat / 2 ^ 23 % 2 ^ 8 = 0
    · have hm : a.toNat % 2 ^ 23 ≠ 0 := by
        intro hm
        refine hz (BitVec.eq_of_toNat_eq ?_)
        have := beq_iff_eq.mp hs
        show a.toNat = 2 ^ 31
        omega
      rw [if_pos h0, if_neg hm]
      exact ⟨_, _, rfl, by rw [if_pos rfl]; omega⟩
    · rw [if_neg h0]
      exact ⟨_, _, rfl, by rw [if_pos rfl]; omega⟩

/-! ### Rounding of scaled values (R32) -/

theorem bitLen_mul_two_pow {n : Nat} (h : n ≠ 0) (k : Nat) : bitLen (n * 2 ^ k) = bitLen n + k := by
  have hp : 0 < 2 ^ k := Nat.two_pow_pos k
  have key (j : Nat) : bitLen (n * 2 ^ k) ≤ j + k ↔ bitLen n ≤ j := by
    rw [bitLen_le_iff, bitLen_le_iff, Nat.pow_add]
    exact Nat.mul_lt_mul_right hp
  have hlow : ¬ bitLen (n * 2 ^ k) ≤ bitLen n - 1 + k := by
    rw [key]
    have := bitLen_pos h
    omega
  have hhigh := (key (bitLen n)).mpr (Nat.le_refl _)
  have := bitLen_pos h
  omega

theorem bitLen_two_pow (n : Nat) : bitLen (2 ^ n) = n + 1 := by
  have h := bitLen_mul_two_pow Nat.one_ne_zero n
  rw [Nat.one_mul] at h
  rw [h, Nat.add_comm]
  rfl

theorem roundShift_of_le {mode : RM} {neg : Bool} {n : Nat} {s : Int} (h : s ≤ 0) : roundShift mode neg n s = n * 2 ^ (-s).toNat := if_pos h

/-- A multiple of the unit is rounded to itself. -/
theorem roundShift_exact (mode : RM) (neg : Bool) {x : Nat} (hx : x ≠ 0) (p : Nat) : roundShift mode neg (x * 2 ^ p) p = x := by
  have hp : 0 < 2 ^ p := Nat.two_pow_pos p
  unfold roundShift
  split
  · next h =>
    have : p = 0 := by omega
    subst this
    simp
  · rw [if_neg (by rw [bitLen_mul_two_pow hx]; omega)]
    dsimp only
    rw [Int.toNat_natCast, Nat.mul_div_cancel _ hp, Nat.mul_mod_left]
    have hp' : (0 == 2 ^ p) = false := by rw [beq_eq_false_iff_ne]; exact Nat.ne_of_lt hp
    cases mode <;> simp [hp']

/-- A magnitude and its unit scaled alike round alike. -/
theorem roundShift_scale (mode : RM) (neg : Bool) {n : Nat} (hn : n ≠ 0) (s : Int) (k : Nat) :
    roundShift mode neg (n * 2 ^ k) (s + k) = roundShift mode neg n s := by
  have hk : 0 < 2 ^ k := Nat.two_pow_pos k
  by_cases hs : s ≤ 0
  · rw [roundShift_of_le hs]
    by_cases hsk : s + k ≤ 0
    · rw [roundShift_of_le hsk, Nat.mul_assoc, ← Nat.pow_add]
      congr 2; omega
    · have e : n * 2 ^ k = n * 2 ^ (-s).toNat * 2 ^ (s + k).toNat := by
        rw [Nat.mul_assoc, ← Nat.pow_add]
        congr 2; omega
      rw [e]
      conv => lhs; rw [← Int.toNat_of_nonneg (show 0 ≤ s + (k : Int) by omega)]
      rw [Int.toNat_natCast]
      exact roundShift_exact mode neg (Nat.mul_ne_zero hn (Nat.two_pow_pos _).ne') _
  · have hnk : (n * 2 ^ k != 0) = (n != 0) := by
      rw [bne_iff_ne.mpr hn, bne_iff_ne.mpr (Nat.mul_ne_zero hn hk.ne')]
    have hp : 2 ^ (s + k).toNat = 2 ^ s.toNat * 2 ^ k := by rw [← Nat.pow_add]; congr 1; omega
    have hlen : ((bitLen (n * 2 ^ k) : Int) + 1 < s + k) = ((bitLen n : Int) + 1 < s) := by
      rw [bitLen_mul_two_pow hn, eq_iff_iff]; push_cast; omega
    unfold roundShift
    rw [if_neg hs, if_neg (show ¬ s + (k : Int) ≤ 0 by omega)]
    dsimp only
    rw [hp, Nat.mul_div_mul_right _ _ hk, Nat.mul_mod_mul_right, hnk]
    simp only [hlen]
    generalize n % 2 ^ s.toNat = r
    generalize n / 2 ^ s.toNat = q
    generalize 2 ^ s.toNat = p
    have h1 : (decide (p * 2 ^ k < 2 * (r * 2 ^ k))) = decide (p < 2 * r) := by
      rw [decide_eq_decide, ← Nat.mul_assoc]; exact Nat.mul_lt_mul_right hk
    have h2 : (2 * (r * 2 ^ k) == p * 2 ^ k) = (2 * r == p) := by
      rw [Bool.eq_iff_iff, beq_iff_eq, beq_iff_eq, ← Nat.mul_assoc]; exact Nat.mul_left_inj hk.ne'
    have h3 : (r * 2 ^ k != 0) = (r != 0) := by
      rw [Bool.eq_iff_iff, bne_iff_ne, bne_iff_ne]
      exact not_congr (by rw [Nat.mul_eq_zero]; simp)
    cases mode <;> simp only [h1, h2, h3]

/-- A value does not depend on how it is written: m * 2^k times 2^e rounds as m times 2^(e+k). -/
theorem pack_scale (f : Fmt) (mode : RM) (sat : Bool) {m : Int} (hm : m ≠ 0) (e : Int) (k : Nat) :
    f.pack mode sat (.fin (m * 2 ^ k) e) = f.pack mode sat (.fin m (e + k)) := by
  have hn : m.natAbs ≠ 0 := Int.natAbs_ne_zero.mpr hm
  have habs : (m * 2 ^ k).natAbs = m.natAbs * 2 ^ k := by
    rw [Int.natAbs_mul, Int.natAbs_pow]; rfl
  have hneg : (m * 2 ^ k < 0) = (m < 0) := by
    have : (0 : Int) < 2 ^ k := Int.pow_pos (by decide)
    exact propext ⟨fun h => (pos_iff_neg_of_mul_neg (by rwa [Int.mul_comm] at h)).mp this, fun h => Int.mul_neg_of_neg_of_pos h this⟩
  unfold Fmt.pack
  dsimp only
  rw [habs, bitLen_mul_two_pow hn]
  have hq : ((bitLen m.natAbs + k : Nat) : Int) - 1 + e = (bitLen m.natAbs : Int) - 1 + (e + k) := by push_cast; omega
  rw [hq]
  generalize max ((bitLen m.natAbs : Int) - 1 + (e + k)) (1 - (f.bias : Int)) - f.mb = q
  have hr : roundShift mode (decide (m < 0)) (m.natAbs * 2 ^ k) (q - e) = roundShift mode (decide (m < 0)) m.natAbs (q - (e + k)) := by
    rw [← roundShift_scale mode (decide (m < 0)) hn (q - (e + k)) k, show q - (e + k) + k = q - e by omega]
  simp only [hneg, hr]

end Sys2Proof.Machine

end

section
/-! O12: RCP, RSQ and LOG2. Powers of two and of four are exact; elsewhere the checks of the device's bits are the bounds of R94. -/

namespace Sys2Proof.Machine

set_option autoImplicit false
set_option Elab.async false

/-! ### Quotients and roots of powers of two -/

/-- The FP32 code of a value, rounded to nearest. -/
def nearestCode (v : FV) : Word := BitVec.ofNat 32 (f32.pack .rne false v).1

theorem nearestCode_scale {m : Int} (hm : m ≠ 0) (e : Int) (k : Nat) : nearestCode (.fin (m * 2 ^ k) e) = nearestCode (.fin m (e + k)) :=
  congrArg (fun p : Nat × Flags => BitVec.ofNat 32 p.1) (pack_scale f32 .rne false hm e k)

/-- The reciprocal of a power of two is exact. -/
theorem divSticky_two_pow {bits n : Nat} {m : Int} (h : m.natAbs = 2 ^ n) (e : Int) :
    divSticky bits 1 0 m e = .fin ((if m < 0 then -1 else 1) * 2 ^ (bits + 1)) (-(n + e) - (bits + 1 : Nat)) := by
  have hk : bits + bitLen m.natAbs - bitLen (1 : Int).natAbs = bits + n := by
    rw [h, bitLen_two_pow, show bitLen (1 : Int).natAbs = 1 from rfl]
    omega
  have hq : (1 : Int).natAbs * 2 ^ (bits + n) = 2 ^ bits * 2 ^ n := by
    rw [Int.natAbs_one, Nat.one_mul, Nat.pow_add]
  unfold divSticky
  dsimp only
  rw [hk, hq, h, Nat.mul_div_cancel _ (Nat.two_pow_pos n), Nat.mul_mod_left, if_pos rfl]
  congr 1
  · by_cases hm : m < 0 <;> simp [hm, Int.pow_succ, Int.mul_comm]
  · push_cast; omega

theorem isqrt_two_pow_70 : isqrt (2 ^ 70) = 2 ^ 35 := by decide +kernel

/-- The root of a power of four is exact. -/
theorem sqrtSticky_four_pow {n : Nat} (hn : n < 24) {e k : Int} (h : n + e = 2 * k) : sqrtSticky 34 (2 ^ n) e = .fin (2 ^ 36) (k - 36) := by
  have hodd : ¬ (e - ((69 - n : Nat) : Int)) % 2 = 0 := by omega
  have hx : 2 ^ n * 2 ^ (69 - n + 1) = 2 ^ 70 := by rw [← Nat.pow_add]; congr 1; omega
  unfold sqrtSticky
  dsimp only
  rw [bitLen_two_pow, show 2 * 34 + 2 - (n + 1) = 69 - n by omega, if_neg hodd, hx, isqrt_two_pow_70, if_pos (by decide)]
  congr 1
  omega

/-! ### Values that R94 lists: powers of two and of four -/

theorem eq_bitLen_pow {x n : Nat} (h : x = 2 ^ n) : x = 2 ^ (bitLen x - 1) := by
  rw [h, bitLen_two_pow, Nat.add_sub_cancel]

theorem log2Result_two_pow {a : Word} {m e : Int} {n : Nat} (h : f32.unpack a.toNat = .fin m e) (hm : m = 2 ^ n) :
    log2Result a = (nearestCode (.ofInt (n + e)), 0) := by
  have habs : m.natAbs = 2 ^ n := by rw [hm, Int.natAbs_pow]; rfl
  have hpos : ¬ m < 0 := by have : (0 : Int) < 2 ^ n := Int.pow_pos (by decide); omega
  unfold log2Result
  rw [h]
  dsimp only
  rw [if_neg hpos, if_pos (eq_bitLen_pow habs), habs, bitLen_two_pow]
  unfold nearestCode
  rw [show ((n + 1 : Nat) : Int) - 1 + e = n + e by push_cast; omega]

theorem rcpResult_two_pow {a : Word} {m e : Int} {n : Nat} (h : f32.unpack a.toNat = .fin m e) (hm : m.natAbs = 2 ^ n) :
    rcpResult a = (nearestCode (.fin (if m < 0 then -1 else 1) (-(n + e))), 0) := by
  unfold rcpResult
  rw [h]
  dsimp only
  rw [decide_eq_true (eq_bitLen_pow hm), Bool.true_or, if_pos rfl, divSticky_two_pow hm]
  have hs : (if m < 0 then -1 else 1 : Int) ≠ 0 := by split <;> decide
  refine congrArg (·, 0) ((nearestCode_scale hs _ _).trans ?_)
  rw [Int.sub_add_cancel]

theorem rsqResult_four_pow {a : Word} {m e k : Int} {n : Nat} (h : f32.unpack a.toNat = .fin m e) (hm : m = 2 ^ n) (hk : n + e = 2 * k) :
    rsqResult a = (nearestCode (.fin 1 (-k)), 0) := by
  have habs : m.natAbs = 2 ^ n := by rw [hm, Int.natAbs_pow]; rfl
  have hpos : ¬ m < 0 := by have : (0 : Int) < 2 ^ n := Int.pow_pos (by decide); omega
  have hn : n < 24 := by
    have := (unpack_fin_bounds h).2.1
    rw [habs] at this
    exact (Nat.pow_lt_pow_iff_right (by decide)).mp this
  have heven : (e + bitLen m.natAbs - 1) % 2 = 0 := by rw [habs, bitLen_two_pow]; push_cast; omega
  unfold rsqResult
  rw [h]
  dsimp only
  rw [if_neg hpos, decide_eq_true (eq_bitLen_pow habs), decide_eq_true heven, Bool.and_true, Bool.true_or, if_pos rfl, habs,
    sqrtSticky_four_pow hn hk]
  dsimp only
  rw [divSticky_two_pow (n := 36) rfl]
  refine congrArg (·, 0) ((nearestCode_scale (by decide) _ _).trans ?_)
  rw [if_neg (by decide)]
  congr 2
  omega

/-! ### The bounds of RCP and RSQ as rational numbers -/

theorem two_pow_toNat {x : Int} (h : 0 ≤ x) : (2 : Rat) ^ x.toNat = 2 ^ x := by
  rw [← zpow_natCast, Int.toNat_of_nonneg h]

theorem two_zpow_pos (x : Int) : (0 : Rat) < 2 ^ x := zpow_pos (by norm_num) x

theorem two_zpow_add (x y : Int) : (2 : Rat) ^ (x + y) = 2 ^ x * 2 ^ y := zpow_add₀ (by norm_num) x y

/-- The check of a reciprocal, in units of 2^-k, is its bound. -/
theorem rcpWithin_bound {cm ce m e u : Int} (h : rcpWithin cm ce m e u = true) :
    |(cm : Rat) * 2 ^ ce * (m * 2 ^ e) - 1| ≤ |(m : Rat) * 2 ^ e| * 2 ^ u := by
  unfold rcpWithin at h
  dsimp only at h
  generalize hk : (max 0 (max (-(ce + e)) (-(u + e)))).toNat = k at h
  have h1 : 0 ≤ ce + e + k := by omega
  have h2 : 0 ≤ u + e + k := by omega
  have hq : (((cm * m * 2 ^ (ce + e + k).toNat - 2 ^ k).natAbs : Nat) : Rat) ≤ ((m.natAbs * 2 ^ (u + e + k).toNat : Nat) : Rat) :=
    Nat.cast_le.mpr (of_decide_eq_true h)
  rw [Nat.cast_natAbs, Nat.cast_mul, Nat.cast_natAbs, Nat.cast_pow, Int.cast_abs, Int.cast_abs, Int.cast_sub, Int.cast_mul, Int.cast_mul,
    Int.cast_pow, Int.cast_pow] at hq
  push_cast at hq
  rw [two_pow_toNat h1, two_pow_toNat h2, ← zpow_natCast, two_zpow_add, two_zpow_add, two_zpow_add (u + e), two_zpow_add u] at hq
  have hp := two_zpow_pos k
  have hl : (cm : Rat) * m * (2 ^ ce * 2 ^ e * 2 ^ (k : Int)) - 2 ^ (k : Int) = (cm * 2 ^ ce * (m * 2 ^ e) - 1) * 2 ^ (k : Int) := by ring
  rw [hl, abs_mul, abs_of_pos hp] at hq
  rw [abs_mul (m : Rat), abs_of_pos (two_zpow_pos e)]
  refine le_of_mul_le_mul_right (hq.trans_eq ?_) hp
  ring

/-- The check of a reciprocal root, in units of a power of two, is its bound. -/
theorem rsqWithin_bound {cm ce m e u k : Int} (h : rsqWithin cm ce m e u k = true) :
    (((cm : Rat) * 2 ^ ce - k * 2 ^ u ≤ 0) ∨ ((cm : Rat) * 2 ^ ce - k * 2 ^ u) ^ 2 * (m * 2 ^ e) ≤ 1) ∧
      1 ≤ ((cm : Rat) * 2 ^ ce + k * 2 ^ u) ^ 2 * (m * 2 ^ e) ∧ 0 < (cm : Rat) * 2 ^ ce + k * 2 ^ u := by
  unfold rsqWithin at h
  dsimp only at h
  generalize hv : min ce u = v at h
  generalize hs : (max 0 (-(2 * v + e))).toNat = s at h
  generalize hc : cm * 2 ^ (ce - v).toNat = c at h
  generalize hd : k * 2 ^ (u - v).toNat = d at h
  have hcv : (cm : Rat) * 2 ^ ce = c * 2 ^ v := by
    rw [← hc, Int.cast_mul, Int.cast_pow, Int.cast_ofNat, two_pow_toNat (by omega), mul_assoc, ← two_zpow_add, Int.sub_add_cancel]
  have hdv : (k : Rat) * 2 ^ u = d * 2 ^ v := by
    rw [← hd, Int.cast_mul, Int.cast_pow, Int.cast_ofNat, two_pow_toNat (by omega), mul_assoc, ← two_zpow_add, Int.sub_add_cancel]
  have hvp := two_zpow_pos v
  have hsp := two_zpow_pos s
  -- a square in units of 2^v, times the operand, in units of 2^-s
  have square (x : Int) : ((x : Rat) * 2 ^ v) ^ 2 * (m * 2 ^ e) * 2 ^ (s : Int) = ((x * x * m * 2 ^ (2 * v + e + s).toNat : Int) : Rat) := by
    rw [Int.cast_mul, Int.cast_mul, Int.cast_mul, Int.cast_pow, Int.cast_ofNat, two_pow_toNat (by omega), two_zpow_add, two_zpow_add, two_mul,
      two_zpow_add]
    ring
  have one : (1 : Rat) * 2 ^ (s : Int) = ((2 ^ s : Int) : Rat) := by push_cast; rw [one_mul, zpow_natCast]
  rw [hcv, hdv, ← sub_mul, ← add_mul, ← Int.cast_sub, ← Int.cast_add]
  simp only [Bool.and_eq_true, Bool.or_eq_true, decide_eq_true_eq] at h
  obtain ⟨⟨hlo, hhi⟩, hpos⟩ := h
  refine ⟨hlo.imp (fun h0 => ?_) (fun h1 => ?_), ?_, ?_⟩
  · exact mul_nonpos_of_nonpos_of_nonneg (Int.cast_nonpos.mpr h0) hvp.le
  · refine le_of_mul_le_mul_right ?_ hsp
    rw [square, one]
    exact Int.cast_le.mpr h1
  · refine le_of_mul_le_mul_right ?_ hsp
    rw [square, one]
    exact Int.cast_le.mpr hhi
  · exact mul_pos (Int.cast_pos.mpr hpos) hvp

/-- The exact result, or the device's bits where they meet the check. -/
theorem pick_cases (exact ok : Bool) (r c : Word) :
    (if exact || !ok then r else c) = r ∨ ok = true ∧ (if exact || !ok then r else c) = c := by
  cases exact <;> cases ok <;> simp

theorem rcpResult_bound {a : Word} {m e : Int} (h : f32.unpack a.toNat = .fin m e) : (rcpResult a).2 = 0 ∧
    ((rcpResult a).1 = nearestCode (divSticky 30 1 0 m e) ∨ ∃ cm ce, candidate (rcpResult a).1 = some (cm, ce) ∧
      |(cm : Rat) * 2 ^ ce * (m * 2 ^ e) - 1| ≤ |(m : Rat) * 2 ^ e| * 2 ^ (ulpExp (divSticky 30 1 0 m e).exp2of)) := by
  unfold rcpResult
  rw [h]
  dsimp only
  refine ⟨rfl, (pick_cases ..).imp_right ?_⟩
  rintro ⟨hok, hc⟩
  rw [hc]
  cases hcand : candidate (Config.rcpBits a) with
  | none => rw [hcand] at hok; cases hok
  | some p =>
    rw [hcand] at hok
    exact ⟨p.1, p.2, rfl, rcpWithin_bound hok⟩

theorem rsqResult_bound {a : Word} {m e rm re : Int} (h : f32.unpack a.toNat = .fin m e) (hm : 0 < m)
    (hr : sqrtSticky 34 m.natAbs e = .fin rm re) :
    let u : Rat := 2 * 2 ^ (ulpExp (divSticky 34 1 0 rm re).exp2of)
    (rsqResult a).2 = 0 ∧ ((rsqResult a).1 = nearestCode (divSticky 34 1 0 rm re) ∨ ∃ cm ce, candidate (rsqResult a).1 = some (cm, ce) ∧
      (((cm : Rat) * 2 ^ ce - u ≤ 0) ∨ ((cm : Rat) * 2 ^ ce - u) ^ 2 * (m * 2 ^ e) ≤ 1) ∧
      1 ≤ ((cm : Rat) * 2 ^ ce + u) ^ 2 * (m * 2 ^ e) ∧ 0 < (cm : Rat) * 2 ^ ce + u) := by
  unfold rsqResult
  rw [h]
  dsimp only
  rw [if_neg (by omega), hr]
  dsimp only
  refine ⟨rfl, (pick_cases ..).imp_right ?_⟩
  rintro ⟨hok, hc⟩
  rw [hc]
  cases hcand : candidate (Config.rsqBits a) with
  | none => rw [hcand] at hok; cases hok
  | some p =>
    rw [hcand] at hok
    exact ⟨p.1, p.2, rfl, by exact_mod_cast rsqWithin_bound (cm := p.1) (ce := p.2) hok⟩

/-! ### Results within a bracket -/

/-- A code is the nearest one to a fixed-point value, or within a bound of every value of a bracket. -/
def nearBracket (k : Nat) (mid lo hi bound : Int) (c : Word) : Prop :=
  c = f32OfFixed k mid ∨ ∃ x, f32Fixed k c.toNat = some x ∧ hi - bound ≤ x ∧ x ≤ lo + bound

theorem nearBracket_pick (k : Nat) (mid lo hi bound : Int) (c : Word) :
    nearBracket k mid lo hi bound (if candOk k c lo hi bound then c else f32OfFixed k mid) := by
  split
  · next h =>
    unfold candOk at h
    split at h
    · cases h
    · next x hx =>
      unfold surelyWithin at h
      rw [Bool.and_eq_true, decide_eq_true_eq, decide_eq_true_eq] at h
      exact .inr ⟨x, hx, h⟩
  · exact .inl rfl

/-- UNF where a nonzero result came back as zero. -/
theorem unfIf_true (r : Word) : unfIf true r = (r, if r.toNat % 2 ^ 31 = 0 then fUNF else 0) := by
  unfold unfIf flagIf
  simp only [Bool.true_and, decide_eq_true_eq]

/-- Bits of the device within a bracket, or else the nearest code. -/
theorem unfIf_pick_near (k : Nat) (mid lo hi bound : Int) (c : Word) :
    let r := unfIf true (if candOk k c lo hi bound then c else f32OfFixed k mid)
    nearBracket k mid lo hi bound r.1 ∧ r.2 = if r.1.toNat % 2 ^ 31 = 0 then fUNF else 0 := by
  rw [unfIf_true]
  exact ⟨nearBracket_pick .., rfl⟩

/-- The bound of LOG2 in units of 2^-160: absolute from 1/2 to 2, and relative elsewhere. -/
def log2Bound (m e : Int) : Int :=
  if (bitLen m.natAbs : Int) - 1 + e = -1 ∨ (bitLen m.natAbs : Int) - 1 + e = 0 then 2 ^ 138
  else min |(log2Bracket m.natAbs e).1| |(log2Bracket m.natAbs e).2| / 2 ^ 22

theorem log2Result_bracket {a : Word} {m e : Int} (h : f32.unpack a.toNat = .fin m e) (hm : 0 < m) (hp : ∀ n : Nat, m ≠ 2 ^ n) :
    log2Result a = unfIf true (if candOk 160 (Config.log2Bits a) (log2Bracket m.natAbs e).1 (log2Bracket m.natAbs e).2 (log2Bound m e)
      then Config.log2Bits a else f32OfFixed 160 (log2Bracket m.natAbs e).1) := by
  have hpow : ¬ m.natAbs = 2 ^ (bitLen m.natAbs - 1) := by
    intro hn
    refine hp (bitLen m.natAbs - 1) ?_
    have := Int.natAbs_of_nonneg hm.le
    rw [hn] at this
    exact_mod_cast this.symm
  have hneg : ¬ m < 0 := by omega
  unfold log2Result log2Bound
  rw [h]
  dsimp only
  rw [if_neg hneg, if_neg hpow, Nat.cast_min, Int.natCast_natAbs, Int.natCast_natAbs]
  simp only [Bool.or_eq_true, decide_eq_true_eq]

theorem log2Result_near {a : Word} {m e : Int} (h : f32.unpack a.toNat = .fin m e) (hm : 0 < m) (hp : ∀ n : Nat, m ≠ 2 ^ n) :
    nearBracket 160 (log2Bracket m.natAbs e).1 (log2Bracket m.natAbs e).1 (log2Bracket m.natAbs e).2 (log2Bound m e) (log2Result a).1 ∧
      (log2Result a).2 = if (log2Result a).1.toNat % 2 ^ 31 = 0 then fUNF else 0 := by
  rw [log2Result_bracket h hm hp]
  exact unfIf_pick_near ..

end Sys2Proof.Machine

end

section
/-! O12: SINP, COSP and TANH by where the operand lies on the grid of FP32. -/

namespace Sys2Proof.Machine

set_option autoImplicit false
set_option Elab.async false

/-! ### Integers and halves (R94) -/

/-- The value m * 2^e is an integer. -/
def wholeValue (m e : Int) : Prop := 0 ≤ e ∨ m % 2 ^ (-e).toNat = 0
/-- It is an odd number of halves. -/
def halfValue (m e : Int) : Prop := ¬ wholeValue m e ∧ 2 * m % 2 ^ (-e).toNat = 0
/-- The greatest integer below it is even. -/
def evenFloor (m e : Int) : Prop := (if 0 ≤ e then m * 2 ^ e.toNat else m / 2 ^ (-e).toNat) % 2 = 0

/-- A magnitude on the grid of 2^-150, with its integer part. -/
theorem grid_split {e : Int} (he : -149 ≤ e) (hneg : ¬ 0 ≤ e) (n : Nat) :
    n * 2 ^ (e + 150).toNat % 2 ^ 150 = n % 2 ^ (-e).toNat * 2 ^ (e + 150).toNat ∧
      n * 2 ^ (e + 150).toNat / 2 ^ 150 = n / 2 ^ (-e).toNat ∧ 2 ^ 150 = 2 ^ (-e).toNat * 2 ^ (e + 150).toNat := by
  have h : 2 ^ 150 = 2 ^ (-e).toNat * 2 ^ (e + 150).toNat := by rw [← Nat.pow_add]; congr 1; omega
  refine ⟨?_, ?_, h⟩
  · rw [h, Nat.mul_mod_mul_right]
  · rw [h, Nat.mul_div_mul_right _ _ (Nat.two_pow_pos _)]

theorem grid_whole {e : Int} (h : 0 ≤ e) (n : Nat) : n * 2 ^ (e + 150).toNat = n * 2 ^ e.toNat * 2 ^ 150 := by
  rw [Nat.mul_assoc, ← Nat.pow_add]
  congr 2
  omega

theorem emod_two_pow_eq_zero (m : Int) (j : Nat) : m % 2 ^ j = 0 ↔ m.natAbs % 2 ^ j = 0 := by
  rw [← Int.dvd_iff_emod_eq_zero, ← Nat.dvd_iff_mod_eq_zero, ← Int.natAbs_dvd_natAbs, Int.natAbs_pow]
  rfl

theorem fracOf_eq_zero_iff {m e : Int} (he : -149 ≤ e) : fracOf m e = 0 ↔ wholeValue m e := by
  unfold fracOf wholeValue
  by_cases h : 0 ≤ e
  · rw [grid_whole h, Nat.mul_mod_left]
    exact ⟨fun _ => .inl h, fun _ => rfl⟩
  · rw [(grid_split he h _).1, Nat.mul_eq_zero, emod_two_pow_eq_zero]
    simp [h]

theorem eq_half_iff {r p : Nat} (h : r < 2 * p) : r = p ↔ r ≠ 0 ∧ r % p = 0 := by
  constructor
  · rintro rfl
    exact ⟨by omega, Nat.mod_self _⟩
  · rintro ⟨h0, hm⟩
    by_cases hlt : r < p
    · rw [Nat.mod_eq_of_lt hlt] at hm
      exact absurd hm h0
    · rw [Nat.mod_eq_sub_mod (by omega), Nat.mod_eq_of_lt (by omega)] at hm
      omega

theorem fracOf_eq_half_iff {m e : Int} (he : -149 ≤ e) : fracOf m e = 2 ^ 149 ↔ halfValue m e := by
  by_cases h : 0 ≤ e
  · have hw : wholeValue m e := .inl h
    rw [(fracOf_eq_zero_iff he).mpr hw]
    exact ⟨fun h => absurd h (by decide), fun h => absurd hw h.1⟩
  · have hj : 2 ^ (-e).toNat = 2 * 2 ^ ((-e).toNat - 1) := by rw [← Nat.pow_succ']; congr 1; omega
    have h149 : 2 ^ 149 = 2 ^ ((-e).toNat - 1) * 2 ^ (e + 150).toNat := by rw [← Nat.pow_add]; congr 1; omega
    have hlt : m.natAbs % 2 ^ (-e).toNat < 2 * 2 ^ ((-e).toNat - 1) := hj ▸ Nat.mod_lt _ (Nat.two_pow_pos _)
    have hdouble : (2 * m) % 2 ^ (-e).toNat = 0 ↔ m.natAbs % 2 ^ (-e).toNat % 2 ^ ((-e).toNat - 1) = 0 := by
      rw [emod_two_pow_eq_zero, Int.natAbs_mul, hj, Nat.mod_mul_left_mod, show (2 : Int).natAbs = 2 from rfl, Nat.mul_mod_mul_left]
      omega
    have hwhole : ¬ wholeValue m e ↔ m.natAbs % 2 ^ (-e).toNat ≠ 0 := by
      unfold wholeValue
      rw [emod_two_pow_eq_zero, not_or]
      exact ⟨fun h => h.2, fun k => ⟨h, k⟩⟩
    unfold halfValue fracOf
    rw [(grid_split he h _).1, h149, Nat.mul_left_inj (Nat.two_pow_pos _).ne', hwhole, hdouble]
    exact eq_half_iff hlt

/-- The integer part of a magnitude that is an integer is odd as the value's. -/
theorem oddOf_of_whole {m e : Int} (he : -149 ≤ e) (h : wholeValue m e) : oddOf m e = true ↔ ¬ evenFloor m e := by
  unfold oddOf evenFloor
  rw [beq_iff_eq]
  by_cases h0 : 0 ≤ e
  · rw [grid_whole h0, Nat.mul_div_cancel _ (Nat.two_pow_pos _), if_pos h0]
    have : (m * 2 ^ e.toNat).natAbs = m.natAbs * 2 ^ e.toNat := by rw [Int.natAbs_mul, Int.natAbs_pow]; rfl
    omega
  · rw [(grid_split he h0 _).2.1, if_neg h0]
    obtain ⟨q, hq⟩ := Int.dvd_of_emod_eq_zero (h.resolve_left h0)
    have hp : (2 : Int) ^ (-e).toNat ≠ 0 := (Int.pow_pos (by decide)).ne'
    have habs : m.natAbs / 2 ^ (-e).toNat = q.natAbs := by
      rw [hq, Int.natAbs_mul, Int.natAbs_pow]
      exact Nat.mul_div_cancel_left _ (Nat.two_pow_pos _)
    rw [habs, hq, Int.mul_ediv_cancel_left _ hp]
    omega

/-- A negative quotient that is not an integer lies below the negated quotient of the magnitudes. -/
theorem ediv_of_neg {m : Int} {p : Nat} (hp : 0 < p) (hm : m < 0) (hr : m.natAbs % p ≠ 0) : m / p = -((m.natAbs / p : Nat) : Int) - 1 := by
  have hlt := Nat.mod_lt m.natAbs hp
  have hsplit := Nat.div_add_mod m.natAbs p
  generalize m.natAbs % p = r at *
  generalize hq : m.natAbs / p = q at *
  have hm' : m = ((p : Int) - r) + p * (-(q : Int) - 1) := by
    have : (m.natAbs : Int) = p * q + r := by rw [← hsplit]; push_cast; rfl
    rw [Int.mul_sub, Int.mul_neg]
    omega
  rw [hm', Int.add_mul_ediv_left _ _ (by omega), Int.ediv_eq_zero_of_lt (by omega) (by omega), Int.zero_add]

/-- The integer part of a magnitude that is not an integer is odd as the greatest integer below the value, or for a negative one not. -/
theorem oddOf_of_not_whole {m e : Int} (he : -149 ≤ e) (h : ¬ wholeValue m e) : (oddOf m e != decide (m < 0)) = true ↔ ¬ evenFloor m e := by
  obtain ⟨h0, hm⟩ := not_or.mp h
  rw [emod_two_pow_eq_zero] at hm
  have hcast : (2 : Int) ^ (-e).toNat = ((2 ^ (-e).toNat : Nat) : Int) := by push_cast; rfl
  unfold oddOf evenFloor
  rw [(grid_split he h0 _).2.1, if_neg h0, hcast]
  by_cases hneg : m < 0
  · rw [ediv_of_neg (Nat.two_pow_pos _) hneg hm, decide_eq_true hneg]
    generalize m.natAbs / 2 ^ (-e).toNat = q
    rw [bne_iff_ne, ne_eq, Bool.not_eq_true, beq_eq_false_iff_ne]
    omega
  · have hdiv : m / ((2 ^ (-e).toNat : Nat) : Int) = ((m.natAbs / 2 ^ (-e).toNat : Nat) : Int) := by
      rw [Int.natCast_ediv, Int.natAbs_of_nonneg (by omega)]
    rw [hdiv, decide_eq_false hneg]
    generalize m.natAbs / 2 ^ (-e).toNat = q
    rw [Bool.bne_false, beq_iff_eq]
    omega

/-! ### SINP and COSP -/

theorem sinpResult_fin {a : Word} {m e : Int} (h : f32.unpack a.toNat = .fin m e) : sinpResult a =
    if fracOf m e = 0 then (if m < 0 then 0x80000000 else 0, 0)
    else if fracOf m e = 2 ^ 149 then (if oddOf m e != decide (m < 0) then 0xBF800000 else 0x3F800000, 0)
    else trigPick (Config.sinpBits a) (sinPi m e) := by
  unfold sinpResult
  rw [h]

theorem cospResult_fin {a : Word} {m e : Int} (h : f32.unpack a.toNat = .fin m e) : cospResult a =
    if fracOf m e = 0 then (if oddOf m e then 0xBF800000 else 0x3F800000, 0)
    else if fracOf m e = 2 ^ 149 then (0, 0)
    else
      let y : Nat := fracOf m e
      let far : Bool := decide (2 ^ 149 < y)
      let v := cosPiFixed (((if far then 2 ^ 150 - y else y : Nat) : Int) * 2 ^ 106)
      trigPick (Config.cospBits a) (if far != oddOf m e then -v else v) := by
  unfold cospResult
  rw [h]
  simp only [decide_eq_true_eq]

section Trig

variable {a : Word} {m e : Int} (h : f32.unpack a.toNat = .fin m e)
include h

theorem sinpResult_whole (hw : wholeValue m e) : sinpResult a = (if m < 0 then 0x80000000 else 0, 0) := by
  rw [sinpResult_fin h, if_pos ((fracOf_eq_zero_iff (unpack_fin_bounds h).2.2).mpr hw)]

theorem cospResult_whole (hw : wholeValue m e) :
    (evenFloor m e → cospResult a = (0x3F800000, 0)) ∧ (¬ evenFloor m e → cospResult a = (0xBF800000, 0)) := by
  have he := (unpack_fin_bounds h).2.2
  have ho := oddOf_of_whole he hw
  rw [cospResult_fin h, if_pos ((fracOf_eq_zero_iff he).mpr hw)]
  exact ⟨fun k => by rw [if_neg (fun x => ho.mp x k)], fun k => by rw [if_pos (ho.mpr k)]⟩

theorem fracOf_of_half (hh : halfValue m e) : fracOf m e ≠ 0 ∧ fracOf m e = 2 ^ 149 := by
  have hf := (fracOf_eq_half_iff (unpack_fin_bounds h).2.2).mpr hh
  exact ⟨by rw [hf]; decide, hf⟩

theorem sinpResult_half (hh : halfValue m e) :
    (evenFloor m e → sinpResult a = (0x3F800000, 0)) ∧ (¬ evenFloor m e → sinpResult a = (0xBF800000, 0)) := by
  obtain ⟨h0, hf⟩ := fracOf_of_half h hh
  have ho := oddOf_of_not_whole (unpack_fin_bounds h).2.2 hh.1
  rw [sinpResult_fin h, if_neg h0, if_pos hf]
  exact ⟨fun k => by rw [if_neg (fun x => ho.mp x k)], fun k => by rw [if_pos (ho.mpr k)]⟩

theorem cospResult_half (hh : halfValue m e) : cospResult a = (0, 0) := by
  obtain ⟨h0, hf⟩ := fracOf_of_half h hh
  rw [cospResult_fin h, if_neg h0, if_pos hf]

theorem fracOf_of_other (hw : ¬ wholeValue m e) (hh : ¬ halfValue m e) : fracOf m e ≠ 0 ∧ fracOf m e ≠ 2 ^ 149 := by
  have he := (unpack_fin_bounds h).2.2
  exact ⟨fun k => hw ((fracOf_eq_zero_iff he).mp k), fun k => hh ((fracOf_eq_half_iff he).mp k)⟩

theorem sinpResult_near (hw : ¬ wholeValue m e) (hh : ¬ halfValue m e) :
    nearBracket 256 (sinPi m e) (sinPi m e - 2 ^ 16) (sinPi m e + 2 ^ 16) (2 ^ 234) (sinpResult a).1 ∧
      (sinpResult a).2 = if (sinpResult a).1.toNat % 2 ^ 31 = 0 then fUNF else 0 := by
  obtain ⟨h0, hf⟩ := fracOf_of_other h hw hh
  rw [sinpResult_fin h, if_neg h0, if_neg hf]
  exact unfIf_pick_near ..

theorem cospResult_near (hw : ¬ wholeValue m e) (hh : ¬ halfValue m e) :
    (let y : Nat := fracOf m e
     let far : Bool := decide (2 ^ 149 < y)
     let v := cosPiFixed (((if far then 2 ^ 150 - y else y : Nat) : Int) * 2 ^ 106)
     let x := if far != oddOf m e then -v else v
     nearBracket 256 x (x - 2 ^ 16) (x + 2 ^ 16) (2 ^ 234) (cospResult a).1) ∧
      (cospResult a).2 = if (cospResult a).1.toNat % 2 ^ 31 = 0 then fUNF else 0 := by
  obtain ⟨h0, hf⟩ := fracOf_of_other h hw hh
  rw [cospResult_fin h, if_neg h0, if_neg hf]
  exact unfIf_pick_near ..

end Trig

/-! ### TANH -/

/-- The exponent of a value by its magnitude on the grid of 2^-149. -/
theorem exp2of_lt_iff {m e : Int} (hm : m ≠ 0) (he : -149 ≤ e) (k : Int) (hk : -149 ≤ k) :
    (FV.fin m e).exp2of < k ↔ m.natAbs * 2 ^ (e + 149).toNat < 2 ^ (k + 149).toNat := by
  rw [← bitLen_le_iff, bitLen_mul_two_pow (Int.natAbs_ne_zero.mpr hm)]
  unfold FV.exp2of
  dsimp only
  omega

/-- The comparison with 9.01 by the magnitude on the grid of 2^-149. -/
theorem large_iff {e : Int} (he : -149 ≤ e) (n : Nat) :
    901 * 2 ^ (-e).toNat ≤ 100 * n * 2 ^ e.toNat ↔ 901 * 2 ^ 149 ≤ 100 * n * 2 ^ (e + 149).toNat := by
  by_cases h : 0 ≤ e
  · have h0 : (-e).toNat = 0 := by omega
    have hp : 2 ^ (e + 149).toNat = 2 ^ e.toNat * 2 ^ 149 := by rw [← Nat.pow_add]; congr 1; omega
    rw [h0, hp, ← Nat.mul_assoc, Nat.mul_le_mul_right_iff (Nat.two_pow_pos _), Nat.pow_zero, Nat.mul_one]
  · have h0 : e.toNat = 0 := by omega
    have hp : 2 ^ 149 = 2 ^ (-e).toNat * 2 ^ (e + 149).toNat := by rw [← Nat.pow_add]; congr 1; omega
    rw [h0, hp, ← Nat.mul_assoc, Nat.mul_le_mul_right_iff (Nat.two_pow_pos _), Nat.pow_zero, Nat.mul_one]

/-- TANH by the magnitude on the grid of 2^-149: A below 2^-12, 1 from 9.01 up, and a bracket between. -/
theorem tanhResult_fin {a : Word} {m e : Int} (h : f32.unpack a.toNat = .fin m e) : tanhResult a =
    if m.natAbs * 2 ^ (e + 149).toNat < 2 ^ 137 then (a, 0)
    else if 901 * 2 ^ 149 ≤ 100 * m.natAbs * 2 ^ (e + 149).toNat then (if m < 0 then 0xBF800000 else 0x3F800000, 0)
    else
      let v := tanhFixed ((m.natAbs * 2 ^ (e + 192).toNat : Nat) : Int)
      let x := if m < 0 then -v else v
      (if candOk 192 (Config.tanhBits a) (x - 2 ^ 40) (x + 2 ^ 40) ((v - 2 ^ 40) / 2 ^ 21) then Config.tanhBits a else f32OfFixed 192 x, 0) := by
  obtain ⟨hm, -, he⟩ := unpack_fin_bounds h
  have hsmall : (FV.fin m e).exp2of < -12 ↔ m.natAbs * 2 ^ (e + 149).toNat < 2 ^ 137 := exp2of_lt_iff hm he (-12) (by decide)
  have h16 : (FV.fin m e).exp2of < 4 ↔ m.natAbs * 2 ^ (e + 149).toNat < 2 ^ 153 := exp2of_lt_iff hm he 4 (by decide)
  have hlarge : (decide (4 ≤ (FV.fin m e).exp2of) || decide (901 * 2 ^ (-e).toNat ≤ 100 * m.natAbs * 2 ^ e.toNat)) = true ↔
      901 * 2 ^ 149 ≤ 100 * m.natAbs * 2 ^ (e + 149).toNat := by
    rw [Bool.or_eq_true, decide_eq_true_eq, decide_eq_true_eq, large_iff he, ← Int.not_lt, h16, Nat.mul_assoc]
    generalize m.natAbs * 2 ^ (e + 149).toNat = n
    omega
  unfold tanhResult
  rw [h]
  simp only [hsmall, hlarge]
  rfl

section Tanh

variable {a : Word} {m e : Int} (h : f32.unpack a.toNat = .fin m e)
include h

theorem tanhResult_small (hs : m.natAbs * 2 ^ (e + 149).toNat < 2 ^ 137) : tanhResult a = (a, 0) := by
  rw [tanhResult_fin h, if_pos hs]

theorem tanhResult_large (hl : 901 * 2 ^ 149 ≤ 100 * m.natAbs * 2 ^ (e + 149).toNat) :
    tanhResult a = (if m < 0 then 0xBF800000 else 0x3F800000, 0) := by
  have hs : ¬ m.natAbs * 2 ^ (e + 149).toNat < 2 ^ 137 := by
    rw [Nat.mul_assoc] at hl
    omega
  rw [tanhResult_fin h, if_neg hs, if_pos hl]

theorem tanhResult_near (hs : 2 ^ 137 ≤ m.natAbs * 2 ^ (e + 149).toNat) (hl : 100 * m.natAbs * 2 ^ (e + 149).toNat < 901 * 2 ^ 149) :
    let v := tanhFixed ((m.natAbs * 2 ^ (e + 192).toNat : Nat) : Int)
    let x := if m < 0 then -v else v
    nearBracket 192 x (x - 2 ^ 40) (x + 2 ^ 40) ((v - 2 ^ 40) / 2 ^ 21) (tanhResult a).1 ∧ (tanhResult a).2 = 0 := by
  rw [tanhResult_fin h, if_neg (Nat.not_lt.mpr hs), if_neg (Nat.not_le.mpr hl)]
  exact ⟨nearBracket_pick .., rfl⟩

end Tanh

end Sys2Proof.Machine

end

section
/-! O12: operands that are NaN or negative, and the obligation. -/

namespace Sys2Proof.Machine

set_option autoImplicit false
set_option Elab.async false

/-! ### NaN and negative operands -/

theorem flagIf_not (b : Bool) (f : Flags) : flagIf (!b) f = if b then 0 else f := by cases b <;> rfl

/-- NaN gives the canonical NaN, with INV for a signalling one. -/
theorem results_nan {a : Word} {sig : Bool} (h : f32.unpack a.toNat = .nan sig) :
    ∀ g ∈ [log2Result, rcpResult, rsqResult, sinpResult, cospResult, tanhResult], g a = (0x7FC00000, flagIf sig fINV) := by
  simp only [List.forall_mem_cons]
  refine ⟨?_, ?_, ?_, ?_, ?_, ?_, fun _ h => nomatch h⟩
  · rw [log2Result, h]
  · rw [rcpResult, h]
  · rw [rsqResult, h]
  · rw [sinpResult, h]
  · rw [cospResult, h]
  · rw [tanhResult, h]

theorem sqrtResult_nan {a : Word} {sig : Bool} (h : f32.unpack a.toNat = .nan sig) (mode : RM) (sat : Bool) :
    sqrtResult mode sat a = (0x7FC00000, flagIf sig fINV) := by
  rw [sqrtResult, h]

/-- A negative operand of LOG2, RSQ or SQRT is invalid. -/
theorem results_negative {a : Word} (h : f32.unpack a.toNat = .inf true ∨ ∃ m e, f32.unpack a.toNat = .fin m e ∧ m < 0) :
    ∀ g ∈ [log2Result, rsqResult, sqrtResult .rne false], g a = (0x7FC00000, fINV) := by
  simp only [List.forall_mem_cons]
  obtain hi | ⟨m, e, hf, hm⟩ := h
  · refine ⟨?_, ?_, ?_, fun _ h => nomatch h⟩
    · rw [log2Result, hi]; rfl
    · rw [rsqResult, hi]; rfl
    · rw [sqrtResult, hi]; rfl
  · refine ⟨?_, ?_, ?_, fun _ h => nomatch h⟩
    · rw [log2Result, hf]; exact if_pos hm
    · rw [rsqResult, hf]; exact if_pos hm
    · rw [sqrtResult, hf]; exact if_pos hm

theorem sqrtResult_pos {a : Word} {m e : Int} (h : f32.unpack a.toNat = .fin m e) (hm : 0 < m) (mode : RM) (sat : Bool) :
    sqrtResult mode sat a = (BitVec.ofNat 32 (f32.pack mode sat (sqrtSticky 30 m.natAbs e)).1, (f32.pack mode sat (sqrtSticky 30 m.natAbs e)).2) := by
  have hneg : ¬ m < 0 := by omega
  rw [sqrtResult, h]
  exact if_neg hneg

/-! ### The obligation -/

/-- Settles O12: each word's body computes in lanes, and the values are those of the lemmas about each function. -/
theorem transcendentalsComplete : Obligations.TranscendentalsComplete := by
  refine ⟨?_, ?_, ?_, ?_, ?_, ?_, ?_, ?_, ?_, ?_, ?_, ?_, ?_, ?_, ?_, ?_, ?_, ?_, ?_, ?_, ?_, ?_, ?_, ?_, ?_, ?_, ?_, ?_, ?_, ?_⟩
  · exact writesLater_lanes rfl _ _ (fun _ => rfl) (fun _ _ => rfl)
  · exact writesLater_lanes rfl _ _ (fun _ => rfl) (fun _ _ => rfl)
  · exact writesLater_lanes rfl _ _ (fun _ => rfl) (fun _ _ => rfl)
  · exact writesLater_lanes rfl _ _ (fun _ => rfl) (fun _ _ => rfl)
  · exact writesLater_lanes rfl _ _ (fun _ => rfl) (fun _ _ => rfl)
  · exact writesLater_lanes rfl _ _ (fun _ => rfl) (fun _ _ => rfl)
  · exact writesLater_lanes rfl _ _ (fun _ => rfl) (fun _ _ => rfl)
  · exact writesLater_lanes rfl _ _ (fun _ => rfl) (fun _ _ => rfl)
  · exact writesLater_lanes rfl _ _ (fun _ => rfl) (fun _ _ => rfl)
  · intro g hg a ha
    rw [results_nan (unpack_nan ha) g hg, flagIf_not]
  · intro mode sat a ha
    rw [sqrtResult_nan (unpack_nan ha), flagIf_not]
  · exact fun g hg a hs hn hz => results_negative (unpack_negative hs hn hz) g hg
  · rfl
  · rfl
  · rfl
  · rfl
  · rfl
  · rfl
  · rfl
  · exact fun a m e n h hm => log2Result_two_pow h hm
  · exact fun a m e n h hm => rcpResult_two_pow h hm
  · exact fun a m e n k h hm hk => rsqResult_four_pow h hm hk
  · exact fun mode sat a m e h hm => sqrtResult_pos h hm mode sat
  · exact fun a m e h => ⟨fun hw => ⟨sinpResult_whole h hw, cospResult_whole h hw⟩, fun hh => ⟨cospResult_half h hh, sinpResult_half h hh⟩⟩
  · exact fun a m e h => ⟨tanhResult_small h, tanhResult_large h⟩
  · exact fun a m e h => rcpResult_bound h
  · exact fun a m e rm re h hm hr => rsqResult_bound h hm hr
  · exact fun a m e h hm hp => log2Result_near h hm hp
  · intro a m e h hw hh
    obtain ⟨h1, h2⟩ := sinpResult_near h hw hh
    obtain ⟨h3, h4⟩ := cospResult_near h hw hh
    exact ⟨h1, h2, h3, h4⟩
  · exact fun a m e h hs hl => tanhResult_near h hs hl

end Sys2Proof.Machine

end

section
/-! O17, O18, O25, O53: reconvergence, software traps, and what special registers hold. -/

namespace Sys2Proof.Machine

set_option autoImplicit false
set_option Elab.async false

/-! ### Reconvergence and the token (R106, R152, R153, R169, R183) -/

theorem passToken_held {s : State} (h : ((myCord s).token && (myCord s).partner.isSome) = true) :
    passToken s = (let a := setMyCord s { myCord s with token := false }
      let p := (myCord s).partner.getD 0
      setCord a p { getCord a p with token := true }) := by
  obtain ⟨ht, hp⟩ := Bool.and_eq_true_iff.mp h
  obtain ⟨p, hp⟩ := Option.isSome_iff_exists.mp hp
  unfold passToken
  dsimp only
  rw [ht, hp]
  rfl

theorem passToken_free {s : State} (h : (!((myCord s).token && (myCord s).partner.isSome)) = true) : passToken s = s := by
  unfold passToken
  dsimp only
  split
  · next ht hp => rw [ht, hp] at h; cases h
  · rfl

/-- Settles O17: MEET by the word it stands at, PTOK by whether the cord holds the token and has a partner. -/
theorem reconvergenceComplete : Obligations.ReconvergenceComplete := by
  refine ⟨?_, ?_, ?_, ?_, ?_, ?_, ?_⟩
  · exact does_of (body := joinBody) (fun _ => rfl) (fun _ _ => rfl) (fun _ _ => rfl)
  · refine trapsIf_of (body := meetBody) (fun _ => rfl) (fun _ _ => rfl) (fun w u hc => ?_)
    exact if_pos (bne_iff_ne.mpr (of_decide_eq_true hc))
  · refine doesIf_of (body := meetBody) (fun _ => rfl) (fun _ _ => rfl) (fun w u hc => ?_)
    exact if_neg (fun h => bne_iff_ne.mp h (of_decide_eq_true hc))
  · exact does_of (body := exitBody) (fun _ => rfl) (fun _ _ => rfl) (fun _ _ => rfl)
  · exact idle_once (fun _ => rfl) (fun _ _ => rfl)
  · exact doesOnce_once (fun _ => rfl) (fun _ _ => rfl) (fun _ _ _ h => congrArg Res.done (passToken_held h))
  · exact doesOnce_once (fun _ => rfl) (fun _ _ => rfl) (fun _ _ _ h => congrArg Res.done (passToken_free h))

/-! ### Software traps (R107) -/

theorem trapBody_idle {code : TrapCode} {w : SWord} {s : State} (h : enabled s w = 0) : trapBody code w s = .done s := if_pos h

theorem trapBody_traps {code : TrapCode} {w : SWord} {s : State} (h : (enabled s w != 0) = true) :
    trapBody code w s = .trap code (w.imm.setWidth 64) := if_neg (bne_iff_ne.mp h)

/-- Settles O18: both words have one body, which looks at the enabled lanes alone. -/
theorem softwareTrapsTaken : Obligations.SoftwareTrapsTaken := by
  refine ⟨?_, ?_, ?_, ?_⟩
  · exact idle_body (body := trapBody .swtrap) (fun _ => rfl) (fun _ _ => rfl) (fun _ _ => trapBody_idle)
  · exact trapsIf_of (body := trapBody .swtrap) (fun _ => rfl) (fun _ _ => rfl) (fun _ _ => trapBody_traps)
  · exact idle_body (body := trapBody .brk) (fun _ => rfl) (fun _ _ => rfl) (fun _ _ => trapBody_idle)
  · exact trapsIf_of (body := trapBody .brk) (fun _ => rfl) (fun _ _ => rfl) (fun _ _ => trapBody_traps)

/-! ### The values of special registers (R111, R364) -/

/-- The indices from 0x20 to 0x2F are the low words of the trap's items. -/
theorem specialValue_trapItem (s : State) (k : Nat) (l : Lane) {i : Nat} (hi : i < 16) :
    specialValue s (0x20 + i) k l = (loW (myTrapItem s i)).setWidth 64 := by
  have hix : (decide (0x20 ≤ 0x20 + i) && decide (0x20 + i ≤ 0x2F)) = true := by simp; omega
  unfold specialValue
  dsimp only
  split
  any_goals omega
  rw [if_pos hix, Nat.add_sub_cancel_left]

/-- The indices from 0x40 to 0x4F are the narrow formats. -/
theorem specialValue_narrow (s : State) (k : Nat) (l : Lane) {i : Nat} (hi : i < 16) :
    specialValue s (0x40 + i) k l = (aGet 0 (myCord s).nf i).setWidth 64 := by
  have hno : ¬ (decide (0x20 ≤ 0x40 + i) && decide (0x40 + i ≤ 0x2F)) = true := by simp; omega
  have hix : (decide (0x40 ≤ 0x40 + i) && decide (0x40 + i ≤ 0x4F)) = true := by simp; omega
  unfold specialValue
  dsimp only
  split
  any_goals omega
  rw [if_neg hno, if_pos hix, Nat.add_sub_cancel_left]

theorem ofNat_ptokenBits (c : Cord) : BitVec.ofNat 64 (ptokenBits c) =
    if c.hdr.flags.getLsbD 1 then BitVec.ofNat 64 (c.token.toNat + 2 * c.partner.isSome.toNat) else 0 := by
  unfold ptokenBits
  split <;> rfl

theorem myTrapItem_handled {s : State} {h : Handler} (hh : (me s).handler = some h) (i : Nat) :
    myTrapItem s i = trapItem (me s) h.trap i := by
  unfold myTrapItem
  rw [hh]

/-- The items from 8 up are the members of the group, in pairs. -/
theorem trapItem_members (t : Strand) (x : TrapInfo) (i : Nat) :
    trapItem t x (8 + i) = pairOf ((x.members[2 * i]?).getD 0) ((x.members[2 * i + 1]?).getD 0) := by
  unfold trapItem
  split
  any_goals omega
  rw [Nat.add_sub_cancel_left]

/-- Settles O25: the value at each index, and the items of the trap that is handled. -/
theorem specialValues : Obligations.SpecialValues := by
  intro s k l
  refine ⟨rfl, rfl, rfl, rfl, rfl, rfl, rfl, rfl, rfl, rfl, rfl, rfl, rfl, rfl, rfl, rfl, rfl, rfl, rfl, ofNat_ptokenBits _, rfl,
    fun i => specialValue_narrow s k l, fun i => specialValue_trapItem s k l, fun h hh => ?_⟩
  refine ⟨?_, ?_, ?_, ?_, ?_, ?_, ?_, ?_, fun i _ => ?_⟩
  case refine_9 => exact (myTrapItem_handled hh _).trans (trapItem_members _ _ i)
  all_goals exact myTrapItem_handled hh _

/-! ### SRD and SWR words that trap (R112) -/

theorem index_eq (w : SWord) : w.bits 0 8 = w.imm.toNat % 256 := by simp [SWord.bits]

theorem exec_srd_illop {w : SWord} (s : State) (h : (fSrd w).ok = false) : exec (.srd w) s = .next (preciseTrap s .illop 0) :=
  exec_wordTrap (f := fSrd w) rfl (by simp [wordTrap, Form.wf, h])

theorem exec_swr_illop {w : SWord} (s : State) (h : (fSwr w).ok = false) : exec (.swr w) s = .next (preciseTrap s .illop 0) :=
  exec_wordTrap (f := fSwr w) rfl (by simp [wordTrap, Form.wf, h])

/-- SWR defines the low byte of IMM16 alone. -/
theorem undefined_swrBits {w : SWord} (h : w.imm.toNat / 256 % 4 ≠ 0) : (w.imm &&& ~~~(fSwr w).mask == 0) = false := by
  refine beq_eq_false_iff_ne.mpr (fun h0 => h ?_)
  have hm : (~~~(fSwr w).mask).extractLsb' 8 2 = BitVec.allOnes 2 := by
    rw [show (fSwr w).mask = 0xFF from rfl]
    decide
  have h8 : (w.imm &&& ~~~(fSwr w).mask).extractLsb' 8 2 = 0#2 := by rw [h0]; rfl
  rw [BitVec.extractLsb'_and, hm, BitVec.and_allOnes] at h8
  simpa [BitVec.extractLsb', Nat.shiftRight_eq_div_pow] using congrArg BitVec.toNat h8

theorem exec_swr_word {w : SWord} (s : State) (h : w.imm.toNat / 256 % 4 ≠ 0) : exec (.swr w) s = .next (preciseTrap s .illop 0) := by
  have hb : (fSwr w).b.wf 0xFF = false := rfl
  have hw : (fSwr w).wf w = false := by
    unfold Form.wf
    rw [undefined_swrBits h, hb]
    simp
  exact exec_wordTrap (f := fSwr w) rfl (by unfold wordTrap; rw [hw]; rfl)

theorem swrIndex_of_readOnly {i : Nat} (h : i ≤ 0x07 ∨ i = 0x0A ∨ (0x0C ≤ i ∧ i ≤ 0x2F)) : swrIndex i = false := by
  simp only [swrIndex, Bool.or_eq_false_iff, Bool.and_eq_false_iff, beq_eq_false_iff_ne, decide_eq_false_iff_not]
  omega

theorem swrIndex_of_none {i : Nat} (h : (0x14 ≤ i ∧ i ≤ 0x1F) ∨ (0x30 ≤ i ∧ i ≤ 0x3F) ∨ 0x51 ≤ i) : swrIndex i = false := by
  simp only [swrIndex, Bool.or_eq_false_iff, Bool.and_eq_false_iff, beq_eq_false_iff_ne, decide_eq_false_iff_not]
  omega

theorem srdIndex_of_none {i : Nat} (h : (0x14 ≤ i ∧ i ≤ 0x1F) ∨ (0x30 ≤ i ∧ i ≤ 0x3F) ∨ 0x51 ≤ i) : srdIndex i = false := by
  simp only [srdIndex, Bool.or_eq_false_iff, Bool.and_eq_false_iff, decide_eq_false_iff_not]
  omega

/-- A word that passes the checks before the last traps PRIV where the strand lacks its mode. -/
theorem exec_priv {i : Instr} {w : SWord} {f : Form} {s : State} (hf : strandForm i = some (w, f)) (hp : mayRun f.priv s = false)
    (h : ∃ w f, strandForm i = some (w, f) ∧ i.wf = true ∧ (inHandler s = false ∨ f.inHandler w = true) ∧
      ∀ r ∈ f.names w, regInRange (me s).base (me s).ext r = true) : exec i s = .next (preciseTrap s .priv 0) := by
  obtain ⟨w', f', hf', hw, hh, hr⟩ := h
  cases hf.symm.trans hf'
  rw [wf_of_strandForm hf] at hw
  have hb : f.inRange w (me s).base (me s).ext = true := List.all_eq_true.mpr hr
  exact exec_wordTrap hf (by obtain h | h := hh <;> simp [wordTrap, hw, hb, h, hp])

/-- Settles O53: each case of R112 fails one check of the word's form. -/
theorem specialRegisterTraps : Obligations.SpecialRegisterTraps := by
  refine ⟨fun w s h => ⟨exec_srd_illop s ?_, exec_swr_illop s ?_⟩, fun w s h => exec_swr_illop s ?_, fun w s ht hi => exec_srd_illop s ?_,
    fun w s hi hd => exec_srd_illop s ?_, fun w s hw hi => ⟨exec_srd_illop s ?_, exec_swr_word s hw⟩, fun w s hlo hhi hh hp => ?_,
    fun w s hi hj => ⟨exec_priv rfl ?_, exec_priv rfl ?_⟩⟩
  · simp [fSrd, index_eq, srdIndex_of_none h]
  · simp [fSwr, index_eq, swrIndex_of_none h]
  · simp [fSwr, index_eq, swrIndex_of_readOnly h]
  · simp only [List.mem_cons, List.not_mem_nil, or_false, not_or] at hi
    simp [fSrd, index_eq, ht, hi]
  · simp [fSrd, index_eq, hi, hd]
  · have hb : w.bits 8 2 ≠ 0 := hw
    simp [fSrd, index_eq, hi, hb]
  · have hpr : (fSrd w).priv = .handler := by simp [fSrd, indexPriv, index_eq, hlo, hhi]
    exact exec_priv rfl (by rw [hpr]; exact hh) hp
  · have hpr : (fSrd w).priv = .system := by simp [fSrd, indexPriv, index_eq, hi]
    rw [hpr]; simpa [mayRun] using hj
  · have hpr : (fSwr w).priv = .system := by simp [fSwr, indexPriv, index_eq, hi]
    rw [hpr]; simpa [mayRun] using hj

end Sys2Proof.Machine

end

section
/-! O19, O20: the checks of an access, and the lanes that fault. -/

namespace Sys2Proof.Machine

set_option autoImplicit false
set_option Elab.async false

/-! ### The checks of an access (R115, R116, R218) -/

theorem handleForm_eq {s : State} {job : Nat} {h : DWord} (hh : isHandle h = true) :
    handleForm s job h = decide (hClass h ≤ 25 ∧ hIndex h < (aGet {} s.jobs job).tlen ∧ (getObj s job (hIndex h)).cls = hClass h) := by
  rw [Bool.eq_iff_iff]
  simp [handleForm, hh, and_assoc]

theorem handleAlive_eq (s : State) (job : Nat) (h : DWord) :
    handleAlive s job h = decide ((getObj s job (hIndex h)).gen = hGen h ∧ (getObj s job (hIndex h)).st = 1) := by
  rw [Bool.eq_iff_iff]
  simp [handleAlive]

/-- Past the form, the bit W and the generation, a handle's place is the object's (R218). -/
theorem handlePlace_live {s : State} {job : Nat} {h : DWord} (hf : handleForm s job h = true) (hw : hWeak h = false)
    (ha : handleAlive s job h = true) (disp : Int) (n : Nat) : handlePlace s job h disp n = objectPlace s job (hIndex h) disp n := by
  simp [handlePlace, hf, hw, ha]

theorem objectPlace_outside {s : State} {job i : Nat} {disp : Int} {n : Nat}
    (h : ¬ (0 ≤ disp ∧ disp + n ≤ 2 ^ ((getObj s job i).cls + 6))) : objectPlace s job i disp n = .error .memfault := by
  have hs : ((getObj s job i).size : Int) = 2 ^ ((getObj s job i).cls + 6) := by simp [Obj.size]
  refine if_pos ?_
  rw [hs, Bool.or_eq_true, decide_eq_true_eq, decide_eq_true_eq]
  omega

theorem objectPlace_within {s : State} {job i : Nat} {disp : Int} {n : Nat}
    (h : 0 ≤ disp ∧ disp + n ≤ 2 ^ ((getObj s job i).cls + 6)) :
    objectPlace s job i disp n =
      let o := getObj s job i
      if backed s o.tier (o.addr + disp.toNat) && extLive s o.tier job then .ok { key := jobKey job o.tier (o.addr + disp.toNat) }
      else .error .memfault := by
  have hin : ¬ (decide (disp < 0) || decide (((getObj s job i).size : Int) < disp + n)) = true := by
    have hs : ((getObj s job i).size : Int) = 2 ^ ((getObj s job i).cls + 6) := by simp [Obj.size]
    rw [hs, Bool.or_eq_true, decide_eq_true_eq, decide_eq_true_eq]
    omega
  refine (if_neg hin).trans ?_
  dsimp only
  cases backed s (getObj s job i).tier ((getObj s job i).addr + disp.toNat) <;> cases extLive s (getObj s job i).tier job <;> rfl

/-- No address out of range has a place. -/
theorem translate_outOfRange {s : State} {core : Option Nat} {job : Nat} {a : DWord} {need : Need} {n : Nat} (h : vaOk a = false) :
    translate s core job a need n = none := by
  simp [translate, h]

/-- A page that does not permit the access gives it no place. -/
theorem translate_forbidden {s : State} {core job : Nat} {a : DWord} {need : Need} {n : Nat} (hw : a.toNat < windowBase)
    (h : ∀ x, findTlb s core job a.toNat n = some x → x.allows need = false) : translate s (some core) job a need n = none := by
  unfold translate
  split
  · rfl
  · rw [if_neg (Nat.not_le.mpr hw)]
    dsimp only
    split
    · next t ht => rw [h t ht]; rfl
    · rfl

/-- The place of an address that no handle forms, or its first fault. -/
def linearPlace (s : State) (w : SWord) (z : Nat) (need : Need) (l : Lane) (base a : DWord) : Except TrapCode Place :=
  if a.toNat % z ≠ 0 then .error .align
  else if base = 0 ∧ w.a ≠ 0xF0 then .error .memfault
  else match translate s (some s.focus.core) (myCord s).job a need (l.val + 1) with
    | some p => .ok p
    | none => .error .memfault

theorem memTarget_linear {s : State} {w : SWord} {l : Lane} (hh : isHandle (opA2 s w l) = false) (z : Nat) (off : Int) (need : Need) :
    memTarget s w z off need l =
      let a := opA2 s w l + BitVec.ofInt 64 ((opB1 s w l).toInt * z + off * z)
      (a, linearPlace s w z need l (opA2 s w l) a) := by
  simp only [memTarget, linearPlace, hh, bne_iff_ne, Bool.and_eq_true, decide_eq_true_eq, Bool.false_eq_true, if_false] <;> rfl

theorem memTarget_handle {s : State} {w : SWord} {l : Lane} (hh : isHandle (opA2 s w l) = true) (z : Nat) (off : Int) (need : Need) :
    memTarget s w z off need l =
      let disp : Int := (opB1 s w l).toInt * z + off * z
      (opA2 s w l + BitVec.ofInt 64 disp, if disp % z ≠ 0 then .error .align else handlePlace s (myCord s).job (opA2 s w l) disp z) := by
  simp only [memTarget, hh, bne_iff_ne, if_true]

/-- The checks of an address, in their order. -/
theorem linearPlace_checks (s : State) (w : SWord) (z : Nat) (need : Need) (l : Lane) (base a : DWord) :
    let r := linearPlace s w z need l base a
    let job := (myCord s).job
    (a.toNat % z ≠ 0 → r = .error .align) ∧
    (a.toNat % z = 0 → base = 0 → w.a ≠ 0xF0 → r = .error .memfault) ∧
    (a.toNat % z = 0 → (base ≠ 0 ∨ w.a = 0xF0) → r = match translate s (some s.focus.core) job a need (l.val + 1) with
      | some p => .ok p
      | none => .error .memfault) ∧
    (a.toNat % z = 0 → vaOk a = false → r = .error .memfault) ∧
    (a.toNat % z = 0 → a.toNat < windowBase → (∀ x, findTlb s s.focus.core job a.toNat (l.val + 1) = some x → x.allows need = false) →
      r = .error .memfault) := by
  unfold linearPlace
  refine ⟨fun ha => if_pos ha, fun ha h0 hz => ?_, fun ha h0 => ?_, fun ha hv => ?_, fun ha hlt hno => ?_⟩
  all_goals refine (if_neg (not_not.mpr ha)).trans ?_
  · exact if_pos ⟨h0, hz⟩
  · exact if_neg (fun h => h0.elim (· h.1) h.2)
  · rw [translate_outOfRange hv, ite_self]
  · rw [translate_forbidden hlt hno, ite_self]

/-- The checks of an access to device memory, in their order: those of an address, or those of a handle. -/
theorem addressChecks_hold (need : Need) : addressChecks need := by
  intro s w z off l
  dsimp only
  refine ⟨rfl, fun hh => ?_, fun hh => ?_⟩
  · rw [memTarget_linear hh]
    exact linearPlace_checks s w z need l (opA2 s w l) _
  · rw [memTarget_handle hh]
    dsimp only
    refine ⟨fun ha => if_pos ha, fun ha hf => ?_, fun ha hf hw => ?_, fun ha hf hw hl => ?_, fun ha hf hw hl hb => ?_,
      fun ha hf hw hl hb => ?_⟩
    all_goals refine (if_neg (not_not.mpr ha)).trans ?_
    · rw [handlePlace, handleForm_eq hh, decide_eq_false hf]; rfl
    · rw [handlePlace, handleForm_eq hh, decide_eq_true hf, hw]; rfl
    · rw [handlePlace, handleForm_eq hh, decide_eq_true hf, hw, handleAlive_eq, decide_eq_false hl]; rfl
    · rw [handlePlace_live ((handleForm_eq hh).trans (decide_eq_true hf)) hw ((handleAlive_eq ..).trans (decide_eq_true hl)),
        objectPlace_outside hb]
    · rw [handlePlace_live ((handleForm_eq hh).trans (decide_eq_true hf)) hw ((handleAlive_eq ..).trans (decide_eq_true hl)),
        objectPlace_within hb]

theorem scratchChecks_hold : scratchChecks := by
  intro s w z off l
  simp [scratchTarget, scratchIn]

/-! ### Lanes that fault (R116, R360) -/

/-- A strand outside handler mode of which a lane has faulted, by the number of its trap. -/
def faulted (t : Strand) (l : Lane) (code : TrapCode) (addr aux : DWord) (pc : VAddr) (place : Option Nat) (n : Nat) : Strand :=
  { t.modThread l (fun x => { x with st := .parked (.fault code addr aux n), pc := pc, place := place }) with
    split := some (t.split.getD 0)
    clause := t.clause.map (fun c => { c with act := c.act &&& ~~~laneBit l, group := c.group &&& ~~~laneBit l }) }

theorem parkClause_setMe {u : State} {m : Strand} (h : m.handler = none) (b : LaneMask) :
    parkClause (setMe u m) b =
      setMe u { m with clause := m.clause.map (fun c => { c with act := c.act &&& ~~~b, group := c.group &&& ~~~b }) } := by
  have hh : (me (setMe u m)).handler = none := by rw [me_setMe]; exact h
  unfold parkClause
  rw [curClause?_plain hh, me_setMe]
  cases hc : m.clause with
  | none =>
    dsimp only [Option.map_none]
    rw [← hc]
  | some c =>
    dsimp only [Option.map_some]
    rw [setClause_plain hh, me_setMe, setMe_setMe]

theorem splitLane_eq {s : State} (h : (me s).handler = none) (l : Lane) (code : TrapCode) (addr aux : DWord) (pc : VAddr) (place : Option Nat) :
    splitLane s l code addr aux pc place = setMe { s with ops := s.ops + 1 } (faulted (me s) l code addr aux pc place s.ops) := by
  unfold splitLane nextSeq
  simp only [me_ops]
  rw [parkClause_setMe (by unfold Strand.modThread; exact h)]
  unfold faulted Strand.modThread
  rfl

/-- A fault changes the strand's threads, its clause and its split alone. -/
theorem faulted_only (t : Strand) (l : Lane) (code : TrapCode) (addr aux : DWord) (pc : VAddr) (place : Option Nat) (n : Nat) :
    let u := faulted t l code addr aux pc place n
    u = { t with threads := u.threads, clause := u.clause, split := u.split } := by
  unfold faulted Strand.modThread
  rfl

theorem faulted_handler (t : Strand) (l : Lane) (code : TrapCode) (addr aux : DWord) (pc : VAddr) (place : Option Nat) (n : Nat) :
    (faulted t l code addr aux pc place n).handler = t.handler := by
  rw [faulted_only]

theorem faulted_clause (t : Strand) (l : Lane) (code : TrapCode) (addr aux : DWord) (pc : VAddr) (place : Option Nat) (n : Nat) :
    (faulted t l code addr aux pc place n).clause =
      t.clause.map (fun c => { c with act := c.act &&& ~~~laneBit l, group := c.group &&& ~~~laneBit l }) := rfl

@[simp] theorem faulted_thread (t : Strand) (l k : Lane) (code : TrapCode) (addr aux : DWord) (pc : VAddr) (place : Option Nat) (n : Nat) :
    (faulted t l code addr aux pc place n).threads.get k =
      if k = l then { t.threads.get l with st := .parked (.fault code addr aux n), pc := pc, place := place } else t.threads.get k := by
  simp [faulted, Strand.modThread]

/-- What the faults of lanes have left of a strand outside handler mode, and of the rest of the state. -/
structure LanesFaulted (pc : VAddr) (place : Option Nat) (fs : List (Lane × TrapCode × DWord × DWord)) (s t : State) : Prop where
  rest : t = { s with strands := t.strands, ops := s.ops + fs.length }
  others : ∀ k, k ≠ focusStrand s → getStrand t k = getStrand s k
  strand : me t = { me s with threads := (me t).threads, clause := (me t).clause, split := (me t).split }
  parked : ∀ i x, fs[i]? = some x → (me t).threads.get x.1 =
    { (me s).threads.get x.1 with st := .parked (.fault x.2.1 x.2.2.1 x.2.2.2 (s.ops + i)), pc := pc, place := place }
  stand : ∀ l, l ∉ fs.map (·.1) → (me t).threads.get l = (me s).threads.get l
  clause : ∀ c, (me s).clause = some c → ∃ d, (me t).clause = some d ∧ d.hdr = c.hdr ∧ d.nm1 = c.nm1 ∧ d.word = c.word ∧
    ∀ l, inMask d.act l = (inMask c.act l && !(fs.map (·.1)).contains l)

theorem splitLanes_faulted {pc : VAddr} {place : Option Nat} {fs : List (Lane × TrapCode × DWord × DWord)} {s : State}
    (h : (me s).handler = none) (hn : (fs.map (·.1)).Nodup) : LanesFaulted pc place fs s (splitLanes s pc place fs) := by
  induction fs generalizing s with
  | nil => exact ⟨rfl, fun _ _ => rfl, rfl, fun i x hx => by simp at hx, fun _ _ => rfl, fun c hc => ⟨c, hc, rfl, rfl, rfl, by simp⟩⟩
  | cons f fs ih =>
    obtain ⟨l, code, addr, aux⟩ := f
    rw [List.map_cons, List.nodup_cons] at hn
    obtain ⟨hl, hn⟩ := hn
    rw [splitLanes, splitLane_eq h]
    generalize hu : setMe { s with ops := s.ops + 1 } (faulted (me s) l code addr aux pc place s.ops) = u
    have hmu : me u = faulted (me s) l code addr aux pc place s.ops := by rw [← hu, me_setMe]
    have hf : focusStrand u = focusStrand s := by rw [← hu]; rfl
    have hops : u.ops = s.ops + 1 := by rw [← hu]; rfl
    obtain ⟨hrest, hothers, hstrand, hparked, hstand, hclause⟩ := ih (s := u) (by rw [hmu, faulted_handler, h]) hn
    refine ⟨?_, fun k hk => ?_, ?_, fun i x hx => ?_, fun k hk => ?_, fun c hc => ?_⟩
    · rw [hrest, ← hu, List.length_cons, Nat.add_comm fs.length, ← Nat.add_assoc]
      rfl
    · rw [hothers k (by rwa [hf]), ← hu]
      exact (getStrand_setMe ..).trans (if_neg hk)
    · rw [hstrand, hmu, faulted_only]
    · cases i with
      | zero =>
        cases hx
        rw [hstand l hl, hmu, faulted_thread, if_pos rfl]
        rfl
      | succ i =>
        have hne : x.1 ≠ l := fun e => hl (List.mem_map.mpr ⟨x, List.mem_of_getElem? (List.getElem?_cons_succ ▸ hx), e⟩)
        rw [hparked i x hx, hmu, faulted_thread, if_neg hne, hops, Nat.add_assoc, Nat.add_comm 1]
    · rw [List.map_cons, List.mem_cons, not_or] at hk
      rw [hstand k hk.2, hmu, faulted_thread, if_neg hk.1]
    · obtain ⟨d, hd, hhdr, hnm, hword, hact⟩ := hclause _ (by rw [hmu, faulted_clause, hc, Option.map_some])
      refine ⟨d, hd, hhdr, hnm, hword, fun k => ?_⟩
      rw [hact k]
      simp only [inMask_and, inMask_not, inMask_laneBit, List.map_cons, List.contains_cons, Bool.not_or, Bool.and_assoc]
      rfl

theorem faultLanes_plain {s : State} (h : (me s).handler = none) (pc : VAddr) (place : Option Nat)
    (fs : List (Lane × TrapCode × DWord × DWord)) : faultLanes s pc place fs = splitLanes s pc place fs := by
  unfold faultLanes
  cases fs with
  | nil => rfl
  | cons f fs => rw [h]

theorem lanesFault_hold : lanesFault := by
  intro s pc place fs h hn
  obtain ⟨hrest, hothers, hstrand, hparked, hstand, hclause⟩ := splitLanes_faulted (pc := pc) (place := place) h hn
  exact ⟨_, faultLanes_plain h pc place fs, hrest, hothers, hstrand, hparked, hstand, hclause⟩

end Sys2Proof.Machine

end

section
/-! O19, O20: loads and stores. First what a load reads, then the words. -/

namespace Sys2Proof.Machine

set_option autoImplicit false
set_option Elab.async false

/-! ### What a load reads (R120, R121, R201) -/

theorem forwardRd_eq (s : State) (scratch : Bool) (rd : Nat → Byte) (key n : Nat) :
    forwardRd s scratch rd key n = (List.range n).map (fun i => (queueRd (me s).stores scratch (key + i)).getD (rd (key + i))) := by
  unfold forwardRd
  refine List.map_congr_left (fun i _ => ?_)
  cases queueRd (me s).stores scratch (key + i) <;> rfl

theorem ldRead_eq (z : Nat) (s : State) (a : Acc) : ldRead z s a = (List.range z).map (fun i =>
    (queueRd (me s).stores false (a.place.key + i)).getD (coreRd s s.focus.core (a.place.key + i) a.place.nc)) := forwardRd_eq ..

theorem ldsRead_eq (z : Nat) (s : State) (a : Acc) : ldsRead z s a = (List.range z).map (fun i =>
    (queueRd (me s).stores true (a.place.key + i)).getD (memRd (myCord s).scratch (a.place.key + i))) := forwardRd_eq ..

theorem ldaqRead_eq (z : Nat) (sc : Scope) (s : State) (a : Acc) : ldaqRead z sc s a = (List.range z).map (fun i =>
    (queueRd (me s).stores false (a.place.key + i)).getD (scopeRd s s.focus.core sc (a.place.key + i) a.place.nc)) := forwardRd_eq ..

/-- The pieces of some bytes hold them, in order. -/
theorem pieces_flatMap (u k : Nat) (bs : List Byte) : (pieces u k bs).flatMap (·.bytes) = bs := by
  induction bs generalizing k with
  | nil => rfl
  | cons b bs ih =>
    have ih := ih (k + 1)
    unfold pieces
    cases hp : pieces u (k + 1) bs with
    | nil =>
      rw [hp] at ih
      rw [← ih]
      rfl
    | cons w ws =>
      rw [hp] at ih
      rw [← ih]
      dsimp only
      split <;> rfl

theorem pieces_key {u k : Nat} {b : Byte} {bs : List Byte} : ∃ w ws, pieces u k (b :: bs) = w :: ws ∧ w.key = k := by
  unfold pieces
  cases pieces u (k + 1) bs with
  | nil => exact ⟨_, _, rfl, rfl⟩
  | cons w ws =>
    dsimp only
    split <;> exact ⟨_, _, rfl, rfl⟩

theorem any_range_succ (g : Nat → Bool) (k n : Nat) :
    (List.range (n + 1)).any (fun i => g (k + i)) = (g k || (List.range n).any (fun i => g (k + 1 + i))) := by
  rw [List.range_succ_eq_map, List.any_cons, List.any_map]
  simp only [Function.comp_def, Nat.add_zero, Nat.succ_eq_add_one, Nat.add_assoc, Nat.add_comm 1]

/-- Some byte of some piece has a property where some byte has it. -/
theorem pieces_any (g : Nat → Bool) (u k : Nat) (bs : List Byte) :
    (pieces u k bs).any (fun w => (List.range w.bytes.length).any (fun i => g (w.key + i))) =
      (List.range bs.length).any (fun i => g (k + i)) := by
  induction bs generalizing k with
  | nil => rfl
  | cons b bs ih =>
    rw [List.length_cons, any_range_succ, ← ih (k + 1)]
    cases bs with
    | nil => simp [pieces]
    | cons c cs =>
      obtain ⟨w, ws, hp, hk⟩ := pieces_key (u := u) (k := k + 1) (b := c) (bs := cs)
      rw [pieces, hp]
      dsimp only
      split
      · rw [List.any_cons]
        simp
      · rw [List.any_cons, List.any_cons, List.length_cons, any_range_succ, hk, Bool.or_assoc]

/-- A cord of which the constant cache holds no older value takes none (R121). -/
theorem constUnit_none {s : State} (h : ∀ x ∈ s.consts, x.cord ≠ focusCord s) (l : Lane) (w : Committed) : constUnit s l w = none := by
  have hf : s.consts.filter (fun x => x.cord == focusCord s && x.key == unitBase w.key) = [] := by
    rw [List.filter_eq_nil_iff]
    intro x hx
    simp [h x hx]
  unfold constUnit
  dsimp only
  rw [hf, ite_self]
  rfl

theorem ldcRead_fresh {s : State} (h : ∀ x ∈ s.consts, x.cord ≠ focusCord s) (z : Nat) (a : Acc) : ldcRead z s a = ldRead z s a := by
  unfold ldcRead
  simp only [constUnit_none h, Option.getD_none]
  exact pieces_flatMap ..

theorem ldRead_length (z : Nat) (s : State) (a : Acc) : (ldRead z s a).length = z := by simp [ldRead, forwardRd]

theorem badConst_fresh {s : State} (h : ∀ x ∈ s.consts, x.cord ≠ focusCord s) (z : Nat) (a : Acc) :
    badConst z s a = badData false 2 s a.place z := by
  unfold badConst
  simp only [constUnit_none h, Option.isNone_none, Bool.true_and]
  have hp := pieces_any (fun k => (queueRd (me s).stores false k).isNone && poisonAt s s.focus.core 2 k 1 a.place.nc)
    (unitOf a.place.key) a.place.key (ldRead z s a)
  rw [ldRead_length] at hp
  exact hp

/-! ### Loads -/

section Load

variable {mk : SWord → Instr} {f : SWord → Form} {body : SWord → State → Res} {cond : SWord → Bool} {v : SWord → SWord}

/-- An instruction whose body is a load: where every access passes the checks, and whatever they say. -/
theorem load_of {flawed : SWord → State → Acc → Bool} {t : SWord → State → Lane → DWord × Except TrapCode Place}
    {rd rd' : SWord → State → Acc → List Byte} {extra : SWord → LaneMask → (Lane → Nat) → List PendWrite} {post : SWord → State → State → State}
    (hf : ∀ w, strandForm (mk w) = some (w, f w)) (he : ∀ w s, exec (mk w) s = .next (runWord (mk w) body s))
    (hv : ∀ w s, enabled s (v w) = enabled s w) (hd : ∀ w, (v w).d = w.d)
    (hx : ∀ w en f g, (∀ l, inMask en l = true → f l = g l) → extra w en f = extra w en g) (hr : ∀ w u a, rd w u a = rd' w u a)
    (hb : ∀ w s, cond w = true → ∀ r, loadWith (flawed w) (v w).size (onceDAB w) ((accessLanes (onceDAB w) w s).map (fun l => (l, t w s l)))
      (rd w) (extra w) (v w) s = .done r → body w s = .done (post w s r)) :
    loads mk cond flawed v t rd' extra post ∧ loadsSplit mk cond flawed v t rd' extra post := by
  obtain rfl : rd = rd' := funext fun w => funext fun u => funext fun a => hr w u a
  exact ⟨loads_of hf he hv hd hx hb, loadsSplit_of hf he hv hd hx hb⟩

/-- An instruction whose body is a store, likewise. -/
theorem store_of {scratch : Bool} {rel : SWord → Scope} {t : SWord → State → Lane → DWord × Except TrapCode Place}
    (hf : ∀ w, strandForm (mk w) = some (w, f w)) (he : ∀ w s, exec (mk w) s = .next (runWord (mk w) body s))
    (hv : ∀ w s, enabled s (v w) = enabled s w)
    (hb : ∀ w s, cond w = true → body w s = storeWith scratch (rel w) (onceDAB w)
      ((accessLanes (onceDAB w) w s).map (fun l => (l, t w s l))) (storeBytes s (v w) (v w).size) (v w) s) :
    storesAt mk cond scratch rel v t ∧ storesSplit mk cond scratch rel v t :=
  ⟨stores_of hf he (fun w s hc _ h => (hb w s hc).trans h), storesSplit_of hf he hv (fun w s hc _ h => (hb w s hc).trans h)⟩

end Load

/-- The shape byte of a label access names eight bytes. -/
theorem labelWord_size (w : SWord) : (labelWord w).size = 8 := by
  have hb : (labelWord w).bits 0 3 = 3 := by
    simp only [labelWord, SWord.bits, BitVec.toNat_ofNat]
    omega
  rw [SWord.size, hb]
  rfl

theorem ldBody_eq (w : SWord) (s : State) : ldBody w s = loadWith (badLoad false w.size) w.size (onceDAB w)
    ((accessLanes (onceDAB w) w s).map (fun l => (l, memTarget s w w.size (offsetOf w) .rd l))) (ldRead w.size) noExtra w s := by
  rw [ldBody, onceFor_dab]
  rfl

theorem ldsWith_eq (z : Nat) (extra : LaneMask → (Lane → Nat) → List PendWrite) (w : SWord) (s : State) :
    ldsWith z extra w s = loadWith (badLoad true z) z (onceDAB w)
      ((accessLanes (onceDAB w) w s).map (fun l => (l, scratchTarget s w z (offsetOf w) l))) (ldsRead z) extra w s := by
  rw [ldsWith, onceFor_dab]
  rfl

theorem ldcBody_eq (w : SWord) (s : State) : ldcBody w s = loadWith (badConst w.size) w.size (onceDAB w)
    ((accessLanes (onceDAB w) w s).map (fun l => (l, memTarget s w w.size (offsetOf w) .rd l))) (ldcRead w.size) noExtra w s := by
  rw [ldcBody, onceFor_dab]
  rfl

/-- LDAQ: a load, and then an acquire where some lane is enabled. -/
theorem ldaqBody_done {w : SWord} {s r : State} (h : loadWith (badAcquire w.size (scopeOf w)) w.size (onceDAB w)
    ((accessLanes (onceDAB w) w s).map (fun l => (l, memTarget s w w.size (offsetOf w) .rd l))) (ldaqRead w.size (scopeOf w)) noExtra w s =
    .done r) : ldaqBody w s = .done (if enabled s w = 0 then r else refresh r s.focus.core (scopeOf w)) := by
  rw [ldaqBody, onceFor_dab]
  unfold memTargets
  rw [h]

/-- LDL, in device memory. -/
theorem ldlBody_mem {w : SWord} (s : State) (h : (w.bits 0 1 == 0) = true) : ldlBody w s =
    loadWith (badLoad false 8) 8 (onceDAB w) ((accessLanes (onceDAB w) w s).map (fun l => (l, memTarget s (labelWord w) 8 (offsetOf w) .rd l)))
      (ldRead 8) (voidPred w) (labelWord w) s := by
  rw [ldlBody, onceFor_dab, if_neg (by rw [beq_iff_eq.mp h]; decide)]
  rfl

/-- LDL, in the scratchpad. -/
theorem ldlBody_pad {w : SWord} (s : State) (h : (w.bits 0 1 == 1) = true) : ldlBody w s = ldsWith 8 (voidPred w) (labelWord w) s := by
  rw [ldlBody, if_pos (beq_iff_eq.mp h)]
  unfold labelSize labelWord
  rfl

/-- The offset of a label access is the word's. -/
theorem offsetOf_labelWord (w : SWord) : offsetOf (labelWord w) = offsetOf w := by
  have hlt : w.bits 8 8 < 256 := Nat.mod_lt _ (by decide)
  have hb : (labelWord w).bits 8 8 = w.bits 8 8 := by
    generalize hx : w.bits 8 8 = x at hlt
    unfold labelWord
    rw [hx]
    simp only [SWord.bits, BitVec.toNat_ofNat]
    omega
  rw [offsetOf, hb]
  rfl

theorem voidPred_congr (w : SWord) (en : LaneMask) (f g : Lane → Nat) (h : ∀ l, inMask en l = true → f l = g l) :
    voidPred w en f = voidPred w en g := predWrites_congr (fun l hl => by rw [h l hl])

/-- Settles O19: each body is one load, and what it reads is read through the strand's queue. -/
theorem loadsComplete : Obligations.LoadsComplete := by
  refine ⟨?_, ?_, ?_, ?_, ?_, ?_, fun w u a h => ⟨?_, ?_⟩, addressChecks_hold .rd, scratchChecks_hold, lanesFault_hold⟩
  · exact load_of (body := ldBody) (fun _ => rfl) (fun _ _ => rfl) (fun _ _ => rfl) (fun _ => rfl) (fun _ _ _ _ _ => rfl)
      (fun w => ldRead_eq w.size) (fun w s _ r h => (ldBody_eq w s).trans h)
  · exact load_of (body := fun w s => ldsWith w.size noExtra w s) (fun _ => rfl) (fun _ _ => rfl) (fun _ _ => rfl) (fun _ => rfl)
      (fun _ _ _ _ _ => rfl) (fun w => ldsRead_eq w.size) (fun w s _ r h => (ldsWith_eq w.size noExtra w s).trans h)
  · exact load_of (body := ldcBody) (fun _ => rfl) (fun _ _ => rfl) (fun _ _ => rfl) (fun _ => rfl) (fun _ _ _ _ _ => rfl)
      (fun _ _ _ => rfl) (fun w s _ r h => (ldcBody_eq w s).trans h)
  · exact load_of (body := ldaqBody) (fun _ => rfl) (fun _ _ => rfl) (fun _ _ => rfl) (fun _ => rfl) (fun _ _ _ _ _ => rfl)
      (fun w => ldaqRead_eq w.size (scopeOf w)) (fun w s _ r h => ldaqBody_done h)
  · refine load_of (body := ldlBody) (fun _ => rfl) (fun _ _ => rfl) (fun _ _ => rfl) (fun _ => rfl) voidPred_congr
      (fun _ => ldRead_eq 8) (fun w s hc r h => ?_)
    simp only [labelWord_size] at h
    exact (ldlBody_mem s hc).trans h
  · refine load_of (body := ldlBody) (fun _ => rfl) (fun _ _ => rfl) (fun _ _ => rfl) (fun _ => rfl) voidPred_congr
      (fun _ => ldsRead_eq 8) (fun w s hc r h => ?_)
    simp only [labelWord_size] at h
    rw [ldlBody_pad s hc, ldsWith_eq, offsetOf_labelWord]
    exact h
  · exact (ldcRead_fresh h w.size a).trans (ldRead_eq ..)
  · exact badConst_fresh h w.size a

/-! ### Stores -/

theorem stBody_eq (rel : SWord → Scope) (w : SWord) (s : State) : stBody rel w s = storeWith false (rel w) (onceDAB w)
    ((accessLanes (onceDAB w) w s).map (fun l => (l, memTarget s w w.size (offsetOf w) .wr l))) (storeBytes s w w.size) w s := by
  rw [stBody, onceFor_dab]
  rfl

theorem stsBody_eq (w : SWord) (s : State) : stsBody w s = storeWith true 0 (onceDAB w)
    ((accessLanes (onceDAB w) w s).map (fun l => (l, scratchTarget s w w.size (offsetOf w) l))) (storeBytes s w w.size) w s := by
  rw [stsBody, onceFor_dab]
  rfl

/-- STLB, in device memory. -/
theorem stlbBody_mem {w : SWord} (s : State) (h : (w.bits 0 1 == 0) = true) : stlbBody w s = storeWith false 0 (onceDAB w)
    ((accessLanes (onceDAB w) w s).map (fun l => (l, memTarget s (labelWord w) 8 (offsetOf w) .wr l))) (storeBytes s (labelWord w) 8)
    (labelWord w) s := by
  rw [stlbBody, onceFor_dab, if_neg (by rw [beq_iff_eq.mp h]; decide)]
  rfl

/-- STLB, in the scratchpad. -/
theorem stlbBody_pad {w : SWord} (s : State) (h : (w.bits 0 1 == 1) = true) : stlbBody w s = storeWith true 0 (onceDAB w)
    ((accessLanes (onceDAB w) w s).map (fun l => (l, scratchTarget s (labelWord w) 8 (offsetOf w) l))) (storeBytes s (labelWord w) 8)
    (labelWord w) s := by
  rw [stlbBody, onceFor_dab, if_pos (beq_iff_eq.mp h)]
  rfl

/-- Settles O20: each body is one store. -/
theorem storesComplete : Obligations.StoresComplete := by
  refine ⟨?_, ?_, ?_, ?_, ?_, ?_, addressChecks_hold .wr, lanesFault_hold⟩
  · exact store_of (body := stBody (fun _ => 0)) (fun _ => rfl) (fun _ _ => rfl) (fun _ _ => rfl) (fun w s _ => stBody_eq _ w s)
  · exact store_of (body := stsBody) (fun _ => rfl) (fun _ _ => rfl) (fun _ _ => rfl) (fun w s _ => stsBody_eq w s)
  · exact store_of (body := stBody scopeOf) (fun _ => rfl) (fun _ _ => rfl) (fun _ _ => rfl) (fun w s _ => stBody_eq _ w s)
  · exact store_of (body := stBody (fun _ => 0)) (fun _ => rfl) (fun _ _ => rfl) (fun _ _ => rfl) (fun w s _ => stBody_eq _ w s)
  · refine store_of (body := stlbBody) (fun _ => rfl) (fun _ _ => rfl) (fun _ _ => rfl) (fun w s hc => ?_)
    simp only [labelWord_size]
    exact stlbBody_mem s hc
  · refine store_of (body := stlbBody) (fun _ => rfl) (fun _ _ => rfl) (fun _ _ => rfl) (fun w s hc => ?_)
    simp only [labelWord_size]
    exact stlbBody_pad s hc

end Sys2Proof.Machine

end

section
/-! O21: the frame of the stores. First what faults and kept translations leave unchanged, then what a store that completes leaves. -/

namespace Sys2Proof.Machine

set_option autoImplicit false
set_option Elab.async false

/-! ### What faults leave unchanged -/

/-- A state that differs from another in its strands, its cords and the number of traps that have arisen only. -/
def StrandPart (s t : State) : Prop := t = { s with strands := t.strands, cords := t.cords, ops := t.ops }

theorem StrandPart.refl (s : State) : StrandPart s s := rfl

theorem StrandPart.trans {s t u : State} (h : StrandPart s t) (g : StrandPart t u) : StrandPart s u := by
  unfold StrandPart at h g ⊢
  rw [h] at g
  exact g

theorem StrandPart.focus {s t : State} (h : StrandPart s t) : t.focus = s.focus := by rw [StrandPart] at h; rw [h]
theorem StrandPart.mem {s t : State} (h : StrandPart s t) : t.mem = s.mem := by rw [StrandPart] at h; rw [h]

theorem StrandPart.foldl {α : Type} {f : State → α → State} (hf : ∀ s a, StrandPart s (f s a)) (l : List α) (s : State) :
    StrandPart s (l.foldl f s) :=
  List.foldlRecOn l f (.refl s) fun t ht a _ => ht.trans (hf t a)

theorem strandPart_setStrand (s : State) (k : Nat) (t : Strand) : StrandPart s (setStrand s k t) := rfl
theorem strandPart_setMe (s : State) (t : Strand) : StrandPart s (setMe s t) := rfl

theorem strandPart_setClause (s : State) (c : Option Clause) : StrandPart s (setClause s c) := by
  unfold setClause
  dsimp only
  split <;> exact strandPart_setMe ..

theorem strandPart_parkClause (s : State) (m : LaneMask) : StrandPart s (parkClause s m) := by
  unfold parkClause
  split
  · exact .refl s
  · exact strandPart_setClause ..

theorem strandPart_splitLane (s : State) (l : Lane) (code : TrapCode) (addr aux : DWord) (pc : VAddr) (place : Option Nat) :
    StrandPart s (splitLane s l code addr aux pc place) := by
  unfold splitLane nextSeq
  exact .trans (t := { s with ops := s.ops + 1 }) rfl (.trans (strandPart_setMe ..) (strandPart_parkClause ..))

theorem strandPart_splitLanes (pc : VAddr) (place : Option Nat) (fs : List (Lane × TrapCode × DWord × DWord)) (s : State) :
    StrandPart s (splitLanes s pc place fs) := by
  induction fs generalizing s with
  | nil => exact .refl s
  | cons f fs ih => exact .trans (strandPart_splitLane ..) (ih _)

theorem strandPart_escalate (s : State) (cord : Nat) (handled : Option TrapInfo) (t : TrapInfo) :
    StrandPart s (escalate s cord handled t) := by
  rw [escalate_eq]
  exact .trans (t := setCord s cord (escalatedCord s cord handled t)) rfl (.foldl (fun s k => strandPart_setStrand s k _) ..)

theorem strandPart_faultLanes (s : State) (pc : VAddr) (place : Option Nat) (fs : List (Lane × TrapCode × DWord × DWord)) :
    StrandPart s (faultLanes s pc place fs) := by
  unfold faultLanes
  split
  · exact .refl s
  · unfold nextSeq
    dsimp only
    split
    · exact .trans (t := { s with ops := s.ops + 1 }) rfl (strandPart_setMe ..)
    · exact .trans (t := { s with ops := s.ops + 1 }) rfl (strandPart_escalate ..)
  · exact strandPart_splitLanes ..

theorem strandPart_settleAll (s : State) : StrandPart s (settleAll s) := by
  unfold settleAll settle
  split
  · exact .refl s
  · exact .trans (strandPart_setMe s _) (.foldl (fun _ _ => strandPart_faultLanes ..) ..)

/-- Going on after a word leaves device memory. -/
theorem goneOn_mem (sw : Bool) (u : State) : (goneOn sw u).mem = u.mem := by
  cases sw
  · rfl
  · exact (strandPart_settleAll u).mem

/-! ### What keeping translations leaves unchanged (R200, R203) -/

/-- Of each core, only the view and the kept translations have moved. -/
def CachesMoved (s t : State) : Prop := ∀ k, getCore t k = { getCore s k with view := (getCore t k).view, tlb := (getCore t k).tlb }

theorem CachesMoved.refl (s : State) : CachesMoved s s := fun _ => rfl

theorem CachesMoved.trans {s t u : State} (h : CachesMoved s t) (g : CachesMoved t u) : CachesMoved s u := fun k => by
  rw [g k, h k]

theorem CachesMoved.setCore {s : State} {core : Nat} {c : Core}
    (h : c = { getCore s core with view := c.view, tlb := c.tlb }) : CachesMoved s (setCore s core c) := by
  intro k
  rw [getCore_setCore]
  split
  · next hk => rw [hk]; exact h
  · rfl

theorem cachesMoved_cacheTlb (s : State) (core : Nat) (t : Tlb) : CachesMoved s (cacheTlb s core t) := by
  unfold cacheTlb
  dsimp only
  split
  · exact .refl s
  · exact .setCore rfl

theorem cachesMoved_seeDevice (s : State) (core key n : Nat) : CachesMoved s (seeDevice s core key n) := by
  have hv : CachesMoved s (setCore s core { getCore s core with view := dropView (getCore s core).view key n }) := .setCore rfl
  unfold seeDevice
  dsimp only at hv ⊢
  split
  · split
    · exact .refl s
    · exact fun _ => rfl
  · split
    · exact hv
    · exact hv.trans (fun _ => rfl)

theorem cachesMoved_cachePlace (s : State) (p : Place) : CachesMoved s (cachePlace s p) := by
  have ht : CachesMoved s (match p.tlb with | some t => cacheTlb s s.focus.core t | none => s) := by
    split
    · exact cachesMoved_cacheTlb _ _ _
    · exact .refl s
  unfold cachePlace
  dsimp only
  split
  · exact ht.trans (cachesMoved_seeDevice _ _ _ _)
  · exact ht

theorem cachesMoved_cachePlaces (ps : List Acc) (s : State) : CachesMoved s (cachePlaces s ps) :=
  List.foldlRecOn (motive := CachesMoved s) ps _ (.refl s) fun _ ht a _ => ht.trans (cachesMoved_cachePlace _ a.place)

/-! ### What a store that completes leaves (R204) -/

@[simp] theorem issued_stores (i : Instr) (s : State) : (me (issued i s)).stores = (me s).stores := by rw [issued_me]

/-- The state after some stores have joined the queue of the strand in focus, and the translations that they used are kept. -/
def queued (u : State) (qs : List QStore) (acc : List Acc) : State :=
  cachePlaces (setMe u { me u with stores := (me u).stores ++ qs }) acc

theorem queued_me (u : State) (qs : List QStore) (acc : List Acc) : me (queued u qs acc) = { me u with stores := (me u).stores ++ qs } := by
  obtain ⟨c, d, h⟩ := cachePlaces_only acc (setMe u { me u with stores := (me u).stores ++ qs })
  rw [queued, h]
  exact me_setMe ..

/-- From the state in which a word is issued, its stores change the strand's queue, the core's kept translations and its view alone. -/
theorem queued_rest (i : Instr) (s : State) (qs : List QStore) (acc : List Acc) :
    let r := queued (issued i s) qs acc
    (∀ k, getCord r k = getCord s k) ∧ (∀ k, k ≠ focusStrand s → getStrand r k = getStrand s k) ∧
    r = { s with strands := r.strands, cords := r.cords, cores := r.cores, dieLag := r.dieLag } ∧ CachesMoved s r := by
  obtain ⟨hrest, hstrand, hcord, hcore⟩ := effect_rest i s { me (issued i s) with stores := (me (issued i s)).stores ++ qs } 0
  rw [show (0 : Flags) = 0#32 from rfl, orFlags_zero] at hrest hstrand hcord hcore
  obtain ⟨c, d, h⟩ := cachePlaces_only acc (setMe (issued i s) { me (issued i s) with stores := (me (issued i s)).stores ++ qs })
  have hm := cachesMoved_cachePlaces acc (setMe (issued i s) { me (issued i s) with stores := (me (issued i s)).stores ++ qs })
  have hi : CachesMoved s (setMe (issued i s) { me (issued i s) with stores := (me (issued i s)).stores ++ qs }) :=
    fun k => by rw [hcore k]
  refine ⟨fun k => ?_, fun k hk => ?_, ?_, hi.trans hm⟩
  · have hk := hcord k
    rw [if_pos rfl, ite_self] at hk
    rw [queued, h]
    exact hk
  · rw [queued, h]
    exact hstrand k hk
  · rw [queued, h]
    conv => lhs; rw [hrest]

/-- A store that completes, and what it leaves of the rest (R118 to R120, R122). -/
theorem store_frame {mk : SWord → Instr} {cond : SWord → Bool} {scratch : Bool} {rel : SWord → Scope} {v : SWord → SWord}
    {t : SWord → State → Lane → DWord × Except TrapCode Place} (hs : storesAt mk cond scratch rel v t) (w : SWord) (s : State)
    (hi : issues (mk w) s = true) (hc : cond w = true) (hp : placed (onceDAB w) (t w (issued (mk w) s)) w (issued (mk w) s)) :
    ∃ r, exec (mk w) s = .next (goneOn w.sw r) ∧ (∀ key, memRd (goneOn w.sw r).mem key = memRd s.mem key) ∧
      (∀ k, getCord r k = getCord s k) ∧ regsKept (me s) (me r) ∧ (me r).pend = (me s).pend ∧
      (quiet w s = true → regsKept (me s) (me (goneOn w.sw r))) ∧ (∀ k, k ≠ focusStrand s → getStrand r k = getStrand s k) ∧
      r = { s with strands := r.strands, cords := r.cords, cores := r.cores, dieLag := r.dieLag } ∧
      (∀ k, getCore r k = { getCore s k with view := (getCore r k).view, tlb := (getCore r k).tlb }) ∧
      ∀ pad key, (∀ a ∈ accesses (onceDAB w) (t w (issued (mk w) s)) w (issued (mk w) s), pad = scratch →
          key < a.place.key ∨ a.place.key + (v w).size ≤ key) →
        queueRd (me r).stores pad key = queueRd (me s).stores pad key := by
  have hexec := hs w s hi hc hp
  generalize hu : issued (mk w) s = u at hexec
  generalize hacc : accesses (onceDAB w) (t w u) w u = acc at hexec
  generalize hqs : acc.zipIdx.map _ = qs at hexec
  have hme := queued_me u qs acc
  obtain ⟨hcord, hstrand, hrest, hmoved⟩ := queued_rest (mk w) s qs acc
  have hregs : regsKept (me s) (me (queued u qs acc)) := by
    rw [hme]
    exact regsKept_trans (hu ▸ issued_regsKept (mk w) s) ⟨rfl, rfl, rfl, rfl⟩
  have hpend : (me (queued u qs acc)).pend = (me s).pend := by
    rw [hme, ← hu]
    exact issued_pend ..
  rw [hu] at hcord hstrand hrest hmoved
  refine ⟨queued u qs acc, hexec, fun key => ?_, hcord, hregs, hpend, fun hq => ?_, hstrand, hrest, hmoved, fun pad key hk => ?_⟩
  · rw [goneOn_mem, hrest]
  · rw [goneOn_quiet (by unfold quiet at hq ⊢; rw [hpend]; exact hq)]
    refine regsKept_trans hregs ?_
    exact (me_setMe (queued u qs acc) (wentOn (me (queued u qs acc)))).symm ▸ (wentOn_regs _).1
  · rw [hme]
    refine (queueRd_append _ qs pad key (fun q hq => ?_)).trans (by rw [← hu, issued_stores])
    rw [← hqs] at hq
    obtain ⟨x, hx, rfl⟩ := List.mem_map.mp hq
    intro he
    simpa [storeBytes] using hk x.1 (List.fst_mem_of_mem_zipIdx hx) he

/-- Settles O21: the frame of each store, from what it queues. -/
theorem storeFrame : Obligations.StoreFrame := by
  obtain ⟨hst, hsts, hstrl, hstnt, hmem, hpad, -, -⟩ := storesComplete
  exact ⟨store_frame hst.1, store_frame hsts.1, store_frame hstrl.1, store_frame hstnt.1, store_frame hmem.1, store_frame hpad.1⟩

end Sys2Proof.Machine

end

section
/-! O22: atomics. First FXADD, whose flags are those of the lanes that it serves, then the words. -/

namespace Sys2Proof.Machine

set_option autoImplicit false
set_option Elab.async false

/-! ### FXADD (R126) -/

/-- The update that FXADD makes in a lane. -/
def fxaddUpd (w : SWord) (s : State) (old : List Byte) (l : Lane) : Option (List Byte) :=
  some (leBytes 8 (natOf 64 (leNat old + (fxaddTerm w (groupNat s 3 w.c w.ty.regs l)).1)))

/-- The flags that FXADD raises in some lanes. -/
def fxaddFlags (w : SWord) (s : State) (m : LaneMask) : Flags := flagsOf m (fun l => (fxaddTerm w (groupNat s 3 w.c w.ty.regs l)).2)

/-- The word makes one access: none of its registers is a vector. -/
def onceDABC (w : SWord) : Bool := !isVector w.d && !isVector w.a && !isVector w.b && !isVector w.c

theorem onceFor_dabc (w : SWord) : onceFor [w.d, w.a, w.b, w.c] = onceDABC w := by simp [onceFor, onceDABC, Bool.and_assoc]

/-- The lanes whose access FXADD finds in order. -/
def fxaddFine (w : SWord) (s : State) : LaneMask := maskOf (fun l => (accessLanes (onceDABC w) w s).contains l &&
  hasPlace (withPoison false (scopeOf w) (drain s (focusStrand s)) 8 (l, updateTarget false s w 8 l)))

/-- FXADD is an update, and then raises its flags. -/
theorem fxaddBody_done {w : SWord} {s t : State}
    (h : atomicWith false false 8 (scopeOf w) false false (fxaddUpd w s) noExtra w s = .done t) :
    fxaddBody w s = .done (orFlags t (fxaddFlags w s (fxaddFine w s))) := by
  unfold fxaddFine
  rw [← onceFor_dabc]
  unfold fxaddUpd at h
  unfold fxaddBody
  dsimp only
  rw [h]
  rfl

/-- An access has a place where the checks of R116 find no fault. -/
theorem hasPlace_checked (w : SWord) (s : State) (l : Lane) :
    hasPlace (withPoison false (scopeOf w) (drain s (focusStrand s)) 8 (l, updateTarget false s w 8 l)) =
      (updateChecked false false 8 w s l).2.toOption.isSome := by
  have hu : updateTarget false s w 8 l = memTarget s w 8 0 .wr l := rfl
  unfold withPoison updateChecked
  rw [hu]
  dsimp only
  cases hwr : (memTarget s w 8 0 .wr l).2 with
  | error c => simp [hasPlace, hwr, Except.toOption]
  | ok p =>
    cases hrd : (memTarget s w 8 0 .rd l).2 <;> cases hb : badData false (scopeOf w) (drain s (focusStrand s)) p 8 <;>
      simp [hasPlace, hwr, hrd, hb, Except.toOption]

/-- The lanes of FXADD that raise flags are those that it serves. -/
theorem fxaddFine_passing (w : SWord) (s : State) :
    fxaddFine w s = maskOf (fun l => ((passing (onceDABC w) (updateChecked false false 8 w s) w s).map (·.lane)).contains l) := by
  apply mask_ext
  intro l
  rw [fxaddFine, inMask_maskOf, inMask_maskOf, hasPlace_checked, passing, map_lane, Bool.eq_iff_iff]
  simp

theorem mem_lanes_passing {one : Bool} {t : Lane → DWord × Except TrapCode Place} {w : SWord} {s : State}
    (h : ∀ l ∈ accessLanes one w s, (t l).2.toOption.isSome = true) : (passing one t w s).map (·.lane) = accessLanes one w s := by
  rw [passing, map_lane, List.filter_eq_self.mpr h]

theorem updateChecked_sound {w : SWord} {s : State} {l : Lane} {p : Place} (hp : (memTarget s w 8 0 .wr l).2 = .ok p)
    (hb : badData false (scopeOf w) (drain s (focusStrand s)) p 8 = false) :
    (updateChecked false false 8 w s l).2.toOption.isSome = true := by
  have hu : updateTarget false s w 8 l = memTarget s w 8 0 .wr l := rfl
  rw [← hasPlace_checked, hu]
  simp [withPoison, hasPlace, hp, hb]

/-- FXADD where every access passes the checks, without an error in its data. -/
theorem fxadd_updates : updates .fxadd false false (fun _ => 8) (fun _ => false) (fun _ => false) fxaddUpd (fun _ _ _ _ => []) fxaddFlags := by
  intro w s hi hen
  dsimp only
  intro hp hw hs
  have hen' : enabled (issued (.fxadd w) s) w ≠ 0 := by rw [issued_enabled]; exact hen
  have hdone := atomicWith_placed (scratch := false) (reads := false) (z := 8) (sc := scopeOf w) (rel := false) (acq := false)
    (upd := fxaddUpd w (issued (.fxadd w) s)) (extra := noExtra) hen' hp hw hs
  have hfine : ∀ l ∈ accessLanes (onceDABC w) w (issued (.fxadd w) s),
      (updateChecked false false 8 w (issued (.fxadd w) s) l).2.toOption.isSome = true := by
    intro l hl
    obtain ⟨p, hp⟩ : ∃ p, (memTarget (issued (.fxadd w) s) w 8 0 .wr l).2 = .ok p := hw l hl
    have hplace : placeOf (memTarget (issued (.fxadd w) s) w 8 0 .wr l) = p := by rw [placeOf, hp]
    exact updateChecked_sound hp (hplace ▸ hs l hl)
  have hbody := fxaddBody_done hdone
  rw [fxaddFine_passing, mem_lanes_passing hfine] at hbody
  exact congrArg _ (runForm_done (i := .fxadd w) (body := fxaddBody w) rfl hi hbody)

/-- FXADD, whatever the checks say. -/
theorem fxadd_updatesSplit :
    updatesSplit .fxadd false false (fun _ => 8) (fun _ => false) (fun _ => false) fxaddUpd (fun _ _ _ _ => []) fxaddFlags := by
  intro w s hi hen
  dsimp only
  have hen' : enabled (issued (.fxadd w) s) w ≠ 0 := by rw [issued_enabled]; exact hen
  have hdone := atomicWith_split (scratch := false) (reads := false) (z := 8) (sc := scopeOf w) (rel := false) (acq := false)
    (upd := fxaddUpd w (issued (.fxadd w) s)) (extra := noExtra) hen' rfl
  have hbody := fxaddBody_done hdone
  rw [fxaddFine_passing] at hbody
  exact congrArg _ (runForm_done (i := .fxadd w) (body := fxaddBody w) rfl hi hbody)

theorem accessLanes_idle {w : SWord} {s : State} (h : enabled s w = 0) (one : Bool) : accessLanes one w s = [] := by
  cases one
  · exact List.eq_nil_iff_forall_not_mem.mpr (fun l hl => by
      rw [accessLanes, if_neg Bool.false_ne_true, mem_lanesOf, h, inMask_zero] at hl
      cases hl)
  · rw [accessLanes, if_pos rfl, onceLane, h, lowestLane_zero]
    rfl

theorem fxaddBody_idle {w : SWord} {s : State} (h : enabled s w = 0) : fxaddBody w s = .done s := by
  have hd : atomicWith false false 8 (scopeOf w) false false (fxaddUpd w s) noExtra w s = .done s := if_pos h
  have hf : fxaddFine w s = 0 := by
    rw [fxaddFine, accessLanes_idle h]
    exact mask_ext (fun l => by rw [inMask_maskOf, inMask_zero]; rfl)
  have h0 : fxaddFlags w s 0 = 0#32 := rfl
  rw [fxaddBody_done hd, hf, h0, orFlags_zero]

/-! ### The words -/

/-- An instruction whose body is an update: where every access passes the checks, and whatever they say. -/
theorem update_of {mk : SWord → Instr} {f : SWord → Form} {body : SWord → State → Res} {scratch reads : Bool} {z : SWord → Nat}
    {rel acq : SWord → Bool} {upd : SWord → State → List Byte → Lane → Option (List Byte)}
    {extra : SWord → State → LaneMask → (Lane → Nat) → List PendWrite} (hf : ∀ w, strandForm (mk w) = some (w, f w))
    (he : ∀ w s, exec (mk w) s = .next (runWord (mk w) body s))
    (hb : ∀ w s, body w s = atomicWith scratch reads (z w) (scopeOf w) (rel w) (acq w) (upd w s) (extra w s) w s) :
    updates mk scratch reads z rel acq upd extra (fun _ _ _ => 0) ∧ updatesSplit mk scratch reads z rel acq upd extra (fun _ _ _ => 0) :=
  ⟨updates_of hf he hb, updatesSplit_of hf he hb⟩

/-- Settles O22: three of the bodies are one update, and the fourth raises flags behind it. -/
theorem atomicsComplete : Obligations.AtomicsComplete := by
  refine ⟨?_, ?_, ?_, ?_, ?_, ?_, ?_, ?_⟩
  · exact idle_atomic (body := atomBody) (fun _ => rfl) (fun _ _ => rfl) (fun _ _ => rfl)
  · exact idle_atomic (body := casBody) (fun _ => rfl) (fun _ _ => rfl) (fun _ _ => rfl)
  · exact idle_body (body := fxaddBody) (fun _ => rfl) (fun _ _ => rfl) (fun _ _ => fxaddBody_idle)
  · exact idle_atomic (body := atomsBody) (fun _ => rfl) (fun _ _ => rfl) (fun _ _ => rfl)
  · exact update_of (body := atomBody) (fun _ => rfl) (fun _ _ => rfl) (fun _ _ => rfl)
  · exact update_of (body := casBody) (fun _ => rfl) (fun _ _ => rfl) (fun _ _ => rfl)
  · exact ⟨fxadd_updates, fxadd_updatesSplit⟩
  · refine update_of (body := atomsBody) (fun _ => rfl) (fun _ _ => rfl) (fun w s => ?_)
    rw [ite_apply]
    rfl

end Sys2Proof.Machine

end

section
/-! O23: FENCE and PREF. First what a release and an acquire leave of the focus, then the words. -/

namespace Sys2Proof.Machine

set_option autoImplicit false
set_option Elab.async false

/-! ### The focus (R207) -/

theorem DevicePart.focus {s t : State} (h : DevicePart s t) : t.focus = s.focus := by rw [DevicePart] at h; rw [h]

theorem countAdvance_focus (s : State) (vec : Nat) : (countAdvance s vec).focus = s.focus := by
  obtain ⟨_, _, h⟩ := countAdvance_kept s vec
  rw [h]

theorem reachDie_focus (s : State) (die : Nat) (w : Committed) : (reachDie s die w).focus = s.focus := by
  unfold reachDie
  split
  · exact (devicePart_devWr ..).focus
  · rfl

theorem flushDie_focus (s : State) (core : Nat) : (flushDie s core).focus = s.focus :=
  foldl_kept State.focus (fun s w => reachDie_focus s (dieOf core) w) (getCore s core).up (setCore s core { getCore s core with up := [] })

theorem flushDevice_focus (s : State) (die : Nat) : (flushDevice s die).focus = s.focus := (devicePart_leaveDie ..).focus

theorem flushSys_focus (s : State) : (flushSys s).focus = s.focus := flushSysN_kept State.focus countAdvance_focus (fun _ _ _ => rfl) ..

theorem flush_focus (s : State) (core sc : Nat) : (flush s core sc).focus = s.focus := by
  have hd : (flushDevice (flushDie s core) (dieOf core)).focus = s.focus := (flushDevice_focus ..).trans (flushDie_focus ..)
  by_cases h : 4 ≤ sc
  · rw [flush_device s core sc h]
    split
    · exact hd
    · rw [flushSys_focus, hd]
  · by_cases h2 : sc ≤ 2
    · rw [flush, if_pos h2]
    · rw [flush, if_neg h2, if_pos (show sc = 3 by omega)]
      exact flushDie_focus ..

theorem settleUp_focus (s : State) (core key n : Nat) : (settleUp s core key n).focus = s.focus :=
  foldl_kept State.focus (fun s w => reachDie_focus s (dieOf core) w) _ _

theorem commit_focus (s : State) (core key : Nat) (bs : List Byte) (nc : Bool) : (commit s core key bs nc).focus = s.focus := by
  unfold commit
  split
  · rw [(devicePart_devWr ..).focus, settleDie, (devicePart_leaveDie ..).focus]
    exact settleUp_focus ..
  · rfl

theorem commitStore_focus (s : State) (core cord : Nat) (who : Writer) (q : QStore) : (commitStore s core cord who q).focus = s.focus := by
  cases hq : q.scratch
  · obtain ⟨l, hl⟩ := commitStore_memory s core cord who q hq
    rw [hl]
    exact (commit_focus ..).trans (flush_focus ..)
  · rw [commitStore_scratch s core cord who q hq]
    rfl

theorem drain_focus (s : State) (k : Nat) : (drain s k).focus = s.focus := by
  unfold drain
  dsimp only
  split
  · rfl
  · exact foldl_kept State.focus (fun s q => commitStore_focus s (k / 512) (k / 32) (.strand k) q) _ _

theorem release_focus (s : State) (sc : Scope) : (release s sc).focus = s.focus := by
  unfold release
  split
  · rfl
  · exact (flush_focus ..).trans (drain_focus ..)

/-! ### Fences (R121, R127) -/

/-- The state after the release and the acquire of a fence. -/
def fenced (w : SWord) (s : State) : State :=
  let a := if w.bits 3 2 = 1 ∨ w.bits 0 3 = 0 then s else flush (drain s (focusStrand s)) s.focus.core (w.bits 0 3)
  if w.bits 3 2 = 2 then a else refresh a a.focus.core (w.bits 0 3)

theorem fenced_eq (w : SWord) (s : State) :
    fenced w s = (let a := if w.bits 3 2 = 1 then s else release s (w.bits 0 3)
      if w.bits 3 2 = 2 then a else acquire a (w.bits 0 3)) := by
  unfold fenced release acquire
  simp only [ite_or]

theorem fenced_focus (w : SWord) (s : State) : (fenced w s).focus = s.focus := by
  have ha : (if w.bits 3 2 = 1 then s else release s (w.bits 0 3)).focus = s.focus := by
    split
    · rfl
    · exact release_focus ..
  rw [fenced_eq]
  dsimp only
  split
  · exact ha
  · exact (outsideKept_focus (outsideKept_refresh ..)).trans ha

theorem consts_filter_eq (s : State) (p : Held → Bool) :
    (if s.consts.isEmpty then s else { s with consts := s.consts.filter p }) = { s with consts := s.consts.filter p } := by
  split
  · next h =>
    have hn : s.consts.filter p = s.consts := by rw [List.isEmpty_iff.mp h, List.filter_nil]
    rw [hn]
  · rfl

/-- The constant cache after a fence: where nothing is queued or held, nothing is marked or dropped. -/
theorem dropConsts_eq {s : State} {k : Nat} (hk : focusStrand s = k) (sc : Scope) :
    dropConsts s k sc =
      (let c := if (me s).stores = [] then s else setMe s { me s with stores := (me s).stores.map (fun q => { q with fenced := true }) }
      { c with consts := c.consts.filter (fun h => !(h.cord == k / 32 && (decide (h.need ≤ sc) || h.own.getLsbD (k % 32)))) }) := by
  subst hk
  refine (consts_filter_eq _ _).trans ?_
  simp only [List.isEmpty_iff]
  rfl

theorem fenceBody_enabled {w : SWord} {s : State} (h : (enabled s w != 0) = true) :
    fenceBody w s = .done (dropConsts (fenced w s) (focusStrand s) (w.bits 0 3)) := by
  rw [← (focus_keys (fenced_focus w s)).1, fenced_eq]
  exact if_neg (bne_iff_ne.mp h)

/-- Settles O23: a fence is a release and an acquire by its kind, before the constant cache. -/
theorem fencesComplete : Obligations.FencesComplete := by
  refine ⟨?_, ?_, ?_⟩
  · exact idle_body (body := fenceBody) (fun _ => rfl) (fun _ _ => rfl) (fun _ _ h => if_pos h)
  · refine doesIf_of (body := fenceBody) (fun _ => rfl) (fun _ _ => rfl) (fun w u h => ?_)
    rw [fenceBody_enabled h, dropConsts_eq (focus_keys (fenced_focus w u)).1]
    rfl
  · exact does_of (body := fun _ s => .done s) (fun _ => rfl) (fun _ _ => rfl) (fun _ _ => rfl)

end Sys2Proof.Machine

end

section
/-! O29: the words of the extended block, and SLEEP. First what XACQ answers once its kernel may hold the block, then the words. -/

namespace Sys2Proof.Machine

set_option autoImplicit false
set_option Elab.async false

/-! ### XACQ (R162, R193) -/

/-- The kernel of the cord in focus may hold an extended block. -/
def mayHoldBlock (s : State) : Bool := (myCord s).hdr.flags.getLsbD 0

/-- The quadrant of the strand in focus has room for a block, and no older request waits there. -/
def blockTurn (s : State) : Bool :=
  let q := xacqQueue s s.focus.core (focusStrand s % 4)
  decide (128 ≤ freeRegs s s.focus.core (focusStrand s % 4)) && (q.head? == none || q.head? == some (focusStrand s))

/-- The answer that the try form writes to its predicate; the waiting form writes none. -/
def xacqAnswer (w : SWord) (b : Bool) (s : State) : State := if w.bits 0 1 == 1 then putPred s w w.d.toNat b else s

/-- The request of the strand in focus stands in the queue: a strand that waits keeps its place, another goes to the end. -/
def xacqQueued (s : State) : State :=
  if (myCore s).xacq.contains (focusStrand s) && waitsXacq (me s) then s
  else setMyCore s { myCore s with xacq := (myCore s).xacq.filter (· != focusStrand s) ++ [focusStrand s] }

theorem xacqBody_barred {w : SWord} {s : State} (h : mayHoldBlock s = false) : xacqBody w s = .trap .illop 0 := by
  rw [mayHoldBlock] at h
  unfold xacqBody
  rw [h]
  rfl

/-- XACQ where its kernel may hold the block, made once for the strand. -/
theorem xacqBody_allowed {w : SWord} {s : State} (h : mayHoldBlock s = true) :
    xacqBody w s = once (fun w _ s =>
      if (me s).ext then .done (xacqAnswer w true s)
      else if blockTurn s then .done (xacqAnswer w true (takeBlock s))
      else if w.bits 0 1 == 1 then .done (xacqAnswer w false s)
      else .wait .xacq (xacqQueued s)) w s := by
  rw [mayHoldBlock] at h
  unfold xacqBody
  rw [h]
  rfl

theorem xacqBody_idle {w : SWord} {s : State} (h : mayHoldBlock s = true) (he : enabled s w = 0) : xacqBody w s = .done s := by
  rw [xacqBody_allowed h, once_none he]

section Enabled
variable {w : SWord} {l : Lane} {s : State} (hl : lowestLane (enabled s w) = some l) (hm : mayHoldBlock s = true)
include hl hm

theorem xacqBody_held (hx : (me s).ext = true) : xacqBody w s = .done (xacqAnswer w true s) := by
  rw [xacqBody_allowed hm, once_some hl, if_pos hx]

theorem xacqBody_takes (hx : (me s).ext = false) (ht : blockTurn s = true) : xacqBody w s = .done (xacqAnswer w true (takeBlock s)) := by
  rw [xacqBody_allowed hm, once_some hl, if_neg (ne_true_of_eq_false hx), if_pos ht]

/-- XACQ where the strand holds no block and it is not its turn: the try form goes on, the other waits. -/
theorem xacqBody_noTurn (hx : (me s).ext = false) (ht : blockTurn s = false) :
    xacqBody w s = if w.bits 0 1 == 1 then .done (xacqAnswer w false s) else .wait .xacq (xacqQueued s) := by
  rw [xacqBody_allowed hm, once_some hl, if_neg (ne_true_of_eq_false hx), if_neg (ne_true_of_eq_false ht)]

end Enabled

/-! ### SLEEP (R317) -/

/-- The enabled threads sleep for n cycles, at the next word. -/
def sleptFor (n : Nat) (w : SWord) (s : State) : State :=
  parkClause (setMe s ((me s).modThreads (enabled s w) (fun _ x => { x with
    st := .parked (.sleep n), pc := (nextPosition s).1, place := (nextPosition s).2 }))) (enabled s w)

/-- SLEEP with an enabled lane: a count of 0 or a hitch that is due lets the threads go on. -/
theorem sleepBody_eq {w : SWord} {l : Lane} {s : State} (hl : lowestLane (enabled s w) = some l) :
    sleepBody w s = if (opB1 s w l).toNat = 0 || (me s).due != 0 then .done s else .done (sleptFor (opB1 s w l).toNat w s) := by
  unfold sleepBody
  rw [once_some hl]
  rfl

theorem sleepBody_goes {w : SWord} {l : Lane} {s : State} (hl : lowestLane (enabled s w) = some l)
    (h : (opB1 s w l == 0 || (me s).due != 0) = true) : sleepBody w s = .done s := by
  rw [sleepBody_eq hl, if_pos]
  rcases Bool.or_eq_true_iff.mp h with h0 | hd
  · rw [beq_iff_eq.mp h0]; rfl
  · rw [hd, Bool.or_true]

theorem sleepBody_sleeps {w : SWord} {l : Lane} {s : State} (hl : lowestLane (enabled s w) = some l)
    (h0 : opB1 s w l ≠ 0) (hd : (me s).due = 0) : sleepBody w s = .done (sleptFor (opB1 s w l).toNat w s) := by
  have hn : (opB1 s w l).toNat ≠ 0 := fun h => h0 (BitVec.eq_of_toNat_eq h)
  rw [sleepBody_eq hl, if_neg (by simp [hn, hd])]

/-! ### The obligation -/

/-- Settles O29: XACQ by the flag, the block and the turn; XREL and SLEEP act once for the strand. -/
theorem blocksComplete : Obligations.BlocksComplete := by
  refine ⟨?_, ?_, ?_, ?_, ?_, ?_, ?_, ?_, ?_, ?_, ?_⟩
  · exact trapsIf_of (body := xacqBody) (fun _ => rfl) (fun _ _ => rfl) (fun _ _ h => xacqBody_barred ((Bool.not_eq_true' _).mp h))
  · refine doesIf_of (body := xacqBody) (fun _ => rfl) (fun _ _ => rfl) (fun w u h => ?_)
    obtain ⟨hm, he⟩ := Bool.and_eq_true_iff.mp h
    exact xacqBody_idle hm (beq_iff_eq.mp he)
  · refine doesOnce_body (body := xacqBody) (fun _ => rfl) (fun _ _ => rfl) (fun w l u hl h => ?_)
    obtain ⟨hm, hx⟩ := Bool.and_eq_true_iff.mp h
    exact xacqBody_held hl hm hx
  · refine doesOnce_body (body := xacqBody) (fun _ => rfl) (fun _ _ => rfl) (fun w l u hl h => ?_)
    simp only [Bool.and_eq_true, Bool.not_eq_true'] at h
    obtain ⟨⟨hm, hx⟩, ht⟩ := h
    exact xacqBody_takes hl hm hx (Bool.and_eq_true_iff.mpr ht)
  · refine doesOnce_body (body := xacqBody) (fun _ => rfl) (fun _ _ => rfl) (fun w l u hl h => ?_)
    simp only [Bool.and_eq_true, Bool.not_eq_true'] at h
    obtain ⟨⟨⟨hm, hx⟩, ht⟩, htry⟩ := h
    exact (xacqBody_noTurn hl hm hx ht).trans (if_pos htry)
  · refine waitsOnce_body (body := xacqBody) (fun _ => rfl) (fun _ _ => rfl) (fun w l u hl h => ?_)
    simp only [Bool.and_eq_true, Bool.not_eq_true'] at h
    obtain ⟨⟨⟨hm, hx⟩, ht⟩, htry⟩ := h
    exact (xacqBody_noTurn hl hm hx ht).trans (if_neg (ne_true_of_eq_false htry))
  · exact idle_body (body := xrelBody) (fun _ => rfl) (fun _ _ => rfl) (fun _ _ h => once_none h)
  · exact doesOnce_body (body := xrelBody) (fun _ => rfl) (fun _ _ => rfl) (fun _ _ _ hl _ => once_some hl)
  · exact idle_body (body := sleepBody) (fun _ => rfl) (fun _ _ => rfl) (fun _ _ h => once_none h)
  · exact doesOnce_body (body := sleepBody) (fun _ => rfl) (fun _ _ => rfl) (fun _ _ _ hl h => sleepBody_goes hl h)
  · refine doesOnce_body (body := sleepBody) (fun _ => rfl) (fun _ _ => rfl) (fun w l u hl h => ?_)
    obtain ⟨h0, hd⟩ := Bool.and_eq_true_iff.mp h
    exact sleepBody_sleeps hl (bne_iff_ne.mp h0) (beq_iff_eq.mp hd)

end Sys2Proof.Machine

end

section
/-! O43: the events of objects and tasks. First Tilth's events, then promotions and decisions, then the ends and saves of cords, and last
the energy credit. -/

namespace Sys2Proof.Machine

set_option autoImplicit false
set_option Elab.async false

/-! ### Reclaim (R221) -/

/-- The event of the job and tier in focus stands no longer. -/
def lowNoted (s : State) : State := { s with lowDue := s.lowDue.filter (· != (s.focus.ix, s.focus.row)) }

theorem reclaim_notDue {s : State} (h : (s.focus.ix, s.focus.row) ∉ s.lowDue) : exec .reclaim s = .next s :=
  congrArg Host.Outcome.next (if_neg (mt List.contains_iff_mem.mp h))

theorem reclaim_due {s : State} (h : (s.focus.ix, s.focus.row) ∈ s.lowDue) :
    exec .reclaim s = .next (reclaimFrom s.focus.ix s.focus.row (aGet {} s.jobs s.focus.ix).tlen (returnAll (lowNoted s) s.focus.ix)) :=
  congrArg Host.Outcome.next (if_pos (List.contains_iff_mem.mpr h))

/-- Tilth ends no object where the free count has reached HIGH, or there is no candidate. -/
theorem reclaimFrom_stops {s : State} {job tier : Nat} (n : Nat)
    (h : highMark s job tier ≤ freeFrames s job tier ∨ candidateOf s job tier = none) : reclaimFrom job tier n s = s := by
  cases n with
  | zero => rfl
  | succ n =>
    rw [reclaimFrom]
    rcases h with hf | hc
    · exact if_neg (Nat.not_lt.mpr hf)
    · rw [hc]; exact ite_self s

/-- Below HIGH Tilth ends the candidate, and goes on. -/
theorem reclaimFrom_ends {s : State} {job tier n i : Nat} {o : Obj} (hf : freeFrames s job tier < highMark s job tier)
    (hc : candidateOf s job tier = some (i, o)) :
    reclaimFrom job tier (n + 1) s = reclaimFrom job tier n (returnObject (endObject s job i o) job i) := by
  rw [reclaimFrom, if_pos hf, hc]

/-! ### Free entries (R215, R222) -/

theorem freeBelow_nil {s : State} {job i : Nat} (h : ∀ k, k < i → (getObj s job k).st ≠ 0) : freeBelow s job i = [] := by
  induction i with
  | zero => rfl
  | succ i ih =>
    rw [freeBelow]
    exact (if_pos (bne_iff_ne.mpr (h i (Nat.lt_succ_self i)))).trans (ih fun k hk => h k (Nat.lt_succ_of_lt hk))

/-- Where no entry below a free one is free, only its own link changes. -/
theorem relink_lowest {s : State} {job i : Nat} (h0 : (getObj s job i).st = 0) (h : ∀ k, k < i → (getObj s job k).st ≠ 0) :
    relink s job i = setObj s job i { getObj s job i with age := nextFree s job i } := by
  rw [relink, freeBelow_nil h]
  exact if_pos h0

/-! ### BTINV (R235) -/

/-- BTINV_COMPLETE of a BTINV that waits: by whether an operation still holds one of its pins. -/
theorem btinvComplete_eq {s : State} {b : BtInv} (h : s.btinvs[s.focus.ix]? = some b) :
    exec .btinvComplete s = if b.ops.any (stillPins s) then .next s
      else .next (writeToken { s with btinvs := lDel s.btinvs s.focus.ix } (b.cord * 32 + b.strand) b.token 0 4) := by
  change execBtinvComplete s = _
  unfold execBtinvComplete
  rw [h]

/-! ### Promotions (R323) -/

/-- The record as it stands in the next level's FIFO. -/
def promotedItem (l : Nat) (x : QItem) : QItem :=
  match x with
  | .task t b => .task (t.atLevel (l + 1)) b
  | .launch y => .launch y

theorem passCountPromotion_moves {s : State} {r : QRec} (h : (getFifo s s.focus.ix s.focus.row)[s.focus.slot]? = some r)
    (hp : 4096 ≤ r.passes) (hl : s.focus.row < 15) :
    exec .passCountPromotion s =
      (let t := setFifo s s.focus.ix s.focus.row (lDel (getFifo s s.focus.ix s.focus.row) s.focus.slot)
      .next (setFifo t s.focus.ix (s.focus.row + 1)
        (getFifo t s.focus.ix (s.focus.row + 1) ++ [{ item := promotedItem s.focus.row r.item, passes := 0 }]))) := by
  change execPassCountPromotion s = _
  unfold execPassCountPromotion
  dsimp only
  rw [h]
  have hn : ¬ (decide (r.passes < 4096) || decide (15 ≤ s.focus.row)) = true := by simp; omega
  exact if_neg hn

/-! ### Decisions (R168, R320, R321) -/

theorem freeSlot_isSome {s : State} {core : Nat} :
    (freeSlot s core).isSome = true ↔ ∃ i, i < 16 ∧ aGet? s.cords (16 * core + i) = none := by
  rw [freeSlot, freeKey, List.find?_isSome]
  simp [Nat.mul_comm core 16]

theorem mayDecide_iff {s : State} {core : Nat} : mayDecide s core = true ↔
    core < 128 ∧ s.present.getLsbD core = true ∧ core ∉ s.mgmt.off ∧ ∃ i, i < 16 ∧ aGet? s.cords (16 * core + i) = none := by
  rw [← freeSlot_isSome, mayDecide]
  simp [and_assoc]

theorem dispatchDecision_may {s : State} (h : mayDecide s s.focus.core = true) :
    exec .dispatchDecision s = .next (promoteFirst (decide' s s.focus.core)) :=
  congrArg Host.Outcome.next (if_pos h)

section Chosen
variable {s t : State} {core l q : Nat} {h : QRec} {rest : List QRec} (hc : choose s core 16 = some (l, q, t))
  (hq : getFifo t q l = h :: rest)
include hc hq

/-- A decision whose head is refused (R320). -/
theorem decide_refused {c : TrapCode} (hv : headVerdict t core q l = .refused c) :
    decide' s core = reportEnd (discardSaved (popHeads t q l 1) (itemTask t q l h.item)) (itemJob t q h.item) (itemTask t q l h.item).succ
      (originOf t h.item (itemTask t q l h.item)) (some c) := by
  simp only [decide', hc, hq, hv]

/-- A decision whose head starts alone: its cord holds the token (R168). -/
theorem decide_alone {x : Ready} {a : Nat} {u : State} (hv : headVerdict t core q l = .alone x)
    (hp : placeTask (popHeads t q l 1) (placedCore t core q l (affinityKey h.item (itemTask t q l h.item) x.hdr)) q l h.item
      (itemTask t q l h.item) x = some (a, u)) :
    decide' s core =
      (let key := affinityKey h.item (itemTask t q l h.item) x.hdr
      noteVacated (noteHome (holdAlone u a) key (placedCore t core q l key)) (placedCore t core q l key) l) := by
  simp only [decide', hc, hq, hv, hp]

end Chosen

/-- A decision whose head starts with the record behind it, as partners (R168). -/
theorem decide_pair {s t : State} {core l q : Nat} {h b : QRec} {rest : List QRec} (hc : choose s core 16 = some (l, q, t))
    (hq : getFifo t q l = h :: b :: rest) {x y : Ready} {a a' : Nat} {u u' : State} (hv : headVerdict t core q l = .pair x y)
    (hp : placeTask (popHeads t q l 2) (placedCore t core q l (affinityKey h.item (itemTask t q l h.item) x.hdr)) q l h.item
      (itemTask t q l h.item) x = some (a, u))
    (hp' : placeTask u (placedCore t core q l (affinityKey h.item (itemTask t q l h.item) x.hdr)) q l b.item
      (itemTask t q l b.item) y = some (a', u')) :
    decide' s core =
      (let key := affinityKey h.item (itemTask t q l h.item) x.hdr
      noteVacated (noteHome (makePartners u' a a' (!(itemTask t q l h.item).resume)) key (placedCore t core q l key))
        (placedCore t core q l key) l) := by
  simp only [decide', hc, hq, hv, List.head?_cons, hp, hp']

/-! ### Ends and saves (R326, R371 to R373) -/

/-- TASK_END of a cord for which R326 waits for nothing more. -/
theorem taskEnd_ready {s : State} (h : endReady s (focusCord s) = true) :
    exec .taskEnd s =
      (let k := focusCord s
      let c := myCord s
      let t := reconcile (chargeQueue (leavePartner (dropArea s k) k) k) k
      let u := flush (dropCord t k) t.focus.core 4
      .next (reportEnd { u with recs := u.recs.filter (fun e => e.2.2 != c.uid) } c.job c.task.succ c.origin (endTrap s k))) := by
  have hn : ¬ (!endReady s (focusCord s)) = true := by rw [h]; exact Bool.false_ne_true
  exact if_neg hn

/-- The cords of a save in the order of their records: the cord in focus and its partner, the token's holder first. -/
def savedPair (s : State) : List Nat :=
  match (myCord s).partner with
  | some p => if (myCord s).token then [focusCord s, p] else [p, focusCord s]
  | none => [focusCord s]

/-- The states and headers of a save are written. -/
def savesWritten (s : State) (ks : List Nat) : State := ks.foldl writeArea (ks.foldl settleCord (ks.foldl quiesceCord s))

theorem cordSave_ready {s : State} (h : ∀ k ∈ savedPair s, saveReady s k = true) :
    exec .cordSave s =
      (let ks := savedPair s
      let t := savesWritten s ks
      let u := ks.foldl dropCord t
      .next ((ks.map (savedOf t)).reverse.foldl requeue { u with saved := u.saved ++ ks.map (savedOf t) })) := by
  have hn : ¬ (!(savedPair s).all (saveReady s)) = true := by rw [List.all_eq_true.mpr h]; exact Bool.false_ne_true
  exact if_neg hn

/-! ### Energy (R324, R405) -/

/-- A queue's credit after a period. -/
def periodCredit (e : QueueEnt) (c : Int) : Int := if e.valid then min (max c e.ecap) (c + e.erate) else c

/-- A period adds to the credit of one queue. -/
def addCredit (m : AMap Int) (e : Nat × QueueEnt) : AMap Int :=
  if e.2.valid then aMod 0 m e.1 (fun c => min (max c e.2.ecap) (c + e.2.erate)) else m

theorem aGet_addCredit (m : AMap Int) (e : Nat × QueueEnt) (q : Nat) :
    aGet 0 (addCredit m e) q = if q = e.1 then periodCredit e.2 (aGet 0 m q) else aGet 0 m q := by
  unfold addCredit periodCredit
  split
  · rw [aMod, aGet_aSet]
    split
    · next h => rw [h]
    · rfl
  · exact (ite_self _).symm

theorem addCredit_otherQueues (qs : AMap QueueEnt) {q : Nat} (h : q ∉ qs.map (·.1)) (m : AMap Int) :
    aGet 0 (qs.foldl addCredit m) q = aGet 0 m q := by
  induction qs generalizing m with
  | nil => rfl
  | cons e qs ih =>
    obtain ⟨hq, hqs⟩ := not_or.mp (mt List.mem_cons.mpr h)
    rw [List.foldl_cons, ih hqs, aGet_addCredit, if_neg hq]

/-- A period adds once to the credit of each queue of the table. -/
theorem aGet_foldl_addCredit (qs : AMap QueueEnt) (h : (qs.map (·.1)).Nodup) (m : AMap Int) (q : Nat) :
    aGet 0 (qs.foldl addCredit m) q = periodCredit (aGet {} qs q) (aGet 0 m q) := by
  induction qs generalizing m with
  | nil => rfl
  | cons e qs ih =>
    obtain ⟨he, hqs⟩ := List.nodup_cons.mp h
    rw [List.foldl_cons]
    by_cases hq : q = e.1
    · have hhead : aGet {} (e :: qs) q = e.2 := by rw [aGet, aGet?, if_pos hq]; rfl
      rw [addCredit_otherQueues qs (hq ▸ he), aGet_addCredit, if_pos hq, hhead]
    · have htail : aGet {} (e :: qs) q = aGet {} qs q := by rw [aGet, aGet?, if_neg hq]; rfl
      rw [ih hqs, aGet_addCredit, if_neg hq, htail]

/-! ### The obligation -/

/-- Settles O43: each event by its conditions; a period's credit by induction on the queue table. -/
theorem objectAndTaskEventsComplete : Obligations.ObjectAndTaskEventsComplete := by
  refine ⟨?notLow, ?stops, ?ends, ?returned, ?link, ?released, ?pinned, ?promoted, ?noDecision, ?alone, ?refused, ?paired, ?taskEnd, ?save,
    ?energy⟩
  case notLow => exact fun s h => reclaim_notDue h
  case stops =>
    intro s h t hs
    rw [reclaim_due h]
    exact congrArg Host.Outcome.next (reclaimFrom_stops _ hs)
  case ends =>
    intro s i o n h t hf hc hn
    rw [reclaim_due h, hn]
    exact congrArg Host.Outcome.next (reclaimFrom_ends hf hc)
  case returned => exact fun s h => congrArg Host.Outcome.next (if_pos h)
  case link => exact fun s job i h0 h => relink_lowest h0 h
  case released =>
    intro s b hb hn
    rw [btinvComplete_eq hb, List.any_eq_false.mpr fun x hx => ne_true_of_eq_false (hn x hx), if_neg Bool.false_ne_true]
  case pinned => exact fun s b x hb hx hp => (btinvComplete_eq hb).trans (if_pos (List.any_eq_true.mpr ⟨x, hx, hp⟩))
  case promoted => exact fun s r h hp hl => passCountPromotion_moves h hp hl
  case noDecision => exact fun s h => congrArg Host.Outcome.next (if_neg (mt mayDecide_iff.mp h))
  case alone =>
    intro s l q t h rest x a u hd hc hq hv r key core hp
    rw [dispatchDecision_may (mayDecide_iff.mpr hd), decide_alone hc hq hv hp]
    rfl
  case refused =>
    intro s l q t h rest c hd hc hq hv r
    rw [dispatchDecision_may (mayDecide_iff.mpr hd), decide_refused hc hq hv]
    rfl
  case paired =>
    intro s l q t h b rest x y a a' u u' hd hc hq hv r key core hp hp'
    rw [dispatchDecision_may (mayDecide_iff.mpr hd), decide_pair hc hq hv hp hp']
    rfl
  case taskEnd => exact fun s h => taskEnd_ready h
  case save =>
    intro s ks hks h t u
    subst hks
    exact cordSave_ready h
  case energy => exact fun s mw => ⟨_, rfl, rfl, fun h q => aGet_foldl_addCredit s.queues h s.credit q⟩

end Sys2Proof.Machine

end

section
/-! O13, O14: words across lanes. First what words leave whose results of any lanes come later, then the values in other words, then the
words. -/

namespace Sys2Proof.Machine

set_option autoImplicit false
set_option Elab.async false

/-! ### Results that come later (R22) -/

/-- A write of a register from a strand with the same registers. -/
theorem wrote_from {w : SWord} {n : Nat} {en : LaneMask} {val : Lane → DWord} {a t b : Strand} (h : regsKept a t) (hb : wrote w n en val t b) :
    wrote w n en val a b := by
  obtain ⟨hv, hs, hp⟩ := h
  obtain ⟨gv, gs, gp⟩ := hb
  refine ⟨fun r l => ?_, fun r => ?_, gp.1.trans hp.1, gp.2.trans hp.2⟩
  · rw [gv r l]
    simp only [vLane, hv]
  · rw [gs r, hs]

/-- A write of n registers from D up and then of n from A up. -/
def wrotePair (w : SWord) (n : Nat) (en : LaneMask) (d a : Lane → DWord) (x y : Strand) : Prop :=
  ∃ z, wrote w n en d x z ∧ wrote { w with d := w.a } n en a z y

/-- Making the writes of both register results leaves both written. -/
theorem foldl_regWrites_pair (w : SWord) (n : Nat) (en : LaneMask) (d a : Lane → DWord) (t : Strand) :
    let u := (regWrites w.d n en d ++ regWrites w.a n en a).foldl makeWrite t
    wrotePair w n en d a t u ∧ (t.pend = [] → u.pend = []) := by
  rw [List.foldl_append]
  obtain ⟨hd, _, pd⟩ := foldl_regWrites w n en d t
  obtain ⟨ha, _, pa⟩ := foldl_regWrites { w with d := w.a } n en a ((regWrites w.d n en d).foldl makeWrite t)
  exact ⟨⟨_, hd, ha⟩, pa ∘ pd⟩

theorem wrotePair_kept {w : SWord} {n : Nat} {en : LaneMask} {d a : Lane → DWord} {x x' y y' : Strand} (hx : regsKept x x')
    (hy : regsKept y y') (h : wrotePair w n en d a x' y) : wrotePair w n en d a x y' := by
  obtain ⟨z, hd, ha⟩ := h
  exact ⟨z, wrote_from hx hd, wrote_kept ha hy⟩

/-- The state once the word that issues has made writes outstanding (R22). -/
def outstanding (ws : List PendWrite) (s : State) : State :=
  setMe s (pushPend (me s) .sh ws [] (curClause s).hdr (curClause s).word)

/-- Making writes outstanding in the issued state leaves the current clause's address with them, and raises no flag. -/
theorem outstanding_issued (i : Instr) (s : State) (ws : List PendWrite) : Res.done (outstanding ws (issued i s)) =
    .done (orFlags (setMe (issued i s) (pushPend (me (issued i s)) .sh ws [] (curClause s).hdr (curClause s).word)) 0) := by
  rw [outstanding, issued_curClause]
  exact congrArg Res.done (orFlags_zero _).symm

/-- A word whose body makes a register result of some lanes outstanding. -/
theorem word_outstanding_reg {i : Instr} {w : SWord} {f : Form} {body : SWord → State → Res} {s : State} {n : Nat} {en : LaneMask}
    {val : Lane → DWord} (hf : strandForm i = some (w, f)) (hi : issues i s = true)
    (hb : body w (issued i s) = .done (outstanding (regWrites w.d n en val) (issued i s))) :
    ∃ u, Host.Outcome.next (runWord i body s) = (.next (goneOn w.sw u) : Out) ∧ wordLater .sh (regWrites w.d n en val) 0 s u ∧
      madeBy w.sw (wrote w n en val) s u := by
  obtain ⟨u, h, hu⟩ := word_later (made := wrote w n en val) hf hi regWrites_unraced
    (fun t => have ⟨h, _, hp⟩ := foldl_regWrites w n en val t; ⟨h, hp⟩)
    (fun _ _ _ _ ha hb h => wrote_from ha (wrote_kept h hb)) (hb.trans (outstanding_issued i s _))
  exact ⟨u, congrArg Host.Outcome.next ((runWord_eq body s hf).trans h), hu⟩

/-- A word whose body makes both of its registers outstanding results. -/
theorem word_outstanding_pair {i : Instr} {w : SWord} {f : Form} {body : SWord → State → Res} {s : State} {n : Nat} {en : LaneMask}
    {d a : Lane → DWord} (hf : strandForm i = some (w, f)) (hi : issues i s = true)
    (hb : body w (issued i s) = .done (outstanding (regWrites w.d n en d ++ regWrites w.a n en a) (issued i s))) :
    ∃ u, Host.Outcome.next (runWord i body s) = (.next (goneOn w.sw u) : Out) ∧
      wordLater .sh (regWrites w.d n en d ++ regWrites w.a n en a) 0 s u ∧ madeBy w.sw (wrotePair w n en d a) s u := by
  obtain ⟨u, h, hu⟩ := word_later (made := wrotePair w n en d a) hf hi
    (fun x hx => (List.mem_append.mp hx).elim (regWrites_unraced x) (regWrites_unraced x))
    (foldl_regWrites_pair w n en d a) (fun _ _ _ _ => wrotePair_kept) (hb.trans (outstanding_issued i s _))
  exact ⟨u, congrArg Host.Outcome.next ((runWord_eq body s hf).trans h), hu⟩

/-- A word whose body makes a predicate outstanding in the enabled lanes. -/
theorem word_outstanding_pred {i : Instr} {w : SWord} {f : Form} {body : SWord → State → Res} {s : State} {k : Nat} (hk : k < 8)
    {en : LaneMask} {val : Lane → Bool} (hf : strandForm i = some (w, f)) (hi : issues i s = true)
    (hb : body w (issued i s) = .done (outstanding (predWrites k en val) (issued i s))) :
    ∃ u, Host.Outcome.next (runWord i body s) = (.next (goneOn w.sw u) : Out) ∧ wordLater .sh (predWrites k en val) 0 s u ∧
      madeBy w.sw (fun x y => predsAfter k en val x y ∧ y.v = x.v ∧ y.s = x.s) s u := by
  obtain ⟨u, h, hu⟩ := word_later_pred (body := body w) (c := .sh) hk hf hi
    (hb.trans (by rw [outstanding, issued_curClause]))
  exact ⟨u, congrArg Host.Outcome.next ((runWord_eq body s hf).trans h), hu⟩

theorem flagsOf_none (m : LaneMask) : flagsOf m (fun _ => 0) = 0#32 := by
  unfold flagsOf
  simp

/-- A result without flags is its writes, outstanding. -/
theorem result_outstanding (w : SWord) (n : Nat) (val : Lane → DWord) (s : State) :
    result w .sh n (fun l => (val l, 0)) s = outstanding (regWrites w.d n (computeLanes s w) val) s := by
  exact (congrArg (orFlags _) (flagsOf_none _)).trans (orFlags_zero _)

/-- A word across lanes leaves its values, written in any other way, in its register later. -/
theorem writesLater_crossLane {mk : SWord → Instr} {f : SWord → Form} {n : SWord → Nat} {g val : SWord → State → Lane → DWord}
    (hf : ∀ w, strandForm (mk w) = some (w, f w)) (he : ∀ w s, exec (mk w) s = .next (runWord (mk w) (crossLane g n) s))
    (e : ∀ w s l, g w s l = val w s l) : writesLater mk .sh n (fun w s l => (val w s l, 0)) :=
  writesLater_congr (fun w s l => congrArg (·, 0) (e w s l))
    (writesLater_lanes (cl := .sh) rfl n (fun w s l => (g w s l, 0)) hf he)

/-! ### Moves (R173 to R176) -/

theorem laneOfNat_mod (n : Nat) : laneOfNat (n % 32) = Fin.ofNat 32 n := Fin.ext (Nat.mod_mod n 32)

/-- The operand that SHFL takes from its source lane, or D's own value where there is none. -/
theorem shflSource_value (w : SWord) (s : State) (l : Lane) (b : Nat) :
    (match shflSource w.c.toNat l.val b with | some q => opA s w q | none => opD s w l) = match w.c.toNat with
    | 0 => opA s w (Fin.ofNat 32 b)
    | 1 => opA s w (Fin.ofNat 32 (l.val ^^^ (b % 32)))
    | 2 => if l.val + b < 32 then opA s w (Fin.ofNat 32 (l.val + b)) else opD s w l
    | _ => if b ≤ l.val then opA s w (Fin.ofNat 32 (l.val - b)) else opD s w l := by
  match w.c.toNat with
  | 0 => exact congrArg (opA s w) (laneOfNat_mod b)
  | 1 => rfl
  | 2 =>
    simp only [shflSource]
    split_ifs <;> rfl
  | n + 3 =>
    simp only [shflSource]
    split_ifs <;> rfl

/-- A lane of a pair takes the smaller value where it is the lower one or its predicate holds, but not both (R175). -/
theorem beq_bne_iff (l m : Lane) (p : Bool) : ((l == m) != p) = true ↔ (l = m) ≠ (p = true) := by
  by_cases h : l = m <;> cases p <;> simp [h]

theorem bxchLane_eq (w : SWord) (s : State) (l : Lane) : bxchLane w s l =
    let q : Lane := Fin.ofNat 32 (l.val ^^^ ((opB1 s w l).toNat % 32))
    let lower : Lane := if l.val < q.val then l else q
    if q = l ∨ inMask (enabled s w) q = false then opA s w l
    else if (l = lower) ≠ (readP s w.c.toNat lower = true) then laneSmaller w.ty (opA s w l) (opA s w q)
    else laneLarger w.ty (opA s w l) (opA s w q) := by
  unfold bxchLane laneOfNat
  simp only [Bool.or_eq_true, decide_eq_true_eq, Bool.not_eq_true', beq_bne_iff]

/-- RXCH's values: the lane's predicate sends the larger to D or to A. -/
theorem rxchBody_eq (w : SWord) (s : State) : rxchBody w s = .done (outstanding
    (regWrites w.d w.ty.regs (enabled s w) (fun l => if readP s w.c.toNat l then laneLarger w.ty (opD s w l) (opA s w l)
        else laneSmaller w.ty (opD s w l) (opA s w l)) ++
      regWrites w.a w.ty.regs (enabled s w) (fun l => if readP s w.c.toNat l then laneSmaller w.ty (opD s w l) (opA s w l)
        else laneLarger w.ty (opD s w l) (opA s w l))) s) := rfl

theorem lputBody_eq (w : SWord) (s : State) : lputBody w s = .done (outstanding
    (regWrites w.d w.ty.regs (enabled s w &&& laneBit (Fin.ofNat 32 (opB1 s w 0).toNat)) (opA s w)) s) := by
  rw [← laneOfNat_mod]
  rfl

/-! ### LFND and VOTE (R177, R181) -/

theorem lfndValue_eq (w : SWord) (s : State) : lfndValue w s =
    let hit := (lanesOf (enabled s w)).filter (fun l => opA s w l == opB s w l)
    BitVec.ofNat 64 (match w.c.toNat with
      | 0 => (hit.head?.map (·.val)).getD 32
      | 1 => (hit.getLast?.map (·.val)).getD 32
      | _ => hit.length) := by
  unfold lfndValue
  match w.c.toNat with
  | 0 => rfl
  | 1 => rfl
  | n + 2 => rfl

theorem voteBody_mask {w : SWord} (s : State) (h : w.c.toNat = 0) : voteBody w s =
    .done (outstanding (regWrites w.d 1 (computeLanes s w) (fun _ => (votes w s).setWidth 64)) s) := by
  unfold voteBody
  rw [h]
  exact congrArg Res.done (result_outstanding w 1 _ s)

theorem voteBody_count {w : SWord} (s : State) (h : w.c.toNat = 1) : voteBody w s =
    .done (outstanding (regWrites w.d 1 (computeLanes s w) (fun _ => BitVec.ofNat 64 (laneCount (votes w s)))) s) := by
  unfold voteBody
  rw [h]
  exact congrArg Res.done (result_outstanding w 1 _ s)

theorem voteBody_atLeast {w : SWord} (s : State) (h : w.c.toNat = 2) : voteBody w s =
    .done (outstanding (predWrites w.d.toNat (enabled s w) (fun _ =>
      if w.bits 0 6 = 0 then laneCount (votes w s) == laneCount (enabled s w) else w.bits 0 6 ≤ laneCount (votes w s))) s) := by
  unfold voteBody
  rw [h]
  rfl

theorem voteBody_unanimous {w : SWord} (s : State) {n : Nat} (h : w.c.toNat = n + 3) : voteBody w s =
    .done (outstanding (predWrites w.d.toNat (enabled s w) (fun _ =>
      laneCount (votes w s) == 0 || laneCount (votes w s) == laneCount (enabled s w))) s) := by
  unfold voteBody
  rw [h]
  rfl

/-- The votes, counted in the issued state, are those of the lanes enabled before. -/
theorem votes_issued (w : SWord) (s : State) : votes w (issued (.vote w) s) =
    maskOf (fun l => inMask (enabled s w) l && readP (issued (.vote w) s) w.a.toNat l) := by
  unfold votes participants
  rw [issued_enabled]

/-- A predicate number in D. -/
theorem predDst_lt {i : Instr} {w : SWord} {f : Form} {s : State} (hf : strandForm i = some (w, f)) (hd : f.d = pfld)
    (hi : issues i s = true) : w.d.toNat < 8 := by
  have h := issues_wf hf hi
  simp only [Form.wf, Bool.and_eq_true, and_assoc] at h
  obtain ⟨_, _, hw, _⟩ := h
  rw [hd, pfld, Fld.wf, decide_eq_true_eq] at hw
  omega

theorem fVote_d {w : SWord} {n : Nat} (h : w.c.toNat = n + 2) : (fVote w).d = pfld := by
  unfold fVote
  rw [h]
  cases n <;> rfl

/-! ### The words -/

/-- Settles O13: most words compute in lanes; RXCH and LPUT make their own writes outstanding. -/
theorem laneMovesComplete : Obligations.LaneMovesComplete := by
  refine ⟨?shfl, ?bxch, ?lmov, ?lrot, ?lfnd, ?matchLanes, ?rxch, ?lput⟩
  case shfl =>
    exact writesLater_crossLane (fun _ => rfl) (fun _ _ => rfl) (fun w s l => shflSource_value w s l (opB1 s w l).toNat)
  case bxch => exact writesLater_crossLane (fun _ => rfl) (fun _ _ => rfl) bxchLane_eq
  case lmov => exact writesLater_crossLane (fun _ => rfl) (fun _ _ => rfl) (fun w s _ => congrArg (opA s w) (laneOfNat_mod _))
  case lrot => exact writesLater_crossLane (fun _ => rfl) (fun _ _ => rfl) (fun _ _ _ => rfl)
  case lfnd => exact writesLater_crossLane (fun _ => rfl) (fun _ _ => rfl) (fun w s _ => lfndValue_eq w s)
  case matchLanes => exact writesLater_crossLane (fun _ => rfl) (fun _ _ => rfl) (fun _ _ _ => rfl)
  case rxch =>
    intro w s hi
    have hb := rxchBody_eq w (issued (.rxch w) s)
    rw [issued_enabled] at hb
    exact word_outstanding_pair (i := .rxch w) rfl hi hb
  case lput =>
    intro w s hi
    have hb := lputBody_eq w (issued (.lput w) s)
    rw [issued_enabled] at hb
    exact word_outstanding_reg (i := .lput w) rfl hi hb

/-- Settles O14: VOTE by the form that C names; REDL and SCANL compute in lanes. -/
theorem collectivesComplete : Obligations.CollectivesComplete := by
  refine ⟨fun w s hi => ?vote, ?redl, ?scanl⟩
  case vote =>
    dsimp only
    rw [← votes_issued]
    match hm : w.c.toNat with
    | 0 =>
      have hb := voteBody_mask (issued (.vote w) s) hm
      rw [issued_computeLanes] at hb
      exact word_outstanding_reg (i := .vote w) rfl hi hb
    | 1 =>
      have hb := voteBody_count (issued (.vote w) s) hm
      rw [issued_computeLanes] at hb
      exact word_outstanding_reg (i := .vote w) rfl hi hb
    | 2 =>
      have hb := voteBody_atLeast (issued (.vote w) s) hm
      rw [issued_enabled] at hb
      exact word_outstanding_pred (i := .vote w) (predDst_lt (i := .vote w) rfl (fVote_d hm) hi) rfl hi hb
    | n + 3 =>
      have hb := voteBody_unanimous (issued (.vote w) s) hm
      rw [issued_enabled] at hb
      exact word_outstanding_pred (i := .vote w) (predDst_lt (i := .vote w) rfl (fVote_d hm) hi) rfl hi hb
  case redl => exact writesLater_lanes (cl := .sh) rfl _ _ (fun _ => rfl) (fun _ _ => rfl)
  case scanl => exact writesLater_lanes (cl := .sh) rfl _ _ (fun _ => rfl) (fun _ _ => rfl)

end Sys2Proof.Machine

end

section
/-! O47: the registers of the host. First the conditions under which a register takes a value, then the writes. -/

namespace Sys2Proof.Machine

set_option autoImplicit false
set_option Elab.async false

/-! ### The registers of the rings (R212, R342, R396) -/

theorem submissionIdle_iff {s : State} : submissionIdle s = true ↔
    s.mgmt.srhead = s.mgmt.srtail ∧ s.insts = [] ∧ s.watches = [] ∧ s.records = [] := by
  simp [submissionIdle, and_assoc]

theorem completionIdle_iff {s : State} : completionIdle s = true ↔ s.mgmt.crhead = s.mgmt.crtail ∧ s.records = [] := by
  simp [completionIdle]

theorem and_ringSizeOk_iff {c : Bool} {p : Prop} (hc : c = true ↔ p) (v : DWord) :
    (c && ringSizeOk v) = true ↔ p ∧ v.toNat ≤ 16 := by
  rw [Bool.and_eq_true, hc, ringSizeOk, decide_eq_true_eq]

/-- A write that is accepted where a condition holds, and else discarded (R395). -/
theorem accepted_or_rejected {c : Bool} {p : Prop} (hc : c = true ↔ p) (s t : State) :
    (p → (.next (if c then t else rejectWrite s) : Out) = .next t) ∧
      (¬ p → (.next (if c then t else rejectWrite s) : Out) = .next (rejectWrite s)) :=
  ⟨fun h => congrArg _ (if_pos (hc.mpr h)), fun h => congrArg _ (if_neg (mt hc.mp h))⟩

/-- A write that is accepted within two bounds, and else discarded. -/
theorem rejected_outside (n lo hi : Nat) (s t : State) :
    (if decide (n < lo) || decide (hi < n) then rejectWrite s else t) = if lo ≤ n ∧ n ≤ hi then t else rejectWrite s := by
  split
  · next h => exact (if_neg (by simp at h; omega)).symm
  · next h => exact (if_pos (by simp at h; omega)).symm

theorem writeSrtail_ring {s : State} (h : s.mgmt.srsize ≠ 0) (v : DWord) :
    writeSrtail s v = if s.mgmt.srhead ≤ v.toNat ∧ v.toNat ≤ s.mgmt.srhead + 2 ^ s.mgmt.srsize.toNat then
        { s with mgmt := { s.mgmt with srtail := v.toNat } }
      else rejectWrite s :=
  (if_neg h).trans (rejected_outside ..)

theorem writeCrhead_eq (s : State) (v : DWord) :
    writeCrhead s v = if s.mgmt.crhead ≤ v.toNat ∧ v.toNat ≤ s.mgmt.crtail then
        flushRecords (s.records.length + 1) { s with mgmt := { s.mgmt with crhead := v.toNat } }
      else rejectWrite s :=
  rejected_outside ..

/-! ### POWERCAP (R405) -/

theorem clamp_eq_ite (n lo hi : Nat) (h : lo ≤ hi) : max lo (min hi n) = if n < lo then lo else if hi < n then hi else n := by
  split
  · omega
  · split <;> omega

/-! ### Table bases (R398) -/

theorem writeTableBase_noTable {t : Nat} (h : 4 < t) (s : State) (v : DWord) : writeTableBase s t v = s := if_pos h

/-- The base of one of the five tables. -/
theorem writeTableBase_table {t : Nat} (h : t ≤ 4) (s : State) (v : DWord) :
    writeTableBase s t v = if noTask s then loadTable { s with mgmt := setTableBase s.mgmt t v } t else rejectWrite s :=
  if_neg (by omega)

/-! ### Writes at an offset (R395) -/

/-- A write of CMD is the command of its low byte. -/
theorem registerWrite_cmd {n : Nat} {v : DWord} (h : v.toNat % 256 = n) (s : State) :
    exec (.registerWrite 0x080 v) s = .next (command n s) :=
  congrArg (fun n => Host.Outcome.next (command n s)) h

theorem registerWrite_arg {i : Nat} (h : i < 4) (s : State) (v : DWord) :
    exec (.registerWrite (0x088 + 8 * i) v) s = .next { s with mgmt := { s.mgmt with args := aSet s.mgmt.args i v } } := by
  match i with
  | 0 | 1 | 2 | 3 => rfl
  | n + 4 => omega

/-- A write at an offset that no writable register has is discarded. -/
theorem registerWrite_other {off : Nat} (h : off ∉ [0x010, 0x018, 0x020, 0x028, 0x030, 0x040, 0x048, 0x050, 0x060, 0x068, 0x078, 0x080,
    0x088, 0x090, 0x098, 0x0A0, 0x0B0]) (s : State) (v : DWord) : exec (.registerWrite off v) s = .next s := by
  change execRegisterWrite off v s = .next s
  unfold execRegisterWrite
  split
  case h_18 => rfl
  all_goals exact absurd (by decide) h

/-! ### The obligation -/

/-- Settles O47: each write by its condition; a write at an offset is that of the register there. -/
theorem hostRegistersComplete : Obligations.HostRegistersComplete := by
  have hlt : ∀ b ∈ [(0, 0x010), (1, 0x018), (2, 0x020), (3, 0x028), (4, 0x030)], b.1 ≤ 4 := by decide
  refine ⟨?srbase, ?srsize, ?crbase, ?crsize, ?noRing, ?srtail, ?crhead, ?powercap, ?noTable, ?idle, ?tasks, ?base, ?named, ?arg, ?cmd,
    ?other⟩
  case srbase => exact fun s v => accepted_or_rejected submissionIdle_iff s _
  case srsize => exact fun s v => accepted_or_rejected (and_ringSizeOk_iff submissionIdle_iff v) s _
  case crbase => exact fun s v => accepted_or_rejected completionIdle_iff s _
  case crsize => exact fun s v => accepted_or_rejected (and_ringSizeOk_iff completionIdle_iff v) s _
  case noRing => exact fun s v h => congrArg Host.Outcome.next (if_pos h)
  case srtail => exact fun s v h => congrArg Host.Outcome.next (writeSrtail_ring h v)
  case crhead => exact fun s v => congrArg Host.Outcome.next (writeCrhead_eq s v)
  case powercap =>
    intro s v
    rw [← clamp_eq_ite v.toNat 600 1500 (by decide)]
    rfl
  case noTable => exact fun s v t h => congrArg Host.Outcome.next (writeTableBase_noTable h s v)
  case idle => exact fun s v b hb h => congrArg Host.Outcome.next ((writeTableBase_table (hlt b hb) s v).trans (if_pos h))
  case tasks =>
    exact fun s v b hb h => congrArg Host.Outcome.next ((writeTableBase_table (hlt b hb) s v).trans (if_neg (ne_true_of_eq_false h)))
  case base =>
    intro s v
    simp only [List.forall_mem_cons]
    exact ⟨rfl, rfl, rfl, rfl, rfl, List.forall_mem_nil _⟩
  case named => exact fun s v => ⟨rfl, rfl, rfl, rfl, rfl, rfl, rfl⟩
  case arg => exact fun s v i h => registerWrite_arg h s v
  case cmd =>
    intro s v
    simp only [List.forall_mem_cons]
    have hc (n : Nat) (h : v.toNat % 256 = n) := registerWrite_cmd h s
    exact ⟨hc 1, hc 2, hc 3, hc 4, hc 5, hc 6, hc 7, hc 8, hc 9, hc 10, hc 11, hc 12, hc 13, List.forall_mem_nil _⟩
  case other => exact fun s v off h => registerWrite_other h s v

end Sys2Proof.Machine

end

section
/-! O46: the commands. First what a write of CMD does by the state of the device and the command's own answer, then the commands whose
answer is stated in other words, the completion, and the reset. -/

namespace Sys2Proof.Machine

set_option autoImplicit false
set_option Elab.async false

/-! ### Acceptance (R395, R397, R408) -/

theorem command_busy {s : State} (h : s.mgmt.busy = true) (n : Nat) : command n s = s := if_pos h

theorem command_early {s : State} {n : Nat} (hb : s.mgmt.busy = false) (hs : s.mgmt.state ≠ 2) (hn : n ≠ 12) :
    command n s = finishCommand { s with mgmt := { s.mgmt with wrej := false } } 2 0 := by
  have he : (s.mgmt.state != 2 && n != 12) = true := by simp [hs, hn]
  exact (if_neg (ne_true_of_eq_false hb)).trans (if_pos he)

/-- The answer of a command: BADARG, or the command runs with its status and its result. -/
def commandOut (s : State) (n : Nat) : CmdRun → Out
  | none => .next (finishCommand s 1 0)
  | some (st, r, t) => .next { t with mgmt := { t.mgmt with wrej := false, busy := true, running := some (n, st, BitVec.ofNat 32 r),
                                                            runArgs := s.mgmt.args } }

/-- A device that is ready takes every command, and one that is not takes FWSTAGE. -/
theorem command_taken {s : State} {n : Nat} (hb : s.mgmt.busy = false) (h : s.mgmt.state = 2 ∨ n = 12) :
    (.next (command n s) : Out) = commandOut s n (cmdRun n s) := by
  have he : ¬ (s.mgmt.state != 2 && n != 12) = true := by simpa using h.resolve_left
  unfold command
  rw [if_neg (ne_true_of_eq_false hb), if_neg he]
  cases cmdRun n s <;> rfl

theorem command_ready {s : State} (n : Nat) (h : s.mgmt.busy = false ∧ s.mgmt.state = 2) :
    (.next (command n s) : Out) = commandOut s n (cmdRun n s) := command_taken h.1 (.inl h.2)

/-- An answer that depends on a condition. -/
theorem commandOut_ite {s : State} {n : Nat} {c p : Prop} [Decidable c] [Decidable p] {x y : CmdRun} {u v : Out} (h : c ↔ p)
    (hx : commandOut s n x = u) (hy : commandOut s n y = v) : commandOut s n (if c then x else y) = if p then u else v := by
  rw [apply_ite (commandOut s n), hx, hy]
  exact if_congr h rfl rfl

/-! ### Answers in other words -/

theorem tableLen_eq {t : Nat} (h : t ≤ 4) : tableLen t = [1024, 256, 256, 65536, 64].getD t 0 := by
  match t with
  | 0 | 1 | 2 | 3 | 4 => rfl
  | n + 5 => omega

theorem reload_outOfRange_iff (t i : Nat) :
    (decide (4 < t) || decide (tableLen t ≤ i)) = true ↔ 4 < t ∨ [1024, 256, 256, 65536, 64].getD t 0 ≤ i := by
  rw [Bool.or_eq_true, decide_eq_true_eq, decide_eq_true_eq]
  exact or_congr_right' fun h => by rw [tableLen_eq (Nat.not_lt.mp h)]

theorem vacate_outOfRange_iff (k l : Nat) :
    (decide (k < 1) || decide (128 < k) || decide (15 < l)) = true ↔ k < 1 ∨ 128 < k ∨ 15 < l := by
  simp [or_assoc]

/-- What JOBEND leaves before its signal: the key is destroyed, and the job's part of the near store reads 0. -/
def jobEnded (s : State) (job : Nat) : State :=
  zeroNear (destroyKey (flushAll s) job) (aGet {} s.jobs job : JobEnt).nsbase ((aGet {} s.jobs job : JobEnt).nslen * 2 ^ 21)

/-- JOBEND signals where its argument is an aligned signal that stands (R402). -/
theorem cmdJobend_eq (s : State) :
    cmdJobend s =
      (let job := (cmdArg s 0).toNat
      let sig := cmdArg s 1
      let t := jobEnded s job
      if 1023 < job then none
      else if jobBusy s job then some (2, 0, s)
      else some (0, 0, (if sig = 0 ∨ sig.toNat % 8 ≠ 0 then none else unitPlace t job sig 8 .wr).elim t
        (fun p => flushSys (subSignal t none p 1)))) := by
  have hs : (decide (cmdArg s 1 = 0) || (cmdArg s 1).toNat % 8 != 0) = true ↔ cmdArg s 1 = 0 ∨ (cmdArg s 1).toNat % 8 ≠ 0 := by simp
  unfold cmdJobend jobEnded
  dsimp only
  rw [if_congr hs rfl rfl]
  split
  · rfl
  · split
    · rfl
    · split <;> next e => rw [e]; rfl

/-- COREOFF lists its core once. -/
theorem cmdCoreoff_eq (s : State) :
    cmdCoreoff s =
      (let c := (cmdArg s 0).toNat
      let r := stopCords (runningCords s c) s
      if 127 < c then none
      else if r.1 then
        some (0, c, { r.2 with mgmt := { r.2.mgmt with off := if c ∈ s.mgmt.off then s.mgmt.off else s.mgmt.off ++ [c] } })
      else some (3, c, r.2)) := by
  unfold cmdCoreoff
  dsimp only
  rw [if_congr List.contains_iff_mem rfl rfl]

/-! ### Reports (R404) -/

/-- Behind the nonce and the digest a report holds 88 bytes. -/
theorem reportBody_split (s : State) (nonce : List Byte) : ∃ rest, rest.length = 88 ∧
    reportBody s nonce = leBytes 4 0x54414C43 ++ leBytes 4 1 ++ nonce ++ sha512 (imageOf s.mgmt s.mgmt.slot) ++ rest := by
  refine ⟨leBytes 8 s.mgmt.rollback.toNat ++ (leBytes 8 Config.serial.toNat ++ (leBytes 1 s.mgmt.ports.length ++ (leBytes 1 (fullPorts s) ++
    (leBytes 1 (corePresent s) ++ (leBytes 5 0 ++ List.replicate 64 0))))), ?_, ?_⟩
  · simp only [List.length_append, leBytes_length, List.length_replicate]
  · simp only [reportBody, List.append_assoc]

/-! ### Completion (R397, R398) -/

theorem commandComplete_waits {s : State} {n st : Nat} {r : Word} (h : s.mgmt.running = some (n, st, r))
    (hd : commandDone s n st r = false) : exec .commandComplete s = .next s := by
  change execCommandComplete s = _
  unfold execCommandComplete
  simp only [h, hd, Bool.not_false, if_true]

/-- A command that has nothing more to wait for completes; COREOFF and INVAL do something more then. -/
theorem commandComplete_done {s : State} {n st : Nat} {r : Word} (h : s.mgmt.running = some (n, st, r))
    (hd : commandDone s n st r = true) :
    exec .commandComplete s = .next (
      if n = 7 then finishCommand (if st = 0 then { s with present := s.present &&& ~~~BitVec.twoPow 128 r.toNat } else s) st 0
      else if n = 1 then finishCommand (dropRange s (aGet 0 s.mgmt.runArgs 0).toNat (aGet 0 s.mgmt.runArgs 1).toNat
        (aGet 0 s.mgmt.runArgs 2).toNat) st r
      else finishCommand s st r) := by
  change execCommandComplete s = _
  unfold execCommandComplete
  simp only [h, hd, Bool.not_true, Bool.false_eq_true, if_false]
  split
  · rfl
  · split <;> rfl

/-- Most commands have nothing to wait for. -/
theorem commandDone_plain {n : Nat} (h : n ∉ [5, 7, 9]) (s : State) (st : Nat) (r : Word) : commandDone s n st r = true := by
  simp only [List.mem_cons, List.not_mem_nil, or_false, not_or] at h
  unfold commandDone
  split
  · omega
  · omega
  · omega
  · rfl

/-- COMMAND_COMPLETE of a command that waits for a condition, and then does nothing more. -/
theorem commandComplete_plain {s : State} {n st : Nat} {r : Word} (h : s.mgmt.running = some (n, st, r)) (h7 : n ≠ 7) (h1 : n ≠ 1) :
    exec .commandComplete s = .next (if commandDone s n st r then finishCommand s st r else s) := by
  split
  · next hd => rw [commandComplete_done h hd, if_neg h7, if_neg h1]
  · next hd => exact commandComplete_waits h (eq_false_of_ne_true hd)

/-- COREOFF waits until the cords of its core have been saved. -/
theorem commandComplete_coreoff {s : State} {r : Word} (h : s.mgmt.running = some (7, 0, r)) :
    exec .commandComplete s = .next (
      if coreCords s r.toNat = [] then finishCommand { s with present := s.present &&& ~~~BitVec.twoPow 128 r.toNat } 0 0 else s) := by
  have hd : commandDone s 7 0 r = true ↔ coreCords s r.toNat = [] := List.isEmpty_iff
  split
  · next hc => rw [commandComplete_done h (hd.mpr hc), if_pos rfl, if_pos rfl]
  · next hc => exact commandComplete_waits h (eq_false_of_ne_true (mt hd.mp hc))

theorem vacated_iff (s : State) (st : Nat) (r : Word) : commandDone s 5 st r = true ↔ ¬ s.cords.any (fun e => e.2.stopping) = true := by
  simp [commandDone]

/-! ### Reset and bring-up (R403, R408) -/

theorem deviceReset_boots {s : State} {slot : Nat} {other : Bool} (h : bootSlot s.mgmt = some (slot, other)) :
    exec .deviceReset s =
      (let r := afterReset (destroyKeys (flushAll s))
      .next { r with mgmt := { r.mgmt with state := 1, slot := slot, otherOk := other } }) := by
  change execDeviceReset s = _
  unfold execDeviceReset
  rw [h]

theorem deviceReset_recovers {s : State} (h : bootSlot s.mgmt = none) :
    exec .deviceReset s =
      (let r := afterReset (destroyKeys (flushAll s))
      .next { r with mgmt := { r.mgmt with state := 3 } }) := by
  change execDeviceReset s = _
  unfold execDeviceReset
  rw [h]

/-- The boot ROM takes the slot that is due where its image verifies, else the other one where that verifies. -/
theorem deviceReset_eq (s : State) :
    exec .deviceReset s = .next (
      let r := afterReset (destroyKeys (flushAll s))
      let slot := s.mgmt.nextSlot.getD s.mgmt.slot
      let ok (k : Nat) : Bool := imageOk s.mgmt (imageOf s.mgmt k)
      if ok slot then { r with mgmt := { r.mgmt with state := 1, slot := slot, otherOk := ok (1 - slot) } }
      else if ok (1 - slot) then { r with mgmt := { r.mgmt with state := 1, slot := 1 - slot, otherOk := false } }
      else { r with mgmt := { r.mgmt with state := 3 } }) := by
  extract_lets r slot ok
  split
  · next ha => exact deviceReset_boots (if_pos ha)
  · next ha =>
    split
    · next hb => exact deviceReset_boots ((if_neg ha).trans (if_pos hb))
    · next hb => exact deviceReset_recovers ((if_neg ha).trans (if_neg hb))

/-- The bring-up keeps of memory and of its errors what does not lie in the near store. -/
theorem bringUp_started {s : State} (h : s.mgmt.state = 1) :
    bringUp s = { (List.range 12).foldl trainPort
      { s with mem := s.mem.filter (fun e => 2 ^ 72 ≤ e.1), poisoned := s.poisoned.filter (fun p => 2 ^ 72 ≤ p),
               present := BitVec.allOnes 128, portsLost := [], portsNarrow := [], mgmt := { s.mgmt with state := 2 } }
      with free := s.free + 1 } := by
  have hs : ¬ (s.mgmt.state != 1) = true := by simp [h]
  refine (if_neg hs).trans ?_
  simp only [← decide_not, Nat.not_lt]

/-! ### The obligation -/

/-- Settles O46: each command by what it answers, its completion by what it waits for. -/
theorem commandsComplete : Obligations.CommandsComplete := by
  refine ⟨?busy, ?early, ?inval, ?reload, ?jobstart, ?jobend, ?vacate, ?withdraw, ?coreoff, ?coreon, ?portrem, ?portadd, ?attest, ?report,
    ?fwstage, ?fwswap, ?complete, ?invalDone, ?vacateDone, ?coreoffDone, ?coreoffShort, ?portremDone, ?reset, ?bringUp⟩
  case busy =>
    intro s
    simp only [List.forall_mem_cons]
    have hc (n : Nat) (h : s.mgmt.busy = true) := congrArg (Host.Outcome.next (φ := Fault) (ρ := Refusal)) (command_busy h n)
    exact ⟨hc 1, hc 2, hc 3, hc 4, hc 5, hc 6, hc 7, hc 8, hc 9, hc 10, hc 11, hc 12, hc 13, List.forall_mem_nil _⟩
  case early =>
    intro s
    simp only [List.forall_mem_cons]
    have hc (n : Nat) (hn : n ≠ 12) {i : Instr} (hb : s.mgmt.busy = false) (hs : s.mgmt.state ≠ 2) (_ : i ≠ .fwstage) :=
      congrArg (Host.Outcome.next (φ := Fault) (ρ := Refusal)) (command_early hb hs hn)
    exact ⟨hc 1 (by decide), hc 2 (by decide), hc 3 (by decide), hc 4 (by decide), hc 5 (by decide), hc 6 (by decide), hc 7 (by decide),
      hc 8 (by decide), hc 9 (by decide), hc 10 (by decide), hc 11 (by decide), fun _ _ h => absurd rfl h, hc 13 (by decide),
      List.forall_mem_nil _⟩
  case inval => exact fun s h => (command_ready 1 h).trans (commandOut_ite Iff.rfl rfl rfl)
  case reload => exact fun s h => (command_ready 2 h).trans (commandOut_ite (reload_outOfRange_iff _ _) rfl rfl)
  case jobstart =>
    exact fun s h => (command_ready 3 h).trans (commandOut_ite Iff.rfl rfl (commandOut_ite List.contains_iff_mem rfl rfl))
  case jobend =>
    intro s h
    refine (command_ready 4 h).trans ((congrArg (commandOut s 4) (cmdJobend_eq s)).trans ?_)
    exact commandOut_ite Iff.rfl rfl (commandOut_ite Iff.rfl rfl rfl)
  case vacate => exact fun s h => (command_ready 5 h).trans (commandOut_ite (vacate_outOfRange_iff _ _) rfl rfl)
  case withdraw => exact fun s h => command_ready 6 h
  case coreoff =>
    intro s h
    refine (command_ready 7 h).trans ((congrArg (commandOut s 7) (cmdCoreoff_eq s)).trans ?_)
    exact commandOut_ite Iff.rfl rfl (commandOut_ite Iff.rfl rfl rfl)
  case coreon => exact fun s h => (command_ready 8 h).trans (commandOut_ite Iff.rfl rfl rfl)
  case portrem => exact fun s h => (command_ready 9 h).trans (commandOut_ite Iff.rfl rfl rfl)
  case portadd => exact fun s h => (command_ready 10 h).trans (commandOut_ite Iff.rfl rfl rfl)
  case attest => exact fun s h => command_ready 11 h
  case report => exact reportBody_split
  case fwstage => exact fun s h => (command_taken h (.inr rfl)).trans (commandOut_ite Iff.rfl rfl rfl)
  case fwswap => exact fun s h => (command_ready 13 h).trans (commandOut_ite Iff.rfl rfl rfl)
  case complete =>
    intro s n st r h hn
    simp only [List.mem_cons, List.not_mem_nil, or_false, not_or] at hn
    obtain ⟨h1, h5, h7, h9⟩ := hn
    have hd : commandDone s n st r = true := commandDone_plain (by simp [h5, h7, h9]) s st r
    rw [commandComplete_plain h h7 h1, if_pos hd]
    rfl
  case invalDone =>
    intro s st r h
    rw [commandComplete_done h rfl, if_neg (by decide), if_pos rfl]
    rfl
  case vacateDone =>
    intro s st r h
    rw [commandComplete_plain h (by decide) (by decide), if_congr (vacated_iff s st r) rfl rfl, ite_not]
    rfl
  case coreoffDone => exact fun s r h => commandComplete_coreoff h
  case coreoffShort =>
    intro s r h
    rw [commandComplete_done h rfl, if_pos rfl, if_neg (by decide)]
    rfl
  case portremDone => exact fun s st r h => commandComplete_plain h (by decide) (by decide)
  case reset => exact deviceReset_eq
  case bringUp => exact fun s h => bringUp_started h

end Sys2Proof.Machine

end

section
/-! O45: propagation, the fabric and errors. First the moves of writes and views, then the fabric from acceptance to completion, reductions,
ports, and last the errors. -/

namespace Sys2Proof.Machine

set_option autoImplicit false
set_option Elab.async false

/-! ### Propagation (R204 to R206) -/

theorem moveToDie_at {s : State} {core i : Nat} {w : Committed} (h : (getCore s core).up[i]? = some w) :
    moveToDie s core i = if mayMove (getCore s core).up i then
      reachDie (setCore s core { getCore s core with up := lDel (getCore s core).up i }) (dieOf core) w else s := by
  unfold moveToDie
  dsimp only
  rw [h]

theorem moveToDevice_at {s : State} {die i : Nat} {w : Committed} (h : (aGet [] s.dieUp die)[i]? = some w) :
    moveToDevice s die i = if mayMove (aGet [] s.dieUp die) i then
      leaveDie { s with dieUp := aSet s.dieUp die (lDel (aGet [] s.dieUp die) i) } (dieBadWords s die) [w] else s := by
  unfold moveToDevice
  dsimp only
  rw [h]

theorem moveToSystem_at {s : State} {i : Nat} {w : Committed} (h : s.sysUp[i]? = some w) :
    moveToSystem s i = if mayMove s.sysUp i then reachSys s w (lDel s.sysUp i) else s := by
  unfold moveToSystem
  rw [h]

/-- One write that leaves a die point takes the errors of the words that it touches with it. -/
theorem leaveDie_one (s : State) (bad : List Nat) (w : Committed) :
    leaveDie s bad [w] =
      (let t := devWr s w.key w.bytes
      let taken := bad.filter (fun p => w.touches p 8)
      if taken = [] then t else { t with poisoned := t.poisoned ++ taken.filter (fun p => !t.poisoned.contains p) }) := by
  unfold leaveDie markBad
  simp only [List.any_cons, List.any_nil, Bool.or_false, List.foldl_cons, List.foldl_nil, List.isEmpty_iff]

/-- The view of a byte moves where the byte that is refreshed lies in its unit (R201). -/
theorem aGet?_dropView_one (v : AMap (Byte × Nat)) (key k : Nat) :
    aGet? (dropView v key 1) k = if decide (unitBase k ≤ key ∧ key < unitBase k + unitOf k) then none else aGet? v k := by
  have hu : overlaps (unitBase k) (unitOf k) key 1 = true ↔ decide (unitBase k ≤ key ∧ key < unitBase k + unitOf k) = true := by
    rw [overlaps_iff, decide_eq_true_eq, Nat.lt_succ_iff]
  rw [aGet?_dropView]
  exact if_congr hu rfl rfl

theorem refreshView_view (s : State) (core key k : Nat) :
    aGet? (getCore (refreshView s core key) core).view k = aGet? (dropView (getCore s core).view key 1) k := by
  rw [refreshView, getCore_setCore, if_pos rfl]

theorem refreshDie_lag (s : State) (die key : Nat) : aGet [] (refreshDie s die key).dieLag die = dropView (aGet [] s.dieLag die) key 1 := by
  rw [refreshDie, aGet_aSet, if_pos rfl]

/-! ### Acceptance (R386, R388) -/

/-- An operation of the core in focus stops at once with a status. -/
def fabStopped (s : State) (op : FabOp) (st : Nat) : State :=
  setFab s s.focus.core s.focus.ix { op with accepted := true, status := some st }

/-- FABRIC_ACCEPT: the first check that fails names the status. -/
theorem fabricAccept_at {s : State} {op : FabOp} (h : (myCore s).fabric[s.focus.ix]? = some op) (ha : op.accepted = false) :
    exec .fabricAccept s = .next (
      if op.block = [] then fabStopped s op 1
      else if op.bad then fabStopped s op 4
      else if fabOut s op then fabStopped s op 1
      else if op.badFields then fabStopped s op 2
      else if op.kind = .xred then acceptRed s s.focus.core s.focus.ix op
      else setFab s s.focus.core s.focus.ix { op with accepted := true }) := by
  change execFabricAccept s = _
  unfold execFabricAccept fabStopped
  simp only [h, ha, Bool.false_eq_true, if_false, List.isEmpty_iff, beq_iff_eq]

/-! ### Completion (R387, R388) -/

/-- An operation of the core in focus has ended: its token is written, and a nonzero status is an engine trap. -/
def fabEnded (s : State) (op : FabOp) (t : State) (st : Nat) : State :=
  let c := getCore t s.focus.core
  let u := writeToken (setCore t s.focus.core { c with fabric := lDel c.fabric s.focus.ix }) op.strand op.token (BitVec.ofNat 32 st) 5
  if st = 0 then u else recordTrap u op.strand
    { code := fabTrap st, cls := .engine, addr := BitVec.ofNat 64 (2 ^ 63 + op.off), aux := BitVec.ofNat 64 st }

theorem fabricComplete_moves {s : State} {op : FabOp} (h : (myCore s).fabric[s.focus.ix]? = some op) (ha : op.accepted = true)
    (hk : op.kind ≠ .xred) :
    exec .fabricComplete s =
      (let r := moveWords (List.range op.words) s op
      .next (fabEnded s op (settleSent r.1 s.focus.core r.2.sent) (r.2.status.getD 0))) := by
  have hk' : (op.kind == .xred) = false := beq_eq_false_iff_ne.mpr hk
  change execFabricComplete s = _
  unfold execFabricComplete fabEnded
  simp only [h, ha, hk', Bool.not_true, Bool.false_and, Bool.or_false, Bool.false_eq_true, if_false]

theorem fabricComplete_reduced {s : State} {op : FabOp} {st : Nat} (h : (myCore s).fabric[s.focus.ix]? = some op) (ha : op.accepted = true)
    (hk : op.kind = .xred) (hs : op.status = some st) :
    exec .fabricComplete s = .next (fabEnded s op (settleSent s s.focus.core op.sent) st) := by
  have hk' : (op.kind == .xred) = true := beq_iff_eq.mpr hk
  change execFabricComplete s = _
  unfold execFabricComplete fabEnded
  simp only [h, ha, hk', hs, Bool.not_true, Option.isNone_some, Bool.and_false, Bool.or_false, Bool.false_eq_true, if_false, if_true,
    Option.getD_some]

/-- A destination that is no handle stands where its address stands in its aligned word. -/
theorem fabWords_eq {op : FabOp} (h : op.kind = .xget ∨ isHandle op.fb.far = false) :
    op.words = (op.fb.len + (if op.kind = .xput then op.fb.far else op.fb.loc).toNat % 8 + 7) / 8 := by
  unfold FabOp.words FabOp.skew
  rcases h with h | h
  · simp [h]
  · by_cases hk : op.kind = .xput
    · simp [hk, h]
    · simp [hk]

/-! ### Reductions (R389) -/

theorem findRed_eq_some {s : State} {g q i : Nat} {r : Reduction} (h : findRed s g q = some i) (hr : s.reds[i]? = some r) :
    r.group = g ∧ r.seq = q := by
  obtain ⟨hi, hp, -⟩ := List.findIdx?_eq_some_iff_getElem.mp h
  rw [List.getElem?_eq_getElem hi, Option.some.injEq] at hr
  subst hr
  simpa using hp

theorem gathered_iff {s : State} {r : Reduction} :
    gathered s r = true ↔ 1 ≤ (aGet {} s.groups r.group).n ∧ (aGet {} s.groups r.group).n ≤ r.parts.length := by
  simp [gathered, Nat.one_le_iff_ne_zero]

theorem combineRed_ready {s : State} {g q i : Nat} {r : Reduction} (hi : findRed s g q = some i) (hr : s.reds[i]? = some r)
    (hb : r.bad = false) (hn : r.result = none) (hg : gathered s r = true) :
    combineRed s g q =
      (let t := { s with reds := lDel s.reds i ++ [{ r with parts := [], result := some (combine r) }] }
      (redWaiters t g q).foldl (fun u w => deliver u w.1 w.2 (combine r)) (dropOld t g)) := by
  unfold combineRed
  simp only [hi, hr, hb, hn, hg, Option.isSome_none, Bool.not_true, Bool.or_self, Bool.false_eq_true, if_false]

theorem contribute_first {s : State} {g q : Nat} (h : findRed s g q = none) (op : Nat) (xs : List DWord) :
    contribute s g q op xs =
      (none, { s with reds := { group := g, seq := q, op := op, len := xs.length, parts := [xs] } :: s.reds }) := by
  unfold contribute
  rw [h]

/-- A contribution to a sequence number that still takes some: it joins those that are there, or disagrees with them. -/
theorem contribute_next {s : State} {g q i : Nat} {r : Reduction} (hi : findRed s g q = some i) (hr : s.reds[i]? = some r)
    (hb : r.bad = false) (hn : r.result = none) (hg : gathered s r = false) (op : Nat) (xs : List DWord) :
    contribute s g q op xs = if r.op = op ∧ r.len = xs.length then
        (none, { s with reds := lSet s.reds i { r with parts := r.parts ++ [xs] } })
      else (some 2, { s with reds := lSet s.reds i { r with bad := true } }) := by
  have hd : (r.op != op || r.len != xs.length) = true ↔ ¬ (r.op = op ∧ r.len = xs.length) := by
    rw [Bool.or_eq_true, bne_iff_ne, bne_iff_ne, Decidable.not_and_iff_not_or_not]
  unfold contribute
  simp only [hi, hr, hb, hn, hg, Option.isSome_none, Bool.or_self, Bool.false_eq_true, if_false]
  rw [if_congr hd rfl rfl, ite_not]

/-- A peer's contribution arrives: one that fails ends every operation that waits on its sequence number. -/
theorem tirralFlit_contribution {s : State} (h : s.mgmt.state ≠ 3) (g q op : Nat) (xs : List DWord) :
    exec (.tirralFlit (.contribution g q op xs)) s = .next (
      if (contribute s g q op xs).1.isSome then failRed (contribute s g q op xs).2 g q else (contribute s g q op xs).2) := by
  change execTirralFlit (.contribution g q op xs) s = _
  unfold execTirralFlit
  rw [if_neg h]
  dsimp only
  rcases contribute s g q op xs with ⟨_ | _, t⟩ <;> rfl

theorem deliver_ok {s u : State} {core ix : Nat} {op : FabOp} {res : List DWord × Bool} {far : List (Nat × Nat)}
    (h : (getCore s core).fabric[ix]? = some op)
    (hw : fabWrite (if res.2 then orFlagsOf s op.cord fOFL else s) op true op.fb.far 0
      ((res.1.take op.fb.len).flatMap (fun x => leBytes 8 x.toNat)) = .ok (u, far)) :
    deliver s core ix res = setFab u core ix { op with status := some 0, sent := far } := by
  unfold deliver
  simp only [h, hw]

theorem deliver_error {s : State} {core ix e : Nat} {op : FabOp} {res : List DWord × Bool} (h : (getCore s core).fabric[ix]? = some op)
    (hw : fabWrite (if res.2 then orFlagsOf s op.cord fOFL else s) op true op.fb.far 0
      ((res.1.take op.fb.len).flatMap (fun x => leBytes 8 x.toNat)) = .error e) :
    deliver s core ix res = setFab (if res.2 then orFlagsOf s op.cord fOFL else s) core ix { op with status := some e } := by
  unfold deliver
  simp only [h, hw]

/-! ### Traffic and ports (R387, R393) -/

theorem extLive_own (s : State) {tier ext : Nat} (h : tier ≤ 1) : extLive s tier ext = true ↔ (tier = 1 → ext ∈ s.mgmt.keys) := by
  match tier with
  | 0 => simp [extLive]
  | 1 => simp [extLive]
  | n + 2 => omega

theorem peerMay_iff {s : State} {key n : Nat} : peerMay s key n = true ↔ ∀ i, i < n →
    tierOf (key + i) ≤ 1 ∧ backed s (tierOf (key + i)) (paOf (key + i)) = true ∧
      (tierOf (key + i) = 1 → extOf (key + i) ∈ s.mgmt.keys) := by
  simp only [peerMay, List.all_eq_true, List.mem_range, Bool.and_eq_true, decide_eq_true_eq, and_assoc]
  refine forall₂_congr fun i _ => and_congr_right fun ht => and_congr_right fun _ => extLive_own s ht

theorem tirralFlit_put {s : State} (h : s.mgmt.state ≠ 3) (key : Nat) (bs : List Byte) :
    exec (.tirralFlit (.put key bs)) s =
      .next (if peerMay s key bs.length then settleSys (devWr s key bs) key bs.length else s) :=
  congrArg Host.Outcome.next (if_neg h)

theorem tirralFlit_unreachable {s : State} (hs : s.mgmt.state ≠ 3) {core ix : Nat} {op : FabOp}
    (h : (getCore s core).fabric[ix]? = some op) (ha : op.accepted = true) (hn : op.status = none) :
    exec (.tirralFlit (.unreachable core ix)) s = .next (setFab s core ix { op with status := some 5 }) := by
  change execTirralFlit (.unreachable core ix) s = _
  unfold execTirralFlit
  simp only [if_neg hs, h, ha, hn, Option.isNone_none, Bool.and_self, if_true]

/-- A change of every core's fabric operations, core by core. -/
theorem getCore_mapFabric (s : State) (f : FabOp → FabOp) (k : Nat) :
    (getCore { s with cores := s.cores.map (fun e => (e.1, { e.2 with fabric := e.2.fabric.map f })) } k).fabric =
      (getCore s k).fabric.map f := by
  unfold getCore aGet
  dsimp only
  induction s.cores with
  | nil => rfl
  | cons e l ih =>
    rw [List.map_cons, aGet?, aGet?]
    split
    · rfl
    · exact ih

theorem portFailure_lost {s : State} {p : Nat} (hp : p < 8) (h : p ∉ s.portsLost) :
    exec (.tirralPortFailure p true) s =
      (let t := { s with portsLost := s.portsLost ++ [p] }
      .next { t with cores := t.cores.map (fun e => (e.1, { e.2 with fabric := e.2.fabric.map (fun o =>
        if cutOff t o then { o with status := some 5 } else o) })) }) :=
  if_pos (by simp [hp, h])

theorem portFailure_narrow {s : State} {p : Nat} (hp : p < 8) (h : p ∉ s.portsNarrow) :
    exec (.tirralPortFailure p false) s = .next { s with portsNarrow := s.portsNarrow ++ [p] } := by
  change execTirralPortFailure p false s = _
  unfold execTirralPortFailure
  rw [if_neg (by simp), if_pos (by simp [hp, h])]

/-! ### Errors (R406) -/

/-- A key of a tier of its own lies below the words of die caches. -/
theorem not_dieKey_of_tier {key n : Nat} (h : tierOf key ≤ n) (hn : n < 256) : ¬ 2 ^ 80 ≤ key := by
  unfold tierOf at h
  omega

theorem poisonWord_memory {s : State} {key : Nat} (h : tierOf key < padTier) :
    poisonWord s key = if key / 8 * 8 ∈ s.poisoned then s else { s with poisoned := s.poisoned ++ [key / 8 * 8] } := by
  have hp : tierOf key ≠ padTier := Nat.ne_of_lt h
  have hs : tierOf key ≠ siltTier := Nat.ne_of_lt (h.trans (by decide))
  refine (if_neg (not_dieKey_of_tier h.le (by decide))).trans ((if_neg hs).trans ((if_neg hp).trans ?_))
  exact if_congr List.contains_iff_mem rfl rfl

/-- A sound word of a cord's scratchpad. -/
theorem poisonWord_pad {s : State} {key cord w : Nat} (h : tierOf key = padTier) (hcord : key / 2 ^ 32 % 2048 = cord)
    (hword : key % 2 ^ 32 / 8 * 8 = w) (hc : (aGet? s.cords cord).isSome = true) (hw : w < (getCord s cord).hdr.scratch)
    (hb : w ∉ (getCord s cord).bad) :
    poisonWord s key = setCord s cord { getCord s cord with bad := (getCord s cord).bad ++ [w] } := by
  have hs : tierOf key ≠ siltTier := by rw [h]; decide
  refine (if_neg (not_dieKey_of_tier h.le (by decide))).trans ((if_neg hs).trans ((if_pos h).trans ?_))
  dsimp only
  rw [hcord, hword]
  exact if_pos (by simp [hc, hw, hb])

/-- A cell of a cord's silt. -/
theorem poisonWord_silt {s : State} {key cord row : Nat} (h : tierOf key = siltTier) (hcord : key / 2 ^ 32 % 2048 = cord)
    (hrow : key % 2 ^ 32 / 1024 = row) (hc : (aGet? s.cords cord).isSome = true) (hr : row < (getCord s cord).hdr.silt) :
    poisonWord s key = setSilt s cord row ((getSilt (getCord s cord) row).poison (key % 1024)) := by
  refine (if_neg (not_dieKey_of_tier h.le (by decide))).trans ((if_pos h).trans ?_)
  dsimp only
  rw [hcord, hrow]
  exact if_pos (by simp [hc, hr])

/-- The key of a word of a die cache names its die and the word's physical key. -/
theorem poisonWord_die (s : State) {key : Nat} (h : key < 2 ^ 80) (die : Nat) :
    poisonWord s (2 ^ 80 * (die + 1) + key) = poisonDie s die key := by
  have hd : (2 ^ 80 * (die + 1) + key) / 2 ^ 80 - 1 = die := by omega
  have hk : (2 ^ 80 * (die + 1) + key) % 2 ^ 80 = key := by omega
  refine (if_pos (by omega)).trans ?_
  rw [hd, hk]

theorem poisonDie_held {s : State} {die key : Nat} (hd : die < 4) (ht : tierOf key = 1 ∨ tierOf key = 2)
    (hh : dieHolds (keepDie s die (key / 8 * 8)) die (key / 8 * 8) 8 = true)
    (hn : key / 8 * 8 ∉ dieBadWords (keepDie s die (key / 8 * 8)) die) :
    poisonDie s die key =
      (let t := keepDie s die (key / 8 * 8)
      { t with dieBad := aSet t.dieBad die (dieBadWords t die ++ [key / 8 * 8]) }) := by
  refine if_neg ?_
  simp only [hh, Bool.not_true, Bool.or_false, Bool.or_eq_true, decide_eq_true_eq, List.contains_iff_mem, hn, or_false]
  omega

/-! ### The obligation -/

/-- Settles O45: each event by what it finds at the place in focus. -/
theorem fabricAndErrorsComplete : Obligations.FabricAndErrorsComplete := by
  refine ⟨?toDie, ?toDevice, ?toSystem, ?view, ?die, ?noBlock, ?badBlock, ?outside, ?badFields, ?accepted, ?moved, ?words, ?reduced,
    ?combined, ?put, ?recovery, ?get, ?opened, ?joined, ?delivered, ?unreachable, ?retransmit, ?lost, ?narrow, ?corrected, ?memory, ?pad,
    ?silt, ?dieCache, ?poison, ?scrub⟩
  case toDie => exact fun s core i w h => congrArg Host.Outcome.next (moveToDie_at h)
  case toDevice =>
    intro s die i w h
    refine congrArg Host.Outcome.next ((moveToDevice_at h).trans ?_)
    rw [leaveDie_one]
  case toSystem => exact fun s i w h => congrArg Host.Outcome.next (moveToSystem_at h)
  case view =>
    exact fun s core key => ⟨_, rfl, rfl, fun k => (refreshView_view s core key k).trans (aGet?_dropView_one ..)⟩
  case die =>
    intro s die key
    refine ⟨_, rfl, rfl, fun k => ?_⟩
    exact (congrArg (aGet? · k) (refreshDie_lag s die key)).trans (aGet?_dropView_one ..)
  case noBlock =>
    intro s op h ha hb
    rw [fabricAccept_at h ha, if_pos hb]
    rfl
  case badBlock =>
    intro s op h ha hb hbad
    rw [fabricAccept_at h ha, if_neg hb, if_pos hbad]
    rfl
  case outside =>
    intro s op h ha hb hbad ho
    rw [fabricAccept_at h ha, if_neg hb, if_neg (ne_true_of_eq_false hbad), if_pos ho]
    rfl
  case badFields =>
    intro s op h ha hb hbad ho hf
    rw [fabricAccept_at h ha, if_neg hb, if_neg (ne_true_of_eq_false hbad), if_neg (ne_true_of_eq_false ho), if_pos hf]
    rfl
  case accepted =>
    intro s op h ha hb hbad ho hf
    rw [fabricAccept_at h ha, if_neg hb, if_neg (ne_true_of_eq_false hbad), if_neg (ne_true_of_eq_false ho),
      if_neg (ne_true_of_eq_false hf)]
  case moved => exact fun s op h ha hk => fabricComplete_moves h ha hk
  case words => exact fun op h => fabWords_eq h
  case reduced => exact fun s op st h ha hk hs => fabricComplete_reduced h ha hk hs
  case combined =>
    intro s i r hi hr hb hn h1 hle
    have hg : gathered s r = true := by
      rw [gathered_iff, (findRed_eq_some hi hr).1]
      exact ⟨h1, hle⟩
    exact congrArg Host.Outcome.next (combineRed_ready hi hr hb hn hg)
  case put =>
    intro s key bs hs
    exact ⟨fun h => (tirralFlit_put hs key bs).trans (congrArg _ (if_pos (peerMay_iff.mpr h))),
      fun h => (tirralFlit_put hs key bs).trans (congrArg _ (if_neg (mt peerMay_iff.mp h)))⟩
  case recovery => exact fun s f h => congrArg Host.Outcome.next (if_pos h)
  case get => exact fun s key n => congrArg Host.Outcome.next (ite_self s)
  case opened =>
    intro s g q op xs hs h
    rw [tirralFlit_contribution hs, contribute_first h]
    rfl
  case joined =>
    intro s g q op xs i r hs hi hr hb hn hg
    have hg' : gathered s r = false := by
      rw [← Bool.not_eq_true, gathered_iff]
      omega
    rw [tirralFlit_contribution hs, contribute_next hi hr hb hn hg' op xs]
    exact ⟨fun h => by rw [if_pos h]; rfl, fun h => by rw [if_neg h]; rfl⟩
  case delivered => exact fun s core ix op res h => ⟨fun u far hw => deliver_ok h hw, fun e hw => deliver_error h hw⟩
  case unreachable => exact fun s core ix op hs h ha hn => tirralFlit_unreachable hs h ha hn
  case retransmit => exact fun s p => rfl
  case lost =>
    intro s p hp h
    exact ⟨_, portFailure_lost hp h, rfl, rfl, getCore_mapFabric { s with portsLost := s.portsLost ++ [p] } _⟩
  case narrow => exact fun s p hp h => portFailure_narrow hp h
  case corrected => exact fun s key b => rfl
  case memory => exact fun s key h => congrArg Host.Outcome.next (poisonWord_memory h)
  case pad => exact fun s key h hc hw hb => congrArg Host.Outcome.next (poisonWord_pad (s := countErrors s 0 1) h rfl rfl hc hw hb)
  case silt => exact fun s key h hc hr => congrArg Host.Outcome.next (poisonWord_silt (s := countErrors s 0 1) h rfl rfl hc hr)
  case dieCache =>
    intro s die key hd ht w t hh hn
    have hk : key < 2 ^ 80 := Nat.not_le.mp (not_dieKey_of_tier (n := 2) (by omega) (by decide))
    exact congrArg Host.Outcome.next ((poisonWord_die (countErrors s 0 1) hk die).trans (poisonDie_held hd ht hh hn))
  case poison =>
    intro s core sc key n nc
    simp only [poisonAt, List.any_eq_true, List.mem_range, Bool.or_eq_true, Bool.and_eq_true]
  case scrub => exact fun s n => rfl

end Sys2Proof.Machine

end

section
/-! O30: the object words. First what a body leaves that serves lanes one after another, then the words. -/

namespace Sys2Proof.Machine

set_option autoImplicit false
set_option Elab.async false

/-! ### Lanes served one after another (R220, R226) -/

/-- A body that serves lanes one after another completes. -/
theorem objectWord_eq (one : Bool) (order : List Lane → List Lane) (regs : Nat) (pred : Option Nat) (f : State → Lane → LaneRes) (w : SWord)
    (s : State) : objectWord one order regs pred f w s = .done (servedWord one (order (accessLanes one w s)) regs pred f w s) := by
  cases pred <;> rfl

theorem onceFor_one (x : BitVec 8) : onceFor [x] = !isVector x := Bool.and_true _

theorem onceFor_two (x y : BitVec 8) : onceFor [x, y] = (!isVector x && !isVector y) := by
  rw [onceFor, List.all_cons, ← onceFor, onceFor_one]

/-! ### The words -/

/-- OUPG: an acquire where some lane has taken a count. -/
theorem oupgBody_eq (w : SWord) (s : State) : oupgBody w s =
    (let one := !isVector w.d && !isVector w.a
    let t := servedWord one (openOrder s (accessLanes one w s)) 2 (some w.c.toNat) (oupgLane w s) w s
    .done (if t.allocSeq = s.allocSeq then t else refresh t t.focus.core 4)) := by
  unfold oupgBody
  rw [objectWord_eq, onceFor_two]
  rfl

theorem orelBody_eq (w : SWord) (s : State) : orelBody w s =
    (let a := if enabled s w = 0 then s else release s 4
    .done (servedWord (!isVector w.a) (openOrder s (accessLanes (!isVector w.a) w a)) 0 none (countLane .strong true false false w s) w a)) := by
  unfold orelBody
  dsimp only
  rw [objectWord_eq, onceFor_one]

/-- ONEW: an acquire where some lane is enabled. -/
theorem onewBody_eq (w : SWord) (s : State) : onewBody w s =
    (let t := servedWord (!isVector w.d) (accessLanes (!isVector w.d) w s) 2 (some w.c.toNat) (onewLane w) w s
    .done (if enabled s w = 0 then t else refresh t t.focus.core 4)) := by
  unfold onewBody
  rw [objectWord_eq, onceFor_one]
  rfl

/-- BTINV's body where its token register is free: a release, the ranges dropped, and the pins for which its token waits. -/
def btinvDone (w : SWord) (l : Lane) (s : State) : State :=
  let a := startToken (release s 4) w
  let first := (opB1 a w l).toNat
  let count := (opC1 a w l).toNat
  { btDrop a (myJob a) (opA2 a w l) first count with btinvs := a.btinvs ++
    [{ cord := focusCord a, strand := a.focus.strand, token := tokenOf w.d, ops := pinOps a (myJob a) (opA2 a w l) first count }] }

theorem btinvBody_eq {w : SWord} {l : Lane} {s : State} (hl : lowestLane (enabled s w) = some l) :
    btinvBody w s = if tokenBusy s w then .wait .issue s else .done (btinvDone w l s) := once_some hl

/-- Settles O30: each word serves its lanes one after another, and BTINV acts once for the strand. -/
theorem objectsComplete : Obligations.ObjectsComplete := by
  refine ⟨?_, ?_, ?_, ?_, ?_, ?_, ?_, ?_, ?_, ?_⟩
  · exact does_of (body := oupgBody) (fun _ => rfl) (fun _ _ => rfl) oupgBody_eq
  · exact does_of (body := orelBody) (fun _ => rfl) (fun _ _ => rfl) orelBody_eq
  · refine does_of (body := owkBody) (fun _ => rfl) (fun _ _ => rfl) (fun w s => ?_)
    rw [owkBody, objectWord_eq, onceFor_two]
    rfl
  · refine does_of (body := owdBody) (fun _ => rfl) (fun _ _ => rfl) (fun w s => ?_)
    rw [owdBody, objectWord_eq, onceFor_one]
    rfl
  · exact does_of (body := onewBody) (fun _ => rfl) (fun _ _ => rfl) onewBody_eq
  · refine does_of (body := opriBody) (fun _ => rfl) (fun _ _ => rfl) (fun w s => ?_)
    rw [opriBody, objectWord_eq, onceFor_two]
    rfl
  · refine does_of (body := btldBody) (fun _ => rfl) (fun _ _ => rfl) (fun w s => ?_)
    rw [btldBody, objectWord_eq, onceFor_two]
    rfl
  · exact idle_body (body := btinvBody) (fun _ => rfl) (fun _ _ => rfl) (fun _ _ h => once_none h)
  · exact waitsOnce_body (body := btinvBody) (fun _ => rfl) (fun _ _ => rfl) (fun _ _ _ hl h => (btinvBody_eq hl).trans (if_pos h))
  · refine doesOnce_body (body := btinvBody) (fun _ => rfl) (fun _ _ => rfl) (fun _ _ _ hl h => ?_)
    exact (btinvBody_eq hl).trans (if_neg (ne_true_of_eq_false ((Bool.not_eq_true' _).mp h)))

end Sys2Proof.Machine

end

section
/-! O31: LDW. First what its lanes find, in terms of the lane alone, then the word. -/

namespace Sys2Proof.Machine

set_option autoImplicit false
set_option Elab.async false

/-! ### Lists of lanes -/

/-- To keep the values of some elements is to choose the elements and then take their values. -/
theorem filterMap_ite {α β : Type} (p : α → Bool) (f : α → β) (l : List α) :
    l.filterMap (fun a => if p a then some (f a) else none) = (l.filter p).map f := by
  induction l with
  | nil => rfl
  | cons a l ih =>
    rw [List.filterMap_cons, List.filter_cons]
    cases p a
    · exact ih
    · exact congrArg (f a :: ·) ih

/-- The value that serves a lane, of those that some lanes have. -/
theorem byLane_map {α : Type} (one : Bool) (d : α) (f : Lane → α) (ls : List Lane) (l : Lane) :
    byLane one d (ls.map (fun k => (k, f k))) l = if one then (ls.head?.map f).getD d else if ls.contains l then f l else d := by
  unfold byLane
  cases one
  · rw [if_neg Bool.false_ne_true, if_neg Bool.false_ne_true, List.find?_map, Option.map_map]
    induction ls with
    | nil => rfl
    | cons k ks ih =>
      rw [List.find?_cons, List.contains_cons, BEq.comm (a := l)]
      by_cases hk : k = l
      · subst hk
        simp
      · have hf : (k == l) = false := beq_eq_false_iff_ne.mpr hk
        simpa only [Function.comp, hf, Bool.false_or] using ih
  · rw [if_pos rfl, if_pos rfl, List.head?_map, Option.map_map]
    rfl

/-! ### What a lane of LDW finds (R227) -/

/-- The bytes and the object that a lane reads; none where its object is null or gone, or where it faults. -/
def ldwGot (w : SWord) (s : State) (l : Lane) : Option (Nat × Nat) := (ldwLane w s l).toOption.join

/-- The lane's data carries an uncorrectable error. -/
def ldwSpoilt (w : SWord) (s : State) (l : Lane) : Bool := (ldwGot w s l).any (fun r => poisonHit s r.1 w.size)

/-- The lane has a value: its object is null or gone, or its data is sound. -/
def ldwFine (w : SWord) (s : State) (l : Lane) : Bool := (ldwLane w s l).toOption.isSome && !ldwSpoilt w s l

/-- The value and the predicate of bytes, or of no object. -/
def ldwAnswer (s : State) (r : Option (Nat × Nat)) (z : Nat) : Nat × Bool := match r with
  | none => (0, true)
  | some (k, _) => (leNat (devRdN s k z), false)

theorem ldwRead_lane (w : SWord) (s : State) (l : Lane) : ldwRead s w.size (l, ldwLane w s l) =
    if ldwFine w s l then some (l, ldwAnswer s (ldwGot w s l) w.size) else none := by
  unfold ldwRead ldwFine ldwSpoilt ldwGot
  cases ldwLane w s l with
  | error e => rfl
  | ok r =>
    cases r with
    | none => rfl
    | some x =>
      by_cases h : poisonHit s x.1 w.size = true
      · simp [Except.toOption, h]
      · simp [Except.toOption, h, ldwAnswer]

theorem ldwBad_lane (w : SWord) (s : State) (l : Lane) :
    ldwBad s w w.size (l, ldwLane w s l) = if ldwSpoilt w s l then some (l, ldwAddr w s l) else none := by
  unfold ldwBad ldwSpoilt ldwGot
  cases ldwLane w s l with
  | error e => rfl
  | ok r => cases r <;> rfl

theorem ldwObj_lane (w : SWord) (s : State) (l : Lane) : ldwObj (l, ldwLane w s l) = (ldwGot w s l).map (·.2) := by
  unfold ldwObj ldwGot
  cases ldwLane w s l with
  | error e => rfl
  | ok r => cases r <;> rfl

theorem ldwSee_lane (w : SWord) (s t : State) (l : Lane) : ldwSee t (l, ldwLane w s l) = match ldwGot w s l with
    | some r => seeDevice t t.focus.core (r.1 / 16 * 16) 16
    | none => t := by
  unfold ldwSee ldwGot
  cases ldwLane w s l with
  | error e => rfl
  | ok r => cases r <;> rfl

/-! ### What the lanes of LDW find together -/

/-- The writes that values of some lanes make outstanding. -/
def ldwWritesOf (one : Bool) (w : SWord) (en : LaneMask) (read : List (Lane × Nat × Bool)) : List PendWrite :=
  let m := maskFor one en (read.map (·.1))
  groupWrites w.d w.dataRegs m (fun l => (byLane one (0, false) read l).1) ++
    predWrites w.c.toNat m (fun l => (byLane one (0, false) read l).2)

/-- A strand with outstanding results of LDW, and the objects that they hold. -/
def ldwHeld (t : Strand) (c : Clause) (ws : List PendWrite) (poison : List (Lane × DWord)) (objs : List Nat) : Strand :=
  if ws = [] ∧ poison = [] then t
  else { t with pend := race t.pend (fun d => ws.any (fun x => x.dest == d)) ++
    [{ cls := .ld, writes := ws, poison := poison, pc := c.hdr, word := c.word, objs := objs }] }

/-- To make results outstanding and then name their objects is to make them outstanding with their objects. -/
theorem ldwHeld_eq (t : Strand) (c : Clause) (ws : List PendWrite) (poison : List (Lane × DWord)) (objs : List Nat) :
    (let u := pushPend t .ld ws poison c.hdr c.word
    if ws.isEmpty && poison.isEmpty then u
    else match u.pend.getLast? with
      | some e => { u with pend := u.pend.dropLast ++ [{ e with objs := objs }] }
      | none => u) = ldwHeld t c ws poison objs := by
  unfold ldwHeld pushPend
  by_cases h : ws = [] ∧ poison = []
  · simp [h]
  · have hb : (ws.isEmpty && poison.isEmpty) = false := by
      rw [Bool.eq_false_iff, ne_eq, Bool.and_eq_true, List.isEmpty_iff, List.isEmpty_iff]
      exact h
    simp only [hb, h, Bool.false_eq_true, if_false, List.getLast?_concat, List.dropLast_concat]

/-- LDW by what its lanes have found. -/
theorem ldwBody_found (w : SWord) (s : State) : ldwBody w s =
    (let rs : List LdwFound := (accessLanes (onceDAB w) w s).map (fun l => (l, ldwLane w s l))
    let ws := ldwWritesOf (onceDAB w) w (enabled s w) (rs.filterMap (ldwRead s w.size))
    let poison := (rs.filterMap (ldwBad s w w.size)).flatMap (fun x => (servesOf (onceDAB w) w s x.1).map (fun l => (l, x.2)))
    .done (faultHere (setMe (rs.foldl ldwSee s) (ldwHeld (me s) (curClause s) ws poison (rs.filterMap ldwObj))) (curClause s)
      (rs.flatMap (ldwFaults (onceDAB w) (enabled s w))))) := by
  unfold ldwBody
  rw [onceFor_dab]
  dsimp only
  rw [← ldwHeld_eq]
  rfl

section Lanes

variable (one : Bool) (w : SWord) (s : State)

/-- The bytes and the objects that the word reads. -/
def ldwReads : List (Nat × Nat) := (accessLanes one w s).filterMap (ldwGot w s)

/-- The lanes that have a value. -/
def ldwGood : List Lane := (accessLanes one w s).filter (ldwFine w s)

/-- The lanes' values. -/
def ldwValues (ls : List Lane) : List (Lane × Nat × Bool) := ls.map (fun k => (k, ldwAnswer s (ldwGot w s k) w.size))

/-- The lanes that split when the results are written, with their addresses. -/
def ldwPoison : List (Lane × DWord) :=
  ((accessLanes one w s).filter (ldwSpoilt w s)).flatMap (fun l => (servesOf one w s l).map (fun k => (k, ldwAddr w s l)))

/-- The lanes that fault at the word. -/
def ldwFails : List (Lane × TrapCode × DWord × DWord) :=
  (accessLanes one w s).flatMap (fun l => match ldwLane w s l with
    | .error (e, a) => (servesOf one w s l).map (fun k => (k, e, a, (0 : DWord)))
    | .ok _ => [])

/-- The state once the core has read the device point (R203). -/
def ldwSeen : State := (ldwReads one w s).foldl (fun t r => seeDevice t t.focus.core (r.1 / 16 * 16) 16) s

/-- What LDW leaves: results outstanding, and lanes that fault. -/
def ldwDone : State :=
  let ws := ldwWritesOf one w (enabled s w) (ldwValues w s (ldwGood one w s))
  faultLanes (setMe (ldwSeen one w s) (ldwHeld (me s) (curClause s) ws (ldwPoison one w s) ((ldwReads one w s).map (·.2))))
    (curClause s).hdr (some (curClause s).word) (ldwFails one w s)

end Lanes

theorem filterMap_ldwRead (w : SWord) (s : State) (ls : List Lane) :
    (ls.map (fun l => (l, ldwLane w s l))).filterMap (ldwRead s w.size) = ldwValues w s (ls.filter (ldwFine w s)) := by
  rw [List.filterMap_map, ldwValues, ← filterMap_ite]
  exact List.filterMap_congr (fun l _ => ldwRead_lane w s l)

theorem filterMap_ldwBad (w : SWord) (s : State) (ls : List Lane) : (ls.map (fun l => (l, ldwLane w s l))).filterMap (ldwBad s w w.size) =
    (ls.filter (ldwSpoilt w s)).map (fun k => (k, ldwAddr w s k)) := by
  rw [List.filterMap_map, ← filterMap_ite]
  exact List.filterMap_congr (fun l _ => ldwBad_lane w s l)

theorem filterMap_ldwObj (w : SWord) (s : State) (ls : List Lane) :
    (ls.map (fun l => (l, ldwLane w s l))).filterMap ldwObj = (ls.filterMap (ldwGot w s)).map (·.2) := by
  rw [List.filterMap_map, List.map_filterMap]
  exact List.filterMap_congr (fun l _ => ldwObj_lane w s l)

theorem foldl_ldwSee (w : SWord) (s : State) (ls : List Lane) : (ls.map (fun l => (l, ldwLane w s l))).foldl ldwSee s =
    (ls.filterMap (ldwGot w s)).foldl (fun t r => seeDevice t t.focus.core (r.1 / 16 * 16) 16) s := by
  rw [List.foldl_map, List.foldl_filterMap]
  refine congrArg (fun g => ls.foldl g s) (funext fun t => funext fun l => (ldwSee_lane w s t l).trans ?_)
  cases ldwGot w s l <;> rfl

theorem map_ldwValues (w : SWord) (s : State) (ls : List Lane) : (ldwValues w s ls).map (·.1) = ls := by
  rw [ldwValues, List.map_map]
  exact List.map_id _

theorem flatMap_ldwFaults (one : Bool) (w : SWord) (s : State) :
    ((accessLanes one w s).map (fun l => (l, ldwLane w s l))).flatMap (ldwFaults one (enabled s w)) = ldwFails one w s := by
  rw [List.flatMap_map]
  rfl

theorem ldwBody_eq (w : SWord) (s : State) : ldwBody w s = .done (ldwDone (onceDAB w) w s) := by
  rw [ldwBody_found]
  dsimp only
  rw [filterMap_ldwRead, filterMap_ldwBad, filterMap_ldwObj, foldl_ldwSee, flatMap_ldwFaults, List.flatMap_map]
  rfl

/-! ### Lanes that all have a value (R227) -/

section Sound

variable {one : Bool} {w : SWord} {s : State}

/-- Every lane's object is null or gone, or its data is sound. -/
def ldwSound (one : Bool) (w : SWord) (s : State) : Prop :=
  ∀ l ∈ accessLanes one w s, ∃ r, ldwLane w s l = .ok r ∧ ∀ k i, r = some (k, i) → poisonHit s k w.size = false

variable (h : ldwSound one w s)
include h

theorem ldwSound_spoilt {l : Lane} (hl : l ∈ accessLanes one w s) : ldwSpoilt w s l = false := by
  obtain ⟨r, hr, hp⟩ := h l hl
  rw [ldwSpoilt, ldwGot, hr]
  cases r with
  | none => rfl
  | some x => exact hp x.1 x.2 rfl

theorem ldwSound_fine {l : Lane} (hl : l ∈ accessLanes one w s) : ldwFine w s l = true := by
  obtain ⟨r, hr, _⟩ := h l hl
  rw [ldwFine, ldwSound_spoilt h hl, hr]
  rfl

theorem ldwGood_sound : ldwGood one w s = accessLanes one w s := List.filter_eq_self.mpr fun _ hl => ldwSound_fine h hl

theorem ldwPoison_sound : ldwPoison one w s = [] := by
  have hf : (accessLanes one w s).filter (ldwSpoilt w s) = [] :=
    List.filter_eq_nil_iff.mpr fun l hl => ne_true_of_eq_false (ldwSound_spoilt h hl)
  rw [ldwPoison, hf]
  rfl

theorem ldwFails_sound : ldwFails one w s = [] := by
  rw [ldwFails, List.flatMap_eq_nil_iff]
  intro l hl
  obtain ⟨r, hr, _⟩ := h l hl
  rw [hr]

/-- Every enabled lane then has the value of the access that serves it. -/
theorem ldwWritesOf_sound : ldwWritesOf one w (enabled s w) (ldwValues w s (ldwGood one w s)) =
    (let val (l : Lane) : Nat × Bool := ldwAnswer s (ldwGot w s (servedBy one w s l)) w.size
    groupWrites w.d w.dataRegs (enabled s w) (fun l => (val l).1) ++ predWrites w.c.toNat (enabled s w) (fun l => (val l).2)) := by
  have hv (l : Lane) (hl : inMask (enabled s w) l = true) : byLane one (0, false) (ldwValues w s (accessLanes one w s)) l =
      ldwAnswer s (ldwGot w s (servedBy one w s l)) w.size := byLane_served one (0, false) w s _ l hl
  rw [ldwWritesOf, ldwGood_sound h, map_ldwValues, maskFor_lanes]
  dsimp only
  rw [groupWrites_congr (fun l hl => congrArg Prod.fst (hv l hl)), predWrites_congr (fun l hl => congrArg Prod.snd (hv l hl))]

theorem ldwDone_sound : ldwDone one w s =
    (let ws := ldwWritesOf one w (enabled s w) (ldwValues w s (ldwGood one w s))
    setMe (ldwSeen one w s) (ldwHeld (me s) (curClause s) ws [] ((ldwReads one w s).map (·.2)))) := by
  rw [ldwDone, ldwPoison_sound h, ldwFails_sound h]
  exact faultHere_nil ..

end Sound

/-! ### The word -/

/-- A word that issues leaves what its body does. -/
theorem ldw_done {w : SWord} {s : State} (hi : issues (.ldw w) s = true) :
    exec (.ldw w) s = .next (goneOn w.sw (ldwDone (onceDAB w) w (issued (.ldw w) s))) :=
  congrArg Host.Outcome.next (runForm_done (i := .ldw w) rfl hi (ldwBody_eq w _))

end Sys2Proof.Machine

end

section
/-! O31: OAPP. First an entry's fields and places, then what serving an entry does, stage by stage. -/

namespace Sys2Proof.Machine

set_option autoImplicit false
set_option Elab.async false

/-! ### The cord in focus (R221, R222) -/

theorem DevicePart.myCord {s t : State} (h : DevicePart s t) : myCord t = myCord s := by rw [DevicePart] at h; rw [h]; rfl

theorem cacheTlb_myCord (s : State) (core : Nat) (t : Tlb) : myCord (cacheTlb s core t) = myCord s := by
  obtain ⟨c, h⟩ := cacheTlb_only s core t
  rw [h]
  rfl

theorem setObj_myCord (s : State) (job i : Nat) (o : Obj) : myCord (setObj s job i o) = myCord s := (devicePart_devWr ..).myCord

theorem linkFree_myCord (s : State) (job i : Nat) : myCord (linkFree s job i) = myCord s := by
  unfold linkFree
  dsimp only
  split
  · exact setObj_myCord ..
  · rfl

theorem returnObject_myCord (s : State) (job i : Nat) : myCord (returnObject s job i) = myCord s := by
  unfold returnObject
  split
  · exact (foldl_kept myCord (fun s k => linkFree_myCord s job k) _ _).trans (setObj_myCord ..)
  · rfl

theorem endObject_myCord (s : State) (job i : Nat) (o : Obj) : myCord (endObject s job i o) = myCord s := setObj_myCord ..

theorem returnAll_myCord (s : State) (job : Nat) : myCord (returnAll s job) = myCord s := by
  refine foldl_kept myCord (fun s d => ?_) s.dying s
  split
  · exact returnObject_myCord ..
  · rfl

theorem reclaimFrom_myCord (job tier n : Nat) (s : State) : myCord (reclaimFrom job tier n s) = myCord s := by
  induction n generalizing s with
  | zero => rfl
  | succ n ih =>
    unfold reclaimFrom
    split
    · split
      · rfl
      · rw [ih, returnObject_myCord, endObject_myCord]
    · rfl

theorem reclaim_myCord (s : State) (job tier : Nat) : myCord (reclaim s job tier) = myCord s :=
  (reclaimFrom_myCord ..).trans (returnAll_myCord ..)

/-! ### An entry (R232) -/

theorem leAt_one (bs : List Byte) (o : Nat) : leAt bs o 1 = (bs.getD o 0).toNat := by
  rw [leAt, List.take_one, List.head?_drop, List.getD_eq_getElem?_getD]
  cases bs[o]? <;> rfl

/-- The fields of the 16 bytes of an entry. -/
theorem AppEnt.ofBytes_eq (bs : List Byte) : AppEnt.ofBytes bs =
    { table := BitVec.ofNat 64 (leNat (bs.take 8)), slot := leNat ((bs.drop 8).take 3), np := (bs.getD 11 0).toNat,
      len := leNat ((bs.drop 12).take 3), tier := (bs.getD 15 0).toNat % 2, rsv := (bs.getD 15 0).toNat / 2 % 8,
      pri := (bs.getD 15 0).toNat / 16 } := by
  unfold AppEnt.ofBytes
  rw [leAt_one, leAt_one]
  rfl

/-- The entry is well formed (R232). -/
def AppEnt.good (e : AppEnt) : Prop :=
  1 ≤ e.np ∧ e.np ≤ 16 ∧ e.slot + e.np ≤ e.len ∧ e.rsv = 0 ∧ e.table.toNat % 8 = 0

theorem AppEnt.bad_eq_false (e : AppEnt) : e.bad = false ↔ e.good := by
  simp [AppEnt.bad, AppEnt.good, and_assoc, Nat.one_le_iff_ne_zero]

theorem AppEnt.bad_eq_true {e : AppEnt} (h : ¬ e.good) : e.bad = true := by
  rwa [← AppEnt.bad_eq_false, Bool.not_eq_false] at h

/-! ### The places of an entry's slots -/

theorem mapM_none {α β : Type} {f : α → Option β} {l : List α} {a : α} (ha : a ∈ l) (h : f a = none) : l.mapM f = none := by
  induction l with
  | nil => cases ha
  | cons b l ih =>
    rw [List.mapM_cons]
    rcases List.mem_cons.mp ha with rfl | ha
    · rw [h]; rfl
    · rw [ih ha]; cases f b <;> rfl

theorem mapM_some {α β : Type} {f : α → Option β} {l : List α} {r : List β} (h : List.Forall₂ (fun a b => f a = some b) l r) :
    l.mapM f = some r := by
  induction h with
  | nil => rfl
  | cons hab _ ih => rw [List.mapM_cons, hab, ih]; rfl

/-- The place of a slot that is accessible. -/
def slotAt (s : State) (e : AppEnt) (need : Need) (i : Nat) : Except TrapCode Place :=
  placeAt s (some s.focus.core) (myJob s) e.table (8 * (e.slot + i)) 8 need

/-- A slot that cannot be read or cannot be written leaves the entry without its places. -/
theorem appPlaces_none {s : State} {e : AppEnt} {i : Nat} (hi : i < e.np)
    (h : ∀ q r, ¬ (slotAt s e .rd i = .ok q ∧ slotAt s e .wr i = .ok r)) : appPlaces s e = none := by
  refine mapM_none (List.mem_range.mpr hi) ?_
  split
  · next q r hq hr => exact absurd ⟨hq, hr⟩ (h q r)
  · rfl

theorem appPlaces_some {s : State} {e : AppEnt} {ps : List Place} (hn : ps.length = e.np)
    (h : ∀ i q, ps[i]? = some q → slotAt s e .rd i = .ok q ∧ ∃ r, slotAt s e .wr i = .ok r) : appPlaces s e = some ps := by
  refine mapM_some (List.forall₂_iff_get.mpr ⟨by rw [List.length_range, hn], fun i h₁ h₂ => ?_⟩)
  obtain ⟨hq, r, hr⟩ := h i _ (List.getElem?_eq_getElem h₂)
  rw [List.get_eq_getElem, List.getElem_range, List.get_eq_getElem]
  rw [slotAt] at hq hr
  rw [hq, hr]

/-! ### Serving an entry (R232, R233) -/

/-- The state once the translation of an access is kept. -/
def tlbKept (s : State) (p : Place) : State := match p.tlb with | some x => cacheTlb s s.focus.core x | none => s

/-- The entry at a place, in the core's view. -/
def entryAt (s : State) (p : Place) : AppEnt := .ofBytes (coreRdN s s.focus.core p.key 16 p.nc)

/-- A slot that carries an uncorrectable error. -/
def slotBad (s : State) (q : Place) : Bool := poisonAt s s.focus.core 4 q.key 8 q.nc

/-- The value of a slot at the device point. -/
def slotValue (s : State) (q : Place) : Nat := leNat ((List.range 8).map (fun i => scopeRd s s.focus.core 4 (q.key + i) q.nc))

/-- PRESSURE is posted, and the list ends. -/
def pressed (e : AppEnt) (n : Nat) (s : State) : AppEnd :=
  .served n (postDevice s (focusStrand s) (pressureMsg e.tier n e.np (freeFrames s (myJob s) e.tier)))

/-- The tier as it stands where it can hold the entry's objects, and after reclaim elsewhere. -/
def roomMade (e : AppEnt) (s : State) : State := if (allocPages s e.tier e.pri e.np).isSome then s else reclaim s (myJob s) e.tier

/-- Allocates the entry's objects, writes their handles, and goes on. -/
def entryServed (base : DWord) (k n : Nat) (e : AppEnt) (ps : List Place) (s : State) : AppEnd :=
  if freeIndices s (myJob s) < e.np then pressed e n s
  else match allocPages (roomMade e s) e.tier e.pri e.np with
    | some (hs, u) => appFrom base k (n + 1) (putHandles u ps hs)
    | none => pressed e n (roomMade e s)

/-- An entry whose slots have places is served where every slot is sound and holds 0. -/
def slotsServed (base : DWord) (k n : Nat) (e : AppEnt) (ps : List Place) (s : State) : AppEnd :=
  if ps.any (slotBad s) then .fault .poison (base + BitVec.ofNat 64 (16 * n)) n false s
  else if ps.any (fun q => slotValue s q != 0) then .fault .memfault (base + BitVec.ofNat 64 (16 * n)) n true s
  else entryServed base k n e ps (returnAll s (myJob s))

section Entry

variable {base : DWord} {k n : Nat} {s : State} {p : Place}

theorem appFrom_unplaced {c : TrapCode} (h : placeAt s (some s.focus.core) (myCord s).job base (16 * n) 16 .rd = .error c) :
    appFrom base (k + 1) n s = .fault c (base + BitVec.ofNat 64 (16 * n)) n false s := by
  rw [appFrom, myJob, h]

variable (hp : placeAt s (some s.focus.core) (myCord s).job base (16 * n) 16 .rd = .ok p)
include hp

theorem appFrom_spoilt (h : poisonSeen s s.focus.core p.key 16 p.nc = true) :
    appFrom base (k + 1) n s = .fault .poison (base + BitVec.ofNat 64 (16 * n)) n false s := by
  rw [appFrom, myJob, hp]
  exact if_pos h

variable (hs : poisonSeen s s.focus.core p.key 16 p.nc = false)
include hs

theorem appFrom_entry : appFrom base (k + 1) n s =
    (let t := tlbKept s p
    let e := entryAt t p
    match e.bad, appPlaces t e with
      | true, _ => .fault .memfault (base + BitVec.ofNat 64 (16 * n)) n true t
      | _, none => .fault .memfault (base + BitVec.ofNat 64 (16 * n)) n true t
      | false, some ps => slotsServed base k n e ps t) := by
  rw [appFrom, myJob, hp]
  exact if_neg (ne_true_of_eq_false hs)

theorem appFrom_malformed (h : ¬ (entryAt (tlbKept s p) p).good) :
    appFrom base (k + 1) n s = .fault .memfault (base + BitVec.ofNat 64 (16 * n)) n true (tlbKept s p) := by
  rw [appFrom_entry hp hs]
  dsimp only
  rw [AppEnt.bad_eq_true h]

theorem appFrom_noSlot (h : appPlaces (tlbKept s p) (entryAt (tlbKept s p) p) = none) :
    appFrom base (k + 1) n s = .fault .memfault (base + BitVec.ofNat 64 (16 * n)) n true (tlbKept s p) := by
  rw [appFrom_entry hp hs]
  dsimp only
  rw [h]
  cases (entryAt (tlbKept s p) p).bad <;> rfl

theorem appFrom_slots {ps : List Place} (hg : (entryAt (tlbKept s p) p).good)
    (h : appPlaces (tlbKept s p) (entryAt (tlbKept s p) p) = some ps) :
    appFrom base (k + 1) n s = slotsServed base k n (entryAt (tlbKept s p) p) ps (tlbKept s p) := by
  rw [appFrom_entry hp hs]
  dsimp only
  rw [h, (AppEnt.bad_eq_false _).mpr hg]

end Entry

theorem tlbKept_myJob (s : State) (p : Place) : myJob (tlbKept s p) = (myCord s).job := by
  unfold tlbKept myJob
  cases p.tlb with
  | none => rfl
  | some x => exact congrArg Cord.job (cacheTlb_myCord ..)

section Slots

variable {base : DWord} {k n : Nat} {e : AppEnt} {ps : List Place} {s : State}

theorem slotsServed_spoilt (h : ∃ q ∈ ps, slotBad s q = true) :
    slotsServed base k n e ps s = .fault .poison (base + BitVec.ofNat 64 (16 * n)) n false s := if_pos (List.any_eq_true.mpr h)

theorem slotsServed_taken (hb : ∀ q ∈ ps, slotBad s q = false) (h : ∃ q ∈ ps, ¬ slotValue s q = 0) :
    slotsServed base k n e ps s = .fault .memfault (base + BitVec.ofNat 64 (16 * n)) n true s := by
  have hb' : ps.any (slotBad s) = false := List.any_eq_false.mpr fun q hq => ne_true_of_eq_false (hb q hq)
  obtain ⟨q, hq, hv⟩ := h
  have hv' : ps.any (fun q => slotValue s q != 0) = true := List.any_eq_true.mpr ⟨q, hq, bne_iff_ne.mpr hv⟩
  rw [slotsServed, hb', hv']
  rfl

theorem slotsServed_zero (hb : ∀ q ∈ ps, slotBad s q = false) (h : ∀ q ∈ ps, slotValue s q = 0) :
    slotsServed base k n e ps s = entryServed base k n e ps (returnAll s (myJob s)) := by
  have hb' : ps.any (slotBad s) = false := List.any_eq_false.mpr fun q hq => ne_true_of_eq_false (hb q hq)
  have hv : ps.any (fun q => slotValue s q != 0) = false := List.any_eq_false.mpr fun q hq => by simp [h q hq]
  rw [slotsServed, hb', hv]
  rfl

theorem entryServed_full (h : freeIndices s (myJob s) < e.np) : entryServed base k n e ps s = pressed e n s := if_pos h

theorem entryServed_noRoom (h : e.np ≤ freeIndices s (myJob s)) (ha : allocPages (roomMade e s) e.tier e.pri e.np = none) :
    entryServed base k n e ps s = pressed e n (roomMade e s) := by
  rw [entryServed, if_neg (Nat.not_lt.mpr h), ha]

theorem entryServed_made {hs : List DWord} {u : State} (h : e.np ≤ freeIndices s (myJob s))
    (ha : allocPages (roomMade e s) e.tier e.pri e.np = some (hs, u)) :
    entryServed base k n e ps s = appFrom base k (n + 1) (putHandles u ps hs) := by
  rw [entryServed, if_neg (Nat.not_lt.mpr h), ha]

end Slots

theorem returnAll_myJob (s : State) (job : Nat) : myJob (returnAll s job) = myJob s := congrArg Cord.job (returnAll_myCord s job)

theorem roomMade_myJob (e : AppEnt) (s : State) : myJob (roomMade e s) = myJob s := by
  unfold roomMade
  split
  · rfl
  · exact congrArg Cord.job (reclaim_myCord ..)

/-! ### The word -/

section Word

variable {w : SWord} {l : Lane} {s t : State} {n : Nat} (hl : lowestLane (enabled s w) = some l)
include hl

/-- OAPP of which the list has been served, to its end or to PRESSURE. -/
theorem oappBody_served (h : appFrom (opA2 s w l) (opB1 s w l).toNat 0 (drain s (focusStrand s)) = .served n t) :
    oappBody w s = .done (putD t w 1 (BitVec.ofNat 64 n)) := by
  unfold oappBody
  rw [once_some hl]
  dsimp only
  rw [h]

/-- OAPP of which an entry faults, in every enabled lane. -/
theorem oappBody_fault {c : TrapCode} {a : DWord} {wr : Bool}
    (h : appFrom (opA2 s w l) (opB1 s w l).toNat 0 (drain s (focusStrand s)) = .fault c a n wr t) :
    oappBody w s = .done (faultHere (if wr then putD t w 1 (BitVec.ofNat 64 n) else t) (curClause s)
      ((lanesOf (enabled s w)).map (fun l => (l, c, a, if c = .memfault then BitVec.ofNat 64 n else 0)))) := by
  unfold oappBody
  rw [once_some hl]
  dsimp only
  rw [h]

end Word

end Sys2Proof.Machine

end

section
/-! O31: the obligation. -/

namespace Sys2Proof.Machine

set_option autoImplicit false
set_option Elab.async false

/-- LDW where every lane has a value: its results are outstanding. -/
theorem ldw_sound {w : SWord} {s : State} (hi : issues (.ldw w) s = true) (h : ldwSound (onceDAB w) w (issued (.ldw w) s))
    (hw : ldwWritesOf (onceDAB w) w (enabled (issued (.ldw w) s) w)
      (ldwValues w (issued (.ldw w) s) (ldwGood (onceDAB w) w (issued (.ldw w) s))) ≠ []) :
    exec (.ldw w) s = .next (goneOn w.sw (
      let u := issued (.ldw w) s
      let ws := ldwWritesOf (onceDAB w) w (enabled u w) (ldwValues w u (ldwGood (onceDAB w) w u))
      setMe (ldwSeen (onceDAB w) w u) { me u with pend := race (me u).pend (fun d => ws.any (fun x => x.dest == d)) ++
        [{ cls := .ld, writes := ws, pc := (curClause u).hdr, word := (curClause u).word,
           objs := (ldwReads (onceDAB w) w u).map (·.2) }] })) := by
  rw [ldw_done hi, ldwDone_sound h]
  dsimp only
  rw [ldwHeld, if_neg (fun h => hw h.1)]

/-- Settles O31: LDW by what its lanes find, OAPP by what serving its list comes to, entry by entry. -/
theorem objectListsComplete : Obligations.ObjectListsComplete := by
  refine ⟨?_, ?_, ?_, ?_, ?_, ?_, ?_, ?_, ?_, ?_, ?_⟩
  · intro w s hi u one z ls got val ws seen hsound hws
    have hgot : got = ldwGot w u := funext fun l => by
      unfold got ldwGot
      cases ldwLane w u l <;> rfl
    have hval : val = fun l => ldwAnswer u (ldwGot w u (servedBy one w u l)) z := funext fun l => by
      unfold val
      rw [hgot]
      cases ldwGot w u (servedBy one w u l) <;> rfl
    have hw : ldwWritesOf one w (enabled u w) (ldwValues w u (ldwGood one w u)) = ws := by
      rw [ldwWritesOf_sound hsound]
      unfold ws
      rw [hval]
    unfold seen
    rw [hgot, ← hw]
    exact ldw_sound hi hsound (hw ▸ hws)
  · intro w s hi u one c z ls got spoilt good m val ws poison faults seen t
    have hval : val = byLane one (0, false) (ldwValues w u good) := funext fun l => (byLane_map ..).symm
    have hws : ldwWritesOf one w (enabled u w) (ldwValues w u good) = ws := by
      unfold ws
      rw [ldwWritesOf, map_ldwValues, hval]
    have ht : ldwHeld (me u) c ws poison ((ls.filterMap got).map (·.2)) = t := rfl
    rw [ldw_done hi, ← ht, ← hws]
    rfl
  · exact idle_body (body := oappBody) (fun _ => rfl) (fun _ _ => rfl) (fun _ _ h => once_none h)
  · intro w s l n t hi hl u h
    have hl' : lowestLane (enabled u w) = some l := by rw [issued_enabled]; exact hl
    exact congrArg Host.Outcome.next (runForm_done (i := .oapp w) (body := oappBody w) rfl hi (oappBody_served hl' h))
  · intro w s l n c a wr t hi hl u h
    have hl' : lowestLane (enabled u w) = some l := by rw [issued_enabled]; exact hl
    exact congrArg Host.Outcome.next (runForm_done (i := .oapp w) (body := oappBody w) rfl hi (oappBody_fault hl' h))
  · exact fun base n s => rfl
  · exact fun base k n s c h => appFrom_unplaced h
  · exact fun base k n s p hp h => appFrom_spoilt hp h
  · intro base k n s p hp hs job t b table slot np len tier pri good at' zero bad
    have ht : t = tlbKept s p := by
      unfold t tlbKept
      cases p.tlb <;> rfl
    have he : entryAt t p = ⟨table, slot, np, len, tier, (b.getD 15 0).toNat / 2 % 8, pri⟩ := AppEnt.ofBytes_eq _
    have hj : job = myJob t := by rw [ht]; exact (tlbKept_myJob s p).symm
    clear_value t job
    subst ht hj
    have hgood : good ↔ (entryAt (tlbKept s p) p).good := by rw [he]; rfl
    refine ⟨fun hg => appFrom_malformed hp hs (mt hgood.mpr hg), fun _ ⟨i, hi, h⟩ => ?_, fun ps hg hn hps => ?_⟩
    · exact appFrom_noSlot hp hs (by rw [he]; exact appPlaces_none hi h)
    · rw [appFrom_slots hp hs (hgood.mp hg) (by rw [he]; exact appPlaces_some hn hps), he]
      refine ⟨slotsServed_spoilt, slotsServed_taken, fun hb hz => ?_⟩
      rw [slotsServed_zero hb hz]
      have hu := returnAll_myJob (tlbKept s p) (myJob (tlbKept s p))
      generalize returnAll (tlbKept s p) (myJob (tlbKept s p)) = u at hu ⊢
      rw [← hu]
      refine ⟨fun h => entryServed_full h, fun h ha => (entryServed_noRoom h (by exact ha)).trans ?_,
        fun hs x h ha => entryServed_made h (by exact ha)⟩
      rw [pressed, roomMade_myJob]
      rfl
  · exact fun s tier pri n => ⟨rfl, rfl⟩
  · exact fun s q qs h hs => rfl

end Sys2Proof.Machine

end

section
/-! O32 and O34: the words that issue copies and walks, and the words of signals. First the three words that issue a record, then the two
words of a channel, then the two of a signal. -/

namespace Sys2Proof.Machine

set_option autoImplicit false
set_option Elab.async false

/-- A statement's condition that begins with ! takes the other branch of the body. -/
theorem ite_of_bnot {α : Type} {b : Bool} {x y : α} (h : (!b) = true) : (if b then x else y) = y :=
  if_neg (ne_true_of_eq_false (Bool.eq_false_of_not_eq_true' h))

/-! ### Issues of a record (R247 to R249) -/

/-- The offset is not one at which a record can stand in the scratchpad of the cord, behind the word's release. -/
def recordMisplaced (w : SWord) (l : Lane) (u : State) : Bool :=
  (opA1 u w l).toNat % 64 != 0 || !scratchIn (myCord (release u 2)) (opA1 u w l).toNat 64

/-- An issue with a bad offset: token 1 and the engine trap COPYBND. -/
def recordRefused (w : SWord) (l : Lane) (u : State) : State :=
  let a := writeToken (startToken (release u 2) w) (focusStrand (release u 2)) (tokenOf w.d) 1 2
  recordTrap a (focusStrand a) { code := .copybnd, cls := .engine, addr := BitVec.ofNat 64 (2 ^ 63 + (opA1 u w l).toNat), aux := 1 }

/-- An issue that the engine has still to accept, with the record that it captured. -/
def recordIssued (mk : Nat → CopySrc) (w : SWord) (l : Lane) (u : State) : State :=
  let a := startToken (release u 2) w
  let b := { a with ops := a.ops + 1 }
  let op : CopyOp := { id := a.ops, cord := focusCord b, strand := focusStrand b, token := tokenOf w.d,
                       src := mk (opA1 u w l).toNat, image := scratchRd (myCord b) (opA1 u w l).toNat 64,
                       badRec := padPoison b (focusCord b) (opA1 u w l).toNat 64 }
  setMyCore b { myCore b with issuedCp := (myCore b).issuedCp ++ [op] }

theorem issueCopy_eq (mk : Nat → CopySrc) (w : SWord) (l : Lane) (u : State) :
    issueCopy mk w l u = if tokenBusy u w then .wait .issue u else if !slotFree u (focusCord u) then .wait .slot u
      else if recordMisplaced w l u then .done (recordRefused w l u) else .done (recordIssued mk w l u) := rfl

/-- A word whose body issues one record does in each case what R247 to R249 say. -/
theorem recordIssue_completes {mk : SWord → Instr} {f : SWord → Form} {src : SWord → State → Nat → CopySrc}
    (hf : ∀ w, strandForm (mk w) = some (w, f w))
    (he : ∀ w s, exec (mk w) s = .next (runWord (mk w) (once (fun w l s => issueCopy (src w s) w l s)) s)) :
    idle mk ∧
    waitsOnce mk (fun w _ u => tokenBusy u w) (fun _ _ _ => .issue) (fun _ _ u => u) ∧
    waitsOnce mk (fun w _ u => !tokenBusy u w && !slotFree u (focusCord u)) (fun _ _ _ => .slot) (fun _ _ u => u) ∧
    doesOnce mk (fun w l u => (!tokenBusy u w && slotFree u (focusCord u)) && recordMisplaced w l u) recordRefused ∧
    doesOnce mk (fun w l u => (!tokenBusy u w && slotFree u (focusCord u)) && !recordMisplaced w l u)
      (fun w l u => recordIssued (src w u) w l u) := by
  refine ⟨idle_once hf he, waitsOnce_once hf he fun w l u h => ?busy, waitsOnce_once hf he fun w l u h => ?full,
    doesOnce_once hf he fun w l u h => ?refused, doesOnce_once hf he fun w l u h => ?issued⟩
  case busy => rw [issueCopy_eq, if_pos h]
  all_goals simp only [Bool.and_eq_true, Bool.not_eq_true'] at h
  case full =>
    obtain ⟨ht, hs⟩ := h
    simp [issueCopy_eq, ht, hs]
  case refused =>
    obtain ⟨⟨ht, hs⟩, hm⟩ := h
    simp [issueCopy_eq, ht, hs, hm]
  case issued =>
    obtain ⟨⟨ht, hs⟩, hm⟩ := h
    simp [issueCopy_eq, ht, hs, hm]

/-! ### Channels (R245, R250) -/

/-- The channel that a word names, of the cord in focus. -/
def channelHere (w : SWord) (u : State) : Channel := aGet {} (myCord u).chans (chanOf w)

/-- The channel walks, or a head waits for the walk's end. -/
def channelBusy (w : SWord) (u : State) : Bool := (channelHere w u).walking.isSome || (channelHere w u).nextHd.isSome

/-- CHAN's effect: the head is set, or it waits while the channel walks. -/
def headSet (w : SWord) (l : Lane) (u : State) : State :=
  let a := release u 2
  setChan a (focusCord a) (chanOf w) (if (channelHere w u).walking.isSome then { channelHere w u with nextHd := some (opA2 a w l, focusStrand a) }
    else { channelHere w u with cursor := some (opA2 a w l), tail := none, owner := focusStrand a })

theorem chanBody_eq {w : SWord} {l : Lane} {u : State} (hl : lowestLane (enabled u w) = some l) :
    chanBody w u = if (channelHere w u).nextHd.isSome then .wait .slot u else .done (headSet w l u) := once_some hl

/-- The channel has a head, and it and the tail are aligned. -/
def walkSound (w : SWord) (l : Lane) (u : State) : Bool := match (channelHere w u).cursor with
  | some a => a.toNat % 64 == 0 && (opA2 (startToken (release u 2) w) w l).toNat % 64 == 0
  | none => false

/-- TAIL's walk begins: the engine has still to reach its first record. -/
def walkStarted (w : SWord) (l : Lane) (u : State) : State :=
  let h := channelHere w u
  let a := startToken (release u 2) w
  let dest := opA2 a w l
  let head := h.cursor.getD 0
  let b := setChan a (focusCord a) (chanOf w) { h with tail := some dest, walks := h.walks ++
    [{ pos := head, token := tokenOf w.d, strand := focusStrand a, owner := h.owner, tail := dest }] }
  let c := { b with ops := b.ops + 1 }
  setMyCore c { myCore c with issuedCp := (myCore c).issuedCp ++
    [{ id := b.ops, cord := focusCord c, strand := h.owner, src := .chain (chanOf w) head }] }

/-- A TAIL without a head, or with a head or a tail that is not aligned: token 2 and the engine trap DESC. -/
def walkRefused (w : SWord) (l : Lane) (u : State) : State :=
  let h := channelHere w u
  let a := startToken (release u 2) w
  let who := if h.cursor.isSome then h.owner else focusStrand a
  let pos := match h.cursor with
    | none => opA2 a w l
    | some c => if c.toNat % 64 ≠ 0 then c else opA2 a w l
  recordTrap (writeToken a (focusStrand a) (tokenOf w.d) 2 2) who { code := .desc, cls := .engine, addr := pos, aux := 2 }

/-- TAIL's body, by what its channel holds. -/
theorem tailBody_eq {w : SWord} {l : Lane} {u : State} (hl : lowestLane (enabled u w) = some l) :
    tailBody w u = if tokenBusy u w then .wait .issue u else if channelBusy w u then .wait .slot u
      else .done (if walkSound w l u then walkStarted w l u else walkRefused w l u) := by
  unfold tailBody
  rw [once_some hl]
  refine if_congr Iff.rfl rfl (if_congr Iff.rfl rfl ?_)
  unfold walkSound walkStarted walkRefused channelHere
  generalize aGet {} (myCord u).chans (chanOf w) = h
  cases hc : h.cursor with
  | none => simp [hc]
  | some a =>
    by_cases ha : a.toNat % 64 = 0
    · by_cases hd : (opA2 (startToken (release u 2) w) w l).toNat % 64 = 0
      · simp [hc, ha, hd, nextSeq]
      · simp [hc, ha, hd]
    · simp [hc, ha]

/-- TAIL waits for the walk that its channel makes, once its token register is free. -/
theorem tailBody_waits {w : SWord} {l : Lane} {u : State} (hl : lowestLane (enabled u w) = some l)
    (h : (!tokenBusy u w && channelBusy w u) = true) : tailBody w u = .wait .slot u := by
  obtain ⟨ht, hc⟩ := Bool.and_eq_true_iff.mp h
  rw [tailBody_eq hl, ite_of_bnot ht, if_pos hc]

/-- TAIL goes on where its token register is free and its channel does not walk. -/
theorem tailBody_open {w : SWord} {l : Lane} {u : State} (hl : lowestLane (enabled u w) = some l)
    (h : (!tokenBusy u w && !channelBusy w u) = true) :
    tailBody w u = .done (if walkSound w l u then walkStarted w l u else walkRefused w l u) := by
  obtain ⟨ht, hc⟩ := Bool.and_eq_true_iff.mp h
  rw [tailBody_eq hl, ite_of_bnot ht, ite_of_bnot hc]

/-- Settles O32: the three issues of a record are one body's cases, and CHAN and TAIL act by what their channel holds. -/
theorem copyIssueCompletes : Obligations.CopyIssueCompletes := by
  refine ⟨?cpy, ?cpyg, ?cpys, ?idleChan, ?idleTail, ?headWaits, ?head, ?tokenWaits, ?walkWaits, ?walk, ?noWalk⟩
  case cpy => exact recordIssue_completes (src := fun _ _ o => .cpy o) (fun _ => rfl) (fun _ _ => rfl)
  case cpyg => exact recordIssue_completes (src := fun w u o => .gather o (indexLanes u w)) (fun _ => rfl) (fun _ _ => rfl)
  case cpys => exact recordIssue_completes (src := fun w u o => .scatter o (indexLanes u w)) (fun _ => rfl) (fun _ _ => rfl)
  case idleChan => exact idle_body (body := chanBody) (fun _ => rfl) (fun _ _ => rfl) (fun _ _ h => once_none h)
  case idleTail => exact idle_body (body := tailBody) (fun _ => rfl) (fun _ _ => rfl) (fun _ _ h => once_none h)
  case headWaits =>
    exact waitsOnce_body (body := chanBody) (fun _ => rfl) (fun _ _ => rfl) fun _ _ _ hl h => (chanBody_eq hl).trans (if_pos h)
  case head =>
    exact doesOnce_body (body := chanBody) (fun _ => rfl) (fun _ _ => rfl) fun _ _ _ hl h =>
      (chanBody_eq hl).trans (ite_of_bnot h)
  case tokenWaits =>
    exact waitsOnce_body (body := tailBody) (fun _ => rfl) (fun _ _ => rfl) fun _ _ _ hl h => (tailBody_eq hl).trans (if_pos h)
  case walkWaits =>
    exact waitsOnce_body (body := tailBody) (fun _ => rfl) (fun _ _ => rfl) fun _ _ _ hl h => tailBody_waits hl h
  case walk =>
    refine doesOnce_body (body := tailBody) (fun _ => rfl) (fun _ _ => rfl) fun w l u hl h => ?_
    obtain ⟨ho, hg⟩ := Bool.and_eq_true_iff.mp h
    exact (tailBody_open hl ho).trans (congrArg Res.done (if_pos hg))
  case noWalk =>
    refine doesOnce_body (body := tailBody) (fun _ => rfl) (fun _ _ => rfl) fun w l u hl h => ?_
    obtain ⟨ho, hg⟩ := Bool.and_eq_true_iff.mp h
    exact (tailBody_open hl ho).trans (congrArg Res.done (ite_of_bnot hg))

/-! ### Signals (R251) -/

/-- What SIGD leaves behind its release: the signal less B and token 0 where the signal can be read and written, or else token 4 and the
engine trap MEMFAULT. -/
def signalDown (w : SWord) (l : Lane) (u : State) : State :=
  let a := startToken (release u 4) w
  let p := signalPlace a (opA2 u w l)
  if (p .rd).isSome && (p .wr).isSome then
    writeToken (subSignal a (some a.focus.core) ((p .rd).getD { key := 0 }) (natOf 64 (opB1 a w l).toInt)) (focusStrand u) (tokenOf w.d) 0 2
  else recordTrap (writeToken a (focusStrand u) (tokenOf w.d) 4 2) (focusStrand u)
    { code := .memfault, cls := .engine, addr := opA2 u w l, aux := 4 }

/-- SIGD's body waits for its token register only: it never faults at the word. -/
theorem sigdBody_eq {w : SWord} {l : Lane} {u : State} (hl : lowestLane (enabled u w) = some l) :
    sigdBody w u = if tokenBusy u w then .wait .issue u else .done (signalDown w l u) := by
  unfold sigdBody
  rw [once_some hl]
  refine if_congr Iff.rfl rfl ?_
  unfold signalDown
  dsimp only
  generalize signalPlace (startToken (release u 4) w) (opA2 u w l) = p
  cases p .rd with
  | none => rfl
  | some q => cases p .wr <;> rfl

/-- Settles O34: SIGD by its body's two outcomes, SIGR by `sigrBody_eq`, which its wake uses too. -/
theorem signalsComplete : Obligations.SignalsComplete := by
  refine ⟨?idleD, ?idleR, ?tokenWaits, ?down, ?faults, ?waits, ?reads⟩
  case idleD => exact idle_body (body := sigdBody) (fun _ => rfl) (fun _ _ => rfl) (fun _ _ h => once_none h)
  case idleR => exact idle_body (body := sigrBody) (fun _ => rfl) (fun _ _ => rfl) (fun _ _ h => once_none h)
  case tokenWaits =>
    exact waitsOnce_body (body := sigdBody) (fun _ => rfl) (fun _ _ => rfl) fun _ _ _ hl h => (sigdBody_eq hl).trans (if_pos h)
  case down =>
    intro w s l hi hl u ht
    have hl' : lowestLane (enabled u w) = some l := by rw [issued_enabled]; exact hl
    exact congrArg Host.Outcome.next (runForm_done (i := .sigd w) (body := sigdBody w) rfl hi
      ((sigdBody_eq hl').trans (if_neg (ne_true_of_eq_false ht))))
  case faults =>
    exact doesOnce_body (body := sigrBody) (fun _ => rfl) (fun _ _ => rfl) fun _ _ _ hl h =>
      (sigrBody_eq hl).trans (ite_of_bnot h)
  case waits =>
    refine waitsOnce_body (body := sigrBody) (fun _ => rfl) (fun _ _ => rfl) fun _ _ _ hl h => ?_
    obtain ⟨hg, ha⟩ := Bool.and_eq_true_iff.mp h
    exact (sigrBody_eq hl).trans ((if_pos hg).trans (if_pos ha))
  case reads =>
    refine doesOnce_body (body := sigrBody) (fun _ => rfl) (fun _ _ => rfl) fun _ _ _ hl h => ?_
    obtain ⟨hg, ha⟩ := Bool.and_eq_true_iff.mp h
    exact (sigrBody_eq hl).trans ((if_pos hg).trans (ite_of_bnot ha))

end Sys2Proof.Machine

end

section
/-! O26, O28, O33, O58: hitches, mailboxes, the issues of calls and of fabric operations, and the state at reset. -/

namespace Sys2Proof.Machine

set_option autoImplicit false
set_option Elab.async false

/-! ### Hitches (R303, R307, R308, R310, R311) -/

/-- No hitch of WANY's mask is bound. -/
def hitchless (w : SWord) (u : State) : Bool := w.imm &&& (me u).validMask == 0

/-- The lowest hitch of WANY's mask that is valid, unmasked and pending. -/
def hitchDue (w : SWord) (u : State) : Option Nat := (bits16 (w.imm &&& (me u).due)).head?

theorem modThreads_parkSeq (t : Strand) (m : LaneMask) (f : Lane → Thread → Thread) : (t.modThreads m f).parkSeq = t.parkSeq := by
  rw [modThreads_eq]

/-- What WANY leaves that parks its threads at the word. -/
def hitchParked (w : SWord) (u : State) : State :=
  parkClause (setMe u { (me u).modThreads (enabled u w) (fun _ x => { x with
    st := .parked (.wany w.imm w.d (me u).parkSeq), pc := (curClause u).hdr, place := some (curClause u).word }) with
    parkSeq := (me u).parkSeq + 1 }) (enabled u w)

/-- WANY's body by what its mask names: no bound hitch, one that is due, or bound hitches of which none is due. -/
theorem wanyBody_eq {w : SWord} {l : Lane} {u : State} (hl : lowestLane (enabled u w) = some l) :
    wanyBody w u = .done (if hitchless w u then setMe u (putScalar (me u) w.d 16)
      else match hitchDue w u with
        | some i => leaveClause (setMe u (dispatchTo (me u) i (enabled u w) w.d)) (enabled u w)
        | none => hitchParked w u) := by
  refine (once_some hl).trans ?_
  dsimp only
  unfold hitchless hitchDue
  by_cases h : w.imm &&& (me u).validMask = 0
  · simp only [h, if_true, beq_self_eq_true]
  · simp only [h, if_false, beq_eq_false_iff_ne.mpr h, Bool.false_eq_true]
    cases (bits16 (w.imm &&& (me u).due)).head? with
    | some i => rfl
    | none => simp only [hitchParked, modThreads_parkSeq]

theorem hitchKind_of (n : Nat) : hitchKind n = if n = 0 then .barrier else if n = 1 then .token else .mailbox := by
  match n with
  | 0 => rfl
  | 1 => rfl
  | n + 2 => rfl

/-- Settles O26: WANY by what its mask names; the other words act once for the strand. -/
theorem hitchesComplete : Obligations.HitchesComplete := by
  refine ⟨idle_once (fun _ => rfl) (fun _ _ => rfl), idle_once (fun _ => rfl) (fun _ _ => rfl), idle_once (fun _ => rfl) (fun _ _ => rfl),
    idle_once (fun _ => rfl) (fun _ _ => rfl), idle_once (fun _ => rfl) (fun _ _ => rfl), ?unbound, ?due, ?parks, ?binds, ?masks, ?unmasks,
    ?reads, ?unbinds⟩
  case unbound =>
    exact doesOnce_body (body := wanyBody) (fun _ => rfl) (fun _ _ => rfl) fun w l u hl h =>
      (wanyBody_eq hl).trans (congrArg Res.done (if_pos h))
  case due =>
    refine doesOnce_body (body := wanyBody) (fun _ => rfl) (fun _ _ => rfl) fun w l u hl h => ?_
    obtain ⟨hb, hd⟩ := Bool.and_eq_true_iff.mp h
    obtain ⟨i, hi⟩ := Option.isSome_iff_exists.mp hd
    have hi : hitchDue w u = some i := hi
    refine (wanyBody_eq hl).trans (congrArg Res.done ((ite_of_bnot hb).trans ?_))
    rw [hi]
    exact congrArg (fun o => leaveClause (setMe u (dispatchTo (me u) (o.getD 0) (enabled u w) w.d)) (enabled u w)) hi.symm
  case parks =>
    refine doesOnce_body (body := wanyBody) (fun _ => rfl) (fun _ _ => rfl) fun w l u hl h => ?_
    obtain ⟨hb, hd⟩ := Bool.and_eq_true_iff.mp h
    have hd : hitchDue w u = none := Option.isNone_iff_eq_none.mp hd
    refine (wanyBody_eq hl).trans (congrArg Res.done ((ite_of_bnot hb).trans ?_))
    rw [hd]
    rfl
  case binds =>
    refine doesOnce_once (fun _ => rfl) (fun _ _ => rfl) fun w _ u _ => ?_
    dsimp only
    rw [hitchKind_of]
    rfl
  case masks =>
    exact doesOnce_once (fun _ => rfl) (fun _ _ => rfl) fun w _ u h => congrArg (fun t => Res.done (setMe u t)) (if_pos (beq_iff_eq.mp h))
  case unmasks =>
    exact doesOnce_once (fun _ => rfl) (fun _ _ => rfl) fun w _ u h => congrArg (fun t => Res.done (setMe u t)) (if_neg (bne_iff_ne.mp h))
  case reads => exact doesOnce_once (fun _ => rfl) (fun _ _ => rfl) fun _ _ _ _ => rfl
  case unbinds => exact doesOnce_once (fun _ => rfl) (fun _ _ => rfl) fun _ _ _ _ => rfl

/-! ### Mailboxes (R304, R312 to R316) -/

/-- The strand that a post names. -/
def mailDest (w : SWord) (l : Lane) (u : State) : Nat := focusCord (release u 2) * 32 + (opB1 (release u 2) w l).toNat

/-- That strand does not exist, or has ended. -/
def mailAbsent (w : SWord) (l : Lane) (u : State) : Bool :=
  decide ((myCord (release u 2)).nstr ≤ (opB1 (release u 2) w l).toNat) || (getStrand (release u 2) (mailDest w l u)).ended

/-- Behind the post's release, once the message of the device that the strand holds has been posted. -/
def mailPosted (w : SWord) (l : Lane) (u : State) : State :=
  let a := release u 2
  if (getStrand a (mailDest w l u)).heldMsg.isSome then modWake a (mailDest w l u) (fun t => t.postHeld.syncMail) else a

/-- The lowest empty slot of that strand. -/
def mailSlot (w : SWord) (l : Lane) (u : State) : Option Nat := emptySlot (getStrand (mailPosted w l u) (mailDest w l u))

/-- MPOST's body by its destination. -/
theorem mpostBody_eq {w : SWord} {l : Lane} {u : State} (hl : lowestLane (enabled u w) = some l) :
    mpostBody w u = if mailAbsent w l u then .done (putPred (release u 2) w w.d.toNat true)
      else match mailSlot w l u with
        | none => .done (putPred (mailPosted w l u) w w.d.toNat true)
        | some i => .done (putPred (modWake (mailPosted w l u) (mailDest w l u)
            (fun t => (fillSlot t i (opA2 (mailPosted w l u) w l)).syncMail)) w w.d.toNat false) := by
  refine (once_some hl).trans ?_
  dsimp only
  unfold mailSlot
  rfl

/-- The message that MTAKE takes, with its slot. -/
def mailPick (w : SWord) (u : State) : Option (Nat × Mail) :=
  if w.bits 0 4 = 15 then oldestMail (me u).mail else (aGet? (me u).mail (w.bits 0 4)).map (fun m => (w.bits 0 4, m))

/-- MTAKE's body by the message that it takes. -/
theorem mtakeBody_eq {w : SWord} {l : Lane} {u : State} (hl : lowestLane (enabled u w) = some l) :
    mtakeBody w u = match mailPick w u with
      | none => .done (putPred (putD u w 2 0) w w.c.toNat true)
      | some x => .done (putPred (putD (setMe u (emptyMail (me u) x.1).syncMail.wake) w 2 x.2.msg) w w.c.toNat false) := by
  refine (once_some hl).trans ?_
  dsimp only
  unfold mailPick
  generalize (if w.bits 0 4 = 15 then oldestMail (me u).mail else (aGet? (me u).mail (w.bits 0 4)).map (fun m => (w.bits 0 4, m))) = o
  cases o <;> rfl

/-- Settles O28: MPOST by its destination and its slot, MTAKE by the message that it takes. -/
theorem mailComplete : Obligations.MailComplete := by
  refine ⟨idle_once (fun _ => rfl) (fun _ _ => rfl), idle_once (fun _ => rfl) (fun _ _ => rfl), idle_once (fun _ => rfl) (fun _ _ => rfl),
    ?absent, ?full, ?posted, ?none, ?taken, ?counted⟩
  case absent =>
    exact doesOnce_body (body := mpostBody) (fun _ => rfl) (fun _ _ => rfl) fun w l u hl h => (mpostBody_eq hl).trans (if_pos h)
  case full =>
    refine doesOnce_body (body := mpostBody) (fun _ => rfl) (fun _ _ => rfl) fun w l u hl h => ?_
    obtain ⟨ha, hn⟩ := Bool.and_eq_true_iff.mp h
    have hn : mailSlot w l u = none := Option.isNone_iff_eq_none.mp hn
    refine (mpostBody_eq hl).trans ((ite_of_bnot ha).trans ?_)
    rw [hn]
    rfl
  case posted =>
    refine doesOnce_body (body := mpostBody) (fun _ => rfl) (fun _ _ => rfl) fun w l u hl h => ?_
    obtain ⟨ha, hn⟩ := Bool.and_eq_true_iff.mp h
    have hs : (mailSlot w l u).isSome = true := by rw [← Option.not_isNone]; exact hn
    obtain ⟨i, hi⟩ := Option.isSome_iff_exists.mp hs
    refine (mpostBody_eq hl).trans ((ite_of_bnot ha).trans ?_)
    show _ = Res.done (putPred (modWake (mailPosted w l u) (mailDest w l u)
      (fun t => (fillSlot t ((mailSlot w l u).getD 0) (opA2 (mailPosted w l u) w l)).syncMail)) w w.d.toNat false)
    rw [hi]
    rfl
  case none =>
    refine doesOnce_body (body := mtakeBody) (fun _ => rfl) (fun _ _ => rfl) fun w l u hl h => ?_
    have h : mailPick w u = none := Option.isNone_iff_eq_none.mp h
    rw [mtakeBody_eq hl, h]
    rfl
  case taken =>
    refine doesOnce_body (body := mtakeBody) (fun _ => rfl) (fun _ _ => rfl) fun w l u hl h => ?_
    obtain ⟨x, hx⟩ := Option.isSome_iff_exists.mp h
    have hx : mailPick w u = some x := hx
    show _ = let x := (mailPick w u).getD (0, { msg := 0, stamp := 0 })
      Res.done (putPred (putD (setMe u (emptyMail (me u) x.1).syncMail.wake) w 2 x.2.msg) w w.c.toNat false)
    rw [mtakeBody_eq hl, hx]
    rfl
  case counted => exact doesOnce_once (fun _ => rfl) (fun _ _ => rfl) fun _ _ _ _ => rfl

/-! ### Issues of calls and of fabric operations (R253, R254, R279, R385, R386, R388) -/

/-- The offset is not one at which a block can stand in the scratchpad of the cord. -/
def blockMisplaced (w : SWord) (l : Lane) (u : State) : Bool :=
  (opA1 u w l).toNat % 64 != 0 || !scratchIn (myCord u) (opA1 u w l).toNat 64

/-- A fabric operation that the engine has still to accept, with the block that it captured. -/
def fabricIssued (k : FabKind) (w : SWord) (l : Lane) (u : State) : State :=
  let a := startToken (release u 5) w
  let b := { a with ops := a.ops + 1 }
  let op : FabOp := { id := a.ops, cord := focusCord b, strand := focusStrand b, token := tokenOf w.d, kind := k, off := (opA1 u w l).toNat,
                      block := if blockMisplaced w l u then [] else scratchRd (myCord b) (opA1 u w l).toNat 64,
                      bad := padPoison b (focusCord b) (opA1 u w l).toNat 64 }
  setMyCore b { myCore b with fabric := (myCore b).fabric ++ [op] }

theorem issueFabric_eq {k : FabKind} {w : SWord} {l : Lane} {u : State} (hl : lowestLane (enabled u w) = some l) :
    issueFabric k w u = if tokenBusy u w then .wait .issue u else if !slotFree u (focusCord u) then .wait .slot u
      else .done (fabricIssued k w l u) := by
  refine (once_some hl).trans (if_congr Iff.rfl rfl (if_congr Iff.rfl rfl ?_))
  have hm : ((opA1 u w l).toNat % 64 == 0 && scratchIn (myCord u) (opA1 u w l).toNat 64) = !blockMisplaced w l u := by
    simp [blockMisplaced, bne]
  unfold fabricIssued
  cases hb : blockMisplaced w l u <;> simp [hm, hb, nextSeq]

/-- A word whose body issues a fabric operation does in each case what R386 says. -/
theorem fabricIssue_completes {mk : SWord → Instr} {f : SWord → Form} {k : FabKind} (hf : ∀ w, strandForm (mk w) = some (w, f w))
    (he : ∀ w s, exec (mk w) s = .next (runWord (mk w) (issueFabric k) s)) :
    idle mk ∧
    waitsOnce mk (fun w _ u => tokenBusy u w) (fun _ _ _ => .issue) (fun _ _ u => u) ∧
    waitsOnce mk (fun w _ u => !tokenBusy u w && !slotFree u (focusCord u)) (fun _ _ _ => .slot) (fun _ _ u => u) ∧
    doesOnce mk (fun w _ u => !tokenBusy u w && slotFree u (focusCord u)) (fabricIssued k) := by
  refine ⟨idle_body hf he fun _ _ h => once_none h, waitsOnce_body hf he fun w l u hl h => ?busy,
    waitsOnce_body hf he fun w l u hl h => ?full, doesOnce_body hf he fun w l u hl h => ?issued⟩
  case busy => rw [issueFabric_eq hl, if_pos h]
  case full =>
    obtain ⟨ht, hs⟩ := Bool.and_eq_true_iff.mp h
    rw [issueFabric_eq hl, ite_of_bnot ht, if_pos hs]
  case issued =>
    obtain ⟨ht, hs⟩ := Bool.and_eq_true_iff.mp h
    rw [issueFabric_eq hl, ite_of_bnot ht, if_neg (by simp [hs])]

/-- The barrier that MCALL names. -/
def callBarrier (w : SWord) : Option Nat := if w.bits 4 1 = 1 then some (w.bits 0 4) else none

/-- A call with a bad offset: it completes at once with cause ILLOP, and its barrier counts it. -/
def callRefused (w : SWord) (u : State) : State :=
  let a := startToken (release u 2) w
  let b := match callBarrier w with
    | some k => engineNames a (focusCord a) k
    | none => a
  finishCall b b.focus.core { id := 0, cord := focusCord b, strand := focusStrand u, token := tokenOf w.d, arr := callBarrier w } none
    { status := 1, cause := 3, addr := (wordAddr u).setWidth 64 }

/-- A call that has still to enter the chain, with the block that it captured. -/
def callIssued (w : SWord) (l : Lane) (u : State) : State :=
  let a := startToken (release u 2) w
  let b := { a with ops := a.ops + 1 }
  let x := scratchRd (myCord b) (opA1 u w l).toNat 64
  let c : Call := { id := a.ops, cord := focusCord b, strand := focusStrand u, token := tokenOf w.d, arr := callBarrier w,
                    block := (List.range 8).map (fun i => BitVec.ofNat 64 (leNat ((x.drop (8 * i)).take 8))) }
  setMyCore b { myCore b with issuedCl := (myCore b).issuedCl ++ [c] }

/-- MCALL's body by its token register, its offset and the room in the chain. -/
theorem mcallBody_eq {w : SWord} {l : Lane} {u : State} (hl : lowestLane (enabled u w) = some l) :
    mcallBody w u = if tokenBusy u w then .wait .issue u else if blockMisplaced w l u then .done (callRefused w u)
      else if 64 ≤ chainLoad (myCore u) then .wait .slot u else .done (callIssued w l u) := by
  refine (once_some hl).trans (if_congr Iff.rfl rfl (if_congr Iff.rfl rfl (if_congr Iff.rfl rfl ?_)))
  rfl

/-- Settles O33: MCALL by `mcallBody_eq`; the three fabric words are one body's cases. -/
theorem callAndFabricIssueComplete : Obligations.CallAndFabricIssueComplete := by
  refine ⟨idle_once (fun _ => rfl) (fun _ _ => rfl), ?busy, ?full, ?refused, ?issued,
    fabricIssue_completes (fun _ => rfl) (fun _ _ => rfl), fabricIssue_completes (fun _ => rfl) (fun _ _ => rfl),
    fabricIssue_completes (fun _ => rfl) (fun _ _ => rfl)⟩
  case busy =>
    exact waitsOnce_body (body := mcallBody) (fun _ => rfl) (fun _ _ => rfl) fun w l u hl h => (mcallBody_eq hl).trans (if_pos h)
  case full =>
    refine waitsOnce_body (body := mcallBody) (fun _ => rfl) (fun _ _ => rfl) fun w l u hl h => ?_
    obtain ⟨h, hf⟩ := Bool.and_eq_true_iff.mp h
    obtain ⟨ht, hb⟩ := Bool.and_eq_true_iff.mp h
    exact (mcallBody_eq hl).trans ((ite_of_bnot ht).trans ((ite_of_bnot hb).trans (if_pos (of_decide_eq_true hf))))
  case refused =>
    refine doesOnce_body (body := mcallBody) (fun _ => rfl) (fun _ _ => rfl) fun w l u hl h => ?_
    obtain ⟨ht, hb⟩ := Bool.and_eq_true_iff.mp h
    exact (mcallBody_eq hl).trans ((ite_of_bnot ht).trans (if_pos hb))
  case issued =>
    refine doesOnce_body (body := mcallBody) (fun _ => rfl) (fun _ _ => rfl) fun w l u hl h => ?_
    obtain ⟨h, hf⟩ := Bool.and_eq_true_iff.mp h
    obtain ⟨ht, hb⟩ := Bool.and_eq_true_iff.mp h
    exact (mcallBody_eq hl).trans ((ite_of_bnot ht).trans ((ite_of_bnot hb).trans
      (if_neg (of_decide_eq_false (Bool.not_eq_true' _ ▸ hf)))))

/-! ### Reset (R395, R408) -/

/-- Settles O58: each field of the reset state is a literal, and the first turn of its agenda is DEVICE_RESET. -/
theorem resetState : Obligations.ResetState :=
  ⟨rfl, rfl, rfl, rfl, rfl, rfl, rfl, rfl, rfl, rfl, rfl, rfl, rfl, rfl, rfl, reset_memoryOk, rfl⟩

end Sys2Proof.Machine

end

section
/-! O38: the memory and call words of the capstan. First where an access lies, then the words. -/

namespace Sys2Proof.Machine

set_option autoImplicit false
set_option Elab.async false

/-! ### Places (R255, R282, R284) -/

/-- The address of a CLD or CST. -/
def capAt (w : CWord) (s : State) : DWord := capA s w + BitVec.ofInt 64 (capOff w)

theorem capPlace_scratch {s : State} {w : CWord} (need : Need) (h : capSp w = true) :
    capPlace s w need = if (capAt w s).toNat % 2 ^ 32 + capSize w ≤ (getCord s (capCord s)).hdr.scratch ∧
        (capAt w s).toNat % 2 ^ 32 % capSize w = 0 then .ok { key := (capAt w s).toNat % 2 ^ 32 } else .error (operandEnd s) := by
  refine (if_pos h).trans (if_congr ?_ rfl rfl)
  rw [Bool.and_eq_true, decide_eq_true_eq]
  exact and_congr_left' decide_eq_true_iff

/-- An access to memory that is not aligned, has the null handle for a base or does not translate has no place. -/
theorem capPlace_nowhere {s : State} {w : CWord} {need : Need} (hm : capSp w = false) (hb : isHandle (capA s w) = false)
    (h : (capAt w s).toNat % capSize w ≠ 0 ∨ (capA s w = 0 ∧ w.a ≠ 31) ∨
      translate s (some s.focus.core) (getCord s (capCord s)).job (capAt w s) need = none) :
    capPlace s w need = .error { status := 8, cause := 0, addr := capAt w s } := by
  refine (if_neg (ne_true_of_eq_false hm)).trans ((if_neg (ne_true_of_eq_false hb)).trans ?_)
  split
  · rfl
  · next hn =>
    have ht : translate s (some s.focus.core) (getCord s (capCord s)).job (capAt w s) need = none := by
      refine (h.resolve_left fun h0 => hn ?_).resolve_left fun h0 => hn ?_
      · exact Bool.or_eq_true_iff.mpr (.inl (bne_iff_ne.mpr h0))
      · exact Bool.or_eq_true_iff.mpr (.inr (by simpa using h0))
    exact (congrArg (fun o : Option Place => match o with
      | some p => Except.ok p
      | none => Except.error (endWith 8 0 (capAt w s))) ht).trans rfl

/-! ### Loads and stores (R284) -/

/-- What a CLD leaves that reads at place p: its result is outstanding. -/
def capLoaded (w : CWord) (s : State) (p : Place) : State :=
  let t := capKeep s p
  let raced := (myRun t).pend.map (fun e => if e.reg = w.d.toNat then { e with raced := true } else e)
  let v := leNat ((List.range (capSize w)).map (fun i => capByte s (capSp w) p (p.key + i)))
  setRun t { myRun t with pend := raced ++ [{ reg := w.d.toNat, val := BitVec.ofNat 64 v }] }

/-- What a CST leaves that writes at place p: its bytes are in the call's queue. -/
def capStored (w : CWord) (s : State) (p : Place) : State :=
  let t := capKeep s p
  setRun t { myRun t with stores := (myRun t).stores ++
    [{ scratch := capSp w, key := p.key, bytes := leBytes (capSize w) (capB s w).toNat, nc := p.nc }] }

/-- CLD's body by the place of its access. -/
theorem cldBody_eq (w : CWord) (s : State) : cldBody w s = match capPlace s w .rd with
    | .error e => .stop 1 e s
    | .ok p => if spoiltFor s (capSp w) (capSize w) p then .stop 1 { status := 9, cause := 0, addr := capAt w s } s
      else .done 1 (capLoaded w s p) := rfl

/-- CST's body by the place of its access. -/
theorem cstBody_eq (w : CWord) (s : State) : cstBody w s = match capPlace s w .wr with
    | .error e => .stop 1 e s
    | .ok p => .done 1 (capStored w s p) := rfl

/-- The place of an access that has one. -/
theorem capPlaced {need : Need} {w : CWord} {s : State} (h : (capPlace s w need).toOption.isSome = true) : ∃ p, capPlace s w need = .ok p := by
  cases hp : capPlace s w need with
  | error e => rw [hp] at h; cases h
  | ok p => exact ⟨p, rfl⟩

/-- That place, as a statement names it. -/
def capGot (need : Need) (w : CWord) (s : State) : Place := (capPlace s w need).toOption.getD { key := 0 }

theorem capGot_eq {need : Need} {w : CWord} {s : State} {p : Place} (h : capPlace s w need = .ok p) : capGot need w s = p := by
  rw [capGot, h]
  rfl

/-- A word whose body ends the call where its access has no place. -/
theorem capStops_nowhere {mk : CWord → Instr} {f : CWord → CForm} {body : CWord → State → CRes} {need : Need}
    (hf : ∀ w, capstanForm (mk w) = some (w, f w)) (he : ∀ w s, exec (mk w) s = .next (runCap (mk w) body s))
    (hb : ∀ w s e, capPlace s w need = .error e → body w s = .stop 1 e s) :
    ∀ w s e, capIssues (mk w) s = true → capPlace s w need = .error e → exec (mk w) s = .next (capEnds 1 e s) := by
  intro w s e hi hp
  rw [he, runCap_stop (hf w) hi (hb w s e hp)]

/-! ### The obligation -/

/-- CFENCE's body: its release part unless it only acquires, and its acquire part unless it only releases. -/
theorem cfenceBody_eq (w : CWord) (s : State) : cfenceBody w s =
    let sc := w.imm.toNat % 8
    let k := w.imm.toNat / 8 % 4
    let t := if k = 1 ∨ sc = 0 then s else flush (drainCap s) s.focus.core sc
    .done 2 (if k = 2 then t else refresh t t.focus.core sc) := by
  unfold cfenceBody
  simp only [Bool.or_eq_true, decide_eq_true_eq]

/-- Settles O38: a load and a store by the place of their access, CWAIT by `cwait_tests`, the other words by their bodies. -/
theorem capstanMemoryComplete : Obligations.CapstanMemoryComplete := by
  refine ⟨fun s w need h => capPlace_scratch need h, fun s w need hm hb h => capPlace_nowhere hm hb h, ?loads, ?spoilt, ?noLoad, ?noStore,
    ?stores, fun w s hi => cwait_tests hi, ?fences, ?ret, ?arg, ?pri, ?seq, ?badSeq, ?trap⟩
  case loads =>
    refine capDoes_body (body := cldBody) (fun _ => rfl) (fun _ _ => rfl) fun w s h => ?_
    obtain ⟨hp, hs⟩ := Bool.and_eq_true_iff.mp h
    have hs : (!spoiltFor s (capSp w) (capSize w) (capGot .rd w s)) = true := hs
    obtain ⟨p, hp⟩ := capPlaced hp
    show cldBody w s = .done 1 (capLoaded w s (capGot .rd w s))
    rw [capGot_eq hp] at hs ⊢
    rw [cldBody_eq, hp]
    exact ite_of_bnot hs
  case spoilt =>
    refine capStops_body (body := cldBody) (fun _ => rfl) (fun _ _ => rfl) fun w s h => ?_
    obtain ⟨hp, hs⟩ := Bool.and_eq_true_iff.mp h
    have hs : spoiltFor s (capSp w) (capSize w) (capGot .rd w s) = true := hs
    obtain ⟨p, hp⟩ := capPlaced hp
    rw [capGot_eq hp] at hs
    rw [cldBody_eq, hp]
    exact if_pos hs
  case noLoad =>
    exact capStops_nowhere (body := cldBody) (fun _ => rfl) (fun _ _ => rfl) fun w s e hp => by rw [cldBody_eq, hp]
  case noStore =>
    exact capStops_nowhere (body := cstBody) (fun _ => rfl) (fun _ _ => rfl) fun w s e hp => by rw [cstBody_eq, hp]
  case stores =>
    refine capDoes_body (body := cstBody) (fun _ => rfl) (fun _ _ => rfl) fun w s hp => ?_
    obtain ⟨p, hp⟩ := capPlaced hp
    show cstBody w s = .done 1 (capStored w s (capGot .wr w s))
    rw [capGot_eq hp, cstBody_eq, hp]
  case fences => exact capDoes_body (body := cfenceBody) (fun _ => rfl) (fun _ _ => rfl) fun w s _ => cfenceBody_eq w s
  case ret => exact capStops_body (body := cretBody) (fun _ => rfl) (fun _ _ => rfl) fun _ _ _ => rfl
  case arg => exact capWrites_body (body := cargBody) (fun _ => rfl) (fun _ _ => rfl) fun _ _ => rfl
  case pri => exact capWrites_body (fun _ => rfl) (fun _ _ => rfl) fun _ _ => rfl
  case seq =>
    exact capDoes_body (body := cseqBody) (fun _ => rfl) (fun _ _ => rfl) fun w s h => if_neg (by simpa using h)
  case badSeq => exact capStops_body (body := cseqBody) (fun _ => rfl) (fun _ _ => rfl) fun w s h => if_pos h
  case trap => exact capStops_body (body := ctrapBody) (fun _ => rfl) (fun _ _ => rfl) fun _ _ _ => rfl

end Sys2Proof.Machine

end

section
/-! O35: the task words. First GCND by its place, then the words. -/

namespace Sys2Proof.Machine

set_option autoImplicit false
set_option Elab.async false

/-! ### GCND (R333) -/

/-- GCND's base pair holds the null handle. -/
def gcndNull (w : SWord) (l : Lane) (u : State) : Prop := opA2 u w l = 0 ∧ w.a ≠ 0xF0

/-- Where GCND stores. -/
def gcndPlace (w : SWord) (l : Lane) (u : State) : Except TrapCode Place :=
  if opA2 u w l = 0 && w.a != 0xF0 then .error .memfault else placeAt u (some u.focus.core) (myCord u).job (opA2 u w l) 0 4 .wr

theorem gcndPlace_null {w : SWord} {l : Lane} {u : State} (h : gcndNull w l u) : gcndPlace w l u = .error .memfault := by
  obtain ⟨h0, ha⟩ := h
  exact if_pos (Bool.and_eq_true_iff.mpr ⟨decide_eq_true h0, bne_iff_ne.mpr ha⟩)

theorem gcndPlace_of {w : SWord} {l : Lane} {u : State} (h : ¬ gcndNull w l u) :
    gcndPlace w l u = placeAt u (some u.focus.core) (myCord u).job (opA2 u w l) 0 4 .wr :=
  if_neg fun hn => h ((Bool.and_eq_true_iff.mp hn).imp of_decide_eq_true bne_iff_ne.mp)

/-- GCND's body is the store of one lane. -/
theorem gcndBody_eq {w : SWord} {l : Lane} {u : State} (hl : lowestLane (enabled u w) = some l) : gcndBody w u =
    storeWith false 4 true [(l, opA2 u w l, gcndPlace w l u)] (fun l => leBytes 4 (opB1 u w l).toNat) w u := once_some hl

/-- The store of one lane that has a place, as a release at .dv. -/
theorem gcndBody_stores {w : SWord} {l : Lane} {u : State} {p : Place} (hl : lowestLane (enabled u w) = some l)
    (hp : gcndPlace w l u = .ok p) : gcndBody w u = .done (cachePlaces (setMe u { me u with stores := (me u).stores ++
      [{ scratch := false, key := p.key, bytes := leBytes 4 (opB1 u w l).toNat, nc := p.nc, rel := 4 }] }) [⟨l, opA2 u w l, p⟩]) := by
  rw [gcndBody_eq hl, hp]
  exact congrArg Res.done (faultHere_nil ..)

/-- Where the lane has no place, every enabled lane splits. -/
theorem gcndBody_faults {w : SWord} {l : Lane} {u : State} {c : TrapCode} (hl : lowestLane (enabled u w) = some l)
    (hp : gcndPlace w l u = .error c) : gcndBody w u = .done (faultLanes (setMe u (me u)) (curClause u).hdr (some (curClause u).word)
      ((lanesOf (enabled u w)).map (fun m => (m, c, opA2 u w l, 0)))) := by
  have hs : enqueue u false 4 (fun l => leBytes 4 (opB1 u w l).toNat) [] = setMe u (me u) := by
    unfold enqueue
    simp only [List.zipIdx_nil, List.map_nil, List.append_nil]
  have hf : faultsOf true (enabled u w) [(l, opA2 u w l, .error c)] = (lanesOf (enabled u w)).map (fun m => (m, c, opA2 u w l, 0)) :=
    List.append_nil _
  rw [gcndBody_eq hl, hp]
  unfold storeWith
  rw [hf]
  exact congrArg (fun t => Res.done (faultHere t (curClause u) ((lanesOf (enabled u w)).map (fun m => (m, c, opA2 u w l, 0))))) hs

/-! ### The words -/

/-- TSPN's body where no record is left to push. -/
theorem tspnBody_idle {w : SWord} {u : State} (h : (spawning w u).isEmpty = true) : tspnBody w u = .done u := by
  unfold tspnBody
  rw [onceFor_one]
  exact if_pos h

theorem spawning_ne_nil {w : SWord} {u : State} (h : (!(spawning w u).isEmpty) = true) : spawning w u ≠ [] := by
  simpa using h

/-- Settles O35: each word by its body, TSPN and GCND by the equations above. -/
theorem tasksComplete : Obligations.TasksComplete := by
  refine ⟨?nothing, ?pushed, ?waits, ?steals, ?decrements, idle_once (fun _ => rfl) (fun _ _ => rfl), idle_once (fun _ => rfl) (fun _ _ => rfl),
    idle_once (fun _ => rfl) (fun _ _ => rfl), ?ends, ?reads, ?stores, ?faults⟩
  case nothing =>
    exact doesIf_of (body := tspnBody) (fun _ => rfl) (fun _ _ => rfl) fun _ _ h => tspnBody_idle h
  case pushed =>
    refine doesIf_of (body := tspnBody) (fun _ => rfl) (fun _ _ => rfl) fun w u h => ?_
    obtain ⟨he, hs⟩ := Bool.and_eq_true_iff.mp h
    rw [tspnBody_eq (spawning_ne_nil he), Option.isNone_iff_eq_none.mp hs]
    rfl
  case waits =>
    refine waitsIf_of (body := tspnBody) (fun _ => rfl) (fun _ _ => rfl) fun w u h => ?_
    obtain ⟨he, hs⟩ := Bool.and_eq_true_iff.mp h
    obtain ⟨l, hl⟩ := Option.isSome_iff_exists.mp hs
    rw [tspnBody_eq (spawning_ne_nil he), hl]
    rfl
  case steals =>
    refine does_of (body := tstlBody) (fun _ => rfl) (fun _ _ => rfl) fun w u => ?_
    rw [tstlBody, objectWord_eq, onceFor_two]
    rfl
  case decrements =>
    refine does_of (body := tdecBody) (fun _ => rfl) (fun _ _ => rfl) fun w u => ?_
    rw [tdecBody, objectWord_eq, onceFor_one]
    rfl
  case ends => exact doesOnce_once (fun _ => rfl) (fun _ _ => rfl) fun _ _ _ _ => rfl
  case reads => exact doesOnce_once (fun _ => rfl) (fun _ _ => rfl) fun _ _ _ _ => rfl
  case stores =>
    intro w s l p hi hl u hp h0
    have hn : ¬ gcndNull w l u := fun ⟨hz, ha⟩ => h0.elim (· hz) (ha ·)
    have hl' : lowestLane (enabled u w) = some l := by rw [issued_enabled]; exact hl
    exact congrArg Host.Outcome.next (runForm_done (i := .gcnd w) (body := gcndBody w) rfl hi
      (gcndBody_stores hl' ((gcndPlace_of hn).trans hp)))
  case faults =>
    intro w s l c hi hl u null h
    have hl' : lowestLane (enabled u w) = some l := by rw [issued_enabled]; exact hl
    have hp : gcndPlace w l u = .error c := by
      rcases h with ⟨hn, rfl⟩ | ⟨hn, hp⟩
      · exact gcndPlace_null hn
      · exact (gcndPlace_of hn).trans hp
    exact congrArg Host.Outcome.next (runForm_done (i := .gcnd w) (body := gcndBody w) rfl hi (gcndBody_faults hl' hp))

end Sys2Proof.Machine

end

section
/-! O36: the words of a trap handler. -/

namespace Sys2Proof.Machine

set_option autoImplicit false
set_option Elab.async false

/-! ### TWRL (R366) -/

/-- The lane of the frozen strand that TWRL names. -/
def frozenLane (w : SWord) (l : Lane) (u : State) : Lane := laneOfNat (opB1 u w l).toNat

/-- There is no such lane, or its thread has exited. -/
def frozenOut (w : SWord) (l : Lane) (u : State) : Bool :=
  decide (31 < (opB1 u w l).toNat) || ((me u).threads.get (frozenLane w l u)).isExited

/-- What TWRL does to a lane that stands: a register, a predicate, or a position. -/
def frozenWrite (w : SWord) (l : Lane) (u : State) : Res := match w.c.toNat with
  | 0 => .done (setMe u (putReg (me u) w.d w.ty.regs (laneBit (frozenLane w l u)) (fun _ => operand u w 1 w.a w.ty.regs l)))
  | 1 => .done (setMe u (putFrozenPred (me u) w.d.toNat (frozenLane w l u) ((opA1 u w l).getLsbD 0)))
  | _ => if !inMask (handledTrap u).park (frozenLane w l u) then .trap .illop 0
    else .done (setMe u ((leaveSaved (me u) (laneBit (frozenLane w l u))).modThread (frozenLane w l u) (fun x => { x with
      pc := (opA2 u w l).extractLsb' 0 56, hi := (opA2 u w l).extractLsb' 56 8, place := none })))

theorem twrlBody_eq {w : SWord} {l : Lane} {u : State} (hl : lowestLane (enabled u w) = some l) :
    twrlBody w u = if frozenOut w l u then .done u else frozenWrite w l u := (once_some hl).trans (if_congr Iff.rfl rfl rfl)

theorem frozenWrite_reg {w : SWord} {l : Lane} {u : State} (h : w.c.toNat = 0) : frozenWrite w l u =
    .done (setMe u (putReg (me u) w.d w.ty.regs (laneBit (frozenLane w l u)) (fun _ => operand u w 1 w.a w.ty.regs l))) := by
  unfold frozenWrite
  rw [h]
  rfl

theorem frozenWrite_pred {w : SWord} {l : Lane} {u : State} (h : w.c.toNat = 1) : frozenWrite w l u =
    .done (setMe u (putFrozenPred (me u) w.d.toNat (frozenLane w l u) ((opA1 u w l).getLsbD 0))) := by
  unfold frozenWrite
  rw [h]
  rfl

theorem frozenWrite_pos {w : SWord} {l : Lane} {u : State} (h : 1 < w.c.toNat) : frozenWrite w l u =
    if !inMask (handledTrap u).park (frozenLane w l u) then .trap .illop 0
    else .done (setMe u ((leaveSaved (me u) (laneBit (frozenLane w l u))).modThread (frozenLane w l u) (fun x => { x with
      pc := (opA2 u w l).extractLsb' 0 56, hi := (opA2 u w l).extractLsb' 56 8, place := none }))) := by
  unfold frozenWrite
  generalize w.c.toNat = n at h
  obtain ⟨m, rfl⟩ := Nat.exists_eq_add_of_lt h
  rw [show 1 + m + 1 = m + 2 by omega]
  rfl

/-! ### TRET (R368) -/

/-- A TRET that issues returns, once the results that it waits for are written. -/
theorem tret_returns {w : SWord} {s : State} (hi : issues (.tret w) s = true) (he : enabled s w ≠ 0) :
    exec (.tret w) s = .next (returnFrom (w.bits 0 2) { tretSettle w.sw s with free := (tretSettle w.sw s).free + 1 }) := by
  show Host.Outcome.next (tretRun w s) = _
  obtain ⟨f, hf⟩ : ∃ f, strandForm (.tret w) = some (w, f) := ⟨_, rfl⟩
  unfold tretRun
  rw [hf]
  dsimp only
  rw [(issues_split hf hi).1]
  exact congrArg Host.Outcome.next (if_neg he)

/-! ### Lanes that leave the interrupted clause (R366) -/

/-- What stays of a clause that some lanes leave. -/
def clauseWithout (c : Clause) (m : LaneMask) : Clause := { c with act := c.act &&& ~~~m, group := c.group &&& ~~~m }

theorem leaveSaved_eq {t : Strand} {m : LaneMask} {h : Handler} {c : Clause} {st : Option Stall} (ht : t.handler = some h)
    (hs : h.saved = some (c, st)) : leaveSaved t m = if (clauseWithout c m).act = 0 then
      { t.modThreads (clauseWithout c m).group (fun _ x => if x.isReady then { x with stamp := t.sel } else x) with
        handler := some { h with saved := none } }
      else { t with handler := some { h with saved := some (clauseWithout c m, st) } } := by
  unfold leaveSaved
  rw [ht]
  dsimp only
  rw [hs]
  rfl

/-- Settles O36: each word acts once for the strand, TWRL by the place that it names. -/
theorem handlerWordsComplete : Obligations.HandlerWordsComplete := by
  refine ⟨idle_once (fun _ => rfl) (fun _ _ => rfl), idle_once (fun _ => rfl) (fun _ _ => rfl), idle_once (fun _ => rfl) (fun _ _ => rfl),
    idle_once (fun _ => rfl) (fun _ _ => rfl), ?idle, ?reads, ?out, ?reg, ?pred, ?noPos, ?pos, ?item, ?mask, ?returns, ?leaves⟩
  case idle =>
    intro w s hi h0
    obtain ⟨f, hf⟩ : ∃ f, strandForm (.tret w) = some (w, f) := ⟨_, rfl⟩
    show Host.Outcome.next (tretRun w s) = _
    unfold tretRun
    rw [hf]
    dsimp only
    rw [(issues_split hf hi).1, ← finishWord_eq]
    exact congrArg Host.Outcome.next (if_pos h0)
  case reads => exact doesOnce_once (fun _ => rfl) (fun _ _ => rfl) fun _ _ _ _ => rfl
  case out =>
    exact doesOnce_body (body := twrlBody) (fun _ => rfl) (fun _ _ => rfl) fun w l u hl h => (twrlBody_eq hl).trans (if_pos h)
  case reg =>
    refine doesOnce_body (body := twrlBody) (fun _ => rfl) (fun _ _ => rfl) fun w l u hl h => ?_
    obtain ⟨ho, hc⟩ := Bool.and_eq_true_iff.mp h
    exact (twrlBody_eq hl).trans ((ite_of_bnot ho).trans (frozenWrite_reg (beq_iff_eq.mp hc)))
  case pred =>
    refine doesOnce_body (body := twrlBody) (fun _ => rfl) (fun _ _ => rfl) fun w l u hl h => ?_
    obtain ⟨ho, hc⟩ := Bool.and_eq_true_iff.mp h
    exact (twrlBody_eq hl).trans ((ite_of_bnot ho).trans (frozenWrite_pred (beq_iff_eq.mp hc)))
  case noPos =>
    refine trapsOnce_body (body := twrlBody) (fun _ => rfl) (fun _ _ => rfl) fun w l u hl h => ?_
    obtain ⟨h, hp⟩ := Bool.and_eq_true_iff.mp h
    obtain ⟨ho, hc⟩ := Bool.and_eq_true_iff.mp h
    exact (twrlBody_eq hl).trans ((ite_of_bnot ho).trans ((frozenWrite_pos (of_decide_eq_true hc)).trans (if_pos hp)))
  case pos =>
    refine doesOnce_body (body := twrlBody) (fun _ => rfl) (fun _ _ => rfl) fun w l u hl h => ?_
    obtain ⟨h, hp⟩ := Bool.and_eq_true_iff.mp h
    obtain ⟨ho, hc⟩ := Bool.and_eq_true_iff.mp h
    refine (twrlBody_eq hl).trans ((ite_of_bnot ho).trans ((frozenWrite_pos (of_decide_eq_true hc)).trans (ite_of_bnot ?_)))
    rw [Bool.not_not]
    exact hp
  case item => exact doesOnce_once (fun _ => rfl) (fun _ _ => rfl) fun _ _ _ _ => rfl
  case mask => exact doesOnce_once (fun _ => rfl) (fun _ _ => rfl) fun _ _ _ _ => rfl
  case returns => exact fun w s hi he => tret_returns hi he
  case leaves =>
    refine fun t m h c st ht hs => ⟨fun ha => ?_, fun ha => ?_⟩
    · exact (leaveSaved_eq ht hs).trans (if_neg ha)
    · exact congrArg Strand.handler ((leaveSaved_eq ht hs).trans (if_pos ha))

end Sys2Proof.Machine

end

section
/-! O44: the events of the graph unit. First the entries of the submission ring, then the nodes, then the end of a graph's run and the
coalescer. -/

namespace Sys2Proof.Machine

set_option autoImplicit false
set_option Elab.async false

/-! ### Entries (R341, R343) -/

/-- The next entry of the submission ring is e, of number seq, and t has read it. -/
def entryTaken (s : State) (seq : Nat) (e : Entry) (t : State) : Prop := ∃ b, nextEntry s = some b ∧ e = Entry.ofBytes b ∧
  seq = s.mgmt.srhead ∧ t = { s with mgmt := { s.mgmt with srhead := s.mgmt.srhead + 1 } }

theorem takeEntry_of {s t : State} {seq : Nat} {e : Entry} {p : Nat → Bool} (h : entryTaken s seq e t) (hp : p e.kind = true) :
    takeEntry p s = some (seq, e, t) := by
  obtain ⟨b, hb, rfl, rfl, rfl⟩ := h
  unfold takeEntry
  rw [hb]
  exact if_pos hp

/-- RUN by its entry: it is refused, or it is the job's own graph again, or the graph starts. -/
theorem execRun_of {s t : State} {seq : Nat} {e : Entry} (h : entryTaken s seq e t) (hk : e.kind = 0) : execRun s =
    if !jobLive t e.job || !queueBound t e.queue e.job then .next (putRecord t seq 0 5 0 e.tag 0)
    else if t.insts.any (fun x => x.2.addr == e.target && x.2.job == e.job) then .next (putRecord t seq 0 4 0 e.tag 0)
    else .next (startInst (setInst { t with instSeq := t.instSeq + 1 } t.instSeq
      { addr := e.target, job := e.job, queue := e.queue, level := e.pri, csig := e.csig, tag := e.tag, seq := seq }) t.instSeq e.value) := by
  unfold execRun
  rw [takeEntry_of h (by simp [hk])]

theorem execPost_of {s t : State} {seq : Nat} {e : Entry} (h : entryTaken s seq e t) (hk : e.kind = 1) (hj : jobLive t e.job = true) :
    execPost s = .next ((postToTask t e.job e.target e.strand e.value).elim (putRecord t seq 1 6 0 e.tag 0)
      (fun u => putRecord u seq 1 0 0 e.tag 0)) := by
  unfold execPost
  rw [takeEntry_of h (by simp [hk])]
  dsimp only
  rw [hj, if_neg (by simp)]
  cases postToTask t e.job e.target e.strand e.value <;> rfl

theorem execWatch_of {s t : State} {seq : Nat} {e : Entry} (h : entryTaken s seq e t) (hk : e.kind = 2) (hj : jobLive t e.job = true)
    (hn : t.watches.length < 256) (ht : targetThere t e.job e.target e.strand = true) :
    execWatch s = .next { t with watches := t.watches ++
      [{ job := e.job, target := e.target, strand := e.strand, signal := e.value, bound := e.csig, tag := e.tag, seq := seq }] } := by
  unfold execWatch
  rw [takeEntry_of h (by simp [hk])]
  dsimp only
  rw [hj, ht, if_neg (by simp), if_neg (Nat.not_le.mpr hn), if_neg (by simp)]

theorem execBadentry_of {s t : State} {seq : Nat} {e : Entry} (h : entryTaken s seq e t) (hk : 2 < e.kind) :
    execBadentry s = .next (putRecord t seq e.kind 5 0 e.tag 0) := by
  unfold execBadentry
  rw [takeEntry_of h (decide_eq_true hk)]

/-- A signal is not above its bound. -/
theorem not_slt_iff (a b : DWord) : a.slt b = false ↔ b.toInt ≤ a.toInt := by
  rw [← Bool.not_eq_true, BitVec.slt_iff_toInt_lt, Int.not_lt]

/-- A watch whose signal can be read and whose target stands: it fires where the signal is at or below its bound. -/
theorem execWatchFire_of {s : State} {w : Watch} {p : Place} (hw : s.watches[s.focus.ix]? = some w)
    (ht : targetThere s w.job w.target w.strand = true) (ha : w.signal.toNat % 8 = 0) (hp : unitPlace s w.job w.signal 8 .rd = some p) :
    execWatchFire s = .next (
      if (BitVec.ofNat 64 (leNat (devRdN s p.key 8))).toInt ≤ w.bound.toInt then
        (postToTask { s with watches := lDel s.watches s.focus.ix } w.job w.target w.strand ((w.tag <<< 8) ||| 4)).elim
          (putRecord { s with watches := lDel s.watches s.focus.ix } w.seq 2 6 0 w.tag 0) (fun u => putRecord u w.seq 2 0 0 w.tag 0)
      else s) := by
  unfold execWatchFire signalMsg
  rw [hw]
  dsimp only
  rw [ht, if_neg (by simp), if_neg (by simp [ha]), hp]
  dsimp only
  by_cases hb : (BitVec.ofNat 64 (leNat (devRdN s p.key 8))).toInt ≤ w.bound.toInt
  · rw [if_pos hb, (not_slt_iff ..).mpr hb, if_neg Bool.false_ne_true]
    cases postToTask { s with watches := lDel s.watches s.focus.ix } w.job w.target w.strand ((w.tag <<< 8) ||| 4) <;> rfl
  · rw [if_neg hb, if_pos (by rw [← Bool.not_eq_false, not_slt_iff]; exact hb)]

/-! ### Nodes (R336, R337) -/

/-- The node in focus, of kind k, starts: its buffers are allocated, and u with the run g of its graph is what its body then finds. -/
def nodeStarts (s : State) (k : Nat) (g : GInst) (u : State) : Prop := ∃ g0, aGet? s.insts s.focus.ix = some g0 ∧
  s.focus.row ∈ g0.ready ∧ g0.failed = none ∧ gRd s g0 (64 * (s.focus.row + 1)) 1 = some k ∧
  u = allocFirst (setInst s s.focus.ix { g0 with ready := g0.ready.filter (· != s.focus.row), started := g0.started ++ [s.focus.row] })
    s.focus.ix s.focus.row ∧ aGet? u.insts s.focus.ix = some g ∧ g.failed = none

theorem startNode_of {k : Nat} {body : GInst → Nat → Nat → State → State} {s u : State} {g : GInst} (hk : k ≤ 6) (h : nodeStarts s k g u) :
    startNode k body s = body g s.focus.ix s.focus.row u := by
  obtain ⟨g0, h0, hr, hf, hn, rfl, hg, hg'⟩ := h
  have hn : gRd s g0 (nodeOff s.focus.row) 1 = some k := hn
  unfold startNode
  dsimp only
  rw [h0]
  dsimp only
  rw [if_neg (by simp [hr, hf]), hn]
  dsimp only
  rw [if_neg (Nat.not_lt.mpr hk), if_neg (by simp), hg]
  dsimp only
  rw [if_neg (by simp [hg'])]

/-- The counts of a kernel node fit the widths of its kernel's header, where that can be read. -/
def countsFit (u : State) (g : GInst) (kh : Nat) (counts : List Nat) : Prop :=
  ∀ b, (graphAgent g.job).read u (BitVec.ofNat 64 kh) 0 64 = .bytes b → ∀ k, k < 6 → counts.getD k 1 ≤ 2 ^ leAt b (20 + k) 1

theorem kernelBody_of {u : State} {g : GInst} {i n kh arg : Nat} {counts : List Nat} (hh : gRd u g (nodeOff n + 16) 8 = some kh)
    (ha : gRd u g (nodeOff n + 24) 8 = some arg) (hc : (List.range 6).mapM (fun k => gRd u g (nodeOff n + 32 + 4 * k) 4) = some counts)
    (h0 : 0 ∉ counts) (hl : counts.foldl (· * ·) 1 < 2 ^ 32) (hf : countsFit u g kh counts) :
    kernelBody g i n u = pushItem (setInst { u with ops := u.ops + 1 } i { g with live := aSet g.live n (counts.foldl (· * ·) 1) })
      g.queue g.level (.launch { inst := i, node := n, khdr := BitVec.ofNat 64 kh, arg := BitVec.ofNat 64 arg, counts := counts, lid := u.ops }) := by
  unfold kernelBody
  rw [hh, ha, hc]
  have h0 : counts.contains 0 = false := by simpa using h0
  have hl : decide (2 ^ 32 ≤ counts.foldl (· * ·) 1) = false := decide_eq_false (Nat.not_le.mpr hl)
  dsimp only
  rw [h0, hl, Bool.false_or, Bool.false_or]
  refine if_neg ?_
  rw [Bool.not_eq_true', Bool.not_eq_false]
  unfold countsFit at hf
  cases hb : (graphAgent g.job).read u (BitVec.ofNat 64 kh) 0 64 with
  | bytes b =>
    dsimp only
    rw [List.all_eq_true]
    exact fun k hk => decide_eq_true (hf b hb k (List.mem_range.mp hk))
  | _ => rfl

theorem copyNodeBody_of {u : State} {g : GInst} {i n h t : Nat} (hh : gRd u g (nodeOff n + 16) 8 = some h)
    (ht : gRd u g (nodeOff n + 24) 8 = some t) (h0 : h % 64 = 0) (t0 : t % 64 = 0) :
    copyNodeBody g i n u =
      let r := nodeWalk g i n (BitVec.ofNat 64 t) (2 ^ 20) (BitVec.ofNat 64 h) 0 u
      if r.1 = 0 then completeNode r.2 i n else failNode r.2 i n 2 (copyTrap r.1).num := by
  unfold copyNodeBody
  have hal : ¬ (h % 64 != 0 || t % 64 != 0) = true := by simp [h0, t0]
  rw [hh, ht]
  simp only [if_neg hal]

theorem signalBody_of {u : State} {g : GInst} {i n a v : Nat} {p q : Place} (ha : gRd u g (nodeOff n + 16) 8 = some a)
    (hv : gRd u g (nodeOff n + 24) 8 = some v) (hp : graphWord u g (BitVec.ofNat 64 a) 8 .rd = some p)
    (hq : graphWord u g (BitVec.ofNat 64 a) 8 .wr = some q) : signalBody g i n u = completeNode (subSignal u none p v) i n := by
  unfold signalBody
  rw [ha, hv]
  dsimp only
  rw [hp, hq]

theorem waitBody_of {u : State} {g : GInst} {i n a v : Nat} {p : Place} (ha : gRd u g (nodeOff n + 16) 8 = some a)
    (hv : gRd u g (nodeOff n + 24) 8 = some v) (hp : graphWord u g (BitVec.ofNat 64 a) 8 .rd = some p) :
    waitBody g i n u = setInst u i { g with waits := g.waits ++ [{ node := n, addr := BitVec.ofNat 64 a, bound := BitVec.ofNat 64 v }] } := by
  unfold waitBody
  rw [ha, hv]
  dsimp only
  rw [hp]
  rfl

/-- A WAIT whose signal can be read is satisfied where the signal is at or below its bound. -/
theorem execWaitNodeSatisfied_of {s : State} {g : GInst} {w : NodeWait} {p : Place} (hg : aGet? s.insts s.focus.ix = some g)
    (hw : g.waits.find? (fun w => w.node == s.focus.row) = some w) (hp : graphWord s g w.addr 8 .rd = some p) :
    execWaitNodeSatisfied s = if (BitVec.ofNat 64 (leNat (devRdN s p.key 8))).toInt ≤ w.bound.toInt then
        .next (completeNode (setInst s s.focus.ix { g with waits := g.waits.filter (fun w => w.node != s.focus.row) }) s.focus.ix s.focus.row)
      else .next s := by
  unfold execWaitNodeSatisfied
  dsimp only
  rw [hg]
  dsimp only
  rw [hw]
  dsimp only
  rw [hp]
  dsimp only
  by_cases hb : (BitVec.ofNat 64 (leNat (devRdN s p.key 8))).toInt ≤ w.bound.toInt
  · rw [if_pos hb, (not_slt_iff ..).mpr hb, if_neg Bool.false_ne_true]
  · rw [if_neg hb, if_pos (by rw [← Bool.not_eq_false, not_slt_iff]; exact hb)]

/-- A COND node runs its set again: its word is not 0 and its iterations are not used up. -/
def condAgain (u : State) (p : Place) (mx iter : Nat) : Prop := leNat (devRdN u p.key 4) ≠ 0 ∧ iter + 1 < (if mx = 0 then 65535 else mx)

/-- A COND node's fields, and the place of the word that it tests. -/
structure CondNode (u : State) (g : GInst) (n mx setO setN iter : Nat) (p : Place) : Prop where
  word : ∃ a, gRd u g (nodeOff n + 16) 8 = some a ∧ graphWord u g (BitVec.ofNat 64 a) 4 .rd = some p
  max : gRd u g (nodeOff n + 30) 2 = some mx
  set : gRd u g (nodeOff n + 32) 4 = some setO
  len : gRd u g (nodeOff n + 36) 2 = some setN
  iter : gRd u g (nodeOff n + 38) 2 = some iter

theorem condBody_ends {u : State} {g : GInst} {i n mx setO setN iter : Nat} {p : Place} (h : CondNode u g n mx setO setN iter p)
    (hc : ¬ condAgain u p mx iter) : condBody g i n u = completeNode (orBad u i (gWr u g (nodeOff n + 38) 2 0)) i n := by
  obtain ⟨⟨a, ha, hp⟩, hm, hs, hl, hi⟩ := h
  unfold condBody
  dsimp only
  rw [ha, hm, hs, hl, hi]
  dsimp only
  rw [hp]
  exact if_neg fun hb => hc ((Bool.and_eq_true_iff.mp hb).imp bne_iff_ne.mp of_decide_eq_true)

theorem condBody_again {u : State} {g : GInst} {i n mx setO setN iter : Nat} {p : Place} {l : List Nat}
    (h : CondNode u g n mx setO setN iter p) (hc : condAgain u p mx iter) (hl : gList u g setO setN = some l) :
    condBody g i n u = dropLast (dropNode (decList (l.foldl (rearm i) (orBad u i (gWr u g (nodeOff n + 38) 2 (iter + 1)))) i n 24 28) i n) i n := by
  obtain ⟨⟨a, ha, hp⟩, hm, hs, hn, hi⟩ := h
  obtain ⟨h0, hx⟩ := hc
  unfold condBody
  dsimp only
  rw [ha, hm, hs, hn, hi]
  dsimp only
  rw [hp]
  dsimp only
  rw [if_pos (Bool.and_eq_true_iff.mpr ⟨bne_iff_ne.mpr h0, decide_eq_true hx⟩), hl]

/-- An advance of a NOTIFY node, and its flush where the threshold is not reached. -/
theorem notifyVector_eq (u : State) (v : Nat) (b : Bool) : notifyVector u v b =
    let n := aGet 0 u.vecCount v + 1
    let r : RingEnt := aGet {} u.rings v
    if r.n ≠ 0 ∧ r.n ≤ n then { u with vecCount := aSet u.vecCount v 0, dueIrq := u.dueIrq ++ [v] }
    else if b = true then raiseIrq (flushSys { u with vecCount := aSet u.vecCount v 0 }) v
    else { u with vecCount := aSet u.vecCount v n } := by
  have hc : countAdvance u v = if (aGet {} u.rings v : RingEnt).n ≠ 0 ∧ (aGet {} u.rings v : RingEnt).n ≤ aGet 0 u.vecCount v + 1 then
      { u with vecCount := aSet u.vecCount v 0, dueIrq := u.dueIrq ++ [v] }
      else { u with vecCount := aSet u.vecCount v (aGet 0 u.vecCount v + 1) } :=
    if_congr (by rw [Bool.and_eq_true, bne_iff_ne, decide_eq_true_iff]) rfl rfl
  unfold notifyVector flushVector raiseCovered
  dsimp only
  by_cases ht : (aGet {} u.rings v : RingEnt).n ≠ 0 ∧ (aGet {} u.rings v : RingEnt).n ≤ aGet 0 u.vecCount v + 1
  · rw [hc, if_pos ht, if_pos ht]
    cases b <;> simp [aGet_aSet]
  · rw [hc, if_neg ht, if_neg ht]
    cases b <;> simp [aGet_aSet, aSet_aSet]

/-! ### The end of a graph's run (R338) -/

theorem execEndNode_of {s : State} {g h : GInst} (hg : aGet? s.insts s.focus.ix = some g) (hf : g.failed = none) (hs : g.started = [])
    (hr : g.ready = [s.focus.row]) (hk : gRd s g (64 * (s.focus.row + 1)) 1 = some 6)
    (ht : aGet? (dropLast (allocFirst s s.focus.ix s.focus.row) s.focus.ix s.focus.row).insts s.focus.ix = some h) (hh : h.failed = none) :
    execEndNode s = .next (finishInst (dropLast (allocFirst s s.focus.ix s.focus.row) s.focus.ix s.focus.row) s.focus.ix 0 0 0 none) := by
  have hk : gRd s g (nodeOff s.focus.row) 1 = some 6 := hk
  unfold execEndNode
  dsimp only
  rw [hg]
  dsimp only
  rw [if_neg (by simp [hf, hs, hr, hk]), ht]
  exact if_neg (by simp [hh])

theorem execGraphFailure_of {s : State} {g : GInst} {st tr n : Nat} (hg : aGet? s.insts s.focus.ix = some g)
    (hf : g.failed = some (st, tr, n)) (hs : g.started = []) :
    execGraphFailure s = .next (finishInst s s.focus.ix st tr n (some (2 ^ 63 + st * 2 ^ 8 + tr))) := by
  unfold execGraphFailure
  dsimp only
  rw [hg]
  dsimp only
  rw [hf]
  exact if_neg (by simp [hs])

theorem finishInst_of {s : State} {i st tr n : Nat} {g : GInst} {put : Option Nat} (hg : aGet? s.insts i = some g) :
    finishInst s i st tr n put = putRecord { writeCsig (dropLast s i wholeInst) g put with
      insts := aDel (writeCsig (dropLast s i wholeInst) g put).insts i } g.seq 0 st tr g.tag n := by
  unfold finishInst
  rw [hg]

/-- The completion signal less 1, modulo 2^64. -/
theorem pred_mod (n : Nat) : (n + (2 ^ 64 - 1)) % 2 ^ 64 = natOf 64 ((n : Int) - 1) := by
  unfold natOf
  omega

theorem writeCsig_put {s : State} {g : GInst} {v : Nat} {p : Place} (hc : g.csig ≠ 0) (hp : placeAt s none g.job g.csig 0 8 .wr = .ok p) :
    writeCsig s g (some v) = flushSys (devWr (flushSys s) p.key (leBytes 8 v)) := by
  unfold writeCsig
  rw [if_neg hc, hp]

theorem writeCsig_pred {s : State} {g : GInst} {p q : Place} (hc : g.csig ≠ 0) (hp : graphWord s g g.csig 8 .rd = some p)
    (hq : graphWord s g g.csig 8 .wr = some q) : writeCsig s g none =
    flushSys (devWr (flushSys s) p.key (leBytes 8 (natOf 64 ((leNat (devRdN s p.key 8) : Int) - 1)))) := by
  unfold writeCsig
  rw [if_neg hc, hp, hq, ← pred_mod]

/-! ### The obligation -/

/-- Settles O44: each event by the entry, the node, the watch or the graph's run in focus. -/
theorem graphEventsComplete : Obligations.GraphEventsComplete := by
  refine ⟨?run, ?noRun, ?post, ?watch, ?bad, ?fires, ?kernel, ?copy, ?signal, ?wait, ?satisfied, ?cond, ?notify, ?ends, ?fails, ?finish, ?noSig,
    ?putSig, ?predSig, ?due⟩
  case run =>
    intro s seq e t h hk hj hq hn
    refine (execRun_of h hk).trans ((if_neg (by simp [hj, hq])).trans (if_neg fun ha => ?_))
    obtain ⟨x, hx, hb⟩ := List.any_eq_true.mp ha
    exact hn x hx ((Bool.and_eq_true_iff.mp hb).imp beq_iff_eq.mp beq_iff_eq.mp)
  case noRun =>
    intro s seq e t h hk hj
    exact (execRun_of h hk).trans (if_pos (by rcases hj with hj | hj <;> simp [hj]))
  case post => exact fun s seq e t h hk hj => execPost_of h hk hj
  case watch => exact fun s seq e t h hk hj hn ht => execWatch_of h hk hj hn ht
  case bad => exact fun s seq e t h hk => execBadentry_of h hk
  case fires => exact fun s w hw ht ha p hp => execWatchFire_of hw ht ha hp
  case kernel =>
    exact fun s g u kh arg counts h hh ha hc h0 hl hf => congrArg Host.Outcome.next
      ((startNode_of (by decide) h).trans (kernelBody_of hh ha hc h0 hl hf))
  case copy =>
    intro s g u h t hs hh ht h0 t0 r
    have hr : execCopyNode s = .next _ := congrArg Host.Outcome.next ((startNode_of (by decide) hs).trans (copyNodeBody_of hh ht h0 t0))
    exact hr.trans (apply_ite Host.Outcome.next ..)
  case signal =>
    exact fun s g u a v p q h ha hv hp hq => congrArg Host.Outcome.next ((startNode_of (by decide) h).trans (signalBody_of ha hv hp hq))
  case wait =>
    exact fun s g u a v p h ha hv hp => congrArg Host.Outcome.next ((startNode_of (by decide) h).trans (waitBody_of ha hv hp))
  case satisfied => exact fun s g w p hg hw hp => execWaitNodeSatisfied_of hg hw hp
  case cond =>
    intro s g u a mx setO setN iter p h ha hm hs hn hi hp again
    have hc : CondNode u g s.focus.row mx setO setN iter p := ⟨⟨a, ha, hp⟩, hm, hs, hn, hi⟩
    exact ⟨fun hno => congrArg Host.Outcome.next ((startNode_of (by decide) h).trans (condBody_ends hc hno)),
      fun l hag hl => congrArg Host.Outcome.next ((startNode_of (by decide) h).trans (condBody_again hc hag hl))⟩
  case notify =>
    intro s g u v f h hv hf hle n r
    have hv : gRd u g (nodeOff s.focus.row + 16) 2 = some v := hv
    have hf : gRd u g (nodeOff s.focus.row + 18) 1 = some f := hf
    have hb : notifyBody g s.focus.ix s.focus.row u = completeNode (notifyVector u v (f % 2 == 1)) s.focus.ix s.focus.row := by
      unfold notifyBody
      rw [hv, hf]
      exact if_neg (Nat.not_lt.mpr hle)
    refine congrArg Host.Outcome.next ((startNode_of (by decide) h).trans (hb.trans ?_))
    rw [notifyVector_eq]
    simp only [beq_iff_eq]
    rfl
  case ends => exact fun s g h hg hf hs hr hk ht hh => execEndNode_of hg hf hs hr hk ht hh
  case fails => exact fun s g st tr n hg hf hs => execGraphFailure_of hg hf hs
  case finish => exact fun s i g st tr n put hg => finishInst_of hg
  case noSig => exact fun s g put h => if_pos h
  case putSig => exact fun s g v p hc hp => writeCsig_put hc hp
  case predSig => exact fun s g p q hc hp hq => writeCsig_pred hc hp hq
  case due => exact fun s v => congrArg Host.Outcome.next (if_congr List.contains_iff_mem rfl rfl)

end Sys2Proof.Machine

end

section
/-! O56: an escalation of a cord in which two traps bear one number. -/

namespace Sys2Proof.Machine

set_option autoImplicit false
set_option Elab.async false

/-- Mode 3 of TRET escalates with the trap that is handled. -/
theorem returnFrom_escalates {s : State} {h : Handler} (hh : (me s).handler = some h) :
    returnFrom 3 s = escalate s (focusCord s) none h.trap := by
  unfold returnFrom
  rw [hh]
  exact if_pos rfl

/-- A strand whose handler runs for a trap of number 1, while an engine trap of the same number and an earlier one stand recorded. -/
def twinHandler : Handler := { trap := { code := .undef, cls := .precise, seq := 1 }, pc := 0 }

def earlierTrap : TrapInfo := { code := .copybnd, cls := .engine, seq := 0 }

def twinTrap : TrapInfo := { code := .desc, cls := .engine, seq := 1 }

def twinStrand : Strand := { handler := some twinHandler, traps := [twinTrap, earlierTrap] }

/-- A device with that strand alone. -/
def twinTraps : State := { State.reset with cords := [(0, {})], strands := [(0, twinStrand)] }

/-- The failure record names the earlier trap, and beside it the handled one alone. -/
theorem twinTraps_failure : (getCord (returnFrom 3 twinTraps) (focusCord twinTraps)).failure = some (earlierTrap.failure [.undef]) := by
  rw [returnFrom_escalates (h := twinHandler) rfl, escalate_getCord]
  decide

theorem twinTraps_standing : earlierTrap ∈ trapsOf twinTraps (focusCord twinTraps) ∧ twinTrap ∈ trapsOf twinTraps (focusCord twinTraps) := by
  decide

/-- Refutes O56: its clause about the escalation asks that the failure record names every trap whose number differs from the first one's, in
every state. `escalate` leaves out each trap that bears the number of the handled one, to name that one once; where another trap bears that
number too (which no run of the device makes, but a state may), it is left out with it. -/
theorem not_handlerReturn : ¬ Obligations.HandlerReturn := by
  rintro ⟨-, -, -, -, -, -, -, hesc⟩
  obtain ⟨t, f, rfl, hf, -, -, ⟨x, -, -, -, -, -, -, -, hall⟩, -⟩ := hesc twinTraps twinHandler rfl rfl
  rw [twinTraps_failure] at hf
  cases hf
  obtain ⟨hearlier, htwin⟩ := twinTraps_standing
  have hx : x.seq ≤ 0 := (hall earlierTrap (List.mem_cons_of_mem _ hearlier)).1
  have hne : twinTrap.seq ≠ x.seq := by
    rw [Nat.le_zero.mp hx]
    decide
  have hmem : TrapCode.desc ∈ [TrapCode.undef] := (hall twinTrap (List.mem_cons_of_mem _ htwin)).2 hne
  exact absurd hmem (by decide)

end Sys2Proof.Machine

end

section
/-! O39, the first part: the checks that matrix words share (R255), the loads of clay and the passes (R258 to R272). -/

namespace Sys2Proof.Machine

set_option autoImplicit false
set_option Elab.async false

/-! ### What a word's body makes of it -/

/-- A word whose body goes on. -/
theorem exec_goes {mk : CWord → Instr} {f : CForm} {body : CWord → State → CRes} {w : CWord} {s t : State} {n : Nat}
    (hf : capstanForm (mk w) = some (w, f)) (he : exec (mk w) s = .next (runCap (mk w) body s)) (hi : capIssues (mk w) s = true)
    (hb : body w s = .done n t) : exec (mk w) s = .next (capGoes w n t) := by
  rw [he, runCap_done hf hi hb]

/-- A word whose body ends the call. -/
theorem exec_ends {mk : CWord → Instr} {f : CForm} {body : CWord → State → CRes} {w : CWord} {s t : State} {n : Nat} {e : CallEnd}
    (hf : capstanForm (mk w) = some (w, f)) (he : exec (mk w) s = .next (runCap (mk w) body s)) (hi : capIssues (mk w) s = true)
    (hb : body w s = .stop n e t) : exec (mk w) s = .next (capEnds n e t) := by
  rw [he, runCap_stop hf hi hb]

/-! ### Operand checks (R255) -/

/-- Bytes of the running call's scratchpad. -/
def padHolds (u : State) (off n : Nat) : Prop := off + n ≤ (getCord u (capCord u)).hdr.scratch

/-- Rows of the running call's silt. -/
def siltHolds (u : State) (r n : Nat) : Prop := n = 0 ∨ r + n ≤ (getCord u (capCord u)).hdr.silt

/-- The owner is the running call's cord. -/
def callOwns (u : State) (o : Option Nat) : Prop := o = some (capCord u)

theorem capPadOk_iff {u : State} {off n : Nat} : capPadOk u off n = true ↔ padHolds u off n := decide_eq_true_iff

theorem rowsOk_iff {u : State} {r n : Nat} : rowsOk u r n = true ↔ siltHolds u r n := by
  unfold rowsOk siltHolds
  rw [Bool.or_eq_true, decide_eq_true_eq, decide_eq_true_eq]

theorem capPadOk_eq_false_iff {u : State} {off n : Nat} : capPadOk u off n = false ↔ ¬ padHolds u off n := by
  rw [← capPadOk_iff, Bool.not_eq_true]

/-! ### Loads (R259, R286) -/

/-- What a load reads lies in the scratchpad, and the width of B is the layout's. -/
def loadFits (u : State) (off : Nat) (sh : Shape) (k : LoadKind) : Prop := sh.b16 = (k == .planes) ∧ padHolds u off (sh.sourceLen k)

theorem loadRefused_iff {u : State} {off : Nat} {sh : Shape} {k : LoadKind} :
    (sh.b16 != (k == .planes) || !capPadOk u off (sh.sourceLen k)) = true ↔ ¬ loadFits u off sh k := by
  rw [Bool.or_eq_true, bne_iff_ne, Bool.not_eq_true', capPadOk_eq_false_iff, loadFits, not_and_or]

theorem loadClay_fits {u : State} {off gen : Nat} {v : DWord} {k : LoadKind} {sh : Shape} (hs : shapeOf v false = some sh)
    (hf : loadFits u off sh k) :
    let r := loadSlots (capCells u) (capCord u) off gen v sh k sh.slots (myCore u).clay
    loadClay u off gen v k = some (r.1, setMyCore u { myCore u with clay := r.2 }) := by
  unfold loadClay
  rw [hs]
  exact if_neg (fun h => loadRefused_iff.mp h hf)

theorem loadClay_refused {u : State} {off gen : Nat} {v : DWord} {k : LoadKind}
    (h : ∀ sh, shapeOf v false = some sh → ¬ loadFits u off sh k) : loadClay u off gen v k = none := by
  unfold loadClay
  cases hs : shapeOf v false with
  | none => rfl
  | some sh => exact if_pos (loadRefused_iff.mpr (h sh hs))

/-- A load whose checks pass fills the slots that do not hold their source. -/
theorem load_fits {mk : CWord → Instr} {f : CForm} {k : LoadKind} {per : Nat} {w : CWord} {s : State} {sh : Shape}
    (hf : capstanForm (mk w) = some (w, f)) (he : exec (mk w) s = .next (runCap (mk w) (loadBody k per) s))
    (hi : capIssues (mk w) s = true) (hs : shapeOf (capB (drainCap s) w) false = some sh)
    (ht : loadFits (drainCap s) (capPad (capA (drainCap s) w)) sh k) :
    let u := drainCap s
    let r := loadSlots (capCells u) (capCord u) (capPad (capA u w)) w.imm.toNat (capB u w) sh k sh.slots (myCore u).clay
    exec (mk w) s = .next (capGoes w (8 + per * r.1) (setMyCore u { myCore u with clay := r.2 })) := by
  refine exec_goes hf he hi ?_
  unfold loadBody
  dsimp only
  rw [loadClay_fits hs ht]

/-- Any other one ends the call. -/
theorem load_refused {mk : CWord → Instr} {f : CForm} {k : LoadKind} {per : Nat} {w : CWord} {s : State}
    (hf : capstanForm (mk w) = some (w, f)) (he : exec (mk w) s = .next (runCap (mk w) (loadBody k per) s))
    (hi : capIssues (mk w) s = true)
    (h : ∀ sh, shapeOf (capB (drainCap s) w) false = some sh → ¬ loadFits (drainCap s) (capPad (capA (drainCap s) w)) sh k) :
    exec (mk w) s = .next (capEnds 8 (operandEnd (drainCap s)) (drainCap s)) := by
  refine exec_ends hf he hi ?_
  unfold loadBody
  dsimp only
  rw [loadClay_refused h]

/-! ### Passes (R263, R287) -/

/-- A knot and both banks are the call's. -/
def knotOwned (u : State) (k : Nat) : Prop :=
  callOwns u (aGet {} (myCore u).knots k).owner ∧ callOwns u (myCore u).rowBank.owner ∧ callOwns u (myCore u).colBank.owner

/-- The knot of a pass is the call's, with both banks, and its labels lie in the row bank. -/
def knotFits (u : State) (knot : Option Nat) (first n : Nat) : Prop := ∀ k, knot = some k → knotOwned u k ∧ first + n ≤ 256

/-- The relation that a pass takes its knot for. -/
def knotRelation (u : State) (knot : Option Nat) : Option Relation :=
  knot.map (fun k => ⟨(aGet {} (myCore u).knots k).terms, (myCore u).rowBank, (myCore u).colBank⟩)

/-- The call owns the slots of a shape. -/
def slotsFit (u : State) (sh : Shape) : Prop :=
  ∀ p ∈ sh.slots, callOwns u ((aGet {} (myCore u).clay (slotKey p.1 p.2)).tag.map (·.cord))

/-- A pass over n rows meets its operand checks. -/
def passFits (u : State) (sh : Shape) (knot : Option Nat) (off sb lab n : Nat) : Prop :=
  slotsFit u sh ∧ siltHolds u sb n ∧ padHolds u off ((n - 1) * sh.pitchA + 129 * sh.ks.length) ∧ knotFits u knot lab n

theorem ownsSlots_iff {u : State} {sh : Shape} : ownsSlots u sh = true ↔ slotsFit u sh := by
  unfold ownsSlots slotsFit
  rw [List.all_eq_true]
  refine forall₂_congr fun p _ => ?_
  unfold callOwns
  cases (aGet {} (myCore u).clay (slotKey p.1 p.2)).tag with
  | none => exact ⟨fun h => (Bool.false_ne_true h).elim, fun h => (Option.some_ne_none _ h.symm).elim⟩
  | some t => exact beq_iff_eq.trans (Option.some_inj (a := t.cord) (b := capCord u)).symm

theorem relationOf_owned {u : State} {k : Nat} (h : knotOwned u k) : relationOf u k = knotRelation u (some k) := by
  obtain ⟨hk, hr, hc⟩ := h
  refine if_pos ?_
  rw [hk, hr, hc, beq_self_eq_true]
  rfl

theorem relationOf_foreign {u : State} {k : Nat} (h : ¬ knotOwned u k) : relationOf u k = none := by
  refine if_neg fun hb => h ?_
  rw [Bool.and_eq_true, Bool.and_eq_true, beq_iff_eq, beq_iff_eq, beq_iff_eq, and_assoc] at hb
  exact hb

theorem knotFits_iff {u : State} {knot : Option Nat} {first n : Nat} :
    (knot.isSome && ((knot.bind (relationOf u)).isNone || decide (256 < first + n))) = false ↔ knotFits u knot first n := by
  cases knot with
  | none => exact ⟨fun _ _ h => (Option.some_ne_none _ h.symm).elim, fun _ => rfl⟩
  | some k =>
    rw [Option.bind_some, Option.isSome_some, Bool.true_and, Bool.or_eq_false_iff, decide_eq_false_iff_not, Nat.not_lt]
    constructor
    · rintro ⟨h, hn⟩ j hj
      obtain rfl := Option.some.inj hj
      refine ⟨Classical.byContradiction fun ho => ?_, hn⟩
      rw [relationOf_foreign ho] at h
      cases h
    · intro h
      obtain ⟨ho, hn⟩ := h k rfl
      rw [relationOf_owned ho]
      exact ⟨rfl, hn⟩

theorem bind_relationOf {u : State} {knot : Option Nat} {first n : Nat} (h : knotFits u knot first n) :
    knot.bind (relationOf u) = knotRelation u knot := by
  cases knot with
  | none => rfl
  | some k => exact relationOf_owned (h k rfl).1

theorem passRefused_eq_false_iff {u : State} {sh : Shape} {knot : Option Nat} {off sb lab n : Nat} :
    passRefused u sh knot off sb lab n = false ↔ passFits u sh knot off sb lab n := by
  unfold passRefused passFits
  rw [Bool.or_eq_false_iff, Bool.or_eq_false_iff, Bool.or_eq_false_iff, Bool.not_eq_false', Bool.not_eq_false', Bool.not_eq_false',
    ownsSlots_iff, rowsOk_iff, capPadOk_iff, knotFits_iff, and_assoc, and_assoc]

/-- n slots have been reloaded: each counts as a corrected error. -/
def reloaded (t : State) (n : Nat) : State :=
  if n = 0 then t else { t with
    mgmt := { t.mgmt with errce := t.mgmt.errce + BitVec.ofNat 64 n }, irqs := aMod 0 t.irqs 66 (· + 1) }

theorem reloaded_eq (t : State) (n : Nat) : (if n = 0 then t else countErrors t (BitVec.ofNat 64 n) 0) = reloaded t n := by
  have h : t.mgmt.errue + 0 = t.mgmt.errue := BitVec.add_zero _
  unfold reloaded countErrors
  rw [h]

/-- What a pass leaves whose slots read as clay, n of them reloaded. -/
def passLeaves (u : State) (sh : Shape) (rel : Option Relation) (off sb lab rows n : Nat) (clay : AMap ClaySlot) : State :=
  let t := reloaded (setMyCore u { myCore u with clay := clay }) n
  passRows (countTiles t (capCord u) sh rel lab rows) (capCord u) (capCells u) clay sh rel off sb lab rows

/-- A pass that meets its checks adds its rows, or ends the call where a slot cannot be reloaded. -/
theorem pass_fits {u : State} {sh : Shape} {knot : Option Nat} {off sb lab n : Nat} (h : passFits u sh knot off sb lab n) :
    pass u sh knot off sb lab n = match repairSlots u sh.slots (myCore u).clay with
      | none => .bad (statusEnd u 3) u
      | some (fixed, clay) => .ok (passCost sh (knotRelation u knot) lab n)
          (passLeaves u sh (knotRelation u knot) off sb lab n fixed clay) := by
  have hk : knotFits u knot lab n := h.2.2.2
  unfold pass
  dsimp only
  rw [passRefused_eq_false_iff.mpr h, if_neg Bool.false_ne_true, bind_relationOf hk]
  cases repairSlots u sh.slots (myCore u).clay with
  | none => rfl
  | some r =>
    dsimp only
    rw [reloaded_eq]
    rfl

theorem pass_refused {u : State} {sh : Shape} {knot : Option Nat} {off sb lab n : Nat} (h : ¬ passFits u sh knot off sb lab n) :
    pass u sh knot off sb lab n = .bad (operandEnd u) u :=
  if_pos (Bool.not_eq_false _ ▸ mt passRefused_eq_false_iff.mp h)

/-- Slots none of which fails its parity stay as they are. -/
theorem repairSlots_good (u : State) (l : List (Nat × Nat)) (clay : AMap ClaySlot)
    (h : ∀ p ∈ l, (aGet {} clay (slotKey p.1 p.2)).bad = false) : repairSlots u l clay = some (0, clay) := by
  induction l with
  | nil => rfl
  | cons p l ih =>
    obtain ⟨j, t⟩ := p
    have hp : (aGet {} clay (slotKey j t)).bad = false := h (j, t) (List.mem_cons_self ..)
    unfold repairSlots
    dsimp only
    rw [hp, Bool.not_false, if_pos rfl]
    exact ih fun q hq => h q (List.mem_cons_of_mem _ hq)

/-- MMA or MMAR, whose checks pass. -/
theorem mma_fits {mk : CWord → Instr} {f : CForm} {rel : Bool} {w : CWord} {s : State} {sh : Shape}
    (hf : capstanForm (mk w) = some (w, f)) (he : exec (mk w) s = .next (runCap (mk w) (mmaBody rel) s)) (hi : capIssues (mk w) s = true)
    (hs : shapeOf (capB (drainCap s) w) true = some sh)
    (ht : passFits (drainCap s) sh (mmaKnot rel w) (capPad (capA (drainCap s) w)) sh.sb (mmaLabel rel w) sh.ar) :
    let u := drainCap s
    let r := knotRelation u (mmaKnot rel w)
    (∀ n clay, repairSlots u sh.slots (myCore u).clay = some (n, clay) → exec (mk w) s = .next (capGoes w
      (passCost sh r (mmaLabel rel w) sh.ar) (passLeaves u sh r (capPad (capA u w)) sh.sb (mmaLabel rel w) sh.ar n clay))) ∧
    (repairSlots u sh.slots (myCore u).clay = none → exec (mk w) s = .next (capEnds 8 (statusEnd u 3) u)) := by
  intro u r
  constructor
  · intro n clay hr
    refine exec_goes hf he hi ?_
    unfold mmaBody
    dsimp only
    rw [hs]
    dsimp only
    rw [pass_fits ht, hr]
  · intro hr
    refine exec_ends hf he hi ?_
    unfold mmaBody
    dsimp only
    rw [hs]
    dsimp only
    rw [pass_fits ht, hr]

/-- MMA or MMAR, one of whose checks fails. -/
theorem mma_refused {mk : CWord → Instr} {f : CForm} {rel : Bool} {w : CWord} {s : State}
    (hf : capstanForm (mk w) = some (w, f)) (he : exec (mk w) s = .next (runCap (mk w) (mmaBody rel) s)) (hi : capIssues (mk w) s = true)
    (h : ∀ sh, shapeOf (capB (drainCap s) w) true = some sh →
      ¬ passFits (drainCap s) sh (mmaKnot rel w) (capPad (capA (drainCap s) w)) sh.sb (mmaLabel rel w) sh.ar) :
    exec (mk w) s = .next (capEnds 8 (operandEnd (drainCap s)) (drainCap s)) := by
  refine exec_ends hf he hi ?_
  unfold mmaBody
  dsimp only
  cases hs : shapeOf (capB (drainCap s) w) true with
  | none => rfl
  | some sh =>
    dsimp only
    rw [pass_refused (h sh hs)]

/-- MMA or MMAR: what it does with its slots as they are, with some of them reloaded, where one cannot be, and where a check fails. -/
theorem mma_word {mk : CWord → Instr} {f : CForm} {rel : Bool} {w : CWord} {s : State}
    (hf : capstanForm (mk w) = some (w, f)) (he : exec (mk w) s = .next (runCap (mk w) (mmaBody rel) s)) (hi : capIssues (mk w) s = true) :
    let u := drainCap s
    let o := capPad (capA u w)
    let r := knotRelation u (mmaKnot rel w)
    (∀ sh, shapeOf (capB u w) true = some sh → passFits u sh (mmaKnot rel w) o sh.sb (mmaLabel rel w) sh.ar →
      ((∀ p ∈ sh.slots, (aGet {} (myCore u).clay (slotKey p.1 p.2)).bad = false) → exec (mk w) s = .next (capGoes w
        (passCost sh r (mmaLabel rel w) sh.ar) (passLeaves u sh r o sh.sb (mmaLabel rel w) sh.ar 0 (myCore u).clay))) ∧
      (∀ n clay, repairSlots u sh.slots (myCore u).clay = some (n, clay) → exec (mk w) s = .next (capGoes w
        (passCost sh r (mmaLabel rel w) sh.ar) (passLeaves u sh r o sh.sb (mmaLabel rel w) sh.ar n clay))) ∧
      (repairSlots u sh.slots (myCore u).clay = none → exec (mk w) s = .next (capEnds 8 (statusEnd u 3) u))) ∧
    ((∀ sh, shapeOf (capB u w) true = some sh → ¬ passFits u sh (mmaKnot rel w) o sh.sb (mmaLabel rel w) sh.ar) →
      exec (mk w) s = .next (capEnds 8 (operandEnd u) u)) := by
  refine ⟨fun sh hs ht => ?_, fun h => mma_refused hf he hi h⟩
  obtain ⟨hsome, hnone⟩ := mma_fits hf he hi hs ht
  exact ⟨fun hg => hsome 0 _ (repairSlots_good _ _ _ hg), hsome, hnone⟩

/-! ### Groups (R272, R288) -/

/-- Entry q of a group table is the first from entry k on that has rows. -/
def firstGroup (p : List Host.Cell) (tab ar k q : Nat) : Prop := k ≤ q ∧ q < ar ∧ leAt (memRdN p (tab + 16 * q) 16) 0 2 ≠ 0 ∧
  ∀ j, k ≤ j → j < q → leAt (memRdN p (tab + 16 * j) 16) 0 2 = 0

theorem nextGroup_eq_some_iff {p : List Host.Cell} {tab ar k q : Nat} : nextGroup p tab ar k = some q ↔ firstGroup p tab ar k q := by
  unfold nextGroup firstGroup
  rw [List.find?_eq_some_iff_getElem]
  simp only [List.getElem_drop, List.getElem_range, List.length_drop, List.length_range, bne_iff_ne, Bool.not_eq_true', bne_eq_false_iff_eq]
  constructor
  · rintro ⟨hq, i, hi, rfl, hb⟩
    refine ⟨Nat.le_add_right _ _, by omega, hq, fun j h1 h2 => ?_⟩
    obtain ⟨d, rfl⟩ := Nat.exists_eq_add_of_le h1
    exact hb d (by omega)
  · rintro ⟨h1, h2, hq, hb⟩
    obtain ⟨i, rfl⟩ := Nat.exists_eq_add_of_le h1
    exact ⟨hq, i, by omega, rfl, fun j hj => hb (k + j) (by omega) (by omega)⟩

theorem nextGroup_eq_none {p : List Host.Cell} {tab ar k : Nat} (h : ∀ q, ¬ firstGroup p tab ar k q) : nextGroup p tab ar k = none :=
  Option.eq_none_iff_forall_ne_some.mpr fun q hq => h q (nextGroup_eq_some_iff.mp hq)

/-- Where a group is left, there is a next one. -/
theorem nextGroup_isNone_eq_false {p : List Host.Cell} {tab ar k q : Nat} (h : firstGroup p tab ar k q) :
    (nextGroup p tab ar k).isNone = false := by
  rw [nextGroup_eq_some_iff.mpr h]
  rfl

/-- Where MGRP stands, as a statement writes it. -/
theorem groupAt_eq (w : CWord) (u : State) : groupAt w u = match (myRun u).progress with
    | some (.groups x) => some x
    | _ => (shapeOf (capB u w) true).bind (fun sh =>
        if capPad (capA u w) % 16 = 0 ∧ capPad (capA u w) + 16 * sh.ar ≤ (getCord u (capCord u)).hdr.scratch
        then some { tab := capPad (capA u w), shape := capB u w, aoff := capPad (capC u w) } else none) := by
  have hs : groupStart w u = (shapeOf (capB u w) true).bind (fun sh =>
        if capPad (capA u w) % 16 = 0 ∧ capPad (capA u w) + 16 * sh.ar ≤ (getCord u (capCord u)).hdr.scratch
        then some { tab := capPad (capA u w), shape := capB u w, aoff := capPad (capC u w) } else none) := by
    unfold groupStart
    cases shapeOf (capB u w) true with
    | none => rfl
    | some sh =>
      dsimp only [Option.bind_some]
      by_cases h : capPad (capA u w) % 16 = 0 ∧ padHolds u (capPad (capA u w)) (16 * sh.ar)
      · rw [capPadOk_iff.mpr h.2]
        exact (if_neg (by rw [h.1]; exact Bool.false_ne_true)).trans (if_pos h).symm
      · refine (if_pos ?_).trans (if_neg h).symm
        rw [Bool.or_eq_true, bne_iff_ne, Bool.not_eq_true', capPadOk_eq_false_iff]
        exact not_and_or.mp h
  unfold groupAt
  cases (myRun u).progress with
  | none => exact hs
  | some p =>
    cases p with
    | tiles x => exact hs
    | groups x => rfl

/-- AR is used or not: the other fields are checked alike. -/
theorem shapeOf_unused {v : DWord} {sh : Shape} (h : shapeOf v true = some sh) : shapeOf v false = some sh := by
  unfold shapeOf at h ⊢
  dsimp only at h ⊢
  split at h
  · cases h
  · next hn =>
    rw [← h]
    refine if_neg fun hb => hn ?_
    simp only [Bool.or_eq_true, Bool.false_and, Bool.false_eq_true, or_false] at hb ⊢
    tauto

/-- The layout of a group's source. -/
def groupKind (sh : Shape) : LoadKind := if sh.b16 then .planes else .rows

/-- A group's entry and what it names meet the checks before its pass (R288). -/
def groupFits (u : State) (sh : Shape) (off a : Nat) (e : GroupRow) : Prop :=
  e.count ≤ 256 ∧ e.flags < 4 ∧ e.knot < 4 ∧ e.rsv = 0 ∧ siltHolds u e.srow e.count ∧
    padHolds u off ((e.count - 1) * sh.pitchA + 129 * sh.ks.length) ∧
    knotFits u (if e.flags % 2 = 1 then some e.knot else none) a e.count ∧ padHolds u e.boff (sh.sourceLen (groupKind sh))

/-- The check of a group's knot. -/
theorem groupKnot_iff {u : State} {a : Nat} {e : GroupRow} :
    ((e.flags % 2 == 1) && (decide (256 < a + e.count) || (relationOf u e.knot).isNone)) = false ↔
      knotFits u (if e.flags % 2 = 1 then some e.knot else none) a e.count := by
  rw [← knotFits_iff]
  by_cases h : e.flags % 2 = 1
  · rw [if_pos h, h, Bool.or_comm]
    rfl
  · rw [if_neg h, beq_false_of_ne h]
    rfl

theorem groupLoad_refused {u : State} {v : DWord} {sh : Shape} {gen off a : Nat} {e : GroupRow} (hs : shapeOf v true = some sh)
    (h : ¬ groupFits u sh off a e) : groupLoad u v sh gen off a e = none := by
  unfold groupLoad
  dsimp only
  split
  · rfl
  next hn =>
    refine Option.map_eq_none_iff.mpr (loadClay_refused fun sh' hs' hl => h ?_)
    obtain rfl : sh' = sh := Option.some.inj (hs'.symm.trans (shapeOf_unused hs))
    rw [Bool.not_eq_true, Bool.or_eq_false_iff, Bool.or_eq_false_iff, Bool.or_eq_false_iff, Bool.or_eq_false_iff, Bool.or_eq_false_iff,
      Bool.or_eq_false_iff, groupKnot_iff, Bool.not_eq_false', Bool.not_eq_false', rowsOk_iff, capPadOk_iff, bne_eq_false_iff_eq,
      decide_eq_false_iff_not, decide_eq_false_iff_not, decide_eq_false_iff_not, Nat.not_lt, Nat.not_le, Nat.not_le] at hn
    obtain ⟨⟨⟨⟨⟨⟨hc, hf⟩, hk⟩, hr⟩, hrow⟩, hpad⟩, hrel⟩ := hn
    exact ⟨hc, hf, hk, hr, hrow, hpad, hrel, hl.2⟩

/-- A group that fails a check ends the call. -/
theorem runGroup_refused {u : State} {v : DWord} {sh : Shape} {gen aoff a : Nat} {e : GroupRow} (hs : shapeOf v true = some sh)
    (h : ¬ groupFits u sh (aoff + a * sh.pitchA) a e) : runGroup u v sh gen aoff a e = .bad (operandEnd u) u := by
  unfold runGroup
  dsimp only
  rw [groupLoad_refused hs h]

/-- MGRP, where it has begun. -/
theorem mgrpBody_at {w : CWord} {s : State} {x : GroupRun} {sh : Shape} (hx : groupAt w (drainCap s) = some x)
    (hs : shapeOf x.shape true = some sh) : mgrpBody w s = match nextGroup (capCells (drainCap s)) x.tab sh.ar x.q with
      | none => .done 0 (closeProgress (drainCap s))
      | some q =>
        let e := groupRow (capCells (drainCap s)) (x.tab + 16 * q)
        match runGroup (drainCap s) x.shape sh w.imm.toNat x.aoff x.a e with
        | .bad e t => .stop 8 e t
        | .ok c t =>
          if (nextGroup (capCells t) x.tab sh.ar (q + 1)).isNone then .done c (closeProgress t)
          else .again c (setProgress t (.groups { x with q := q + 1, a := x.a + e.count })) := by
  unfold mgrpBody
  dsimp only
  rw [hx]
  dsimp only
  unfold groupStep
  rw [hs] <;> rfl

/-- MGRP whose operands fail a check. -/
theorem mgrp_refused {w : CWord} {s : State} (hi : capIssues (.mgrp w) s = true) (hx : groupAt w (drainCap s) = none) :
    exec (.mgrp w) s = .next (capEnds 8 (operandEnd (drainCap s)) (drainCap s)) := by
  refine exec_ends (mk := .mgrp) (body := mgrpBody) rfl rfl hi ?_
  unfold mgrpBody
  dsimp only
  rw [hx]

section
variable {w : CWord} {s : State} {x : GroupRun} {sh : Shape} (hi : capIssues (.mgrp w) s = true)
  (hx : groupAt w (drainCap s) = some x) (hs : shapeOf x.shape true = some sh)
include hi hx hs

/-- No entry with rows is left. -/
theorem mgrp_over (h : ∀ q, ¬ firstGroup (capCells (drainCap s)) x.tab sh.ar x.q q) :
    exec (.mgrp w) s = .next (capGoes w 0 (closeProgress (drainCap s))) := by
  refine exec_goes (mk := .mgrp) (body := mgrpBody) rfl rfl hi ?_
  rw [mgrpBody_at hx hs, nextGroup_eq_none h]

variable {q : Nat} (hq : firstGroup (capCells (drainCap s)) x.tab sh.ar x.q q)
include hq

/-- The last group's pass is behind. -/
theorem mgrp_last {n : Nat} {t : State}
    (hr : runGroup (drainCap s) x.shape sh w.imm.toNat x.aoff x.a (groupRow (capCells (drainCap s)) (x.tab + 16 * q)) = .ok n t)
    (h : ∀ k, ¬ firstGroup (capCells t) x.tab sh.ar (q + 1) k) : exec (.mgrp w) s = .next (capGoes w n (closeProgress t)) := by
  refine exec_goes (mk := .mgrp) (body := mgrpBody) rfl rfl hi ?_
  rw [mgrpBody_at hx hs, nextGroup_eq_some_iff.mpr hq]
  dsimp only
  rw [hr]
  dsimp only
  rw [nextGroup_eq_none h]
  rfl

/-- A group's pass is behind, and another group follows. -/
theorem mgrp_again {n : Nat} {t : State} {k : Nat}
    (hr : runGroup (drainCap s) x.shape sh w.imm.toNat x.aoff x.a (groupRow (capCells (drainCap s)) (x.tab + 16 * q)) = .ok n t)
    (h : firstGroup (capCells t) x.tab sh.ar (q + 1) k) :
    exec (.mgrp w) s = .next { spend (setProgress t (.groups { x with q := q + 1, a := x.a +
      (groupRow (capCells (drainCap s)) (x.tab + 16 * q)).count })) n with free := t.free + 1 } := by
  have hb : mgrpBody w s = .again n (setProgress t (.groups { x with q := q + 1, a := x.a +
      (groupRow (capCells (drainCap s)) (x.tab + 16 * q)).count })) := by
    rw [mgrpBody_at hx hs, nextGroup_eq_some_iff.mpr hq]
    dsimp only
    rw [hr]
    dsimp only
    rw [nextGroup_isNone_eq_false h, if_neg Bool.false_ne_true]
  refine congrArg _ ((runCap_eq rfl hi).trans ?_)
  rw [hb]
  rfl

/-- A group ends the call. -/
theorem mgrp_ends {y : CallEnd} {t : State}
    (hr : runGroup (drainCap s) x.shape sh w.imm.toNat x.aoff x.a (groupRow (capCells (drainCap s)) (x.tab + 16 * q)) = .bad y t) :
    exec (.mgrp w) s = .next (capEnds 8 y t) := by
  refine exec_ends (mk := .mgrp) (body := mgrpBody) rfl rfl hi ?_
  rw [mgrpBody_at hx hs, nextGroup_eq_some_iff.mpr hq]
  dsimp only
  rw [hr]

end

/-- The checks of a group fail where one of them does. -/
theorem not_groupFits {u : State} {sh : Shape} {off a : Nat} {e : GroupRow} (h : 256 < e.count ∨ 4 ≤ e.flags ∨ 4 ≤ e.knot ∨ e.rsv ≠ 0 ∨
    ¬ siltHolds u e.srow e.count ∨ ¬ padHolds u off ((e.count - 1) * sh.pitchA + 129 * sh.ks.length) ∨
    ¬ knotFits u (if e.flags % 2 = 1 then some e.knot else none) a e.count ∨ ¬ padHolds u e.boff (sh.sourceLen (groupKind sh))) :
    ¬ groupFits u sh off a e := by
  rintro ⟨hc, hfl, hk, hrsv, hrow, hpad, hrel, hsrc⟩
  rcases h with h | h | h | h | h | h | h | h
  · exact Nat.not_lt.mpr hc h
  · exact Nat.not_le.mpr hfl h
  · exact Nat.not_le.mpr hk h
  · exact h hrsv
  · exact h hrow
  · exact h hpad
  · exact h hrel
  · exact h hsrc

/-- MGRP with its operands checked: the next group goes on, is the last, ends the call or is refused; or no group is left. -/
theorem mgrp_word {w : CWord} {s : State} {x : GroupRun} {sh : Shape} (hi : capIssues (.mgrp w) s = true)
    (hx : groupAt w (drainCap s) = some x) (hs : shapeOf x.shape true = some sh) :
    let u := drainCap s
    (∀ q, firstGroup (capCells u) x.tab sh.ar x.q q →
      let e := groupRow (capCells u) (x.tab + 16 * q)
      let go := runGroup u x.shape sh w.imm.toNat x.aoff x.a e
      (∀ n t, go = .ok n t → (∀ k, ¬ firstGroup (capCells t) x.tab sh.ar (q + 1) k) →
        exec (.mgrp w) s = .next (capGoes w n (closeProgress t))) ∧
      (∀ n t k, go = .ok n t → firstGroup (capCells t) x.tab sh.ar (q + 1) k → exec (.mgrp w) s =
        .next { spend (setProgress t (.groups { x with q := q + 1, a := x.a + e.count })) n with free := t.free + 1 }) ∧
      (∀ y t, go = .bad y t → exec (.mgrp w) s = .next (capEnds 8 y t)) ∧
      (256 < e.count ∨ 4 ≤ e.flags ∨ 4 ≤ e.knot ∨ e.rsv ≠ 0 ∨ ¬ siltHolds u e.srow e.count ∨
          ¬ padHolds u (x.aoff + x.a * sh.pitchA) ((e.count - 1) * sh.pitchA + 129 * sh.ks.length) ∨
          ¬ knotFits u (if e.flags % 2 = 1 then some e.knot else none) x.a e.count ∨
          ¬ padHolds u e.boff (sh.sourceLen (groupKind sh)) →
        exec (.mgrp w) s = .next (capEnds 8 (operandEnd u) u))) ∧
    ((∀ k, ¬ firstGroup (capCells u) x.tab sh.ar x.q k) → exec (.mgrp w) s = .next (capGoes w 0 (closeProgress u))) :=
  ⟨fun _ hq => ⟨fun _ _ hr h => mgrp_last hi hx hs hq hr h, fun _ _ _ hr h => mgrp_again hi hx hs hq hr h,
    fun _ _ hr => mgrp_ends hi hx hs hq hr, fun h => mgrp_ends hi hx hs hq (runGroup_refused hs (not_groupFits h))⟩,
    fun h => mgrp_over hi hx hs h⟩

end Sys2Proof.Machine
end

section
/-! O39, the second part: the words of silt (R262, R271, R289, R290). -/

namespace Sys2Proof.Machine

set_option autoImplicit false
set_option Elab.async false

/-! ### Rows (R262) -/

theorem getSilt_setSilt (s : State) (cord r k : Nat) (x : SiltRow) :
    getSilt (getCord (setSilt s cord r x) cord) k = if k = r then x else getSilt (getCord s cord) k := by
  unfold setSilt getSilt
  rw [getCord_setCord, if_pos rfl]
  exact aGet_aSet ..

/-- A change of rows changes the rows named and no other. -/
theorem getSilt_modRows (s : State) (cord r n k : Nat) (f : SiltRow → SiltRow) : getSilt (getCord (modRows s cord r f n) cord) k =
    if r ≤ k ∧ k < r + n then f (getSilt (getCord s cord) k) else getSilt (getCord s cord) k := by
  induction n with
  | zero => exact (if_neg (by omega)).symm
  | succ n ih =>
    refine (getSilt_setSilt ..).trans ?_
    by_cases hk : k = r + n
    · subst hk
      rw [if_neg (by omega)] at ih
      rw [if_pos rfl, if_pos (by omega), ih]
    · rw [if_neg hk, ih]
      exact if_congr (by omega) rfl rfl

/-- MZERO or MANC: it changes rows below SILTROWS, or ends the call. -/
theorem change_word (mk : CWord → Instr) (cost : Nat → Nat) (ok : CWord → State → Bool) (f : CWord → State → SiltRow → SiltRow)
    {g : CWord → CForm} {body : CWord → State → CRes} (hf : ∀ w, capstanForm (mk w) = some (w, g w))
    (he : ∀ w s, exec (mk w) s = .next (runCap (mk w) body s)) (hb : ∀ w s, body w s = rowsBody cost (ok w s) (f w s) w s)
    (w : CWord) (s : State) (hi : capIssues (mk w) s = true) :
    let r := (capA s w).toNat
    let k := (capB s w).toNat
    (ok w s = true → siltHolds s r k → exec (mk w) s = .next (capGoes w (cost k) (modRows s (capCord s) r (f w s) k))) ∧
    (¬ (ok w s = true ∧ siltHolds s r k) → exec (mk w) s = .next (capEnds 2 (operandEnd s) s)) := by
  intro r k
  constructor
  · intro ho hr
    refine exec_goes (hf w) (he w s) hi ((hb w s).trans (if_neg ?_))
    rw [ho, rowsOk_iff.mpr hr]
    exact Bool.false_ne_true
  · intro h
    refine exec_ends (hf w) (he w s) hi ((hb w s).trans (if_pos ?_))
    rw [← rowsOk_iff, not_and_or, Bool.not_eq_true, Bool.not_eq_true] at h
    rwa [Bool.or_eq_true, Bool.not_eq_true', Bool.not_eq_true']

/-- The anchor that MANC gives. -/
def newAnchor (w : CWord) (s : State) : Int := (capC s w + w.imm.signExtend 64).toInt

theorem mancBody_eq (w : CWord) (s : State) : mancBody w s =
    rowsBody (fun _ => 2) (decide (-512 ≤ newAnchor w s ∧ newAnchor w s ≤ 511)) (fun x => { x with q := newAnchor w s }) w s := by
  rw [Bool.decide_and]
  rfl

/-! ### Drains (R271, R289) -/

/-- The rows of a drain and the bytes they go to are in range. -/
def drainFits (u : State) (r : SiltRange) (off pitch : Nat) : Prop := siltHolds u r.fr r.nr ∧ 64 * r.ng * r.size ≤ pitch ∧
  pitch % r.size = 0 ∧ padHolds u off ((r.nr - 1) * pitch + 64 * r.ng * r.size)

theorem drainRefused_iff {u : State} {r : SiltRange} {off pitch : Nat} :
    (!rowsOk u r.fr r.nr || decide (pitch < 64 * r.ng * r.size) || pitch % r.size != 0 ||
      !capPadOk u off ((r.nr - 1) * pitch + 64 * r.ng * r.size)) = true ↔ ¬ drainFits u r off pitch := by
  rw [← Bool.not_eq_false, not_iff_not, Bool.or_eq_false_iff, Bool.or_eq_false_iff, Bool.or_eq_false_iff, Bool.not_eq_false',
    Bool.not_eq_false', decide_eq_false_iff_not, Nat.not_lt, bne_eq_false_iff_eq, rowsOk_iff, capPadOk_iff, and_assoc, and_assoc]
  rfl

section
variable {mk : CWord → Instr} {g : CForm} {per : SiltRange → Nat} {f : SiltRange → SiltRow → Nat → Nat → Option (Nat × Flags)}
  {w : CWord} {s : State} {body : CWord → State → CRes} (hf : capstanForm (mk w) = some (w, g))
  (he : exec (mk w) s = .next (runCap (mk w) body s)) (hb : body w s = drainBody per f w s) (hi : capIssues (mk w) s = true)
include hf he hb hi

/-- A drain of a range that fits writes its rows. -/
theorem drain_fits {r : SiltRange} (hr : rangeOf (capB (drainCap s) w) true = some r)
    (h : drainFits (drainCap s) r (capPad (capA (drainCap s) w)) (capC (drainCap s) w).toNat) :
    let u := drainCap s
    exec (mk w) s = .next (capGoes w (per r)
      (drainRows u (capCord u) (capCells u) r (capPad (capA u w)) (capC u w).toNat (f r) r.nr)) := by
  refine exec_goes hf he hi (hb.trans ?_)
  unfold drainBody
  dsimp only
  rw [hr]
  exact if_neg fun hn => drainRefused_iff.mp hn h

theorem drain_refused (h : ∀ r, rangeOf (capB (drainCap s) w) true = some r →
      ¬ drainFits (drainCap s) r (capPad (capA (drainCap s) w)) (capC (drainCap s) w).toNat) :
    exec (mk w) s = .next (capEnds 4 (operandEnd (drainCap s)) (drainCap s)) := by
  refine exec_ends hf he hi (hb.trans ?_)
  unfold drainBody
  dsimp only
  cases hr : rangeOf (capB (drainCap s) w) true with
  | none => rfl
  | some r => exact if_pos (drainRefused_iff.mpr (h r hr))

end

theorem mdrnBody_eq (w : CWord) (s : State) : mdrnBody w s =
    drainBody (fun r => (4 + r.nr * r.ng) * (if r.bf then 2 else 1)) (fun r x n _ => some (drainCell r x n)) w s := by
  refine congrArg (fun per => drainBody per _ w s) (funext fun r => ?_)
  show (if r.bf then 2 * (4 + r.nr * r.ng) else 4 + r.nr * r.ng) = _
  split <;> omega

theorem mdaccBody_eq (w : CWord) (s : State) : mdaccBody w s = drainBody (fun r => 4 + 2 * r.nr * r.ng) accCell w s := by
  unfold mdaccBody
  rfl

/-- MDRN or MDACC: it drains the rows of a range that fits, or ends the call. -/
theorem drain_word (mk : CWord → Instr) (per : SiltRange → Nat) (f : SiltRange → SiltRow → Nat → Nat → Option (Nat × Flags))
    {g : CWord → CForm} {body : CWord → State → CRes} (hf : ∀ w, capstanForm (mk w) = some (w, g w))
    (he : ∀ w s, exec (mk w) s = .next (runCap (mk w) body s)) (hb : ∀ w s, body w s = drainBody per f w s)
    (w : CWord) (s : State) (hi : capIssues (mk w) s = true) :
    let u := drainCap s
    (∀ r, rangeOf (capB u w) true = some r → drainFits u r (capPad (capA u w)) (capC u w).toNat → exec (mk w) s = .next (capGoes w (per r)
      (drainRows u (capCord u) (capCells u) r (capPad (capA u w)) (capC u w).toNat (f r) r.nr))) ∧
    ((∀ r, rangeOf (capB u w) true = some r → ¬ drainFits u r (capPad (capA u w)) (capC u w).toNat) →
      exec (mk w) s = .next (capEnds 4 (operandEnd u) u)) :=
  ⟨fun _ hr h => drain_fits (hf w) (he w s) (hb w s) hi hr h, fun h => drain_refused (hf w) (he w s) (hb w s) hi h⟩

/-! ### Raw cells (R271) -/

/-- The rows of MSTO or MSLD and the records of their cells are in range. -/
def rawFits (u : State) (r : SiltRange) (b : Nat) : Prop := b % 16 = 0 ∧ siltHolds u r.fr r.nr ∧ padHolds u b (1024 * r.ng * r.nr)

theorem rawRefused_iff {u : State} {r : SiltRange} {b : Nat} :
    (b % 16 != 0 || !rowsOk u r.fr r.nr || !capPadOk u b (1024 * r.ng * r.nr)) = true ↔ ¬ rawFits u r b := by
  rw [← Bool.not_eq_false, not_iff_not, Bool.or_eq_false_iff, Bool.or_eq_false_iff, Bool.not_eq_false', Bool.not_eq_false',
    bne_eq_false_iff_eq, rowsOk_iff, capPadOk_iff, and_assoc]
  rfl

section
variable {mk : CWord → Instr} {g : CForm} {f : State → SiltRange → Nat → Option State}
  {w : CWord} {s : State} {body : CWord → State → CRes} (hf : capstanForm (mk w) = some (w, g))
  (he : exec (mk w) s = .next (runCap (mk w) body s)) (hb : body w s = rawBody f w s) (hi : capIssues (mk w) s = true)
include hf he hb hi

/-- MSTO or MSLD of a range that fits, whose records are good. -/
theorem raw_fits {r : SiltRange} {t : State} (hr : rangeOf (capB (drainCap s) w) false = some r)
    (h : rawFits (drainCap s) r (capPad (capA (drainCap s) w))) (ht : f (drainCap s) r (capPad (capA (drainCap s) w)) = some t) :
    exec (mk w) s = .next (capGoes w (4 + 2 * r.nr * r.ng) t) := by
  refine exec_goes hf he hi (hb.trans ?_)
  unfold rawBody
  dsimp only
  rw [hr]
  dsimp only
  rw [if_neg fun hn => rawRefused_iff.mp hn h, ht]

theorem raw_refused (h : ∀ r, rangeOf (capB (drainCap s) w) false = some r → rawFits (drainCap s) r (capPad (capA (drainCap s) w)) →
      f (drainCap s) r (capPad (capA (drainCap s) w)) = none) :
    exec (mk w) s = .next (capEnds 4 (operandEnd (drainCap s)) (drainCap s)) := by
  refine exec_ends hf he hi (hb.trans ?_)
  unfold rawBody
  dsimp only
  cases hr : rangeOf (capB (drainCap s) w) false with
  | none => rfl
  | some r =>
    dsimp only
    by_cases hn : rawFits (drainCap s) r (capPad (capA (drainCap s) w))
    · rw [if_neg fun hx => rawRefused_iff.mp hx hn, h r hr hn]
    · exact if_pos (rawRefused_iff.mpr hn)

end

/-- MSTO or MSLD of a range that fits, whose records are good; any other ends the call. -/
theorem raw_word (mk : CWord → Instr) (ok : State → SiltRange → Nat → Prop) (f : State → SiltRange → Nat → State)
    {go : State → SiltRange → Nat → Option State} {g : CWord → CForm} {body : CWord → State → CRes}
    (hf : ∀ w, capstanForm (mk w) = some (w, g w)) (he : ∀ w s, exec (mk w) s = .next (runCap (mk w) body s))
    (hb : ∀ w s, body w s = rawBody go w s) (hgo : ∀ u r b, ok u r b → go u r b = some (f u r b))
    (hno : ∀ u r b, ¬ ok u r b → go u r b = none) (w : CWord) (s : State) (hi : capIssues (mk w) s = true) :
    let u := drainCap s
    let b := capPad (capA u w)
    let fits (r : SiltRange) : Prop := b % 16 = 0 ∧ siltHolds u r.fr r.nr ∧ padHolds u b (1024 * r.ng * r.nr) ∧ ok u r b
    (∀ r, rangeOf (capB u w) false = some r → fits r → exec (mk w) s = .next (capGoes w (4 + 2 * r.nr * r.ng) (f u r b))) ∧
    ((∀ r, rangeOf (capB u w) false = some r → ¬ fits r) → exec (mk w) s = .next (capEnds 4 (operandEnd u) u)) := by
  intro u b fits
  constructor
  · rintro r hr ⟨hal, hrow, hpad, hok⟩
    exact raw_fits (hf w) (he w s) (hb w s) hi hr ⟨hal, hrow, hpad⟩ (hgo u r b hok)
  · intro h
    refine raw_refused (hf w) (he w s) (hb w s) hi fun r hr hn => hno u r b fun hok => h r hr ?_
    exact ⟨hn.1, hn.2.1, hn.2.2, hok⟩

/-- Every record of an MSLD is good. -/
theorem sldOk_iff {pad : List Host.Cell} {r : SiltRange} {b : Nat} :
    sldOk pad r b = true ↔ ∀ k, k < 64 * r.ng * r.nr → leNat (memRdN pad (b + 16 * k + 9) 7) < 4 := by
  unfold sldOk
  simp only [List.all_eq_true, List.mem_range, decide_eq_true_eq]

/-! ### MSADD (R290) -/

/-- The rows that MSADD adds and those that it adds to are in range and apart. -/
def saddFits (s : State) (r : SiltRange) (db : Nat) : Prop :=
  siltHolds s r.fr r.nr ∧ siltHolds s db r.nr ∧ (r.fr + r.nr ≤ db ∨ db + r.nr ≤ r.fr)

theorem saddRefused_iff {s : State} {r : SiltRange} {db : Nat} :
    (!rowsOk s r.fr r.nr || !rowsOk s db r.nr || (decide (db < r.fr + r.nr) && decide (r.fr < db + r.nr))) = true ↔
      ¬ saddFits s r db := by
  rw [← Bool.not_eq_false, not_iff_not, Bool.or_eq_false_iff, Bool.or_eq_false_iff, Bool.not_eq_false', Bool.not_eq_false',
    Bool.and_eq_false_iff, decide_eq_false_iff_not, decide_eq_false_iff_not, Nat.not_lt, Nat.not_lt, rowsOk_iff, rowsOk_iff, and_assoc]
  rfl

theorem msadd_fits {w : CWord} {s : State} {r : SiltRange} (hi : capIssues (.msadd w) s = true) (hr : rangeOf (capA s w) false = some r)
    (h : saddFits s r (capB s w).toNat) :
    exec (.msadd w) s = .next (capGoes w (4 + r.nr * r.ng) (saddRows s (capCord s) r (capB s w).toNat r.nr)) := by
  refine exec_goes (mk := .msadd) (body := msaddBody) rfl rfl hi ?_
  unfold msaddBody
  rw [hr]
  exact if_neg fun hn => saddRefused_iff.mp hn h

theorem msadd_refused {w : CWord} {s : State} (hi : capIssues (.msadd w) s = true)
    (h : ∀ r, rangeOf (capA s w) false = some r → ¬ saddFits s r (capB s w).toNat) :
    exec (.msadd w) s = .next (capEnds 4 (operandEnd s) s) := by
  refine exec_ends (mk := .msadd) (body := msaddBody) rfl rfl hi ?_
  unfold msaddBody
  cases hr : rangeOf (capA s w) false with
  | none => rfl
  | some r => exact if_pos (saddRefused_iff.mpr (h r hr))

/-! ### MROW (R290) -/

/-- The word with the bits i < n for which f holds. -/
def bitsBelow (f : Nat → Bool) (n : Nat) : Nat := (List.range n).foldl (fun v i => if f i then v + 2 ^ i else v) 0

theorem bitsBelow_succ (f : Nat → Bool) (n : Nat) : bitsBelow f (n + 1) = if f n then bitsBelow f n + 2 ^ n else bitsBelow f n := by
  unfold bitsBelow
  rw [List.range_succ, List.foldl_append]
  rfl

theorem bitsBelow_lt (f : Nat → Bool) (n : Nat) : bitsBelow f n < 2 ^ n := by
  induction n with
  | zero => exact Nat.one_pos
  | succ n ih => rw [bitsBelow_succ, Nat.pow_succ]; split <;> omega

theorem testBit_bitsBelow (f : Nat → Bool) (n i : Nat) : (bitsBelow f n).testBit i = (decide (i < n) && f i) := by
  induction n with
  | zero => simp [bitsBelow]
  | succ n ih =>
    rw [bitsBelow_succ]
    rcases Nat.lt_trichotomy i n with hlt | rfl | hgt
    · have hn : decide (i < n + 1) = decide (i < n) := decide_eq_decide.mpr (by omega)
      rw [hn, ← ih]
      split
      · rw [Nat.add_comm, Nat.testBit_two_pow_add_gt hlt]
      · rfl
    · have h0 : (bitsBelow f i).testBit i = false := Nat.testBit_lt_two_pow (bitsBelow_lt f i)
      rw [decide_eq_true (Nat.lt_succ_self i), Bool.true_and]
      split
      next h => rw [Nat.add_comm, Nat.testBit_two_pow_add_eq, h0, h, Bool.not_false]
      next h => rw [h0, Bool.eq_false_of_not_eq_true h]
    · have hlt : bitsBelow f (n + 1) < 2 ^ i := Nat.lt_of_lt_of_le (bitsBelow_lt f _) (Nat.pow_le_pow_right Nat.two_pos hgt)
      rw [← bitsBelow_succ, Nat.testBit_lt_two_pow hlt, decide_eq_false (by omega), Bool.false_and]

/-- MROW's bits: the rows of a block of 64 that are below SILTROWS and admit no pair. -/
def emptyRow (s : State) (a i : Nat) : Bool :=
  decide (64 * a + i < (getCord s (capCord s)).hdr.silt) && decide ((getSilt (getCord s (capCord s)) (64 * a + i)).count = 0)

theorem mrow_count {w : CWord} {s : State} (h : w.imm.toNat % 8 = 0) : mrowBody w s =
    if rowsOk s (capA s w).toNat 1 then
      .done 2 (putC s w.d (BitVec.ofNat 64 (getSilt (getCord s (capCord s)) (capA s w).toNat).count))
    else .stop 2 (operandEnd s) s := by
  unfold mrowBody
  rw [h]
  rfl

theorem mrow_anchor {w : CWord} {s : State} (h : w.imm.toNat % 8 = 4) : mrowBody w s =
    if rowsOk s (capA s w).toNat 1 then
      .done 2 (putC s w.d (BitVec.ofInt 64 (getSilt (getCord s (capCord s)) (capA s w).toNat).q))
    else .stop 2 (operandEnd s) s := by
  unfold mrowBody
  rw [h]
  rfl

theorem mrow_bits {w : CWord} {s : State} (h : w.imm.toNat % 8 = 1) : mrowBody w s =
    if 3 < (capA s w).toNat then .stop 2 (operandEnd s) s
    else .done 2 (putC s w.d (BitVec.ofNat 64 (bitsBelow (emptyRow s (capA s w).toNat) 64))) := by
  unfold mrowBody
  rw [h]
  rfl

theorem mrow_all {w : CWord} {s : State} (h : w.imm.toNat % 8 = 2) : mrowBody w s =
    .done 2 (putC s w.d ((getCord s (capCord s)).cntAll ++ (getCord s (capCord s)).cntNone)) := by
  unfold mrowBody
  rw [h]
  rfl

theorem mrow_mixed {w : CWord} {s : State} (h : w.imm.toNat % 8 = 3) : mrowBody w s =
    .done 2 (putC s w.d ((getCord s (capCord s)).cntMixed.setWidth 64)) := by
  unfold mrowBody
  rw [h]
  rfl

end Sys2Proof.Machine
end

section
/-! O39, the third part: relations and label banks (R264, R266, R291), and the obligation. -/

namespace Sys2Proof.Machine

set_option autoImplicit false
set_option Elab.async false

/-! ### Knots (R264, R291) -/

/-- The block of an MKNOT that starts at o. -/
def knotBlock (u : State) (o : Nat) : List Byte := memRdN (capCells u) o 72

/-- The atoms of a knot's block. -/
def blockAtoms (b : List Byte) : List Word := (List.range 16).map (fun i => BitVec.ofNat 32 (leAt b (8 + 4 * i) 4))

/-- The knot that a block describes. -/
def blockKnot (u : State) (b : List Byte) : Knot :=
  { owner := some (capCord u), en := BitVec.ofNat 4 (leAt b 0 8), atoms := blockAtoms b }

/-- A knot's block lies in the scratchpad at a multiple of 8. -/
def knotPlace (u : State) (o : Nat) : Prop := o % 8 = 0 ∧ padHolds u o 72

theorem mknotBody_eq (w : CWord) (s : State) : mknotBody w s =
    let u := drainCap s
    let o := capPad (capA u w)
    if o % 8 != 0 || !capPadOk u o 72 then .stop 12 (operandEnd u) u
    else if 16 ≤ leAt (knotBlock u o) 0 8 || !(blockAtoms (knotBlock u o)).all atomOk then .stop 12 (statusEnd u 4) u
    else .done 12 (setMyCore u { myCore u with knots := aSet (myCore u).knots (w.imm.toNat % 4) (blockKnot u (knotBlock u o)) }) := rfl

theorem knotRefused_iff {u : State} {o : Nat} : (o % 8 != 0 || !capPadOk u o 72) = true ↔ ¬ knotPlace u o := by
  rw [Bool.or_eq_true, bne_iff_ne, Bool.not_eq_true', capPadOk_eq_false_iff, knotPlace, not_and_or]

theorem mknot_refused {w : CWord} {s : State} (hi : capIssues (.mknot w) s = true)
    (h : ¬ knotPlace (drainCap s) (capPad (capA (drainCap s) w))) :
    exec (.mknot w) s = .next (capEnds 12 (operandEnd (drainCap s)) (drainCap s)) :=
  exec_ends (mk := .mknot) (body := mknotBody) rfl rfl hi ((mknotBody_eq w s).trans (if_pos (knotRefused_iff.mpr h)))

/-- MKNOT writes the knot of a good block, and ends the call with RELN where the block is bad. -/
theorem mknot_placed {w : CWord} {s : State} (hi : capIssues (.mknot w) s = true) :
    let u := drainCap s
    let o := capPad (capA u w)
    let b := knotBlock u o
    knotPlace u o → exec (.mknot w) s = .next (if leAt b 0 8 < 16 ∧ (blockAtoms b).all atomOk = true then
      capGoes w 12 (setMyCore u { myCore u with knots := aSet (myCore u).knots (w.imm.toNat % 4) (blockKnot u b) })
      else capEnds 12 (statusEnd u 4) u) := by
  intro u o b h
  have hb : mknotBody w s = _ := (mknotBody_eq w s).trans (if_neg fun hn => knotRefused_iff.mp hn h)
  by_cases hg : leAt b 0 8 < 16 ∧ (blockAtoms b).all atomOk = true
  · rw [if_pos hg]
    refine exec_goes (mk := .mknot) (body := mknotBody) rfl rfl hi (hb.trans (if_neg ?_))
    rw [Bool.or_eq_true, decide_eq_true_eq, Bool.not_eq_true', ← Bool.not_eq_true]
    rintro (hn | hn)
    · exact Nat.not_le.mpr hg.1 hn
    · exact hn hg.2
  · rw [if_neg hg]
    refine exec_ends (mk := .mknot) (body := mknotBody) rfl rfl hi (hb.trans (if_pos ?_))
    rw [Bool.or_eq_true, decide_eq_true_eq, Bool.not_eq_true', ← Bool.not_eq_true, ← Nat.not_lt]
    exact not_and_or.mp hg

/-! ### Banks (R266, R291) -/

/-- Entries of a table written at consecutive places: each is what its last write made it. -/
theorem aGet_foldl_set {α : Type} (d : α) (m : AMap α) (f n k : Nat) (v : Nat → α) :
    aGet d ((List.range n).foldl (fun m i => aSet m (f + i) (v i)) m) k =
      if f ≤ k ∧ k < f + n then v (k - f) else aGet d m k := by
  induction n with
  | zero => exact (if_neg (by omega)).symm
  | succ n ih =>
    rw [List.range_succ, List.foldl_append, List.foldl_cons, List.foldl_nil, aGet_aSet]
    by_cases hk : k = f + n
    · rw [if_pos hk, if_pos (by omega), hk, Nat.add_sub_cancel_left]
    · rw [if_neg hk, ih]
      exact if_congr (by omega) rfl rfl

theorem aGet_aDel {α : Type} (d : α) (m : AMap α) (k j : Nat) : aGet d (aDel m k) j = if j = k then d else aGet d m j := by
  simp only [aGet, aGet?_aDel]
  split <;> rfl

/-- Entries written below n, and deleted from there on. -/
theorem aGet_foldl_setOrDel {α : Type} (d : α) (m : AMap α) (f n l k : Nat) (v : Nat → α) :
    aGet d ((List.range l).foldl (fun m i => if i < n then aSet m (f + i) (v i) else aDel m (f + i)) m) k =
      if f ≤ k ∧ k < f + l then (if k < f + n then v (k - f) else d) else aGet d m k := by
  induction l with
  | zero => exact (if_neg (by omega)).symm
  | succ l ih =>
    rw [List.range_succ, List.foldl_append, List.foldl_cons, List.foldl_nil]
    by_cases hk : k = f + l
    · rw [if_pos (show f ≤ k ∧ k < f + (l + 1) by omega)]
      by_cases hn : l < n
      · rw [if_pos hn, aGet_aSet, if_pos hk, if_pos (by omega), hk, Nat.add_sub_cancel_left]
      · rw [if_neg hn, aGet_aDel, if_pos hk, if_neg (by omega)]
    · have hkeep : aGet d (if l < n then aSet ((List.range l).foldl
          (fun m i => if i < n then aSet m (f + i) (v i) else aDel m (f + i)) m) (f + l) (v l)
          else aDel ((List.range l).foldl (fun m i => if i < n then aSet m (f + i) (v i) else aDel m (f + i)) m) (f + l)) k =
          aGet d ((List.range l).foldl (fun m i => if i < n then aSet m (f + i) (v i) else aDel m (f + i)) m) k := by
        split
        · rw [aGet_aSet, if_neg hk]
        · rw [aGet_aDel, if_neg hk]
      rw [hkeep, ih]
      exact if_congr (by omega) rfl rfl

/-- A bank as the running call has it: its own, or an empty one that it takes. -/
def takenBank (w : CWord) (u : State) : Bank :=
  if (bankOf w (myCore u)).owner = some (capCord u) then bankOf w (myCore u) else { owner := some (capCord u) }

theorem takenBank_owner (w : CWord) (u : State) : (takenBank w u).owner = some (capCord u) := by
  unfold takenBank
  split
  next h => exact h
  next => rfl

/-- The operands of an MLAB: its first label, their number, their groups, and where labels and summaries lie. -/
def labFirst (w : CWord) (u : State) : Nat := (capB u w).toNat % 2 ^ 11
def labCount (w : CWord) (u : State) : Nat := (capB u w).toNat / 2 ^ 11 % 2 ^ 11
def labGroups (w : CWord) (u : State) : Nat := (labCount w u + 63) / 64

/-- The operands of an MLAB are in range. -/
def labFits (w : CWord) (u : State) : Prop :=
  labFirst w u % 64 = 0 ∧ 1 ≤ labCount w u ∧ labCount w u ≤ 1024 ∧ labFirst w u + labCount w u ≤ bankSize w ∧ capPad (capC u w) % 64 = 0 ∧
    padHolds u (capPad (capA u w)) (8 + 8 * labCount w u) ∧ padHolds u (capPad (capC u w)) (64 * labGroups w u)

/-- The bank that an MLAB leaves. -/
def labBank (w : CWord) (u : State) : Bank := { takenBank w u with
  layout := BitVec.ofNat 64 (leNat (memRdN (capCells u) (capPad (capA u w)) 8))
  labels := (List.range (64 * labGroups w u)).foldl (fun m i => if i < labCount w u then aSet m (labFirst w u + i)
    (BitVec.ofNat 64 (leNat (memRdN (capCells u) (capPad (capA u w) + 8 + 8 * i) 8))) else aDel m (labFirst w u + i)) (takenBank w u).labels
  sums := (List.range (labGroups w u)).foldl (fun m i => aSet m (labFirst w u / 64 + i)
    (memRdN (capCells u) (capPad (capC u w) + 64 * i) 64)) (takenBank w u).sums }

theorem natBits_zero (v n : Nat) : natBits v 0 n = v % 2 ^ n := by
  unfold natBits
  rw [Nat.pow_zero, Nat.div_one]

theorem mlabBody_eq (w : CWord) (s : State) : mlabBody w s =
    let u := drainCap s
    if labFirst w u % 64 != 0 || labCount w u < 1 || 1024 < labCount w u || bankSize w < labFirst w u + labCount w u ||
        capPad (capC u w) % 64 != 0 || !capPadOk u (capPad (capA u w)) (8 + 8 * labCount w u) ||
        !capPadOk u (capPad (capC u w)) (64 * labGroups w u) then .stop 4 (operandEnd u) u
    else .done (4 + (labCount w u + 7) / 8) (setMyCore u (withBank w (myCore u) (labBank w u))) := by
  unfold mlabBody labBank takenBank labFirst
  simp only [natBits_zero, beq_iff_eq]
  rfl

theorem labRefused_iff {w : CWord} {u : State} :
    (labFirst w u % 64 != 0 || decide (labCount w u < 1) || decide (1024 < labCount w u) ||
      decide (bankSize w < labFirst w u + labCount w u) || capPad (capC u w) % 64 != 0 ||
      !capPadOk u (capPad (capA u w)) (8 + 8 * labCount w u) || !capPadOk u (capPad (capC u w)) (64 * labGroups w u)) = true ↔
      ¬ labFits w u := by
  rw [← Bool.not_eq_false, not_iff_not, Bool.or_eq_false_iff, Bool.or_eq_false_iff, Bool.or_eq_false_iff, Bool.or_eq_false_iff,
    Bool.or_eq_false_iff, Bool.or_eq_false_iff, Bool.not_eq_false', Bool.not_eq_false', decide_eq_false_iff_not, decide_eq_false_iff_not,
    decide_eq_false_iff_not, bne_eq_false_iff_eq, bne_eq_false_iff_eq, Nat.not_lt, Nat.not_lt, Nat.not_lt, capPadOk_iff, capPadOk_iff,
    and_assoc, and_assoc, and_assoc, and_assoc, and_assoc]
  rfl

theorem mlab_refused {w : CWord} {s : State} (hi : capIssues (.mlab w) s = true) (h : ¬ labFits w (drainCap s)) :
    exec (.mlab w) s = .next (capEnds 4 (operandEnd (drainCap s)) (drainCap s)) :=
  exec_ends (mk := .mlab) (body := mlabBody) rfl rfl hi ((mlabBody_eq w s).trans (if_pos (labRefused_iff.mpr h)))

theorem mlab_fits {w : CWord} {s : State} (hi : capIssues (.mlab w) s = true) (h : labFits w (drainCap s)) :
    exec (.mlab w) s = .next (capGoes w (4 + (labCount w (drainCap s) + 7) / 8)
      (setMyCore (drainCap s) (withBank w (myCore (drainCap s)) (labBank w (drainCap s))))) :=
  exec_goes (mk := .mlab) (body := mlabBody) rfl rfl hi ((mlabBody_eq w s).trans (if_neg fun hn => labRefused_iff.mp hn h))

/-- The labels of the bank that an MLAB leaves: those read, void up to the end of their last group, and the others as they were. -/
theorem labBank_label (w : CWord) (u : State) (k : Nat) : (labBank w u).label k =
    if labFirst w u ≤ k ∧ k < labFirst w u + 64 * labGroups w u then
      (if k < labFirst w u + labCount w u then
        leNat (memRdN (capCells u) (capPad (capA u w) + 8 + 8 * (k - labFirst w u)) 8) else voidLabel)
    else (takenBank w u).label k := by
  have hlt (a : Nat) : leNat (memRdN (capCells u) a 8) < 2 ^ 64 := by
    have h := leNat_lt (memRdN (capCells u) a 8)
    rwa [memRdN_length] at h
  unfold Bank.label labBank
  dsimp only
  rw [aGet_foldl_setOrDel]
  split
  · split
    · rw [BitVec.toNat_ofNat, Nat.mod_eq_of_lt (hlt _)]
    · rfl
  · rfl

theorem labBank_sum (w : CWord) (u : State) (k : Nat) : (labBank w u).sum k =
    if labFirst w u / 64 ≤ k ∧ k < labFirst w u / 64 + labGroups w u then
      memRdN (capCells u) (capPad (capC u w) + 64 * (k - labFirst w u / 64)) 64
    else (takenBank w u).sum k := aGet_foldl_set ..

theorem labBank_owner (w : CWord) (u : State) : (labBank w u).owner = some (capCord u) := by
  unfold labBank
  exact takenBank_owner w u

/-- MLAB: labels and summaries of the groups named, and nothing else of the bank. -/
theorem mlab_word {w : CWord} {s : State} (hi : capIssues (.mlab w) s = true) :
    let u := drainCap s
    let f := labFirst w u
    let n := labCount w u
    let g := labGroups w u
    (¬ labFits w u → exec (.mlab w) s = .next (capEnds 4 (operandEnd u) u)) ∧ (labFits w u →
    ∃ dest : Bank, exec (.mlab w) s = .next (capGoes w (4 + (n + 7) / 8) (setMyCore u (withBank w (myCore u) dest))) ∧
      dest.owner = some (capCord u) ∧ dest.layout = BitVec.ofNat 64 (leNat (memRdN (capCells u) (capPad (capA u w)) 8)) ∧
      (∀ i, i < n → dest.label (f + i) = leNat (memRdN (capCells u) (capPad (capA u w) + 8 + 8 * i) 8)) ∧
      (∀ i, n ≤ i → i < 64 * g → dest.label (f + i) = voidLabel) ∧
      (∀ i, i < f ∨ f + 64 * g ≤ i → dest.label i = (takenBank w u).label i) ∧
      (∀ i, i < g → dest.sum (f / 64 + i) = memRdN (capCells u) (capPad (capC u w) + 64 * i) 64) ∧
      (∀ i, i < f / 64 ∨ f / 64 + g ≤ i → dest.sum i = (takenBank w u).sum i)) := by
  intro u f n g
  have hg : n ≤ 64 * g := show labCount w u ≤ 64 * ((labCount w u + 63) / 64) by omega
  refine ⟨fun h => mlab_refused hi h, fun h => ⟨labBank w u, mlab_fits hi h, labBank_owner w u, rfl, ?read, ?void, ?others, ?sums, ?rest⟩⟩
  case read =>
    intro i hn
    rw [labBank_label, if_pos ⟨Nat.le_add_right .., by omega⟩, if_pos (by omega), Nat.add_sub_cancel_left]
  case void =>
    intro i hn hl
    rw [labBank_label, if_pos ⟨Nat.le_add_right .., by omega⟩, if_neg (by omega)]
  case others =>
    intro i h
    rw [labBank_label, if_neg (by omega)]
  case sums =>
    intro i hl
    rw [labBank_sum, if_pos ⟨Nat.le_add_right .., by omega⟩, Nat.add_sub_cancel_left]
  case rest =>
    intro i h
    rw [labBank_sum, if_neg (by omega)]

/-- The bank that an MSUMQ leaves. -/
def summedBank (w : CWord) (s : State) : Bank :=
  let b := bankOf w (myCore s)
  { b with sums := (List.range (bankSize w / 64)).foldl (fun m g =>
      aSet m g (summaryOf b.layout ((List.range 64).map (fun i => b.label (64 * g + i))))) b.sums }

theorem summedBank_sum {w : CWord} {s : State} {g : Nat} (h : g < bankSize w / 64) : (summedBank w s).sum g =
    summaryOf (bankOf w (myCore s)).layout ((List.range 64).map (fun i => (bankOf w (myCore s)).label (64 * g + i))) := by
  have hz := aGet_foldl_set (summaryOf 0 []) (bankOf w (myCore s)).sums 0 (bankSize w / 64) g (fun g =>
    summaryOf (bankOf w (myCore s)).layout ((List.range 64).map (fun i => (bankOf w (myCore s)).label (64 * g + i))))
  simp only [Nat.zero_add, Nat.zero_le, true_and, if_pos h, Nat.sub_zero] at hz
  exact hz

theorem msumq_owned {w : CWord} {s : State} (hi : capIssues (.msumq w) s = true)
    (h : (bankOf w (myCore s)).owner = some (capCord s)) :
    exec (.msumq w) s = .next (capGoes w (4 + bankSize w / 8) (setMyCore s (withBank w (myCore s) (summedBank w s)))) := by
  refine exec_goes (mk := .msumq) (body := msumqBody) rfl rfl hi (if_neg ?_)
  rw [bne_iff_ne, not_not]
  exact h

theorem msumq_foreign {w : CWord} {s : State} (hi : capIssues (.msumq w) s = true)
    (h : (bankOf w (myCore s)).owner ≠ some (capCord s)) : exec (.msumq w) s = .next (capEnds 4 (operandEnd s) s) :=
  exec_ends (mk := .msumq) (body := msumqBody) rfl rfl hi (if_pos (bne_iff_ne.mpr h))

/-! ### The obligation -/

/-- Settles O39: each word by the lemma about its body, where its checks pass and where one fails. -/
theorem matrixComplete : Obligations.MatrixComplete := by
  refine ⟨getSilt_modRows, ?mload, ?mloadh, ?mtrn, ?mma, ?mmar, ?mgrp, ?mgrpStart, ?mzero, ?manc, ?mdrn, ?mdacc, ?mknot, ?mlab, ?msumq,
    ?count, ?all, ?mixed, ?anchor, ?bits, ?badBits, ?badRow, ?msadd, ?msto, ?msld⟩
  case mload | mloadh | mtrn =>
    intro w s hi
    exact ⟨fun sh hs hb hl => load_fits rfl rfl hi hs ⟨hb, hl⟩,
      fun h => load_refused rfl rfl hi fun sh hs => not_and_or.mpr (h sh hs)⟩
  case mma => exact fun w s hi => mma_word (mk := .mma) (rel := false) rfl rfl hi
  case mmar => exact fun w s hi => mma_word (mk := .mmar) (rel := true) rfl rfl hi
  case mgrp => exact fun w s x sh hi hx hs => mgrp_word hi ((groupAt_eq w _).trans hx) hs
  case mgrpStart =>
    intro w s hi hx
    exact mgrp_refused hi ((groupAt_eq w _).trans hx)
  case mzero =>
    exact change_word .mzero (fun k => 2 + (k + 7) / 8) (fun _ _ => true) (fun _ _ x => { q := x.q }) (fun _ => rfl) (fun _ _ => rfl)
      (fun _ _ => rfl)
  case manc =>
    exact change_word .manc (fun _ => 2) (fun w s => decide (-512 ≤ newAnchor w s ∧ newAnchor w s ≤ 511))
      (fun w s x => { x with q := newAnchor w s }) (fun _ => rfl) (fun _ _ => rfl) mancBody_eq
  case mdrn =>
    exact drain_word .mdrn (fun r => (4 + r.nr * r.ng) * (if r.bf then 2 else 1)) (fun r x n _ => some (drainCell r x n))
      (fun _ => rfl) (fun _ _ => rfl) mdrnBody_eq
  case mdacc =>
    exact drain_word .mdacc (fun r => 4 + 2 * r.nr * r.ng) accCell (fun _ => rfl) (fun _ _ => rfl) mdaccBody_eq
  case mknot =>
    intro w s hi
    exact ⟨fun h => mknot_refused hi h, fun ho hl => mknot_placed hi ⟨ho, hl⟩⟩
  case mlab => exact fun w s hi => mlab_word hi
  case msumq =>
    intro w s hi
    exact ⟨fun h => ⟨summedBank w s, msumq_owned hi h, rfl, rfl, rfl, fun g hg => summedBank_sum hg⟩, fun h => msumq_foreign hi h⟩
  case count =>
    refine capDoes_body (body := mrowBody) (fun _ => rfl) (fun _ _ => rfl) fun w s h => ?_
    obtain ⟨hk, hr⟩ := Bool.and_eq_true_iff.mp h
    exact (mrow_count (of_decide_eq_true hk)).trans (if_pos hr)
  case all =>
    exact capDoes_body (body := mrowBody) (fun _ => rfl) (fun _ _ => rfl) fun w s h => mrow_all (of_decide_eq_true h)
  case mixed =>
    exact capDoes_body (body := mrowBody) (fun _ => rfl) (fun _ _ => rfl) fun w s h => mrow_mixed (of_decide_eq_true h)
  case anchor =>
    refine capDoes_body (body := mrowBody) (fun _ => rfl) (fun _ _ => rfl) fun w s h => ?_
    obtain ⟨hk, hr⟩ := Bool.and_eq_true_iff.mp h
    exact (mrow_anchor (of_decide_eq_true hk)).trans (if_pos hr)
  case bits =>
    intro w s hi hk ha
    refine ⟨_, exec_goes (mk := .mrow) (body := mrowBody) rfl rfl hi ((mrow_bits hk).trans (if_neg (Nat.not_lt.mpr ha))), fun i h => ?_⟩
    rw [BitVec.getLsbD_ofNat, testBit_bitsBelow, decide_eq_true h, Bool.true_and, Bool.true_and]
    rfl
  case badBits =>
    intro w s hi hk ha
    exact exec_ends (mk := .mrow) (body := mrowBody) rfl rfl hi ((mrow_bits hk).trans (if_pos ha))
  case badRow =>
    intro w s hi hk hr
    have hr : ¬ rowsOk s (capA s w).toNat 1 = true := mt rowsOk_iff.mp hr
    refine exec_ends (mk := .mrow) (body := mrowBody) rfl rfl hi ?_
    rcases hk with hk | hk
    · exact (mrow_count hk).trans (if_neg hr)
    · exact (mrow_anchor hk).trans (if_neg hr)
  case msadd =>
    intro w s hi
    exact ⟨fun r hr h => msadd_fits hi hr h, fun h => msadd_refused hi h⟩
  case msto =>
    exact raw_word .msto (fun _ _ _ => True) (fun u r b => stoRows u (capCord u) r b r.nr) (fun _ => rfl) (fun _ _ => rfl)
      (body := mstoBody) (fun _ _ => rfl) (fun _ _ _ _ => rfl) (fun _ _ _ h => (h trivial).elim)
  case msld =>
    exact raw_word .msld (fun u r b => ∀ k, k < 64 * r.ng * r.nr → leNat (memRdN (capCells u) (b + 16 * k + 9) 7) < 4)
      (fun u r b => sldRows u (capCord u) (capCells u) r b r.nr) (fun _ => rfl) (fun _ _ => rfl) (body := msldBody) (fun _ _ => rfl)
      (fun _ _ _ h => if_pos (sldOk_iff.mpr h)) (fun _ _ _ h => if_neg (mt sldOk_iff.mp h))

end Sys2Proof.Machine
end

section
/-! O40, the first part: the call block and its checks (R273, R292), and a tile (R274, R294). -/

namespace Sys2Proof.Machine

set_option autoImplicit false
set_option Elab.async false

/-! ### The call block (R292) -/

/-- The bytes of the block at a word's operand. -/
def vBlock (s : State) (a : DWord) : List Byte := capBytes s (capPad a) 128

/-- A block lies in the scratchpad at a multiple of 128. -/
def vPlaced (u : State) (a : DWord) : Prop := capPad a % 128 = 0 ∧ padHolds u (capPad a) 128

/-- The fields of a block are in range (R292). -/
def vInRange (v : Vcb) : Prop := (1 ≤ v.rows ∧ v.rows ≤ 64) ∧ (1 ≤ v.heapk ∧ v.heapk ≤ 64) ∧ v.mode < 64 ∧
  (v.named ≤ 8 ∧ (v.named = 0 ∨ v.mode / 4 % 2 = 1)) ∧ (v.h % 64 = 0 ∧ 64 ≤ v.h ∧ v.h ≤ 65472) ∧ 1 ≤ v.vcount ∧ (-512 ≤ v.q ∧ v.q ≤ 511) ∧
  v.temp / 2 ^ 23 % 2 ^ 8 ≠ 255 ∧ (v.delta / 2 ^ 23 % 2 ^ 8 ≠ 255 ∧ (v.delta < 2 ^ 31 ∨ v.delta = 2 ^ 31)) ∧ v.blist.toNat % 8 = 0 ∧
  v.state % 16 = 0 ∧ v.stage % 8 = 0 ∧ (1 ≤ v.scount ∧ v.shard < v.scount) ∧ v.resume.toNat % 64 = 0 ∧ v.rsv = 0

/-- What a block names lies in the silt and the scratchpad (R292). -/
def vAreas (u : State) (v : Vcb) (base : Nat) : Prop :=
  base < 256 ∧ siltHolds u base v.rows ∧ padHolds u v.aoff ((v.rows - 1) * pitchOf (129 * (v.h / 64)) + 129 * (v.h / 64)) ∧
  padHolds u v.state (v.rows * v.stride) ∧ padHolds u v.stage (512 * pitchOf (65 * (min v.h 512 / 64))) ∧
  (v.named = 0 ∨ padHolds u v.nids (4 * v.rows * v.named))

theorem fFinite_iff {x : Nat} : fFinite x = true ↔ x / 2 ^ 23 % 2 ^ 8 ≠ 255 := bne_iff_ne

theorem isNamed_iff {v : Vcb} : v.isNamed = true ↔ v.mode / 4 % 2 = 1 := beq_iff_eq

theorem resumes_iff {v : Vcb} : v.resumes = true ↔ v.mode / 8 % 2 = 1 := beq_iff_eq

theorem vcbOk_iff {v : Vcb} : v.ok = true ↔ vInRange v := by
  unfold Vcb.ok vInRange
  simp only [Bool.and_eq_true, Bool.or_eq_true, decide_eq_true_eq, beq_iff_eq, fFinite_iff, isNamed_iff, and_assoc]

theorem readVcb_placed {s : State} {a : DWord} (h : vPlaced s a) : readVcb s (capPad a) = .ok (.ofBytes (vBlock s a)) := by
  refine if_neg ?_
  rw [capPadOk_iff.mpr h.2, h.1]
  exact Bool.false_ne_true

theorem readVcb_displaced {s : State} {a : DWord} (h : ¬ vPlaced s a) : readVcb s (capPad a) = .error (operandEnd s) := by
  refine if_pos ?_
  rw [Bool.or_eq_true, bne_iff_ne, Bool.not_eq_true', capPadOk_eq_false_iff]
  exact not_and_or.mp h

/-- A block that is read lies in its place, and is what its bytes say. -/
theorem of_readVcb {s : State} {a : DWord} {v : Vcb} (h : readVcb s (capPad a) = .ok v) : vPlaced s a ∧ v = .ofBytes (vBlock s a) := by
  by_cases hp : vPlaced s a
  · rw [readVcb_placed hp] at h
    exact ⟨hp, (Except.ok.inj h).symm⟩
  · rw [readVcb_displaced hp] at h
    cases h

/-! ### The rows' states (R293) -/

theorem readRows_lies {s : State} {v : Vcb} {off : Nat} (h : padHolds s off (v.rows * v.stride)) (rs : List VRow) :
    readRows s v off = .ok rs ↔ rowsFrom v.heapk v.named v.stride (capBytes s off (v.rows * v.stride)) v.rows = some rs := by
  unfold readRows
  rw [capPadOk_iff.mpr h, Bool.not_true, if_neg Bool.false_ne_true]
  cases rowsFrom v.heapk v.named v.stride (capBytes s off (v.rows * v.stride)) v.rows with
  | none => exact ⟨fun h => (nomatch h), fun h => (nomatch h)⟩
  | some l => exact ⟨fun h => congrArg some (Except.ok.inj h), fun h => congrArg Except.ok (Option.some.inj h)⟩

/-! ### What the tiles start with (R292, R294) -/

theorem ctxRefused_iff {s : State} {v : Vcb} {base : Nat} :
    (!v.ok || decide (256 ≤ base) || !rowsOk s base v.rows || !capPadOk s v.aoff ((v.rows - 1) * v.pitchA + 129 * v.blocks) ||
      !capPadOk s v.state (v.rows * v.stride) || !capPadOk s v.stage v.stageLen ||
      (v.named != 0 && !capPadOk s v.nids (4 * v.rows * v.named))) = true ↔ ¬ (vInRange v ∧ vAreas s v base) := by
  rw [← Bool.not_eq_false, not_iff_not, Bool.or_eq_false_iff, Bool.or_eq_false_iff, Bool.or_eq_false_iff, Bool.or_eq_false_iff,
    Bool.or_eq_false_iff, Bool.or_eq_false_iff, Bool.and_eq_false_iff, Bool.not_eq_false', Bool.not_eq_false', Bool.not_eq_false',
    Bool.not_eq_false', Bool.not_eq_false', Bool.not_eq_false', decide_eq_false_iff_not, Nat.not_le, bne_eq_false_iff_eq, vcbOk_iff,
    rowsOk_iff, capPadOk_iff, capPadOk_iff, capPadOk_iff, capPadOk_iff, and_assoc, and_assoc, and_assoc, and_assoc, and_assoc]
  rfl

/-- What the tiles of a block start with, whose weights have been read. -/
def tileStart (vcb : List Byte) (base : Nat) (bias : AMap Nat) (d : List Byte × Word) : TileRun :=
  { vcb := vcb, desc := d.1, nf := d.2, bias := bias, base := base, first := 0, tile := 0, rows := [] }

theorem vocabCtx_refused {s : State} {vcb : List Byte} {base : Nat} {bias : AMap Nat}
    (h : ¬ (vInRange (.ofBytes vcb) ∧ vAreas s (.ofBytes vcb) base)) : vocabCtx s vcb base bias = .error (operandEnd s) :=
  if_pos (ctxRefused_iff.mpr h)

theorem vocabCtx_fits {s : State} {vcb : List Byte} {base : Nat} {bias : AMap Nat} (hr : vInRange (.ofBytes vcb))
    (ha : vAreas s (.ofBytes vcb) base) :
    vocabCtx s vcb base bias = (readWeights s (.ofBytes vcb)).map (tileStart vcb base bias) := by
  unfold vocabCtx
  refine (if_neg fun h => ctxRefused_iff.mp h ⟨hr, ha⟩).trans ?_
  cases readWeights s (.ofBytes vcb) <;> rfl

theorem vocabCtx_ok {s : State} {vcb : List Byte} {base : Nat} {bias : AMap Nat} {d : List Byte × Word} (hr : vInRange (.ofBytes vcb))
    (ha : vAreas s (.ofBytes vcb) base) (hw : readWeights s (.ofBytes vcb) = .ok d) :
    vocabCtx s vcb base bias = .ok (tileStart vcb base bias d) := by
  rw [vocabCtx_fits hr ha, hw]
  rfl

theorem vocabCtx_error {s : State} {vcb : List Byte} {base : Nat} {bias : AMap Nat} {e : CallEnd} (hr : vInRange (.ofBytes vcb))
    (ha : vAreas s (.ofBytes vcb) base) (hw : readWeights s (.ofBytes vcb) = .error e) : vocabCtx s vcb base bias = .error e := by
  rw [vocabCtx_fits hr ha, hw]
  rfl

/-- What the tiles start with is what has been read. -/
theorem of_vocabCtx {s : State} {vcb : List Byte} {base : Nat} {bias : AMap Nat} {x : TileRun} (h : vocabCtx s vcb base bias = .ok x) :
    x.vcb = vcb ∧ x.bias = bias ∧ x.base = base ∧ x.first = 0 ∧ x.tile = 0 ∧ readWeights s (.ofBytes vcb) = .ok (x.desc, x.nf) := by
  by_cases hf : vInRange (.ofBytes vcb) ∧ vAreas s (.ofBytes vcb) base
  · rw [vocabCtx_fits hf.1 hf.2] at h
    cases hw : readWeights s (.ofBytes vcb) with
    | error e => rw [hw] at h; cases h
    | ok d =>
      rw [hw] at h
      obtain rfl : tileStart vcb base bias d = x := Except.ok.inj h
      exact ⟨rfl, rfl, rfl, rfl, rfl, rfl⟩
  · rw [vocabCtx_refused hf] at h
    cases h

/-! ### The outcomes of a vocab word (R282, R294) -/

/-- No tile has been made yet. -/
def vFresh (u : State) : Prop := ∀ x, (myRun u).progress ≠ some (.tiles x)

/-- A failed operand check: the call ends and nothing else has changed. -/
def vRefused (mk : CWord → Instr) (w : CWord) (s : State) : Prop :=
  exec (mk w) s = .next (capEnds 1 (operandEnd (drainCap s)) (drainCap s))

/-- Another failed check: VSTAT reports it. -/
def vFails (mk : CWord → Instr) (w : CWord) (s : State) (e : CallEnd) : Prop :=
  exec (mk w) s = .next (capEnds 1 e (if e.status = 1 then drainCap s else setVstat (drainCap s) 0 0xFFFF e.status))

/-- A spill with n tiles charged: the states are left and saved, or the save faults. -/
def vSpills (mk : CWord → Instr) (w : CWord) (s : State) (x : TileRun) (n : Nat) (t : State) : Prop :=
  let v := Vcb.ofBytes x.vcb
  let u := writeRows t v x.rows
  let k := x.tile - x.first
  (∀ y, writeResume u v x.vcb x.tile x.rows = .ok y → exec (mk w) s = .next (capEnds (v.cost n) (statusEnd y 6) (setVstat y k x.tile 6))) ∧
  (∀ a, writeResume u v x.vcb x.tile x.rows = .error a →
    exec (mk w) s = .next (capEnds (v.cost n) { status := 8, cause := 0, addr := a } (setVstat u k 0xFFFF 8)))

/-- A word makes tile x: it goes on at the tile's boundary, or behind the last one leaves the states; a row spills; the weights cannot be
read. -/
def vMakes (mk : CWord → Instr) (w : CWord) (s : State) (x : TileRun) : Prop :=
  let u := drainCap s
  let v := Vcb.ofBytes x.vcb
  (∀ ys t rs f, runTile u x.ctx x.tile = .ok (ys, t) → foldRows v (namedIds u v) ys x.rows = some (rs, f) →
    let z := orFlagsOf t (capCord t) f
    (x.tile + 1 < v.tiles → exec (mk w) s =
      .next { spend (setProgress z (.tiles { x with tile := x.tile + 1, rows := rs })) (v.cost 1) with free := z.free + 1 }) ∧
    (v.tiles ≤ x.tile + 1 → exec (mk w) s = .next (capGoes w (v.cost 1) (setVstat (writeRows (closeProgress z) v
      (rs.map (fun r => { r with done := true }))) (x.tile - x.first + 1) 0xFFFF 0)))) ∧
  (∀ ys t, runTile u x.ctx x.tile = .ok (ys, t) → foldRows v (namedIds u v) ys x.rows = none → vSpills mk w s x 1 t) ∧
  (∀ e, runTile u x.ctx x.tile = .error e → exec (mk w) s = .next (capEnds 1 e (setVstat u (x.tile - x.first) 0xFFFF e.status)))

/-- A failed operand check of a word that starts changes nothing. -/
theorem vocabFail_operand (u : State) : vocabFail u (operandEnd u) = .stop 1 (operandEnd u) u := rfl

/-- A tile that is made: the boundary behind it, or the end of the word. -/
theorem endTile_ok (x : TileRun) (rs : List VRow) (z : State) : endTile x (.ok rs z) =
    if x.tile + 1 < (Vcb.ofBytes x.vcb).tiles then
      .again ((Vcb.ofBytes x.vcb).cost 1) (setProgress z (.tiles { x with tile := x.tile + 1, rows := rs }))
    else .done ((Vcb.ofBytes x.vcb).cost 1) (setVstat (writeRows (closeProgress z) (.ofBytes x.vcb)
      (rs.map (fun r => { r with done := true }))) (x.tile - x.first + 1) 0xFFFF 0) := rfl

theorem endTile_spill (x : TileRun) (rs : List VRow) (n : Nat) (t : State) : endTile x (.spill rs n t) =
    match writeResume (writeRows t (.ofBytes x.vcb) rs) (.ofBytes x.vcb) x.vcb x.tile rs with
    | .error a => .stop ((Vcb.ofBytes x.vcb).cost n) (endWith 8 0 a)
        (setVstat (writeRows t (.ofBytes x.vcb) rs) (x.tile - x.first) 0xFFFF 8)
    | .ok u => .stop ((Vcb.ofBytes x.vcb).cost n) (statusEnd u 6) (setVstat u (x.tile - x.first) x.tile 6) := rfl

theorem oneTile_folded {x : TileRun} {u t : State} {ys : List (List (Nat × Nat))} {rs : List VRow} {f : Flags}
    (ht : runTile u x.ctx x.tile = .ok (ys, t)) (hf : foldRows (.ofBytes x.vcb) (namedIds u (.ofBytes x.vcb)) ys x.rows = some (rs, f)) :
    oneTile x u = .ok rs (orFlagsOf t (capCord t) f) := by
  have hf : foldRows x.ctx.v (namedIds u x.ctx.v) ys x.rows = some (rs, f) := hf
  unfold oneTile
  rw [ht]
  dsimp only
  rw [hf]

theorem oneTile_spilt {x : TileRun} {u t : State} {ys : List (List (Nat × Nat))}
    (ht : runTile u x.ctx x.tile = .ok (ys, t)) (hf : foldRows (.ofBytes x.vcb) (namedIds u (.ofBytes x.vcb)) ys x.rows = none) :
    oneTile x u = .spill x.rows 1 t := by
  have hf : foldRows x.ctx.v (namedIds u x.ctx.v) ys x.rows = none := hf
  unfold oneTile
  rw [ht]
  dsimp only
  rw [hf]

theorem oneTile_error {x : TileRun} {u : State} {e : CallEnd} (ht : runTile u x.ctx x.tile = .error e) : oneTile x u = .bad e u := by
  unfold oneTile
  rw [ht]

section
variable {mk : CWord → Instr} {g : CForm} {body : CWord → State → CRes} {w : CWord} {s : State}
  (hf : capstanForm (mk w) = some (w, g)) (he : exec (mk w) s = .next (runCap (mk w) body s)) (hi : capIssues (mk w) s = true)
include hf he hi

theorem vFails_of {e : CallEnd} (hb : body w s = vocabFail (drainCap s) e) : vFails mk w s e := exec_ends hf he hi hb

theorem vRefused_of (hb : body w s = vocabFail (drainCap s) (operandEnd (drainCap s))) : vRefused mk w s :=
  exec_ends hf he hi (hb.trans (vocabFail_operand _))

theorem vSpills_of {x : TileRun} {n : Nat} {t : State} (hb : body w s = endTile x (.spill x.rows n t)) : vSpills mk w s x n t := by
  rw [endTile_spill] at hb
  constructor
  · intro y hy
    rw [hy] at hb
    exact exec_ends hf he hi hb
  · intro a ha
    rw [ha] at hb
    exact exec_ends hf he hi hb

theorem vMakes_of {x : TileRun} (hb : body w s = endTile x (oneTile x (drainCap s))) : vMakes mk w s x := by
  refine ⟨fun ys t rs f ht hfold => ?_, fun ys t ht hfold => ?_, fun e ht => ?_⟩
  · rw [oneTile_folded ht hfold, endTile_ok] at hb
    constructor
    · intro hlt
      rw [if_pos hlt] at hb
      rw [he, runCap_eq hf hi, hb]
      rfl
    · intro hle
      rw [if_neg (Nat.not_lt.mpr hle)] at hb
      exact exec_goes hf he hi hb
  · rw [oneTile_spilt ht hfold] at hb
    exact vSpills_of hf he hi hb
  · rw [oneTile_error ht] at hb
    exact exec_ends hf he hi hb

end

end Sys2Proof.Machine
end

section
/-! O40, the second part: what VPROJ, VRES and VPRJB start with, and how they fail (R273, R294, R295, R297). -/

namespace Sys2Proof.Machine

set_option autoImplicit false
set_option Elab.async false

/-! ### VPROJ (R273, R294) -/

theorem heapChecks_small {s : State} {v : Vcb} (h : v.rows * v.heapk ≤ 4096) : heapChecks s v = biasOf s v :=
  if_neg (Nat.not_lt.mpr h)

theorem heapChecks_large {s : State} {v : Vcb} (h : 4096 < v.rows * v.heapk) : heapChecks s v = .error (statusEnd s 5) := if_pos h

theorem vprojBody_later {w : CWord} {s : State} {x : TileRun} (h : (myRun (drainCap s)).progress = some (.tiles x)) :
    vprojBody w s = endTile x (oneTile x (drainCap s)) := by
  unfold vprojBody
  dsimp only
  rw [h]

theorem vprojBody_fresh {w : CWord} {s : State} (h : vFresh (drainCap s)) : vprojBody w s = match vprojStart w (drainCap s) with
    | .error e => vocabFail (drainCap s) e
    | .ok x => endTile x (oneTile x (drainCap s)) := by
  unfold vprojBody
  dsimp only
  split
  next x hx => exact absurd hx (h x)
  next => rfl

/-- The states that VPROJ starts from. -/
def vprojRows (u : State) (v : Vcb) : VGet (List VRow) :=
  if v.resumes then readRows u v v.state else .ok (List.replicate v.rows v.initRow)

/-- VPROJ whose start fails. -/
theorem vproj_fails {w : CWord} {s : State} {e : CallEnd} (hi : capIssues (.vproj w) s = true) (h : vFresh (drainCap s))
    (hs : vprojStart w (drainCap s) = .error e) : vFails .vproj w s e := by
  refine vFails_of (body := vprojBody) rfl rfl hi ?_
  rw [vprojBody_fresh h, hs]

theorem vproj_refused {w : CWord} {s : State} (hi : capIssues (.vproj w) s = true) (h : vFresh (drainCap s))
    (hs : vprojStart w (drainCap s) = .error (operandEnd (drainCap s))) : vRefused .vproj w s := by
  refine vRefused_of (body := vprojBody) rfl rfl hi ?_
  rw [vprojBody_fresh h, hs]

theorem vproj_makes {w : CWord} {s : State} {x : TileRun} (hi : capIssues (.vproj w) s = true) (h : vFresh (drainCap s))
    (hs : vprojStart w (drainCap s) = .ok x) : vMakes .vproj w s x := by
  refine vMakes_of (body := vprojBody) rfl rfl hi ?_
  rw [vprojBody_fresh h, hs]

section
variable {w : CWord} {u : State} {v : Vcb}

theorem vprojStart_displaced (h : ¬ vPlaced u (capA u w)) : vprojStart w u = .error (operandEnd u) := by
  unfold vprojStart
  rw [readVcb_displaced h]

variable (hv : readVcb u (capPad (capA u w)) = .ok v)
include hv

theorem vprojStart_large (hk : 4096 < v.rows * v.heapk) : vprojStart w u = .error (statusEnd u 5) := by
  unfold vprojStart
  rw [hv]
  dsimp only
  rw [heapChecks_large hk]

variable (hk : v.rows * v.heapk ≤ 4096)
include hk

theorem vprojStart_bias {e : CallEnd} (hb : biasOf u v = .error e) : vprojStart w u = .error e := by
  unfold vprojStart
  rw [hv]
  dsimp only
  rw [heapChecks_small hk, hb]

variable {bias : AMap Nat} (hb : biasOf u v = .ok bias)
include hb

theorem vprojStart_ctx {e : CallEnd} (hx : vocabCtx u (vBlock u (capA u w)) (capB u w).toNat bias = .error e) :
    vprojStart w u = .error e := by
  have hx : vocabCtx u (vcbBytes u (capPad (capA u w))) (capB u w).toNat bias = .error e := hx
  unfold vprojStart
  rw [hv]
  dsimp only
  rw [heapChecks_small hk, hb]
  dsimp only
  rw [hx]

theorem vprojStart_rows {x : TileRun} (hx : vocabCtx u (vBlock u (capA u w)) (capB u w).toNat bias = .ok x) :
    vprojStart w u = (vprojRows u v).map (fun rs => { x with rows := rs }) := by
  have hx : vocabCtx u (vcbBytes u (capPad (capA u w))) (capB u w).toNat bias = .ok x := hx
  unfold vprojStart
  rw [hv]
  dsimp only
  rw [heapChecks_small hk, hb]
  dsimp only
  rw [hx]
  unfold vprojRows
  dsimp only
  cases (if v.resumes then readRows u v v.state else .ok (List.replicate v.rows v.initRow)) <;> rfl

end

/-- The initial states of a block, or those in STATE. -/
theorem vprojRows_ok {u : State} {v : Vcb} {rs : List VRow} (h : if v.mode / 8 % 2 = 1 then readRows u v v.state = .ok rs
    else rs = List.replicate v.rows v.initRow) : vprojRows u v = .ok rs := by
  unfold vprojRows
  by_cases hm : v.mode / 8 % 2 = 1
  · rw [if_pos hm] at h
    rw [if_pos (resumes_iff.mpr hm), h]
  · rw [if_neg hm] at h
    rw [if_neg (mt resumes_iff.mp hm), h]

theorem vprojRows_error {u : State} {v : Vcb} {e : CallEnd} (hm : v.mode / 8 % 2 = 1) (h : readRows u v v.state = .error e) :
    vprojRows u v = .error e := (if_pos (resumes_iff.mpr hm)).trans h

/-- VPROJ's failures, in the order of its checks. -/
theorem vproj_failures {w : CWord} {s : State} (hi : capIssues (.vproj w) s = true) :
    let u := drainCap s
    vFresh u → (¬ vPlaced u (capA u w) → vRefused .vproj w s) ∧
      (∀ v, readVcb u (capPad (capA u w)) = .ok v → v.rows * v.heapk ≤ 4096 →
        (∀ e, biasOf u v = .error e → vFails .vproj w s e) ∧
        (∀ bias, biasOf u v = .ok bias → ¬ (vInRange v ∧ vAreas u v (capB u w).toNat) → vRefused .vproj w s) ∧
        (∀ bias, biasOf u v = .ok bias → vInRange v → vAreas u v (capB u w).toNat →
          (∀ e, readWeights u v = .error e → vFails .vproj w s e) ∧
          (∀ d e, readWeights u v = .ok d → v.mode / 8 % 2 = 1 → readRows u v v.state = .error e → vFails .vproj w s e))) := by
  intro u hf
  refine ⟨fun h => vproj_refused hi hf (vprojStart_displaced h), fun v hv hk => ?_⟩
  obtain ⟨-, rfl⟩ := of_readVcb hv
  refine ⟨fun e hb => vproj_fails hi hf (vprojStart_bias hv hk hb),
    fun bias hb h => vproj_refused hi hf (vprojStart_ctx hv hk hb (vocabCtx_refused h)), fun bias hb hr ha => ⟨fun e hw => ?_,
    fun d e hw hm hrow => ?_⟩⟩
  · exact vproj_fails hi hf (vprojStart_ctx hv hk hb (vocabCtx_error hr ha hw))
  · refine vproj_fails hi hf ((vprojStart_rows hv hk hb (vocabCtx_ok hr ha hw)).trans ?_)
    rw [vprojRows_error hm hrow]
    rfl

/-- VPROJ's start. -/
theorem vproj_starts {w : CWord} {s : State} {v : Vcb} {bias : AMap Nat} {x : TileRun} {rs : List VRow}
    (hi : capIssues (.vproj w) s = true) (hf : vFresh (drainCap s))
    (hv : readVcb (drainCap s) (capPad (capA (drainCap s) w)) = .ok v) (hk : v.rows * v.heapk ≤ 4096)
    (hb : biasOf (drainCap s) v = .ok bias)
    (hx : vocabCtx (drainCap s) (vBlock (drainCap s) (capA (drainCap s) w)) (capB (drainCap s) w).toNat bias = .ok x)
    (hr : if v.mode / 8 % 2 = 1 then readRows (drainCap s) v v.state = .ok rs else rs = List.replicate v.rows v.initRow) :
    vMakes .vproj w s { x with rows := rs } := by
  refine vproj_makes hi hf ((vprojStart_rows hv hk hb hx).trans ?_)
  rw [vprojRows_ok hr]
  rfl

/-! ### VRES (R295) -/

theorem vresBody_later {w : CWord} {s : State} {x : TileRun} (h : (myRun (drainCap s)).progress = some (.tiles x)) :
    vresBody w s = endTile x (oneTile x (drainCap s)) := by
  unfold vresBody
  dsimp only
  rw [h]

theorem vresBody_fresh {w : CWord} {s : State} (h : vFresh (drainCap s)) : vresBody w s = match vresStart w (drainCap s) with
    | .error e => vocabFail (drainCap s) e
    | .ok x => match rethreshold x.ctx.v x.rows with
      | none => endTile x (.spill x.rows 0 (drainCap s))
      | some rs => endTile { x with rows := rs } (oneTile { x with rows := rs } (drainCap s)) := by
  unfold vresBody
  dsimp only
  split
  next x hx => exact absurd hx (h x)
  next => rfl

theorem vres_fails {w : CWord} {s : State} {e : CallEnd} (hi : capIssues (.vres w) s = true) (h : vFresh (drainCap s))
    (hs : vresStart w (drainCap s) = .error e) : vFails .vres w s e := by
  refine vFails_of (body := vresBody) rfl rfl hi ?_
  rw [vresBody_fresh h, hs]

theorem vres_refused {w : CWord} {s : State} (hi : capIssues (.vres w) s = true) (h : vFresh (drainCap s))
    (hs : vresStart w (drainCap s) = .error (operandEnd (drainCap s))) : vRefused .vres w s := by
  refine vRefused_of (body := vresBody) rfl rfl hi ?_
  rw [vresBody_fresh h, hs]

/-- VRES, started: its states are thresholded anew, and one that keeps too many entries spills. -/
theorem vres_started {w : CWord} {s : State} {x : TileRun} (hi : capIssues (.vres w) s = true) (h : vFresh (drainCap s))
    (hs : vresStart w (drainCap s) = .ok x) :
    (∀ new, rethreshold (.ofBytes x.vcb) x.rows = some new → vMakes .vres w s { x with rows := new }) ∧
    (rethreshold (.ofBytes x.vcb) x.rows = none → vSpills .vres w s x 0 (drainCap s)) := by
  constructor
  · intro new hn
    have hn : rethreshold x.ctx.v x.rows = some new := hn
    refine vMakes_of (body := vresBody) rfl rfl hi ?_
    rw [vresBody_fresh h, hs]
    dsimp only
    rw [hn]
  · intro hn
    have hn : rethreshold x.ctx.v x.rows = none := hn
    refine vSpills_of (body := vresBody) rfl rfl hi ?_
    rw [vresBody_fresh h, hs]
    dsimp only
    rw [hn]

/-- The saved block and the one in the scratchpad go together: they differ in HEAPK and DELTA alone, and HEAPK has not become smaller. -/
def vSame (area : DWord) (b vcb : List Byte) : Prop := area.toNat % 64 = 0 ∧
  (∀ i, i < 128 → i ≠ 1 → i < 28 ∨ 32 ≤ i → b[i]? = vcb[i]?) ∧ (Vcb.ofBytes b).heapk ≤ (Vcb.ofBytes vcb).heapk ∧
  (Vcb.ofBytes vcb).rows * (Vcb.ofBytes vcb).heapk ≤ 4096

theorem sameVcb_iff {a b : List Byte} : sameVcb a b = true ↔ ∀ i, i < 128 → i ≠ 1 → i < 28 ∨ 32 ≤ i → a[i]? = b[i]? := by
  unfold sameVcb
  rw [List.all_eq_true]
  refine forall_congr' fun i => ?_
  rw [List.mem_range]
  refine forall_congr' fun _ => ?_
  simp only [Bool.or_eq_true, Bool.and_eq_true, decide_eq_true_eq, beq_iff_eq]
  constructor
  · rintro ((h1 | h28) | he) hn hr
    · exact absurd h1 hn
    · omega
    · exact he
  · intro h
    by_cases h1 : i = 1
    · exact .inl (.inl h1)
    · by_cases hr : 28 ≤ i ∧ i < 32
      · exact .inl (.inr hr)
      · exact .inr (h h1 (by omega))

theorem sameRefused_iff {area : DWord} {b vcb : List Byte} :
    (area.toNat % 64 != 0 || !sameVcb b vcb || decide ((Vcb.ofBytes vcb).heapk < (Vcb.ofBytes b).heapk) ||
      decide (4096 < (Vcb.ofBytes vcb).rows * (Vcb.ofBytes vcb).heapk)) = true ↔ ¬ vSame area b vcb := by
  rw [← Bool.not_eq_false, not_iff_not, Bool.or_eq_false_iff, Bool.or_eq_false_iff, Bool.or_eq_false_iff, bne_eq_false_iff_eq,
    Bool.not_eq_false', decide_eq_false_iff_not, decide_eq_false_iff_not, Nat.not_lt, Nat.not_lt, sameVcb_iff, and_assoc, and_assoc]
  rfl

section
variable {w : CWord} {u : State}

theorem vresStart_displaced (h : ¬ vPlaced u (capB u w)) : vresStart w u = .error (operandEnd u) := by
  unfold vresStart
  dsimp only
  rw [readVcb_displaced h]

variable {v : Vcb} (hv : readVcb u (capPad (capB u w)) = .ok v)
include hv

theorem vresStart_area {e : CallEnd} (hm : capMem u (capA u w) 0 132 = .error e) : vresStart w u = .error e := by
  unfold vresStart
  dsimp only
  rw [hv, hm]

variable {b : List Byte} (hm : capMem u (capA u w) 0 132 = .ok b)
include hm

theorem vresStart_different (h : ¬ vSame (capA u w) b (vBlock u (capB u w))) : vresStart w u = .error (operandEnd u) := by
  obtain ⟨-, rfl⟩ := of_readVcb hv
  unfold vresStart
  dsimp only
  rw [hv, hm]
  exact if_pos (sameRefused_iff.mpr h)

variable (hs : vSame (capA u w) b (vBlock u (capB u w)))
include hs

/-- VRES's start behind the comparison of the blocks. -/
theorem vresStart_same : vresStart w u = match biasOf u v with
    | .error e => .error e
    | .ok bias => match vocabCtx u (vBlock u (capB u w)) ((capC u w).toNat % 256) bias,
        capMem u (capA u w) 144 ((Vcb.ofBytes b).rows * (Vcb.ofBytes b).stride) with
      | .error e, _ => .error e
      | _, .error e => .error e
      | .ok x, .ok sb =>
        match rowsFrom (Vcb.ofBytes b).heapk (Vcb.ofBytes b).named (Vcb.ofBytes b).stride sb (Vcb.ofBytes b).rows with
        | none => .error (operandEnd u)
        | some rs => if v.tiles ≤ leAt b 128 4 then .error (operandEnd u)
          else .ok { x with first := leAt b 128 4, tile := leAt b 128 4, rows := rs } := by
  obtain ⟨-, rfl⟩ := of_readVcb hv
  unfold vresStart
  dsimp only
  rw [hv, hm]
  exact if_neg fun h => sameRefused_iff.mp h hs

theorem vresStart_bias {e : CallEnd} (hb : biasOf u v = .error e) : vresStart w u = .error e := by
  rw [vresStart_same hv hm hs, hb]

variable {bias : AMap Nat} (hb : biasOf u v = .ok bias)
include hb

theorem vresStart_ctx {e : CallEnd} (hx : vocabCtx u (vBlock u (capB u w)) ((capC u w).toNat % 256) bias = .error e) :
    vresStart w u = .error e := by
  rw [vresStart_same hv hm hs, hb]
  dsimp only
  rw [hx]

variable {x : TileRun} (hx : vocabCtx u (vBlock u (capB u w)) ((capC u w).toNat % 256) bias = .ok x)
include hx

theorem vresStart_states {e : CallEnd} (hm' : capMem u (capA u w) 144 ((Vcb.ofBytes b).rows * (Vcb.ofBytes b).stride) = .error e) :
    vresStart w u = .error e := by
  rw [vresStart_same hv hm hs, hb]
  dsimp only
  rw [hx, hm']

variable {sb : List Byte} (hsb : capMem u (capA u w) 144 ((Vcb.ofBytes b).rows * (Vcb.ofBytes b).stride) = .ok sb)
include hsb

theorem vresStart_bad (h : rowsFrom (Vcb.ofBytes b).heapk (Vcb.ofBytes b).named (Vcb.ofBytes b).stride sb (Vcb.ofBytes b).rows = none ∨
    v.tiles ≤ leAt b 128 4) : vresStart w u = .error (operandEnd u) := by
  rw [vresStart_same hv hm hs, hb]
  dsimp only
  rw [hx, hsb]
  dsimp only
  cases hr : rowsFrom (Vcb.ofBytes b).heapk (Vcb.ofBytes b).named (Vcb.ofBytes b).stride sb (Vcb.ofBytes b).rows with
  | none => rfl
  | some rs => exact if_pos (h.resolve_left fun h => nomatch hr.symm.trans h)

theorem vresStart_ok {rs : List VRow}
    (hr : rowsFrom (Vcb.ofBytes b).heapk (Vcb.ofBytes b).named (Vcb.ofBytes b).stride sb (Vcb.ofBytes b).rows = some rs)
    (ht : leAt b 128 4 < v.tiles) : vresStart w u = .ok { x with first := leAt b 128 4, tile := leAt b 128 4, rows := rs } := by
  rw [vresStart_same hv hm hs, hb]
  dsimp only
  rw [hx, hsb]
  dsimp only
  rw [hr]
  exact if_neg (Nat.not_le.mpr ht)

end

/-- VRES's failures, in the order of its checks. -/
theorem vres_failures {w : CWord} {s : State} (hi : capIssues (.vres w) s = true) :
    let u := drainCap s
    vFresh u → (¬ vPlaced u (capB u w) → vRefused .vres w s) ∧
      (∀ v, readVcb u (capPad (capB u w)) = .ok v →
        (∀ e, capMem u (capA u w) 0 132 = .error e → vFails .vres w s e) ∧
        (∀ b, capMem u (capA u w) 0 132 = .ok b →
          let old := Vcb.ofBytes b
          let same := (capA u w).toNat % 64 = 0 ∧
            (∀ i, i < 128 → i ≠ 1 → i < 28 ∨ 32 ≤ i → b[i]? = (vBlock u (capB u w))[i]?) ∧ old.heapk ≤ v.heapk ∧ v.rows * v.heapk ≤ 4096
          (¬ same → vRefused .vres w s) ∧
          (∀ e, same → biasOf u v = .error e → vFails .vres w s e) ∧
          (∀ bias, same → biasOf u v = .ok bias → ¬ (vInRange v ∧ vAreas u v ((capC u w).toNat % 256)) → vRefused .vres w s) ∧
          (∀ bias, same → biasOf u v = .ok bias → vInRange v → vAreas u v ((capC u w).toNat % 256) →
            (∀ e, readWeights u v = .error e → vFails .vres w s e) ∧
            (∀ d, readWeights u v = .ok d →
              (∀ e, capMem u (capA u w) 144 (old.rows * old.stride) = .error e → vFails .vres w s e) ∧
              (∀ sb, capMem u (capA u w) 144 (old.rows * old.stride) = .ok sb →
                rowsFrom old.heapk old.named old.stride sb old.rows = none ∨ v.tiles ≤ leAt b 128 4 → vRefused .vres w s))))) := by
  intro u hf
  refine ⟨fun h => vres_refused hi hf (vresStart_displaced h), fun v hv => ?_⟩
  obtain ⟨-, rfl⟩ := of_readVcb hv
  refine ⟨fun e hm => vres_fails hi hf (vresStart_area hv hm), fun b hm => ⟨fun h => vres_refused hi hf (vresStart_different hv hm h),
    fun e hs hb => vres_fails hi hf (vresStart_bias hv hm hs hb),
    fun bias hs hb h => vres_refused hi hf (vresStart_ctx hv hm hs hb (vocabCtx_refused h)),
    fun bias hs hb hr ha => ⟨fun e hw => vres_fails hi hf (vresStart_ctx hv hm hs hb (vocabCtx_error hr ha hw)), fun d hw => ?_⟩⟩⟩
  have hx := vocabCtx_ok (bias := bias) hr ha hw
  exact ⟨fun e hm' => vres_fails hi hf (vresStart_states hv hm hs hb hx hm'),
    fun sb hsb h => vres_refused hi hf (vresStart_bad hv hm hs hb hx hsb h)⟩

/-- VRES's start. -/
theorem vres_starts {w : CWord} {s : State} {v : Vcb} {b : List Byte} {bias : AMap Nat} {x : TileRun} {sb : List Byte} {rs : List VRow}
    (hi : capIssues (.vres w) s = true) :
    let u := drainCap s
    let old := Vcb.ofBytes b
    let t := leAt b 128 4
    vFresh u → readVcb u (capPad (capB u w)) = .ok v → capMem u (capA u w) 0 132 = .ok b → (capA u w).toNat % 64 = 0 →
    sameVcb b (vBlock u (capB u w)) = true → old.heapk ≤ v.heapk → v.rows * v.heapk ≤ 4096 → biasOf u v = .ok bias →
    vocabCtx u (vBlock u (capB u w)) ((capC u w).toNat % 256) bias = .ok x →
    capMem u (capA u w) 144 (old.rows * old.stride) = .ok sb → rowsFrom old.heapk old.named old.stride sb old.rows = some rs → t < v.tiles →
    (∀ new, rethreshold v rs = some new → vMakes .vres w s { x with first := t, tile := t, rows := new }) ∧
    (rethreshold v rs = none → vSpills .vres w s { x with first := t, tile := t, rows := rs } 0 u) := by
  intro u old t hf hv hm hal hsame hheap hk hb hx hsb hr ht
  obtain ⟨-, rfl⟩ := of_readVcb hv
  have hs : vSame (capA u w) b (vBlock u (capB u w)) := ⟨hal, sameVcb_iff.mp hsame, hheap, hk⟩
  obtain ⟨hmakes, hspills⟩ := vres_started hi hf (vresStart_ok hv hm hs hb hx hsb hr ht)
  have hvcb : rethreshold (.ofBytes x.vcb) rs = rethreshold (.ofBytes (vBlock u (capB u w))) rs :=
    congrArg (fun b => rethreshold (.ofBytes b) rs) (of_vocabCtx hx).1
  exact ⟨fun new hn => hmakes new (hvcb.trans hn), fun hn => hspills (hvcb.trans hn)⟩

end Sys2Proof.Machine
end

section
/-! O40, the third part: VPRJB, VMRG and the utilities (R296 to R298), and the obligation. -/

namespace Sys2Proof.Machine

set_option autoImplicit false
set_option Elab.async false

/-! ### VPRJB (R297) -/

/-- The tile that a VPRJB names. -/
def gradTile (w : CWord) (u : State) : Nat := (capB u w).toNat / 2 ^ 8 % 2 ^ 16

/-- The segments of a tile's row. -/
def gradSegs (w : CWord) (u : State) (v : Vcb) : Nat := (v.width (gradTile w u) + 63) / 64

/-- The operands of a VPRJB are in range, and its block names ids. -/
def gradFits (w : CWord) (u : State) (v : Vcb) : Prop :=
  (capB u w).toNat / 2 ^ 24 % 2 ^ 8 = 0 ∧ v.mode / 4 % 2 = 1 ∧ v.named ≠ 0 ∧ (capB u w).toNat / 2 ^ 55 % 2 ^ 8 ≠ 255 ∧
  gradTile w u < v.tiles ∧
  padHolds u (capPad (capC u w)) ((v.rows - 1) * pitchOf (129 * gradSegs w u v) + 129 * gradSegs w u v)

/-- The exponent of SCALE stands at bit 55 of the operand. -/
theorem scaleFinite_iff {b : Nat} : fFinite (natBits b 32 32) = true ↔ b / 2 ^ 55 % 2 ^ 8 ≠ 255 := by
  rw [fFinite_iff, show natBits b 32 32 / 2 ^ 23 % 2 ^ 8 = b / 2 ^ 55 % 2 ^ 8 by unfold natBits; omega]

theorem gradRefused_iff {w : CWord} {u : State} {v : Vcb} :
    (natBits (capB u w).toNat 24 8 != 0 || !v.isNamed || decide (v.named = 0) || !fFinite (natBits (capB u w).toNat 32 32) ||
      decide (v.tiles ≤ gradTile w u) || !capPadOk u (capPad (capC u w))
        ((v.rows - 1) * v.gradPitch (gradTile w u) + 129 * ((v.width (gradTile w u) + 63) / 64))) = true ↔ ¬ gradFits w u v := by
  rw [← Bool.not_eq_false, not_iff_not, Bool.or_eq_false_iff, Bool.or_eq_false_iff, Bool.or_eq_false_iff, Bool.or_eq_false_iff,
    Bool.or_eq_false_iff, Bool.not_eq_false', Bool.not_eq_false', Bool.not_eq_false', decide_eq_false_iff_not, decide_eq_false_iff_not,
    Nat.not_le, bne_eq_false_iff_eq, isNamed_iff, scaleFinite_iff, capPadOk_iff, and_assoc, and_assoc, and_assoc, and_assoc]
  rfl

theorem vprjbBody_eq (w : CWord) (s : State) : vprjbBody w s = match vprjbStart w (drainCap s) with
    | .error e => vocabFail (drainCap s) e
    | .ok x => match runTile (drainCap s) x.ctx x.tile with
      | .error e => vocabFail (drainCap s) e
      | .ok (ys, t) => .done ((Vcb.ofBytes x.vcb).cost 1 + 16 * (Vcb.ofBytes x.vcb).rows)
          (setVstat (putGrads (.ofBytes x.vcb) (natBits (capB (drainCap s) w).toNat 32 32) (capPad (capC (drainCap s) w))
            ((Vcb.ofBytes x.vcb).gradPitch x.tile) 0 (namedIds (drainCap s) (.ofBytes x.vcb)) x.rows ys t) 1 0xFFFF 0) := rfl

theorem vprjb_fails {w : CWord} {s : State} {e : CallEnd} (hi : capIssues (.vprjb w) s = true)
    (hs : vprjbStart w (drainCap s) = .error e) : vFails .vprjb w s e := by
  refine vFails_of (body := vprjbBody) rfl rfl hi ?_
  rw [vprjbBody_eq, hs]

theorem vprjb_refused {w : CWord} {s : State} (hi : capIssues (.vprjb w) s = true)
    (hs : vprjbStart w (drainCap s) = .error (operandEnd (drainCap s))) : vRefused .vprjb w s := by
  refine vRefused_of (body := vprjbBody) rfl rfl hi ?_
  rw [vprjbBody_eq, hs]

section
variable {w : CWord} {u : State}

theorem vprjbStart_displaced (h : ¬ vPlaced u (capA u w)) : vprjbStart w u = .error (operandEnd u) := by
  unfold vprjbStart
  dsimp only
  rw [readVcb_displaced h]

variable {v : Vcb} (hv : readVcb u (capPad (capA u w)) = .ok v)
include hv

theorem vprjbStart_bias {e : CallEnd} (hb : biasOf u v = .error e) : vprjbStart w u = .error e := by
  unfold vprjbStart
  dsimp only
  rw [hv]
  dsimp only
  rw [hb]

variable {bias : AMap Nat} (hb : biasOf u v = .ok bias)
include hb

theorem vprjbStart_ctx {e : CallEnd} (hx : vocabCtx u (vBlock u (capA u w)) ((capB u w).toNat % 256) bias = .error e) :
    vprjbStart w u = .error e := by
  have hx : vocabCtx u (vcbBytes u (capPad (capA u w))) ((capB u w).toNat % 256) bias = .error e := hx
  unfold vprjbStart
  dsimp only
  rw [hv]
  dsimp only
  rw [hb]
  dsimp only
  rw [hx]

variable {x : TileRun} (hx : vocabCtx u (vBlock u (capA u w)) ((capB u w).toNat % 256) bias = .ok x)
include hx

/-- VPRJB's start behind its block's checks. -/
theorem vprjbStart_checked : vprjbStart w u =
    if natBits (capB u w).toNat 24 8 != 0 || !v.isNamed || decide (v.named = 0) || !fFinite (natBits (capB u w).toNat 32 32) ||
      decide (v.tiles ≤ gradTile w u) || !capPadOk u (capPad (capC u w))
        ((v.rows - 1) * v.gradPitch (gradTile w u) + 129 * ((v.width (gradTile w u) + 63) / 64)) then .error (operandEnd u)
    else (readRows u v v.state).map (fun rs => { x with first := gradTile w u, tile := gradTile w u, rows := rs }) := by
  have hx : vocabCtx u (vcbBytes u (capPad (capA u w))) ((capB u w).toNat % 256) bias = .ok x := hx
  unfold vprjbStart
  dsimp only
  rw [hv]
  dsimp only
  rw [hb]
  dsimp only
  rw [hx]
  cases readRows u v v.state <;> rfl

theorem vprjbStart_unfit (h : ¬ gradFits w u v) : vprjbStart w u = .error (operandEnd u) :=
  (vprjbStart_checked hv hb hx).trans (if_pos (gradRefused_iff.mpr h))

theorem vprjbStart_fit (h : gradFits w u v) :
    vprjbStart w u = (readRows u v v.state).map (fun rs => { x with first := gradTile w u, tile := gradTile w u, rows := rs }) :=
  (vprjbStart_checked hv hb hx).trans (if_neg fun hn => gradRefused_iff.mp hn h)

end

/-- VPRJB, started, whose weights cannot be read. -/
theorem vprjb_unread {w : CWord} {s : State} {x : TileRun} {e : CallEnd} (hi : capIssues (.vprjb w) s = true)
    (hs : vprjbStart w (drainCap s) = .ok x) (ht : runTile (drainCap s) x.ctx x.tile = .error e) : vFails .vprjb w s e := by
  refine vFails_of (body := vprjbBody) rfl rfl hi ?_
  rw [vprjbBody_eq, hs]
  dsimp only
  rw [ht]

/-- VPRJB, started, writes its gradient. -/
theorem vprjb_writes {w : CWord} {s t : State} {x : TileRun} {ys : List (List (Nat × Nat))} (hi : capIssues (.vprjb w) s = true)
    (hs : vprjbStart w (drainCap s) = .ok x) (ht : runTile (drainCap s) x.ctx x.tile = .ok (ys, t)) :
    let u := drainCap s
    let v := Vcb.ofBytes x.vcb
    exec (.vprjb w) s = .next (capGoes w (v.cost 1 + 16 * v.rows) (setVstat (putGrads v (natBits (capB u w).toNat 32 32)
      (capPad (capC u w)) (v.gradPitch x.tile) 0 (namedIds u v) x.rows ys t) 1 0xFFFF 0)) := by
  refine exec_goes (mk := .vprjb) (body := vprjbBody) rfl rfl hi ?_
  rw [vprjbBody_eq, hs]
  dsimp only
  rw [ht]

/-- VPRJB's failures, in the order of its checks. -/
theorem vprjb_failures {w : CWord} {s : State} (hi : capIssues (.vprjb w) s = true) :
    let u := drainCap s
    let base := (capB u w).toNat % 256
    (¬ vPlaced u (capA u w) → vRefused .vprjb w s) ∧
    (∀ v, readVcb u (capPad (capA u w)) = .ok v →
      (∀ e, biasOf u v = .error e → vFails .vprjb w s e) ∧
      (∀ bias, biasOf u v = .ok bias → ¬ (vInRange v ∧ vAreas u v base) → vRefused .vprjb w s) ∧
      (∀ bias, biasOf u v = .ok bias → vInRange v → vAreas u v base →
        (∀ e, readWeights u v = .error e → vFails .vprjb w s e) ∧
        (∀ d, readWeights u v = .ok d →
          (¬ gradFits w u v → vRefused .vprjb w s) ∧
          (∀ e, gradFits w u v → readRows u v v.state = .error e → vFails .vprjb w s e) ∧
          (∀ rs x e, gradFits w u v → readRows u v v.state = .ok rs → vocabCtx u (vBlock u (capA u w)) base bias = .ok x →
            runTile u x.ctx (gradTile w u) = .error e → vFails .vprjb w s e)))) := by
  intro u base
  refine ⟨fun h => vprjb_refused hi (vprjbStart_displaced h), fun v hv => ?_⟩
  obtain ⟨-, rfl⟩ := of_readVcb hv
  refine ⟨fun e hb => vprjb_fails hi (vprjbStart_bias hv hb),
    fun bias hb h => vprjb_refused hi (vprjbStart_ctx hv hb (vocabCtx_refused h)), fun bias hb hr ha =>
    ⟨fun e hw => vprjb_fails hi (vprjbStart_ctx hv hb (vocabCtx_error hr ha hw)), fun d hw => ?_⟩⟩
  have hx := vocabCtx_ok (bias := bias) hr ha hw
  refine ⟨fun h => vprjb_refused hi (vprjbStart_unfit hv hb hx h), fun e h hrow => vprjb_fails hi ((vprjbStart_fit hv hb hx h).trans ?_),
    fun rs x e h hrow hx' ht => vprjb_unread (x := { x with first := gradTile w u, tile := gradTile w u, rows := rs }) hi
      ((vprjbStart_fit hv hb hx' h).trans ?_) ht⟩
  · rw [hrow]
    rfl
  · rw [hrow]
    rfl

/-- VPRJB's effect. -/
theorem vprjb_gradient {w : CWord} {s t : State} {v : Vcb} {bias : AMap Nat} {x : TileRun} {rs : List VRow}
    {ys : List (List (Nat × Nat))} (hi : capIssues (.vprjb w) s = true) :
    let u := drainCap s
    readVcb u (capPad (capA u w)) = .ok v → biasOf u v = .ok bias →
    vocabCtx u (vBlock u (capA u w)) ((capB u w).toNat % 256) bias = .ok x → gradFits w u v → readRows u v v.state = .ok rs →
    runTile u x.ctx (gradTile w u) = .ok (ys, t) →
    exec (.vprjb w) s = .next (capGoes w (v.cost 1 + 16 * v.rows) (setVstat (putGrads v (natBits (capB u w).toNat 32 32)
      (capPad (capC u w)) (pitchOf (129 * gradSegs w u v)) 0 (namedIds u v) rs ys t) 1 0xFFFF 0)) := by
  intro u hv hb hx hg hrow ht
  obtain ⟨-, rfl⟩ := of_readVcb hv
  have hs : vprjbStart w u = .ok { x with first := gradTile w u, tile := gradTile w u, rows := rs } := by
    rw [vprjbStart_fit hv hb hx hg, hrow]
    rfl
  have h := vprjb_writes hi hs ht
  dsimp only at h
  rw [(of_vocabCtx hx).1] at h
  exact h

/-! ### VMRG (R276, R296) -/

/-- The bytes of a block's states. -/
def statesLen (v : Vcb) : Nat := v.rows * v.stride

/-- The states of the shards and STATE are in range, and the shards do not overlap STATE, unless they begin there. -/
def mergeFits (u : State) (v : Vcb) (src : Nat) : Prop :=
  vInRange v ∧ padHolds u v.state (statesLen v) ∧ padHolds u src (v.scount * statesLen v) ∧
    (src = v.state ∨ src + v.scount * statesLen v ≤ v.state ∨ v.state + statesLen v ≤ src)

theorem mergeRefused_iff {u : State} {v : Vcb} {src : Nat} :
    (!v.ok || !capPadOk u v.state (statesLen v) || !capPadOk u src (v.scount * statesLen v) ||
      (overlaps src (v.scount * statesLen v) v.state (statesLen v) && src != v.state)) = true ↔ ¬ mergeFits u v src := by
  have ho : (overlaps src (v.scount * statesLen v) v.state (statesLen v) && src != v.state) = false ↔
      (src = v.state ∨ src + v.scount * statesLen v ≤ v.state ∨ v.state + statesLen v ≤ src) := by
    rw [← Bool.not_eq_true, Bool.and_eq_true, overlaps_iff, bne_iff_ne]
    omega
  rw [← Bool.not_eq_false, not_iff_not, Bool.or_eq_false_iff, Bool.or_eq_false_iff, Bool.or_eq_false_iff, ho, Bool.not_eq_false',
    Bool.not_eq_false', Bool.not_eq_false', vcbOk_iff, capPadOk_iff, capPadOk_iff, and_assoc, and_assoc]
  rfl

/-- The states of the shards, in ascending order. -/
def shardRows (u : State) (v : Vcb) (src : Nat) : VGet (List (List VRow)) :=
  (List.range v.scount).mapM (fun i => readRows u v (src + i * statesLen v))

theorem vmrgBody_displaced {w : CWord} {s : State} (h : ¬ vPlaced (drainCap s) (capA (drainCap s) w)) :
    vmrgBody w s = .stop 8 (operandEnd (drainCap s)) (drainCap s) := by
  unfold vmrgBody
  dsimp only
  rw [readVcb_displaced h]

section
variable {w : CWord} {s : State} {v : Vcb} (hv : readVcb (drainCap s) (capPad (capA (drainCap s) w)) = .ok v)
include hv

theorem vmrgBody_unfit (h : ¬ mergeFits (drainCap s) v (capPad (capB (drainCap s) w))) :
    vmrgBody w s = .stop 8 (operandEnd (drainCap s)) (drainCap s) := by
  unfold vmrgBody
  dsimp only
  rw [hv]
  exact if_pos (mergeRefused_iff.mpr h)

/-- VMRG behind its checks. -/
theorem vmrgBody_fit (h : mergeFits (drainCap s) v (capPad (capB (drainCap s) w))) :
    vmrgBody w s = match shardRows (drainCap s) v (capPad (capB (drainCap s) w)) with
      | .error e => .stop 8 e (drainCap s)
      | .ok [] => .stop 8 (operandEnd (drainCap s)) (drainCap s)
      | .ok (a :: t) => match foldShards v t (a.map (fun r => { r with thr := v.thr }), 0) with
        | none => .stop (8 + 2 * v.rows * v.scount) (statusEnd (drainCap s) 6) (drainCap s)
        | some (rs, f) => .done (8 + 2 * v.rows * v.scount) (orFlagsOf (writeRows (drainCap s) v rs) (capCord (drainCap s)) f) := by
  unfold vmrgBody
  dsimp only
  rw [hv]
  exact if_neg fun hn => mergeRefused_iff.mp hn h

end

/-- VMRG: its checks, what cannot be read, a heap that spills, and the states folded. -/
theorem vmrg_word {w : CWord} {s : State} (hi : capIssues (.vmrg w) s = true) :
    let u := drainCap s
    let src := capPad (capB u w)
    (¬ vPlaced u (capA u w) → exec (.vmrg w) s = .next (capEnds 8 (operandEnd u) u)) ∧
    (∀ v, readVcb u (capPad (capA u w)) = .ok v →
      (¬ mergeFits u v src → exec (.vmrg w) s = .next (capEnds 8 (operandEnd u) u)) ∧
      (∀ e, mergeFits u v src → shardRows u v src = .error e → exec (.vmrg w) s = .next (capEnds 8 e u)) ∧
      (∀ first rest, mergeFits u v src → shardRows u v src = .ok (first :: rest) →
        foldShards v rest (first.map (fun r => { r with thr := v.thr }), 0) = none →
        exec (.vmrg w) s = .next (capEnds (8 + 2 * v.rows * v.scount) (statusEnd u 6) u))) := by
  intro u src
  refine ⟨fun h => exec_ends (mk := .vmrg) (body := vmrgBody) rfl rfl hi (vmrgBody_displaced h), fun v hv =>
    ⟨fun h => exec_ends (mk := .vmrg) (body := vmrgBody) rfl rfl hi (vmrgBody_unfit hv h), fun e h he => ?_, fun a t h hr hf => ?_⟩⟩
  · refine exec_ends (mk := .vmrg) (body := vmrgBody) rfl rfl hi ?_
    rw [vmrgBody_fit hv h, he]
  · refine exec_ends (mk := .vmrg) (body := vmrgBody) rfl rfl hi ?_
    rw [vmrgBody_fit hv h, hr]
    dsimp only
    rw [hf]

theorem vmrg_folds {w : CWord} {s : State} {v : Vcb} {first : List VRow} {rest : List (List VRow)} {rs : List VRow} {f : Flags}
    (hi : capIssues (.vmrg w) s = true) :
    let u := drainCap s
    let src := capPad (capB u w)
    readVcb u (capPad (capA u w)) = .ok v → mergeFits u v src → shardRows u v src = .ok (first :: rest) →
    foldShards v rest (first.map (fun r => { r with thr := v.thr }), 0) = some (rs, f) →
    exec (.vmrg w) s = .next (capGoes w (8 + 2 * v.rows * v.scount) (orFlagsOf (writeRows u v rs) (capCord u) f)) := by
  intro u src hv h hr hf
  refine exec_goes (mk := .vmrg) (body := vmrgBody) rfl rfl hi ?_
  rw [vmrgBody_fit hv h, hr]
  dsimp only
  rw [hf]

/-! ### The state utilities (R298) -/

/-- What a utility does: on a block in its place whose fields and whose output are in range, and where a check fails. -/
def vUtil (mk : CWord → Instr) (n : Vcb → Nat) (fits : CWord → State → Vcb → Prop) (states : Bool)
    (effect : CWord → State → Vcb → List VRow → State) : Prop :=
  (∀ w s v rs, capIssues (mk w) s = true → readVcb (drainCap s) (capPad (capA (drainCap s) w)) = .ok v → vInRange v →
    fits w (drainCap s) v → (states = true → readRows (drainCap s) v v.state = .ok rs) →
    exec (mk w) s = .next (capGoes w (n v) (effect w (drainCap s) v rs))) ∧
  (∀ w s, capIssues (mk w) s = true → ¬ vPlaced (drainCap s) (capA (drainCap s) w) →
    exec (mk w) s = .next (capEnds 2 (operandEnd (drainCap s)) (drainCap s))) ∧
  (∀ w s v, capIssues (mk w) s = true → readVcb (drainCap s) (capPad (capA (drainCap s) w)) = .ok v →
    ¬ (vInRange v ∧ fits w (drainCap s) v) → exec (mk w) s = .next (capEnds 2 (operandEnd (drainCap s)) (drainCap s))) ∧
  (∀ w s v e, capIssues (mk w) s = true → readVcb (drainCap s) (capPad (capA (drainCap s) w)) = .ok v → vInRange v →
    fits w (drainCap s) v → states = true → readRows (drainCap s) v v.state = .error e →
    exec (mk w) s = .next (capEnds 2 e (drainCap s)))

theorem utilVcb_displaced {u : State} {a : DWord} (h : ¬ vPlaced u a) : utilVcb u (capPad a) = .error (operandEnd u) := by
  unfold utilVcb
  rw [readVcb_displaced h]

theorem utilVcb_inRange {u : State} {o : Nat} {v : Vcb} (hv : readVcb u o = .ok v) (hr : vInRange v) : utilVcb u o = .ok v := by
  unfold utilVcb
  rw [hv]
  exact if_pos (vcbOk_iff.mpr hr)

theorem utilVcb_outOfRange {u : State} {o : Nat} {v : Vcb} (hv : readVcb u o = .ok v) (hr : ¬ vInRange v) :
    utilVcb u o = .error (operandEnd u) := by
  unfold utilVcb
  rw [hv]
  exact if_neg (mt vcbOk_iff.mp hr)

/-- A utility's body: go on a block that passes its checks. -/
def utilBody (go : CWord → State → Vcb → CRes) (w : CWord) (s : State) : CRes :=
  match utilVcb (drainCap s) (capPad (capA (drainCap s) w)) with
  | .error e => .stop 2 e (drainCap s)
  | .ok v => go w (drainCap s) v

theorem vUtil_of {mk : CWord → Instr} {n : Vcb → Nat} {fits : CWord → State → Vcb → Prop} {states : Bool}
    {effect : CWord → State → Vcb → List VRow → State} {g : CWord → CForm} {body : CWord → State → CRes}
    {go : CWord → State → Vcb → CRes} (hf : ∀ w, capstanForm (mk w) = some (w, g w))
    (he : ∀ w s, exec (mk w) s = .next (runCap (mk w) body s)) (hb : ∀ w s, body w s = utilBody go w s)
    (hgo : ∀ w u v rs, fits w u v → (states = true → readRows u v v.state = .ok rs) → go w u v = .done (n v) (effect w u v rs))
    (hunfit : ∀ w u v, ¬ fits w u v → go w u v = .stop 2 (operandEnd u) u)
    (hbad : ∀ w u v e, fits w u v → states = true → readRows u v v.state = .error e → go w u v = .stop 2 e u) :
    vUtil mk n fits states effect := by
  refine ⟨fun w s v rs hi hv hr ht hrow => ?_, fun w s hi h => ?_, fun w s v hi hv h => ?_, fun w s v e hi hv hr ht hst hrow => ?_⟩
  · refine exec_goes (hf w) (he w s) hi ((hb w s).trans ?_)
    unfold utilBody
    rw [utilVcb_inRange hv hr]
    exact hgo w _ v rs ht hrow
  · refine exec_ends (hf w) (he w s) hi ((hb w s).trans ?_)
    unfold utilBody
    rw [utilVcb_displaced h]
  · refine exec_ends (hf w) (he w s) hi ((hb w s).trans ?_)
    unfold utilBody
    by_cases hr : vInRange v
    · rw [utilVcb_inRange hv hr]
      exact hunfit w _ v fun ht => h ⟨hr, ht⟩
    · rw [utilVcb_outOfRange hv hr]
  · refine exec_ends (hf w) (he w s) hi ((hb w s).trans ?_)
    unfold utilBody
    rw [utilVcb_inRange hv hr]
    exact hbad w _ v e ht hst hrow

/-- VCLR's effect: initial states, and no resume status. -/
def cleared (u : State) (v : Vcb) : State :=
  let t := writeRows u v (List.replicate v.rows v.initRow)
  let c := getCord t (capCord t)
  setCord t (capCord t) { c with vstat := { c.vstat with resume := 0xFFFF } }

/-- VCLR on a block. -/
def vclrOn (_ : CWord) (u : State) (v : Vcb) : CRes :=
  if capPadOk u v.state (v.rows * v.stride) then .done (2 + v.rows) (cleared u v) else .stop 2 (operandEnd u) u

theorem vclrBody_eq (w : CWord) (s : State) : vclrBody w s = utilBody vclrOn w s := by
  unfold vclrBody utilBody vclrOn cleared
  dsimp only
  cases utilVcb (drainCap s) (capPad (capA (drainCap s) w)) with
  | error e => rfl
  | ok v => dsimp only; cases capPadOk (drainCap s) v.state (v.rows * v.stride) <;> rfl

theorem vclr_word : vUtil .vclr (fun v => 2 + v.rows) (fun _ u v => padHolds u v.state (v.rows * v.stride)) false
    (fun _ u v _ => cleared u v) :=
  vUtil_of (fun _ => rfl) (fun _ _ => rfl) vclrBody_eq (fun _ _ _ _ h _ => if_pos (capPadOk_iff.mpr h))
    (fun _ _ _ h => if_neg (mt capPadOk_iff.mp h)) (fun _ _ _ _ _ h => (Bool.false_ne_true h).elim)

/-- A utility that writes its output from the states in STATE: the output's bytes, the cost, and the effect. -/
def statesOn (len : Vcb → Nat) (n : Vcb → Nat) (effect : CWord → State → Vcb → List VRow → State) (w : CWord) (u : State) (v : Vcb) : CRes :=
  if capPadOk u (capPad (capB u w)) (len v) then
    match readRows u v v.state with
    | .error e => .stop 2 e u
    | .ok rs => .done (n v) (effect w u v rs)
  else .stop 2 (operandEnd u) u

theorem states_word {mk : CWord → Instr} {len n : Vcb → Nat} {effect : CWord → State → Vcb → List VRow → State} {g : CWord → CForm}
    {body : CWord → State → CRes} (hf : ∀ w, capstanForm (mk w) = some (w, g w))
    (he : ∀ w s, exec (mk w) s = .next (runCap (mk w) body s)) (hb : ∀ w s, body w s = utilBody (statesOn len n effect) w s) :
    vUtil mk n (fun w u v => padHolds u (capPad (capB u w)) (len v)) true effect := by
  refine vUtil_of hf he hb (fun w u v rs h hrow => ?_) (fun w u v h => if_neg (mt capPadOk_iff.mp h)) (fun w u v e h _ hrow => ?_)
  · refine (if_pos (capPadOk_iff.mpr h)).trans ?_
    rw [hrow rfl]
  · refine (if_pos (capPadOk_iff.mpr h)).trans ?_
    rw [hrow]

/-- What VHEAP writes of an entry, with its place in the heap. -/
def entryValue (w : CWord) (r : VRow) (e : (Nat × Nat) × Nat) : Nat × Flags :=
  if w.imm.getLsbD 0 = true ∧ e.2 < r.heap.length then probOf e.1.1 r.m r.s else (e.1.1, 0)

/-- The bytes and the flags that VHEAP makes of a row. -/
def heapRow (w : CWord) (v : Vcb) (r : VRow) : List Byte :=
  (r.entries v.heapk).flatMap (fun e => leBytes 4 e.2) ++ (r.entries v.heapk).zipIdx.flatMap (fun e => leBytes 4 (entryValue w r e).1)
def heapFlags (w : CWord) (v : Vcb) (rs : List VRow) : Flags :=
  rs.foldl (fun f r => ((r.entries v.heapk).zipIdx.map (entryValue w r)).foldl (fun f x => f ||| x.2) f) 0

/-- VHEAP's effect. -/
def heapsWritten (w : CWord) (u : State) (v : Vcb) (rs : List VRow) : State :=
  orFlagsOf (scratchWr u (capCord u) (capPad (capB u w)) (rs.flatMap (heapRow w v))) (capCord u) (heapFlags w v rs)

theorem heapValue_eq (w : CWord) (r : VRow) (e : (Nat × Nat) × Nat) : heapValue (w.imm.getLsbD 0) r e.2 e.1.1 = entryValue w r e := by
  unfold heapValue entryValue
  refine if_congr ?_ rfl rfl
  rw [Bool.and_eq_true, decide_eq_true_eq]

theorem vheapBody_eq (w : CWord) (s : State) : vheapBody w s =
    utilBody (statesOn (fun v => 8 * v.heapk * v.rows) (fun v => 2 + v.rows * v.heapk / 8) heapsWritten) w s := by
  unfold vheapBody utilBody statesOn heapsWritten heapRow heapFlags
  simp only [heapValue_eq, List.flatMap_map]
  cases utilVcb (drainCap s) (capPad (capA (drainCap s) w)) with
  | error e => rfl
  | ok v => dsimp only; cases capPadOk (drainCap s) (capPad (capB (drainCap s) w)) (8 * v.heapk * v.rows) <;> rfl

/-- VNORM's effect. -/
def normsWritten (w : CWord) (u : State) (_ : Vcb) (rs : List VRow) : State :=
  scratchWr u (capCord u) (capPad (capB u w)) (rs.flatMap (fun r => leBytes 4 r.m ++ leBytes 4 r.s ++ leBytes 4 r.valid ++ leBytes 4 0))

theorem vnormBody_eq (w : CWord) (s : State) : vnormBody w s =
    utilBody (statesOn (fun v => 16 * v.rows) (fun v => 2 + v.rows) normsWritten) w s := by
  unfold vnormBody utilBody statesOn normsWritten
  dsimp only
  cases utilVcb (drainCap s) (capPad (capA (drainCap s) w)) with
  | error e => rfl
  | ok v => dsimp only; cases capPadOk (drainCap s) (capPad (capB (drainCap s) w)) (16 * v.rows) <;> rfl

theorem vheap_word : vUtil .vheap (fun v => 2 + v.rows * v.heapk / 8)
    (fun w u v => padHolds u (capPad (capB u w)) (8 * v.heapk * v.rows)) true heapsWritten :=
  states_word (fun _ => rfl) (fun _ _ => rfl) vheapBody_eq

theorem vnorm_word : vUtil .vnorm (fun v => 2 + v.rows) (fun w u v => padHolds u (capPad (capB u w)) (16 * v.rows)) true normsWritten :=
  states_word (fun _ => rfl) (fun _ _ => rfl) vnormBody_eq

/-! ### The obligation -/

/-- Settles O40: a tile by `vMakes_of` and `vSpills_of`, the starts and their failures in the order of the checks, the other words by their
bodies. -/
theorem vocabComplete : Obligations.VocabComplete := by
  refine ⟨?vprojLater, ?vresLater, ?vprojStarts, ?context, ?vprojLarge, ?contextOk, ?block, ?rows, ?vprojFails, ?vprjbFails, ?vresFails,
    ?vresStarts, ?vprjb, ?vmrg, ?vmrgFolds, ?vclr, ?vheap, ?vnorm, ?vstat⟩
  case vprojLater => exact fun w s x hi h => vMakes_of (mk := .vproj) (body := vprojBody) rfl rfl hi (vprojBody_later h)
  case vresLater => exact fun w s x hi h => vMakes_of (mk := .vres) (body := vresBody) rfl rfl hi (vresBody_later h)
  case vprojStarts => exact fun w s v bias x rs hi hf hv hk hb hx hr => vproj_starts hi hf hv hk hb hx hr
  case context => exact fun s vcb base bias x h => of_vocabCtx h
  case vprojLarge => exact fun w s v hi hf hv hk => vproj_fails hi hf (vprojStart_large hv hk)
  case contextOk => exact fun u vcb base bias d hr ha hw => vocabCtx_ok hr ha hw
  case block =>
    intro s a v h
    have h : vPlaced s a := h
    exact ⟨fun hv => (of_readVcb hv).2, fun hv => hv ▸ readVcb_placed h⟩
  case rows => exact fun s v off h rs => readRows_lies h rs
  case vprojFails => exact fun w s hi => vproj_failures hi
  case vprjbFails => exact fun w s hi => vprjb_failures hi
  case vresFails => exact fun w s hi => vres_failures hi
  case vresStarts =>
    exact fun w s v b bias x sb rs hi hf hv hm hal hsame hheap hk hb hx hsb hr ht =>
      vres_starts (x := x) (rs := rs) hi hf hv hm hal hsame hheap hk hb hx hsb hr ht
  case vprjb =>
    exact fun w s v bias x rs ys t hi hv hb hx hrsv hm hn hs ht hl hrow hrun =>
      vprjb_gradient hi hv hb hx ⟨hrsv, isNamed_iff.mp hm, hn, scaleFinite_iff.mp hs, ht, hl⟩ hrow hrun
  case vmrg => exact fun w s hi => vmrg_word hi
  case vmrgFolds =>
    exact fun w s v first rest rs f hi hv hok hst hsrc ho hr hf => vmrg_folds hi hv ⟨vcbOk_iff.mp hok, hst, hsrc, ho⟩ hr hf
  case vclr => exact vclr_word
  case vheap => exact vheap_word
  case vnorm => exact vnorm_word
  case vstat => exact fun w s hi => exec_goes (mk := .vstat) (body := vstatBody) rfl rfl hi rfl

end Sys2Proof.Machine
end
